-- ==== Sys2Proof/Word.lean ====
section
/-! DEFINITION. The word types of the Scepex 9400 (R3, R4, R45, R76) and nothing else: bytes, 32-bit
words, 64-bit doublewords, register and mask numbers, and a 32-lane vector.
-/

namespace Sys2Proof

/-- One byte of memory. -/
abbrev Byte := BitVec 8

/-- A 32-bit word: a lane of a vector register, a uniform register, a mask register (R45). -/
abbrev Word := BitVec 32

/-- A 64-bit doubleword: a uniform pair, an address (R4, R212). -/
abbrev DWord := BitVec 64

/-- A register number of a 64-register file (R76, R81). -/
abbrev Reg := BitVec 6

/-- A mask register number `k0`-`k7` (R76). -/
abbrev KReg := BitVec 3

/-- Thirty-two lanes of anything (R16). -/
abbrev Lanes (α : Type) := Vector α 32

/-- A set of lanes, bit l for lane l (R3). -/
abbrev LaneMask := BitVec 32

/-- Build thirty-two lanes from a rule for each. -/
def Lanes.make {α : Type} (f : Fin 32 → α) : Lanes α := Vector.ofFn f

/-- The same value in every lane. -/
def Lanes.all {α : Type} (x : α) : Lanes α := Vector.replicate 32 x

end Sys2Proof
end

