-- ==== Sys2Proof/Syntax.lean ====
section
/-! DEFINITION. The syntax: operand shapes, and the one inductive `Instr` with one constructor for each
row of spec/opcode_table.json (R75 to R91, R98, R99 for instruction words; R416 for host commands; the
device's own events by the rule each row names).
-/

namespace Sys2Proof

/-! ## Operand shapes of instruction words -/

/-- The index payload of an `XP` before an LR word (R91). A window or index field of an operand that is
not indexed plays no part. -/
structure Ix where
  di : Bool
  ai : Bool
  bi : Bool
  dw : BitVec 2
  dx : BitVec 3
  aw : BitVec 2
  ax : BitVec 3
  bw : BitVec 2
  bx : BitVec 3
  dxr : Bool
  deriving DecidableEq, Repr

/-- LR, three registers and C, index payload optional (R76, R90). -/
structure LrB where
  k : KReg
  c : Bool
  d : Reg
  a : Reg
  b : Reg
  ix : Option Ix
  deriving DecidableEq, Repr

/-- LR, unary: B is 0 (R98). -/
structure LrU where
  k : KReg
  c : Bool
  d : Reg
  a : Reg
  ix : Option Ix
  deriving DecidableEq, Repr

/-- LR compare: D is 0 and C is 1 (R89). -/
structure LrC where
  k : KReg
  a : Reg
  b : Reg
  ix : Option Ix
  deriving DecidableEq, Repr

/-- `ISEL`: F is a condition, C is 0 (R162). -/
structure LrS where
  k : KReg
  cond : BitVec 3
  d : Reg
  a : Reg
  b : Reg
  ix : Option Ix
  deriving DecidableEq, Repr

/-- `FMAS`: the required prefix names the scale register and the two bytes (R90, R171). -/
structure FmasOp where
  k : KReg
  c : Bool
  d : Reg
  a : Reg
  b : Reg
  sr : Reg
  ba : BitVec 2
  bb : BitVec 2
  deriving DecidableEq, Repr

/-- A selector of `FRND` and the conversions, bits 2:0 of B (R98). -/
inductive RndSel where
  | fpc | rne | rtz | rdn | rup
  deriving DecidableEq, Repr

/-- `FRND` and the conversions: B is the selector; `s` is false where S must be 0 (R98, R176). -/
structure CvtOp where
  k : KReg
  c : Bool
  d : Reg
  a : Reg
  s : Bool
  m : RndSel
  ix : Option Ix
  deriving DecidableEq, Repr

/-- LI with a 32-bit immediate: imm9 sign-extended, or with an `XP` the payload 22:0 before it (R77, R164). -/
structure LiOp where
  k : KReg
  c : Bool
  d : Reg
  a : Reg
  imm : BitVec 9
  hi : Option (BitVec 23)
  deriving DecidableEq, Repr

/-- `IMOVI`: A is 0 (R77). -/
structure LiMov where
  k : KReg
  c : Bool
  d : Reg
  imm : BitVec 9
  hi : Option (BitVec 23)
  deriving DecidableEq, Repr

/-- A lane shift by an immediate 0 to 31 (R77). -/
structure LiSh where
  k : KReg
  c : Bool
  d : Reg
  a : Reg
  sh : BitVec 5
  deriving DecidableEq, Repr

/-- LL, two sources (R79). -/
structure LlB where
  k : KReg
  la : BitVec 4
  d : Reg
  a : Reg
  b : Reg
  deriving DecidableEq, Repr

/-- LL, SFU: B is the function (R98). -/
structure LlU where
  k : KReg
  la : BitVec 4
  d : Reg
  a : Reg
  deriving DecidableEq, Repr

/-- `MVT`: m - 1, n - 1 and the word offset stand in the required prefix (R178). -/
structure MvtOp where
  k : KReg
  la : BitVec 4
  d : Reg
  a : Reg
  b : Reg
  m1 : BitVec 3
  n1 : BitVec 3
  off : BitVec 18
  deriving DecidableEq, Repr

/-- The LM prefix: scale bit and signed byte displacement (R90). -/
structure LmPx where
  sc : Bool
  disp : BitVec 23
  deriving DecidableEq, Repr

/-- LM load (R80). -/
structure LmLd where
  k : KReg
  la : BitVec 4
  d : Reg
  a : Reg
  p : BitVec 4
  sz : BitVec 2
  px : Option LmPx
  deriving DecidableEq, Repr

/-- LM store: LA is 0 (R80, R97). -/
structure LmSt where
  k : KReg
  d : Reg
  a : Reg
  p : BitVec 4
  sz : BitVec 2
  px : Option LmPx
  deriving DecidableEq, Repr

/-- The packed element types, T 0 to 12 in order (R78). -/
inductive PType where
  | i16 | n16 | f16 | bf16 | i8 | n8 | e4m3 | e5m2 | e3m2 | e2m3 | i4 | n4 | e2m1
  deriving DecidableEq, Repr

/-- LP, two sources, S where it is accepted (R78, R182). -/
structure LpB where
  k : BitVec 2
  s : Bool
  t : PType
  d : Reg
  a : Reg
  b : Reg
  deriving DecidableEq, Repr

/-- The second type of `PCVT`: a packed type or f32 (R187). -/
inductive CvtType where
  | packed (t : PType)
  | f32
  deriving DecidableEq, Repr

/-- `PCVT`: `toU` false converts U to T, true converts T to U (R187). -/
structure PcvtOp where
  k : BitVec 2
  s : Bool
  t : PType
  d : Reg
  a : Reg
  toU : Bool
  u : CvtType
  deriving DecidableEq, Repr

/-- LR without a prefix: op or mode in F (R236, R288). -/
structure LrF where
  k : KReg
  c : Bool
  f : BitVec 3
  d : Reg
  a : Reg
  b : Reg
  deriving DecidableEq, Repr

/-- LR without a prefix and without C (R244, R246, R249, R290). -/
structure LrN where
  k : KReg
  d : Reg
  a : Reg
  b : Reg
  deriving DecidableEq, Repr

/-- GR, three registers (R81). -/
structure GrB where
  d : Reg
  a : Reg
  b : Reg
  deriving DecidableEq, Repr

/-- GR or GI, two registers. -/
structure GrU where
  d : Reg
  a : Reg
  deriving DecidableEq, Repr

/-- GR compare: D is 0 (R190). -/
structure GrC where
  a : Reg
  b : Reg
  deriving DecidableEq, Repr

/-- GI with a 32-bit immediate: imm12 sign-extended, or with an `XP` the payload 19:0 before it (R82, R193). -/
structure GiOp where
  d : Reg
  a : Reg
  imm : BitVec 12
  hi : Option (BitVec 20)
  deriving DecidableEq, Repr

/-- `SMOVI`: A is 0; `SCMPI` names its source here (R193). -/
structure GiOne where
  r : Reg
  imm : BitVec 12
  hi : Option (BitVec 20)
  deriving DecidableEq, Repr

/-- GI shift by an immediate 0 to 31 (R193). -/
structure GiSh where
  d : Reg
  a : Reg
  sh : BitVec 5
  deriving DecidableEq, Repr

/-- GJ with a condition (R83). -/
structure GjC where
  cond : BitVec 4
  off : BitVec 20
  deriving DecidableEq, Repr

/-- GJ mask test (R83). -/
structure GjM where
  s : Bool
  m : KReg
  off : BitVec 20
  deriving DecidableEq, Repr

/-- GM with two source masks (R233). -/
structure GmB where
  kd : KReg
  ka : KReg
  kb : KReg
  deriving DecidableEq, Repr

/-- The scopes of fences and `PUBLISH` (R86, R311). -/
inductive Scope where
  | grp | core | die | pkg | sys
  deriving DecidableEq, Repr

/-- GL uniform memory form, LA 0 for `SST`; `hi` is the prefix payload (R86, R90). -/
structure GlOp where
  la : BitVec 4
  d : Reg
  p : BitVec 5
  imm : BitVec 9
  hi : Option (BitVec 24)
  deriving DecidableEq, Repr

/-- GL with a scope in bits 23:20 (R86). -/
structure GlS where
  scope : Scope
  d : Reg
  p : BitVec 5
  imm : BitVec 9
  hi : Option (BitVec 24)
  deriving DecidableEq, Repr

/-- GA copy form (R87). -/
structure GaC where
  ring : Bool
  p : BitVec 5
  a : Reg
  b : Reg
  imm : BitVec 3
  deriving DecidableEq, Repr

/-- `MLOOP` (R88, R349): the prefix holds AINC then BINC. -/
structure MloopOp where
  sl : BitVec 3
  vs : Reg
  sel : BitVec 4
  n : BitVec 8
  inc : Option (BitVec 12 × BitVec 12)
  deriving DecidableEq, Repr

/-! ## Host commands (R413 to R416) and device events -/

/-- The header fields of a command message that are neither its code nor fixed by its arguments (R414). -/
structure CmdHdr where
  queue : Nat
  hseq : Nat
  ctx : Nat
  deriving DecidableEq, Repr

/-- `CTX_CREATE` (R416). -/
structure CtxArgs where
  firstQueue : Nat
  queueCount : Nat
  prioLimit : Nat
  sliceNs : Nat
  deadlineNs : Nat
  samplePeriod : Nat
  ringLog2 : Nat
  threshold : Nat
  journalLog2 : Nat
  deriving DecidableEq, Repr

/-- `FW_INFO` (R416): its header and its argument, the context whose figures it asks for. -/
structure InfoArgs where
  hdr : CmdHdr
  ctx : Nat
  deriving DecidableEq, Repr

/-- `MAP` without an option: the leaf fields of R213. -/
structure MapArgs where
  va : Nat
  pa : Nat
  size : Nat
  pageSize : Nat
  rp : Bool
  wp : Bool
  xp : Bool
  ca : Bool
  rad : Bool
  sm : BitVec 2
  ps : BitVec 8
  deriving DecidableEq, Repr

/-- The remote window option of a `MAP` (R256, R416): an entry of the context's window table, and the device it names. -/
structure WindowArgs where
  index : Nat
  device : BitVec 22
  deriving DecidableEq, Repr

/-- The header bytes 0x15 to 0x2F that `LEAP_WRITE` replaces (R392, R395). -/
structure LeapHdrArgs where
  flags : Byte
  windowArg : Byte
  reserved : Byte
  windowLow : DWord
  windowHigh : DWord
  budget : Word
  bodyLen : Word
  deriving DecidableEq, Repr

/-- A fragment's place: core, group slot, entry of the split table (R15, R24). -/
structure FragRef where
  core : Fin 256
  slot : Fin 64
  frag : Fin 8
  deriving DecidableEq, Repr

/-- What an uncorrectable error strikes (R217, R218, R354). -/
inductive EccTarget where
  /-- A correctable error, or one with a clean copy elsewhere: counted only (R217). -/
  | refetched (block : Fin 9)
  /-- One lane word of a mapped vector register. -/
  | register (core : Fin 256) (slot : Fin 64) (reg : Reg) (lane : Fin 32)
  /-- One lane word of a group's trap registers. -/
  | trapRegister (core : Fin 256) (slot : Fin 64) (reg : BitVec 3) (lane : Fin 32)
  /-- The 32-byte granule of physical memory with this number. -/
  | memory (granule : Nat)
  /-- The 32-byte granule of a team's scratchpad. -/
  | scratchpad (team : Nat) (granule : Nat)
  /-- An accumulator element of a core's engine. -/
  | accumulator (core : Fin 256) (tile : BitVec 2) (row col : Fin 128)
  /-- A reuse entry, which is dropped (R217). -/
  | reuse (core : Fin 256) (index : Nat)
  deriving DecidableEq, Repr

/-- An access or request from another device (R256, R311). -/
inductive RemoteReq where
  /-- A read of a line, to fill an L1 or a slice there (R268). -/
  | read (line : Nat) (l1 : Bool)
  | write (addr : Nat) (bytes : List Byte)
  | atomic (addr : Nat) (op : BitVec 3) (x : Word)
  | recall (line : Nat)
  deriving DecidableEq, Repr

/-- The instructions, commands and events: one constructor for each row of spec/opcode_table.json, in its order,
but that the words without operands stand last. -/
inductive Instr where
  -- integer lane instructions (R158 to R165)
  | iadd (o : LrB) | iaddc (o : LrB) | isub (o : LrB) | isubb (o : LrB)
  | iabs (o : LrU) | ineg (o : LrU) | imin (o : LrB) | imax (o : LrB)
  | iminu (o : LrB) | imaxu (o : LrB) | iand (o : LrB) | ior (o : LrB)
  | ixor (o : LrB) | iandn (o : LrB) | inot (o : LrU) | imov (o : LrU)
  | ishl (o : LrB) | ishr (o : LrB) | isra (o : LrB) | irot (o : LrB)
  | iclz (o : LrU) | ipopc (o : LrU) | ibrev (o : LrU) | ibyte (o : LrB)
  | imul (o : LrB) | imulh (o : LrB) | imulhu (o : LrB) | imad (o : LrB)
  | icmp (o : LrC) | icmpu (o : LrC) | isel (o : LrS)
  | ibfe (o : LrB) | ibfeu (o : LrB) | ibfi (o : LrB)
  | iaddi (o : LiOp) | iandi (o : LiOp) | iori (o : LiOp) | ixori (o : LiOp)
  | ishli (o : LiSh) | ishri (o : LiSh) | israi (o : LiSh) | imovi (o : LiMov)
  -- floating-point lane instructions (R166 to R177)
  | fadd (o : LrB) | fsub (o : LrB) | fmul (o : LrB) | fma (o : LrB)
  | fms (o : LrB) | fnma (o : LrB) | fmin (o : LrB) | fmax (o : LrB)
  | fabs (o : LrU) | fneg (o : LrU) | fcmp (o : LrC) | fclass (o : LrU)
  | fmas (o : FmasOp) | frnd (o : CvtOp) | fsel (o : LrB) | fcpys (o : LrB)
  | cvtfi (o : CvtOp) | cvtfn (o : CvtOp) | cvtif (o : CvtOp) | cvtnf (o : CvtOp)
  | cvtfh (o : CvtOp) | cvthf (o : CvtOp) | cvtfb (o : CvtOp) | cvtbf (o : CvtOp)
  | fdiv (o : LlB) | fsqrt (o : LlU) | frcp (o : LlU) | frsq (o : LlU)
  | fexp2 (o : LlU) | flog2 (o : LlU) | fsin (o : LlU) | fcos (o : LlU)
  | ftanh (o : LlU) | fsigm (o : LlU)
  | idiv (o : LlB) | idivu (o : LlB) | irem (o : LlB) | iremu (o : LlB)
  | mvt (o : MvtOp)
  -- lane memory (R281 to R286)
  | ldg (o : LmLd) | ldgs (o : LmLd) | stg (o : LmSt) | ldff (o : LmLd)
  | ldp (o : LmLd) | stp (o : LmSt) | ldc (o : LmLd)
  -- packed (R181 to R188)
  | padd (o : LpB) | psub (o : LpB) | pmul (o : LpB) | pfma (o : LpB)
  | pmin (o : LpB) | pmax (o : LpB) | pabs (o : LpB) | pavg (o : LpB)
  | pcmpeq (o : LpB) | pcmplt (o : LpB) | pdot (o : LpB) | pcvt (o : PcvtOp)
  | psad (o : LpB) | pmov (o : LpB)
  -- atomics, cross-lane, queues, exchanges (R236 to R250, R288 to R291)
  | atomg (o : LrF) | atomp (o : LrF)
  | xshfl (o : LrF) | xgather (o : LrF) | xvote (o : LrF)
  | xred (o : LrF) | xscan (o : LrF) | xscane (o : LrF) | xsegred (o : LrF) | xsegscan (o : LrF)
  | xisect (o : LrN) | qpush (o : LrN) | qpop (o : LrN) | qlen (o : LrN)
  | emit (o : LrN) | redg (o : LrF)
  | xchgg (o : LrN) | casg (o : LrF) | xchgp (o : LrN) | casp (o : LrF)
  -- uniform arithmetic (R189 to R193)
  | sadd (o : GrB) | saddc (o : GrB) | ssub (o : GrB) | ssubb (o : GrB)
  | sand (o : GrB) | sor (o : GrB) | sxor (o : GrB) | sandn (o : GrB)
  | sshl (o : GrB) | sshr (o : GrB) | ssra (o : GrB) | smul (o : GrB)
  | smulh (o : GrB) | smulhu (o : GrB) | smin (o : GrB) | smax (o : GrB)
  | sminu (o : GrB) | smaxu (o : GrB) | sclz (o : GrU) | spopc (o : GrU)
  | smov (o : GrU) | scmp (o : GrC) | scmpu (o : GrC) | ssel (o : GrB)
  | sadd64 (o : GrB) | ssub64 (o : GrB) | smov64 (o : GrU) | sshl64 (o : GrB) | scmp64 (o : GrC)
  | saddi (o : GiOp) | sandi (o : GiOp) | sori (o : GiOp) | sxori (o : GiOp)
  | sshli (o : GiSh) | sshri (o : GiSh) | smovi (o : GiOne) | scmpi (o : GiOne)
  -- control (R225 to R232, R204, R205)
  | bc (o : GjC) | bmz (o : GjM) | bmnz (o : GjM) | call (o : GjC)
  | loop (d : Reg) (off : BitVec 12) | trap (code : Byte) | brk (code : Byte)
  -- masks and special registers (R55, R61, R209, R210, R233 to R235)
  | kand (o : GmB) | kor (o : GmB) | kxor (o : GmB) | kandn (o : GmB)
  | knot (kd ka : KReg) | kmov (kd : KReg) (x : Reg) | ktos (ka : KReg) (x : Reg)
  | kpop (ka : KReg) (x : Reg) | kffs (ka : KReg) (x : Reg) | kset (kd ka cond : KReg)
  | kill (b : Reg) (m : BitVec 16) | win (d : BitVec 2) (a : Reg) (len : BitVec 12)
  | setpart (n : BitVec 12) | srd (d : Reg) (n : BitVec 12) | swr (a : Reg) (n : BitVec 12)
  -- uniform memory, fences, freezing (R287, R293 to R300, R310)
  | sld (o : GlOp) | sst (o : GlOp) | sldc (o : GlOp)
  | fence (s : Scope) | acq (s : Scope) | rel (s : Scope) | acqr (o : GlS) | rels (o : GlS)
  | frz (d a b : Reg) (sys pin : Bool) | thw (a : Reg) | fwait (a : Reg)
  | publish (a : Reg) (s : Scope)
  -- copies and stage rings (R301 to R308), run-ahead (R409 to R411)
  | cpy (o : GaC) | cpy2d (o : GaC) | cpyg (o : GaC) | cpyo (p : BitVec 5) (a b : Reg)
  | closeb (a : Reg) | waitb (a : Reg)
  | raf (p : BitVec 5) (a : Reg) | rafg (p : BitVec 5) (a b : Reg) (z : BitVec 3)
  | sarrive (a : Reg) (ring : BitVec 3) | swait (ph : Bool) (a : Reg) (ring : BitVec 3)
  -- matrix engine (R339 to R358)
  | mpass (g : BitVec 12) | mshape (o : GlOp) | mloop (o : MloopOp)
  | mzero (t : BitVec 12) | mrd (d a : Reg) (t : BitVec 2) | mwr (d a : Reg) (t : BitVec 2)
  | midx (a : Reg)
  -- tasks (R373)
  | tsub (a : Reg)
  -- host commands (R416)
  | ctxCreate (h : CmdHdr) (x : CtxArgs) | ctxDestroy (h : CmdHdr) (ctx : Nat)
  | map (h : CmdHdr) (x : MapArgs) | mapShadow (h : CmdHdr) (x : MapArgs) (buffer shadowPa : Nat)
  | mapRemoteWindow (h : CmdHdr) (x : MapArgs) (w : WindowArgs)
  | unmap (h : CmdHdr) (va size : Nat) | unmapShadow (h : CmdHdr) (va size : Nat)
  | read (h : CmdHdr) (va len : Nat) | write (h : CmdHdr) (va : Nat) (bytes : List Byte)
  | moduleLoad (h : CmdHdr) (va len : Nat) (addrs : List (Nat × Nat))
  | launch (h : CmdHdr) (module block grid : Nat) (args : List DWord)
  | taskSubmit (h : CmdHdr) (va : Nat)
  | preemptRequest (h : CmdHdr) | preemptHalt (h : CmdHdr)
  | preemptResumeHalt (h : CmdHdr) | preemptResumePark (h : CmdHdr)
  | journalRead (h : CmdHdr) (first count : Nat)
  | leapRead (h : CmdHdr) (identity : BitVec 128)
  | leapWrite (h : CmdHdr) (identity : BitVec 128) (x : LeapHdrArgs) (body : List Byte)
  | leapPin (h : CmdHdr) (identity : BitVec 128) | leapUnpin (h : CmdHdr) (identity : BitVec 128)
  | leapDiscard (h : CmdHdr) (identity : BitVec 128)
  | setLease (h : CmdHdr) (v : DWord) | biasSet (h : CmdHdr) (va size : Nat) (host : Bool)
  | attest (h : CmdHdr) (nonce : BitVec 256) | fwInfo (x : InfoArgs)
  -- device events
  | unsupportedPacket (port : Fin 8)
  | resultArrival (r : FragRef) (n : Nat)
  | teamPlacement | teamMigration (team : Nat) (dest : Fin 256)
  | launchDone (launch : Nat)
  | emitRecordArrival (n : Nat) | nodeTimerExpiry (ctx node : Nat)
  | timeSliceExpiry (ctx : Nat) | deadlineExpiry (ctx : Nat)
  | copyComplete (copy : Nat)
  | freezePoint (ctx : Nat) (entry : Fin 1024) | thawComplete (ctx : Nat) (entry : Fin 1024)
  | writeComplete (n : Nat) | publishPoint (r : FragRef)
  | redgApply (n : Nat) | promotionRequest (n : Nat) | l1Eviction (core : Fin 256) (line : Nat)
  | mloopStep (core : Fin 256) | lineFetch (core : Fin 256) (n : Nat)
  | stallSample (ctx : Nat)
  | eccError (t : EccTarget)
  -- an agent is a core, or from 256 on a canopy slice (R267)
  | syncLoss (agent : Fin 512) | syncRestored (agent : Fin 512) (skew : Int)
  | droopSlowdown (die : Fin 4) | droopRecovery (die : Fin 4)
  | powerOn (failedCores : BitVec 256) (otherFailure : Bool) | powerLoss
  | biasTransitionEnd (ctx va : Nat)
  | teamMoveArrival (team : Nat)
  | remoteAccessArrival (q : RemoteReq)
  -- the rows without operands among the words: control (R230, R30, R33, R204), `BAR` (R297) and the engine (R339, R341, R347)
  | ret | regang | exit | nop | rteRetry | rteSkip | bar | mown | mrel | midxOff
  deriving DecidableEq, Repr

end Sys2Proof
end

