-- ==== Sys2Proof/WellFormed.lean ====
section
/-! DEFINITION. Which terms of `Instr` stand for an encoding that decode accepts (R46, R54, R61, R65, R77 to R92, R97,
R182, R187, R235, R249, R283, R288 to R290, R301, R347 to R349, R356, R357, R409).
-/

namespace Sys2Proof

/-- A register that names a pair (R89). -/
def Reg.even (r : Reg) : Bool := !r.getLsbD 0

/-- The index payload of a word whose D, A and B fields may be indexed as given (R91). -/
def Ix.wf (x : Ix) (d a b : Reg) : Bool :=
  !(x.di && x.dxr) && (!x.di || d == 0#6) && (!x.ai || a == 0#6) && (!x.bi || b == 0#6) && (!x.dxr || d.toNat ≤ 7)

def Ix.wf? (x : Option Ix) (d a b : Reg) : Bool := match x with
  | none => true
  | some x => x.wf d a b

/-- A payload with no indexed B. -/
def Ix.noB (x : Option Ix) : Bool := match x with
  | none => true
  | some x => !x.bi

/-- A payload with no indexed D and no DXR. -/
def Ix.noD (x : Option Ix) : Bool := match x with
  | none => true
  | some x => !x.di && !x.dxr

def LrB.wf (o : LrB) : Bool := Ix.wf? o.ix o.d o.a o.b
def LrU.wf (o : LrU) : Bool := Ix.wf? o.ix o.d o.a 0#6 && Ix.noB o.ix
def LrC.wf (o : LrC) : Bool := Ix.wf? o.ix 0#6 o.a o.b && Ix.noD o.ix
def LrS.wf (o : LrS) : Bool := Ix.wf? o.ix o.d o.a o.b
/-- A conversion, `s` allowed or not (R176). -/
def CvtOp.wf (o : CvtOp) (s : Bool) : Bool := Ix.wf? o.ix o.d o.a 0#6 && Ix.noB o.ix && (s || !o.s)

/-- A range of n registers ends at or below 63 (R89). -/
def regRange (r : Reg) (n : Nat) : Bool := decide (r.toNat + n ≤ 64)

def MvtOp.wf (o : MvtOp) : Bool :=
  o.b.even && regRange o.d (o.m1.toNat + 1) && regRange o.a (o.n1.toNat + 1)

def LmLd.wf (o : LmLd) : Bool := o.sz != 3#2 || regRange o.d 4
def LmSt.wf (o : LmSt) : Bool := o.sz != 3#2 || regRange o.d 4

/-- The integer types (R182). -/
def PType.isInt : PType → Bool
  | .i16 | .n16 | .i8 | .n8 | .i4 | .n4 => true
  | .f16 | .bf16 | .e4m3 | .e5m2 | .e3m2 | .e2m3 | .e2m1 => false

/-- Bits of an element (R134). -/
def PType.width : PType → Nat
  | .i16 | .n16 | .f16 | .bf16 => 16
  | .i8 | .n8 | .e4m3 | .e5m2 | .e3m2 | .e2m3 => 8
  | .i4 | .n4 | .e2m1 => 4

def CvtType.width : CvtType → Nat
  | .packed t => t.width
  | .f32 => 32

/-- Registers read and written by `PCVT` from width ws to wt (R187). -/
def cvtRegs (ws wt : Nat) : Nat × Nat := if ws > wt then (ws / wt, 1) else (1, wt / ws)

/-- The source and target widths of a `PCVT`. -/
def PcvtOp.widths (o : PcvtOp) : Nat × Nat :=
  if o.toU then (o.t.width, o.u.width) else (o.u.width, o.t.width)

def PcvtOp.wf (o : PcvtOp) : Bool :=
  let r := cvtRegs o.widths.1 o.widths.2
  regRange o.a r.1 && regRange o.d r.2

/-- A scratchpad or integer-typed LP word with S 0 (R182). -/
def LpB.intOnly (o : LpB) : Bool := o.t.isInt && !o.s

/-- `KILL`'s set bits name registers up to 63 (R54). -/
def killOk (b : Reg) (m : BitVec 16) : Bool := (List.range 16).all (fun i => !m.getLsbD i || decide (b.toNat + i ≤ 63))

/-- Special registers of 64 bits (R65). -/
def srWide (n : BitVec 12) : Bool := [7, 8, 12, 13, 14].contains n.toNat

/-- A copy's ring field: 0 unless R is set (R87). -/
def GaC.wf (o : GaC) (three : Bool) : Bool := (o.ring || o.imm == 0#3) && (!three || regRange o.b 3)

/-- Well-formed instructions. Host commands and events carry no encoding and are taken as they come. -/
def Instr.wf : Instr → Bool
  | .iadd o | .iaddc o | .isub o | .isubb o | .imin o | .imax o | .iminu o | .imaxu o | .iand o | .ior o | .ixor o
  | .iandn o | .ishl o | .ishr o | .isra o | .irot o | .ibyte o | .imul o | .imulh o | .imulhu o | .imad o
  | .ibfe o | .ibfeu o | .ibfi o | .fadd o | .fsub o | .fmul o | .fma o | .fms o | .fnma o | .fmin o | .fmax o
  | .fsel o | .fcpys o => o.wf
  | .iabs o | .ineg o | .inot o | .imov o | .iclz o | .ipopc o | .ibrev o | .fabs o | .fneg o | .fclass o => o.wf
  | .icmp o | .icmpu o | .fcmp o => o.wf
  | .isel o => o.wf
  | .frnd o | .cvtif o | .cvtnf o | .cvthf o | .cvtbf o => o.wf false
  | .cvtfi o | .cvtfn o | .cvtfh o | .cvtfb o => o.wf true
  | .mvt o => o.wf
  | .ldg o | .ldff o | .ldp o | .ldc o => o.wf
  | .ldgs o => decide (o.sz.toNat ≤ 1)
  | .stg o | .stp o => o.wf
  | .pmin o | .pmax o | .pcmpeq o | .pcmplt o | .pdot o => !o.s
  | .pabs o => o.b == 0#6 && (o.t.isInt || !o.s)
  | .pavg o | .psad o => o.intOnly
  | .pmov o => !o.s && decide (o.b.toNat < 32 / o.t.width)
  | .pcvt o => o.wf
  | .atomg o | .redg o => !o.c && o.b.even
  | .atomp o => !o.c
  | .xshfl o => decide (o.f.toNat ≤ 3)
  | .xgather o | .xvote o => decide (o.f.toNat ≤ 3) && o.b == 0#6
  | .xred o | .xscan o | .xscane o => o.b == 0#6
  | .qpush o => o.d == 0#6
  | .qpop o | .qlen o => o.b == 0#6
  | .emit o => o.d == 0#6 && regRange o.a 4
  | .xchgg o => o.b.even
  | .casg o => o.f == 1#3 && o.b.even && regRange o.d 2
  | .casp o => o.f == 3#3
  | .sadd64 o | .ssub64 o => o.d.even && o.a.even && o.b.even
  | .smov64 o => o.d.even && o.a.even
  | .sshl64 o => o.d.even && o.a.even
  | .scmp64 o => o.a.even && o.b.even
  | .kand o | .kor o | .kxor o | .kandn o => o.kd != 0#3
  | .knot kd _ | .kmov kd _ | .kset kd _ _ => kd != 0#3
  | .kill b m => killOk b m
  | .win _ _ len => decide (len.toNat ≤ 64)
  | .setpart n => [2, 4, 8, 16, 32].contains n.toNat
  | .srd d n => decide (n.toNat ≤ 14) && (!srWide n || d.even)
  | .swr _ n => n == 6#12
  | .sst o => o.la == 0#4
  | .frz _ a _ _ _ => a.even
  | .cpy o => o.wf false
  | .cpy2d o | .cpyg o => o.wf true
  | .rafg _ a _ _ => a.even
  | .mpass g => decide (g.toNat ≤ 31)
  | .mshape o => decide (o.d.toNat ≤ 7)
  | .mloop o => o.n != 0#8
  | .mzero t => decide (t.toNat ≤ 3)
  | .mrd d _ _ | .mwr d _ _ => regRange d 4
  | .tsub a => a.even
  | .iaddi _ | .iandi _ | .iori _ | .ixori _ | .ishli _ | .ishri _ | .israi _ | .imovi _ | .fmas _ | .fdiv _
  | .fsqrt _ | .frcp _ | .frsq _ | .fexp2 _ | .flog2 _ | .fsin _ | .fcos _ | .ftanh _ | .fsigm _ | .idiv _
  | .idivu _ | .irem _ | .iremu _ | .padd _ | .psub _ | .pmul _ | .pfma _ | .xsegred _ | .xsegscan _ | .xisect _
  | .xchgp _ | .sadd _ | .saddc _ | .ssub _ | .ssubb _ | .sand _ | .sor _ | .sxor _ | .sandn _ | .sshl _ | .sshr _
  | .ssra _ | .smul _ | .smulh _ | .smulhu _ | .smin _ | .smax _ | .sminu _ | .smaxu _ | .sclz _ | .spopc _
  | .smov _ | .scmp _ | .scmpu _ | .ssel _ | .saddi _ | .sandi _ | .sori _ | .sxori _ | .sshli _ | .sshri _
  | .smovi _ | .scmpi _ | .bc _ | .bmz _ | .bmnz _ | .call _ | .ret | .regang | .exit | .nop | .loop _ _ | .trap _
  | .rteRetry | .rteSkip | .brk _ | .ktos _ _ | .kpop _ _ | .kffs _ _ | .sld _ | .sldc _ | .fence _ | .acq _
  | .rel _ | .acqr _ | .rels _ | .bar | .thw _ | .fwait _ | .publish _ _ | .cpyo _ _ _ | .closeb _ | .waitb _
  | .raf _ _ | .sarrive _ _ | .swait _ _ _ | .mown | .mrel | .midx _ | .midxOff | .ctxCreate _ _ | .ctxDestroy _ _
  | .map _ _ | .mapShadow _ _ _ _ | .mapRemoteWindow _ _ _ | .unmap _ _ _ | .unmapShadow _ _ _ | .read _ _ _
  | .write _ _ _ | .moduleLoad _ _ _ _ | .launch _ _ _ _ _ | .taskSubmit _ _ | .preemptRequest _ | .preemptHalt _
  | .preemptResumeHalt _ | .preemptResumePark _ | .journalRead _ _ _ | .leapRead _ _ | .leapWrite _ _ _ _
  | .leapPin _ _ | .leapUnpin _ _ | .leapDiscard _ _ | .setLease _ _ | .biasSet _ _ _ _ | .attest _ _ | .fwInfo _
  | .unsupportedPacket _ | .resultArrival _ _ | .teamPlacement | .teamMigration _ _ | .launchDone _
  | .emitRecordArrival _ | .nodeTimerExpiry _ _ | .timeSliceExpiry _ | .deadlineExpiry _ | .copyComplete _
  | .freezePoint _ _ | .thawComplete _ _ | .writeComplete _ | .publishPoint _ | .redgApply _ | .promotionRequest _
  | .l1Eviction _ _ | .mloopStep _ | .lineFetch _ _ | .stallSample _ | .eccError _ | .syncLoss _
  | .syncRestored _ _ | .droopSlowdown _ | .droopRecovery _ | .powerOn _ _ | .powerLoss | .biasTransitionEnd _ _
  | .teamMoveArrival _ | .remoteAccessArrival _ => true

end Sys2Proof
end

