-- ==== Sys2Proof/Decode.lean ====
section
/-! DEFINITION. The decoder (R75 to R93, R98 to R100): total on any bytes, rejecting with the sub-cause of R100; and
the encoder, written from the same field maps.
-/

namespace Sys2Proof

/-! ## Decoding -/

/-- The payload of an `XP` (R90). -/
abbrev Payload := BitVec 24

/-- An instruction, or the sub-cause of its `ILLEGAL` (R100). -/
abbrev Decoded := Except Byte Instr

/-- Field of a word: n bits from bit lo up. -/
def fld (w : Word) (lo n : Nat) : BitVec n := w.extractLsb' lo n

def bitAt (w : Word) (i : Nat) : Bool := w.getLsbD i

/-- Sub-causes 0x02, 0x00, 0x03, 0x04 in the order R100 takes them. -/
def subPrefix : Byte := 0x02
def subReserved : Byte := 0x00
def subRange : Byte := 0x03
def subSpecial : Byte := 0x04

/-- The checks of one instruction in R100's order: prefix, reserved, range; then the instruction. -/
def checked (pfxBad reservedBad rangeBad : Bool) (i : Instr) : Decoded :=
  if pfxBad then .error subPrefix
  else if reservedBad then .error subReserved
  else if rangeBad then .error subRange
  else .ok i

/-- The index payload's fields (R91). -/
def ixOf (p : Payload) : Ix :=
  { di := p.getLsbD 23, ai := p.getLsbD 22, bi := p.getLsbD 21, dw := p.extractLsb' 19 2, dx := p.extractLsb' 16 3
    aw := p.extractLsb' 14 2, ax := p.extractLsb' 11 3, bw := p.extractLsb' 9 2, bx := p.extractLsb' 6 3, dxr := p.getLsbD 5 }

/-- A prefix misuse in an index payload: reserved bits, DI with DXR, or an operand that cannot be indexed (R91, R92). -/
def ixBad (p : Option Payload) (dOk bOk : Bool) : Bool :=
  match p with
  | none => false
  | some q =>
    let x := ixOf q
    q.extractLsb' 0 5 != 0#5 || (x.di && x.dxr) || (!dOk && (x.di || x.dxr)) || (!bOk && x.bi)

/-- An indexed field that is not zero (R91). -/
def ixField (p : Option Payload) (d a b : Reg) : Bool :=
  match p with
  | none => false
  | some q =>
    let x := ixOf q
    (x.di && d != 0#6) || (x.ai && a != 0#6) || (x.bi && b != 0#6)

/-- A D above 7 with DXR (R91). -/
def ixRange (p : Option Payload) (d : Reg) : Bool :=
  match p with
  | none => false
  | some q => (ixOf q).dxr && decide (7 < d.toNat)

def decLrB (p : Option Payload) (w : Word) (mk : LrB → Instr) : Decoded :=
  let d := fld w 12 6
  let a := fld w 6 6
  let b := fld w 0 6
  checked (ixBad p true true) (ixField p d a b) (ixRange p d) (mk ⟨fld w 22 3, bitAt w 21, d, a, b, p.map ixOf⟩)

def decLrU (p : Option Payload) (w : Word) (mk : LrU → Instr) : Decoded :=
  let d := fld w 12 6
  let a := fld w 6 6
  checked (ixBad p true false) (fld w 0 6 != 0#6 || ixField p d a 0#6) (ixRange p d)
    (mk ⟨fld w 22 3, bitAt w 21, d, a, p.map ixOf⟩)

def decLrC (p : Option Payload) (w : Word) (mk : LrC → Instr) : Decoded :=
  let a := fld w 6 6
  let b := fld w 0 6
  checked (ixBad p false true) (fld w 12 6 != 0#6 || !bitAt w 21 || ixField p 0#6 a b) false
    (mk ⟨fld w 22 3, a, b, p.map ixOf⟩)

def decIsel (p : Option Payload) (w : Word) : Decoded :=
  let d := fld w 12 6
  let a := fld w 6 6
  let b := fld w 0 6
  checked (ixBad p true true) (bitAt w 21 || ixField p d a b) (ixRange p d)
    (.isel ⟨fld w 22 3, fld w 18 3, d, a, b, p.map ixOf⟩)

/-- The rounding selector, bits 2:0 of B (R98). -/
def selOf (b : BitVec 3) : Option RndSel :=
  match b with
  | 0#3 => some .fpc
  | 1#3 => some .rne
  | 2#3 => some .rtz
  | 3#3 => some .rdn
  | 4#3 => some .rup
  | _ => none

/-- `FRND` and the conversions: `sOk` where S is allowed (R98, R176). -/
def decCvt (p : Option Payload) (w : Word) (sOk : Bool) (mk : CvtOp → Instr) : Decoded :=
  let d := fld w 12 6
  let a := fld w 6 6
  let sel := selOf (fld w 0 3)
  checked (ixBad p true false) (sel.isNone || fld w 4 2 != 0#2 || (!sOk && bitAt w 3) || ixField p d a 0#6) (ixRange p d)
    (mk ⟨fld w 22 3, bitAt w 21, d, a, bitAt w 3, sel.getD .fpc, p.map ixOf⟩)

/-- `FMAS` requires its prefix (R90, R92). -/
def decFmas (p : Option Payload) (w : Word) : Decoded :=
  match p with
  | none => .error subPrefix
  | some q =>
    checked (q.extractLsb' 0 14 != 0#14) false false
      (.fmas ⟨fld w 22 3, bitAt w 21, fld w 12 6, fld w 6 6, fld w 0 6, q.extractLsb' 18 6, q.extractLsb' 16 2, q.extractLsb' 14 2⟩)

/-- The LR arithmetic encodings (R98). -/
def decArith (p : Option Payload) (w : Word) : Decoded :=
  let lrB := decLrB p w
  let lrU := decLrU p w
  let lrC := decLrC p w
  let bad := checked (ixBad p true true) true false .nop
  match (fld w 25 6).toNat, (fld w 18 3).toNat with
  | 0, 0 => lrB .iadd | 0, 1 => lrB .iaddc | 0, 2 => lrB .isub | 0, 3 => lrB .isubb
  | 0, 4 => lrU .iabs | 0, 5 => lrU .ineg | 0, 6 => lrB .imin | 0, 7 => lrB .imax
  | 1, 0 => lrB .iminu | 1, 1 => lrB .imaxu | 1, 2 => lrB .iand | 1, 3 => lrB .ior
  | 1, 4 => lrB .ixor | 1, 5 => lrB .iandn | 1, 6 => lrU .inot | 1, 7 => lrU .imov
  | 2, 0 => lrB .ishl | 2, 1 => lrB .ishr | 2, 2 => lrB .isra | 2, 3 => lrB .irot
  | 2, 4 => lrU .iclz | 2, 5 => lrU .ipopc | 2, 6 => lrU .ibrev | 2, 7 => lrB .ibyte
  | 3, 0 => lrB .imul | 3, 1 => lrB .imulh | 3, 2 => lrB .imulhu | 3, 3 => lrB .imad
  | 4, 0 => lrC .icmp | 4, 1 => lrC .icmpu
  | 5, _ => decIsel p w
  | 6, 0 => lrB .ibfe | 6, 1 => lrB .ibfeu | 6, 2 => lrB .ibfi
  | 16, 0 => lrB .fadd | 16, 1 => lrB .fsub | 16, 2 => lrB .fmul | 16, 3 => lrB .fma
  | 16, 4 => lrB .fms | 16, 5 => lrB .fnma | 16, 6 => lrB .fmin | 16, 7 => lrB .fmax
  | 17, 0 => lrU .fabs | 17, 1 => lrU .fneg | 17, 2 => lrC .fcmp | 17, 3 => lrU .fclass
  | 17, 4 => decFmas p w | 17, 5 => decCvt p w false .frnd | 17, 6 => lrB .fsel | 17, 7 => lrB .fcpys
  | 18, 0 => decCvt p w true .cvtfi | 18, 1 => decCvt p w true .cvtfn
  | 18, 2 => decCvt p w false .cvtif | 18, 3 => decCvt p w false .cvtnf
  | 18, 4 => decCvt p w true .cvtfh | 18, 5 => decCvt p w false .cvthf
  | 18, 6 => decCvt p w true .cvtfb | 18, 7 => decCvt p w false .cvtbf
  | _, _ => bad

/-- LI with a 32-bit immediate (R77, R90). -/
def decLi (p : Option Payload) (w : Word) (mk : LiOp → Instr) : Decoded :=
  checked (match p with
    | none => false
    | some q => q.getLsbD 23) false false
    (mk ⟨fld w 22 3, bitAt w 21, fld w 15 6, fld w 9 6, fld w 0 9, p.map (fun q => q.extractLsb' 0 23)⟩)

def decImovi (p : Option Payload) (w : Word) : Decoded :=
  checked (match p with
    | none => false
    | some q => q.getLsbD 23) (fld w 9 6 != 0#6) false
    (.imovi ⟨fld w 22 3, bitAt w 21, fld w 15 6, fld w 0 9, p.map (fun q => q.extractLsb' 0 23)⟩)

def decLiSh (p : Option Payload) (w : Word) (mk : LiSh → Instr) : Decoded :=
  checked p.isSome false (fld w 5 4 != 0#4) (mk ⟨fld w 22 3, bitAt w 21, fld w 15 6, fld w 9 6, fld w 0 5⟩)

def decLlB (p : Option Payload) (w : Word) (mk : LlB → Instr) : Decoded :=
  checked p.isSome false false (mk ⟨fld w 22 3, fld w 18 4, fld w 12 6, fld w 6 6, fld w 0 6⟩)

/-- The SFU: B is the function (R98). -/
def decSfu (p : Option Payload) (w : Word) : Decoded :=
  let o : LlU := ⟨fld w 22 3, fld w 18 4, fld w 12 6, fld w 6 6⟩
  let b := (fld w 0 6).toNat
  let i : Instr := match b with
    | 0 => .fsqrt o | 1 => .frcp o | 2 => .frsq o | 3 => .fexp2 o | 4 => .flog2 o
    | 5 => .fsin o | 6 => .fcos o | 7 => .ftanh o | _ => .fsigm o
  checked p.isSome (decide (8 < b)) false i

/-- `MVT` requires its prefix (R178). -/
def decMvt (p : Option Payload) (w : Word) : Decoded :=
  match p with
  | none => .error subPrefix
  | some q =>
    let o : MvtOp := ⟨fld w 22 3, fld w 18 4, fld w 12 6, fld w 6 6, fld w 0 6, q.extractLsb' 21 3, q.extractLsb' 18 3, q.extractLsb' 0 18⟩
    checked false false (!o.wf) (.mvt o)

def lmPx (p : Option Payload) : Option LmPx := p.map (fun q => ⟨q.getLsbD 23, q.extractLsb' 0 23⟩)

def decLd (p : Option Payload) (w : Word) (reserved : Bool) (mk : LmLd → Instr) : Decoded :=
  let o : LmLd := ⟨fld w 22 3, fld w 18 4, fld w 12 6, fld w 6 6, fld w 2 4, fld w 0 2, lmPx p⟩
  checked false reserved (!o.wf) (mk o)

def decSt (p : Option Payload) (w : Word) (mk : LmSt → Instr) : Decoded :=
  let o : LmSt := ⟨fld w 22 3, fld w 12 6, fld w 6 6, fld w 2 4, fld w 0 2, lmPx p⟩
  checked false (fld w 18 4 != 0#4) (!o.wf) (mk o)

/-- The packed types by T (R78). -/
def typeOf : Nat → Option PType
  | 0 => some .i16 | 1 => some .n16 | 2 => some .f16 | 3 => some .bf16 | 4 => some .i8 | 5 => some .n8
  | 6 => some .e4m3 | 7 => some .e5m2 | 8 => some .e3m2 | 9 => some .e2m3 | 10 => some .i4 | 11 => some .n4
  | 12 => some .e2m1 | _ => none

/-- An LP word whose accepted types and S are `ok`, with a further range check (R182). -/
def decLp (p : Option Payload) (w : Word) (ok range : LpB → Bool) (mk : LpB → Instr) : Decoded :=
  let t := typeOf (fld w 18 4).toNat
  let o : LpB := ⟨fld w 23 2, bitAt w 22, t.getD .i16, fld w 12 6, fld w 6 6, fld w 0 6⟩
  checked p.isSome (t.isNone || !ok o) (!range o) (mk o)

/-- The second type of `PCVT` (R187). -/
def cvtTypeOf (n : Nat) : Option CvtType := if n = 13 then some .f32 else (typeOf n).map CvtType.packed

def decPcvt (p : Option Payload) (w : Word) : Decoded :=
  let t := typeOf (fld w 18 4).toNat
  let u := cvtTypeOf (fld w 0 4).toNat
  let o : PcvtOp := ⟨fld w 23 2, bitAt w 22, t.getD .i16, fld w 12 6, fld w 6 6, bitAt w 4, u.getD .f32⟩
  checked p.isSome (t.isNone || u.isNone || bitAt w 5) (!o.wf) (.pcvt o)

/-- The packed encodings (R98, R182). -/
def decPacked (p : Option Payload) (w : Word) : Decoded :=
  let any (_ : LpB) : Bool := true
  let noS (o : LpB) : Bool := !o.s
  match (fld w 25 6).toNat with
  | 0x20 => decLp p w any any .padd | 0x21 => decLp p w any any .psub
  | 0x22 => decLp p w any any .pmul | 0x23 => decLp p w any any .pfma
  | 0x24 => decLp p w noS any .pmin | 0x25 => decLp p w noS any .pmax
  | 0x26 => decLp p w (fun o => o.b == 0#6 && (o.t.isInt || !o.s)) any .pabs
  | 0x27 => decLp p w LpB.intOnly any .pavg
  | 0x28 => decLp p w noS any .pcmpeq | 0x29 => decLp p w noS any .pcmplt
  | 0x2A => decLp p w noS any .pdot | 0x2B => decPcvt p w
  | 0x2C => decLp p w LpB.intOnly any .psad
  | _ => decLp p w noS (fun o => decide (o.b.toNat < 32 / o.t.width)) .pmov

def lrF (w : Word) : LrF := ⟨fld w 22 3, bitAt w 21, fld w 18 3, fld w 12 6, fld w 6 6, fld w 0 6⟩
def lrN (w : Word) : LrN := ⟨fld w 22 3, fld w 12 6, fld w 6 6, fld w 0 6⟩

/-- Atomics, cross-lane instructions, queues, exchanges: none takes a prefix (R90). -/
def decCross (p : Option Payload) (w : Word) : Decoded :=
  let f := (fld w 18 3).toNat
  let c := bitAt w 21
  let o := lrF w
  let n := lrN w
  let pb := p.isSome
  let b0 := o.b != 0#6
  match (fld w 25 6).toNat with
  | 0x2E => checked pb c (!o.b.even) (.atomg o)
  | 0x2F => checked pb c false (.atomp o)
  | 0x30 => checked pb (decide (3 < f)) false (.xshfl o)
  | 0x31 => checked pb (decide (3 < f) || b0) false (.xgather o)
  | 0x32 => checked pb (decide (3 < f) || b0) false (.xvote o)
  | 0x33 => checked pb b0 false (.xred o)
  | 0x34 => checked pb b0 false (.xscan o)
  | 0x35 => checked pb b0 false (.xscane o)
  | 0x36 => checked pb false false (.xsegred o)
  | 0x37 => checked pb false false (.xsegscan o)
  | 0x38 => checked pb (f != 0 || c) false (.xisect n)
  | 0x39 => match f with
    | 0 => checked pb (c || n.d != 0#6) false (.qpush n)
    | 1 => checked pb (c || b0) false (.qpop n)
    | 2 => checked pb (c || b0) false (.qlen n)
    | _ => checked pb true false .nop
  | 0x3A => checked pb (f != 0 || c || n.d != 0#6) (!regRange n.a 4) (.emit n)
  | 0x3B => checked pb c (!o.b.even) (.redg o)
  | 0x3C => match f with
    | 0 => checked pb c (!n.b.even) (.xchgg n)
    | 1 => checked pb false (!(o.b.even && regRange o.d 2)) (.casg o)
    | 2 => checked pb c false (.xchgp n)
    | 3 => checked pb false false (.casp o)
    | _ => checked pb true false .nop
  | _ => checked pb true false .nop

/-- The L-set (R98). -/
def decLane (p : Option Payload) (w : Word) : Decoded :=
  match (fld w 25 6).toNat with
  | 0 | 1 | 2 | 3 | 4 | 5 | 6 | 16 | 17 | 18 => decArith p w
  | 8 => decLi p w .iaddi | 9 => decLi p w .iandi | 10 => decLi p w .iori | 11 => decLi p w .ixori
  | 12 => decLiSh p w .ishli | 13 => decLiSh p w .ishri | 14 => decLiSh p w .israi | 15 => decImovi p w
  | 19 => decLlB p w .fdiv | 20 => decSfu p w
  | 21 => decLlB p w .idiv | 22 => decLlB p w .idivu | 23 => decLlB p w .irem | 24 => decLlB p w .iremu
  | 25 => decMvt p w
  | 26 => decLd p w false .ldg | 27 => decLd p w (bitAt w 1) .ldgs
  | 28 => decSt p w .stg | 29 => decLd p w false .ldff | 30 => decLd p w false .ldp | 31 => decSt p w .stp
  | 32 | 33 | 34 | 35 | 36 | 37 | 38 | 39 | 40 | 41 | 42 | 43 | 44 | 45 => decPacked p w
  | 61 => decLd p w false .ldc
  | _ => decCross p w

/-! ### The uniform set -/

def grB (w : Word) : GrB := ⟨fld w 18 6, fld w 12 6, fld w 6 6⟩
def grU (w : Word) : GrU := ⟨fld w 18 6, fld w 12 6⟩
def grC (w : Word) : GrC := ⟨fld w 12 6, fld w 6 6⟩

/-- GOP 0x00 (R190). -/
def decScalar (p : Option Payload) (w : Word) : Decoded :=
  let f := (fld w 0 6).toNat
  let pb := p.isSome
  let o := grB w
  let b3 (i : Instr) : Decoded := checked pb false false i
  let un (i : Instr) : Decoded := checked pb (o.b != 0#6) false i
  let cm (i : Instr) : Decoded := checked pb (o.d != 0#6) false i
  match f with
  | 0 => b3 (.sadd o) | 1 => b3 (.saddc o) | 2 => b3 (.ssub o) | 3 => b3 (.ssubb o)
  | 4 => b3 (.sand o) | 5 => b3 (.sor o) | 6 => b3 (.sxor o) | 7 => b3 (.sandn o)
  | 8 => b3 (.sshl o) | 9 => b3 (.sshr o) | 10 => b3 (.ssra o) | 11 => b3 (.smul o)
  | 12 => b3 (.smulh o) | 13 => b3 (.smulhu o) | 14 => b3 (.smin o) | 15 => b3 (.smax o)
  | 16 => b3 (.sminu o) | 17 => b3 (.smaxu o) | 18 => un (.sclz (grU w)) | 19 => un (.spopc (grU w))
  | 20 => un (.smov (grU w)) | 21 => cm (.scmp (grC w)) | 22 => cm (.scmpu (grC w)) | 23 => b3 (.ssel o)
  | _ => checked pb true false .nop

/-- GOP 0x01 (R192). -/
def decPair (p : Option Payload) (w : Word) : Decoded :=
  let o := grB w
  let pb := p.isSome
  let da := !(o.d.even && o.a.even)
  match (fld w 0 6).toNat with
  | 0 => checked pb false (da || !o.b.even) (.sadd64 o)
  | 1 => checked pb false (da || !o.b.even) (.ssub64 o)
  | 2 => checked pb (o.b != 0#6) da (.smov64 (grU w))
  | 3 => checked pb false da (.sshl64 o)
  | 4 => checked pb (o.d != 0#6) (!(o.a.even && o.b.even)) (.scmp64 (grC w))
  | _ => checked pb true false .nop

/-- GI's payload: bits 23:20 are reserved (R90). -/
def giBad (p : Option Payload) : Bool := match p with
  | none => false
  | some q => q.extractLsb' 20 4 != 0#4

def giHi (p : Option Payload) : Option (BitVec 20) := p.map (fun q => q.extractLsb' 0 20)

def decGi (p : Option Payload) (w : Word) (mk : GiOp → Instr) : Decoded :=
  checked (giBad p) false false (mk ⟨fld w 18 6, fld w 12 6, fld w 0 12, giHi p⟩)

def decGiSh (p : Option Payload) (w : Word) (mk : GiSh → Instr) : Decoded :=
  checked p.isSome false (fld w 5 7 != 0#7) (mk ⟨fld w 18 6, fld w 12 6, fld w 0 5⟩)

/-- GM: the function number is 8·imm(5) + F (R85, R233). -/
def decMask (p : Option Payload) (w : Word) : Decoded :=
  let pb := p.isSome
  let kd := fld w 21 3
  let ka := fld w 18 3
  let kb := fld w 15 3
  let x := fld w 6 6
  let nx := x != 0#6
  let nim := fld w 0 5 != 0#5
  let nb := kb != 0#3
  let k0 := kd == 0#3
  let o : GmB := ⟨kd, ka, kb⟩
  match (if bitAt w 5 then 8 else 0) + (fld w 12 3).toNat with
  | 0 => checked pb (nx || nim) k0 (.kand o) | 1 => checked pb (nx || nim) k0 (.kor o)
  | 2 => checked pb (nx || nim) k0 (.kxor o) | 3 => checked pb (nx || nim) k0 (.kandn o)
  | 4 => checked pb (nx || nim || nb) k0 (.knot kd ka)
  | 5 => checked pb (nim || nb || ka != 0#3) k0 (.kmov kd x)
  | 6 => checked pb (nim || nb || !k0) false (.ktos ka x)
  | 7 => checked pb (nim || nb || !k0) false (.kpop ka x)
  | 8 => checked pb (nim || nb || !k0) false (.kffs ka x)
  | 9 => checked pb (nx || nb || fld w 3 2 != 0#2) k0 (.kset kd ka (fld w 0 3))
  | _ => checked pb true false .nop

def scopeOf : Nat → Option Scope
  | 0 => some .grp | 1 => some .core | 2 => some .die | 3 => some .pkg | 4 => some .sys | _ => none

def glOp (p : Option Payload) (w : Word) : GlOp := ⟨fld w 20 4, fld w 14 6, fld w 9 5, fld w 0 9, p⟩

/-- GL with a scope (R86). -/
def decGlS (p : Option Payload) (w : Word) (mk : GlS → Instr) : Decoded :=
  let s := scopeOf (fld w 20 4).toNat
  checked false false s.isNone (mk ⟨s.getD .grp, fld w 14 6, fld w 9 5, fld w 0 9, p⟩)

/-- A fence: D, A and B 0, F the scope (R88). -/
def decFence (p : Option Payload) (w : Word) (mk : Scope → Instr) : Decoded :=
  let s := scopeOf (fld w 0 6).toNat
  checked p.isSome (fld w 6 18 != 0#18) s.isNone (mk (s.getD .grp))

/-- A word with no operand (R88). -/
def decNone (p : Option Payload) (w : Word) (i : Instr) : Decoded := checked p.isSome (fld w 0 24 != 0#24) false i

/-- A copy (R87): F bits 23:21 and, without R, imm3 are 0. -/
def decCopy (p : Option Payload) (w : Word) (three : Bool) (mk : GaC → Instr) : Decoded :=
  let o : GaC := ⟨bitAt w 20, fld w 15 5, fld w 9 6, fld w 3 6, fld w 0 3⟩
  checked p.isSome (fld w 21 3 != 0#3 || (!o.ring && o.imm != 0#3)) (three && !regRange o.b 3) (mk o)

/-- A GA word that uses A alone (R87). -/
def decGaA (p : Option Payload) (w : Word) (mk : Reg → Instr) : Decoded :=
  checked p.isSome (fld w 20 4 != 0#4 || fld w 15 5 != 0#5 || fld w 3 6 != 0#6 || fld w 0 3 != 0#3) false (mk (fld w 9 6))

/-- A GI word with D and A 0 and imm12 in a range (R88). -/
def decImm (p : Option Payload) (w : Word) (reserved range : Bool) (i : Instr) : Decoded :=
  checked p.isSome (fld w 18 6 != 0#6 || fld w 12 6 != 0#6 || reserved) range i

/-- Control words (R83, R88, R204, R205). -/
def decControl (p : Option Payload) (w : Word) : Decoded :=
  let pb := p.isSome
  let off := fld w 0 20
  match (fld w 24 7).toNat with
  | 0x10 => checked pb false false (.bc ⟨fld w 20 4, off⟩)
  | 0x11 => checked pb false false (.bmz ⟨bitAt w 23, fld w 20 3, off⟩)
  | 0x12 => checked pb false false (.bmnz ⟨bitAt w 23, fld w 20 3, off⟩)
  | 0x13 => checked pb false false (.call ⟨fld w 20 4, off⟩)
  | 0x14 => decNone p w .ret
  | 0x15 => decNone p w .regang
  | 0x16 => decNone p w .exit
  | 0x17 => decNone p w .nop
  | 0x18 => checked pb (fld w 12 6 != 0#6) false (.loop (fld w 18 6) (fld w 0 12))
  | 0x19 => decImm p w (fld w 8 4 != 0#4) false (.trap (fld w 0 8))
  | 0x1A => checked pb (fld w 6 18 != 0#18 || decide (1 < (fld w 0 6).toNat)) false
      (if fld w 0 6 = 0#6 then .rteRetry else .rteSkip)
  | _ => decImm p w (fld w 8 4 != 0#4) false (.brk (fld w 0 8))

/-- `SRD` and `SWR` (R65, R209, R210): a special register number or access comes last, as sub-cause 0x04. -/
def decSrd (p : Option Payload) (w : Word) : Decoded :=
  let d : Reg := fld w 18 6
  let n := fld w 0 12
  match checked p.isSome (fld w 12 6 != 0#6) (srWide n && !d.even) (.srd d n) with
  | .error e => .error e
  | .ok i => if 14 < n.toNat then .error subSpecial else .ok i

def decSwr (p : Option Payload) (w : Word) : Decoded :=
  match checked p.isSome (fld w 18 6 != 0#6) false (.swr (fld w 12 6) (fld w 0 12)) with
  | .error e => .error e
  | .ok i => if fld w 0 12 != 6#12 then .error subSpecial else .ok i

/-- Masks, windows and special registers (R54, R61, R88, R235). -/
def decState (p : Option Payload) (w : Word) : Decoded :=
  let pb := p.isSome
  match (fld w 24 7).toNat with
  | 0x20 => decMask p w
  | 0x21 => checked pb (fld w 16 2 != 0#2) (!killOk (fld w 18 6) (fld w 0 16)) (.kill (fld w 18 6) (fld w 0 16))
  | 0x22 => checked pb false (fld w 20 4 != 0#4 || decide (64 < (fld w 0 12).toNat)) (.win (fld w 18 2) (fld w 12 6) (fld w 0 12))
  | 0x23 => decImm p w false (!([2, 4, 8, 16, 32].contains (fld w 0 12).toNat)) (.setpart (fld w 0 12))
  | 0x24 => decSrd p w
  | _ => decSwr p w

/-- Uniform memory, fences and freezing (R86, R88). -/
def decUniMem (p : Option Payload) (w : Word) : Decoded :=
  let pb := p.isSome
  let o := glOp p w
  match (fld w 24 7).toNat with
  | 0x28 => checked false false false (.sld o)
  | 0x29 => checked false (o.la != 0#4) false (.sst o)
  | 0x2B => checked false false false (.sldc o)
  | 0x30 => decFence p w .fence
  | 0x31 => decFence p w .acq
  | 0x32 => decFence p w .rel
  | 0x33 => decGlS p w .acqr
  | 0x34 => decGlS p w .rels
  | 0x35 => decNone p w .bar
  | 0x36 => checked pb (fld w 2 4 != 0#4) (bitAt w 12) (.frz (fld w 18 6) (fld w 12 6) (fld w 6 6) (bitAt w 0) (bitAt w 1))
  | 0x37 => checked pb (fld w 18 6 != 0#6 || fld w 0 12 != 0#12) false (.thw (fld w 12 6))
  | 0x38 => checked pb (fld w 18 6 != 0#6 || fld w 0 12 != 0#12) false (.fwait (fld w 12 6))
  | _ =>
    let s := scopeOf (fld w 0 6).toNat
    checked pb (fld w 18 6 != 0#6 || fld w 6 6 != 0#6) s.isNone (.publish (fld w 12 6) (s.getD .grp))

/-- Copies, rings and run-ahead (R87, R409). -/
def decGa (p : Option Payload) (w : Word) : Decoded :=
  let pb := p.isSome
  let f0 := fld w 20 4 != 0#4
  match (fld w 24 7).toNat with
  | 0x40 => decCopy p w false .cpy
  | 0x41 => decCopy p w true .cpy2d
  | 0x42 => decCopy p w true .cpyg
  | 0x43 => checked pb (f0 || fld w 0 3 != 0#3) false (.cpyo (fld w 15 5) (fld w 9 6) (fld w 3 6))
  | 0x44 => decGaA p w .closeb
  | 0x45 => decGaA p w .waitb
  | 0x46 => checked pb (f0 || fld w 0 9 != 0#9) false (.raf (fld w 15 5) (fld w 9 6))
  | 0x47 => checked pb f0 (bitAt w 9) (.rafg (fld w 15 5) (fld w 9 6) (fld w 3 6) (fld w 0 3))
  | 0x48 => checked pb (f0 || fld w 15 5 != 0#5 || fld w 3 6 != 0#6) false (.sarrive (fld w 9 6) (fld w 0 3))
  | _ => checked pb (fld w 21 3 != 0#3 || fld w 15 5 != 0#5 || fld w 3 6 != 0#6) false
      (.swait (bitAt w 20) (fld w 9 6) (fld w 0 3))

/-- The matrix engine and tasks (R88, R337, R373). -/
def decMatrix (p : Option Payload) (w : Word) : Decoded :=
  let pb := p.isSome
  let imm := fld w 0 12
  match (fld w 24 7).toNat with
  | 0x50 => decNone p w .mown
  | 0x51 => decNone p w .mrel
  | 0x52 => decImm p w false (decide (31 < imm.toNat)) (.mpass imm)
  | 0x53 => checked false false (fld w 17 3 != 0#3) (.mshape (glOp p w))
  | 0x54 => checked false (fld w 12 3 != 0#3) (fld w 0 8 == 0#8)
      (.mloop ⟨fld w 21 3, fld w 15 6, fld w 8 4, fld w 0 8, p.map (fun q => (q.extractLsb' 12 12, q.extractLsb' 0 12))⟩)
  | 0x55 => decImm p w false (decide (3 < imm.toNat)) (.mzero imm)
  | 0x56 => checked pb (fld w 2 10 != 0#10) (!regRange (fld w 18 6) 4) (.mrd (fld w 18 6) (fld w 12 6) (fld w 0 2))
  | 0x57 => checked pb (fld w 2 10 != 0#10) (!regRange (fld w 18 6) 4) (.mwr (fld w 18 6) (fld w 12 6) (fld w 0 2))
  | _ =>
    let off := fld w 12 6 == 0#6 && imm == 1#12
    checked pb (fld w 18 6 != 0#6 || (imm != 0#12 && !off)) false (if off then .midxOff else .midx (fld w 12 6))

/-- The G-set (R99). -/
def decUniform (p : Option Payload) (w : Word) : Decoded :=
  let g := (fld w 24 7).toNat
  match g with
  | 0x00 => decScalar p w
  | 0x01 => decPair p w
  | 0x02 => decGi p w .saddi | 0x03 => decGi p w .sandi | 0x04 => decGi p w .sori | 0x05 => decGi p w .sxori
  | 0x06 => decGiSh p w .sshli | 0x07 => decGiSh p w .sshri
  | 0x08 => checked (giBad p) (fld w 12 6 != 0#6) false (.smovi ⟨fld w 18 6, fld w 0 12, giHi p⟩)
  | 0x09 => checked (giBad p) (fld w 18 6 != 0#6) false (.scmpi ⟨fld w 12 6, fld w 0 12, giHi p⟩)
  | 0x60 => checked p.isSome (fld w 18 6 != 0#6 || fld w 0 12 != 0#12) (bitAt w 12) (.tsub (fld w 12 6))
  | _ =>
    if 0x10 ≤ g ∧ g ≤ 0x1B then decControl p w
    else if 0x20 ≤ g ∧ g ≤ 0x25 then decState p w
    else if (0x28 ≤ g ∧ g ≤ 0x29) ∨ g = 0x2B ∨ (0x30 ≤ g ∧ g ≤ 0x39) then decUniMem p w
    else if 0x40 ≤ g ∧ g ≤ 0x49 then decGa p w
    else if 0x50 ≤ g ∧ g ≤ 0x58 then decMatrix p w
    else checked p.isSome true false .nop

/-- A word is an `XP` (R90). -/
def isXp (w : Word) : Bool := fld w 24 8 == 0xFF#8

/-- Decode a word with the payload of the `XP` before it, if there is one (R92, R100). -/
def decode (p : Option Payload) (w : Word) : Decoded :=
  if isXp w then .error subPrefix
  else if bitAt w 31 then decUniform p w else decLane p w

/-! ## Encoding -/

/-- A bit as a field. -/
def one (b : Bool) : BitVec 1 := BitVec.ofBool b

/-- An index payload (R91). -/
def Ix.payload (x : Ix) : Payload :=
  one x.di ++ one x.ai ++ one x.bi ++ x.dw ++ x.dx ++ x.aw ++ x.ax ++ x.bw ++ x.bx ++ one x.dxr ++ 0#5

/-- An encoding: the payload of the prefix, if there is one, and the word. -/
abbrev Code := Option Payload × Word

/-- LR's fields (R76). -/
def lrWord (lop : BitVec 6) (k : KReg) (c : Bool) (f : BitVec 3) (d a b : Reg) : Word :=
  0#1 ++ lop ++ k ++ one c ++ f ++ d ++ a ++ b

def encLrB (lop : BitVec 6) (f : BitVec 3) (o : LrB) : Option Code := some (o.ix.map Ix.payload, lrWord lop o.k o.c f o.d o.a o.b)
def encLrU (lop : BitVec 6) (f : BitVec 3) (o : LrU) : Option Code := some (o.ix.map Ix.payload, lrWord lop o.k o.c f o.d o.a 0#6)
def encLrC (lop : BitVec 6) (f : BitVec 3) (o : LrC) : Option Code := some (o.ix.map Ix.payload, lrWord lop o.k true f 0#6 o.a o.b)

def RndSel.code : RndSel → BitVec 3
  | .fpc => 0#3 | .rne => 1#3 | .rtz => 2#3 | .rdn => 3#3 | .rup => 4#3

def encCvt (lop : BitVec 6) (f : BitVec 3) (o : CvtOp) : Option Code :=
  some (o.ix.map Ix.payload, lrWord lop o.k o.c f o.d o.a (0#2 ++ one o.s ++ o.m.code))

/-- LI's fields (R77). -/
def liWord (lop : BitVec 6) (k : KReg) (c : Bool) (d a : Reg) (imm : BitVec 9) : Word :=
  0#1 ++ lop ++ k ++ one c ++ d ++ a ++ imm

def encLi (lop : BitVec 6) (o : LiOp) : Option Code := some (o.hi.map (fun h => 0#1 ++ h), liWord lop o.k o.c o.d o.a o.imm)
def encLiSh (lop : BitVec 6) (o : LiSh) : Option Code := some (none, liWord lop o.k o.c o.d o.a (0#4 ++ o.sh))

/-- LL's and LM's fields (R79, R80). -/
def llWord (lop : BitVec 6) (k : KReg) (la : BitVec 4) (d a b : Reg) : Word := 0#1 ++ lop ++ k ++ la ++ d ++ a ++ b
def encLlB (lop : BitVec 6) (o : LlB) : Option Code := some (none, llWord lop o.k o.la o.d o.a o.b)
def encLlU (b : Reg) (o : LlU) : Option Code := some (none, llWord 20#6 o.k o.la o.d o.a b)
def LmPx.payload (x : LmPx) : Payload := one x.sc ++ x.disp
def encLd (lop : BitVec 6) (o : LmLd) : Option Code := some (o.px.map LmPx.payload, llWord lop o.k o.la o.d o.a (o.p ++ o.sz))
def encSt (lop : BitVec 6) (o : LmSt) : Option Code := some (o.px.map LmPx.payload, llWord lop o.k 0#4 o.d o.a (o.p ++ o.sz))

def PType.code : PType → BitVec 4
  | .i16 => 0#4 | .n16 => 1#4 | .f16 => 2#4 | .bf16 => 3#4 | .i8 => 4#4 | .n8 => 5#4 | .e4m3 => 6#4 | .e5m2 => 7#4
  | .e3m2 => 8#4 | .e2m3 => 9#4 | .i4 => 10#4 | .n4 => 11#4 | .e2m1 => 12#4

def CvtType.code : CvtType → BitVec 4
  | .packed t => t.code
  | .f32 => 13#4

/-- LP's fields (R78). -/
def lpWord (lop : BitVec 6) (k : BitVec 2) (s : Bool) (t : BitVec 4) (d a b : Reg) : Word := 0#1 ++ lop ++ k ++ one s ++ t ++ d ++ a ++ b
def encLp (lop : BitVec 6) (o : LpB) : Option Code := some (none, lpWord lop o.k o.s o.t.code o.d o.a o.b)
def encLrF (lop : BitVec 6) (o : LrF) : Option Code := some (none, lrWord lop o.k o.c o.f o.d o.a o.b)
def encLrN (lop : BitVec 6) (f : BitVec 3) (o : LrN) : Option Code := some (none, lrWord lop o.k false f o.d o.a o.b)

/-- GR's fields (R81). -/
def grWord (gop : BitVec 7) (d a b f : BitVec 6) : Word := 1#1 ++ gop ++ d ++ a ++ b ++ f
def encGr (gop : BitVec 7) (d a b f : BitVec 6) : Option Code := some (none, grWord gop d a b f)

/-- GI's fields (R82). -/
def giWord (gop : BitVec 7) (d a : Reg) (imm : BitVec 12) : Word := 1#1 ++ gop ++ d ++ a ++ imm
def encGi (gop : BitVec 7) (d a : Reg) (imm : BitVec 12) : Option Code := some (none, giWord gop d a imm)
def encGiHi (gop : BitVec 7) (d a : Reg) (imm : BitVec 12) (hi : Option (BitVec 20)) : Option Code :=
  some (hi.map (fun h => 0#4 ++ h), giWord gop d a imm)
/-- GJ's fields (R83). -/
def encGj (gop : BitVec 7) (c : BitVec 4) (off : BitVec 20) : Option Code := some (none, 1#1 ++ gop ++ c ++ off)
/-- GM's fields (R85). -/
def encGm (kd ka kb : KReg) (f : BitVec 3) (x : Reg) (imm : BitVec 6) : Option Code :=
  some (none, 1#1 ++ 0x20#7 ++ kd ++ ka ++ kb ++ f ++ x ++ imm)
/-- GL's fields (R86). -/
def glWord (gop : BitVec 7) (la : BitVec 4) (d : Reg) (p : BitVec 5) (imm : BitVec 9) : Word := 1#1 ++ gop ++ la ++ d ++ p ++ imm
def encGl (gop : BitVec 7) (o : GlOp) : Option Code := some (o.hi, glWord gop o.la o.d o.p o.imm)
def Scope.code : Scope → Nat
  | .grp => 0 | .core => 1 | .die => 2 | .pkg => 3 | .sys => 4
def encGlS (gop : BitVec 7) (o : GlS) : Option Code := some (o.hi, glWord gop (BitVec.ofNat 4 o.scope.code) o.d o.p o.imm)
/-- GA's fields (R87). -/
def encGa (gop : BitVec 7) (f : BitVec 4) (p : BitVec 5) (a b : Reg) (imm : BitVec 3) : Option Code :=
  some (none, 1#1 ++ gop ++ f ++ p ++ a ++ b ++ imm)
def encCopy (gop : BitVec 7) (o : GaC) : Option Code := encGa gop (0#3 ++ one o.ring) o.p o.a o.b o.imm
def encNone (gop : BitVec 7) : Option Code := some (none, 1#1 ++ gop ++ 0#24)

/-- The encoding of an instruction; none for the commands and events, which have no word. -/
def encode : Instr → Option Code
  | .iadd o => encLrB 0#6 0#3 o | .iaddc o => encLrB 0#6 1#3 o | .isub o => encLrB 0#6 2#3 o | .isubb o => encLrB 0#6 3#3 o
  | .iabs o => encLrU 0#6 4#3 o | .ineg o => encLrU 0#6 5#3 o | .imin o => encLrB 0#6 6#3 o | .imax o => encLrB 0#6 7#3 o
  | .iminu o => encLrB 1#6 0#3 o | .imaxu o => encLrB 1#6 1#3 o | .iand o => encLrB 1#6 2#3 o | .ior o => encLrB 1#6 3#3 o
  | .ixor o => encLrB 1#6 4#3 o | .iandn o => encLrB 1#6 5#3 o | .inot o => encLrU 1#6 6#3 o | .imov o => encLrU 1#6 7#3 o
  | .ishl o => encLrB 2#6 0#3 o | .ishr o => encLrB 2#6 1#3 o | .isra o => encLrB 2#6 2#3 o | .irot o => encLrB 2#6 3#3 o
  | .iclz o => encLrU 2#6 4#3 o | .ipopc o => encLrU 2#6 5#3 o | .ibrev o => encLrU 2#6 6#3 o | .ibyte o => encLrB 2#6 7#3 o
  | .imul o => encLrB 3#6 0#3 o | .imulh o => encLrB 3#6 1#3 o | .imulhu o => encLrB 3#6 2#3 o | .imad o => encLrB 3#6 3#3 o
  | .icmp o => encLrC 4#6 0#3 o | .icmpu o => encLrC 4#6 1#3 o
  | .isel o => some (o.ix.map Ix.payload, lrWord 5#6 o.k false o.cond o.d o.a o.b)
  | .ibfe o => encLrB 6#6 0#3 o | .ibfeu o => encLrB 6#6 1#3 o | .ibfi o => encLrB 6#6 2#3 o
  | .iaddi o => encLi 8#6 o | .iandi o => encLi 9#6 o | .iori o => encLi 10#6 o | .ixori o => encLi 11#6 o
  | .ishli o => encLiSh 12#6 o | .ishri o => encLiSh 13#6 o | .israi o => encLiSh 14#6 o
  | .imovi o => some (o.hi.map (fun h => 0#1 ++ h), liWord 15#6 o.k o.c o.d 0#6 o.imm)
  | .fadd o => encLrB 16#6 0#3 o | .fsub o => encLrB 16#6 1#3 o | .fmul o => encLrB 16#6 2#3 o | .fma o => encLrB 16#6 3#3 o
  | .fms o => encLrB 16#6 4#3 o | .fnma o => encLrB 16#6 5#3 o | .fmin o => encLrB 16#6 6#3 o | .fmax o => encLrB 16#6 7#3 o
  | .fabs o => encLrU 17#6 0#3 o | .fneg o => encLrU 17#6 1#3 o | .fcmp o => encLrC 17#6 2#3 o | .fclass o => encLrU 17#6 3#3 o
  | .fmas o => some (some (o.sr ++ o.ba ++ o.bb ++ 0#14), lrWord 17#6 o.k o.c 4#3 o.d o.a o.b)
  | .frnd o => encCvt 17#6 5#3 o | .fsel o => encLrB 17#6 6#3 o | .fcpys o => encLrB 17#6 7#3 o
  | .cvtfi o => encCvt 18#6 0#3 o | .cvtfn o => encCvt 18#6 1#3 o | .cvtif o => encCvt 18#6 2#3 o | .cvtnf o => encCvt 18#6 3#3 o
  | .cvtfh o => encCvt 18#6 4#3 o | .cvthf o => encCvt 18#6 5#3 o | .cvtfb o => encCvt 18#6 6#3 o | .cvtbf o => encCvt 18#6 7#3 o
  | .fdiv o => encLlB 19#6 o
  | .fsqrt o => encLlU 0#6 o | .frcp o => encLlU 1#6 o | .frsq o => encLlU 2#6 o | .fexp2 o => encLlU 3#6 o
  | .flog2 o => encLlU 4#6 o | .fsin o => encLlU 5#6 o | .fcos o => encLlU 6#6 o | .ftanh o => encLlU 7#6 o | .fsigm o => encLlU 8#6 o
  | .idiv o => encLlB 21#6 o | .idivu o => encLlB 22#6 o | .irem o => encLlB 23#6 o | .iremu o => encLlB 24#6 o
  | .mvt o => some (some (o.m1 ++ o.n1 ++ o.off), llWord 25#6 o.k o.la o.d o.a o.b)
  | .ldg o => encLd 26#6 o | .ldgs o => encLd 27#6 o | .stg o => encSt 28#6 o | .ldff o => encLd 29#6 o
  | .ldp o => encLd 30#6 o | .stp o => encSt 31#6 o | .ldc o => encLd 61#6 o
  | .padd o => encLp 32#6 o | .psub o => encLp 33#6 o | .pmul o => encLp 34#6 o | .pfma o => encLp 35#6 o
  | .pmin o => encLp 36#6 o | .pmax o => encLp 37#6 o | .pabs o => encLp 38#6 o | .pavg o => encLp 39#6 o
  | .pcmpeq o => encLp 40#6 o | .pcmplt o => encLp 41#6 o | .pdot o => encLp 42#6 o
  | .pcvt o => some (none, lpWord 43#6 o.k o.s o.t.code o.d o.a (0#1 ++ one o.toU ++ o.u.code))
  | .psad o => encLp 44#6 o | .pmov o => encLp 45#6 o
  | .atomg o => encLrF 46#6 o | .atomp o => encLrF 47#6 o | .xshfl o => encLrF 48#6 o | .xgather o => encLrF 49#6 o
  | .xvote o => encLrF 50#6 o | .xred o => encLrF 51#6 o | .xscan o => encLrF 52#6 o | .xscane o => encLrF 53#6 o
  | .xsegred o => encLrF 54#6 o | .xsegscan o => encLrF 55#6 o | .xisect o => encLrN 56#6 0#3 o
  | .qpush o => encLrN 57#6 0#3 o | .qpop o => encLrN 57#6 1#3 o | .qlen o => encLrN 57#6 2#3 o
  | .emit o => encLrN 58#6 0#3 o | .redg o => encLrF 59#6 o
  | .xchgg o => encLrN 60#6 0#3 o | .casg o => encLrF 60#6 o | .xchgp o => encLrN 60#6 2#3 o | .casp o => encLrF 60#6 o
  | .sadd o => encGr 0#7 o.d o.a o.b 0#6 | .saddc o => encGr 0#7 o.d o.a o.b 1#6 | .ssub o => encGr 0#7 o.d o.a o.b 2#6
  | .ssubb o => encGr 0#7 o.d o.a o.b 3#6 | .sand o => encGr 0#7 o.d o.a o.b 4#6 | .sor o => encGr 0#7 o.d o.a o.b 5#6
  | .sxor o => encGr 0#7 o.d o.a o.b 6#6 | .sandn o => encGr 0#7 o.d o.a o.b 7#6 | .sshl o => encGr 0#7 o.d o.a o.b 8#6
  | .sshr o => encGr 0#7 o.d o.a o.b 9#6 | .ssra o => encGr 0#7 o.d o.a o.b 10#6 | .smul o => encGr 0#7 o.d o.a o.b 11#6
  | .smulh o => encGr 0#7 o.d o.a o.b 12#6 | .smulhu o => encGr 0#7 o.d o.a o.b 13#6 | .smin o => encGr 0#7 o.d o.a o.b 14#6
  | .smax o => encGr 0#7 o.d o.a o.b 15#6 | .sminu o => encGr 0#7 o.d o.a o.b 16#6 | .smaxu o => encGr 0#7 o.d o.a o.b 17#6
  | .sclz o => encGr 0#7 o.d o.a 0#6 18#6 | .spopc o => encGr 0#7 o.d o.a 0#6 19#6 | .smov o => encGr 0#7 o.d o.a 0#6 20#6
  | .scmp o => encGr 0#7 0#6 o.a o.b 21#6 | .scmpu o => encGr 0#7 0#6 o.a o.b 22#6 | .ssel o => encGr 0#7 o.d o.a o.b 23#6
  | .sadd64 o => encGr 1#7 o.d o.a o.b 0#6 | .ssub64 o => encGr 1#7 o.d o.a o.b 1#6 | .smov64 o => encGr 1#7 o.d o.a 0#6 2#6
  | .sshl64 o => encGr 1#7 o.d o.a o.b 3#6 | .scmp64 o => encGr 1#7 0#6 o.a o.b 4#6
  | .saddi o => encGiHi 2#7 o.d o.a o.imm o.hi | .sandi o => encGiHi 3#7 o.d o.a o.imm o.hi
  | .sori o => encGiHi 4#7 o.d o.a o.imm o.hi | .sxori o => encGiHi 5#7 o.d o.a o.imm o.hi
  | .sshli o => encGi 6#7 o.d o.a (0#7 ++ o.sh) | .sshri o => encGi 7#7 o.d o.a (0#7 ++ o.sh)
  | .smovi o => encGiHi 8#7 o.r 0#6 o.imm o.hi | .scmpi o => encGiHi 9#7 0#6 o.r o.imm o.hi
  | .bc o => encGj 0x10#7 o.cond o.off | .bmz o => encGj 0x11#7 (one o.s ++ o.m) o.off
  | .bmnz o => encGj 0x12#7 (one o.s ++ o.m) o.off | .call o => encGj 0x13#7 o.cond o.off
  | .ret => encNone 0x14#7 | .regang => encNone 0x15#7 | .exit => encNone 0x16#7 | .nop => encNone 0x17#7
  | .loop d off => encGi 0x18#7 d 0#6 off
  | .trap c => encGi 0x19#7 0#6 0#6 (0#4 ++ c) | .rteRetry => encGr 0x1A#7 0#6 0#6 0#6 0#6
  | .rteSkip => encGr 0x1A#7 0#6 0#6 0#6 1#6 | .brk c => encGi 0x1B#7 0#6 0#6 (0#4 ++ c)
  | .kand o => encGm o.kd o.ka o.kb 0#3 0#6 0#6 | .kor o => encGm o.kd o.ka o.kb 1#3 0#6 0#6
  | .kxor o => encGm o.kd o.ka o.kb 2#3 0#6 0#6 | .kandn o => encGm o.kd o.ka o.kb 3#3 0#6 0#6
  | .knot kd ka => encGm kd ka 0#3 4#3 0#6 0#6 | .kmov kd x => encGm kd 0#3 0#3 5#3 x 0#6
  | .ktos ka x => encGm 0#3 ka 0#3 6#3 x 0#6 | .kpop ka x => encGm 0#3 ka 0#3 7#3 x 0#6
  | .kffs ka x => encGm 0#3 ka 0#3 0#3 x 0x20#6 | .kset kd ka c => encGm kd ka 0#3 1#3 0#6 (0b100#3 ++ c)
  | .kill b m => some (none, 1#1 ++ 0x21#7 ++ b ++ 0#2 ++ m)
  | .win d a len => encGi 0x22#7 (0#4 ++ d) a len | .setpart n => encGi 0x23#7 0#6 0#6 n
  | .srd d n => encGi 0x24#7 d 0#6 n | .swr a n => encGi 0x25#7 0#6 a n
  | .sld o => encGl 0x28#7 o | .sst o => encGl 0x29#7 o | .sldc o => encGl 0x2B#7 o
  | .fence s => encGr 0x30#7 0#6 0#6 0#6 (BitVec.ofNat 6 s.code) | .acq s => encGr 0x31#7 0#6 0#6 0#6 (BitVec.ofNat 6 s.code)
  | .rel s => encGr 0x32#7 0#6 0#6 0#6 (BitVec.ofNat 6 s.code)
  | .acqr o => encGlS 0x33#7 o | .rels o => encGlS 0x34#7 o | .bar => encNone 0x35#7
  | .frz d a b sys pin => encGr 0x36#7 d a b (0#4 ++ one pin ++ one sys)
  | .thw a => encGr 0x37#7 0#6 a 0#6 0#6 | .fwait a => encGr 0x38#7 0#6 a 0#6 0#6
  | .publish a s => encGr 0x39#7 0#6 a 0#6 (BitVec.ofNat 6 s.code)
  | .cpy o => encCopy 0x40#7 o | .cpy2d o => encCopy 0x41#7 o | .cpyg o => encCopy 0x42#7 o
  | .cpyo p a b => encGa 0x43#7 0#4 p a b 0#3 | .closeb a => encGa 0x44#7 0#4 0#5 a 0#6 0#3
  | .waitb a => encGa 0x45#7 0#4 0#5 a 0#6 0#3 | .raf p a => encGa 0x46#7 0#4 p a 0#6 0#3
  | .rafg p a b z => encGa 0x47#7 0#4 p a b z | .sarrive a r => encGa 0x48#7 0#4 0#5 a 0#6 r
  | .swait ph a r => encGa 0x49#7 (0#3 ++ one ph) 0#5 a 0#6 r
  | .mown => encNone 0x50#7 | .mrel => encNone 0x51#7 | .mpass g => encGi 0x52#7 0#6 0#6 g
  | .mshape o => encGl 0x53#7 o
  | .mloop o => some (o.inc.map (fun x => x.1 ++ x.2), 1#1 ++ 0x54#7 ++ o.sl ++ o.vs ++ 0#3 ++ o.sel ++ o.n)
  | .mzero t => encGi 0x55#7 0#6 0#6 t | .mrd d a t => encGi 0x56#7 d a (0#10 ++ t) | .mwr d a t => encGi 0x57#7 d a (0#10 ++ t)
  | .midx a => encGi 0x58#7 0#6 a 0#12 | .midxOff => encGi 0x58#7 0#6 0#6 1#12
  | .tsub a => encGr 0x60#7 0#6 a 0#6 0#6
  | .ctxCreate _ _ | .ctxDestroy _ _ | .map _ _ | .mapShadow _ _ _ _ | .mapRemoteWindow _ _ _ | .unmap _ _ _
  | .unmapShadow _ _ _ | .read _ _ _ | .write _ _ _ | .moduleLoad _ _ _ _ | .launch _ _ _ _ _ | .taskSubmit _ _
  | .preemptRequest _ | .preemptHalt _ | .preemptResumeHalt _ | .preemptResumePark _ | .journalRead _ _ _
  | .leapRead _ _ | .leapWrite _ _ _ _ | .leapPin _ _ | .leapUnpin _ _ | .leapDiscard _ _ | .setLease _ _
  | .biasSet _ _ _ _ | .attest _ _ | .fwInfo _ | .unsupportedPacket _ | .resultArrival _ _ | .teamPlacement
  | .teamMigration _ _ | .launchDone _ | .emitRecordArrival _ | .nodeTimerExpiry _ _ | .timeSliceExpiry _
  | .deadlineExpiry _ | .copyComplete _ | .freezePoint _ _ | .thawComplete _ _ | .writeComplete _
  | .publishPoint _ | .redgApply _ | .promotionRequest _ | .l1Eviction _ _ | .mloopStep _ | .lineFetch _ _
  | .stallSample _ | .eccError _ | .syncLoss _ | .syncRestored _ _ | .droopSlowdown _ | .droopRecovery _
  | .powerOn _ _ | .powerLoss | .biasTransitionEnd _ _ | .teamMoveArrival _ | .remoteAccessArrival _ => none

/-- The bytes of an instruction from its PC: 8 with a prefix, else 4 (R75). -/
def Instr.bytes (i : Instr) : Nat := match encode i with
  | some (some _, _) => 8
  | _ => 4

/-- The first word of a prefixed instruction (R90). -/
def xpWord (p : Payload) : Word := 0xFF#8 ++ p

/-! ## Bytes -/

/-- A word from four bytes, the lowest address first (R4, R75). -/
def wordAt (bs : List Byte) (i : Nat) : Word :=
  bs.getD (i + 3) 0#8 ++ bs.getD (i + 2) 0#8 ++ bs.getD (i + 1) 0#8 ++ bs.getD i 0#8

/-- Decode from bytes: an `XP` and the word after it are one instruction (R92). -/
def decodeBytes (bs : List Byte) : Decoded :=
  let w := wordAt bs 0
  if isXp w then decode (some (fld w 0 24)) (wordAt bs 4) else decode none w

/-- The bytes of the number of an instruction whose first word is least significant. -/
def bytesOfNat (w : Nat) : Nat → List Byte
  | 0 => []
  | n + 1 => BitVec.ofNat 8 w :: bytesOfNat (w / 256) n

/-- The instruction that decode reads where the table's bits are `w` and every later bit is 0. -/
def decodeTableWord (nbits w : Nat) : Option Instr :=
  match decodeBytes (bytesOfNat (w % 2 ^ nbits) 8) with
  | .ok i => some i
  | .error _ => none

end Sys2Proof
end

