-- ==== Sys2Proof/Machine/Float.lean ====
section
/-! DEFINITION. Number formats, exact values, the one rounding and its flags (R127 to R152), and the special
functions (R174, R175), all by integer arithmetic on `m · 2^e`.
-/

namespace Sys2Proof.Machine

/-- Which special encodings a format has (R130). -/
inductive FloatKind where
  /-- Infinities and NaNs in the all-ones exponent. -/
  | ieee
  /-- One NaN for each sign and no infinity (e4m3). -/
  | nanOnly
  /-- Every encoding finite. -/
  | finite
  deriving DecidableEq, Repr

/-- A floating-point format (R129): exponent and fraction bits, bias, and kind. -/
structure FloatFmt where
  ebits : Nat
  mbits : Nat
  bias : Int
  kind : FloatKind
  deriving DecidableEq, Repr

def fmtF32 : FloatFmt := ⟨8, 23, 127, .ieee⟩
def fmtF16 : FloatFmt := ⟨5, 10, 15, .ieee⟩
def fmtBf16 : FloatFmt := ⟨8, 7, 127, .ieee⟩
def fmtE4m3 : FloatFmt := ⟨4, 3, 7, .nanOnly⟩
def fmtE5m2 : FloatFmt := ⟨5, 2, 15, .ieee⟩
def fmtE3m2 : FloatFmt := ⟨3, 2, 3, .finite⟩
def fmtE2m3 : FloatFmt := ⟨2, 3, 1, .finite⟩
def fmtE2m1 : FloatFmt := ⟨2, 1, 1, .finite⟩

/-- Bits of an encoding without the sign. -/
def FloatFmt.magBits (f : FloatFmt) : Nat := f.ebits + f.mbits

/-- The magnitude bits of the largest finite value (R129, R130). -/
def FloatFmt.maxEnc (f : FloatFmt) : Nat :=
  match f.kind with
  | .ieee => 2 ^ f.magBits - 2 ^ f.mbits - 1
  | .nanOnly => 2 ^ f.magBits - 2
  | .finite => 2 ^ f.magBits - 1

/-- A value: a NaN with its 23-bit left-aligned fraction (R143), an infinity, or `±m · 2^e`. -/
inductive FVal where
  | nan (neg : Bool) (frac : Nat)
  | inf (neg : Bool)
  | fin (neg : Bool) (m : Nat) (e : Int)
  deriving DecidableEq, Repr

/-- The quiet bit of a left-aligned fraction. -/
def quietBit : Nat := 4194304

/-- The default NaN (R130). -/
def FVal.defaultNan : FVal := .nan false quietBit

/-- An encoding's value (R128, R130, R131: bits above the format's width are not looked at). -/
def FVal.decode (f : FloatFmt) (bits : Nat) : FVal :=
  let neg := bits / 2 ^ f.magBits % 2 == 1
  let mag := bits % 2 ^ f.magBits
  let e := mag / 2 ^ f.mbits
  let m := mag % 2 ^ f.mbits
  if f.kind = .ieee ∧ e = 2 ^ f.ebits - 1 then
    if m = 0 then .inf neg else .nan neg (m * 2 ^ (23 - f.mbits))
  else if f.kind = .nanOnly ∧ mag = 2 ^ f.magBits - 1 then .nan neg (m * 2 ^ (23 - f.mbits))
  else if e = 0 then .fin neg m (1 - f.bias - f.mbits)
  else .fin neg (2 ^ f.mbits + m) (e - f.bias - f.mbits)

def FVal.isNan : FVal → Bool | .nan _ _ => true | _ => false
def FVal.isInf : FVal → Bool | .inf _ => true | _ => false
def FVal.neg? : FVal → Bool | .nan n _ => n | .inf n => n | .fin n _ _ => n
/-- A zero of either sign. -/
def FVal.isZero : FVal → Bool | .fin _ m _ => m == 0 | _ => false
/-- A NaN whose quiet bit is 0 (R130). The e4m3 NaN's fraction has it set. -/
def FVal.signalling : FVal → Bool | .nan _ fr => fr / quietBit % 2 == 0 | _ => false
/-- The sign flipped. -/
def FVal.flip : FVal → FVal
  | .nan n fr => .nan (!n) fr
  | .inf n => .inf (!n)
  | .fin n m e => .fin (!n) m e

/-- The sticky flags, bits NX UF OF DZ NV from 4 down, as in `FPC` bits 12:8 (R137). -/
abbrev Flags := BitVec 5
def flNV : Flags := 1#5
def flDZ : Flags := 2#5
def flOF : Flags := 4#5
def flUF : Flags := 8#5
def flNX : Flags := 16#5

/-- What a float operation delivers: the encoding, the flags, and whether the result is a NaN or an infinity (R147). -/
structure FRes where
  bits : Nat
  flags : Flags
  nan : Bool
  inf : Bool
  deriving DecidableEq, Repr

/-- The sign bit in place. -/
def FloatFmt.withSign (f : FloatFmt) (neg : Bool) (mag : Nat) : Nat := if neg then 2 ^ f.magBits + mag else mag

/-- A NaN encoded: sign kept, the fraction's top bits, quiet set; e4m3 has one NaN for each sign; a format with no NaN gives +0 (R143, R144). -/
def FloatFmt.encodeNan (f : FloatFmt) (neg : Bool) (frac : Nat) : Nat :=
  match f.kind with
  | .ieee => f.withSign neg ((2 ^ f.ebits - 1) * 2 ^ f.mbits + (frac ||| quietBit) / 2 ^ (23 - f.mbits))
  | .nanOnly => f.withSign neg (2 ^ f.magBits - 1)
  | .finite => 0

/-- A delivered NaN with flags. -/
def FRes.nanOf (f : FloatFmt) (neg : Bool) (frac : Nat) (fl : Flags) : FRes :=
  { bits := f.encodeNan neg frac, flags := fl, nan := f.kind != .finite, inf := false }

/-- An infinite result: an infinity, or what R144 gives where the format has none. -/
def FRes.infOf (f : FloatFmt) (neg : Bool) (sat : Bool) : FRes :=
  match f.kind, sat with
  | .ieee, false => { bits := f.withSign neg (f.maxEnc + 1), flags := 0#5, nan := false, inf := true }
  | _, true => { bits := f.withSign neg f.maxEnc, flags := 0#5, nan := false, inf := false }
  | .nanOnly, false => { bits := f.encodeNan neg quietBit, flags := flNV, nan := true, inf := false }
  | .finite, false => { bits := f.withSign neg f.maxEnc, flags := flNV, nan := false, inf := false }

/-- Whether the mode rounds a discarded part up in magnitude: `half` is the part against one half, less, equal or
greater, and `odd` the lowest kept bit (R139). Modes are `FPC`'s: 0 RNE, 1 RTZ, 2 RDN, 3 RUP (R137). -/
def roundsUp (rm : BitVec 2) (neg odd : Bool) (half : Ordering) : Bool :=
  match rm with
  | 0#2 => match half with
    | .lt => false
    | .eq => odd
    | .gt => true
  | 1#2 => false
  | 2#2 => neg
  | _ => !neg

/-- round(±(m + s)·2^e, f, rm) for an s in (0, 1) when `sticky` and 0 otherwise: R139 to R142 for a value formed by
no sum. `sat` asks for saturation (R140). A sticky value must carry more bits than the format keeps. -/
def roundVal (f : FloatFmt) (rm : BitVec 2) (sat : Bool) (neg : Bool) (m : Nat) (e : Int) (sticky : Bool) : FRes :=
  if m = 0 then { bits := f.withSign neg 0, flags := 0#5, nan := false, inf := false } else
  let top : Int := Int.ofNat (Nat.log2 m) + e
  let q : Int := max (top - f.mbits) (1 - f.bias - f.mbits)
  let shift : Int := q - e
  let up := shift.toNat
  let n := if shift ≤ 0 then m * 2 ^ (-shift).toNat else m / 2 ^ up
  let rem := if shift ≤ 0 then 0 else m % 2 ^ up
  let inexact := rem != 0 || sticky
  let half : Ordering :=
    if shift ≤ 0 then .lt
    else if rem < 2 ^ (up - 1) then .lt
    else if rem > 2 ^ (up - 1) || sticky then .gt else .eq
  let n' := if inexact && roundsUp rm neg (n % 2 == 1) half then n + 1 else n
  let enc := ((q + f.mbits + f.bias - 1).toNat) * 2 ^ f.mbits + n'
  if enc > f.maxEnc then
    let away := match rm with
      | 0#2 => true
      | 1#2 => false
      | 2#2 => neg
      | _ => !neg
    if away && !sat then
      match f.kind with
      | .ieee => { bits := f.withSign neg (f.maxEnc + 1), flags := flOF ||| flNX, nan := false, inf := true }
      | .nanOnly => { bits := f.encodeNan neg quietBit, flags := flOF ||| flNX, nan := true, inf := false }
      | .finite => { bits := f.withSign neg f.maxEnc, flags := flOF ||| flNX, nan := false, inf := false }
    else { bits := f.withSign neg f.maxEnc, flags := flOF ||| flNX, nan := false, inf := false }
  else
    let tiny := inexact && decide (enc < 2 ^ f.mbits)
    { bits := f.withSign neg enc
      flags := (if inexact then flNX else 0#5) ||| (if tiny then flUF else 0#5), nan := false, inf := false }

/-- The first NaN of the arguments in order, delivered by R143, or nothing. `bad` is a 0·∞ product. -/
def firstNan (f : FloatFmt) (bad : Bool) : List FVal → Option FRes
  | [] => none
  | .nan n fr :: _ =>
    some (FRes.nanOf f n fr (if bad || (FVal.nan n fr).signalling then flNV else 0#5))
  | _ :: t => firstNan f bad t

/-- An invalid operation: the default NaN and NV (R143). In a format with no NaN no operation is invalid. -/
def FRes.invalid (f : FloatFmt) : FRes := FRes.nanOf f false quietBit flNV

/-- A signed exact value as an integer times 2^e. -/
def signedInt (neg : Bool) (m : Nat) : Int := if neg then -Int.ofNat m else Int.ofNat m

/-- Round a nonzero integer times 2^e. -/
def roundInt (f : FloatFmt) (rm : BitVec 2) (sat : Bool) (z : Int) (e : Int) : FRes :=
  roundVal f rm sat (decide (z < 0)) z.natAbs e false

/-- An exact zero formed as a sum (R142): the common sign, or +0 except under RDN. -/
def zeroSum (f : FloatFmt) (rm : BitVec 2) (n1 n2 : Bool) : FRes :=
  let neg := if n1 = n2 then n1 else rm = 2#2
  { bits := f.withSign neg 0, flags := 0#5, nan := false, inf := false }

/-- a·b + c rounded once, with NaNs chosen in the order of `args` (R139 to R143, R150, R151). -/
def fmaRes (f : FloatFmt) (rm : BitVec 2) (sat : Bool) (args : List FVal) (a b c : FVal) : FRes :=
  let bad := (a.isZero && b.isInf) || (a.isInf && b.isZero)
  match firstNan f bad args with
  | some r => r
  | none =>
    if bad then FRes.invalid f else
    let ps := a.neg? != b.neg?
    if a.isInf || b.isInf then
      if c.isInf && c.neg? != ps then FRes.invalid f else FRes.infOf f ps false
    else match a, b, c with
      | _, _, .inf n => FRes.infOf f n false
      | .fin _ ma ea, .fin _ mb eb, .fin nc mc ec =>
        let ep := ea + eb
        let e := min ep ec
        let p := signedInt ps (ma * mb * 2 ^ (ep - e).toNat)
        let q := signedInt nc (mc * 2 ^ (ec - e).toNat)
        if p + q = 0 then zeroSum f rm ps nc else roundInt f rm sat (p + q) e
      | _, _, _ => FRes.invalid f

/-- The value 1. -/
def FVal.one : FVal := .fin false 1 0

/-- a + b (R166, R183). -/
def addRes (f : FloatFmt) (rm : BitVec 2) (sat : Bool) (a b : FVal) : FRes := fmaRes f rm sat [a, b] a .one b

/-- a − b: a NaN b keeps its own sign (R166). -/
def subRes (f : FloatFmt) (rm : BitVec 2) (sat : Bool) (a b : FVal) : FRes := fmaRes f rm sat [a, b] a .one b.flip

/-- a · b. -/
def mulRes (f : FloatFmt) (rm : BitVec 2) (sat : Bool) (a b : FVal) : FRes :=
  let bad := (a.isZero && b.isInf) || (a.isInf && b.isZero)
  match firstNan f bad [a, b] with
  | some r => r
  | none =>
    if bad then FRes.invalid f else
    let ps := a.neg? != b.neg?
    match a, b with
    | .fin _ ma ea, .fin _ mb eb => roundVal f rm sat ps (ma * mb) (ea + eb) false
    | _, _ => FRes.infOf f ps false

/-- a / b (R173). The quotient carries at least 64 bits and a sticky rest. -/
def divRes (f : FloatFmt) (rm : BitVec 2) (a b : FVal) : FRes :=
  match firstNan f false [a, b] with
  | some r => r
  | none =>
    let ns := a.neg? != b.neg?
    match a, b with
    | .inf _, .inf _ => FRes.invalid f
    | .inf _, _ => FRes.infOf f ns false
    | _, .inf _ => { bits := f.withSign ns 0, flags := 0#5, nan := false, inf := false }
    | .fin _ ma ea, .fin _ mb eb =>
      if mb = 0 then
        if ma = 0 then FRes.invalid f else { FRes.infOf f ns false with flags := flDZ }
      else
        let k := 64 + Nat.log2 mb + 1
        let num := ma * 2 ^ k
        roundVal f rm false ns (num / mb) (ea - eb - k) (num % mb != 0)
    | _, _ => FRes.invalid f

/-- A value widened or narrowed to a format (R143, R144). -/
def cvtRes (f : FloatFmt) (rm : BitVec 2) (sat : Bool) (a : FVal) : FRes :=
  match a with
  | .nan n fr =>
    if f.kind = .finite then { bits := 0, flags := flNV, nan := false, inf := false }
    else FRes.nanOf f n fr (if a.signalling then flNV else 0#5)
  | .inf n => FRes.infOf f n sat
  | .fin n m e => roundVal f rm sat n m e false

/-! ## To and from integers (R145, R146, R172) -/

/-- Round ±m·2^e to an integer magnitude by a mode, with whether it is inexact. -/
def roundToInt (rm : BitVec 2) (neg : Bool) (m : Nat) (e : Int) : Nat × Bool :=
  if 0 ≤ e then (m * 2 ^ e.toNat, false)
  else
    let k := (-e).toNat
    let n := m / 2 ^ k
    let rem := m % 2 ^ k
    let half : Ordering := if 2 * rem < 2 ^ k then .lt else if 2 * rem = 2 ^ k then .eq else .gt
    if rem = 0 then (n, false) else (if roundsUp rm neg (n % 2 == 1) half then n + 1 else n, true)

/-- What a conversion to an integer delivers: the value, the flags, and whether the input was NaN or clamped and whether
the result differs from the input (R145, R177). -/
structure IntRes where
  val : Int
  flags : Flags
  clamped : Bool
  differs : Bool
  deriving DecidableEq, Repr

/-- A float to an integer in [lo, hi] (R145). -/
def toIntRes (lo hi : Int) (rm : BitVec 2) (sat : Bool) (a : FVal) : IntRes :=
  match a with
  | .nan _ _ => ⟨0, flNV, true, true⟩
  | .inf n => ⟨if n then lo else hi, if sat then 0#5 else flNV, true, true⟩
  | .fin n m e =>
    let r := roundToInt rm n m e
    let z := signedInt n r.1
    if z < lo then ⟨lo, if sat then flNX else flNV, true, true⟩
    else if z > hi then ⟨hi, if sat then flNX else flNV, true, true⟩
    else ⟨z, if r.2 then flNX else 0#5, false, r.2⟩

/-- An integer to a float (R146). -/
def fromInt (f : FloatFmt) (rm : BitVec 2) (sat : Bool) (z : Int) : FRes := roundInt f rm sat z 0

/-- An f32 rounded to an integral f32 (R172). -/
def rndRes (rm : BitVec 2) (a : FVal) : FRes :=
  match a with
  | .nan _ _ => cvtRes fmtF32 rm false a
  | .inf n => FRes.infOf fmtF32 n false
  | .fin n m e =>
    let r := roundToInt rm n m e
    let x := roundVal fmtF32 0#2 false n r.1 0 false
    { x with flags := if r.2 then flNX else 0#5 }

/-! ## Order (R167, R169, R184) -/

/-- Compare two finite or infinite values, zeros equal. -/
def FVal.cmp (a b : FVal) : Ordering :=
  let key (x : FVal) : Int := match x with
    | .nan _ _ => 0
    | .inf n => if n then -2 else 2
    | .fin n m _ => if m = 0 then 0 else if n then -1 else 1
  match a, b with
  | .fin na ma ea, .fin nb mb eb =>
    let e := min ea eb
    compare (signedInt na (ma * 2 ^ (ea - e).toNat)) (signedInt nb (mb * 2 ^ (eb - e).toNat))
  | _, _ => compare (key a) (key b)

/-- The order with −0 below +0 (R167). -/
def FVal.below (a b : FVal) : Bool :=
  match a.cmp b with
  | .lt => true
  | .gt => false
  | .eq => a.neg? && !b.neg?

/-- `FMIN` and `FMAX` on encodings (R167); the number's own bits are delivered. -/
def minMaxRes (f : FloatFmt) (max : Bool) (x y : Nat) : FRes :=
  let a := FVal.decode f x
  let b := FVal.decode f y
  let fl := if a.signalling || b.signalling then flNV else 0#5
  let pass (bits : Nat) : FRes := { bits := bits % 2 ^ (f.magBits + 1), flags := fl, nan := false, inf := false }
  match a.isNan, b.isNan with
  | true, true => match firstNan f false [a, b] with
    | some r => { r with flags := fl }
    | none => FRes.invalid f
  | true, false => pass y
  | false, true => pass x
  | false, false => if (if max then b.below a else a.below b) then pass x else pass y

/-! ## Special functions (R174, R175) -/

/-- Fraction bits of the fixed-point work (log 8). -/
def fxBits : Nat := 400
def fxOne : Nat := 2 ^ 400
/-- ln 2, rounded down to 400 fraction bits. -/
def fxLn2 : Nat := 0xb17217f7d1cf79abc9e3b39803f2f6af40f343267298b62d8a0d175b8baafa2be7b876206debac98559552fb4afa1b10ed2e
/-- π/2, rounded down to 400 fraction bits. -/
def fxHalfPi : Nat := 0x1921fb54442d18469898cc51701b839a252049c1114cf98e804177d4c76273644a29410f31c6809bbdf2a33679a7486366056

/-- Σ t^n/n! by terms, t in fixed point. -/
def fxExpLoop (t : Nat) : Nat → Nat → Nat → Nat
  | 0, _, _ => 0
  | fuel + 1, n, term => term + fxExpLoop t fuel (n + 1) (term * t / fxOne / (n + 1))

/-- e^t for t in [0, 1). -/
def fxExp (t : Nat) : Nat := fxExpLoop t 90 0 fxOne

/-- Alternating series: Σ (−1)^k t^(2k+s)/(2k+s)!, as sums of its even and odd terms. -/
def fxTrigLoop (t2 : Nat) : Nat → Nat → Nat → Int
  | 0, _, _ => 0
  | fuel + 1, n, term => Int.ofNat term - fxTrigLoop t2 fuel (n + 2) (term * t2 / fxOne / ((n + 1) * (n + 2)))

/-- sin t for t in [0, π/2]. -/
def fxSin (t : Nat) : Nat := (fxTrigLoop (t * t / fxOne) 60 1 t).toNat
/-- cos t for t in [0, π/2]. -/
def fxCos (t : Nat) : Nat := (fxTrigLoop (t * t / fxOne) 60 0 fxOne).toNat

/-- Σ z^(2k+1)/(2k+1). -/
def fxAtanhLoop (z2 : Nat) : Nat → Nat → Nat → Nat
  | 0, _, _ => 0
  | fuel + 1, n, pow => pow / n + fxAtanhLoop z2 fuel (n + 2) (pow * z2 / fxOne)

/-- ln y for y in [1, 2). -/
def fxLn (y : Nat) : Nat :=
  let z := (y - fxOne) * fxOne / (y + fxOne)
  2 * fxAtanhLoop (z * z / fxOne) 130 1 z

/-- e^(−y) for y ≥ 0: a fixed-point mantissa in [1, 2] and the power of two to multiply it by. -/
def fxExpNeg (y : Nat) : Nat × Int :=
  let k := y / fxLn2
  (fxExp ((k + 1) * fxLn2 - y), -Int.ofNat (k + 1))

/-- m·2^e as a fixed-point number, for e ≥ −400. -/
def toFx (m : Nat) (e : Int) : Nat := m * 2 ^ (e + 400).toNat

/-- The integer square root, bit by bit: `fuel` bits, `r` the root so far. -/
def isqrtLoop (n : Nat) : Nat → Nat → Nat
  | 0, r => r
  | b + 1, r => let t := r + 2 ^ b
    if t * t ≤ n then isqrtLoop n b t else isqrtLoop n b r

def isqrt (n : Nat) : Nat := isqrtLoop n (Nat.log2 n / 2 + 1) 0

/-- A positive transcendental result m·2^e with a rest, rounded to nearest. -/
def sfuRound (neg : Bool) (m : Nat) (e : Int) : FRes := roundVal fmtF32 0#2 false neg m e true

/-- Exactly representable results. -/
def sfuExact (neg : Bool) (m : Nat) (e : Int) : FRes := roundVal fmtF32 0#2 false neg m e false

/-- `FSQRT` (R174, R175). -/
def sqrtRes (rm : BitVec 2) (a : FVal) : FRes :=
  match a with
  | .nan _ _ => cvtRes fmtF32 rm false a
  | .inf n => if n then FRes.invalid fmtF32 else FRes.infOf fmtF32 false false
  | .fin n m e =>
    if m = 0 then { bits := fmtF32.withSign n 0, flags := 0#5, nan := false, inf := false }
    else if n then FRes.invalid fmtF32
    else
      let odd := (e % 2).toNat
      let w := m * 2 ^ (128 + odd)
      let r := isqrt w
      roundVal fmtF32 rm false false r ((e - odd) / 2 - 64) (r * r != w)

/-- `FRCP` (R174, R175). -/
def rcpRes (rm : BitVec 2) (a : FVal) : FRes := divRes fmtF32 rm .one a

/-- `FRSQ` (R174, R175). -/
def rsqRes (rm : BitVec 2) (a : FVal) : FRes :=
  match a with
  | .nan _ _ => cvtRes fmtF32 rm false a
  | .inf n => if n then FRes.invalid fmtF32 else { bits := 0, flags := 0#5, nan := false, inf := false }
  | .fin n m e =>
    if m = 0 then { FRes.infOf fmtF32 n false with flags := flDZ }
    else if n then FRes.invalid fmtF32
    else
      let odd := (e % 2).toNat
      let w := m * 2 ^ odd
      let num := 2 ^ 200
      let q := num / w
      let r := isqrt q
      roundVal fmtF32 rm false false r (-((e - odd) / 2) - 100) (r * r != q || num % w != 0)

/-- `FEXP2` (R174, R175). -/
def exp2Res (a : FVal) : FRes :=
  match a with
  | .nan _ _ => cvtRes fmtF32 0#2 false a
  | .inf n => if n then { bits := 0, flags := 0#5, nan := false, inf := false } else FRes.infOf fmtF32 false false
  | .fin n m e =>
    let r := roundToInt 2#2 n m e
    let k := signedInt n r.1
    if k ≥ 128 then sfuExact false 1 200
    else if k < -400 then sfuRound false 1 (-300)
    else if !r.2 then sfuExact false 1 k
    else
      let x := signedInt n (toFx m e)
      let f := (x - k * Int.ofNat fxOne).toNat
      sfuRound false (fxExp (f * fxLn2 / fxOne)) (k - 400)

/-- `FLOG2` (R174, R175). -/
def log2Res (a : FVal) : FRes :=
  match a with
  | .nan _ _ => cvtRes fmtF32 0#2 false a
  | .inf n => if n then FRes.invalid fmtF32 else FRes.infOf fmtF32 false false
  | .fin n m e =>
    if m = 0 then { FRes.infOf fmtF32 true false with flags := flDZ }
    else if n then FRes.invalid fmtF32
    else
      let lg := Nat.log2 m
      let k : Int := lg + e
      if m = 2 ^ lg then
        if k = 0 then { bits := 0, flags := 0#5, nan := false, inf := false }
        else sfuExact (decide (k < 0)) k.natAbs 0
      else
        let y := m * 2 ^ (400 - lg)
        let v : Int := k * Int.ofNat fxOne + Int.ofNat (fxLn y * fxOne / fxLn2)
        sfuRound (decide (v < 0)) v.natAbs (-400)

/-- Whether |m·2^e| is below 2^−100, where sin x and tanh x round as a value just below x. -/
def fTiny (m : Nat) (e : Int) : Bool := decide (Int.ofNat (Nat.log2 m) + e < -100)

/-- A value just below ±m·2^e. -/
def sfuJustBelow (neg : Bool) (m : Nat) (e : Int) : FRes := sfuRound neg (m * 2 ^ 60 - 1) (e - 60)

/-- The quarter and the rest of a nonnegative fixed-point argument by π/2. -/
def fxQuarter (x : Nat) : Nat × Nat := (x / fxHalfPi % 4, x % fxHalfPi)

/-- `FSIN` (R174, R175). -/
def sinRes (a : FVal) : FRes :=
  match a with
  | .nan _ _ => cvtRes fmtF32 0#2 false a
  | .inf _ => FRes.invalid fmtF32
  | .fin n m e =>
    if m = 0 then { bits := fmtF32.withSign n 0, flags := 0#5, nan := false, inf := false }
    else if fTiny m e then sfuJustBelow n m e
    else
      let q := fxQuarter (toFx m e)
      let v := if q.1 % 2 = 0 then fxSin q.2 else fxCos q.2
      sfuRound (n != decide (2 ≤ q.1)) v (-400)

/-- `FCOS` (R174, R175). -/
def cosRes (a : FVal) : FRes :=
  match a with
  | .nan _ _ => cvtRes fmtF32 0#2 false a
  | .inf _ => FRes.invalid fmtF32
  | .fin _ m e =>
    if m = 0 then sfuExact false 1 0
    else if fTiny m e then sfuJustBelow false 1 0
    else
      let q := fxQuarter (toFx m e)
      let v := if q.1 % 2 = 0 then fxCos q.2 else fxSin q.2
      sfuRound (q.1 == 1 || q.1 == 2) v (-400)

/-- `FTANH` (R174, R175). -/
def tanhRes (a : FVal) : FRes :=
  match a with
  | .nan _ _ => cvtRes fmtF32 0#2 false a
  | .inf n => sfuExact n 1 0
  | .fin n m e =>
    if m = 0 then { bits := fmtF32.withSign n 0, flags := 0#5, nan := false, inf := false }
    else if fTiny m e then sfuJustBelow n m e
    else if Int.ofNat (Nat.log2 m) + e ≥ 4 then sfuJustBelow n 1 0
    else
      let p := fxExpNeg (2 * toFx m e)
      let u := p.1 / 2 ^ (-p.2).toNat
      sfuRound n ((fxOne - u) * fxOne / (fxOne + u)) (-400)

/-- `FSIGM` (R174, R175). -/
def sigmRes (a : FVal) : FRes :=
  match a with
  | .nan _ _ => cvtRes fmtF32 0#2 false a
  | .inf n => if n then { bits := 0, flags := 0#5, nan := false, inf := false } else sfuExact false 1 0
  | .fin n m e =>
    if m = 0 then sfuExact false 1 (-1)
    else if Int.ofNat (Nat.log2 m) + e ≥ 7 then
      if n then sfuRound false 1 (-300) else sfuJustBelow false 1 0
    else
      let p := fxExpNeg (toFx m e)
      let u := p.1 / 2 ^ (-p.2).toNat
      if n then sfuRound false (u * fxOne / (fxOne + u)) (-400)
      else sfuRound false (fxOne * fxOne / (fxOne + u)) (-400)

/-! ## Shorthands on f32 words -/

/-- An f32 lane's value. -/
def f32 (w : Word) : FVal := FVal.decode fmtF32 w.toNat

/-- An e8m0 scale byte (R133). -/
def e8m0 (b : Byte) : FVal := if b = 0xFF#8 then .defaultNan else .fin false 1 (Int.ofNat b.toNat - 127)

/-- A value times a scale, exactly (R151). A NaN stays, for R143 chooses among the arguments. -/
def FVal.scaleBy (x s : FVal) : FVal :=
  match x, s with
  | .fin n m e, .fin _ _ k => .fin n m (e + k)
  | .nan n fr, _ => .nan n fr
  | .inf n, .fin _ _ _ => .inf n
  | _, s => s

end Sys2Proof.Machine
end

