-- ==== Sys2Proof/Config.lean ====
section
/-! DEFINITION. What an implementation fixes and the spec leaves open (R6, R7): constants without a
body, so that no proof can see a value, and the fixed sizes and defaults the spec does give.
Every opaque constant is named in the assumption log.
-/

namespace Sys2Proof.Config

/-- The guard band G in ns (R267). -/
def guardNs : Nat := 2000

/-- The lease of a frozen replica in ns (R274). -/
def replicaLeaseNs : Nat := 1000000

/-- The default value of LEASE: slice lease 20,000 ns in bits 51:32, L1 lease 2,000 ns in bits 19:0 (R268). -/
def leaseDefault : DWord := 0x00004E20000007D0#64

/-- Bytes of one frozen store (R257, R275). -/
def frozenStoreBytes : Nat := 262144

/-- Entries of a core's reuse table (R69). -/
def reuseEntries : Nat := 2048

/-- Copies a core has in flight (R303). -/
def copiesPerCore : Nat := 1024

/-- FREE VALUE (log 2). The stream of choices the spec leaves to the device: each use is applied to the
state's own counter. -/
opaque choice : Nat → Nat

/-- FREE VALUE (log 30). The implementation-defined content-name hash of a register's 1,024 bits (R66). -/
opaque nameHash : Lanes Word → Nat

/-- FREE VALUE (log 31). The implementation-defined `HALL` hash of a line over the 256 canopy slices (R258). -/
opaque hallSlice : Nat → Fin 256

/-- FREE VALUE (log 31). The implementation-defined hash of a line over the 64 slices of a die, for its die copies (R258). -/
opaque dieSlice : Nat → Fin 64

/-- FREE VALUE (logs 3, 32). A byte of memory whose content the spec leaves open, by its number: a trap frame's split block
(R200), a leap slot's observation state (R390), a raced byte (R322). -/
opaque freeByte : Nat → Byte

/-- FREE VALUE (log 33). The public keys whose identifiers the fuses hold as trusted, at most 8 (R112, R421): points of P-521. -/
opaque moduleKey : Nat → Option (Nat × Nat)

/-- FREE VALUE (log 33). The device's signature over an attestation report's first 152 bytes (R422). -/
opaque attestSign : List Byte → Nat × Nat

/-- FREE VALUE (log 33). The device certificate (R421, R423). -/
opaque certificate : Unit → List Byte

/-- FREE VALUE (log 33). The ROM's bytes, whose SHA-512 the report states (R422). -/
opaque romBytes : Unit → List Byte

/-- FREE VALUE (log 33). The ROM version (R422, R423). -/
opaque romVersion : Unit → BitVec 32

/-- FREE VALUE (log 33). The 22-bit device identifier the configuration straps set (R427). -/
opaque deviceId : Unit → BitVec 22

/-- FREE VALUE (log 35). Whether the canopy slice of the core itself served a line from its SRAM (true) or LPDDR6 did (false)
(R396); the canopy's contents show only in timing (R259). -/
opaque canopyHit : Nat → Bool

end Sys2Proof.Config
end

