-- ==== Sys2Proof/Machine/State.lean ====
section
/-! DEFINITION. The state of the package: every piece of state the spec names, as plain data, the reasons a
step can stop, and the state after reset (R427, R424). INVENTORY.md lists each field with its rule.
Keyed tables (memory, scratchpads, region tables, …) are lists of key and value pairs, keys rising.
-/

namespace Sys2Proof.Machine

/-- Why a step stops. Safe: the machine itself never meets it, since an instruction word always issues from a fragment. -/
inductive Fault where
  /-- Raised by the meaning of an instruction word when no live fragment is issuing (a state with no place for
  the instruction to act; `step` never runs one so). Safe. -/
  | noFragment
  deriving DecidableEq, Repr

/-- Why an instruction has no meaning. -/
inductive Refusal where
  /-- Raised by a refused arm of `exec` only: the instruction has no meaning yet. Safe. -/
  | notModelled (mnemonic : String)
  deriving DecidableEq, Repr

/-! ## A group's registers -/

/-- A content name: the zero name, or the name of a resident register (R66). Names of one context are equal just when
contents and serials are (R67, R68), so a name is written with its content in place of the hash of it. -/
inductive RName where
  | zero
  | named (content : Lanes Word) (serial : Nat)
  deriving DecidableEq, Repr

/-- What a load's reuse entry is keyed on besides its operands (R69): the generations of covering freeze entries and,
when an ordinary byte is read, the group and its epoch. -/
structure MemKey where
  gens : List (Nat × Nat)
  epoch : Option (Nat × Nat)
  /-- The model's own, no part of the key: the bytes of memory, or with `pad` of the scratchpad, that the load of an entry of one group
  has read (R321; log 53). -/
  read : List (Nat × Byte)
  pad : Bool
  deriving DecidableEq, Repr

/-- The key of a reuse entry (R69). -/
structure ReuseKey where
  instr : Instr
  ctx : Nat
  sources : List RName
  uniform : List Word
  active : LaneMask
  part : Word
  rm : BitVec 2
  en : BitVec 4
  old : List RName
  mem : Option MemKey
  deriving DecidableEq, Repr

/-- The four roles in the order `ROLE` reads (R20). -/
inductive Role where
  | copy | matrix | vector | combined
  deriving DecidableEq, Repr

/-- A mapped vector register: its 1,024 bits, the poisoned lane words (R218), and the serial of its content
name when it is entered in the name index (R66). The hash of the name is `Config.nameHash lanes`. -/
structure VReg where
  lanes : Lanes Word
  poison : LaneMask
  serial : Option Nat
  deriving DecidableEq, Repr

/-- The lane condition codes, one mask for each of C, Z, N and V (R45). -/
structure LaneCC where
  c : LaneMask
  z : LaneMask
  n : LaneMask
  v : LaneMask
  deriving DecidableEq, Repr

/-- The scalar condition codes (R45). -/
structure ScalarCC where
  c : Bool
  z : Bool
  n : Bool
  v : Bool
  e : Bool
  deriving DecidableEq, Repr

/-- A window register: base and length (R58). -/
structure Window where
  base : BitVec 6
  len : BitVec 7
  deriving DecidableEq, Repr

/-- The uniform state of a group, of which each fragment has a view (R28). `k` holds `k0` in entry 0, which no read consults (R46). -/
structure View where
  s : Vector Word 64
  k : Vector Word 8
  w : Vector Window 4
  scc : ScalarCC
  rm : BitVec 2
  en : BitVec 4
  part : Word
  deriving DecidableEq, Repr

/-- The written set of a fragment: one bit for each element of the uniform state (R28). -/
structure Written where
  s : BitVec 64
  k : BitVec 8
  w : BitVec 4
  scc : Bool
  fp : Bool
  part : Bool
  deriving DecidableEq, Repr

/-- The result for one vector register of an instruction under lookahead (R94, R95). -/
structure PendReg where
  reg : Reg
  lanes : Lanes Word
  mask : LaneMask
  poison : LaneMask
  /-- The register is a trap register of the running handler, which is never charged (R63). -/
  trap : Bool
  arrived : Bool
  /-- A younger write or a `KILL` discards the result (R55, R95). -/
  dropped : Bool
  /-- The result, once discarded, has a charge of its own until it arrives (R50, R95). -/
  charged : Bool
  deriving DecidableEq, Repr

/-! ## Places of accesses -/

/-- A leaf: the fields of its entry (R213), the page size, and where its page stands. -/
structure Leaf where
  base : Nat
  size : Nat
  rp : Bool
  wp : Bool
  xp : Bool
  fw : Bool
  ca : Bool
  rad : Bool
  bh : Bool
  bt : Bool
  sm : BitVec 2
  ps : BitVec 8
  deriving DecidableEq, Repr

/-- Where an access lands: the physical byte and the leaf. -/
structure Place where
  pa : Nat
  leaf : Leaf
  deriving DecidableEq, Repr

/-- An access of an instruction that has passed its checks and is not yet performed: its address and length, and the place
that it goes to (R216). -/
structure Passed where
  va : DWord
  bytes : Nat
  place : Place
  deriving DecidableEq, Repr

/-! ## Fragments -/

/-- The results of one instruction whose window is open: how many instructions of the fragment may still issue, and what it writes. -/
structure Pending where
  left : Nat
  regs : List PendReg
  uni : List (Reg × Word)
  /-- The lanes whose Z `LDFF` writes, and their values. -/
  zMask : LaneMask
  zVal : LaneMask
  /-- The key of the reuse entry that the results make when they are written, and the flags raised, which it holds (R70). -/
  key : Option ReuseKey
  flags : BitVec 5
  deriving DecidableEq, Repr

/-- What a fragment waits for (R24, R370). -/
inductive Wait where
  /-- At `REGANG` (R30). -/
  | regang
  /-- At `BAR` (R297). -/
  | bar
  /-- In the engine queue, or held at `MOWN` (R339). -/
  | owner (held : Bool)
  /-- In `FRZ`, until the freeze point of this entry (R298). -/
  | freeze (entry : Nat)
  /-- In `PUBLISH` of this buffer; `begun` once the publishing flag is its own (R310). -/
  | publish (buffer : Nat) (scope : Scope) (begun : Bool)
  /-- In `ACQR`, until every promotion request of this number is answered (R295). -/
  | promote (n : Nat)
  /-- The instruction at the PC issues again when it can: `WAITB`, with its batch number. -/
  | batch (n : Word)
  /-- The instruction at the PC issues again when it can: `SWAIT`, with its stage word's address and its phase. -/
  | stage (addr : Nat) (ph : Bool)
  /-- The instruction at the PC issues again when it can, fetch suspended: a release, a full copy queue, `FRZ` or `FWAIT` on a
  thaw (R370). -/
  | suspended
  /-- The same: its write waits on thawing entries, each by context, index and generation (R277, R300). -/
  | thaw (entries : List (Nat × Nat × Nat))
  /-- The same: a `RELS` that has made its checks for this address and performs its release work (R296). -/
  | rels (addr : DWord)
  /-- The instruction at the PC issues again when it can: it met a page in a bias transition, at these addresses (R214, R41). -/
  | bias (addrs : List Nat)
  /-- The instruction at the PC issues again when a result has arrived (R51). -/
  | result
  deriving DecidableEq, Repr

/-- The state of a live fragment (R24). -/
inductive Status where
  | ready
  | waiting (w : Wait)
  | exited
  deriving DecidableEq, Repr

/-- Whether a fragment stands at an instruction that trapped while another fragment's handler ran (R34): it waits for that
handler's end, or is due to be released in its turn. -/
inductive Hold where
  | no | stopped | due
  deriving DecidableEq, Repr

/-- A fragment: an entry of the split table (R24, R28). -/
structure Frag where
  slices : BitVec 8
  pc : DWord
  status : Status
  view : View
  written : Written
  pending : List Pending
  held : Hold
  /-- Halted by the host (R206). -/
  halted : Bool
  /-- The step an `MLOOP` that is issued again starts from (R353); one more than its entry for an `FRZ` that has reached its freeze
  point (R298). -/
  resume : Nat
  /-- Issue opportunities since the fragment became ready (R39, R368). -/
  waited : Nat
  /-- The fragment is overdue (R368): the number of its core's issue with which it became so. -/
  overdue : Option Nat
  /-- The instruction at the PC has issued, and its meaning is run again when what it waits for is there. -/
  issued : Option Instr
  /-- Accesses of that instruction that have passed their checks: their places stand (R216, R277, R296; log 49). -/
  passed : List Passed
  /-- The model's own: lanes whose part of the atomic instruction at the PC has been performed ahead of the others, each with
  the word it found and whether that was poisoned (R253, R292; log 49). -/
  ahead : List (Fin 32 × Word × Bool)
  /-- The instruction it issued last may fault, so that its fetch may still be suspended behind it (R39, R194). -/
  behind : Bool
  /-- The result of an instruction whose window is over may not be available yet, so that the next one is held back (R39, R94, R154). -/
  late : Bool
  deriving DecidableEq, Repr

/-- What the core saves when a fragment enters the handler (R201, R204). -/
structure Handler where
  frag : Fin 8
  pc : DWord
  prefixed : Bool
  rm : BitVec 2
  en : BitVec 4
  step : Nat
  cause : Byte
  deriving DecidableEq, Repr

/-- A group in a group slot (R45). `uid` is the model's own number, rising in the order of residence. -/
structure Group where
  uid : Nat
  ctx : Nat
  launch : Nat
  /-- The team's uid; none for a leap-program group (R23). -/
  team : Option Nat
  grpid : Nat
  role : Role
  budget : Nat
  prio : Nat
  frags : Vector (Option Frag) 8
  v : Vector (Option VReg) 64
  x : Vector (Lanes Byte) 8
  cc : LaneCC
  hv : Vector VReg 8
  hs : Vector Word 8
  /-- The sticky flags NX, UF, OF, DZ, NV in bits 4:0, as `FPC` bits 12:8 (R29, R137). -/
  sticky : BitVec 5
  /-- The scratchpad fault mask: lanes removed from the group (R260). -/
  removed : LaneMask
  /-- The pending-kill set (R56). -/
  killSet : BitVec 64
  handler : Option Handler
  /-- The fragment whose held instruction is being issued again (R34). -/
  reissue : Option (Fin 8)
  /-- The reuse epoch number (R73). -/
  epoch : Nat
  /-- The number that the open batch gets when it is closed (R304). -/
  batch : Word
  /-- The last value an `SRD` of `TIME` returned to the group (R211). -/
  timeFloor : Nat
  deriving DecidableEq, Repr

/-! ## The core -/

/-- A reuse entry (R70): its key, the names and contents of its results, the lane condition codes when C is 1, and the FP
flags that the execution raised. -/
structure ReuseEntry where
  key : ReuseKey
  results : List (RName × Lanes Word)
  cc : Option LaneCC
  flags : BitVec 5
  deriving DecidableEq, Repr

/-- The model's own: what a group has read last, in a reuse epoch, of the bytes of memory and of the scratchpad by its loads (R321; log 53). -/
structure LastRead where
  group : Nat
  epoch : Nat
  mem : List (Nat × Byte)
  pad : List (Nat × Byte)
  deriving DecidableEq, Repr

/-- One byte that an L1 holds (R264): clean, with a lease expiry where it is leased (R268), or dirty. -/
inductive CacheByte where
  | clean (val : Byte) (expiry : Option Nat)
  | dirty (val : Byte)
  deriving DecidableEq, Repr

/-- A shape slot: its 32-byte record or empty, and its status word (R336, R352). -/
structure ShapeSlot where
  record : Option (Vector Byte 32)
  status : Word
  deriving DecidableEq, Repr

/-- An `MLOOP` whose steps are queued (R349 to R351): the record and the registers as they stood at issue. -/
structure LoopRun where
  slot : BitVec 3
  record : Vector Byte 32
  team : Nat
  group : Nat
  /-- idx(i) for each row i < M (R348). -/
  rows : List Nat
  /-- The scale registers v(VS+SEL), …, one for each K-block (R349). -/
  scales : List (Lanes Word)
  next : Nat
  /-- One past the last step to perform. -/
  stop : Nat
  deriving DecidableEq, Repr

/-- The matrix engine (R336). An accumulator tile lists its elements that are not +0, by 128·row + column. -/
structure Engine where
  owner : Option Nat
  /-- The team of the last owner, for the hand-over of R343. -/
  ownerTeam : Option Nat
  queue : List Nat
  /-- Groups held at `MOWN` by a full queue, in issue order (R339). -/
  held : List Nat
  shapes : Vector ShapeSlot 8
  index : Option Reg
  acc : Vector (List (Nat × Word)) 4
  accPoison : Vector (List Nat) 4
  runs : List LoopRun
  deriving DecidableEq, Repr

/-- The core-store split, in granules (R257). -/
structure Split where
  regs : Nat
  scratch : Nat
  l1 : Nat
  deriving DecidableEq, Repr

/-- An observed access (R396). -/
structure Observed where
  launch : Nat
  pc : DWord
  addr : DWord
  bytes : Nat
  team : Nat
  grp : Nat
  lane : Nat
  deriving DecidableEq, Repr

/-- A run-ahead request waiting to be fetched (R409 to R411): a line for the bytes [lo, hi), or an element of `RAFG` by its index word. -/
inductive FetchReq where
  | line (lo hi : Nat)
  | element (index base : DWord) (size : Nat)
  deriving DecidableEq, Repr

/-- A fetch of one group (R406). -/
structure Fetch where
  n : Nat
  group : Nat
  ctx : Nat
  launch : Nat
  /-- A leap-program group issued it. -/
  leap : Bool
  /-- The pair that anchors the image's window, as the issuing fragment held it (R406). -/
  anchor : DWord
  req : FetchReq
  deriving DecidableEq, Repr

/-- The last issue of a quarter, whose clock may not be over on the other pipe (R38, R368). -/
structure Paired where
  uniform : Bool
  /-- The group that issued, and since when its fragment was overdue. -/
  group : Nat
  overdue : Option Nat
  /-- The other pipe's pick, in whose favour one of this pipe was displaced: it issues next. -/
  owed : Option FragRef
  deriving DecidableEq, Repr

/-- A core (R12 to R15, R257, R336). -/
structure Core where
  fenced : Bool
  split : Option Split
  /-- Draining for this launch, with the launch's split, which it adopts (R367). -/
  draining : Option (Nat × Split)
  slots : Vector (Option Group) 64
  /-- The bytes L1 holds, by physical address (R257, R264). -/
  l1 : List (Nat × CacheByte)
  /-- The freeze entries, as (context, index), preloaded in the frozen store (R275). -/
  frozen : List (Nat × Nat)
  reuse : List ReuseEntry
  seen : List LastRead
  rhit : DWord
  rmiss : DWord
  rcoll : DWord
  engine : Engine
  observed : List Observed
  /-- Words that loads of observed launches returned: (launch, address, word) (R397). -/
  loaded : List (Nat × DWord × Word)
  /-- The observer passed its limits in these launches (R396). -/
  unobservable : List Nat
  fetches : List Fetch
  /-- Lines that hold byte budget: (launch, line) (R404). -/
  budgeted : List (Nat × Nat)
  /-- Lines that a leap fetch of the launch filled: (launch, line) (R396). -/
  filled : List (Nat × Nat)
  /-- In sync, and the agent's view of global time less the reference, in ns (R267). -/
  inSync : Bool
  skew : Int
  /-- The model's own: slice copies filled before this number are older than the core's last acquire, and not read (R325). -/
  bar : Nat
  /-- The fragment that issued last on each quarter's lane pipe and uniform pipe: its group's uid and its entry (R368). -/
  lastLane : Vector (Option (Nat × Fin 8)) 4
  lastUniform : Vector (Option (Nat × Fin 8)) 4
  /-- Each quarter's last issue, while its clock may go on (R368). -/
  paired : Vector (Option Paired) 4
  /-- The model's own: how many issues of the core have been counted (R368). -/
  issues : Nat
  deriving DecidableEq, Repr

/-! ## Contexts, modules and launches -/

/-- A freeze entry's state (R271). `installing` is an active entry before its freeze point. -/
inductive FreezeState where
  | free | installing | active | thawing
  deriving DecidableEq, Repr

/-- A freeze entry (R271) with the physical 4 KiB blocks it covers since its freeze point. -/
structure FreezeEntry where
  state : FreezeState
  base : Nat
  length : Nat
  count : Nat
  gen : Word
  sys : Bool
  pin : Bool
  /-- The physical base of each 4 KiB unit of the range. -/
  blocks : List Nat
  /-- Agents that hold replicas, with their latest expiry: (device or core number, expiry) (R274, R276). -/
  holders : List (Nat × Nat)
  deriving DecidableEq, Repr

/-- A publish buffer (R309). -/
structure PublishBuffer where
  base : Nat
  size : Nat
  live : Nat
  shadow : Nat
  version : Word
  publishing : Bool
  pending : Nat
  /-- The publish that holds the flag has made its release, and no slice grants anything on the live backing's lines (R310). -/
  stopped : Bool
  deriving DecidableEq, Repr

/-- A journal entry's state (R418). -/
inductive JState where
  | accepted | running | done | failed | resetDiscarded
  deriving DecidableEq, Repr

/-- A journal entry (R418). -/
structure JEntry where
  seq : Nat
  queue : Nat
  code : Nat
  state : JState
  reason : Nat
  digest : Nat
  hseq : Nat
  timeAccepted : Nat
  detail : Nat
  timeEnded : Nat
  /-- Its place in the ring (R419). -/
  slot : Nat
  deriving DecidableEq, Repr

/-- A journal: its capacity, its entries oldest first, and the next sequence number (R418, R419). -/
structure Journal where
  capacity : Nat
  next : Nat
  entries : List JEntry
  deriving DecidableEq, Repr

/-- A pattern of the observer (R397), anchored on argument j. -/
inductive PatForm where
  | affine (c0 cT cG cL : Int)
  | indirect (k : Nat) (c0 d0 : Int) (e : Nat) (cG : Int)
  deriving DecidableEq, Repr

/-- A fitted pattern with its PC (R397). -/
structure Pattern where
  pc : DWord
  anchor : Nat
  form : PatForm
  deriving DecidableEq, Repr

/-- The observation state of a leap slot (R390, R398, R399): the stored pattern set, with the launch's count of
argument doublewords, and the length of the run of agreeing launches. -/
structure LeapObs where
  patterns : Option (Nat × List Pattern)
  run : Nat
  deriving DecidableEq, Repr

/-- A role entry of a launch block, its entry an address (R116). -/
structure RoleEntry where
  role : Role
  groups : Nat
  budget : Nat
  entry : DWord
  deriving DecidableEq, Repr

/-- A launch block as the loader registers it (R116). -/
structure LaunchBlock where
  name : List Byte
  identity : BitVec 128
  groups : Nat
  part : Word
  prio : Nat
  scratch : Nat
  split : Split
  fpc : Word
  trapEntry : Option DWord
  leap : Word
  roles : List RoleEntry
  deriving DecidableEq, Repr

/-- A loaded module (R113). -/
structure Module where
  handle : Nat
  ctx : Nat
  launchable : Bool
  kernels : List LaunchBlock
  deriving DecidableEq, Repr

/-- A record of the work graph (R249, R378): header fields and payload. -/
structure NodeRecord where
  core : Nat
  group : Nat
  lane : Nat
  team : Word
  round : Nat
  node : Nat
  overflow : Bool
  payload : Vector Word 4
  deriving DecidableEq, Repr

/-- A node of a context and its bin (R120, R378 to R380). -/
structure Node where
  module : Nat
  block : Nat
  coalesce : Nat
  timer : Nat
  capacity : Nat
  overTo : Option Nat
  /-- Pending records in arrival order. -/
  bin : List NodeRecord
  /-- When the timer of the oldest pending record expires. -/
  expiry : Option Nat
  /-- Records accepted in each round. -/
  accepted : List (Nat × Nat)
  dropped : DWord
  deriving DecidableEq, Repr

/-- A page in transition to host bias (R278), with the `BIAS_SET` it belongs to. -/
structure BiasPage where
  va : Nat
  size : Nat
  deriving DecidableEq, Repr

/-- What is left to do of a task that settles (R376) or retires: the buffers to publish, the first one begun or not (R374). -/
inductive TaskTodo where
  | settle
  | publish (left : List Nat) (begun : Bool)
  deriving DecidableEq, Repr

/-- A task, by the physical address of its block, that settles or retires. -/
structure TaskJob where
  addr : Nat
  todo : TaskTodo
  deriving DecidableEq, Repr

/-- A command that has begun and waits (R417): its journal number, how far it is, and what it has gathered. -/
structure CmdRun where
  cmd : Instr
  seq : Nat
  stage : Nat
  data : List Nat
  /-- A `LAUNCH` or `TASK_SUBMIT` that has been answered at its acceptance (R416). -/
  answered : Bool
  deriving DecidableEq, Repr

/-- A context (R416). -/
structure Context where
  id : Nat
  firstQueue : Nat
  queueCount : Nat
  prioLimit : Nat
  sliceNs : Nat
  /-- When the context's time slice began (R381; log 19). -/
  sliceFrom : Nat
  deadlineNs : Nat
  samplePeriod : Nat
  ringLog2 : Nat
  threshold : Nat
  /-- Physical address of the root table (R212). -/
  root : Nat
  saveArea : Nat
  leapArea : Nat
  sampleRing : Nat
  exitRing : Nat
  journalAt : Nat
  journal : Journal
  regions : List (Nat × FreezeEntry)
  buffers : List (Nat × PublishBuffer)
  windows : List (Nat × BitVec 22)
  /-- Observation states of the leap slots. -/
  leap : List (Nat × LeapObs)
  nodes : List Node
  /-- Pages in transition to host bias. -/
  bias : List BiasPage
  /-- A pre-emption request stands, and since when its deadline timer has run for how long (R381, R382). -/
  preempt : Bool
  deadlineLeft : Nat
  parked : Bool
  /-- The fragment rotation of the sampler, by (core, quarter) (R369). -/
  rotation : List (Nat × Nat)
  /-- Speculative tasks, by block address, whose launch ended with a trap or a reset while predecessors were left (R376). -/
  doomed : List Nat
  /-- Tasks that settle or retire (R374, R376). -/
  jobs : List TaskJob
  /-- The accepted command that has not ended, and those accepted after it with their sequence numbers (R417). -/
  running : Option CmdRun
  backlog : List CmdRun
  /-- Blocks that `TASK_SUBMIT` left waiting, each with its command's sequence number (R373, R416). -/
  submitted : List (Nat × Nat)
  deriving DecidableEq, Repr

/-- Where a launch comes from (R360, R372, R380). -/
inductive LaunchKind where
  | host
  | task (addr : Nat) (speculative : Bool)
  | node (index : Nat) (records : List NodeRecord) (round : Nat)
  deriving DecidableEq, Repr

/-- The image of a leap slot taken at acceptance (R393). -/
structure LeapImage where
  slot : Nat
  windowArg : Byte
  low : DWord
  high : DWord
  budget : Nat
  body : List Byte
  deriving DecidableEq, Repr

/-- A launch (R360). -/
structure Launch where
  id : Nat
  ctx : Nat
  seq : Nat
  module : Nat
  block : Nat
  grid : Nat
  args : List DWord
  prio : Nat
  kind : LaunchKind
  nextTeam : Nat
  ended : Nat
  exitRecords : Nat
  /-- A team ended by a trap; a team was discarded by a reset. -/
  trapped : Bool
  discarded : Bool
  /-- The leap source is not 0xFFFFFFFE: the launch is observed (R394, R396). -/
  observed : Bool
  image : Option LeapImage
  /-- Cores that have received a team of the launch (R402). -/
  cores : List Nat
  issued : Nat
  clipped : Nat
  suppressed : Nat
  stopped : Bool
  /-- A slot command changed the slot while the launch ran (R395). -/
  voided : Bool
  deriving DecidableEq, Repr

/-- A resident team (R17, R260, R371). -/
structure Team where
  uid : Nat
  launch : Nat
  teamid : Word
  core : Fin 256
  groups : Nat
  roles : List Role
  scratch : List (Nat × Byte)
  scratchSize : Nat
  scratchPoison : List Nat
  /-- Groups that have exited, bit by `GRPID` (R341, R297). -/
  exited : LaneMask
  masks : Vector Word 32
  cause : Byte
  causeGroup : Byte
  second : Byte
  frame : DWord
  /-- A move that has begun, with the core that the team has left (R44). -/
  moving : Option (Fin 256)
  deriving DecidableEq, Repr

/-! ## Work in flight -/

/-- One run of bytes of a copy: from a source address to a destination address. -/
structure Piece where
  src : Nat
  dst : Nat
  len : Nat
  deriving DecidableEq, Repr

/-- A copy in flight (R303). For `CPYO`, destinations are physical addresses in `out`. -/
structure Copy where
  id : Nat
  core : Fin 256
  group : Nat
  team : Nat
  ctx : Nat
  launch : Nat
  /-- `CPYO`: scratchpad to global. -/
  out : Bool
  pieces : List Piece
  /-- The batch it belongs to, or the ring and stage it arrives on. -/
  batch : Option Word
  stage : Option (Nat × Nat)
  buffer : Option Nat
  /-- Written, with the numbers of its writes: it is complete when they are (R269, R303). -/
  written : Option (List Nat)
  /-- The scratchpad and its poison as the team left them, for a `CPYO` that outlives its team (log 20). -/
  captured : Option (List Host.Cell × List Nat)
  deriving DecidableEq, Repr

/-- A `REDG` operation sent and not yet applied (R291), on a physical word. -/
structure Redg where
  id : Nat
  core : Fin 256
  group : Nat
  launch : Nat
  addr : Nat
  op : BitVec 3
  x : Word
  poison : Bool
  deriving DecidableEq, Repr

/-- A record sent by `EMIT` on its way to its bin (R250). -/
structure Emitted where
  id : Nat
  /-- The number of its `EMIT`, whose records arrive in ascending lane order (R379). -/
  emit : Nat
  group : Nat
  launch : Nat
  ctx : Nat
  record : NodeRecord
  deriving DecidableEq, Repr

/-- A byte of a line that a canopy slice holds away from the line's home, with its lease (R258, R268) and the model's own
number of its fill. -/
structure SliceByte where
  val : Byte
  expiry : Nat
  stamp : Nat
  deriving DecidableEq, Repr

/-- A canopy slice as an agent: in sync, and its view of global time less the reference, in ns (R267). -/
structure Slice where
  inSync : Bool
  skew : Int
  deriving DecidableEq, Repr

/-- A grant of a lease on a line (R268) by the agent that is its home. The holder is an agent: a core, from 256 on a slice,
512 another device. -/
structure Grant where
  line : Nat
  home : Nat
  holder : Nat
  expiry : Nat
  deriving DecidableEq, Repr

/-- A write applied at its home and not yet complete (R269). -/
structure OutWrite where
  id : Nat
  core : Fin 256
  group : Nat
  launch : Nat
  line : Nat
  /-- E_max, the latest expiry among the grants outstanding when it was applied, and the home whose time it is. -/
  emax : Nat
  home : Nat
  /-- A `REDG`'s, for which every release waits (R291). -/
  redg : Bool
  deriving DecidableEq, Repr

/-- A promotion request for a line to a core (R295) on behalf of an `ACQR`, numbered. -/
structure Promotion where
  n : Nat
  target : Fin 256
  line : Nat
  deriving DecidableEq, Repr

/-- A response message (R414). -/
structure Response where
  code : Nat
  status : Nat
  reason : Nat
  queue : Nat
  hseq : Nat
  ctx : Nat
  seq : Nat
  result : List Byte
  deriving DecidableEq, Repr

/-- The device's state (R423, R427). -/
inductive Phase where
  | off | booting | ready | failed
  deriving DecidableEq, Repr

/-- What a race makes undefined (R6, R322; log 3). -/
inductive Raced where
  /-- The byte that an address of a context names; of a publish buffer the live backing's or the shadow's (R265, R322, R372, R393). -/
  | byte (ctx : Nat) (va : DWord) (shadow : Bool)
  /-- A byte of a team's scratchpad (R263). -/
  | pad (team a : Nat)
  /-- An element of an accumulator tile, or the status word of a shape slot (R359). -/
  | element (core : Fin 256) (tile : Fin 4) (row col : Fin 128)
  | status (core : Fin 256) (slot : BitVec 3)
  /-- The index word that the next fetch of `RAFG` reads (R408). -/
  | index (core : Fin 256) (fetch : Nat)
  deriving DecidableEq, Repr

/-- What the next step does (log 1): after `dt` ns of global time one of these. An issue names the fragments that its pipe passes over: not ready for a reason of timing (R39). -/
inductive Act where
  | issue (r : FragRef) (skipped : List FragRef)
  /-- Some lanes of the atomic instruction at a fragment's PC are performed ahead of the others (R253; log 49). -/
  | ahead (r : FragRef) (lanes : LaneMask) (skipped : List FragRef)
  /-- A race: the raced value is undefined (R6, R265, R322, R359, R408; log 3). -/
  | race (r : Raced)
  | event (i : Instr)
  /-- The bytes of a command message arrive (R414). -/
  | message (bytes : List Byte)
  deriving DecidableEq, Repr

/-- A turn of the agenda. -/
structure Turn where
  dt : Nat
  act : Act
  deriving DecidableEq, Repr

/-- The package. -/
structure State where
  phase : Phase
  /-- Global device time in ns (R267). -/
  now : Nat
  cores : Vector Core 256
  /-- Physical memory, bytes not 0, by address; an unlisted address reads 0 (R427 step 2). -/
  mem : List Host.Cell
  /-- The model's own: bytes of memory whose content is open, by address: the number of its free value (log 32). -/
  freeAt : List (Nat × Nat)
  /-- Frozen bytes that the device itself has written since their freeze point, with what they held then, which a read returns
  while they are frozen (R327; log 50). -/
  kept : List (Nat × Byte)
  /-- Poisoned 32-byte granules of memory, by number (R218). -/
  poison : List Nat
  /-- Registrations at the home slices, by byte: the core that holds it (R264). -/
  registered : List (Nat × Fin 256)
  /-- The canopy slices as agents (R267). -/
  slices : Vector Slice 256
  /-- What slices hold of lines away from their homes, by byte address: the die copies of `HDIE` lines on each die, and last
  the lines of other devices (R258, R268). -/
  sliceCopies : Vector (List (Nat × SliceByte)) 5
  grants : List Grant
  writes : List OutWrite
  /-- The writer hints, (line, core) (R294). -/
  hints : List (Nat × Nat)
  /-- Cores that have written a line back while they held dirty bytes of others, (line, core): a promotion for the line asks them
  too (R295; log 51). -/
  owing : List (Nat × Nat)
  /-- The lease register LEASE (R268). -/
  lease : DWord
  /-- The die that the distributor offers the next team to first (R363). -/
  diePointer : Nat
  droop : Vector Bool 4
  ports : Vector Nat 8
  /-- Corrected and refetched ECC errors of each block (R217, R423). -/
  ecc : Vector Nat 9
  contexts : List Context
  modules : List Module
  launches : List Launch
  teams : List Team
  copies : List Copy
  redgs : List Redg
  emits : List Emitted
  promotions : List Promotion
  /-- The package journal of the administrative queues (R418). -/
  adminJournal : Journal
  /-- The highest host sequence number accepted on each queue (R415). -/
  accepted : List (Nat × Nat)
  /-- Commands held until a gap in their queue's numbers is filled (R415). -/
  heldCmds : List Instr
  outbox : List Response
  /-- The firmware's blocks of memory in ascending order: address, size and the context they belong to (R416; log 9). -/
  fwBlocks : List (Nat × Nat × Nat)
  /-- The model's own counter for identities: groups, teams, launches, copies (log 1). -/
  fresh : Nat
  /-- The model's own: what the coming steps do; when empty the device chooses (log 1). -/
  agenda : List Turn
  /-- The model's own: how many free choices have been drawn (log 2). -/
  choices : Nat
  /-- The model's own: the fragment whose instruction the step runs. -/
  cur : Option FragRef
  deriving DecidableEq, Repr

/-! ## Reset -/

/-- An engine as R336 gives it. -/
def Engine.reset : Engine :=
  { owner := none, ownerTeam := none, queue := [], held := []
    shapes := Vector.replicate 8 { record := none, status := 0#32 }
    index := none, acc := Vector.replicate 4 [], accPoison := Vector.replicate 4 [], runs := [] }

/-- A core at power-on: no team, counters 0 (R71), in sync, no split. -/
def Core.reset : Core :=
  { fenced := false, split := none, draining := none, slots := Vector.replicate 64 none
    l1 := [], frozen := [], reuse := [], seen := [], rhit := 0#64, rmiss := 0#64, rcoll := 0#64
    engine := Engine.reset, observed := [], loaded := [], unobservable := [], fetches := [], budgeted := [], filled := []
    inSync := true, skew := 0, bar := 0, lastLane := Vector.replicate 4 none, lastUniform := Vector.replicate 4 none
    paired := Vector.replicate 4 none, issues := 0 }

/-- The machine right after power returns (R424, R427): booting, nothing in memory, no context. The `POWER_ON` event
carries out the bring-up. -/
def State.reset : State :=
  { phase := .booting, now := 0, cores := Vector.replicate 256 Core.reset, mem := [], freeAt := [], kept := [], poison := [], registered := []
    slices := Vector.replicate 256 { inSync := true, skew := 0 }, sliceCopies := Vector.replicate 5 [], grants := [], writes := [], hints := [], owing := []
    lease := Config.leaseDefault, diePointer := 0, droop := Vector.replicate 4 false
    ports := Vector.replicate 8 0, ecc := Vector.replicate 9 0
    contexts := [], modules := [], launches := [], teams := [], copies := [], redgs := [], emits := []
    promotions := [], adminJournal := { capacity := 1024, next := 1, entries := [] }
    accepted := [], heldCmds := [], outbox := [], fwBlocks := [], fresh := 1
    agenda := [], choices := 0, cur := none }

end Sys2Proof.Machine
end

