-- ==== Sys2Proof/Machine/Table.lean ====
section
/-! DEFINITION. Keyed lists, keys strictly rising: the one form in which memory, scratchpads, caches and the
tables of a context are held. A byte table lists no byte that is 0.
-/

namespace Sys2Proof.Machine

/-- The value at a key, if it is listed. -/
def tableFind {α : Type} : List (Nat × α) → Nat → Option α
  | [], _ => none
  | (k, v) :: t, n => if n = k then some v else if n < k then none else tableFind t n

/-- List a value at a key, in place of what is there. -/
def tablePut {α : Type} : List (Nat × α) → Nat → α → List (Nat × α)
  | [], n, x => [(n, x)]
  | (k, v) :: t, n, x =>
    if n < k then (n, x) :: (k, v) :: t
    else if n = k then (n, x) :: t
    else (k, v) :: tablePut t n x

/-- Remove a key. -/
def tableDel {α : Type} : List (Nat × α) → Nat → List (Nat × α)
  | [], _ => []
  | (k, v) :: t, n => if n < k then (k, v) :: t else if n = k then t else (k, v) :: tableDel t n

/-- Keys rise strictly, and every one is at least `lo`. -/
def tableSortedFrom {α : Type} : Nat → List (Nat × α) → Bool
  | _, [] => true
  | lo, (k, _) :: t => decide (lo ≤ k) && tableSortedFrom (k + 1) t

/-! ## Bytes by address -/

/-- One byte: an unlisted address reads 0 (R427, R262). -/
def bytesGet (m : List Host.Cell) (a : Nat) : Byte := (tableFind m a).getD 0#8

/-- Write one byte, keeping the canonical form. -/
def bytesSet (m : List Host.Cell) (a : Nat) (b : Byte) : List Host.Cell :=
  if b = 0#8 then tableDel m a else tablePut m a b

/-- The canonical form: addresses strictly rising and no byte 0 listed. -/
def Memory.wf (m : List Host.Cell) : Bool := tableSortedFrom 0 m && m.all (fun c => decide (c.2 ≠ 0#8))

/-- `n` bytes from an address up. -/
def bytesRead (m : List Host.Cell) (a : Nat) : Nat → List Byte
  | 0 => []
  | n + 1 => bytesGet m a :: bytesRead m (a + 1) n

/-- Write bytes from an address up. -/
def bytesWrite (m : List Host.Cell) (a : Nat) : List Byte → List Host.Cell
  | [] => m
  | b :: bs => bytesWrite (bytesSet m a b) (a + 1) bs

/-- A byte of physical memory: a free value where the content is open (log 32), else what is listed. -/
def State.memGet (s : State) (a : Nat) : Byte :=
  match tableFind s.freeAt a with
  | some t => Config.freeByte t
  | none => bytesGet s.mem a

/-- Write a byte of physical memory; nothing that it held before is kept. -/
def State.memSet (s : State) (a : Nat) (b : Byte) : State :=
  { s with mem := bytesSet s.mem a b, freeAt := tableDel s.freeAt a, kept := tableDel s.kept a }

/-- Leave a byte of physical memory open: a new free value. -/
def State.memFree (s : State) (a : Nat) : State :=
  { s with mem := tableDel s.mem a, freeAt := tablePut s.freeAt a s.choices, kept := tableDel s.kept a, choices := s.choices + 1 }

/-- Bytes to a number, the first least significant (R4). -/
def leNat : List Byte → Nat
  | [] => 0
  | b :: bs => b.toNat + 256 * leNat bs

/-- A number as `n` little-endian bytes (R4). -/
def toLe (x : Nat) : Nat → List Byte
  | 0 => []
  | n + 1 => BitVec.ofNat 8 x :: toLe (x / 256) n

/-- All of a list of options. -/
def allSome {α : Type} : List (Option α) → Option (List α)
  | [] => some []
  | none :: _ => none
  | some a :: t => (allSome t).map (fun l => a :: l)

/-! ## Sets of numbers, rising -/

/-- A number's membership. -/
def setHas (l : List Nat) (n : Nat) : Bool := l.any (· == n)

/-- Add a number to a rising list. -/
def setAdd : List Nat → Nat → List Nat
  | [], n => [n]
  | k :: t, n => if n < k then n :: k :: t else if n = k then k :: t else k :: setAdd t n

/-- Take a number away. -/
def setDel (l : List Nat) (n : Nat) : List Nat := l.filter (· != n)

end Sys2Proof.Machine
end

