-- ==== Sys2Proof/Machine/Regs.lean ====
section
/-! DEFINITION. Where registers are read and written: the issuing fragment and its lanes (R25), the vector file with
its trap registers (R48, R64), masks (R46), the uniform view and its written set (R28), charge (R50), content names
(R66, R67), the reuse table's evictions (R72), and results under lookahead (R94 to R96).
-/

namespace Sys2Proof.Machine

/-! ## Masks of lanes -/

/-- The mask of the lanes that meet a test. -/
def maskOf (p : Fin 32 → Bool) : LaneMask := BitVec.ofFnLE p

/-- The lanes of a slice set (R16). -/
def sliceLanes (s : BitVec 8) : LaneMask := maskOf (fun l => s.getLsbD (l.val / 4))

/-- The lanes of a mask, ascending. -/
def lanesIn (m : LaneMask) : List (Fin 32) := (List.finRange 32).filter (fun l => m.getLsbD l.val)

/-- The lowest lane of a mask. -/
def lowestLane (m : LaneMask) : Option (Fin 32) := (lanesIn m).head?

/-- How many lanes. -/
def laneCount (m : LaneMask) : Nat := (lanesIn m).length

/-! ## Files of 64 -/

def regGet {α : Type} (v : Vector α 64) (n : Reg) : α := v[n.toNat]'n.isLt
def regSet {α : Type} (v : Vector α 64) (n : Reg) (x : α) : Vector α 64 := v.set n.toNat x n.isLt
def kGet {α : Type} (v : Vector α 8) (n : KReg) : α := v[n.toNat]'n.isLt
def kSet {α : Type} (v : Vector α 8) (n : KReg) (x : α) : Vector α 8 := v.set n.toNat x n.isLt

/-! ## Places in the package -/

def State.core (s : State) (c : Fin 256) : Core := s.cores[c]
def State.setCore (s : State) (c : Fin 256) (k : Core) : State := { s with cores := s.cores.set c k }
def State.group? (s : State) (c : Fin 256) (slot : Fin 64) : Option Group := (s.core c).slots[slot]
def Core.setSlot (k : Core) (slot : Fin 64) (g : Option Group) : Core := { k with slots := k.slots.set slot g }
def State.setGroup (s : State) (c : Fin 256) (slot : Fin 64) (g : Option Group) : State :=
  s.setCore c ((s.core c).setSlot slot g)

/-- The issuing fragment, with its group. -/
structure Here where
  r : FragRef
  g : Group
  f : Frag

/-- A live fragment at a place of the split tables. -/
def State.at? (s : State) (r : FragRef) : Option Here :=
  match s.group? r.core r.slot with
  | none => none
  | some g => match g.frags[r.frag] with
    | none => none
    | some f => if f.status = .exited then none else some ⟨r, g, f⟩

/-- The fragment whose instruction the step runs. -/
def State.here? (s : State) : Option Here := s.cur.bind s.at?

/-- The group with the fragment in its entry. -/
def Here.group (h : Here) : Group := { h.g with frags := h.g.frags.set h.r.frag (some h.f) }

/-- Put the fragment and its group back. -/
def State.put (s : State) (h : Here) : State := s.setGroup h.r.core h.r.slot (some h.group)

def Here.core (h : Here) (s : State) : Core := s.core h.r.core
def Here.setView (h : Here) (v : View) : Here := { h with f := { h.f with view := v } }

/-- The fragment runs the handler (R201). -/
def Here.inHandler (h : Here) : Bool :=
  match h.g.handler with
  | some d => d.frag == h.r.frag
  | none => false

/-- The live fragments of a group, by entry. -/
def Group.live (g : Group) : List (Fin 8) :=
  (List.finRange 8).filter (fun i => match g.frags[i] with
    | some f => f.status != .exited
    | none => false)

/-- The group is not split (R28). -/
def Group.single (g : Group) : Bool := g.live.length ≤ 1

/-! ## Lanes (R25) -/

/-- The fragment's lanes: those of its slices less the removed lanes. -/
def Here.lanes (h : Here) : LaneMask := sliceLanes h.f.slices &&& ~~~h.g.removed

/-- A mask register: `k0` reads all ones (R46). -/
def View.mask (v : View) (k : KReg) : Word := if k = 0#3 then 0xFFFFFFFF#32 else kGet v.k k

/-- EXEC: the fragment's lanes in K. -/
def Here.exec (h : Here) (k : KReg) : LaneMask := h.lanes &&& h.f.view.mask k

/-! ## Vector registers (R48, R60, R64) -/

/-- All bits zero. -/
def zeroLanes : Lanes Word := Lanes.all 0#32

/-- An unmapped register's contents. -/
def VReg.zero : VReg := { lanes := zeroLanes, poison := 0#32, serial := none }

/-- A number that names a trap register while a handler runs. -/
def Here.trapReg (h : Here) (n : Reg) : Bool := h.inHandler && decide (56 ≤ n.toNat)

def trapIndex (n : Reg) : KReg := BitVec.ofNat 3 n.toNat

/-- A vector register as the fragment names it. -/
def Here.vreg (h : Here) (n : Reg) : VReg :=
  if h.trapReg n then kGet h.g.hv (trapIndex n) else (regGet h.g.v n).getD VReg.zero

/-- Its 32 lanes. -/
def Here.v (h : Here) (n : Reg) : Lanes Word := (h.vreg n).lanes

/-- The register is mapped, or needs no mapping. -/
def Here.mapped (h : Here) (n : Reg) : Bool := h.trapReg n || (regGet h.g.v n).isSome

/-- The content name of a register that is read: none for a register without one, and for a trap register (R64, R66, R68). -/
def Here.name (h : Here) (n : Reg) : Option RName :=
  if h.trapReg n then none else
  match regGet h.g.v n with
  | none => some .zero
  | some r => r.serial.map (RName.named r.lanes)

/-- Lanes in a mask take new words. -/
def mergeLanes (old new : Lanes Word) (m : LaneMask) : Lanes Word :=
  Lanes.make (fun l => if m.getLsbD l.val then new[l] else old[l])

/-- Every mapped register of a core's groups in a context. -/
def Core.resident (k : Core) (ctx : Nat) : List VReg :=
  k.slots.toList.flatMap (fun o => match o with
    | none => []
    | some g => if g.ctx = ctx then g.v.toList.filterMap id else [])

/-- The lowest serial that no register of a list holds, of 16. -/
def freeSerial (held : List VReg) : Option Nat :=
  (List.range 16).find? (fun i => !held.any (fun r => r.serial == some i))

/-- The serial that R67 gives a committed content, and whether it counts as a collision: every resident register of the hash
is compared. One of equal content that has no name is not shared (R68): the result takes a name of its own (log 47). -/
def nameFor (res : List VReg) (c : Lanes Word) : Option Nat × Bool :=
  match res.find? (fun r => r.serial.isSome && r.lanes == c) with
  | some r => (r.serial, false)
  | none =>
    let same := res.filter (fun r => decide (Config.nameHash r.lanes = Config.nameHash c))
    (freeSerial same, same.any (fun r => r.lanes != c))

/-- The names that some register of the context still holds (R49). -/
def nameLive (res : List VReg) : RName → Bool
  | .zero => true
  | .named c n => res.any (fun r => r.serial == some n && r.lanes == c)

/-- Drop the reuse entries that name a freed register (R72). -/
def Core.evictNames (k : Core) : Core :=
  { k with reuse := k.reuse.filter (fun e =>
      let res := k.resident e.key.ctx
      (e.key.sources ++ e.key.old ++ e.results.map Prod.fst).all (nameLive res)) }

/-- Drop entries after a change of a group's mappings. -/
def State.evictNames (s : State) (c : Fin 256) : State := s.setCore c (s.core c).evictNames

/-- A write of some lanes of a register, unnamed: mapping it when it was not (R48), in the trap file where the number
names it (R64); it removes the register from the pending-kill set (R56). -/
def Here.writeLanes (h : Here) (n : Reg) (x : Lanes Word) (m poison : LaneMask) (serial : Option Nat) : Here :=
  let old := h.vreg n
  let r : VReg :=
    { lanes := mergeLanes old.lanes x m, poison := (old.poison &&& ~~~m) ||| (poison &&& m), serial := serial }
  if h.trapReg n then { h with g := { h.g with hv := kSet h.g.hv (trapIndex n) { r with serial := none } } }
  else { h with g := { h.g with v := regSet h.g.v n (some r), killSet := h.g.killSet &&& ~~~(1#64 <<< n.toNat) } }

/-- A committed vector result: R48, with its name by R67 unless it is poisoned (R219). A write of no lane leaves all as it was.
Results of one instruction commit one after the other, so that equal ones share (R429 leaves this open; log 30). -/
def commitV (s : State) (h : Here) (n : Reg) (x : Lanes Word) (m poison : LaneMask) : State × Here :=
  if m = 0#32 then (s, h) else
  let old := h.vreg n
  let pz := (old.poison &&& ~~~m) ||| (poison &&& m)
  if h.trapReg n || pz ≠ 0#32 then (s, h.writeLanes n x m poison none)
  else
    let k := s.core h.r.core
    let nm := nameFor (k.setSlot h.r.slot (some h.group)|>.resident h.g.ctx) (mergeLanes old.lanes x m)
    (s.setCore h.r.core { k with rcoll := if nm.2 then k.rcoll + 1#64 else k.rcoll }, h.writeLanes n x m poison nm.1)

/-! ## Uniform registers (R28, R64) -/

/-- A uniform register as the fragment names it. -/
def Here.s (h : Here) (n : Reg) : Word :=
  if h.trapReg n then kGet h.g.hs (trapIndex n) else regGet h.f.view.s n

/-- The pair that starts at a register (R4). The register after 63 is 0: no pair starts there. -/
def Here.sp (h : Here) (n : Reg) : DWord := h.s (n + 1#6) ++ h.s n

/-- Nothing written. -/
def Written.empty : Written := { s := 0#64, k := 0#8, w := 0#4, scc := false, fp := false, part := false }

/-- Note an element of the uniform state as written, when the group is split (R28). -/
def Here.note (h : Here) (w : Written) : Here :=
  if h.g.single then h
  else
    let o := h.f.written
    { h with f := { h.f with written :=
        { s := o.s ||| w.s, k := o.k ||| w.k, w := o.w ||| w.w, scc := o.scc || w.scc, fp := o.fp || w.fp
          part := o.part || w.part } } }

/-- A younger write to a uniform register discards an older result under lookahead (R95). -/
def dropUniform (ps : List Pending) (n : Reg) : List Pending :=
  ps.map (fun p => { p with uni := p.uni.filter (fun u => u.1 != n) })

/-- Write a uniform register. -/
def Here.setS (h : Here) (n : Reg) (x : Word) : Here :=
  if h.trapReg n then
    { h with g := { h.g with hs := kSet h.g.hs (trapIndex n) x }, f := { h.f with pending := dropUniform h.f.pending n } }
  else
    let h1 := h.note { Written.empty with s := 1#64 <<< n.toNat }
    { h1 with f := { h1.f with view := { h1.f.view with s := regSet h1.f.view.s n x }, pending := dropUniform h1.f.pending n } }

/-- Write a pair: bits 31:0 in the even register (R4). -/
def Here.setSP (h : Here) (n : Reg) (x : DWord) : Here :=
  (h.setS n (x.setWidth 32)).setS (n + 1#6) ((x >>> 32).setWidth 32)

/-- Write the scalar condition codes. -/
def Here.setSCC (h : Here) (c : ScalarCC) : Here :=
  let h1 := h.note { Written.empty with scc := true }
  h1.setView { h1.f.view with scc := c }

/-- Write SCC.Z alone. -/
def Here.setZ (h : Here) (z : Bool) : Here := h.setSCC { h.f.view.scc with z := z }

/-- Write SCC.E alone. -/
def Here.setE (h : Here) (e : Bool) : Here := h.setSCC { h.f.view.scc with e := e }

/-- Write a mask register other than `k0`. -/
def Here.setK (h : Here) (n : KReg) (x : Word) : Here :=
  let h1 := h.note { Written.empty with k := 1#8 <<< n.toNat }
  h1.setView { h1.f.view with k := kSet h1.f.view.k n x }

/-- OR flags into the group's sticky field (R29). -/
def Here.raise (h : Here) (f : BitVec 5) : Here := { h with g := { h.g with sticky := h.g.sticky ||| f } }

/-- End the group's reuse epoch (R73). -/
def Here.endEpoch (h : Here) : Here := { h with g := { h.g with epoch := h.g.epoch + 1 } }

/-! ## Lane condition codes (R62) -/

/-- Some lanes of a mask take new bits. -/
def mergeMask (old new m : LaneMask) : LaneMask := (old &&& ~~~m) ||| (new &&& m)

/-- A younger write to lane Z discards an older `LDFF`'s (R95). -/
def dropZ (ps : List Pending) (m : LaneMask) : List Pending :=
  ps.map (fun p => if m = 0#32 then p else { p with zMask := 0#32 })

/-- Write lane condition codes in given lanes; `none` leaves a code unchanged. -/
def Here.setCC (h : Here) (m : LaneMask) (c z n v : Option LaneMask) : Here :=
  let o := h.g.cc
  let up (old : LaneMask) (x : Option LaneMask) : LaneMask := match x with
    | none => old
    | some y => mergeMask old y m
  { h with g := { h.g with cc := { c := up o.c c, z := up o.z z, n := up o.n n, v := up o.v v } }
           f := { h.f with pending := if z.isSome then dropZ h.f.pending m else h.f.pending } }

/-! ## Charge and lookahead (R50, R51, R94 to R96) -/

/-- Every result under lookahead of a group. -/
def Group.pendRegs (g : Group) : List PendReg :=
  g.frags.toList.flatMap (fun o => match o with
    | none => []
    | some f => f.pending.flatMap (fun p => p.regs))

/-- Some result has not arrived. -/
def Group.inFlight (g : Group) : Bool := g.pendRegs.any (fun p => !p.arrived)

/-- Results that a group's register waits for: outstanding, of the group's own registers, and not discarded. -/
def Group.pendsOn (g : Group) (n : Fin 64) : List PendReg := g.pendRegs.filter (fun p => p.reg.toNat == n.val && !p.trap && !p.dropped)

/-- A register's part of the charge (R50): its mapping, and each result in flight into it; the first value of a register counts once. -/
def Group.chargeOf (g : Group) (n : Fin 64) : Nat :=
  let ps := g.pendsOn n
  (if g.v[n].isSome || ps.any (fun p => p.arrived) then 1 else 0) + (ps.filter (fun p => !p.arrived)).length

/-- The group's charge (R50): its registers', and that of discarded results until they arrive. Trap registers are not charged (R63). -/
def Group.charge (g : Group) : Nat :=
  ((List.finRange 64).map g.chargeOf).sum + (g.pendRegs.filter (fun p => p.dropped && p.charged && !p.trap && !p.arrived)).length

/-- Results of the fragment for a register are discarded: a younger write stands (R95). `own` says whether such a result has a charge
of its own until it arrives (R50). -/
def dropVector (ps : List Pending) (own : Bool) (n : Reg) : List Pending :=
  ps.map (fun p => { p with regs := p.regs.map (fun r => if r.reg = n && !r.dropped then { r with dropped := true, charged := own } else r) })

/-- The first value of a register is in flight: it counts once, as mapped, whatever overwrites it in a single clock (R50, R51). -/
def Group.firstInFlight (g : Group) (n : Reg) : Bool :=
  (regGet g.v n).isNone && !(g.pendsOn ⟨n.toNat, n.isLt⟩).any (fun p => p.arrived)

/-- Enter results in the reuse table (R70): every name is held by some register, and a full table gives up an entry the core chooses. -/
def addEntry (s : State) (c : Fin 256) (key : ReuseKey) (results : List (Option RName × Lanes Word)) (cc : Option LaneCC)
    (flags : BitVec 5) : State :=
  let k := s.core c
  let res := k.resident key.ctx
  if results.any (fun r => r.1.isNone) || !(key.sources ++ key.old).all (nameLive res) then s
  else
    let e : ReuseEntry := ⟨key, results.filterMap (fun r => r.1.map (fun n => (n, r.2))), cc, flags⟩
    if k.reuse.length < Config.reuseEntries then s.setCore c { k with reuse := e :: k.reuse }
    else
      let n := Config.choice s.choices % Config.reuseEntries
      { s.setCore c { k with reuse := e :: k.reuse.eraseIdx n } with choices := s.choices + 1 }

/-- The names and contents that registers hold. -/
def Here.results (h : Here) (rs : List Reg) : List (Option RName × Lanes Word) := rs.map (fun r => (h.name r, h.v r))

/-- Write one instruction's results: each register and code on its own (R95); a reuse entry when none was discarded. -/
def settleOne (s : State) (h : Here) (p : Pending) : State × Here :=
  let sh := p.regs.foldl (fun (a : State × Here) r =>
    if r.dropped then a else commitV a.1 a.2 r.reg r.lanes r.mask r.poison) (s, h)
  let h1 := p.uni.foldl (fun (a : Here) u => a.setS u.1 u.2) sh.2
  let h2 : Here := { h1 with g := { h1.g with cc := { h1.g.cc with z := mergeMask h1.g.cc.z p.zVal p.zMask } } }
  match p.key with
  | some key =>
    if p.regs.any (fun r => r.dropped) then (sh.1, h2)
    else (addEntry (sh.1.put h2) h2.r.core key (h2.results (p.regs.map (fun r => r.reg))) none p.flags, h2)
  | none => (sh.1, h2)

/-- Settle some results, oldest first, while `left` stay open; the names that this frees leave the reuse table (R72). -/
def settleList (s : State) (h : Here) (ps left : List Pending) : State × Here :=
  if ps.isEmpty then (s, h) else
  let a := ps.foldl (fun (a : State × Here) p => settleOne a.1 a.2 p) (s, { h with f := { h.f with pending := left } })
  ((a.1.put a.2).evictNames h.r.core, a.2)

/-- Settle every outstanding result of the fragment, oldest first (R96). -/
def settleAll (s : State) (h : Here) : State × Here := settleList s h h.f.pending []

/-- Settle the results whose window is over: the next instruction does not issue before (R94). -/
def settleDue (s : State) (h : Here) : State × Here :=
  settleList s h (h.f.pending.filter (fun p => p.left == 0)) (h.f.pending.filter (fun p => p.left != 0))

/-- Leave a waiting or fresh state for the next instruction: the PC moves past this one, each open window by one (R94). -/
def Here.advance (h : Here) (bytes : Nat) : Here :=
  { h with f := { h.f with
      pc := h.f.pc + BitVec.ofNat 64 bytes, status := .ready, resume := 0, ahead := [], passed := []
      pending := h.f.pending.map (fun p => { p with left := p.left - 1 }) } }

/-- As `advance`, to a target (R94: a taken branch counts once). -/
def Here.jump (h : Here) (pc : DWord) : Here :=
  { h with f := { h.f with
      pc := pc, status := .ready, resume := 0, ahead := [], passed := []
      pending := h.f.pending.map (fun p => { p with left := p.left - 1 }) } }

/-- Open a window (R94). It is counted from the next instruction. -/
def Here.pend (h : Here) (p : Pending) : Here := { h with f := { h.f with pending := h.f.pending ++ [p] } }

/-- The fragment waits; its PC stays. -/
def Here.wait (h : Here) (w : Wait) : Here := { h with f := { h.f with status := .waiting w } }

/-- The fragment waits with accesses that have passed their checks. -/
def Here.waitWith (h : Here) (w : Wait) (ps : List Passed) : Here := { h with f := { h.f with status := .waiting w, passed := ps } }

/-! ## Index registers and windows (R58) -/

/-- An index register of eight, lane by lane. -/
def Here.x (h : Here) (n : BitVec 3) : Lanes Byte := kGet h.g.x n
def Here.w (h : Here) (n : BitVec 2) : Window := h.f.view.w[n.toNat]'n.isLt

/-! ## Fragments of a group (R24, R34, R94) -/

/-- The lowest slice of a set. -/
def lowestSlice (x : BitVec 8) : Nat := ((List.range 8).find? (fun i => x.getLsbD i)).getD 8

/-- Entries of the split table in ascending order of lowest slice. -/
def Group.bySlice (g : Group) (p : Frag → Bool) : List (Fin 8) :=
  (List.range 8).filterMap (fun sl => (List.finRange 8).find? (fun i => match g.frags[i] with
    | some f => p f && lowestSlice f.slices == sl
    | none => false))

def Group.frag? (g : Group) (i : Fin 8) : Option Frag := g.frags[i]
def Group.setFrag (g : Group) (i : Fin 8) (f : Option Frag) : Group := { g with frags := g.frags.set i f }

/-- Change every fragment of a group. -/
def Group.mapFrags (g : Group) (f : Fin 8 → Frag → Frag) : Group :=
  { g with frags := Vector.ofFn (fun i : Fin 8 => (g.frags[i]).map (f i)) }

/-- The first fragment that is due, in order of lowest slice, issues its held instruction again (R34). -/
def Group.releaseNext (g : Group) : Group :=
  match g.bySlice (fun f => f.held == .due) with
  | [] => { g with reissue := none }
  | i :: _ => { g.mapFrags (fun j f => if j = i then { f with held := .no, status := .ready } else f) with reissue := some i }

/-- A handler has ended: the fragments that stopped while it ran are due, and the first is released, unless one that was released
before has still to commit (R34). -/
def Group.handlerEnded (g : Group) : Group :=
  let g1 := g.mapFrags (fun _ f => if f.held = .stopped then { f with held := .due } else f)
  if g1.reissue.isSome then g1 else g1.releaseNext

/-- A wait in which the fragment has arrived where others must come too: its instruction counts as carried out (R30, R35). -/
def Wait.arrived : Wait → Bool
  | .regang => true
  | .bar => true
  | .owner _ => false
  | .freeze _ => false
  | .publish _ _ _ => false
  | .promote _ => false
  | .batch _ => false
  | .stage _ _ => false
  | .suspended => false
  | .thaw _ => false
  | .rels _ => false
  | .bias _ => false
  | .result => false

/-- The instruction of the fragment being issued again has committed: it stands at the next one, has ended, or has arrived. -/
def Group.reissued (g : Group) (i : Fin 8) : Bool := match g.frags[i] with
  | none => true
  | some f => match f.status with
    | .waiting w => w.arrived
    | .ready => true
    | .exited => true

/-- After an issue or a release: when a held fragment's re-issue has committed, the next one is released (R34). -/
def Group.afterReissue (g : Group) (i : Fin 8) : Group := if g.reissue = some i && g.reissued i then g.releaseNext else g

/-- A fragment waits as `p` says. -/
def Frag.waits (f : Frag) (p : Wait → Bool) : Bool := match f.status with
  | .waiting w => p w
  | .ready => false
  | .exited => false

/-- A uniform result, or one of lane Z, whose window is over may not be available yet (R94). -/
def Frag.dueLate (f : Frag) : Bool := f.pending.any (fun p => p.left == 0 && (!p.uni.isEmpty || p.zMask != 0#32))

/-- A fragment goes on from a wait, past its instruction of 4 bytes, which counts in each open window (R94). -/
def Frag.goOn (f : Frag) : Frag :=
  let g : Frag := { f with status := .ready, pc := f.pc + 4#64, pending := f.pending.map (fun q => { q with left := q.left - 1 }) }
  { g with late := g.dueLate }

/-- Fragments of a group that wait as `p` says go on; the instruction of one that is being issued again has then committed (R34). -/
def Group.release (g : Group) (p : Wait → Bool) : Group :=
  let g1 := g.mapFrags (fun _ f => if f.waits p then f.goOn else f)
  match g.reissue with
  | some i => if (g.frags[i]).any (fun f => f.waits p) then g1.afterReissue i else g1
  | none => g1

end Sys2Proof.Machine
end

