-- ==== Sys2Proof/Machine/Flags.lean ====
section
/-! DEFINITION. What one lane of an instruction delivers, and every condition-code and class computation: integer codes
(R156, R159 to R165), float codes (R157, R169, R177), non-finite classes (R147), scalar codes (R191), conditions (R84).
-/

namespace Sys2Proof.Machine

/-- One lane's outcome: the value, the codes, the sticky flags, the classes of R147 (bit c for cause 0x30 + c). -/
structure LaneOut where
  val : Word
  c : Bool
  z : Bool
  n : Bool
  v : Bool
  flags : Flags
  cls : BitVec 4
  deriving DecidableEq, Repr

/-- Which condition codes an instruction writes. -/
structure CodeSet where
  c : Bool
  z : Bool
  n : Bool
  v : Bool
  deriving DecidableEq, Repr

def codesNone : CodeSet := ⟨false, false, false, false⟩
def codesZN : CodeSet := ⟨false, true, true, false⟩
def codesZNV : CodeSet := ⟨false, true, true, true⟩
def codesAll : CodeSet := ⟨true, true, true, true⟩

/-- A value with nothing else. -/
def LaneOut.plain (w : Word) : LaneOut := ⟨w, false, false, false, false, 0#5, 0#4⟩

/-- An inactive lane. -/
def LaneOut.idle : LaneOut := .plain 0#32

/-! ## Integer codes -/

/-- Z and N of a 32-bit result (R156). -/
def zn (w : Word) : LaneOut := ⟨w, false, w == 0#32, w.msb, false, 0#5, 0#4⟩

/-- An integer fits i32. -/
def fitsI32 (z : Int) : Bool := decide (-2 ^ 31 ≤ z) && decide (z < 2 ^ 31)

/-- a + b + carry-in: the sum with carry out and signed overflow (R156). -/
def addCodes (a b : Word) (cin : Bool) : LaneOut :=
  let i : Nat := if cin then 1 else 0
  { zn (BitVec.ofNat 32 (a.toNat + b.toNat + i)) with
    c := decide (2 ^ 32 ≤ a.toNat + b.toNat + i), v := !fitsI32 (a.toInt + b.toInt + i) }

/-- a − b − borrow-in: the difference with borrow and signed overflow (R84, R156). -/
def subCodes (a b : Word) (bin : Bool) : LaneOut :=
  let i : Nat := if bin then 1 else 0
  { zn (BitVec.ofInt 32 (Int.ofNat a.toNat - b.toNat - i)) with
    c := decide (a.toNat < b.toNat + i), v := !fitsI32 (a.toInt - b.toInt - i) }

/-- The codes of an unsigned compare (R156, R191). -/
def cmpuCodes (a b : Word) : LaneOut :=
  let lt := a.ult b
  ⟨a - b, lt, a == b, lt, false, 0#5, 0#4⟩

/-- V is 1 when the source is −2^31 (R156). -/
def negCodes (a r : Word) : LaneOut := { zn r with v := a == 0x80000000#32 }

/-- V is 1 when the exact signed result does not fit i32 (R156). -/
def mulCodes (exact : Int) : LaneOut := { zn (BitVec.ofInt 32 exact) with v := !fitsI32 exact }

/-! ## Conditions (R84) -/

/-- The sixteen conditions over C, Z, N, V and E; lanes use the first eight. -/
def condHolds (f : BitVec 4) (c z n v e : Bool) : Bool :=
  match f with
  | 0#4 => z
  | 1#4 => !z
  | 2#4 => n != v
  | 3#4 => n == v
  | 4#4 => c
  | 5#4 => !c
  | 6#4 => n
  | 7#4 => v
  | 8#4 => !z && n == v
  | 9#4 => z || n != v
  | 10#4 => !c && !z
  | 11#4 => c || z
  | 12#4 => !n
  | 13#4 => !v
  | 14#4 => e
  | _ => true

/-! ## Float codes and classes -/

/-- The classes of a delivered result (R147). -/
def classOf (r : FRes) (ins : List FVal) : BitVec 4 :=
  if r.nan then (if ins.any FVal.isNan then 2#4 else 1#4)
  else if r.inf then (if ins.any FVal.isInf then 8#4 else 4#4)
  else 0#4

/-- Codes of an f32 result (R157). -/
def f32Codes (w : Word) : LaneOut :=
  let x := f32 w
  ⟨w, x.isInf, x.isZero, w.msb && !x.isNan, x.isNan, 0#5, 0#4⟩

/-- A delivered f32 with its codes, flags and class. -/
def floatOut (r : FRes) (ins : List FVal) : LaneOut :=
  { f32Codes (BitVec.ofNat 32 r.bits) with flags := r.flags, cls := classOf r ins }

/-- A float of another format, with codes judged on the value widened to f32 (R177). -/
def narrowOut (f : FloatFmt) (r : FRes) (ins : List FVal) : LaneOut :=
  let x := FVal.decode f r.bits
  ⟨BitVec.ofNat 32 r.bits, x.isInf, x.isZero, x.neg? && !x.isNan, x.isNan, r.flags, classOf r ins⟩

/-- A conversion to an integer (R145, R177). -/
def intOut (signed : Bool) (r : IntRes) : LaneOut :=
  let w := BitVec.ofInt 32 r.val
  ⟨w, r.differs, w == 0#32, signed && w.msb, r.clamped, r.flags, 0#4⟩

/-- The codes of `FCMP` (R169). -/
def fcmpOut (a b : FVal) : LaneOut :=
  let fl := if a.signalling || b.signalling then flNV else 0#5
  if a.isNan || b.isNan then ⟨0#32, false, false, false, true, fl, 0#4⟩
  else
    let o := a.cmp b
    ⟨0#32, false, o == .eq, o == .lt, false, fl, 0#4⟩

/-! ## Scalar codes (R191) -/

/-- The scalar codes of a lane-like outcome, E kept. -/
def ScalarCC.ofOut (o : LaneOut) (e : Bool) : ScalarCC := ⟨o.c, o.z, o.n, o.v, e⟩

/-- `SCMP64`: Z, N, borrow and overflow of the 64-bit subtraction. -/
def cmp64Codes (a b : DWord) (e : Bool) : ScalarCC :=
  let d := a - b
  let x := a.toInt - b.toInt
  ⟨a.ult b, d == 0#64, d.msb, !(decide (-2 ^ 63 ≤ x) && decide (x < 2 ^ 63)), e⟩

end Sys2Proof.Machine
end

