-- ==== Sys2Proof/Machine/Translate.lean ====
section
/-! DEFINITION. Addresses: the page walk and its leaf (R212, R213), the physical space (R256), publish buffers (R309),
freeze entries over bytes (R271 to R277), and the checks of one access in the order of R197 steps 10 and 11 (R214).
-/

namespace Sys2Proof.Machine

/-! ## Finding things -/

def State.ctx? (s : State) (id : Nat) : Option Context := s.contexts.find? (fun c => c.id == id)
def State.setCtx (s : State) (c : Context) : State :=
  { s with contexts := s.contexts.map (fun x => if x.id = c.id then c else x) }
def State.launch? (s : State) (id : Nat) : Option Launch := s.launches.find? (fun l => l.id == id)
def State.setLaunch (s : State) (l : Launch) : State :=
  { s with launches := s.launches.map (fun x => if x.id = l.id then l else x) }
def State.team? (s : State) (uid : Nat) : Option Team := s.teams.find? (fun t => t.uid == uid)
def State.setTeam (s : State) (t : Team) : State :=
  { s with teams := s.teams.map (fun x => if x.uid = t.uid then t else x) }

/-- The launch block of a launch (R116). -/
def State.block? (s : State) (l : Launch) : Option LaunchBlock :=
  (s.modules.find? (fun m => m.handle == l.module && m.ctx == l.ctx)).bind (fun m => m.kernels[l.block]?)

/-! ## The walk (R212, R213) -/

/-- The kinds of access, with the codes of the access byte (R196). -/
inductive Access where
  | load | store | atomic | fetch | copySrc | copyDst | freeze | task
  deriving DecidableEq, Repr

def Access.code : Access → Nat
  | .load => 0 | .store => 1 | .atomic => 2 | .fetch => 3 | .copySrc => 4 | .copyDst => 5 | .freeze => 6 | .task => 7

/-- The access writes (R214). -/
def Access.writes : Access → Bool
  | .store | .atomic | .copyDst | .task => true
  | .load | .fetch | .copySrc | .freeze => false

/-- The access reads. -/
def Access.reads : Access → Bool
  | .load | .atomic | .copySrc | .freeze | .task => true
  | .store | .fetch | .copyDst => false

/-- What a walk finds. -/
inductive Walk where
  | leaf (l : Leaf)
  | absent
  | malformed
  deriving DecidableEq, Repr

/-- The bits of the entry at a physical address. -/
def pteAt (s : State) (a : Nat) : DWord := BitVec.ofNat 64 (leNat ((List.range 8).map (fun i => s.memGet (a + i))))

/-- The leaf an entry makes, or malformed: SM 3, an address not aligned to the page, or in the reserved range (R213, R256). -/
def leafOf (e : DWord) (size : Nat) : Walk :=
  let addr := (e.toNat / 256 % 2 ^ 44) * 256
  if e.extractLsb' 52 2 = 3#2 || addr % size != 0 || (2 ^ 40 ≤ addr && addr < 2 ^ 51) then .malformed
  else .leaf
    { base := addr, size := size, rp := e.getLsbD 61, wp := e.getLsbD 60, xp := e.getLsbD 59, fw := e.getLsbD 58
      ca := e.getLsbD 57, rad := e.getLsbD 56, bh := e.getLsbD 55, bt := e.getLsbD 54
      sm := e.extractLsb' 52 2, ps := e.extractLsb' 0 8 }

/-- The address of an entry in its table, by level (R212). -/
def pteIndex (va : Nat) : Nat → Nat
  | 0 => va / 2 ^ 43 % 8192
  | 1 => va / 2 ^ 30 % 8192
  | 2 => va / 2 ^ 21 % 512
  | _ => va / 2 ^ 16 % 32

/-- What a leaf maps at a level. -/
def levelSize : Nat → Nat
  | 1 => 2 ^ 30
  | 2 => 2 ^ 21
  | _ => 2 ^ 16

/-- The size in bytes of the table at a level. -/
def tableSize : Nat → Nat
  | 0 => 65536
  | 1 => 65536
  | 2 => 4096
  | _ => 256

/-- Walk from a table at a level, `fuel` levels left (R212). -/
def walkFrom (s : State) (va : Nat) : Nat → Nat → Nat → Walk
  | 0, _, _ => .malformed
  | fuel + 1, level, table =>
    let e := pteAt s (table + 8 * pteIndex va level)
    if !e.getLsbD 63 then .absent
    else if e.getLsbD 62 then
      if level = 0 then .malformed else leafOf e (levelSize level)
    else if level = 3 then .malformed
    else
      let next := (e.toNat / 256 % 2 ^ 44) * 256
      if next % tableSize (level + 1) != 0 then .malformed else walkFrom s va fuel (level + 1) next

/-- The walk of a canonical address in a context. -/
def walk (s : State) (c : Context) (va : Nat) : Walk := walkFrom s va 4 0 c.root

/-! ## Physical places (R256, R309) -/

/-- Physical bytes of the device `d` behind a remote window: the model's key for them. A window entry that names this device itself is
taken as any other, its bytes apart from local memory (log 28). -/
def remoteKey (d : BitVec 22) (off : Nat) : Nat := 2 ^ 52 + d.toNat * 2 ^ 40 + off

/-- A key of another device's byte. -/
def isRemote (pa : Nat) : Bool := decide (2 ^ 52 ≤ pa)

/-- The publish buffer whose range holds an address (R309). -/
def Context.bufferAt (c : Context) (va : Nat) : Option (Nat × PublishBuffer) :=
  c.buffers.find? (fun b => decide (b.2.base ≤ va) && decide (va < b.2.base + b.2.size))

/-- Translate an address: its place, or whether the entry is malformed (R212, R213, R256). -/
def place (s : State) (c : Context) (va : DWord) : Place ⊕ Bool :=
  if 2 ^ 56 ≤ va.toNat then .inr false else
  match walk s c va.toNat with
  | .absent => .inr false
  | .malformed => .inr true
  | .leaf l =>
    match c.bufferAt va.toNat with
    | some b => .inl ⟨b.2.live + (va.toNat - b.2.base), l⟩
    | none =>
      let pa := l.base + va.toNat % l.size
      if pa < 2 ^ 51 then .inl ⟨pa, l⟩
      else match tableFind c.windows (pa / 2 ^ 40 % 2048) with
        | some d => .inl ⟨remoteKey d (pa % 2 ^ 40), l⟩
        | none => .inr true

/-! ## Freeze entries over bytes -/

/-- An active entry with count above 0 covers the physical byte (R272). -/
def FreezeEntry.freezes (e : FreezeEntry) (pa : Nat) : Bool :=
  e.state == .active && decide (0 < e.count) && e.blocks.any (fun b => b == pa / 4096 * 4096)

/-- The lowest-numbered entry that freezes a byte: context, index, entry (R196, R272). Entries are numbered in each context; where those of
several cover the byte it is the first context's (R200; log 52). -/
def State.frozenBy (s : State) (pa : Nat) : Option (Nat × Nat × FreezeEntry) :=
  s.contexts.findSome? (fun c => (c.regions.find? (fun e => e.2.freezes pa)).map (fun e => (c.id, e.1, e.2)))

def State.isFrozen (s : State) (pa : Nat) : Bool := (s.frozenBy pa).isSome

/-- A thawing entry covers the byte (R277). -/
def State.isThawing (s : State) (pa : Nat) : Bool :=
  s.contexts.any (fun c => c.regions.any (fun e =>
    e.2.state == .thawing && e.2.blocks.any (fun b => b == pa / 4096 * 4096)))

/-- The thawing entries that cover a byte: context, index, generation (R277). -/
def State.thawsOver (s : State) (pa : Nat) : List (Nat × Nat × Nat) :=
  s.contexts.flatMap (fun c => (c.regions.filter (fun e =>
    e.2.state == .thawing && e.2.blocks.any (fun b => b == pa / 4096 * 4096))).map (fun e => (c.id, e.1, e.2.gen.toNat)))

/-- Every entry that freezes a byte, with its generation (R69). -/
def State.gensOver (s : State) (pa : Nat) : List (Nat × Nat) :=
  s.contexts.flatMap (fun c => (c.regions.filter (fun e => e.2.freezes pa)).map (fun e => (c.id * 1024 + e.1, e.2.gen.toNat)))

/-- A handle: generation bits 21:0 and index (R271). -/
def handleOf (idx : Nat) (gen : Word) : Word := (gen <<< 10) ||| BitVec.ofNat 32 (idx % 1024)

/-! ## Traps -/

/-- A cause with its frame fields (R196, R200). -/
structure TrapInfo where
  cause : Byte
  sub : Byte
  mask : LaneMask
  addr : DWord
  aux : DWord
  step : Nat
  deriving DecidableEq, Repr

def cIllegal : Byte := 0x01
def cPriv : Byte := 0x02
def cAlign : Byte := 0x03
def cRole : Byte := 0x04
def cPageAbsent : Byte := 0x10
def cPageProt : Byte := 0x11
def cBias : Byte := 0x12
def cFrozenWrite : Byte := 0x13
def cNotFrozen : Byte := 0x14
def cIndexRange : Byte := 0x20
def cShape : Byte := 0x21
def cMatrixOwner : Byte := 0x22
def cIntDivzero : Byte := 0x38
def cSoftware : Byte := 0x40
def cBreak : Byte := 0x41
def cEcc : Byte := 0x50
def cDebugHalt : Byte := 0x60

/-- A cause with no lane address. -/
def TrapInfo.plain (cause sub : Byte) (mask : LaneMask) : TrapInfo := ⟨cause, sub, mask, 0#64, 0#64, 0⟩

/-! ## The check of one access (R197 steps 9 to 11, R198, R214) -/

/-- What the freeze check asks of an access. -/
inductive FreezeRule where
  /-- A write faults on a frozen byte (R273). -/
  | mustThaw
  /-- A read faults on a byte that is not frozen (R285). -/
  | mustFreeze
  | none
  deriving DecidableEq, Repr

/-- The outcome for one access: the physical place, a cause with its rank in R197's order, or a wait on a bias transition
or on a thaw (R214, R277). -/
inductive Check where
  | ok (p : Place)
  | bad (rank : Nat) (cause sub : Byte) (addr : DWord) (aux : DWord)
  | wait (rank : Nat) (w : Wait)
  deriving DecidableEq, Repr

/-- The rank of an outcome: less comes first. -/
def Check.rank : Check → Nat
  | .ok _ => 100
  | .bad r _ _ _ _ => r
  | .wait r _ => r

/-- Two accesses wait together: on every thawing entry, or every page in transition, of both. -/
def Wait.join : Wait → Wait → Wait
  | .thaw a, .thaw b => .thaw (b.foldl (fun t e => if t.contains e then t else t ++ [e]) a)
  | .bias a, .bias b => .bias (a ++ b)
  | w, _ => w

/-- Bytes of an access that meet a test, lowest first. -/
def firstByte (n : Nat) (p : Nat → Bool) : Option Nat := (List.range n).find? p

/-- Check one aligned-size access of `n` bytes, of which no byte leaves its page (R198). `spec` is a speculative
launch, whose writes and freezes trap `PRIV` (R375). -/
def checkAccess (s : State) (c : Context) (spec : Bool) (acc : Access) (fr : FreezeRule) (align n : Nat) (va : DWord) : Check :=
  let code := BitVec.ofNat 8 acc.code
  if va.toNat % align != 0 then .bad 9 cAlign 0#8 va 0#64
  else match place s c va with
  | .inr mal =>
    .bad 10 cPageAbsent (code ||| (if 2 ^ 56 ≤ va.toNat then 8#8 else if mal then 16#8 else 0#8)) va 0#64
  | .inl p =>
    if (acc.writes && p.leaf.fw) || (spec && (acc.writes || acc == .freeze)) then .bad 11 cPriv 0#8 va 0#64
    else if (acc.reads && !p.leaf.rp) || (acc.writes && !p.leaf.wp) || (acc == .fetch && !p.leaf.xp) then
      .bad 12 cPageProt code va 0#64
    else if p.leaf.bh then .bad 13 cBias code va 0#64
    else if p.leaf.bt then .wait 14 (.bias [va.toNat])
    else match fr with
      | .none => .ok p
      | .mustFreeze =>
        match firstByte n (fun i => !s.isFrozen (p.pa + i)) with
        | some i => .bad 15 cNotFrozen 0#8 (va + BitVec.ofNat 64 i) 0#64
        | none => .ok p
      | .mustThaw =>
        match firstByte n (fun i => s.isFrozen (p.pa + i)) with
        | some i =>
          let h := match s.frozenBy (p.pa + i) with
            | some e => handleOf e.2.1 e.2.2.gen
            | none => 0#32
          .bad 15 cFrozenWrite code (va + BitVec.ofNat 64 i) (h.setWidth 64)
        | none =>
          if (List.range n).any (fun i => s.isThawing (p.pa + i)) then
            .wait 16 (.thaw (((List.range n).flatMap (fun i => s.thawsOver (p.pa + i))).eraseDups))
          else .ok p

/-- The checks of every lane of a mask put together: places in lane order, or the first cause of R197 that any lane
meets with its lanes and the lowest lane's address, or a wait. -/
inductive Checked where
  | ok (ps : Fin 32 → Place)
  | trap (t : TrapInfo)
  /-- On a bias transition, or on thawing entries. -/
  | wait (w : Wait)

/-- The least rank among lanes. -/
def leastRank (m : LaneMask) (f : Fin 32 → Check) : Nat := (lanesIn m).foldl (fun r l => min r (f l).rank) 100

/-- A place for lanes that have none. -/
def Place.none : Place :=
  ⟨0, { base := 0, size := 1, rp := false, wp := false, xp := false, fw := false, ca := false, rad := false
        bh := false, bt := false, sm := 0#2, ps := 0#8 }⟩

/-- R197: the lowest-ranked cause, the mask of every lane that meets it, the lowest such lane's fields. -/
def gather (m : LaneMask) (f : Fin 32 → Check) : Checked :=
  let r := leastRank m f
  match (lanesIn m).find? (fun l => (f l).rank == r) with
  | none => .ok (fun _ => Place.none)
  | some l0 => match f l0 with
    | .bad _ cause sub addr aux =>
      .trap ⟨cause, sub, m &&& maskOf (fun l => (f l).rank == r), addr, aux, 0⟩
    | .wait _ w => .wait ((lanesIn m).foldl (fun a l => match f l with
      | .wait q v => if q = r then a.join v else a
      | _ => a) w)
    | .ok _ => .ok (fun l => match f l with
      | .ok p => p
      | _ => Place.none)

end Sys2Proof.Machine
end

