-- ==== Sys2Proof/Machine/Cache.lean ====
section
/-! DEFINITION. Where a byte lives and who holds a copy of it: home slices (R258), L1 and registrations (R264 to R266),
leases and outstanding writes (R267 to R270), die copies, writer hints (R294), poison of granules (R218), and the
loads and stores of global memory over them. Canopy, peer forwarding and compression change no value and are not here (R259).
-/

namespace Sys2Proof.Machine

/-- Who performs a write: for the waits of a release and of a launch's end (R269, R329). -/
structure Writer where
  core : Fin 256
  group : Nat
  launch : Nat
  redg : Bool
  deriving DecidableEq, Repr

def Here.writer (h : Here) : Writer := ⟨h.r.core, h.g.uid, h.g.launch, false⟩

/-- A core's die (R12). -/
def dieOf (c : Fin 256) : Fin 4 := ⟨c.val / 64, by omega⟩

/-- A core's view of global time (R267). -/
def State.timeAt (s : State) (c : Fin 256) : Nat := (Int.ofNat s.now + (s.core c).skew).toNat

/-- The other device as an agent. -/
def otherDevice : Nat := 512

/-- An agent by number: cores, from 256 on the canopy slices, 512 another device, whose view is the reference (log 28). -/
def State.agent (s : State) (a : Nat) : Slice :=
  if h : a < 256 then ⟨(s.core ⟨a, h⟩).inSync, (s.core ⟨a, h⟩).skew⟩
  else if h : a - 256 < 256 then s.slices[a - 256]
  else ⟨true, 0⟩

/-- An agent's view of global time (R267). -/
def State.agentTime (s : State) (a : Nat) : Nat := (Int.ofNat s.now + (s.agent a).skew).toNat

/-- The slice number that a page's mode gives a line (R258): the pinned slice, or the hash's. -/
def homeSlice (l : Leaf) (pa : Nat) : Nat := if l.sm = 2#2 then l.ps.toNat else (Config.hallSlice (pa / 128)).val

/-- The die of a line's home slice. -/
def homeDie (l : Leaf) (pa : Nat) : Nat := homeSlice l pa / 64

/-- The agent that is a line's home: its slice, or the other device's (R256, R258). -/
def homeAgent (p : Place) : Nat := if isRemote p.pa then otherDevice else 256 + homeSlice p.leaf p.pa

/-- The line's home slice is on the core's die: stores enter L1 (R264, R266). -/
def nearHome (c : Fin 256) (p : Place) : Bool :=
  p.leaf.ca && !isRemote p.pa && decide (homeDie p.leaf p.pa = (dieOf c).val)

def lineOf (pa : Nat) : Nat := pa / 128

/-! ## Reads -/

/-- The byte that a core holds registered (R265). -/
def State.heldByte (s : State) (pa : Nat) : Option Byte := match tableFind s.registered pa with
  | none => none
  | some c => match tableFind (s.core c).l1 pa with
    | some (.dirty v) => some v
    | _ => none

/-- What a frozen byte that the device has written since held at its freeze point (R327). -/
def State.keptByte (s : State) (pa : Nat) : Option Byte := match tableFind s.kept pa with
  | some b => if s.isFrozen pa then some b else none
  | none => none

/-- The byte that stands at its home: a registrant's, or memory's (R265). -/
def rawByte (s : State) (pa : Nat) : Byte := (s.heldByte pa).getD (s.memGet pa)

/-- The byte that a read finds at its home: that, but of a frozen byte the contents of its freeze point (R265, R327). -/
def homeByte (s : State) (pa : Nat) : Byte := (s.heldByte pa).getD ((s.keptByte pa).getD (s.memGet pa))

/-- An agent may use a leased copy while it is in sync and its time is below the expiry (R268, R270). -/
def leaseGood (s : State) (a : Nat) : Option Nat → Bool
  | none => true
  | some e => (s.agent a).inSync && decide (s.agentTime a < e)

/-- Which slices of the package may hold a copy of a place's line for a core: its die's, of an `HDIE` line that is homed on another
die, or a slice for another device's line (R258, R268). -/
def copyTable (c : Fin 256) (p : Place) : Option (Fin 5) :=
  if !p.leaf.ca then none
  else if isRemote p.pa then some 4
  else if p.leaf.sm = 1#2 && homeDie p.leaf p.pa ≠ (dieOf c).val then some (dieOf c).castSucc
  else none

/-- The slice that holds the copies of a line: the die's, by a hash, or the one that the page's mode gives (R258). -/
def copySlice (p : Place) (t : Fin 5) : Nat :=
  if t = 4 then 256 + homeSlice p.leaf p.pa else 256 + 64 * t.val + (Config.dieSlice (p.pa / 128)).val

/-- The slice's copy of a byte that a core may read: the slice may use it, and it is not older than the core's last acquire
(R258, R268, R270, R325). -/
def sliceCopy (s : State) (c : Fin 256) (p : Place) (pa : Nat) : Option SliceByte :=
  match copyTable c p with
  | none => none
  | some t => match tableFind s.sliceCopies[t] pa with
    | some v => if leaseGood s (copySlice p t) (some v.expiry) && decide ((s.core c).bar ≤ v.stamp) then some v else none
    | none => none

/-- A lane load's byte (R264, R268, R325). -/
def loadByte (s : State) (c : Fin 256) (p : Place) (pa : Nat) : Byte :=
  if !p.leaf.ca then homeByte s pa else
  let beyond := match sliceCopy s c p pa with
    | some v => v.val
    | none => homeByte s pa
  match tableFind (s.core c).l1 pa with
  | some (.dirty v) => v
  | some (.clean v e) => if leaseGood s c.val e then v else beyond
  | none => beyond

/-- `n` bytes of a lane load. -/
def loadBytes (s : State) (c : Fin 256) (p : Place) (n : Nat) : List Byte :=
  (List.range n).map (fun i => loadByte s c p (p.pa + i))

/-- Bytes as a little-endian word (R4). -/
def wordOf (bs : List Byte) : Word := BitVec.ofNat 32 (leNat bs)

/-! ## Grants and fills -/

/-- A write to the line has been applied and is not complete: no grant is made (R269). -/
def State.writing (s : State) (line : Nat) : Bool := s.writes.any (fun w => w.line == line)

/-- A publish of a buffer that holds the line keeps grants back: it has made its release (R310). -/
def State.grantsStopped (s : State) (line : Nat) : Bool :=
  s.contexts.any (fun c => c.buffers.any (fun b =>
    b.2.stopped && decide (b.2.live ≤ line * 128) && decide (line * 128 < b.2.live + b.2.size)))

/-- LEASE's fields (R268). -/
def State.l1Lease (s : State) : Nat := (s.lease.extractLsb' 0 20).toNat
def State.sliceLease (s : State) : Nat := (s.lease.extractLsb' 32 20).toNat

/-- A lease of a length that a line's home grants an agent now, in its own time: its expiry, or nothing (R268 to R270). The length of a lease on
another device's line is by this package's own LEASE (log 28). -/
def State.grantable (s : State) (p : Place) (holder len : Nat) : Option Nat :=
  if len = 0 || !(s.agent holder).inSync || s.writing (lineOf p.pa) || s.grantsStopped (lineOf p.pa) then none
  else some (s.agentTime (homeAgent p) + len)

/-- Fill the copy that a slice holds of a place's line for a core (R258, R268). -/
def fillSlice (s : State) (c : Fin 256) (p : Place) : State :=
  match copyTable c p with
  | none => s
  | some t => if (sliceCopy s c p p.pa).isSome then s else match s.grantable p (copySlice p t) s.sliceLease with
    | none => s
    | some e =>
      let lo := lineOf p.pa * 128
      let bytes := (List.range 128).foldl (fun l i => tablePut l (lo + i) ⟨homeByte s (lo + i), e, s.fresh⟩) s.sliceCopies[t]
      { s with sliceCopies := s.sliceCopies.set t bytes
               grants := ⟨lineOf p.pa, homeAgent p, copySlice p t, e⟩ :: s.grants }

/-- Whether and under what lease the core's L1 keeps a line it fetches (R264, R268). -/
def fillExpiry (s : State) (c : Fin 256) (p : Place) : Option (Option Nat) :=
  if !p.leaf.ca then none
  else if nearHome c p then some none
  else match s.grantable p c.val s.l1Lease with
    | none => none
    | some e => match sliceCopy s c p p.pa with
      | some v => some (some (min e v.expiry))
      | none => some (some e)

/-- Fill a line into L1 after a miss of some byte: bytes held dirty or good stay (R264). -/
def fillLine (s : State) (c : Fin 256) (p : Place) : State :=
  let line := lineOf p.pa
  let s1 := fillSlice s c p
  match fillExpiry s1 c p with
  | none => s1
  | some e =>
    let k := s1.core c
    let add (l1 : List (Nat × CacheByte)) (i : Nat) : List (Nat × CacheByte) :=
      let pa := line * 128 + i
      match tableFind l1 pa with
      | some (.dirty _) => l1
      | some (.clean _ e0) => if leaseGood s1 c.val e0 then l1 else tablePut l1 pa (.clean (loadByte s1 c p pa) e)
      | none => tablePut l1 pa (.clean (loadByte s1 c p pa) e)
    let s2 := s1.setCore c { k with l1 := (List.range 128).foldl add k.l1 }
    match e with
    | none => s2
    | some x => { s2 with grants := ⟨line, homeAgent p, c.val, x⟩ :: s2.grants }

/-- L1 holds every byte of an access good. -/
def l1Holds (s : State) (c : Fin 256) (pa n : Nat) : Bool :=
  (List.range n).all (fun i => match tableFind (s.core c).l1 (pa + i) with
    | some (.dirty _) => true
    | some (.clean _ e) => leaseGood s c.val e
    | none => false)

/-- After a load of `n` bytes: fill what missed. -/
def afterLoad (s : State) (c : Fin 256) (p : Place) (n : Nat) : State :=
  if p.leaf.ca && !l1Holds s c p.pa n then fillLine s c p else s

/-! ## Writes -/

/-- A core's L1 lets a byte go, and with it the clean bytes of its word, so that no load mixes bytes of two ages (R321). -/
def letGo (l1 : List (Nat × CacheByte)) (pa : Nat) : List (Nat × CacheByte) :=
  l1.filter (fun e => e.1 != pa && (e.1 / 4 != pa / 4 || (match e.2 with
    | .dirty _ => true
    | .clean _ _ => false)))

/-- Drop a byte from a core's L1. -/
def State.dropL1 (s : State) (c : Fin 256) (pa : Nat) : State :=
  let k := s.core c
  s.setCore c { k with l1 := letGo k.l1 pa }

/-- Recall a byte's registration: its value goes home and the registrant lets it go (R265, R266). -/
def recallByte (s : State) (pa : Nat) : State :=
  match tableFind s.registered pa with
  | none => s
  | some c =>
    let s1 := match s.heldByte pa with
      | some v => s.memSet pa v
      | none => s
    { s1 with registered := tableDel s1.registered pa }.dropL1 c pa

/-- A grant is outstanding until its home's time reaches its expiry and the guard band (R269). -/
def State.stands (s : State) (g : Grant) : Bool := decide (s.agentTime g.home < g.expiry + Config.guardNs)

/-- The latest expiry among the line's outstanding grants, with the home whose time it is (R269). -/
def emaxOf (s : State) (line : Nat) : Option (Nat × Nat) :=
  (s.grants.filter (fun g => g.line == line && s.stands g)).foldl (fun m g => match m with
    | none => some (g.expiry, g.home)
    | some x => some (if x.1 < g.expiry then (g.expiry, g.home) else x)) none

/-- A write of a line has been applied at its home: it is complete at once, or outstanding until E_max + G (R269). -/
def noteWrite (s : State) (w : Writer) (line : Nat) : State :=
  match emaxOf s line with
  | none => s
  | some e =>
    { s with writes := { id := s.fresh, core := w.core, group := w.group, launch := w.launch, line := line, emax := e.1, home := e.2, redg := w.redg } :: s.writes
             fresh := s.fresh + 1 }

/-- Add the core to the line's writer hint (R294). -/
def State.hint (s : State) (c : Fin 256) (line : Nat) : State :=
  if s.hints.any (fun x => x.1 == line && x.2 == c.val) then s else { s with hints := (line, c.val) :: s.hints }

/-- The slices that a core reads copies through let a byte's word go (R321). -/
def State.dropCopies (s : State) (c : Fin 256) (pa : Nat) : State :=
  let drop (t : Fin 5) : List (Nat × SliceByte) := s.sliceCopies[t].filter (fun e => e.1 / 4 != pa / 4)
  { s with sliceCopies := (s.sliceCopies.set (dieOf c).castSucc (drop (dieOf c).castSucc)).set 4 (drop 4) }

/-- Write one byte at its home (R266): the registration is recalled, the writer's own copy is dropped, and those of the slices it
reads through, so that the writer reads no older byte (R321). -/
def homeSetByte (s : State) (c : Fin 256) (pa : Nat) (b : Byte) : State :=
  (((recallByte s pa).memSet pa b).dropL1 c pa).dropCopies c pa

/-- Write bytes through to the home (R266). -/
def homeWrite (s : State) (w : Writer) (pa : Nat) (bs : List Byte) : State :=
  let s1 := (List.range bs.length).foldl (fun s i => homeSetByte s w.core (pa + i) (bs.getD i 0#8)) s
  noteWrite (s1.hint w.core (lineOf pa)) w (lineOf pa)

/-- The core holds a byte of an access registered, so that its home answers with the core's bytes (R265). -/
def holdsRegistered (s : State) (c : Fin 256) (pa n : Nat) : Bool := (List.range n).any (fun i => tableFind s.registered (pa + i) == some c)

/-- A store of bytes that stay in one line: into L1 as dirty bytes, or through to the home (R264, R266). Where the core holds a byte
registered the store is applied at the home with it, and may be outstanding (R269). -/
def storeBytes (s : State) (w : Writer) (p : Place) (bs : List Byte) : State :=
  if nearHome w.core p then
    let k := s.core w.core
    let l1 := (List.range bs.length).foldl (fun t i => tablePut t (p.pa + i) (CacheByte.dirty (bs.getD i 0#8))) k.l1
    let s1 := (s.setCore w.core { k with l1 := l1 }).hint w.core (lineOf p.pa)
    if holdsRegistered s w.core p.pa bs.length then noteWrite s1 w (lineOf p.pa) else s1
  else homeWrite s w p.pa bs

/-- Register one dirty byte of a core at its home, moving another core's registration (R264, R265). -/
def registerByte (s : State) (c : Fin 256) (pa : Nat) : State :=
  match tableFind (s.core c).l1 pa with
  | some (.dirty _) =>
    if tableFind s.registered pa = some c then s
    else
      let s1 := recallByte s pa
      { s1 with registered := tablePut s1.registered pa c }
  | _ => s

/-- The addresses of a core's dirty bytes not yet registered. -/
def unregistered (s : State) (c : Fin 256) : List Nat :=
  (s.core c).l1.filterMap (fun e => match e.2 with
    | .dirty _ => if tableFind s.registered e.1 = some c then none else some e.1
    | .clean _ _ => none)

/-- Lines of a list of bytes, each once. -/
def linesOf (l : List Nat) : List Nat := l.foldl (fun t a => setAdd t (lineOf a)) []

/-- Register bytes; each line's write takes its place in the line's order and may be outstanding (R264, R269). -/
def registerBytes (s : State) (w : Writer) (l : List Nat) : State :=
  let todo := l.filter (fun a => match tableFind (s.core w.core).l1 a with
    | some (.dirty _) => tableFind s.registered a != some w.core
    | _ => false)
  let s1 := todo.foldl (fun s a => registerByte s w.core a) s
  (linesOf todo).foldl (fun s line => noteWrite s w line) s1

/-- A release at `.die` or wider registers every dirty byte of the core (R264). -/
def registerAll (s : State) (w : Writer) : State := registerBytes s w (unregistered s w.core)

/-- Self-invalidation: every clean byte of the core's L1 is dropped (R264), and copies that slices hold by now are not read by
the core any more (R325). -/
def selfInvalidate (s : State) (c : Fin 256) : State :=
  let k := s.core c
  { s.setCore c { k with bar := s.fresh + 1, l1 := k.l1.filter (fun e => match e.2 with
    | .dirty _ => true
    | .clean _ _ => false) } with fresh := s.fresh + 1 }

/-- A word that a group has read at its home is read no older by its later loads (R321): the core's clean bytes of it
and the slices' copies of it are let go. -/
def forgetWord (s : State) (c : Fin 256) (pa : Nat) : State :=
  [pa, pa + 1, pa + 2, pa + 3].foldl (fun s a =>
    let s1 := match tableFind (s.core c).l1 a with
      | some (.clean _ _) => s.dropL1 c a
      | _ => s
    s1.dropCopies c a) s

/-- The word at its home, read by a uniform load after the core's own dirty bytes of it are registered (R324). -/
def uniformWord (s : State) (w : Writer) (p : Place) : State × Word :=
  let s1 := if p.leaf.ca then registerBytes s w [p.pa, p.pa + 1, p.pa + 2, p.pa + 3] else s
  (forgetWord s1 w.core p.pa, wordOf ((List.range 4).map (fun i => homeByte s1 (p.pa + i))))

/-- The addresses of a word's bytes. -/
def wordBytes (pa : Nat) : List Nat := [pa, pa + 1, pa + 2, pa + 3]

/-- Recall every registration of a word and read it at its home (R266). -/
def recallWord (s : State) (pa : Nat) : State × Word :=
  let s1 := (wordBytes pa).foldl (fun s a => recallByte s a) s
  (s1, wordOf ((wordBytes pa).map (homeByte s1)))

/-- An atomic operation on a word at its home, in one indivisible step: own dirty bytes register, every registration is
recalled, then the new word is written when there is one (R266, R292). -/
def atomicWord (s : State) (w : Writer) (pa : Nat) (f : Word → Option Word) : State × Word :=
  let r := recallWord (registerBytes s w (wordBytes pa)) pa
  match f r.2 with
  | none => (forgetWord r.1 w.core pa, r.2)
  | some x => (forgetWord (homeWrite r.1 w pa (toLe x.toNat 4)) w.core pa, r.2)

/-- An operation sent before is applied to a word at its home: every registration is recalled, and the new word written. What its sender
has stored since and not registered stays in its L1: it comes later (R266, R291). -/
def atomicHome (s : State) (w : Writer) (pa : Nat) (f : Word → Word) : State :=
  let r := recallWord s pa
  let new := toLe (f r.2).toNat 4
  let s1 := (List.range 4).foldl (fun s i => s.memSet (pa + i) (new.getD i 0#8)) r.1
  forgetWord (noteWrite (s1.hint w.core (lineOf pa)) w (lineOf pa)) w.core pa

/-- The dirty bytes of a core's L1 that meet a test. -/
def dirtyWhere (s : State) (c : Fin 256) (p : Nat → Bool) : List Nat :=
  (s.core c).l1.filterMap (fun e => match e.2 with
    | .dirty _ => if p e.1 then some e.1 else none
    | .clean _ _ => none)

/-- A core has written lines back: it leaves their writer hints (R294). While it holds other dirty bytes not yet registered, which may
be older than what it has written back, a promotion for those lines asks it still (R295; log 51). -/
def leaveHints (s : State) (c : Fin 256) (lines : List Nat) : State :=
  { s with
    hints := s.hints.filter (fun x => !(x.2 == c.val && lines.contains x.1))
    owing := if (unregistered s c).isEmpty then s.owing
      else lines.foldl (fun o l => if o.contains (l, c.val) then o else (l, c.val) :: o) s.owing }

/-- Dirty bytes of a core are registered, written back, and let go (R264). -/
def writeBack (s : State) (c : Fin 256) (dirty : List Nat) : State :=
  leaveHints (dirty.foldl (fun s a => recallByte s a) (registerBytes s ⟨c, 0, 0, false⟩ dirty)) c (linesOf dirty)

/-- Evict a line from a core's L1: its dirty bytes are written back, and the registrations and the lease end (R264). -/
def evictLine (s : State) (c : Fin 256) (line : Nat) : State :=
  let s1 := writeBack s c (dirtyWhere s c (fun a => lineOf a == line))
  let k := s1.core c
  { s1.setCore c { k with l1 := k.l1.filter (fun e => lineOf e.1 != line) } with
    grants := s1.grants.filter (fun g => !(g.line == line && g.holder == c.val)) }

/-! ## Poison of memory granules (R218) -/

def State.poisoned (s : State) (pa n : Nat) : Bool :=
  (List.range n).any (fun i => setHas s.poison ((pa + i) / 32))

/-- The granules of a set of written bytes: cleared where all 32 are written, and poisoned where the data is. -/
def notePoison (s : State) (written bad : List Nat) : State :=
  let gs := written.foldl (fun t a => setAdd t (a / 32)) []
  let whole := gs.filter (fun g => (List.range 32).all (fun i => written.any (· == 32 * g + i)))
  let cleared := s.poison.filter (fun g => !setHas whole g)
  { s with poison := bad.foldl (fun t a => setAdd t (a / 32)) cleared }

/-- As `notePoison`, when there is anything to note. -/
def settlePoison (s : State) (written bad : List Nat) : State :=
  if s.poison.isEmpty && bad.isEmpty then s else notePoison s written bad

/-! ## Accesses under way -/

/-- A byte of a range. -/
def inRange (lo n a : Nat) : Bool := decide (lo ≤ a) && decide (a < lo + n)

/-- Some fragment of the package meets a test. -/
def State.anyFrag (s : State) (p : Frag → Bool) : Bool :=
  s.cores.toList.any (fun k => k.slots.toList.any (fun o => match o with
    | some g => g.frags.toList.any (fun q => q.any p)
    | none => false))

/-- An access that has passed its checks goes to some bytes. -/
def Passed.touches (a : Passed) (p : Nat → Bool) : Bool := (List.range a.bytes).any (fun i => p (a.place.pa + i))

/-- An instruction has made its checks for some bytes and has still to perform its accesses: a write held on a thaw (R277), a `RELS` or
a `TSUB` at its release work (R296, R373), an `ACQR` at its promotions (R295), an atomic some of whose lanes are done (log 49). -/
def accessPending (s : State) (p : Nat → Bool) : Bool := s.anyFrag (fun f => f.passed.any (fun a => a.touches p))

/-- The same of an atomic or exchange some of whose lanes have been performed (log 49). -/
def aheadPending (s : State) (p : Nat → Bool) : Bool := s.anyFrag (fun f => !f.ahead.isEmpty && f.passed.any (fun a => a.touches p))

/-! ## Memory as the firmware and copies reach it -/

/-- Bytes read at their homes. -/
def homeBytes (s : State) (pa n : Nat) : List Byte := (List.range n).map (fun i => homeByte s (pa + i))

/-- Bytes as they stand at their homes: the device's own view of its memory. -/
def rawBytes (s : State) (pa n : Nat) : List Byte := (List.range n).map (fun i => rawByte s (pa + i))

/-- What is kept of a byte when the device writes it: if it is frozen, what reads return (R327). -/
def State.keep (s : State) (pa : Nat) : List (Nat × Byte) :=
  if s.isFrozen pa && (tableFind s.kept pa).isNone then tablePut s.kept pa (s.memGet pa) else s.kept

/-- What bytes held is kept no longer when they are not frozen any more. -/
def State.dropKept (s : State) : State := { s with kept := s.kept.filter (fun e => s.isFrozen e.1) }

/-- The device writes one byte at its home. -/
def fwSetByte (s : State) (pa : Nat) (b : Byte) : State :=
  let s1 := recallByte s pa
  { s1.memSet pa b with kept := s1.keep pa }

/-- The device leaves a byte open. -/
def fwFreeByte (s : State) (pa : Nat) : State := { s.memFree pa with kept := s.keep pa }

/-- The device's writes to some bytes have been applied at their homes (R269). -/
def noteDevice (s : State) (pas : List Nat) : State := (linesOf pas).foldl (fun s l => noteWrite s ⟨0, 0, 0, false⟩ l) s

/-- The device's own writes to its memory: frames, rings, journals, task blocks, leap slots. A granule that is written whole is poisoned no
more (R218), and the write of a line may be outstanding (R269). No check is made of a byte that is frozen or thawing: R273's paths name
none of these writes (log 50). -/
def fwWrite (s : State) (pa : Nat) (bs : List Byte) : State :=
  let written := (List.range bs.length).map (fun i => pa + i)
  settlePoison (noteDevice ((List.range bs.length).foldl (fun s i => fwSetByte s (pa + i) (bs.getD i 0#8)) s) written) written []

/-- A firmware number of `n` bytes. -/
def fwRead (s : State) (pa n : Nat) : Nat := leNat (rawBytes s pa n)

end Sys2Proof.Machine
end

