-- ==== Sys2Proof/Machine/Message.lean ====
section
/-! DEFINITION. Command messages as bytes (R4, R412, R414, R416): each command's header and code, its argument bytes and their
reading back, the digest over them (R418), and the bytes of a response. The order of the fields of R416 is the spec's, their widths
are the model's (log 37).
-/

namespace Sys2Proof.Machine

/-- The most bytes of a message, header and arguments together (R412). -/
def messageMax : Nat := 2 ^ 20 + 64

/-- The header fields and the code of a command (R414, R416). -/
def commandOf : Instr → Option (CmdHdr × Nat)
  | .ctxCreate h _ => some (h, 0x01)
  | .ctxDestroy h _ => some (h, 0x02)
  | .map h _ => some (h, 0x03)
  | .mapShadow h _ _ _ => some (h, 0x03)
  | .mapRemoteWindow h _ _ => some (h, 0x03)
  | .unmap h _ _ => some (h, 0x04)
  | .unmapShadow h _ _ => some (h, 0x04)
  | .read h _ _ => some (h, 0x05)
  | .write h _ _ => some (h, 0x06)
  | .moduleLoad h _ _ _ => some (h, 0x07)
  | .launch h _ _ _ _ => some (h, 0x08)
  | .taskSubmit h _ => some (h, 0x09)
  | .preemptRequest h => some (h, 0x0A)
  | .preemptHalt h => some (h, 0x0A)
  | .preemptResumeHalt h => some (h, 0x0A)
  | .preemptResumePark h => some (h, 0x0A)
  | .journalRead h _ _ => some (h, 0x0B)
  | .leapRead h _ => some (h, 0x0C)
  | .leapWrite h _ _ _ => some (h, 0x0D)
  | .leapPin h _ => some (h, 0x0E)
  | .leapUnpin h _ => some (h, 0x0E)
  | .leapDiscard h _ => some (h, 0x0F)
  | .setLease h _ => some (h, 0x10)
  | .biasSet h _ _ _ => some (h, 0x11)
  | .attest h _ => some (h, 0x12)
  | .fwInfo x => some (x.hdr, 0x13)
  | _ => none

/-! ## Argument bytes (R416; log 37) -/

/-- A flag as a byte. -/
def flagByte (b : Bool) : List Byte := if b then [1#8] else [0#8]

/-- The fields of a `MAP` without its option. -/
def mapFields (a : MapArgs) : List Byte :=
  toLe a.va 8 ++ toLe a.pa 8 ++ toLe a.size 8 ++ toLe a.pageSize 8 ++ flagByte a.rp ++ flagByte a.wp ++ flagByte a.xp ++
  flagByte a.ca ++ flagByte a.rad ++ toLe a.sm.toNat 1 ++ [a.ps]

/-- The argument bytes of a command. -/
def cmdArgs : Instr → List Byte
  | .ctxCreate _ a => toLe a.firstQueue 4 ++ toLe a.queueCount 4 ++ toLe a.prioLimit 1 ++ toLe a.sliceNs 8 ++ toLe a.deadlineNs 8 ++
      toLe a.samplePeriod 4 ++ toLe a.ringLog2 1 ++ toLe a.threshold 1 ++ toLe a.journalLog2 1
  | .ctxDestroy _ c => toLe c 4
  | .map _ a => [0#8] ++ mapFields a
  | .mapShadow _ a n pa => [1#8] ++ mapFields a ++ toLe n 4 ++ toLe pa 8
  | .mapRemoteWindow _ a w => [2#8] ++ mapFields a ++ toLe w.index 4 ++ toLe w.device.toNat 4
  | .unmap _ va n => [0#8] ++ toLe va 8 ++ toLe n 8
  | .unmapShadow _ va n => [1#8] ++ toLe va 8 ++ toLe n 8
  | .read _ va n => toLe va 8 ++ toLe n 4
  | .write _ va bs => toLe va 8 ++ bs
  | .moduleLoad _ va n addrs => toLe va 8 ++ toLe n 8 ++ addrs.flatMap (fun p => toLe p.1 8 ++ toLe p.2 8)
  | .launch _ m b g args => toLe m 4 ++ toLe b 4 ++ toLe g 4 ++ args.flatMap (fun v => toLe v.toNat 8)
  | .taskSubmit _ va => toLe va 8
  | .preemptRequest _ => [0#8]
  | .preemptHalt _ => [1#8]
  | .preemptResumeHalt _ => [2#8]
  | .preemptResumePark _ => [3#8]
  | .journalRead _ f n => toLe f 8 ++ toLe n 4
  | .leapRead _ i => toLe i.toNat 16
  | .leapWrite _ i a body => toLe i.toNat 16 ++ [a.flags, a.windowArg, a.reserved] ++ toLe a.windowLow.toNat 8 ++
      toLe a.windowHigh.toNat 8 ++ toLe a.budget.toNat 4 ++ toLe a.bodyLen.toNat 4 ++ body
  | .leapPin _ i => toLe i.toNat 16 ++ [1#8]
  | .leapUnpin _ i => toLe i.toNat 16 ++ [0#8]
  | .leapDiscard _ i => toLe i.toNat 16
  | .setLease _ v => toLe v.toNat 8
  | .biasSet _ va n host => toLe va 8 ++ toLe n 8 ++ flagByte host
  | .attest _ n => toLe n.toNat 32
  | .fwInfo x => toLe x.ctx 4
  | _ => []

/-- The digest of a command's arguments: the first 16 bytes of SHA-512 over them (R418), as a number. -/
def argDigest (i : Instr) : Nat := leNat ((sha512 (cmdArgs i)).take 16)

/-! ## Reading a message -/

/-- The number in n bytes of a message. -/
def msgNat (b : List Byte) (off n : Nat) : Nat := leNat ((b.drop off).take n)

/-- A flag byte: 0 or 1. -/
def msgFlag (b : List Byte) (off : Nat) : Option Bool :=
  if msgNat b off 1 = 0 then some false else if msgNat b off 1 = 1 then some true else none

/-- The fields of a `MAP`. -/
def msgMap (b : List Byte) : Option MapArgs :=
  match msgFlag b 33, msgFlag b 34, msgFlag b 35, msgFlag b 36, msgFlag b 37 with
  | some rp, some wp, some xp, some ca, some rad =>
    if msgNat b 38 1 < 4 then
      some ⟨msgNat b 1 8, msgNat b 9 8, msgNat b 17 8, msgNat b 25 8, rp, wp, xp, ca, rad, BitVec.ofNat 2 (msgNat b 38 1), BitVec.ofNat 8 (msgNat b 39 1)⟩
    else none
  | _, _, _, _, _ => none

/-- n doublewords of a message, from an offset on. -/
def msgWords (b : List Byte) (off : Nat) : Nat → List Nat
  | 0 => []
  | n + 1 => msgNat b off 8 :: msgWords b (off + 8) n

/-- Neighbours as pairs. -/
def pairUp : List Nat → List (Nat × Nat)
  | x :: y :: rest => (x, y) :: pairUp rest
  | _ => []

/-- The commands without a pair of option bytes, 0x05 to 0x0C. -/
def parseMiddle (h : CmdHdr) (code : Nat) (b : List Byte) : Option Instr :=
  let f := msgNat b
  let n := b.length
  if code = 0x05 then (if n = 12 then some (.read h (f 0 8) (f 8 4)) else none)
  else if code = 0x06 then (if 8 ≤ n then some (.write h (f 0 8) (b.drop 8)) else none)
  else if code = 0x07 then
    (if 16 ≤ n ∧ n % 16 = 0 then some (.moduleLoad h (f 0 8) (f 8 8) (pairUp (msgWords b 16 ((n - 16) / 8)))) else none)
  else if code = 0x08 then
    (if 12 ≤ n ∧ (n - 12) % 8 = 0 then
      some (.launch h (f 0 4) (f 4 4) (f 8 4) ((msgWords b 12 ((n - 12) / 8)).map (fun v => BitVec.ofNat 64 v)))
    else none)
  else if code = 0x09 then (if n = 8 then some (.taskSubmit h (f 0 8)) else none)
  else if code = 0x0A then
    (if n ≠ 1 then none
    else if f 0 1 = 0 then some (.preemptRequest h)
    else if f 0 1 = 1 then some (.preemptHalt h)
    else if f 0 1 = 2 then some (.preemptResumeHalt h)
    else if f 0 1 = 3 then some (.preemptResumePark h)
    else none)
  else if code = 0x0B then (if n = 12 then some (.journalRead h (f 0 8) (f 8 4)) else none)
  else if code = 0x0C then (if n = 16 then some (.leapRead h (BitVec.ofNat 128 (f 0 16))) else none)
  else none

/-- The command of a header, a code and argument bytes: none where they are malformed, or no command has the code (R416). -/
def parseCmd (h : CmdHdr) (code : Nat) (b : List Byte) : Option Instr :=
  let f := msgNat b
  let n := b.length
  if code = 0x01 then
    (if n = 32 then some (.ctxCreate h ⟨f 0 4, f 4 4, f 8 1, f 9 8, f 17 8, f 25 4, f 29 1, f 30 1, f 31 1⟩) else none)
  else if code = 0x02 then (if n = 4 then some (.ctxDestroy h (f 0 4)) else none)
  else if code = 0x03 then
    (if n = 40 ∧ f 0 1 = 0 then (msgMap b).map (fun a => .map h a)
    else if n = 52 ∧ f 0 1 = 1 then (msgMap b).map (fun a => .mapShadow h a (f 40 4) (f 44 8))
    else if n = 48 ∧ f 0 1 = 2 ∧ f 44 4 < 2 ^ 22 then (msgMap b).map (fun a => .mapRemoteWindow h a ⟨f 40 4, BitVec.ofNat 22 (f 44 4)⟩)
    else none)
  else if code = 0x04 then
    (if n ≠ 17 then none
    else if f 0 1 = 0 then some (.unmap h (f 1 8) (f 9 8))
    else if f 0 1 = 1 then some (.unmapShadow h (f 1 8) (f 9 8))
    else none)
  else if code < 0x0D then parseMiddle h code b
  else if code = 0x0D then
    (if 43 ≤ n then
      some (.leapWrite h (BitVec.ofNat 128 (f 0 16))
        ⟨BitVec.ofNat 8 (f 16 1), BitVec.ofNat 8 (f 17 1), BitVec.ofNat 8 (f 18 1), BitVec.ofNat 64 (f 19 8), BitVec.ofNat 64 (f 27 8),
          BitVec.ofNat 32 (f 35 4), BitVec.ofNat 32 (f 39 4)⟩ (b.drop 43))
    else none)
  else if code = 0x0E then
    (if n ≠ 17 then none
    else if f 16 1 = 1 then some (.leapPin h (BitVec.ofNat 128 (f 0 16)))
    else if f 16 1 = 0 then some (.leapUnpin h (BitVec.ofNat 128 (f 0 16)))
    else none)
  else if code = 0x0F then (if n = 16 then some (.leapDiscard h (BitVec.ofNat 128 (f 0 16))) else none)
  else if code = 0x10 then (if n = 8 then some (.setLease h (BitVec.ofNat 64 (f 0 8))) else none)
  else if code = 0x11 then (if n = 17 then (msgFlag b 16).map (fun host => .biasSet h (f 0 8) (f 8 8) host) else none)
  else if code = 0x12 then (if n = 32 then some (.attest h (BitVec.ofNat 256 (f 0 32))) else none)
  else if code = 0x13 then (if n = 4 then some (.fwInfo ⟨h, f 0 4⟩) else none)
  else none

/-- A command that a message can carry: its header fields and its operands fit theirs, and it is not too long (R412, R414). -/
def cmdFits (i : Instr) : Bool := match commandOf i with
  | none => false
  | some (h, code) =>
    decide (h.queue < 2 ^ 32) && decide (h.hseq < 2 ^ 64) && decide (h.ctx < 2 ^ 32) && decide (32 + (cmdArgs i).length ≤ messageMax) &&
    parseCmd h code (cmdArgs i) == some i

/-- The message of a command: its 32-byte header and its arguments (R414). -/
def messageOf (i : Instr) : List Byte := match commandOf i with
  | none => []
  | some (h, code) =>
    toLe code 2 ++ toLe 0 2 ++ toLe h.queue 4 ++ toLe h.hseq 8 ++ toLe h.ctx 4 ++ toLe (cmdArgs i).length 4 ++ toLe 0 8 ++ cmdArgs i

/-- The bytes of a response (R414). -/
def Response.bytes (r : Response) : List Byte :=
  toLe r.code 2 ++ toLe r.status 1 ++ toLe r.reason 1 ++ toLe r.queue 4 ++ toLe r.hseq 8 ++ toLe r.ctx 4 ++ toLe r.result.length 4 ++
  toLe r.seq 8 ++ r.result

end Sys2Proof.Machine
end

