-- ==== Sys2Proof/Machine/Journal.lean ====
section
/-! DEFINITION. The journals (R418, R419): appending an entry, changing its state, and the ring in device memory that
mirrors a context's journal. Responses to the host (R414).
-/

namespace Sys2Proof.Machine

/-! ## Entries (R418) -/

def JState.code : JState → Byte
  | .accepted => 0#8 | .running => 1#8 | .done => 2#8 | .failed => 3#8 | .resetDiscarded => 4#8

/-- Final states (R419). -/
def JState.final : JState → Bool
  | .done | .failed | .resetDiscarded => true
  | .accepted | .running => false

/-- The 64 bytes of an entry. -/
def entryBytes (e : JEntry) : List Byte :=
  toLe e.seq 8 ++ toLe e.queue 4 ++ toLe e.code 2 ++ [e.state.code, BitVec.ofNat 8 e.reason] ++ toLe e.digest 16 ++
  toLe e.hseq 8 ++ toLe e.timeAccepted 8 ++ toLe e.detail 4 ++ toLe 0 4 ++ toLe e.timeEnded 8

/-! ## Journals: of a context, or the package's where none is named -/

def State.journal (s : State) : Option Nat → Journal
  | none => s.adminJournal
  | some c => match s.ctx? c with
    | some x => x.journal
    | none => s.adminJournal

def State.setJournal (s : State) (c : Option Nat) (j : Journal) : State := match c with
  | none => { s with adminJournal := j }
  | some c => match s.ctx? c with
    | some x => s.setCtx { x with journal := j }
    | none => s

/-- Write an entry to its place in a context's ring. -/
def mirrorEntry (s : State) (c : Option Nat) (e : JEntry) : State := match c.bind s.ctx? with
  | none => s
  | some x => fwWrite s (x.journalAt + 64 * e.slot) (entryBytes e)

/-- The place that the next entry takes in the ring: a free one, or that of the oldest entry, which it overwrites (R419). -/
def Journal.nextSlot (j : Journal) : Nat :=
  if j.entries.length < j.capacity then j.entries.length else (j.entries.head?.map (fun e => e.slot)).getD 0

/-- Append an entry in state accepted: none where the oldest entry of a full journal is not final (R419). -/
def appendEntry (s : State) (c : Option Nat) (queue code hseq digest : Nat) : Option (State × Nat) :=
  let j := s.journal c
  let room := decide (j.entries.length < j.capacity)
  let free := match j.entries.head? with
    | some e => e.state.final
    | none => true
  if room || free then
    let e : JEntry :=
      { seq := j.next, queue := queue, code := code, state := .accepted, reason := 0, digest := digest, hseq := hseq
        timeAccepted := s.now, detail := 0, timeEnded := 0, slot := j.nextSlot }
    let old := if room then j.entries else j.entries.tail
    some (mirrorEntry (s.setJournal c { j with next := j.next + 1, entries := old ++ [e] }) c e, j.next)
  else none

/-- Change an entry that is not final: states change only forward (R419). -/
def changeEntry (s : State) (c : Option Nat) (seq : Nat) (f : JEntry → JEntry) : State :=
  let j := s.journal c
  match j.entries.find? (fun e => e.seq == seq && !e.state.final) with
  | none => s
  | some e =>
    let e1 := f e
    mirrorEntry (s.setJournal c { j with entries := j.entries.map (fun x => if x.seq = seq then e1 else x) }) c e1

/-- An entry is running. -/
def runEntry (s : State) (c : Option Nat) (seq : Nat) : State := changeEntry s c seq (fun e => { e with state := .running })

/-- An entry ends, at the time now. -/
def endEntry (s : State) (c : Option Nat) (seq : Nat) (st : JState) (reason : Nat) : State :=
  changeEntry s c seq (fun e => { e with state := st, reason := reason, timeEnded := s.now })

/-- The detail of a `LAUNCH`'s entry: the exit records written (R371, R418). -/
def countExits (s : State) (c : Option Nat) (seq n : Nat) : State :=
  changeEntry s c seq (fun e => if e.code = 0x08 then { e with detail := n } else e)

/-! ## Responses (R414) -/

/-- The status that a journalled state answers with. -/
def JState.status : JState → Nat
  | .accepted | .running => 1
  | .done => 0
  | .failed | .resetDiscarded => 2

/-- Send a response; one longer than a message may be fails with reason 0x01 instead (R412). -/
def respond (s : State) (h : CmdHdr) (code status reason seq : Nat) (result : List Byte) : State :=
  if 32 + result.length ≤ messageMax then
    { s with outbox := s.outbox ++ [⟨code, status, reason, h.queue, h.hseq, h.ctx, seq, result⟩] }
  else { s with outbox := s.outbox ++ [⟨code, 2, 1, h.queue, h.hseq, h.ctx, seq, []⟩] }

end Sys2Proof.Machine
end

