-- ==== Sys2Proof/Machine/Engine.lean ====
section
/-! DEFINITION. The matrix engine's own work: shape records (R344 to R346), operand elements (R345, R136), one `MLOOP`
step (R351, R352), the steps in order (R338), and ownership passing on (R340, R343).
-/

namespace Sys2Proof.Machine

/-! ## Shape records (R344) -/

def recByte (r : Vector Byte 32) (i : Fin 32) : Nat := r[i].toNat
def recWord (r : Vector Byte 32) (i : Fin 29) : Nat :=
  leNat [r[i.val], r[i.val + 1], r[i.val + 2], r[i.val + 3]]

/-- A record's fields. -/
structure Shape where
  m : Nat
  n : Nat
  kstep : Nat
  afmt : Nat
  bfmt : Nat
  /-- Planes read and planes stored. -/
  planesRead : Nat
  planesStored : Nat
  i32 : Bool
  tile : Fin 4
  aaddr : Nat
  astride : Nat
  baddr : Nat
  bstride : Nat
  deriving DecidableEq, Repr

def shapeOf (r : Vector Byte 32) : Shape :=
  { m := recByte r 0, n := recByte r 1, kstep := recByte r 2, afmt := recByte r 3, bfmt := recByte r 4
    planesRead := recByte r 5 / 16, planesStored := recByte r 5 % 16
    i32 := recByte r 6 / 16 % 2 == 1, tile := Fin.ofNat 4 (recByte r 6)
    aaddr := recWord r 8, astride := recWord r 12, baddr := recWord r 16, bstride := recWord r 20 }

/-- Sub-cause 0x02 of R350: a reserved bit set, a field outside its values, an unassigned format code. -/
def shapeInvalid (r : Vector Byte 32) : Bool :=
  let x := shapeOf r
  let pl := recByte r 5
  x.m == 0 || decide (128 < x.m) || x.n == 0 || decide (128 < x.n) || !([1, 2, 4, 8, 16, 32].contains x.kstep) ||
  decide (8 < x.afmt) || decide (8 < x.bfmt) ||
  (if x.afmt = 8 then decide (x.planesStored < 2) || decide (8 < x.planesStored) || decide (x.planesRead < 2) ||
      decide (x.planesStored < x.planesRead) else pl != 0) ||
  recByte r 6 / 32 != 0 || recByte r 6 / 4 % 4 != 0 || recByte r 7 != 0 ||
  x.astride == 0 || decide (2 ^ 20 < x.astride) || x.bstride == 0 || decide (2 ^ 20 < x.bstride) ||
  (List.range 8).any (fun i => (r.toList.getD (24 + i) 0#8) != 0#8)

/-- The legal pairs of R346. -/
def shapePair (x : Shape) : Bool :=
  match x.afmt, x.bfmt, x.i32 with
  | 0, 0, false => true
  | 1, 1, false => true
  | 6, 6, false => true
  | 8, 7, _ => true
  | a, b, false => decide (2 ≤ a) && decide (a ≤ 5) && decide (2 ≤ b) && decide (b ≤ 5)
  | _, _, true => false

/-- K of a row or column of a stride (R345). -/
def innerK (fmt planes stride : Nat) : Nat :=
  match fmt with
  | 0 => stride / 2
  | 1 => stride / 2
  | 6 => 32 * (stride / 17)
  | 8 => 32 * (stride / (4 * planes + 1))
  | _ => 32 * (stride / 33)

/-- Scales apply (R346). -/
def scalesApply (x : Shape) : Bool := !x.i32 && decide (2 ≤ x.afmt)

/-- The float format of a code, where it is one. -/
def fmtOfCode : Nat → FloatFmt
  | 0 => fmtF16 | 1 => fmtBf16 | 2 => fmtE4m3 | 3 => fmtE5m2 | 4 => fmtE3m2 | 5 => fmtE2m3 | _ => fmtE2m1

/-! ## Operand bytes (R345, R136) -/

/-- The byte of plane `j` that holds element k of a bit-plane row of stride S with P planes. -/
def planeByte (r planes stride j k : Nat) : Nat :=
  let bk := stride / (4 * planes + 1)
  let b := k / 32
  let i := k % 32 / 8
  if j = 0 then r + 5 * b + i else r + 5 * bk + 4 * bk * (j - 1) + 4 * b + i

/-- The bytes of element k of a row or column that starts at r, scale apart. -/
def elemBytes (fmt planesRead planes stride r k : Nat) : List Nat :=
  match fmt with
  | 0 => [r + 2 * k, r + 2 * k + 1]
  | 1 => [r + 2 * k, r + 2 * k + 1]
  | 6 => [r + 17 * (k / 32) + k % 32 / 2]
  | 8 => (List.range planesRead).map (fun j => planeByte r planes stride j k)
  | _ => [r + 33 * (k / 32) + k % 32]

/-- The byte of B's stored scale for element k (R345). -/
def scaleByte (fmt r k : Nat) : Nat :=
  if fmt = 6 then r + 17 * (k / 32) + 16 else r + 33 * (k / 32) + 32

/-- The p-bit value of a bit-plane element, as the i8 value truncated (R136). -/
def planeValue (planesRead k : Nat) (bs : List Byte) : Int :=
  let bit (j : Nat) : Nat := if (bs.getD j 0#8).getLsbD (k % 8) then 1 else 0
  let q := (List.range planesRead).foldl (fun a j => 2 * a + bit j) 0
  let z : Int := if bit 0 = 1 then Int.ofNat q - 2 ^ planesRead else Int.ofNat q
  z * 2 ^ (8 - planesRead)

/-- An i8 byte. -/
def i8Value (b : Byte) : Int := b.toInt

/-- An element's integer value, for i32 accumulation. -/
def elemInt (fmt planesRead k : Nat) (bs : List Byte) : Int :=
  if fmt = 8 then planeValue planesRead k bs else i8Value (bs.getD 0 0#8)

/-- An integer as a value. -/
def intVal (z : Int) : FVal := .fin (decide (z < 0)) z.natAbs 0

/-- An element's value. -/
def elemVal (fmt planesRead k : Nat) (bs : List Byte) : FVal :=
  match fmt with
  | 6 => FVal.decode fmtE2m1 ((bs.getD 0 0#8).toNat / (if k % 2 = 1 then 16 else 1) % 16)
  | 7 => intVal (i8Value (bs.getD 0 0#8))
  | 8 => intVal (planeValue planesRead k bs)
  | f => FVal.decode (fmtOfCode f) (leNat bs)

/-! ## One step (R351, R352) -/

/-- Status bits of R352. -/
def stIOV : Word := 0x100#32
def stINFP : Word := 0x80#32
def stINFN : Word := 0x40#32
def stNANP : Word := 0x20#32
def stNANN : Word := 0x10#32

/-- Flags to status bits 3:0 (R352). -/
def stFlags (f : Flags) : Word :=
  (if f.getLsbD 4 then 8#32 else 0#32) ||| (if f.getLsbD 3 then 4#32 else 0#32) |||
  (if f.getLsbD 2 then 2#32 else 0#32) ||| (if f.getLsbD 0 then 1#32 else 0#32)

/-- sa(i, j): byte i div 32 of lane i mod 32 of v(VS + SEL + j) (R349). -/
def scaleA (scales : List (Lanes Word)) (i j : Nat) : Byte :=
  let w := (scales.getD j zeroLanes)[i % 32]'(by omega)
  w.extractLsb' (8 * (i / 32 % 4)) 8

/-- One product into one element at K index k, with the status bits it raises. -/
def macElem (x : Shape) (scales : List (Lanes Word)) (pad : List Host.Cell) (row : Nat) (i n k : Nat) (t : Word) : Word × Word :=
  let ra := x.aaddr + x.astride * row
  let rb := x.baddr + x.bstride * n
  let ab := (elemBytes x.afmt x.planesRead x.planesStored x.astride ra k).map (bytesGet pad)
  let bb := (elemBytes x.bfmt 0 0 x.bstride rb k).map (bytesGet pad)
  if x.i32 then
    let e := t.toInt + elemInt x.afmt x.planesRead k ab * elemInt x.bfmt 0 k bb
    (BitVec.ofInt 32 e, if e < -2 ^ 31 ∨ e > 2 ^ 31 - 1 then stIOV else 0#32)
  else
    let a := elemVal x.afmt x.planesRead k ab
    let b := elemVal x.bfmt 0 k bb
    let c := f32 t
    let sa := if scalesApply x then e8m0 (scaleA scales i (k / 32)) else FVal.one
    let sb := if scalesApply x then e8m0 (bytesGet pad (scaleByte x.bfmt rb k)) else FVal.one
    let ins := [a, sa, b, sb, c]
    let r := fmaRes fmtF32 0#2 false ins (a.scaleBy sa) (b.scaleBy sb) c
    let st := stFlags r.flags |||
      (if r.nan then (if ins.any FVal.isNan then stNANP else stNANN) else 0#32) |||
      (if r.inf then (if ins.any FVal.isInf then stINFP else stINFN) else 0#32)
    (BitVec.ofNat 32 r.bits, st)

/-- A tile's element; a tile lists no +0 (R336). -/
def tileGet (t : List (Nat × Word)) (i : Nat) : Word := (tableFind t i).getD 0#32
def tileSet (t : List (Nat × Word)) (i : Nat) (w : Word) : List (Nat × Word) :=
  if w = 0#32 then tableDel t i else tablePut t i w

/-- Step s of a run on a tile: every row and column, K ascending; the tile after and the status bits (R351). -/
def loopStep (x : Shape) (rows : List Nat) (scales : List (Lanes Word)) (pad : List Host.Cell) (s : Nat)
    (t : List (Nat × Word)) : List (Nat × Word) × Word :=
  (List.range x.m).foldl (fun acc i =>
    (List.range x.n).foldl (fun acc n =>
      let cell := 128 * i + n
      let e := (List.range x.kstep).foldl (fun (p : Word × Word) kk =>
        let r := macElem x scales pad (rows.getD i 0) i n (s * x.kstep + kk) p.1
        (r.1, p.2 ||| r.2)) (tileGet acc.1 cell, 0#32)
      (tileSet acc.1 cell e.1, acc.2 ||| e.2)) acc) (t, 0#32)

/-- The bytes a step reads (R350): A's and B's elements, and B's scales where they apply. -/
def stepBytes (x : Shape) (rows : List Nat) (s : Nat) : List Nat :=
  (List.range x.kstep).flatMap (fun kk =>
    let k := s * x.kstep + kk
    (List.range x.m).flatMap (fun i =>
      elemBytes x.afmt x.planesRead x.planesStored x.astride (x.aaddr + x.astride * rows.getD i 0) k) ++
    (List.range x.n).flatMap (fun n =>
      let rb := x.baddr + x.bstride * n
      elemBytes x.bfmt 0 0 x.bstride rb k ++ (if scalesApply x then [scaleByte x.bfmt rb k] else [])))

/-- OR bits into a slot's status word. -/
def Engine.orStatus (e : Engine) (slot : BitVec 3) (w : Word) : Engine :=
  let sh := kGet e.shapes slot
  { e with shapes := kSet e.shapes slot { sh with status := sh.status ||| w } }

/-- The scratchpad of a team. -/
def State.pad (s : State) (team : Nat) : List Host.Cell := match s.team? team with
  | some t => t.scratch
  | none => []

/-- The poisoned granules of a team's scratchpad. -/
def State.padBad (s : State) (team : Nat) : List Nat := match s.team? team with
  | some t => t.scratchPoison
  | none => []

/-- The elements of a tile that a step poisons, when a granule of its operands has become poisoned since the check (R354): the row of
a byte of A, the column of a byte of B. -/
def stepPoison (x : Shape) (rows : List Nat) (bad : List Nat) (s : Nat) : List Nat :=
  if bad.isEmpty then [] else
  let ks := (List.range x.kstep).map (fun kk => s * x.kstep + kk)
  let hit (bs : List Nat) : Bool := bs.any (fun a => setHas bad (a / 32))
  let rowBad (i : Nat) : Bool := ks.any (fun k =>
    hit (elemBytes x.afmt x.planesRead x.planesStored x.astride (x.aaddr + x.astride * rows.getD i 0) k))
  let colBad (n : Nat) : Bool := ks.any (fun k =>
    let rb := x.baddr + x.bstride * n
    hit (elemBytes x.bfmt 0 0 x.bstride rb k ++ (if scalesApply x then [scaleByte x.bfmt rb k] else [])))
  (List.range x.m).flatMap (fun i => (List.range x.n).filterMap (fun n =>
    if rowBad i || colBad n then some (128 * i + n) else none))

/-- The first queued step of a core's engine, performed (R338, R351, R354). -/
def engineStep (s : State) (c : Fin 256) : State :=
  let k := s.core c
  match k.engine.runs with
  | [] => s
  | r :: rest =>
    let x := shapeOf r.record
    let o := loopStep x r.rows r.scales (s.pad r.team) r.next k.engine.acc[x.tile]
    let bad := stepPoison x r.rows (s.padBad r.team) r.next
    let e1 := k.engine.orStatus r.slot o.2
    let runs := if r.next + 1 < r.stop then { r with next := r.next + 1 } :: rest else rest
    s.setCore c { k with engine := { e1 with
      acc := e1.acc.set x.tile o.1
      accPoison := e1.accPoison.set x.tile (bad.foldl setAdd e1.accPoison[x.tile]), runs := runs } }

/-- How many steps are queued. -/
def Engine.stepsLeft (e : Engine) : Nat := (e.runs.map (fun r => r.stop - r.next)).sum

/-- Perform `n` queued steps. -/
def engineSteps (s : State) (c : Fin 256) : Nat → State
  | 0 => s
  | n + 1 => engineSteps (engineStep s c) c n

/-- Perform every queued step: a later engine operation never overtakes an earlier one (R338). -/
def drainEngine (s : State) (c : Fin 256) : State := engineSteps s c (s.core c).engine.stepsLeft

/-- Change a core's engine. -/
def State.setEngine (s : State) (c : Fin 256) (e : Engine) : State := s.setCore c { s.core c with engine := e }

/-! ## Ownership (R339 to R343) -/

/-- The group of a core with this number. -/
def Core.slotOf (k : Core) (uid : Nat) : Option (Fin 64) :=
  (List.finRange 64).find? (fun i => match k.slots[i] with
    | some g => g.uid == uid
    | none => false)

/-- A group's team, by its number on a core. -/
def Core.teamOf (k : Core) (uid : Nat) : Option Nat :=
  (k.slotOf uid).bind (fun i => match k.slots[i] with
    | some g => g.team
    | none => none)

def isOwnerWait : Wait → Bool | .owner _ => true | _ => false

/-- What the engine clears when it passes to another team (R343). -/
def Engine.handOver (e : Engine) (team : Option Nat) : Engine :=
  if e.ownerTeam = none ∨ e.ownerTeam = team then { e with ownerTeam := team }
  else { e with ownerTeam := team, shapes := Vector.replicate 8 { record := none, status := 0#32 }, index := none
                acc := Vector.replicate 4 [], accPoison := Vector.replicate 4 [] }

/-- Make a group of the core the owner, after every earlier operation: its waiting fragments go on (R339, R343). -/
def grantEngine (s : State) (c : Fin 256) (uid : Nat) : State :=
  let s1 := drainEngine s c
  let k := s1.core c
  let e := { k.engine.handOver (k.teamOf uid) with owner := some uid, queue := k.engine.queue.filter (· != uid) }
  let k1 := { k with engine := e }
  match k.slotOf uid with
  | none => s1.setCore c k1
  | some i => match k.slots[i] with
    | none => s1.setCore c k1
    | some g => s1.setCore c (k1.setSlot i (some (g.release isOwnerWait)))

/-- Groups held at `MOWN` enter the queue while it has places, in issue order (R339). -/
def Engine.letIn (e : Engine) : Engine :=
  let n := 8 - e.queue.length
  { e with queue := e.queue ++ e.held.take n, held := e.held.drop n }

/-- A fragment held at `MOWN` now waits in the queue. -/
def Core.markQueued (k : Core) : Core :=
  { k with slots := Vector.ofFn (fun i : Fin 64 => match k.slots[i] with
    | some g =>
      if k.engine.queue.contains g.uid then
        some { g with frags := Vector.ofFn (fun j : Fin 8 => match g.frags[j] with
          | some f => if f.status = .waiting (.owner true) then some { f with status := .waiting (.owner false) } else some f
          | none => none) }
      else some g
    | none => none) }

/-- A core's engine changes its queue: held groups enter it, and wait there (R339). -/
def State.requeue (s : State) (c : Fin 256) (e : Engine) : State := s.setCore c ({ s.core c with engine := e.letIn }).markQueued

/-- Ownership ends: the head of the queue becomes the owner (R340). -/
def releaseEngine (s : State) (c : Fin 256) : State :=
  let e := (s.core c).engine.letIn
  match e.queue with
  | [] => s.setEngine c { e with owner := none }
  | u :: rest => grantEngine (s.requeue c { e with owner := none, queue := rest }) c u

end Sys2Proof.Machine
end

