-- ==== Sys2Proof/Machine/Pad.lean ====
section
/-! DEFINITION. The scratchpad (R260 to R262), stage words (R306, R307), and what a copy does when it moves its bytes
and when it is complete (R303, R304).
-/

namespace Sys2Proof.Machine

/-! ## Scratchpad -/

/-- An access of `n` bytes lies inside an allocation (R260). -/
def padInside (t : Team) (a n : Nat) : Bool := decide (a + n ≤ t.scratchSize)

def padRead (t : Team) (a n : Nat) : List Byte := bytesRead t.scratch a n
def padWrite (t : Team) (a : Nat) (bs : List Byte) : Team := { t with scratch := bytesWrite t.scratch a bs }
def padWord (t : Team) (a : Nat) : Word := wordOf (padRead t a 4)
def padSetWord (t : Team) (a : Nat) (w : Word) : Team := padWrite t a (toLe w.toNat 4)

/-- Poison of the scratchpad's granules after a write (R218). -/
def padPoison (t : Team) (written bad : List Nat) : Team :=
  if t.scratchPoison.isEmpty && bad.isEmpty then t
  else
    let gs := written.foldl (fun l a => setAdd l (a / 32)) []
    let whole := gs.filter (fun g => (List.range 32).all (fun i => written.any (· == 32 * g + i)))
    { t with scratchPoison := bad.foldl (fun l a => setAdd l (a / 32)) (t.scratchPoison.filter (fun g => !setHas whole g)) }

def padPoisoned (t : Team) (a n : Nat) : Bool := (List.range n).any (fun i => setHas t.scratchPoison ((a + i) / 32))

/-! ## Stage words (R306, R307) -/

def stageAddr (ring stage : Nat) : Nat := 64 * ring + 4 * stage
def stagePhase (w : Word) : Bool := w.getLsbD 31
def stageExp (w : Word) : Nat := (w.extractLsb' 16 14).toNat
def stageCount (w : Word) : Nat := (w.extractLsb' 0 14).toNat

/-- One arrival at a stage word: the count, or the next phase when all have arrived; reserved bits 0 (R307). -/
def stageArrive (w : Word) : Word :=
  let c := stageCount w + 1
  let full := decide (max (stageExp w) 1 ≤ c)
  let ph := stagePhase w != full
  BitVec.ofNat 32 ((if ph then 2 ^ 31 else 0) + stageExp w * 2 ^ 16 + (if full then 0 else c % 2 ^ 14))

/-- The arrival on a team's ring and stage; outside the allocation nothing. -/
def arrive (t : Team) (ring stage : Nat) : Team :=
  let a := stageAddr ring stage
  if padInside t a 4 then padSetWord t a (stageArrive (padWord t a)) else t

/-! ## Copies (R303, R304) -/

/-- The addresses of a piece's bytes. -/
def pieceOffsets (p : Piece) : List Nat := List.range p.len

/-- A copy's source byte of global memory: the core's own dirty byte, or the home's (R303). -/
def copySource (s : State) (c : Fin 256) (pa : Nat) : Byte :=
  match tableFind (s.core c).l1 pa with
  | some (.dirty v) => v
  | _ => homeByte s pa

/-- Move the bytes of a copy into the scratchpad. -/
def moveIn (s : State) (cp : Copy) : State :=
  match s.team? cp.team with
  | none => s
  | some t =>
    let t1 := cp.pieces.foldl (fun t p =>
      (pieceOffsets p).foldl (fun t i => padWrite t (p.dst + i) [copySource s cp.core (p.src + i)]) t) t
    let written := cp.pieces.flatMap (fun p => (pieceOffsets p).map (fun i => p.dst + i))
    let bad := cp.pieces.flatMap (fun p => ((pieceOffsets p).filter (fun i => s.poisoned (p.src + i) 1)).map (fun i => p.dst + i))
    s.setTeam (padPoison t1 written bad)

/-- The scratchpad that a copy reads, with its poisoned granules: what the team left when it ended, or the team's now. -/
def copyPad (s : State) (cp : Copy) : Option (List Host.Cell × List Nat) := match cp.captured with
  | some p => some p
  | none => (s.team? cp.team).map (fun t => (t.scratch, t.scratchPoison))

/-- The global bytes that a `CPYO` writes. -/
def Copy.writes (cp : Copy) : List Nat := cp.pieces.flatMap (fun p => (pieceOffsets p).map (fun i => p.dst + i))

/-- Move the bytes of a `CPYO` to memory, through to the home of each line (R303). -/
def moveOut (s : State) (cp : Copy) : State :=
  match copyPad s cp with
  | none => s
  | some t =>
    let w : Writer := ⟨cp.core, cp.group, cp.launch, false⟩
    let s1 := cp.pieces.foldl (fun s p =>
      (pieceOffsets p).foldl (fun s i => homeSetByte s cp.core (p.dst + i) (bytesGet t.1 (p.src + i))) s) s
    let bad := cp.pieces.flatMap (fun p => ((pieceOffsets p).filter (fun i => setHas t.2 ((p.src + i) / 32))).map (fun i => p.dst + i))
    settlePoison ((linesOf cp.writes).foldl (fun s l => noteWrite (s.hint cp.core l) w l) s1) cp.writes bad

/-- Which of some numbered writes are not complete (R269). -/
def State.stillWriting (s : State) (ids : List Nat) : Bool := s.writes.any (fun w => ids.contains w.id)

/-- A copy is complete: a ring copy arrives on its stage; the group's reuse epoch ends with the last copy of a closed batch (R73, R307). -/
def completeCopy (s : State) (cp : Copy) : State :=
  let s1 := { s with copies := s.copies.filter (fun x => x.id != cp.id) }
  let s2 := match cp.stage, s1.team? cp.team with
    | some st, some t => s1.setTeam (arrive t st.1 st.2)
    | _, _ => s1
  let k := s2.core cp.core
  match cp.batch, k.slotOf cp.group with
  | some b, some i => match k.slots[i] with
    | some g =>
      if g.batch != b && !s2.copies.any (fun x => x.group == cp.group && x.batch == some b) then
        s2.setGroup cp.core i (some { g with epoch := g.epoch + 1 })
      else s2
    | none => s2
  | _, _ => s2

/-- A byte that a copy writes waits on a thaw (R277). -/
def copyBlocked (s : State) (cp : Copy) : Bool :=
  cp.out && cp.pieces.any (fun p => (pieceOffsets p).any (fun i => s.isThawing (p.dst + i)))

/-- A copy moves its bytes and, unless a lease is outstanding on a line it wrote, is complete (R303). -/
def finishCopy (s : State) (cp : Copy) : State :=
  match cp.written with
  | some ids => if s.stillWriting ids then s else completeCopy s cp
  | none =>
    if copyBlocked s cp then s
    else if cp.out then
      let s1 := moveOut s cp
      let ids := (List.range (s1.fresh - s.fresh)).map (fun i => s.fresh + i)
      if s1.stillWriting ids then
        { s1 with copies := s1.copies.map (fun x => if x.id = cp.id then { x with written := some ids } else x) }
      else completeCopy s1 cp
    else completeCopy (moveIn s cp) cp

/-- The copies of a team that ends: those into its scratchpad are abandoned, a `CPYO` goes on with what the scratchpad held
(R202, R382; log 20). -/
def flushCopies (s : State) (team : Nat) : State :=
  { s with copies := (s.copies.filter (fun c => c.team != team || c.out)).map (fun c =>
      if c.team = team then { c with captured := copyPad s c } else c) }

end Sys2Proof.Machine
end

