-- ==== Sys2Proof/Machine/Ops.lean ====
section
/-! DEFINITION. The operations that many meanings share: how fragments fuse, exit and are released (R30 to R35),
how a team ends (R202, R342, R360, R371), how a trap is taken (R201) and left (R204), and the work of a release (R293).
-/

namespace Sys2Proof.Machine

/-! ## Launches and rings -/

/-- The `REDG` and atomic operations on a word (R288). -/
def atomicOp (op : BitVec 3) (old x : Word) : Word :=
  match op with
  | 0#3 => old + x
  | 1#3 => if old.slt x then old else x
  | 2#3 => if old.slt x then x else old
  | 3#3 => if old.ult x then old else x
  | 4#3 => if old.ult x then x else old
  | 5#3 => old &&& x
  | 6#3 => old ||| x
  | _ => old ^^^ x

/-- Write a record to a ring of firmware memory: header write index, read index, dropped count, capacity (R369, R371). -/
def ringPut (s : State) (base size : Nat) (bs : List Byte) : State × Bool :=
  let w := fwRead s base 8
  let r := fwRead s (base + 8) 8
  let cap := fwRead s (base + 24) 8
  if (w + 2 ^ 64 - r) % 2 ^ 64 = cap then (fwWrite s (base + 16) (toLe (fwRead s (base + 16) 8 + 1) 8), false)
  else
    let s1 := fwWrite s (base + 32 + w % cap * size) bs
    (fwWrite s1 base (toLe ((w + 1) % 2 ^ 64) 8), true)

/-- The 160 bytes of an exit record (R371). -/
def exitRecord (t : Team) (seq : Nat) (trapped discarded : Bool) : List Byte :=
  let lanes := t.masks.toList.any (· != 0#32)
  toLe t.teamid.toNat 4 ++ [t.cause, t.causeGroup, t.second,
    (if trapped then 1#8 else 0#8) ||| (if discarded then 2#8 else 0#8) ||| (if lanes then 4#8 else 0#8)] ++
  toLe seq 8 ++ toLe t.frame.toNat 8 ++ toLe t.core.val 2 ++ toLe 0 6 ++
  t.masks.toList.flatMap (fun m => toLe m.toNat 4)

/-! ## Fragments of a group -/

/-- Unmap registers of a set (R55). -/
def Group.unmap (g : Group) (set : BitVec 64) : Group :=
  { g with v := Vector.ofFn (fun i : Fin 64 => if set.getLsbD i.val then none else g.v[i]) }

/-- Once exactly one fragment is live: its written set empties and the pending kills take effect (R32, R56). A
result still in flight into a register unmapped here is not discarded: it maps the register anew when it commits (log 50). -/
def Group.settleSingle (g : Group) : Group :=
  match g.live with
  | [i] => match g.frags[i] with
    | some f => { (g.setFrag i (some { f with written := Written.empty })).unmap g.killSet with killSet := 0#64 }
    | none => g
  | _ => g

/-- The first of several fragments, in order of lowest slice, that wrote an element; else the first (R31). -/
def pickView (fs : List Frag) (wrote : Frag → Bool) : Option View :=
  match fs.find? wrote with
  | some f => some f.view
  | none => fs.head?.map (fun f => f.view)

/-- The uniform state of a fusion (R31), from fragments in order of lowest slice. -/
def fuseView (fs : List Frag) (v0 : View) : View :=
  let pick (wrote : Frag → Bool) : View := (pickView fs wrote).getD v0
  { s := Vector.ofFn (fun i : Fin 64 => (pick (fun f => f.written.s.getLsbD i.val)).s[i])
    k := Vector.ofFn (fun i : Fin 8 => (pick (fun f => f.written.k.getLsbD i.val)).k[i])
    w := Vector.ofFn (fun i : Fin 4 => (pick (fun f => f.written.w.getLsbD i.val)).w[i])
    scc := (pick (fun f => f.written.scc)).scc
    rm := (pick (fun f => f.written.fp)).rm, en := (pick (fun f => f.written.fp)).en
    part := (pick (fun f => f.written.part)).part }

/-- The union of written sets. -/
def Written.union (a b : Written) : Written :=
  { s := a.s ||| b.s, k := a.k ||| b.k, w := a.w ||| b.w, scc := a.scc || b.scc, fp := a.fp || b.fp, part := a.part || b.part }

/-- Fuse the fragments of some entries, all waiting at one `REGANG`: they take the first one's entry (R31). -/
def Group.fuse (g : Group) (is : List (Fin 8)) : Group :=
  let fs := is.filterMap (fun i => g.frags[i])
  match is, fs with
  | i :: rest, f :: _ =>
    let n : Frag :=
      { slices := fs.foldl (fun a x => a ||| x.slices) 0#8, pc := f.pc + 4#64, status := .ready
        view := fuseView fs f.view, written := fs.foldl (fun a x => a.union x.written) Written.empty
        pending := [], held := .no, halted := fs.any (fun x => x.halted), resume := 0, waited := 0, overdue := none
        issued := none, passed := [], ahead := [], behind := false, late := false }
    rest.foldl (fun g j => g.setFrag j none) (g.setFrag i (some n))
  | _, _ => g

/-- When every live fragment waits at a `REGANG`, those at each address fuse and go on (R30). -/
def Group.regangs (g : Group) : Group :=
  let live := g.bySlice (fun f => f.status != .exited)
  let waiting := live.all (fun i => match g.frags[i] with
    | some f => f.status == .waiting .regang
    | none => false)
  if !waiting || live.isEmpty then g
  else
    let pcs := live.filterMap (fun i => (g.frags[i]).map (fun f => f.pc))
    pcs.eraseDups.foldl (fun g pc => g.fuse (live.filter (fun i => match g.frags[i] with
      | some f => f.status == .waiting .regang && f.pc == pc
      | none => false))) g

/-- After the live fragments of a group changed: fusions, and the single fragment's state (R30, R32, R33). -/
def Group.afterChange (g : Group) : Group := (g.settleSingle.regangs).settleSingle

/-! ## Barriers (R35, R297) -/

/-- Groups of a team on its core. -/
def Core.groupsOf (k : Core) (team : Nat) : List (Fin 64) :=
  (List.finRange 64).filter (fun i => match k.slots[i] with
    | some g => g.team == some team
    | none => false)

/-- The group has exited, or each live fragment waits at a `BAR` (R35). -/
def Group.arrived (g : Group) : Bool :=
  g.live.all (fun i => match g.frags[i] with
    | some f => f.status == .waiting .bar
    | none => false)

/-- Complete the team's barrier when every group has arrived: waiting fragments go on and epochs end (R297). -/
def barrier (s : State) (c : Fin 256) (team : Nat) : State :=
  let k := s.core c
  let gs := k.groupsOf team
  let all := gs.all (fun i => match k.slots[i] with
    | some g => g.arrived
    | none => true)
  if !all then s
  else s.setCore c { k with slots := Vector.ofFn (fun i : Fin 64 => match k.slots[i] with
    | some g => if g.team = some team && !g.live.isEmpty then some { g.release (· == .bar) with epoch := g.epoch + 1 } else some g
    | none => none) }

/-! ## Ends -/

/-- Empty a group slot and evict the names it held (R49, R53). -/
def State.clearSlot (s : State) (c : Fin 256) (i : Fin 64) : State := (s.setGroup c i none).evictNames c

/-- The leap-program groups of a launch on a core end, and its budget is free (R404, R405). -/
def endLeap (s : State) (c : Fin 256) (launch : Nat) : State :=
  let k := s.core c
  let k1 := { k with
    slots := Vector.ofFn (fun i : Fin 64 => match k.slots[i] with
      | some g => if g.team = none && g.launch = launch then none else some g
      | none => none)
    budgeted := k.budgeted.filter (fun b => b.1 != launch)
    fetches := k.fetches.filter (fun f => !(f.leap && f.launch == launch)) }
  (s.setCore c k1).evictNames c

/-- A core whose last team has ended is no longer draining and takes the split of the launch that marked it (R367). -/
def settleDraining (s : State) (c : Fin 256) : State :=
  if s.teams.any (fun t => t.core == c) then s
  else
    let k := s.core c
    match k.draining with
    | none => s
    | some d => s.setCore c { k with draining := none, split := some d.2 }

/-- A context under a pre-emption request parks when no team of it is left (R381). -/
def settlePark (s : State) (ctx : Nat) : State :=
  let mine := s.teams.any (fun t => match s.launch? t.launch with
    | some l => l.ctx == ctx
    | none => false)
  match s.ctx? ctx with
  | some c => if c.preempt && !mine then s.setCtx { c with parked := true } else s
  | none => s

/-- The fault masks of a team's resident groups. -/
def Core.teamMasks (k : Core) (t : Team) : Vector Word 32 :=
  (k.groupsOf t.uid).foldl (fun m i => match k.slots[i] with
    | some g => if hg : g.grpid < 32 then m.set g.grpid g.removed else m
    | none => m) t.masks

/-- The `PUBLISH`es that the fragments of a group wait in are given up (R382; log 20). -/
def dropPublishes (s : State) (g : Group) : State :=
  g.frags.toList.foldl (fun s o => match o with
    | none => s
    | some f => match f.status, s.ctx? g.ctx with
      | .waiting (.publish n _ begun), some x => match tableFind x.buffers n with
        | some b =>
          let b1 : PublishBuffer := { b with pending := b.pending - 1, publishing := b.publishing && !begun, stopped := b.stopped && !begun }
          s.setCtx { x with buffers := tablePut x.buffers n b1 }
        | none => s
      | _, _ => s) s

/-- One exit record more of a launch, counted in its `LAUNCH`'s entry; the number of a node's launch is that of its round (R371, R379). -/
def noteExit (s : State) (l : Launch) : State := match l.kind with
  | .node _ _ _ => s
  | .host | .task _ _ => countExits s (some l.ctx) l.seq (l.exitRecords + 1)

/-- A team ends (R360): its engine steps are done and its ownership ends (R342), its copies go to their ends, its slots are
free, an exit record is written where R371 asks for one, and its launch counts it. -/
def endTeam (s : State) (uid : Nat) (trapped discarded : Bool) : State :=
  match s.team? uid with
  | none => s
  | some t0 =>
    let c := t0.core
    let k0 := s.core c
    let t := { t0 with masks := k0.teamMasks t0 }
    let gids := (k0.groupsOf uid).filterMap (fun i => (k0.slots[i]).map (fun g => g.uid))
    let s1 := drainEngine s c
    let e := (s1.core c).engine
    let s2 := s1.requeue c { e with queue := e.queue.filter (fun u => !gids.contains u), held := e.held.filter (fun u => !gids.contains u) }
    let s3 := match e.owner with
      | some o => if gids.contains o then releaseEngine s2 c else s2
      | none => s2
    let s4 := flushCopies (s3.setTeam t) uid
    let s5 := (k0.groupsOf uid).foldl (fun s i => match s.group? c i with
      | some g => (dropPublishes s g).clearSlot c i
      | none => s) s4
    let record := trapped || discarded || t.masks.toList.any (· != 0#32)
    let l? := s5.launch? t.launch
    let p6 := match record, l? with
      | true, some l => match s5.ctx? l.ctx with
        | some x => ringPut s5 x.exitRing 160 (exitRecord t l.seq trapped discarded)
        | none => (s5, false)
      | _, _ => (s5, false)
    let s7 := { p6.1 with teams := p6.1.teams.filter (fun x => x.uid != uid) }
    match l? with
    | none => settleDraining s7 c
    | some l =>
      let s8 := s7.setLaunch { l with
        ended := l.ended + 1, exitRecords := l.exitRecords + (if p6.2 then 1 else 0)
        trapped := l.trapped || trapped, discarded := l.discarded || discarded }
      let s9 := if s8.teams.any (fun x => x.core == c && x.launch == l.id) then s8 else endLeap s8 c l.id
      settlePark (settleDraining (if p6.2 then noteExit s9 l else s9) c) l.ctx

/-- A group exits when no fragment is live: ownership ends, mappings are dropped (R33, R53, R342), a barrier may complete,
and with the last group the team ends. -/
def groupExit (s : State) (c : Fin 256) (slot : Fin 64) : State :=
  match s.group? c slot with
  | none => s
  | some g =>
    let s1 := match (s.core c).engine.owner with
      | some o => if o = g.uid then releaseEngine s c else s
      | none => s
    match g.team with
    | none => s1.clearSlot c slot
    | some uid =>
      let s2 := (s1.setGroup c slot (some { g.unmap (BitVec.allOnes 64) with killSet := 0#64, handler := none, reissue := none })).evictNames c
      match s2.team? uid with
      | none => s2
      | some t =>
        let s3 := s2.setTeam { t with exited := t.exited ||| (1#32 <<< g.grpid) }
        let left := ((s3.core c).groupsOf uid).any (fun i => match (s3.core c).slots[i] with
          | some x => !x.live.isEmpty
          | none => false)
        if left then barrier s3 c uid else endTeam s3 uid false false

/-- After a fragment of a group exited or waits: fusions, kills, and the group's own exit (R30 to R33). -/
def settleGroup (s : State) (c : Fin 256) (slot : Fin 64) : State :=
  match s.group? c slot with
  | none => s
  | some g =>
    if g.live.isEmpty then groupExit s c slot
    else
      let s1 := (s.setGroup c slot (some g.afterChange)).evictNames c
      match g.team with
      | some uid => barrier s1 c uid
      | none => s1

/-- A fragment's slices end (R33, R203). -/
def exitFrag (s : State) (h : Here) : State :=
  let sh := settleAll s h
  let h1 := sh.2
  let handlerEnds := h1.inHandler
  let g1 := ({ h1 with f := { h1.f with status := .exited, held := .no } }).group
  let g2 := if handlerEnds then { g1 with handler := none }.handlerEnded else g1
  settleGroup (sh.1.setGroup h.r.core h.r.slot (some g2)) h.r.core h.r.slot

/-- A leap-program group stops: no frame, flags bit 3 at the launch's end; its fetches not yet issued are given up (R403). -/
def stopLeap (s : State) (h : Here) : State :=
  let s1 := match s.launch? h.g.launch with
    | some l => s.setLaunch { l with stopped := true }
    | none => s
  let k := s1.core h.r.core
  (s1.setCore h.r.core { k with fetches := k.fetches.filter (fun f => f.group != h.g.uid) }).clearSlot h.r.core h.r.slot

/-! ## The work of a release (R293) -/

/-- Apply a `REDG` at its word's home (R291, R292). Its sender's own dirty bytes of the word registered when it was sent (R266). -/
def applyRedg (s : State) (r : Redg) : State :=
  let s1 := { s with redgs := s.redgs.filter (fun x => x.id != r.id) }
  settlePoison (atomicHome s1 ⟨r.core, r.group, r.launch, true⟩ r.addr (fun old => atomicOp r.op old r.x)) [] (if r.poison then [r.addr] else [])

/-- Apply every `REDG` of a group, in issue order (R319). -/
def drainRedgs (s : State) (group : Nat) : State :=
  ((s.redgs.filter (fun r => r.group == group)).reverse).foldl applyRedg s

/-- Apply the group's earlier `REDG`s on one word: a later atomic of the group comes after them (R319). -/
def drainRedgsOn (s : State) (group addr : Nat) : State :=
  ((s.redgs.filter (fun r => r.group == group && r.addr == addr)).reverse).foldl applyRedg s

/-- A release's work at a scope (R293): `REDG`s are applied, `MLOOP` operands read, and from `.die` on dirty bytes
registered. The answer says whether all of it is complete, so that the release is: of writes that a core has registered, the
model does not tell whose they are, and waits for all of the core's. -/
def releaseWork (s : State) (h : Here) (scope : Scope) : State × Bool :=
  let wide := scope != .grp && scope != .core
  let s1 := drainRedgs s h.g.uid
  let s2 := if (s1.core h.r.core).engine.runs.any (fun r => r.group == h.g.uid) then drainEngine s1 h.r.core else s1
  let s3 := if wide then registerAll s2 h.writer else s2
  let writes := s3.writes.any (fun w => (wide && w.core == h.r.core) || (w.redg && w.group == h.g.uid))
  let copies := s3.copies.any (fun c => c.group == h.g.uid && c.out && (wide || c.written.isNone))
  (s3, !writes && !copies)

/-- An acquire at a scope: self-invalidation from `.die` on (R264, R293). It ends the reuse epoch (R73). -/
def acquireWork (s : State) (h : Here) (scope : Scope) : State :=
  if scope = .grp ∨ scope = .core then s else selfInvalidate s h.r.core

/-! ## Taking a trap (R199 to R203) -/

/-- The address of a group slot's frame in its context (R199). -/
def frameAddr (x : Context) (c : Fin 256) (slot : Fin 64) : Nat := x.saveArea + 128 * (64 * c.val + slot.val)

/-- The words of a trapping instruction, as the frame reports them (R200). -/
structure Words where
  word : Word
  pfx : Option Word
  deriving DecidableEq, Repr

/-- `TIME` as the group reads it: never less than before (R211). -/
def groupTime (s : State) (h : Here) : Nat := max (s.timeAt h.r.core) h.g.timeFloor

/-- The first 64 bytes of a frame (R200). -/
def frameBytes (s : State) (h : Here) (w : Words) (t : TrapInfo) (pending : Bool) : List Byte :=
  [t.cause, t.sub] ++ toLe ((if w.pfx.isSome then 1 else 0) + (if pending then 8 else 0)) 2 ++
  toLe t.mask.toNat 4 ++ toLe (t.addr.toNat % 2 ^ 56) 7 ++ [0#8] ++ toLe w.word.toNat 4 ++ toLe (w.pfx.getD 0#32).toNat 4 ++
  toLe h.f.pc.toNat 8 ++ [h.f.slices, BitVec.ofNat 8 t.step] ++ toLe 0 2 ++ toLe h.lanes.toNat 4 ++
  toLe (groupTime s h) 8 ++ toLe t.aux.toNat 8 ++ toLe 0 8

/-- The device leaves `n` bytes from an address up open. -/
def freeBytes (s : State) (a n : Nat) : State := (List.range n).foldl (fun s i => fwFreeByte s (a + i)) s

/-- Drop bytes from a core's L1. -/
def dropBytes (s : State) (c : Fin 256) (a n : Nat) : State := (List.range n).foldl (fun s i => s.dropL1 c (a + i)) s

/-- Write a trap frame (R199, R200): its split block is open. -/
def writeFrame (s : State) (h : Here) (w : Words) (t : TrapInfo) : State :=
  match s.ctx? h.g.ctx with
  | none => s
  | some x =>
    let a := frameAddr x h.r.core h.r.slot
    let s1 := freeBytes (dropBytes (fwWrite s a (frameBytes s h w t x.preempt)) h.r.core a 128) (a + 64) 64
    settlePoison s1 ((List.range 128).map (fun i => a + i)) []

/-- The trap entry of a group's kernel (R201, R202). -/
def trapEntry (s : State) (g : Group) : Option DWord :=
  (s.launch? g.launch).bind (fun l => (s.block? l).bind (fun b => b.trapEntry))

/-- A team ends by a trap (R202, R203, R371). -/
def endByTrap (s : State) (h : Here) (cause second : Byte) : State :=
  match h.g.team with
  | none => s
  | some uid => match s.team? uid with
    | none => s
    | some t =>
      let fr := match s.ctx? h.g.ctx with
        | some x => frameAddr x h.r.core h.r.slot
        | none => 0
      endTeam (s.setTeam { t with cause := cause, causeGroup := BitVec.ofNat 8 h.g.grpid, second := second
                                  frame := BitVec.ofNat 64 fr }) uid true false

/-- Enter the handler: the frame, what is saved, the trap registers, the entry (R201). A retry starts at the trapping step, or at
the step that this issue was to start at (R353). -/
def enterHandler (s : State) (h : Here) (w : Words) (t : TrapInfo) (entry : DWord) : State :=
  let s1 := writeFrame s h w t
  let v := h.f.view
  s1.put { h with
    g := { h.g with
      reissue := if h.g.reissue = some h.r.frag then none else h.g.reissue
      handler := some ⟨h.r.frag, h.f.pc, w.pfx.isSome, v.rm, v.en, if t.step = 0 then h.f.resume else t.step, t.cause⟩ }
    f := { h.f with pc := entry, status := .ready, resume := 0, ahead := [], passed := [], view := { v with en := 0#4 } } }

/-- TAKING A TRAP (R194 to R203). The instruction has committed nothing. A leap-program group stops; while another
fragment's handler runs the fragment is held; inside its own handler, or with no trap entry, the team ends; else results
settle, the epoch ends, the frame is written and the handler is entered. The frame is written with the order of a release at `.grp`
(R199): until the work of that release is done the fragment waits, and its instruction's checks are made anew (log 52). -/
def takeTrap (s : State) (h : Here) (w : Words) (t : TrapInfo) : State :=
  if h.g.team.isNone then stopLeap s h
  else match h.g.handler with
  | some d =>
    if d.frag = h.r.frag then endByTrap s h d.cause t.cause
    else s.put { h with
      g := { h.g with reissue := if h.g.reissue = some h.r.frag then none else h.g.reissue }
      f := { h.f with held := .stopped, status := .ready, ahead := [], passed := [] } }
  | none =>
    let r := releaseWork s h .grp
    let sh := settleAll r.1 h
    let h1 := sh.2.endEpoch
    match trapEntry s h.g with
    | some e => if r.2 then enterHandler sh.1 h1 w t e else r.1.put (h.wait .suspended)
    | none => endByTrap (writeFrame (sh.1.put h1) h1 w t) h1 t.cause 0#8

/-- LEAVING A HANDLER (R204): numbers 56 to 63 name the group's registers again, the rounding mode and enables are
restored, the PC is the trapping instruction's or the next one's, and a held fragment issues again. -/
def leaveHandler (s : State) (h : Here) (d : Handler) (skip : Bool) : State :=
  let sh := settleAll s h
  let h1 := sh.2
  let v := h1.f.view
  let h2 := { h1 with
    g := { h1.g with handler := none }
    f := { h1.f with
      pc := if skip then d.pc + (if d.prefixed then 8#64 else 4#64) else d.pc
      status := .ready, resume := if skip then 0 else d.step
      view := { v with rm := d.rm, en := d.en } } }
  sh.1.setGroup h.r.core h.r.slot (some h2.group.handlerEnded)

end Sys2Proof.Machine
end

