-- ==== Sys2Proof/Machine/Operands.lean ====
section
/-! DEFINITION. Operands of lane instructions, direct and indexed (R58 to R60, R91), the checks at issue in the order
of R197 (roles, budget, index ranges, poisoned sources), the reuse table's lookups (R69 to R71, R74), and the one way in
which a lane instruction runs: checks, lookup, classes, commit (R153, R155, R148).
-/

namespace Sys2Proof.Machine

/-! ## Operand forms -/

/-- A lane source: a register, or the register each lane names through a window (R58). -/
inductive Src where
  | reg (r : Reg)
  | win (w : BitVec 2) (x : BitVec 3)
  deriving DecidableEq, Repr

/-- A lane destination: none, registers from one up, the register each lane names, or an index register (R91). -/
inductive Dst where
  | none
  | regs (r : Reg) (n : Nat)
  | win (w : BitVec 2) (x : BitVec 3)
  | index (x : BitVec 3)
  deriving DecidableEq, Repr

/-- Operand A of an LR word. -/
def srcA (ix : Option Ix) (a : Reg) : Src := match ix with
  | some x => if x.ai then .win x.aw x.ax else .reg a
  | none => .reg a

/-- Operand B of an LR word. -/
def srcB (ix : Option Ix) (b : Reg) : Src := match ix with
  | some x => if x.bi then .win x.bw x.bx else .reg b
  | none => .reg b

/-- Destination D of an LR word (R91). -/
def dstD (ix : Option Ix) (d : Reg) : Dst := match ix with
  | some x => if x.dxr then .index (d.setWidth 3) else if x.di then .win x.dw x.dx else .regs d 1
  | none => .regs d 1

/-- D read as a source (`IMAD`, `FMA`, …). Under DXR the addend is the vector register (log 40). -/
def srcD (ix : Option Ix) (d : Reg) : Src := match ix with
  | some x => if x.di then .win x.dw x.dx else .reg d
  | none => .reg d

/-- The register that lane l names through a window (R58). -/
def Here.named (h : Here) (w : BitVec 2) (x : BitVec 3) (l : Fin 32) : Nat := (h.w w).base.toNat + (h.x x)[l].toNat

/-- The vector register with a number that may lie beyond the file. -/
def Here.vregAt (h : Here) (n : Nat) : VReg := if n < 64 then h.vreg (BitVec.ofNat 6 n) else VReg.zero

/-- A source's lanes. -/
def Here.read (h : Here) : Src → Lanes Word
  | .reg r => h.v r
  | .win w x => Lanes.make (fun l => (h.vregAt (h.named w x l)).lanes[l])

/-- The poisoned lanes of a source (R218). -/
def Here.poisonOf (h : Here) : Src → LaneMask
  | .reg r => (h.vreg r).poison
  | .win w x => maskOf (fun l => (h.vregAt (h.named w x l)).poison.getLsbD l.val)

/-- The distinct registers below 64 that active lanes name, ascending. -/
def Here.namedRegs (h : Here) (w : BitVec 2) (x : BitVec 3) (ex : LaneMask) : List Reg :=
  ((lanesIn ex).foldl (fun t l => setAdd t (h.named w x l)) []).filterMap (fun n => if n < 64 then some (BitVec.ofNat 6 n) else none)

/-- The registers from r up. -/
def regsFrom (r : Reg) (n : Nat) : List Reg := (List.range n).map (fun i => r + BitVec.ofNat 6 i)

/-- The registers a destination names. -/
def Here.dstRegs (h : Here) (ex : LaneMask) : Dst → List Reg
  | .none => []
  | .regs r n => regsFrom r n
  | .win w x => h.namedRegs w x ex
  | .index _ => []

/-! ## The shape of a lane instruction -/

/-- What the checks and the key of a lane instruction need. -/
structure LaneShape where
  i : Instr
  k : KReg
  d : Dst
  /-- The operands in the fields A and B, for R59. -/
  a : Option Src
  b : Option Src
  /-- Every vector register it reads, in operand order (R69, R219). -/
  reads : List Src
  /-- Every uniform register it reads (R69). -/
  uniform : List Reg
  /-- The lookahead of an LL or LM instruction; none where the result takes a single clock (R50, R94). -/
  la : Option Nat

/-- The words of an instruction, for a frame (R200). -/
def wordsOf (i : Instr) : Words := match encode i with
  | some c => ⟨c.2, c.1.map xpWord⟩
  | none => ⟨0#32, none⟩

/-- Take a trap of an instruction. -/
def trapOf (s : State) (h : Here) (i : Instr) (t : TrapInfo) : State := takeTrap s h (wordsOf i) t

/-- Take a trap that lists the fragment's lanes and no address. -/
def plainTrap (s : State) (h : Here) (i : Instr) (cause sub : Byte) : State := trapOf s h i (.plain cause sub h.lanes)

/-- The team of a group. -/
def teamOf (s : State) (h : Here) : Option Team := h.g.team.bind s.team?

/-- Go on past an instruction. -/
def next (s : State) (h : Here) (i : Instr) : State := s.put (h.advance i.bytes)

/-! ## Roles (R21, R22) -/

/-- The classes of R21. -/
inductive RoleClass where
  | copy | matrix | padMove | lane | control
  deriving DecidableEq, Repr

/-- R21's table. -/
def roleAllows : Role → RoleClass → Bool
  | .combined, _ => true
  | _, .control => true
  | .copy, .copy => true
  | .matrix, .matrix => true
  | .matrix, .padMove => true
  | .vector, .padMove => true
  | .vector, .lane => true
  | .copy, .matrix | .copy, .padMove | .copy, .lane | .matrix, .copy | .matrix, .lane | .vector, .copy | .vector, .matrix => false

/-- The words that a leap-program group may issue (R403). -/
def leapMay (i : Instr) : Bool := match encode i with
  | some c =>
    let g := (c.2.extractLsb' 24 7).toNat
    c.2.msb && (decide (g ≤ 9) || (decide (0x10 ≤ g) && decide (g ≤ 0x18)) || (decide (0x20 ≤ g) && decide (g ≤ 0x22)) ||
      g == 0x24 || g == 0x46 || g == 0x47)
  | none => false

/-- Run an instruction word on the issuing fragment, after the role check; a leap-program group stops at a word it may not issue. -/
def onFragment (s : State) (i : Instr) (cl : RoleClass) (f : Here → State) : Host.Outcome State Fault Refusal :=
  match s.here? with
  | none => .fault .noFragment
  | some h => .next (
    if h.g.team.isNone && !leapMay i then stopLeap s h
    else if roleAllows h.g.role cl then f h
    else plainTrap s h i cRole 0#8)

/-! ## The budget (R50, R51) -/

/-- How far an instruction would raise the group's charge. It is judged before the lanes are computed, by EXEC, so that a cross-lane
result counts its register though it may turn out to write no lane of it (R237, R244; log 50); a register whose first value is in
flight counts as mapped (R50). -/
def Here.raises (h : Here) (ex : LaneMask) (d : Dst) (late : Bool) : Nat :=
  let rs := (h.dstRegs ex d).filter (fun r => !h.trapReg r)
  if late then rs.length
  else
    let ps := h.g.pendRegs
    (rs.filter (fun r => (regGet h.g.v r).isNone && !ps.any (fun p => p.reg == r && !p.trap && !p.dropped))).length

/-- R51: wait for a result in flight, or trap, when the charge would pass the budget. -/
def budgetGate (s : State) (h : Here) (i : Instr) (rise : Nat) : Option State :=
  if rise = 0 || decide (h.group.charge + rise ≤ h.g.budget) then none
  else if h.group.inFlight then some (s.put (h.wait .result))
  else some (plainTrap s h i cIllegal 0x01#8)

/-! ## Index ranges (R59) -/

/-- The lanes at fault of one indexed operand, and whether its window reaches past v63. -/
def Here.indexBad (h : Here) (ex : LaneMask) (w : BitVec 2) (x : BitVec 3) : LaneMask × Bool :=
  let win := h.w w
  if 64 < win.base.toNat + win.len.toNat then (ex, true)
  else (ex &&& maskOf (fun l => decide (win.len.toNat ≤ (h.x x)[l].toNat)), false)

/-- R59 for the three operands: sub-cause and lanes at fault. -/
def Here.indexCheck (h : Here) (ex : LaneMask) (d : Dst) (a b : Option Src) : Byte × LaneMask :=
  let one (bit : Byte) (o : Option (BitVec 2 × BitVec 3)) : Byte × LaneMask := match o with
    | none => (0#8, 0#32)
    | some p =>
      let r := h.indexBad ex p.1 p.2
      if r.1 = 0#32 then (0#8, 0#32) else (bit ||| (if r.2 then 8#8 else 0#8), r.1)
  let ofSrc (o : Option Src) : Option (BitVec 2 × BitVec 3) := match o with
    | some (.win w x) => some (w, x)
    | some (.reg _) => none
    | none => none
  let x := one 1#8 (match d with
    | .win w x => some (w, x)
    | .none | .regs _ _ | .index _ => none)
  let y := one 2#8 (ofSrc a)
  let z := one 4#8 (ofSrc b)
  (x.1 ||| y.1 ||| z.1, x.2 ||| y.2 ||| z.2)

/-- The poisoned active lanes of every source (R219). -/
def Here.poisonRead (h : Here) (ex : LaneMask) (rs : List Src) : LaneMask :=
  rs.foldl (fun m r => m ||| (ex &&& h.poisonOf r)) 0#32

/-- The checks at issue (R197 steps 5 to 7). -/
def issueGates (s : State) (h : Here) (sh : LaneShape) (ex : LaneMask) : Option State :=
  match budgetGate s h sh.i (h.raises ex sh.d sh.la.isSome) with
  | some s' => some s'
  | none =>
    let ic := h.indexCheck ex sh.d sh.a sh.b
    if ic.2 ≠ 0#32 then some (trapOf s h sh.i (.plain cIndexRange ic.1 ic.2))
    else
      let p := h.poisonRead ex sh.reads
      if p ≠ 0#32 then some (trapOf s h sh.i (.plain cEcc 0x01#8 p)) else none

/-! ## The reuse table (R69 to R71, R74) -/

/-- R74's table, by the word. -/
def reusableWord (w : Word) : Bool :=
  let lop := (w.extractLsb' 25 6).toNat
  let f := (w.extractLsb' 18 3).toNat
  if w.msb then false
  else if lop = 0 then f != 1 && f != 3
  else if lop = 5 then false
  else if lop = 0x11 then f != 6
  else decide (lop ≤ 6) || (decide (8 ≤ lop) && decide (lop ≤ 0x1A)) || lop == 0x1E || lop == 0x3D ||
    (decide (0x20 ≤ lop) && decide (lop ≤ 0x2D)) || lop == 0x30 || lop == 0x32

def reusable (i : Instr) : Bool := match encode i with
  | some c => reusableWord c.2
  | none => false

/-- Names of registers, when each has one. -/
def Here.names (h : Here) (rs : List Reg) : Option (List RName) := rs.mapM h.name

/-- The key of a lookup, when the instruction is eligible. `old` says whether the old destinations belong to it. -/
def Here.reuseKey (h : Here) (sh : LaneShape) (ex : LaneMask) (old : Bool) (mem : Option MemKey) : Option ReuseKey :=
  let direct := sh.reads.filterMap (fun r => match r with
    | .reg r => some r
    | .win _ _ => none)
  match sh.d with
  | .win _ _ | .index _ => none
  | .none | .regs _ _ =>
    let ds := h.dstRegs ex sh.d
    if !reusable sh.i || direct.length != sh.reads.length || (ds ++ sh.uniform).any h.trapReg then none
    else
      match h.names direct, (if old then h.names ds else some []) with
      | some ns, some os =>
        some { instr := sh.i, ctx := h.g.ctx, sources := ns, uniform := sh.uniform.map h.s, active := ex, part := h.f.view.part
               rm := h.f.view.rm, en := h.f.view.en, old := os, mem := mem }
      | _, _ => none

/-- What a core has noted of a group's reads in an epoch, none else. -/
def Core.lastRead (k : Core) (group epoch : Nat) : LastRead :=
  (k.seen.find? (fun r => r.group == group && r.epoch == epoch)).getD ⟨group, epoch, [], []⟩

/-- A group's loads have read some bytes, of memory or of the scratchpad: they are the last it has read of them. -/
def noteRead (s : State) (h : Here) (pad : Bool) (bs : List (Nat × Byte)) : State :=
  let k := s.core h.r.core
  let r := k.lastRead h.g.uid h.g.epoch
  let put (t : List (Nat × Byte)) : List (Nat × Byte) := bs.foldl (fun t b => tablePut t b.1 b.2) t
  let r1 : LastRead := if pad then { r with pad := put r.pad } else { r with mem := put r.mem }
  s.setCore h.r.core { k with seen := r1 :: k.seen.filter (fun x => x.group != h.g.uid) }

/-- An entry of one group serves it only while the group has read nothing else since of what the entry's load read: a later read returns no
older write than an earlier one (R321). -/
def MemKey.latest (k : Core) (m : MemKey) : Bool := match m.epoch with
  | none => true
  | some g =>
    let r := k.lastRead g.1 g.2
    m.read.all (fun b => tableFind (if m.pad then r.pad else r.mem) b.1 == some b.2)

/-- A key without what the model notes beside it. -/
def ReuseKey.bare (k : ReuseKey) : ReuseKey := { k with mem := k.mem.map (fun m => { m with read := [], pad := false }) }

/-- The entry with a key (R69). -/
def State.reuseFind (s : State) (c : Fin 256) (key : Option ReuseKey) : Option ReuseEntry :=
  key.bind (fun k => (s.core c).reuse.find? (fun e => e.key.bare == k.bare && e.key.mem.all (MemKey.latest (s.core c))))

/-- Count an eligible lookup (R71). -/
def State.countLookup (s : State) (c : Fin 256) (key : Option ReuseKey) (hit : Bool) : State :=
  match key with
  | none => s
  | some _ =>
    let k := s.core c
    s.setCore c (if hit then { k with rhit := k.rhit + 1#64 } else { k with rmiss := k.rmiss + 1#64 })

/-! ## Results and commit -/

/-- What a lane instruction delivers: a value and its poison for each destination register, the lanes written, codes,
flags, classes (R147), lanes that divide by zero (R165), and SCC.E where it is written (R236). -/
structure LaneResult where
  outs : List (Lanes Word × LaneMask)
  mask : LaneMask
  codes : CodeSet
  cc : LaneCC
  flags : Flags
  cls : Fin 4 → LaneMask
  divz : LaneMask
  e : Option Bool

def LaneCC.zero : LaneCC := ⟨0#32, 0#32, 0#32, 0#32⟩

/-- A result of values alone. -/
def LaneResult.values (ex : LaneMask) (outs : List (Lanes Word)) : LaneResult :=
  { outs := outs.map (fun o => (o, 0#32)), mask := ex, codes := codesNone, cc := LaneCC.zero, flags := 0#5, cls := fun _ => 0#32
    divz := 0#32, e := none }

/-- The union of the flags of active lanes. -/
def flagsOf (os : Lanes LaneOut) : Flags := os.toList.foldl (fun f o => f ||| o.flags) 0#5

/-- A result from a rule for each active lane. -/
def perLane (ex : LaneMask) (codes : CodeSet) (f : Fin 32 → LaneOut) : LaneResult :=
  let os : Lanes LaneOut := Lanes.make (fun l => if ex.getLsbD l.val then f l else LaneOut.idle)
  { outs := [(Lanes.make (fun l => os[l].val), 0#32)], mask := ex, codes := codes
    cc := ⟨maskOf (fun l => os[l].c), maskOf (fun l => os[l].z), maskOf (fun l => os[l].n), maskOf (fun l => os[l].v)⟩
    flags := flagsOf os, cls := fun c => ex &&& maskOf (fun l => os[l].cls.getLsbD c.val), divz := 0#32, e := none }

/-- The lowest enabled class that active lanes produce, with its lanes (R148). -/
def trapClass (en : BitVec 4) (cls : Fin 4 → LaneMask) : Option (Fin 4) :=
  (List.finRange 4).find? (fun c => en.getLsbD c.val && cls c != 0#32)

/-- A single-clock write of one destination register; it discards an older result under lookahead (R95). -/
def writeV (sh : State × Here) (r : Reg) (o : Lanes Word × LaneMask) (m : LaneMask) : State × Here :=
  let h := sh.2
  let own := !h.g.firstInFlight r
  let h1 := if m = 0#32 then h else { h with f := { h.f with pending := dropVector h.f.pending own r } }
  commitV sh.1 h1 r o.1 m o.2

/-- Write an index register's low bytes (R91). -/
def Here.setX (h : Here) (n : BitVec 3) (x : Lanes Word) (m : LaneMask) : Here :=
  let old := h.x n
  { h with g := { h.g with x := kSet h.g.x n (Lanes.make (fun l => if m.getLsbD l.val then x[l].setWidth 8 else old[l])) } }

/-- The first result, for a destination of one value. -/
def LaneResult.first (r : LaneResult) : Lanes Word × LaneMask := r.outs.headD (zeroLanes, 0#32)

/-- Write the destinations now. -/
def writeDst (s : State) (h : Here) (d : Dst) (r : LaneResult) : State × Here :=
  match d with
  | .none => (s, h)
  | .regs d n => ((regsFrom d n).zip r.outs).foldl (fun a x => writeV a x.1 x.2 r.mask) (s, h)
  | .win w x =>
    (h.namedRegs w x r.mask).foldl (fun a n =>
      writeV a n r.first (r.mask &&& maskOf (fun l => h.named w x l == n.toNat))) (s, h)
  | .index x => (s, h.setX x r.first.1 r.mask)

/-- The results of an instruction under lookahead (R94, R50): none where it writes no lane. -/
def pendOf (h : Here) (d : Reg) (n : Nat) (r : LaneResult) (left : Nat) (key : Option ReuseKey) : Pending :=
  { left := left, uni := [], zMask := 0#32, zVal := 0#32, key := if r.mask = 0#32 then none else key, flags := r.flags
    regs := if r.mask = 0#32 then [] else ((regsFrom d n).zip r.outs).map (fun x =>
      { reg := x.1, lanes := x.2.1, mask := r.mask, poison := x.2.2, trap := h.trapReg x.1, arrived := false, dropped := false, charged := true }) }

/-- Commit: registers now or under the window, codes, flags, E, a reuse entry, and the next instruction (R153, R70, R94). -/
def commitLane (s : State) (h : Here) (sh : LaneShape) (ex : LaneMask) (r : LaneResult) (key : Option ReuseKey) : State :=
  let pick (b : Bool) (m : LaneMask) : Option LaneMask := if b then some m else none
  let h1 := (h.setCC ex (pick r.codes.c r.cc.c) (pick r.codes.z r.cc.z) (pick r.codes.n r.cc.n) (pick r.codes.v r.cc.v)).raise r.flags
  let h2 := match r.e with
    | some e => h1.setE e
    | none => h1
  let done (a : State × Here) : State :=
    let s1 := match key with
      | some key => addEntry (a.1.put a.2) h.r.core key (a.2.results (h.dstRegs ex sh.d))
          (if r.codes = codesNone then none else some a.2.g.cc) r.flags
      | none => a.1
    (next s1 a.2 sh.i).evictNames h.r.core
  match sh.d, sh.la with
  | .regs d n, some (la + 1) =>
    let p := pendOf h2 d n r (la + 1) key
    let h3 := if r.mask = 0#32 then h2 else { h2 with f := { h2.f with pending := (regsFrom d n).foldl (dropVector · true) h2.f.pending } }
    s.put ((h3.advance sh.i.bytes).pend p)
  | _, _ => done (writeDst s h2 sh.d r)

/-- R97: while an enable is 1, `FDIV`, the SFU and `MVT` issue as with LA 0. -/
def Here.laFor (h : Here) (la : BitVec 4) : Nat := if h.f.view.en = 0#4 then la.toNat else 0

/-- From the results on: the divisor check, the lookup, the classes, the commit (R155 step 7, R71, R148). -/
def finishLane (s : State) (h : Here) (sh : LaneShape) (ex : LaneMask) (old : Bool) (mem : Option MemKey) (r : LaneResult) : State :=
  if r.divz ≠ 0#32 then trapOf s h sh.i (.plain cIntDivzero 0#8 r.divz)
  else
    let key := h.reuseKey sh ex old mem
    let hit := (s.reuseFind h.r.core key).isSome
    let s1 := s.countLookup h.r.core key hit
    match trapClass h.f.view.en r.cls with
    | some c => trapOf s1 h sh.i (.plain (0x30#8 + BitVec.ofNat 8 c.val) 0#8 (r.cls c))
    | none => commitLane s1 h sh ex r (if hit then none else key)

/-- A lane instruction of one fragment: nothing with no active lane (R101), else the checks and the commit. -/
def runLane (s : State) (h : Here) (sh : LaneShape) (f : LaneMask → LaneResult) : State :=
  let ex := h.exec sh.k
  if ex = 0#32 then next s h sh.i
  else match issueGates s h sh ex with
    | some s' => s'
    | none => finishLane s h sh ex (ex != 0xFFFFFFFF#32) none (f ex)

/-! ## The LR, LI and LL forms -/

/-- Codes only where C is 1 (R62). -/
def codesIf (c : Bool) (x : CodeSet) : CodeSet := if c then x else codesNone

/-- Three registers: D := f a b (R76). -/
def lrB (s : State) (i : Instr) (o : LrB) (codes : CodeSet) (f : Here → Fin 32 → Word → Word → LaneOut) : Host.Outcome State Fault Refusal :=
  onFragment s i .lane (fun h =>
    let a := srcA o.ix o.a
    let b := srcB o.ix o.b
    let va := h.read a
    let vb := h.read b
    runLane s h ⟨i, o.k, dstD o.ix o.d, some a, some b, [a, b], [], none⟩ (fun ex =>
      perLane ex (codesIf o.c codes) (fun l => f h l va[l] vb[l])))

/-- Three registers with D read as well: D := f a b d. -/
def lrD (s : State) (i : Instr) (o : LrB) (codes : CodeSet) (f : Here → Word → Word → Word → LaneOut) : Host.Outcome State Fault Refusal :=
  onFragment s i .lane (fun h =>
    let a := srcA o.ix o.a
    let b := srcB o.ix o.b
    let d := srcD o.ix o.d
    let va := h.read a
    let vb := h.read b
    let vd := h.read d
    runLane s h ⟨i, o.k, dstD o.ix o.d, some a, some b, [a, b, d], [], none⟩ (fun ex =>
      perLane ex (codesIf o.c codes) (fun l => f h va[l] vb[l] vd[l])))

/-- Unary. -/
def lrU (s : State) (i : Instr) (o : LrU) (codes : CodeSet) (f : Word → LaneOut) : Host.Outcome State Fault Refusal :=
  onFragment s i .lane (fun h =>
    let a := srcA o.ix o.a
    let va := h.read a
    runLane s h ⟨i, o.k, dstD o.ix o.d, some a, none, [a], [], none⟩ (fun ex =>
      perLane ex (codesIf o.c codes) (fun l => f va[l])))

/-- A compare: codes only. -/
def lrC (s : State) (i : Instr) (o : LrC) (f : Word → Word → LaneOut) : Host.Outcome State Fault Refusal :=
  onFragment s i .lane (fun h =>
    let a := srcA o.ix o.a
    let b := srcB o.ix o.b
    let va := h.read a
    let vb := h.read b
    runLane s h ⟨i, o.k, .none, some a, some b, [a, b], [], none⟩ (fun ex =>
      perLane ex codesAll (fun l => f va[l] vb[l])))

/-- `FRND` and the conversions: one source and a rounding mode (R98). -/
def lrCvt (s : State) (i : Instr) (o : CvtOp) (f : BitVec 2 → Bool → Word → LaneOut) : Host.Outcome State Fault Refusal :=
  onFragment s i .lane (fun h =>
    let a := srcA o.ix o.a
    let va := h.read a
    let rm : BitVec 2 := match o.m with
      | .fpc => h.f.view.rm
      | .rne => 0#2
      | .rtz => 1#2
      | .rdn => 2#2
      | .rup => 3#2
    runLane s h ⟨i, o.k, dstD o.ix o.d, some a, none, [a], [], none⟩ (fun ex =>
      perLane ex (codesIf o.c codesAll) (fun l => f rm o.s va[l])))

/-- A lane register and an immediate (R164). -/
def liRun (s : State) (i : Instr) (k : KReg) (c : Bool) (d a : Reg) (codes : CodeSet) (f : Word → LaneOut) : Host.Outcome State Fault Refusal :=
  onFragment s i .lane (fun h =>
    let va := h.v a
    runLane s h ⟨i, k, .regs d 1, none, none, [.reg a], [], none⟩ (fun ex =>
      perLane ex (codesIf c codes) (fun l => f va[l])))

/-- The immediate of an LI word (R77, R164). -/
def liImm (imm : BitVec 9) : Option (BitVec 23) → Word
  | none => imm.signExtend 32
  | some h => h ++ imm

/-- An LL word of two sources, no codes. `late` is its lookahead in force. -/
def llB (s : State) (i : Instr) (o : LlB) (enables : Bool) (divides : Bool) (f : Here → Word → Word → LaneOut) : Host.Outcome State Fault Refusal :=
  onFragment s i .lane (fun h =>
    let va := h.v o.a
    let vb := h.v o.b
    let la := if enables then h.laFor o.la else o.la.toNat
    runLane s h ⟨i, o.k, .regs o.d 1, none, none, [.reg o.a, .reg o.b], [], some la⟩ (fun ex =>
      { perLane ex codesNone (fun l => f h va[l] vb[l]) with
        divz := if divides then ex &&& maskOf (fun l => vb[l] == 0#32) else 0#32 }))

/-- An SFU function (R174). -/
def llU (s : State) (i : Instr) (o : LlU) (f : BitVec 2 → Word → LaneOut) : Host.Outcome State Fault Refusal :=
  onFragment s i .lane (fun h =>
    let va := h.v o.a
    runLane s h ⟨i, o.k, .regs o.d 1, none, none, [.reg o.a], [], some (h.laFor o.la)⟩ (fun ex =>
      perLane ex codesNone (fun l => f h.f.view.rm va[l])))

/-! ## The uniform forms (R81, R82, R189) -/

/-- A uniform instruction that always goes on: it changes the view. -/
def uniRun (s : State) (i : Instr) (f : Here → Here) : Host.Outcome State Fault Refusal :=
  onFragment s i .control (fun h => next s (f h) i)

end Sys2Proof.Machine
end

