-- ==== Sys2Proof/Machine/Packed.lean ====
section
/-! DEFINITION. Packed instructions (R181 to R188): elements of a lane, what each operation does to an element, and the
conversions between packed types.
-/

namespace Sys2Proof.Machine

/-! ## Elements (R127, R131, R134) -/

/-- An element's outcome: its bits, flags and classes. -/
structure ElemOut where
  bits : Nat
  flags : Flags
  cls : BitVec 4
  deriving DecidableEq, Repr

/-- The float format of a packed type. -/
def pfmt : PType → Option FloatFmt
  | .f16 => some fmtF16 | .bf16 => some fmtBf16 | .e4m3 => some fmtE4m3 | .e5m2 => some fmtE5m2
  | .e3m2 => some fmtE3m2 | .e2m3 => some fmtE2m3 | .e2m1 => some fmtE2m1
  | .i16 | .n16 | .i8 | .n8 | .i4 | .n4 => none

def psigned : PType → Bool
  | .i16 | .i8 | .i4 => true
  | .n16 | .n8 | .n4 | .f16 | .bf16 | .e4m3 | .e5m2 | .e3m2 | .e2m3 | .e2m1 => false

/-- Element j of a lane word, of width w. -/
def elemAt (w : Nat) (x : Word) (j : Nat) : Nat := x.toNat / 2 ^ (w * j) % 2 ^ w

/-- Elements packed into a word, element 0 lowest. -/
def packElems (w : Nat) : List Nat → Nat
  | [] => 0
  | e :: es => e + 2 ^ w * packElems w es

/-- An integer element's value. -/
def elemToInt (signed : Bool) (w b : Nat) : Int := if signed ∧ 2 ^ (w - 1) ≤ b then Int.ofNat b - 2 ^ w else Int.ofNat b

/-- The range of an integer type. -/
def intLo (signed : Bool) (w : Nat) : Int := if signed then -2 ^ (w - 1) else 0
def intHi (signed : Bool) (w : Nat) : Int := if signed then 2 ^ (w - 1) - 1 else 2 ^ w - 1

/-- An integer element, wrapped or clamped (R181). -/
def intElem (signed : Bool) (w : Nat) (sat : Bool) (z : Int) : ElemOut :=
  let y := if sat then max (intLo signed w) (min (intHi signed w) z) else z
  ⟨(y % 2 ^ w).toNat, 0#5, 0#4⟩

/-- A float element. -/
def floatElem (r : FRes) (ins : List FVal) : ElemOut := ⟨r.bits, r.flags, classOf r ins⟩

/-- The bits that an element's own encoding has (R131, R184): six for e3m2 and e2m3. -/
def encBits (t : PType) : Nat := match pfmt t with
  | some f => f.magBits + 1
  | none => t.width

/-- A lane from its elements. -/
def laneOfElems (w : Nat) (es : List ElemOut) : LaneOut :=
  { LaneOut.plain (BitVec.ofNat 32 (packElems w (es.map (fun e => e.bits)))) with
    flags := es.foldl (fun f e => f ||| e.flags) 0#5, cls := es.foldl (fun c e => c ||| e.cls) 0#4 }

/-- Every element of a lane by one rule. -/
def mapElems (t : PType) (f : Nat → ElemOut) : LaneOut := laneOfElems t.width ((List.range (32 / t.width)).map f)

/-! ## Running a packed word -/

/-- The mask register of an LP word (R78). -/
def lpMask (k : BitVec 2) : KReg := 0#1 ++ k

/-- A packed instruction that reads A, B and, where `d` says so, D. -/
def lpRun (s : State) (i : Instr) (o : LpB) (b d : Bool) (f : Here → Word → Word → Word → LaneOut) : Host.Outcome State Fault Refusal :=
  onFragment s i .lane (fun h =>
    let va := h.v o.a
    let vb := h.v o.b
    let vd := h.v o.d
    let reads := [Src.reg o.a] ++ (if b then [Src.reg o.b] else []) ++ (if d then [Src.reg o.d] else [])
    runLane s h ⟨i, lpMask o.k, .regs o.d 1, none, none, reads, [], none⟩ (fun ex =>
      perLane ex codesNone (fun l => f h va[l] vb[l] vd[l])))

/-- An operation with an integer rule and a float rule on elements a, b, d (R183). -/
def elementwise (o : LpB) (rm : BitVec 2) (fi : Int → Int → Int → Int)
    (ff : FloatFmt → BitVec 2 → FVal → FVal → FVal → FRes) (three : Bool) (a b d : Word) : LaneOut :=
  let w := o.t.width
  mapElems o.t (fun j => match pfmt o.t with
    | none =>
      let z (x : Word) : Int := elemToInt (psigned o.t) w (elemAt w x j)
      intElem (psigned o.t) w o.s (fi (z a) (z b) (z d))
    | some f =>
      let v (x : Word) : FVal := FVal.decode f (elemAt w x j)
      floatElem (ff f rm (v a) (v b) (v d)) (if three then [v a, v b, v d] else [v a, v b]))

/-- Minimum or maximum (R183, R167). -/
def elemMinMax (o : LpB) (hi : Bool) (a b : Word) : LaneOut :=
  let w := o.t.width
  mapElems o.t (fun j => match pfmt o.t with
    | none =>
      let z (x : Word) : Int := elemToInt (psigned o.t) w (elemAt w x j)
      intElem (psigned o.t) w false (if hi then max (z a) (z b) else min (z a) (z b))
    | some f => floatElem (minMaxRes f hi (elemAt w a j) (elemAt w b j)) [FVal.decode f (elemAt w a j), FVal.decode f (elemAt w b j)])

/-- Absolute value (R183): the sign bit of a float element is cleared (log 41). -/
def elemAbs (o : LpB) (a : Word) : LaneOut :=
  let w := o.t.width
  mapElems o.t (fun j => match pfmt o.t with
    | none => intElem (psigned o.t) w o.s (Int.ofNat (elemToInt (psigned o.t) w (elemAt w a j)).natAbs)
    | some f => ⟨elemAt w a j % 2 ^ f.magBits, 0#5, 0#4⟩)

/-- A compare: all ones or all zeros (R184). -/
def elemCmp (t : PType) (lt : Bool) (a b : Word) : LaneOut :=
  let w := t.width
  mapElems t (fun j =>
    let out (p : Bool) (fl : Flags) : ElemOut := ⟨if p then 2 ^ encBits t - 1 else 0, fl, 0#4⟩
    match pfmt t with
    | none =>
      let z (x : Word) : Int := elemToInt (psigned t) w (elemAt w x j)
      out (if lt then decide (z a < z b) else z a == z b) 0#5
    | some f =>
      let x := FVal.decode f (elemAt w a j)
      let y := FVal.decode f (elemAt w b j)
      let fl := if x.signalling || y.signalling then flNV else 0#5
      out (!x.isNan && !y.isNan && x.cmp y == (if lt then .lt else .eq)) fl)

/-- A float chain (R150): the accumulator and the flags so far. -/
def chain (rm : BitVec 2) (init : Word) (terms : List (FVal × FVal)) : Word × Flags :=
  terms.foldl (fun acc t =>
    let c := f32 acc.1
    let r := fmaRes fmtF32 rm false [t.1, t.2, c] t.1 t.2 c
    (BitVec.ofNat 32 r.bits, acc.2 ||| r.flags)) (init, 0#5)

/-- The outcome of a chain, its class judged on the result and every input (R147). -/
def chainOut (rm : BitVec 2) (init : Word) (terms : List (FVal × FVal)) : LaneOut :=
  let r := chain rm init terms
  let v := f32 r.1
  let ins := f32 init :: terms.flatMap (fun t => [t.1, t.2])
  { LaneOut.plain r.1 with flags := r.2, cls := classOf ⟨r.1.toNat, r.2, v.isNan, v.isInf⟩ ins }

/-- `PDOT` on one lane (R185). -/
def dotLane (t : PType) (rm : BitVec 2) (a b d : Word) : LaneOut :=
  let w := t.width
  let js := List.range (32 / w)
  match pfmt t with
  | some f => chainOut rm d (js.map (fun j => (FVal.decode f (elemAt w a j), FVal.decode f (elemAt w b j))))
  | none =>
    .plain (BitVec.ofInt 32 (js.foldl (fun z j =>
      z + elemToInt (psigned t) w (elemAt w a j) * elemToInt (psigned t) w (elemAt w b j)) (Int.ofNat d.toNat)))

/-- `PSAD` on one lane (R186). -/
def sadLane (t : PType) (a b d : Word) : LaneOut :=
  let w := t.width
  .plain (BitVec.ofNat 32 ((List.range (32 / w)).foldl (fun z j =>
    z + (elemToInt (psigned t) w (elemAt w a j) - elemToInt (psigned t) w (elemAt w b j)).natAbs) d.toNat))

/-! ## The instructions -/

def execPadd (o : LpB) (s : State) : Host.Outcome State Fault Refusal :=
  lpRun s (.padd o) o true false (fun h a b d =>
    elementwise o h.f.view.rm (fun a b _ => a + b) (fun f rm a b _ => addRes f rm o.s a b) false a b d)
def execPsub (o : LpB) (s : State) : Host.Outcome State Fault Refusal :=
  lpRun s (.psub o) o true false (fun h a b d =>
    elementwise o h.f.view.rm (fun a b _ => a - b) (fun f rm a b _ => subRes f rm o.s a b) false a b d)
def execPmul (o : LpB) (s : State) : Host.Outcome State Fault Refusal :=
  lpRun s (.pmul o) o true false (fun h a b d =>
    elementwise o h.f.view.rm (fun a b _ => a * b) (fun f rm a b _ => mulRes f rm o.s a b) false a b d)
def execPfma (o : LpB) (s : State) : Host.Outcome State Fault Refusal :=
  lpRun s (.pfma o) o true true (fun h a b d =>
    elementwise o h.f.view.rm (fun a b d => a * b + d) (fun f rm a b d => fmaRes f rm o.s [a, b, d] a b d) true a b d)
def execPmin (o : LpB) (s : State) : Host.Outcome State Fault Refusal :=
  lpRun s (.pmin o) o true false (fun _ a b _ => elemMinMax o false a b)
def execPmax (o : LpB) (s : State) : Host.Outcome State Fault Refusal :=
  lpRun s (.pmax o) o true false (fun _ a b _ => elemMinMax o true a b)
def execPabs (o : LpB) (s : State) : Host.Outcome State Fault Refusal :=
  lpRun s (.pabs o) o false false (fun _ a _ _ => elemAbs o a)
def execPavg (o : LpB) (s : State) : Host.Outcome State Fault Refusal :=
  lpRun s (.pavg o) o true false (fun h a b d =>
    elementwise o h.f.view.rm (fun a b _ => (a + b + 1) / 2) (fun f rm a b _ => addRes f rm false a b) false a b d)
def execPcmpeq (o : LpB) (s : State) : Host.Outcome State Fault Refusal :=
  lpRun s (.pcmpeq o) o true false (fun _ a b _ => elemCmp o.t false a b)
def execPcmplt (o : LpB) (s : State) : Host.Outcome State Fault Refusal :=
  lpRun s (.pcmplt o) o true false (fun _ a b _ => elemCmp o.t true a b)
def execPdot (o : LpB) (s : State) : Host.Outcome State Fault Refusal :=
  lpRun s (.pdot o) o true true (fun h a b d => dotLane o.t h.f.view.rm a b d)
def execPsad (o : LpB) (s : State) : Host.Outcome State Fault Refusal :=
  lpRun s (.psad o) o true true (fun _ a b d => sadLane o.t a b d)

/-- `PMOV` (R188): element idx into every element; the container bits of 6-bit types read 0 (R131). -/
def execPmov (o : LpB) (s : State) : Host.Outcome State Fault Refusal :=
  lpRun s (.pmov o) o false false (fun _ a _ _ =>
    mapElems o.t (fun _ => ⟨elemAt o.t.width a o.b.toNat % 2 ^ encBits o.t, 0#5, 0#4⟩))

/-! ## PCVT (R187) -/

/-- The float format of either type of a `PCVT`. -/
def cvtFmt : CvtType → Option FloatFmt
  | .packed t => pfmt t
  | .f32 => some fmtF32

def cvtSigned : CvtType → Bool
  | .packed t => psigned t
  | .f32 => false

/-- One element from one type to another. -/
def cvtElem (src dst : CvtType) (rm : BitVec 2) (sat : Bool) (b : Nat) : ElemOut :=
  match cvtFmt src, cvtFmt dst with
  | some f, some g => floatElem (cvtRes g rm sat (FVal.decode f b)) [FVal.decode f b]
  | some f, none =>
    let r := toIntRes (intLo (cvtSigned dst) dst.width) (intHi (cvtSigned dst) dst.width) rm sat (FVal.decode f b)
    ⟨(r.val % 2 ^ dst.width).toNat, r.flags, 0#4⟩
  | none, some g => floatElem (fromInt g rm sat (elemToInt (cvtSigned src) src.width b)) []
  | none, none => intElem (cvtSigned dst) dst.width sat (elemToInt (cvtSigned src) src.width b)

/-- The element sequence of a lane over source registers, register A first. -/
def cvtSource (w : Nat) (xs : List Word) : List Nat := xs.flatMap (fun x => (List.range (32 / w)).map (elemAt w x))

/-- Words of a list of elements, `per` to a word. -/
def cvtWords (w per : Nat) (es : List Nat) : Nat → List Word
  | 0 => []
  | n + 1 => BitVec.ofNat 32 (packElems w (es.take per)) :: cvtWords w per (es.drop per) n

/-- `PCVT` over registers A… to D…. -/
def execPcvt (o : PcvtOp) (s : State) : Host.Outcome State Fault Refusal :=
  onFragment s (.pcvt o) .lane (fun h =>
    let src : CvtType := if o.toU then .packed o.t else o.u
    let dst : CvtType := if o.toU then o.u else .packed o.t
    let rs := cvtRegs src.width dst.width
    let as := regsFrom o.a rs.1
    let vals := as.map h.v
    runLane s h ⟨.pcvt o, lpMask o.k, .regs o.d rs.2, none, none, as.map Src.reg, [], none⟩ (fun ex =>
      let lane (l : Fin 32) : List ElemOut :=
        if ex.getLsbD l.val then (cvtSource src.width (vals.map (fun v => v[l]))).map (cvtElem src dst h.f.view.rm o.s) else []
      let all : Lanes (List ElemOut) := Lanes.make lane
      let words : Lanes (List Word) := Lanes.make (fun l => cvtWords dst.width (32 / dst.width) (all[l].map (fun e => e.bits)) rs.2)
      { LaneResult.values ex ((List.range rs.2).map (fun i => Lanes.make (fun l => words[l].getD i 0#32))) with
        flags := all.toList.foldl (fun f es => es.foldl (fun f e => f ||| e.flags) f) 0#5
        cls := fun c => ex &&& maskOf (fun l => all[l].any (fun e => e.cls.getLsbD c.val)) }))

end Sys2Proof.Machine
end

