-- ==== Sys2Proof/Machine/Access.lean ====
section
/-! DEFINITION. What the memory instructions share: lane addresses (R281), checks of lanes and of ranges (R197), removed
lanes (R260), replicas of frozen lines (R274), the observer's records (R396), and the key of a load (R69).
-/

namespace Sys2Proof.Machine

/-! ## Addresses -/

/-- The register that starts pair number p (R80, R86, R87). -/
def pairReg (p : Nat) : Reg := BitVec.ofNat 6 (2 * p)

/-- Bytes of an access by SZ (R80, R198). -/
def szBytes (sz : BitVec 2) : Nat := match sz with
  | 0#2 => 1
  | 1#2 => 2
  | 2#2 => 4
  | _ => 16

/-- Registers that an access of a size moves. -/
def szRegs (sz : BitVec 2) : Nat := if sz = 3#2 then 4 else 1

/-- The address of a lane (R281). -/
def lmAddr (h : Here) (a : Reg) (p : BitVec 4) (sz : BitVec 2) (px : Option LmPx) (l : Fin 32) : DWord :=
  let off := (h.v a)[l].setWidth 64
  let scaled := match px with
    | some x => if x.sc then off * BitVec.ofNat 64 (szBytes sz) else off
    | none => off
  let disp := match px with
    | some x => x.disp.signExtend 64
    | none => 0#64
  h.sp (pairReg p.toNat) + scaled + disp

/-- The address of a global atomic's lane: the pair at B and the lane's word (R289). -/
def atomAddr (h : Here) (a b : Reg) (l : Fin 32) : DWord := h.sp b + (h.v a)[l].setWidth 64

/-! ## Checks -/

/-- The launch is a speculative task, whose writes trap `PRIV` (R375). -/
def isSpeculative (s : State) (h : Here) : Bool := match s.launch? h.g.launch with
  | some l => match l.kind with
    | .task _ sp => sp
    | .host => false
    | .node _ _ _ => false
  | none => false

/-- The buffers of a task's read set or write set, by its block's physical address (R372). -/
def taskSet (s : State) (addr count list : Nat) : List Nat :=
  (List.range (fwRead s (addr + count) 1)).map (fun i => fwRead s (addr + list + 2 * i) 2)
def taskReads (s : State) (addr : Nat) : List Nat := taskSet s addr 0x10 0x20
def taskWrites (s : State) (addr : Nat) : List Nat := taskSet s addr 0x11 0x30

/-- A `CPYO` of a speculative task may write this buffer: it is of the write set (R375). -/
def specMayWrite (s : State) (h : Here) (buffer : Option Nat) : Bool := match s.launch? h.g.launch, buffer with
  | some l, some b => (match l.kind with
    | .task addr _ => (taskWrites s addr).contains b
    | .host => false
    | .node _ _ _ => false)
  | _, _ => false

/-- An access that has passed its checks before: it goes to its place, and waits only for what it waited for, a thaw (R216, R277). -/
def Passed.check (s : State) (fr : FreezeRule) (a : Passed) : Check :=
  if fr = .mustThaw ∧ (List.range a.bytes).any (fun i => s.isThawing (a.place.pa + i)) then
    .wait 16 (.thaw (((List.range a.bytes).flatMap (fun i => s.thawsOver (a.place.pa + i))).eraseDups))
  else .ok a.place

/-- One access of the group, checked in its context. -/
def check1 (s : State) (h : Here) (acc : Access) (fr : FreezeRule) (align n : Nat) (va : DWord) : Check :=
  match h.f.passed.find? (fun a => a.va == va) with
  | some a => a.check s fr
  | none => match s.ctx? h.g.ctx with
    | some c => checkAccess s c (isSpeculative s h) acc fr align n va
    | none => .bad 10 cPageAbsent (BitVec.ofNat 8 acc.code) va 0#64

/-- The accesses of `n` bytes at some addresses, past their checks: those of before, or with the places that they have now. -/
def passedAt (s : State) (h : Here) (n : Nat) (vas : List DWord) : List Passed :=
  if h.f.passed.isEmpty then match s.ctx? h.g.ctx with
    | some c => vas.filterMap (fun va => match place s c va with
      | .inl p => some ⟨va, n, p⟩
      | .inr _ => none)
    | none => []
  else h.f.passed

/-- The same of the lanes of a mask. -/
def passedLanes (s : State) (h : Here) (ex : LaneMask) (n : Nat) (addr : Fin 32 → DWord) : List Passed :=
  passedAt s h n ((lanesIn ex).map addr)

/-- Wait on a check: only a thaw is waited for with every check passed. -/
def Here.stay (h : Here) (w : Wait) (ps : List Passed) : Here := match w with
  | .thaw _ => h.waitWith w ps
  | _ => h.wait w

/-- The checks at issue of a form that writes memory: they are past when some of its accesses have passed theirs, or some of its lanes
have been performed (R195, R314). -/
def issueOnce (s : State) (h : Here) (sh : LaneShape) (ex : LaneMask) : Option State :=
  if h.f.passed.isEmpty && h.f.ahead.isEmpty then issueGates s h sh ex else none

/-- Every active lane's access. -/
def checkLanes (s : State) (h : Here) (ex : LaneMask) (acc : Access) (fr : FreezeRule) (n : Nat) (addr : Fin 32 → DWord) : Checked :=
  gather ex (fun l => if ex.getLsbD l.val then check1 s h acc fr n n (addr l) else .ok Place.none)

/-- Alignment alone, for scratchpad accesses (R261). -/
def checkPadAlign (ex : LaneMask) (align : Nat) (addr : Fin 32 → DWord) : Checked :=
  gather ex (fun l => if (addr l).toNat % align = 0 then .ok Place.none else .bad 9 cAlign 0#8 (addr l) 0#64)

/-- A range's outcome: places in order, the first cause of R197 with the lowest byte that meets it, or a wait. -/
inductive RangeCheck where
  | ok (ps : List Place)
  | trap (t : TrapInfo)
  | wait (w : Wait)

/-- Put the checks of a range's parts, lowest first, together (R197 step 10). -/
def gatherRange (mask : LaneMask) (cs : List Check) : RangeCheck :=
  let r := cs.foldl (fun r c => min r c.rank) 100
  match cs.find? (fun c => c.rank == r) with
  | some (.bad _ cause sub addr aux) => .trap ⟨cause, sub, mask, addr, aux, 0⟩
  | some (.wait _ w) => .wait (cs.foldl (fun a c => match c with
    | .wait q v => if q = r then a.join v else a
    | _ => a) w)
  | some (.ok _) | none => .ok (cs.filterMap (fun c => match c with
    | .ok p => some p
    | _ => none))

/-- Stop or go on after a check: a trap is taken, a wait suspends fetch (R194, R214, R277), with the accesses `ps`. -/
def stopOn (s : State) (h : Here) (i : Instr) (ps : List Passed) : Checked → Option State
  | .ok _ => none
  | .trap t => some (trapOf s h i t)
  | .wait w => some (s.put (h.stay w ps))

/-- The places of checked lanes. -/
def Checked.place (c : Checked) (l : Fin 32) : Place := match c with
  | .ok ps => ps l
  | .trap _ => Place.none
  | .wait _ => Place.none

/-! ## Removed lanes (R260) -/

/-- Remove lanes from the group for the rest of its life. -/
def Here.removeLanes (h : Here) (m : LaneMask) : Here := { h with g := { h.g with removed := h.g.removed ||| m } }


/-- The active lanes whose scratchpad access of n bytes leaves the allocation. -/
def outside (t : Team) (ex : LaneMask) (n : Nat) (addr : Fin 32 → DWord) : LaneMask :=
  ex &&& maskOf (fun l => !padInside t (addr l).toNat n)

/-! ## Replicas (R274) -/

/-- What a replica's lease is kept under: its holder and the home that granted it. -/
def holderKey (holder home : Nat) : Nat := holder * 1024 + home

/-- The core takes or renews a replica of the frozen line at a place, unless it is out of sync (R270). -/
def holdReplica (s : State) (c : Fin 256) (p : Place) : State :=
  if !(s.core c).inSync then s
  else
    { s with contexts := s.contexts.map (fun x => { x with regions := x.regions.map (fun e =>
        if e.2.freezes p.pa then
          (e.1, { e.2 with holders := tablePut e.2.holders (holderKey c.val (homeAgent p)) (s.agentTime (homeAgent p) + Config.replicaLeaseNs) })
        else e) }) }

/-- Replicas for some places. -/
def holdReplicas (s : State) (c : Fin 256) (ps : List Place) : State := ps.foldl (fun s p => holdReplica s c p) s

/-! ## The observer (R396, R397) -/

/-- What the observer needs of one access. -/
structure Seen where
  addr : DWord
  bytes : Nat
  lane : Nat
  place : Place

/-- Some other core's L1 holds the line's byte clean, under a lease that is not over, so that the probed peer may have it (R259, R268). -/
def peerMayHold (s : State) (c : Fin 256) (pa : Nat) : Bool :=
  (List.finRange 256).any (fun d => d != c && (match tableFind (s.core d).l1 pa with
    | some (.clean _ e) => leaseGood s d.val e
    | _ => false))

/-- A leap fetch of the launch filled a line, on some core (R396). -/
def leapFilled (s : State) (launch line : Nat) : Bool := s.cores.toList.any (fun k => k.filled.contains (launch, line))

/-- Whether a missing line is observed; the device chooses what the probe and the canopy held (log 35). -/
def isObserved (s : State) (c : Fin 256) (launch : Nat) (p : Place) : State × Bool :=
  let filled := leapFilled s launch (lineOf p.pa)
  let peer := peerMayHold s c p.pa && decide (Config.choice s.choices % 2 = 1)
  let far := homeSlice p.leaf p.pa != c.val || !Config.canopyHit s.choices
  ({ s with choices := s.choices + 1 }, !peer && (far || filled))

/-- Record one access of a launch that observes, within the limits of 16 PCs and 4,096 accesses; its line's budget is free (R404). -/
def recordSeen (s : State) (h : Here) (x : Seen) : State :=
  let k := s.core h.r.core
  let mine := k.observed.filter (fun o => o.launch == h.g.launch)
  let pcs := (mine.map (fun o => o.pc)).eraseDups
  let free := { k with budgeted := k.budgeted.filter (fun b => !(b.1 == h.g.launch && b.2 == lineOf x.place.pa)) }
  if mine.length ≥ 4096 || (pcs.length ≥ 16 && !pcs.contains h.f.pc) then
    s.setCore h.r.core { free with unobservable := setAdd free.unobservable h.g.launch }
  else
    let team := match teamOf s h with
      | some t => t.teamid.toNat
      | none => 0
    let o : Observed := ⟨h.g.launch, h.f.pc, x.addr, x.bytes, team, h.g.grpid, x.lane⟩
    s.setCore h.r.core { free with observed := free.observed ++ [o] }

/-- The launch of the group observes. -/
def observes (s : State) (h : Here) : Bool := match s.launch? h.g.launch with
  | some l => l.observed
  | none => false

/-- Of the lines of some places, each judged once, those that are observed. -/
def observedLines (s : State) (h : Here) (ps : List Place) : State × List Nat :=
  ((ps.map (fun p => lineOf p.pa)).eraseDups.filterMap (fun l => ps.find? (fun p => lineOf p.pa == l))).foldl (fun a p =>
    if !p.leaf.ca || p.leaf.rad || s.isFrozen p.pa then a
    else
      let o := isObserved a.1 h.r.core h.g.launch p
      (o.1, if o.2 then lineOf p.pa :: a.2 else a.2)) (s, [])

/-- Record the accesses of an instruction on the lines that missed and are observed (R396). -/
def observe (s : State) (h : Here) (xs : List Seen) (missed : List Place) : State :=
  if !observes s h then s
  else
    let r := observedLines s h missed
    (xs.filter (fun x => r.2.contains (lineOf x.place.pa))).foldl (fun s x => recordSeen s h x) r.1

/-- Keep the aligned words that a load of the kernel's returned (R397). -/
def noteLoaded (s : State) (h : Here) (ws : List (DWord × Word)) : State :=
  if !observes s h || h.g.team.isNone then s
  else
    let k := s.core h.r.core
    s.setCore h.r.core { k with loaded := k.loaded ++ ws.map (fun w => (h.g.launch, w.1, w.2)) }

/-! ## The memory item of a key (R69) -/

/-- The generations and the epoch that a load of some lanes is keyed on. -/
def memKeyOf (s : State) (h : Here) (pas : List Nat) : MemKey :=
  let blocks := pas.foldl (fun t a => setAdd t (a / 4096)) []
  let gens := blocks.flatMap (fun b => s.gensOver (b * 4096))
  { gens := gens.foldl (fun t g => if t.contains g then t else t ++ [g]) []
    epoch := if blocks.any (fun b => !s.isFrozen (b * 4096)) then some (h.g.uid, h.g.epoch) else none
    read := [], pad := false }

/-- The memory item of an entry whose load has read these bytes. -/
def MemKey.of (m : MemKey) (pad : Bool) (bs : List (Nat × Byte)) : MemKey :=
  if m.epoch.isNone then m else { m with read := bs, pad := pad }

/-- Bytes from an address up, each with its address. -/
def cellsAt (a : Nat) (bs : List Byte) : List (Nat × Byte) := bs.zipIdx.map (fun b => (a + b.2, b.1))

end Sys2Proof.Machine
end

