-- ==== Sys2Proof/Machine/Atomics.lean ====
section
/-! DEFINITION. Atomics, exchanges and `REDG` (R288 to R292), and the queues in scratchpad (R245 to R248). -/

namespace Sys2Proof.Machine

/-- What an atomic form does to the word it finds: the new word, or none where nothing is written. -/
abbrev WordOp := Fin 32 → Word → Option Word

/-- The results of a run of lanes: the old words and the lanes that met a poisoned granule. -/
structure OldWords where
  old : List (Fin 32 × Word)
  poison : LaneMask

/-- What a lane performed ahead has found (log 49). -/
def aheadOf (h : Here) (l : Fin 32) : Option (Word × Bool) := (h.f.ahead.find? (fun d => d.1 == l)).map Prod.snd

/-- Put a lane's old word, and whether it was poisoned, to the others. -/
def OldWords.note (o : OldWords) (l : Fin 32) (w : Word) (bad : Bool) : OldWords :=
  ⟨(l, w) :: o.old, o.poison ||| (if bad then 1#32 <<< l.val else 0#32)⟩

/-- The old word of a lane. -/
def OldWords.get (o : OldWords) (l : Fin 32) : Word := ((o.old.find? (fun p => p.1 == l)).map Prod.snd).getD 0#32

/-- Lanes of a global form, ascending, each at its word's home in one step (R289, R292); earlier `REDG`s of the group on a
word come first (R319). The lanes `bad` have had their data poisoned after the checks: what they write is poisoned (R195, R218). -/
def globalAtoms (s : State) (h : Here) (ex bad : LaneMask) (pl : Fin 32 → Place) (f : WordOp) : State × OldWords :=
  (lanesIn ex).foldl (fun a l => match aheadOf h l with
    | some d => (a.1, a.2.note l d.1 d.2)
    | none =>
      let pa := (pl l).pa
      let s1 := drainRedgsOn a.1 h.g.uid pa
      let r := atomicWord s1 h.writer pa (f l)
      let spoilt := bad.getLsbD l.val && (f l r.2).isSome
      (if spoilt then settlePoison r.1 [] [pa] else r.1, a.2.note l r.2 (s1.poisoned pa 4))) (s, ⟨[], 0#32⟩)

/-- Lanes of a scratchpad form, ascending, in the core (R289). -/
def padAtoms (h : Here) (t : Team) (m bad : LaneMask) (addr : Fin 32 → DWord) (f : WordOp) : Team × OldWords :=
  (lanesIn m).foldl (fun a l => match aheadOf h l with
    | some d => (a.1, a.2.note l d.1 d.2)
    | none =>
      let pa := (addr l).toNat
      let old := padWord a.1 pa
      let t1 := match f l old with
        | some x => if bad.getLsbD l.val then padPoison (padSetWord a.1 pa x) [] [pa] else padSetWord a.1 pa x
        | none => a.1
      (t1, a.2.note l old (padPoisoned a.1 pa 4))) (t, ⟨[], 0#32⟩)

/-- The result of an atomic form: the old words, and Z of a compare where asked (R290). -/
def atomResult (m : LaneMask) (o : OldWords) (z : Option (Fin 32 → Word → Bool)) : LaneResult :=
  let outs : Lanes Word := Lanes.make (fun l => if m.getLsbD l.val then o.get l else 0#32)
  { LaneResult.values m [] with
    outs := [(outs, o.poison)], codes := ⟨false, z.isSome, false, false⟩
    cc := match z with
      | some f => { LaneCC.zero with z := m &&& maskOf (fun l => m.getLsbD l.val && f l (o.get l)) }
      | none => LaneCC.zero }

/-- An atomic or exchange form: its registers, what its lanes do, and the Z of a compare where asked. -/
structure AtomForm where
  i : Instr
  k : KReg
  d : Reg
  a : Reg
  b : Reg
  reads : List Src
  op : Here → WordOp
  z : Option (Here → Fin 32 → Word → Bool)

/-- The lanes whose data is poisoned; the first of its registers is no data but gives the addresses. -/
def AtomForm.spoilt (f : AtomForm) (h : Here) : LaneMask := h.poisonRead (h.exec f.k) f.reads.tail

def AtomForm.shape (f : AtomForm) : LaneShape := ⟨f.i, f.k, .regs f.d 1, none, none, f.reads, [], none⟩

/-- The scratchpad addresses of a form's lanes. -/
def AtomForm.padAddr (f : AtomForm) (h : Here) (l : Fin 32) : DWord := (h.v f.a)[l].setWidth 64

/-- A global atomic or exchange: gates, checks, the lanes in order, the old words (R288 to R292). -/
def globalForm (s : State) (f : AtomForm) : Host.Outcome State Fault Refusal :=
  onFragment s f.i .lane (fun h =>
    let ex := h.exec f.k
    if ex = 0#32 then next s h f.i
    else match issueOnce s h f.shape ex with
    | some s' => s'
    | none =>
      let addr := atomAddr h f.a f.b
      let c := checkLanes s h ex .atomic .mustThaw 4 addr
      match stopOn s h f.i (passedLanes s h ex 4 addr) c with
      | some s' => s'
      | none =>
        let r := globalAtoms s h ex (f.spoilt h) c.place (f.op h)
        commitLane r.1 h.endEpoch f.shape ex (atomResult ex r.2 (f.z.map (fun z => z h))) none)

/-- A scratchpad atomic or exchange; lanes outside the allocation are removed (R260). -/
def padForm (s : State) (f : AtomForm) : Host.Outcome State Fault Refusal :=
  onFragment s f.i .lane (fun h =>
    let ex := h.exec f.k
    let addr := f.padAddr h
    match teamOf s h with
    | none => next s h f.i
    | some t =>
      if ex = 0#32 then next s h f.i
      else match issueOnce s h f.shape ex with
      | some s' => s'
      | none => match stopOn s h f.i [] (checkPadAlign ex 4 addr) with
        | some s' => s'
        | none =>
          let out := outside t ex 4 addr
          let m := ex &&& ~~~out
          let r := padAtoms h t m (f.spoilt h) addr (f.op h)
          commitLane (s.setTeam r.1) (h.removeLanes out).endEpoch f.shape m (atomResult m r.2 (f.z.map (fun z => z h))) none)

/-! ## Lanes performed ahead (R253, R292; log 49) -/

/-- Of some lanes of EXEC, those not yet performed. -/
def lanesLeft (h : Here) (ex ls : LaneMask) : LaneMask := ex &&& ls &&& maskOf (fun l => (aheadOf h l).isNone)

/-- Lanes keep their order on one word: before each of some lanes, every lower lane of EXEC with its word, by where it lies, is among them
or has been performed (R292). -/
def inOrder (h : Here) (ex m : LaneMask) (addr : Fin 32 → Nat) : Bool :=
  (lanesIn m).all (fun l => (lanesIn ex).all (fun j =>
    !(decide (j.val < l.val) && addr j == addr l) || m.getLsbD j.val || (aheadOf h j).isSome))

/-- The fragment remembers what lanes performed ahead have found, and the places of all of its lanes. -/
def Here.addAhead (h : Here) (o : OldWords) (ps : List Passed) : Here :=
  { h with f := { h.f with ahead := o.old.map (fun p => (p.1, p.2, o.poison.getLsbD p.1.val)) ++ h.f.ahead, passed := ps } }

/-- Some lanes of a global form are performed before the others. -/
def globalAhead (s : State) (h : Here) (f : AtomForm) (ls : LaneMask) : State :=
  let ex := h.exec f.k
  let m := lanesLeft h ex ls
  let addr := atomAddr h f.a f.b
  let c := checkLanes s h ex .atomic .mustThaw 4 addr
  if (issueOnce s h f.shape ex).isSome || (stopOn s h f.i [] c).isSome || !inOrder h ex m (fun l => (c.place l).pa) then s
  else
    let r := globalAtoms s h m (f.spoilt h) c.place (f.op h)
    r.1.put (h.addAhead r.2 (passedLanes s h ex 4 addr))

/-- Some lanes of a scratchpad form are performed before the others. -/
def padAhead (s : State) (h : Here) (f : AtomForm) (ls : LaneMask) : State :=
  let ex := h.exec f.k
  let addr := f.padAddr h
  match teamOf s h with
  | none => s
  | some t =>
    let m := lanesLeft h ex ls &&& ~~~outside t ex 4 addr
    if (issueOnce s h f.shape ex).isSome || (stopOn s h f.i [] (checkPadAlign ex 4 addr)).isSome ||
        !inOrder h ex m (fun l => (addr l).toNat) then s
    else
      let r := padAtoms h t m (f.spoilt h) addr (f.op h)
      (s.setTeam r.1).put (h.addAhead r.2 [])

/-! ## Atomics and exchanges (R289, R290) -/

def atomgForm (o : LrF) : AtomForm :=
  ⟨.atomg o, o.k, o.d, o.a, o.b, [.reg o.a, .reg o.d], fun h l old => some (atomicOp o.f old (h.v o.d)[l]), none⟩
def atompForm (o : LrF) : AtomForm :=
  ⟨.atomp o, o.k, o.d, o.a, o.b, [.reg o.a, .reg o.b], fun h l old => some (atomicOp o.f old (h.v o.b)[l]), none⟩
def xchggForm (o : LrN) : AtomForm := ⟨.xchgg o, o.k, o.d, o.a, o.b, [.reg o.a, .reg o.d], fun h l _ => some (h.v o.d)[l], none⟩
def xchgpForm (o : LrN) : AtomForm := ⟨.xchgp o, o.k, o.d, o.a, o.b, [.reg o.a, .reg o.b], fun h l _ => some (h.v o.b)[l], none⟩

/-- The compare of a compare-and-swap. -/
def casMatches (h : Here) (d : Reg) (l : Fin 32) (old : Word) : Bool := old == (h.v d)[l]

def casgForm (o : LrF) : AtomForm :=
  ⟨.casg o, o.k, o.d, o.a, o.b, [.reg o.a, .reg o.d, .reg (o.d + 1#6)],
    fun h l old => if casMatches h o.d l old then some (h.v (o.d + 1#6))[l] else none,
    if o.c then some (fun h => casMatches h o.d) else none⟩
def caspForm (o : LrF) : AtomForm :=
  ⟨.casp o, o.k, o.d, o.a, o.b, [.reg o.a, .reg o.b, .reg o.d],
    fun h l old => if casMatches h o.d l old then some (h.v o.b)[l] else none,
    if o.c then some (fun h => casMatches h o.d) else none⟩

def execAtomg (o : LrF) (s : State) : Host.Outcome State Fault Refusal := globalForm s (atomgForm o)
def execAtomp (o : LrF) (s : State) : Host.Outcome State Fault Refusal := padForm s (atompForm o)
def execXchgg (o : LrN) (s : State) : Host.Outcome State Fault Refusal := globalForm s (xchggForm o)
def execXchgp (o : LrN) (s : State) : Host.Outcome State Fault Refusal := padForm s (xchgpForm o)
def execCasg (o : LrF) (s : State) : Host.Outcome State Fault Refusal := globalForm s (casgForm o)
def execCasp (o : LrF) (s : State) : Host.Outcome State Fault Refusal := padForm s (caspForm o)

/-- Some lanes of the atomic or exchange `i`, which is a fragment's next instruction, are performed ahead of the others. -/
def atomAhead (s : State) (h : Here) (ls : LaneMask) (i : Instr) : State :=
  if !roleAllows h.g.role .lane then s else match i with
  | .atomg o => globalAhead s h (atomgForm o) ls
  | .xchgg o => globalAhead s h (xchggForm o) ls
  | .casg o => globalAhead s h (casgForm o) ls
  | .atomp o => padAhead s h (atompForm o) ls
  | .xchgp o => padAhead s h (xchgpForm o) ls
  | .casp o => padAhead s h (caspForm o) ls
  | _ => s

/-! ## REDG (R291) -/

/-- Send a lane's operation: the core's own dirty bytes of the word register first (R266). `bad` says that its data has been poisoned after
the checks (R195, R218). -/
def sendRedg (s : State) (h : Here) (op : BitVec 3) (pa : Nat) (x : Word) (bad : Bool) : State :=
  let s1 := registerBytes s h.writer [pa, pa + 1, pa + 2, pa + 3]
  { s1 with redgs := ⟨s1.fresh, h.r.core, h.g.uid, h.g.launch, pa, op, x, bad⟩ :: s1.redgs, fresh := s1.fresh + 1 }

def execRedg (o : LrF) (s : State) : Host.Outcome State Fault Refusal :=
  onFragment s (.redg o) .lane (fun h =>
    let i : Instr := .redg o
    let ex := h.exec o.k
    if ex = 0#32 then next s h i
    else match issueOnce s h ⟨i, o.k, .none, none, none, [.reg o.a, .reg o.d], [], none⟩ ex with
    | some s' => s'
    | none =>
      let addr := atomAddr h o.a o.b
      let c := checkLanes s h ex .atomic .mustThaw 4 addr
      match stopOn s h i (passedLanes s h ex 4 addr) c with
      | some s' => s'
      | none => next ((lanesIn ex).foldl (fun s l => sendRedg s h o.f (c.place l).pa (h.v o.d)[l]
        ((h.vreg o.d).poison.getLsbD l.val)) s) h.endEpoch i)

/-! ## Queues (R245 to R248) -/

/-- A queue's descriptor (R245). -/
structure Queue where
  head : Nat
  tail : Nat
  size : Nat
  base : Nat

def queueAt (t : Team) (a : Nat) : Queue :=
  { head := (padWord t a).toNat, tail := (padWord t (a + 4)).toNat
    size := 2 ^ ((padWord t (a + 8)).toNat % 16), base := (padWord t (a + 12)).toNat / 4 * 4 }

def Queue.len (q : Queue) : Nat := (q.tail + 2 ^ 32 - q.head) % 2 ^ 32
def Queue.free (q : Queue) : Nat := if q.len ≤ q.size then q.size - q.len else 0
/-- The address of the element with a running number. -/
def Queue.elem (q : Queue) (k : Nat) : Nat := q.base + 4 * (k % q.size)

/-- Run a queue instruction once its operands are checked: a descriptor outside the allocation removes every active lane (R248). -/
def queueForm (s : State) (i : Instr) (k : KReg) (dst : Dst) (a : Reg) (reads : List Src)
    (f : Here → LaneShape → LaneMask → Team → Nat → State) : Host.Outcome State Fault Refusal :=
  onFragment s i .lane (fun h =>
    let ex := h.exec k
    let sh : LaneShape := ⟨i, k, dst, none, none, reads, [], none⟩
    match teamOf s h with
    | none => next s h i
    | some t =>
      if ex = 0#32 then next s h i
      else match issueGates s h sh ex with
      | some s' => s'
      | none =>
        let ad := (h.s a).toNat
        if ad % 16 ≠ 0 then trapOf s h i ⟨cAlign, 0#8, ex, (h.s a).setWidth 64, 0#64, 0⟩
        else if !padInside t ad 16 then next s (h.removeLanes ex) i
        else f h sh ex t ad)

/-- The slots that active lanes take: lane and slot number, ascending. -/
def queueSlots (ex : LaneMask) : List (Fin 32 × Nat) := (lanesIn ex).zip (List.range 32)

/-- Lane Z of a queue instruction, alone. -/
def zResult (m : LaneMask) (outs : List (Lanes Word × LaneMask)) (z : LaneMask) : LaneResult :=
  { LaneResult.values m [] with outs := outs, codes := ⟨false, true, false, false⟩, cc := { LaneCC.zero with z := z } }

/-- The lanes of a list of slots that meet a test. -/
def slotLanes (l : List (Fin 32 × Nat)) (p : Nat → Bool) : LaneMask := maskOf (fun x => l.any (fun q => q.1 == x && p q.2))

/-- `QPUSH` (R246). The descriptor is read once, before an element is written: no rule says what an element that overlaps its own
descriptor does to the rest, and none what a poisoned descriptor does: its bytes are taken as they stand (R218; log 50). -/
def execQpush (o : LrN) (s : State) : Host.Outcome State Fault Refusal :=
  queueForm s (.qpush o) o.k .none o.a [.reg o.b] (fun h sh ex t ad =>
    let q := queueAt t ad
    let slots := queueSlots ex
    let took := slots.filter (fun p => decide (p.2 < q.free))
    let out := slotLanes took (fun k => !padInside t (q.elem (q.tail + k)) 4)
    let t1 := took.foldl (fun t p =>
      let e := q.elem (q.tail + p.2)
      if padInside t e 4 then padSetWord t e (h.v o.b)[p.1] else t) t
    let t2 := padSetWord t1 (ad + 4) (BitVec.ofNat 32 (q.tail + took.length))
    let full := slotLanes slots (fun k => !decide (k < q.free))
    commitLane (s.setTeam t2) (h.removeLanes out).endEpoch sh (ex &&& ~~~out) (zResult 0#32 [] full) none)

def execQpop (o : LrN) (s : State) : Host.Outcome State Fault Refusal :=
  queueForm s (.qpop o) o.k (.regs o.d 1) o.a [] (fun h sh ex t ad =>
    let q := queueAt t ad
    let slots := queueSlots ex
    let took := slots.filter (fun p => decide (p.2 < q.len))
    let out := slotLanes took (fun k => !padInside t (q.elem (q.head + k)) 4)
    let got := slotLanes took (fun k => padInside t (q.elem (q.head + k)) 4)
    let vals : Lanes Word := Lanes.make (fun l => match took.find? (fun p => p.1 == l) with
      | some p => padWord t (q.elem (q.head + p.2))
      | none => 0#32)
    let bad := slotLanes took (fun k => padPoisoned t ad 16 || padPoisoned t (q.elem (q.head + k)) 4)
    let t1 := padSetWord t ad (BitVec.ofNat 32 (q.head + took.length))
    let none' := slotLanes slots (fun k => !decide (k < q.len))
    commitLane (s.setTeam t1) (h.removeLanes out).endEpoch sh (ex &&& ~~~out) (zResult got [(vals, bad)] none') none)

def execQlen (o : LrN) (s : State) : Host.Outcome State Fault Refusal :=
  queueForm s (.qlen o) o.k (.regs o.d 1) o.a [] (fun h sh ex t ad =>
    let q := queueAt t ad
    let bad := if padPoisoned t ad 16 then ex else 0#32
    noteRead (commitLane s h sh ex
      (zResult ex [(Lanes.all (BitVec.ofNat 32 q.len), bad)] (if q.len = 0 then 0xFFFFFFFF#32 else 0#32)) none) h true
      (cellsAt ad (padRead t ad 16)))

end Sys2Proof.Machine
end

