-- ==== Sys2Proof/Machine/Sync.lean ====
section
/-! DEFINITION. Uniform loads and stores (R287), fences, acquires and releases (R293 to R296), and the team barrier (R297). -/

namespace Sys2Proof.Machine

/-! ## Uniform addresses (R287, R90) -/

/-- The word offset: imm9 sign-extended, or with a prefix 33 bits. -/
def glOff (imm : BitVec 9) : Option (BitVec 24) → DWord
  | none => imm.signExtend 64
  | some hi => (hi ++ imm).signExtend 64

/-- a = SP[P] + 4·off. -/
def glAddr (h : Here) (p : BitVec 5) (imm : BitVec 9) (hi : Option (BitVec 24)) : DWord :=
  h.sp (pairReg p.toNat) + glOff imm hi * 4#64

/-- A uniform access: its place, or a stop that lists the fragment's lanes. -/
def uniAccess (s : State) (h : Here) (i : Instr) (acc : Access) (fr : FreezeRule) (va : DWord) (f : Place → State) : State :=
  match gatherRange h.lanes [check1 s h acc fr 4 4 va] with
  | .trap t => trapOf s h i t
  | .wait w => s.put (h.stay w (passedAt s h 4 [va]))
  | .ok ps => f (ps.headD Place.none)

/-- The ECC check of data for a uniform register (R219). -/
def uniPoison (s : State) (h : Here) (i : Instr) (va : DWord) (p : Place) (f : State) : State :=
  if s.poisoned p.pa 4 then trapOf s h i ⟨cEcc, 0x02#8, h.lanes, va, 0#64, 0⟩ else f

/-- A uniform result now or under its window (R94). -/
def uniResult (s : State) (h : Here) (i : Instr) (d : Reg) (w : Word) (la : Nat) : State :=
  if la = 0 then next s (h.setS d w) i
  else
    let h1 := { h with f := { h.f with pending := dropUniform h.f.pending d } }
    s.put ((h1.advance i.bytes).pend { left := la, regs := [], uni := [(d, w)], zMask := 0#32, zVal := 0#32, key := none, flags := 0#5 })

def execSld (o : GlOp) (s : State) : Host.Outcome State Fault Refusal :=
  onFragment s (.sld o) .control (fun h =>
    let i : Instr := .sld o
    let va := glAddr h o.p o.imm o.hi
    uniAccess s h i .load .none va (fun p => uniPoison s h i va p (
      let r := uniformWord s h.writer p
      noteRead (uniResult (noteLoaded r.1 h [(va, r.2)]) h i o.d r.2 o.la.toNat) h false (cellsAt p.pa (toLe r.2.toNat 4)))))

def execSldc (o : GlOp) (s : State) : Host.Outcome State Fault Refusal :=
  onFragment s (.sldc o) .control (fun h =>
    let i : Instr := .sldc o
    let va := glAddr h o.p o.imm o.hi
    uniAccess s h i .load .mustFreeze va (fun p => uniPoison s h i va p (
      let w := wordOf (homeBytes s p.pa 4)
      noteRead (uniResult (noteLoaded (holdReplicas s h.r.core [p]) h [(va, w)]) h i o.d w o.la.toNat) h false (cellsAt p.pa (toLe w.toNat 4)))))

/-- Store a uniform word (R287). -/
def uniStore (s : State) (h : Here) (p : Place) (w : Word) : State :=
  settlePoison (storeBytes s h.writer p (toLe w.toNat 4)) [p.pa, p.pa + 1, p.pa + 2, p.pa + 3] []

def execSst (o : GlOp) (s : State) : Host.Outcome State Fault Refusal :=
  onFragment s (.sst o) .control (fun h =>
    let i : Instr := .sst o
    uniAccess s h i .store .mustThaw (glAddr h o.p o.imm o.hi) (fun p => next (uniStore s h p (h.s o.d)) h.endEpoch i))

/-! ## Fences (R293) -/

/-- Go on once the release work at a scope is complete; until then the fragment waits and issues nothing, its checked accesses
`ps` before it. -/
def afterRelease (s : State) (h : Here) (scope : Scope) (ps : List Passed) (f : State → State) : State :=
  let r := releaseWork s h scope
  if r.2 then f r.1 else r.1.put (h.waitWith .suspended ps)

def execFence (sc : Scope) (s : State) : Host.Outcome State Fault Refusal :=
  onFragment s (.fence sc) .control (fun h => afterRelease s h sc [] (fun s => next (acquireWork s h sc) h.endEpoch (.fence sc)))
def execAcq (sc : Scope) (s : State) : Host.Outcome State Fault Refusal :=
  onFragment s (.acq sc) .control (fun h => next (acquireWork s h sc) h.endEpoch (.acq sc))
def execRel (sc : Scope) (s : State) : Host.Outcome State Fault Refusal :=
  onFragment s (.rel sc) .control (fun h => afterRelease s h sc [] (fun s => next s h (.rel sc)))

/-- `RELS` (R296): it faults as `SST` before the release work, then releases, then stores where its checks have found. -/
def execRels (o : GlS) (s : State) : Host.Outcome State Fault Refusal :=
  onFragment s (.rels o) .control (fun h =>
    let i : Instr := .rels o
    let va := glAddr h o.p o.imm o.hi
    uniAccess s h i .store .mustThaw va (fun p =>
      let r := releaseWork s h o.scope
      if r.2 then next (uniStore r.1 h p (h.s o.d)) h.endEpoch i else r.1.put (h.waitWith (.rels va) (passedAt s h 4 [va]))))

/-! ## ACQR (R294, R295) -/

/-- The cores that a promotion for a line asks, other than one: those in its writer hint, and those that have left it while they
owed older writes (R295; log 51). -/
def hintTargets (s : State) (c : Fin 256) (line : Nat) : List (Fin 256) :=
  (((s.hints ++ s.owing).filter (fun x => x.1 == line)).eraseDups).filterMap (fun x => if h : x.2 < 256 then (if x.2 = c.val then none else some ⟨x.2, h⟩) else none)

/-- Send the promotion requests, and wait for their answers. -/
def sendPromotions (s : State) (h : Here) (line : Nat) (ps : List Passed) (ts : List (Fin 256)) : State :=
  let n := s.fresh
  ({ s with promotions := s.promotions ++ ts.map (fun t => Promotion.mk n t line), fresh := n + 1 }).put (h.waitWith (.promote n) ps)

/-- `ACQR`: at `.die` and wider the writers of the line are promoted first, until none is left in its hint; then the word is read,
and the acquire performed. -/
def execAcqr (o : GlS) (s : State) : Host.Outcome State Fault Refusal :=
  onFragment s (.acqr o) .control (fun h =>
    let i : Instr := .acqr o
    let va := glAddr h o.p o.imm o.hi
    uniAccess s h i .load .none va (fun p => uniPoison s h i va p (
      let ts := if o.scope = .grp ∨ o.scope = .core then [] else hintTargets s h.r.core (lineOf p.pa)
      if ts ≠ [] then sendPromotions s h (lineOf p.pa) (passedAt s h 4 [va]) ts
      else
        let r := uniformWord s h.writer p
        next (acquireWork (noteLoaded r.1 h [(va, r.2)]) h o.scope) (h.setS o.d r.2).endEpoch i)))

/-! ## BAR (R297, R203) -/

def execBar (s : State) : Host.Outcome State Fault Refusal :=
  onFragment s .bar .control (fun h0 =>
    if h0.inHandler then plainTrap s h0 .bar cIllegal 0x03#8
    else
      let sh := settleAll s h0
      afterRelease sh.1 sh.2 .core [] (fun s => settleGroup (s.put (sh.2.wait .bar)) h0.r.core h0.r.slot))

end Sys2Proof.Machine
end

