-- ==== Sys2Proof/Machine/Control.lean ====
section
/-! DEFINITION. Branches, calls, loops, fusion, exit (R225 to R232), traps by instruction and return (R203 to R205). -/

namespace Sys2Proof.Machine

/-- The target of a word offset (R83): relative to the instruction's own address. -/
def Here.target (h : Here) (off : DWord) : DWord := h.f.pc + off * 4#64

/-- A condition on the fragment's scalar codes (R84). -/
def Here.holds (h : Here) (c : BitVec 4) : Bool :=
  let x := h.f.view.scc
  condHolds c x.c x.z x.n x.v x.e

def execBc (o : GjC) (s : State) : Host.Outcome State Fault Refusal :=
  onFragment s (.bc o) .control (fun h =>
    if h.holds o.cond then s.put (h.jump (h.target (o.off.signExtend 64))) else next s h (.bc o))

def execCall (o : GjC) (s : State) : Host.Outcome State Fault Refusal :=
  onFragment s (.call o) .control (fun h =>
    if h.holds o.cond then s.put ((h.setSP 62#6 (h.f.pc + 4#64)).jump (h.target (o.off.signExtend 64)))
    else next s h (.call o))

def execRet (s : State) : Host.Outcome State Fault Refusal :=
  onFragment s .ret .control (fun h => s.put (h.jump (h.sp 62#6 &&& ~~~3#64)))

def execLoop (d : Reg) (off : BitVec 12) (s : State) : Host.Outcome State Fault Refusal :=
  onFragment s (.loop d off) .control (fun h =>
    let n := h.s d - 1#32
    let h1 := h.setS d n
    if n ≠ 0#32 then s.put (h1.jump (h.target (off.signExtend 64))) else next s h1 (.loop d off))

/-! ## Mask branches (R226 to R228) -/

/-- The slices of a fragment that hold a bit of a mask. -/
def slicesWith (slices : BitVec 8) (m : LaneMask) : BitVec 8 :=
  slices &&& BitVec.ofFnLE (fun i : Fin 8 => m.extractLsb' (4 * i.val) 4 != 0#4)

/-- The first unused entry of the split table. -/
def freeEntry (g : Group) : Option (Fin 8) := (List.finRange 8).find? (fun i => g.frags[i].isNone)

/-- A core's last issuers, without one whose entry is taken anew (R368). -/
def Core.forgetIssuer (k : Core) (uid : Nat) (i : Fin 8) : Core :=
  let keep (o : Option (Nat × Fin 8)) : Option (Nat × Fin 8) := o.filter (fun x => x != (uid, i))
  { k with lastLane := k.lastLane.map keep, lastUniform := k.lastUniform.map keep }

/-- Split the fragment: the slices that go take a new entry at the target (R26). -/
def splitFrag (s : State) (h : Here) (go : BitVec 8) (target : DWord) : State :=
  match freeEntry h.g with
  | none => s
  | some i =>
    let stay := (h.advance 4).f
    let moved : Frag := { (h.jump target).f with slices := go, waited := 0, overdue := none, issued := none, behind := false, late := false }
    let g := { h.g with frags := h.g.frags.set i (some moved) }
    (s.setCore h.r.core ((s.core h.r.core).forgetIssuer h.g.uid i)).put { h with g := g, f := { stay with slices := h.f.slices &&& ~~~go } }

/-- `BMZ` and `BMNZ`: `nz` asks for a set bit. -/
def maskBranch (s : State) (i : Instr) (o : GjM) (nz : Bool) : Host.Outcome State Fault Refusal :=
  onFragment s i .control (fun h0 =>
    let sh := if o.s then settleAll s h0 else (s, h0)
    let h := sh.2
    let m := h.lanes &&& h.f.view.mask o.m
    let target := h.target (o.off.signExtend 64)
    if o.s && !h.inHandler then
      let set := slicesWith h.f.slices m
      let go := if nz then set else h.f.slices &&& ~~~set
      if go = 0#8 then next sh.1 h i
      else if go = h.f.slices ∨ target = h.f.pc + 4#64 then sh.1.put (h.jump target)
      else splitFrag sh.1 h go target
    else if (m != 0#32) == nz then sh.1.put (h.jump target) else next sh.1 h i)

def execBmz (o : GjM) (s : State) : Host.Outcome State Fault Refusal := maskBranch s (.bmz o) o false
def execBmnz (o : GjM) (s : State) : Host.Outcome State Fault Refusal := maskBranch s (.bmnz o) o true

/-! ## REGANG, EXIT, NOP (R230, R232, R203) -/

def execRegang (s : State) : Host.Outcome State Fault Refusal :=
  onFragment s .regang .control (fun h0 =>
    let sh := settleAll s h0
    let h := sh.2
    if h.inHandler || h.g.single then next sh.1 h .regang
    else settleGroup (sh.1.put (h.wait .regang)) h.r.core h.r.slot)

/-- With the end of this fragment its group arrives at a barrier: each other live fragment waits at `BAR` (R35). -/
def Here.lastBeforeBar (h : Here) : Bool :=
  let others := h.g.live.filter (fun j => j != h.r.frag)
  !others.isEmpty && others.all (fun j => (h.g.frags[j]).any (fun f => f.status == .waiting .bar))

/-- `EXIT`. Where the group arrives at a barrier with it, `REL.core` comes first, as at each arrival (R297). -/
def execExit (s : State) : Host.Outcome State Fault Refusal :=
  onFragment s .exit .control (fun h => if h.lastBeforeBar then afterRelease s h .core [] (fun s => exitFrag s h) else exitFrag s h)

def execNop (s : State) : Host.Outcome State Fault Refusal := onFragment s .nop .control (fun h => next s h .nop)

/-! ## TRAP, BRK, RTE (R204, R205) -/

def execTrap (code : Byte) (s : State) : Host.Outcome State Fault Refusal :=
  onFragment s (.trap code) .control (fun h => plainTrap s h (.trap code) cSoftware code)

def execBrk (code : Byte) (s : State) : Host.Outcome State Fault Refusal :=
  onFragment s (.brk code) .control (fun h => plainTrap s h (.brk code) cBreak code)

/-- `RTE`: leave the handler, or trap `PRIV` outside one. -/
def returnFrom (s : State) (i : Instr) (skip : Bool) : Host.Outcome State Fault Refusal :=
  onFragment s i .control (fun h => match h.inHandler, h.g.handler with
    | true, some d => leaveHandler s h d skip
    | _, _ => plainTrap s h i cPriv 0x01#8)

def execRteRetry (s : State) : Host.Outcome State Fault Refusal := returnFrom s .rteRetry false
def execRteSkip (s : State) : Host.Outcome State Fault Refusal := returnFrom s .rteSkip true

end Sys2Proof.Machine
end

