-- ==== Sys2Proof/Machine/Freeze.lean ====
section
/-! DEFINITION. Freezing and thawing (R271 to R277, R298 to R300) and the start of a publish (R309, R310). The freeze point,
a thaw's end and the publish point are events.
-/

namespace Sys2Proof.Machine

/-! ## Ranges -/

/-- Split a range at multiples of `step`: the start and length of each part, ascending; `fuel` parts at most. -/
def splitRange (step : Nat) : Nat → Nat → Nat → List (Nat × Nat)
  | 0, _, _ => []
  | fuel + 1, lo, hi =>
    if hi ≤ lo then []
    else
      let e := min hi ((lo / step + 1) * step)
      (lo, e - lo) :: splitRange step fuel e hi

/-- The parts of [lo, hi). -/
def rangeParts (step lo hi : Nat) : List (Nat × Nat) := splitRange step ((hi - lo) / step + 2) lo hi

/-- The physical 4 KiB blocks that a virtual range maps to in a context. -/
def rangeBlocks (s : State) (x : Context) (lo hi : Nat) : List Nat :=
  (rangeParts 4096 lo hi).filterMap (fun p => match place s x (BitVec.ofNat 64 p.1) with
    | .inl q => some (q.pa / 4096 * 4096)
    | .inr _ => none)

/-- A range holds a byte of a publish buffer with a publish pending (R310). -/
def publishPending (x : Context) (lo hi : Nat) : Bool :=
  x.buffers.any (fun b => decide (0 < b.2.pending) && decide (b.2.base < hi) && decide (lo < b.2.base + b.2.size))

/-! ## Entries -/

/-- A free entry, generation 0. -/
def FreezeEntry.free : FreezeEntry :=
  { state := .free, base := 0, length := 0, count := 0, gen := 0#32, sys := false, pin := false, blocks := [], holders := [] }

def Context.entry (x : Context) (i : Nat) : FreezeEntry := (tableFind x.regions i).getD FreezeEntry.free
def Context.setEntry (x : Context) (i : Nat) (e : FreezeEntry) : Context := { x with regions := tablePut x.regions i e }

/-- An entry with these bounds and domain, in a state. -/
def Context.findEntry (x : Context) (lo len : Nat) (sys : Bool) (st : FreezeState → Bool) : Option (Nat × FreezeEntry) :=
  x.regions.find? (fun e => st e.2.state && e.2.base == lo && e.2.length == len && e.2.sys == sys)

/-- The lowest-numbered free entry of 1,024. -/
def Context.freeEntry (x : Context) : Option Nat := (List.range 1024).find? (fun i => (x.entry i).state == .free)

/-- Bytes that the pinned entries of every context hold (R275). A pinned entry that thaws counts until its thaw is complete, when its bytes
leave the frozen stores (R276; log 50). -/
def pinnedBytes (s : State) : Nat :=
  (s.contexts.map (fun x => ((x.regions.filter (fun e => e.2.pin && e.2.state != .free)).map (fun e => e.2.length * 4096)).sum)).sum

/-- Apply a pin to an active entry (R275): every core preloads it, unless the stores would pass their size. -/
def applyPin (s : State) (x : Context) (i : Nat) : State :=
  let e := x.entry i
  if e.pin || e.state != .active then s
  else if Config.frozenStoreBytes < pinnedBytes s + e.length * 4096 then s
  else
    let s1 := s.setCtx (x.setEntry i { e with pin := true })
    { s1 with cores := Vector.ofFn (fun c : Fin 256 => { s1.cores[c] with frozen := (x.id, i) :: s1.cores[c].frozen }) }

/-- A state in which another `FRZ` of the range raises the count: active, before the freeze point too (log 15). -/
def isFrozenState : FreezeState → Bool | .active => true | .installing => true | .free => false | .thawing => false

/-- `FRZ` done: the handle, and Z = 0. -/
def frozenDone (s : State) (h : Here) (i : Instr) (d : Reg) (idx : Nat) (gen : Word) : State :=
  next s ((h.setS d (handleOf idx gen)).setZ false) i

/-- What a checked `FRZ` does (R298): raise a count, wait for a thaw with its checks `ps` past, take an entry, or give up. Where it waits for
the freeze point its pin is applied after that. -/
def freezeRange (s : State) (h : Here) (i : Instr) (d : Reg) (x : Context) (lo hi : Nat) (sys pin : Bool) (ps : List Passed) : State :=
  let len := (hi - lo) / 4096
  match x.findEntry lo len sys isFrozenState with
  | some (idx, e) =>
    if e.count < 65535 then
      let x1 := x.setEntry idx { e with count := e.count + 1 }
      let s1 := s.setCtx x1
      if e.state = .installing then s1.put (h.waitWith (.freeze idx) [])
      else frozenDone (if pin then applyPin s1 x1 idx else s1) h i d idx e.gen
    else next s ((h.setS d 0#32).setZ true) i
  | none =>
    if (x.findEntry lo len sys (fun st => st == .thawing)).isSome then s.put (h.waitWith .suspended ps)
    else match x.freeEntry with
    | none => next s ((h.setS d 0#32).setZ true) i
    | some idx =>
      let e : FreezeEntry :=
        { state := .installing, base := lo, length := len, count := 1, gen := (x.entry idx).gen + 1#32, sys := sys, pin := false
          blocks := rangeBlocks s x lo hi, holders := [] }
      (s.setCtx (x.setEntry idx e)).put (h.waitWith (.freeze idx) [])

/-- `FRZ` (R298). Its checks are made once (R195): while it waits on a publish or a thaw they are past. Once its freeze point is reached
the fragment issues it again, to apply the pin and take the handle. -/
def execFrz (d a b : Reg) (sys pin : Bool) (s : State) : Host.Outcome State Fault Refusal :=
  onFragment s (.frz d a b sys pin) .control (fun h =>
    let i : Instr := .frz d a b sys pin
    match s.ctx? h.g.ctx with
    | none => plainTrap s h i cIllegal 0x03#8
    | some x =>
      if 0 < h.f.resume then
        let idx := h.f.resume - 1
        frozenDone (if pin then applyPin s x idx else s) h i d idx (x.entry idx).gen
      else
        let at' := (h.sp a).toNat
        let n := (h.s b).toNat
        let lo := at' / 4096 * 4096
        let hi := (at' + n + 0xFFF) / 4096 * 4096
        if n = 0 ∨ 2 ^ 20 < (hi - lo) / 4096 then plainTrap s h i cIllegal 0x03#8
        else
          let vas := (rangeParts 65536 lo hi).map (fun p => BitVec.ofNat 64 p.1)
          match gatherRange h.lanes (vas.map (check1 s h .freeze .none 1 1)) with
          | .trap t => trapOf s h i t
          | .wait w => s.put (h.wait w)
          | .ok _ =>
            let ps := passedAt s h 1 vas
            if publishPending x lo hi then s.put (h.waitWith .suspended ps) else freezeRange s h i d x lo hi sys pin ps)

/-! ## THW and FWAIT (R299, R300, R276) -/

def handleIdx (w : Word) : Nat := (w.extractLsb' 0 10).toNat
/-- The handle's generation bits equal the entry's. -/
def handleFits (w gen : Word) : Bool := w.extractLsb' 10 22 == gen.extractLsb' 0 22

/-- Evict the reuse entries keyed on a generation (R72). -/
def evictGen (s : State) (key : Nat × Nat) : State :=
  { s with cores := Vector.ofFn (fun c : Fin 256 =>
      { s.cores[c] with reuse := s.cores[c].reuse.filter (fun e => match e.key.mem with
        | some m => !m.gens.contains key
        | none => true) }) }

/-- An entry thaws still, with this generation. -/
def stillThawing (s : State) (key : Nat × Nat × Nat) : Bool := match s.ctx? key.1 with
  | some x => (x.entry key.2.1).state == .thawing && (x.entry key.2.1).gen.toNat == key.2.2
  | none => false

/-- A fragment's write waits on a generation of an entry of a context, by the generation bits of a handle, and on no other entry that
thaws still (R277, R300). -/
def Frag.onThaw (s : State) (f : Frag) (ctx : Nat) (w : Word) : Bool := match f.status with
  | .waiting (.thaw keys) =>
    let mine (k : Nat × Nat × Nat) : Bool := k.1 == ctx && k.2.1 == handleIdx w && k.2.2 % 2 ^ 22 == (w.extractLsb' 10 22).toNat
    keys.any mine && !keys.any (fun k => !mine k && stillThawing s k)
  | _ => false

/-- Some fragment's does. -/
def thawWaited (s : State) (ctx : Nat) (w : Word) : Bool := s.anyFrag (fun f => f.onThaw s ctx w)

/-- Lower an entry's count; at 0 it thaws, the reuse entries on its generation go (R276), and its bytes read as they stand. -/
def thaw (s : State) (x : Context) (i : Nat) (e : FreezeEntry) : State :=
  let s1 := s.setCtx (x.setEntry i { e with count := e.count - 1, state := if e.count = 1 then .thawing else e.state })
  if e.count = 1 then (evictGen s1 (x.id * 1024 + i, e.gen.toNat)).dropKept else s1

/-- A `THW`; a speculative task may not thaw (R375). The trap names no byte: its address is 0 (log 52). -/
def execThw (a : Reg) (s : State) : Host.Outcome State Fault Refusal :=
  onFragment s (.thw a) .control (fun h =>
    let w := h.s a
    if isSpeculative s h then plainTrap s h (.thw a) cPriv 0#8
    else match s.ctx? h.g.ctx with
    | none => next s (h.setZ true) (.thw a)
    | some x =>
      let e := x.entry (handleIdx w)
      if e.state = .active ∧ 0 < e.count ∧ handleFits w e.gen then next (thaw s x (handleIdx w) e) (h.setZ false) (.thw a)
      else next s (h.setZ true) (.thw a))

/-- `FWAIT`. Stores that waited on the entry alone are applied first, whatever has become of the entry. One before its freeze point
is not yet active (log 15). -/
def execFwait (a : Reg) (s : State) : Host.Outcome State Fault Refusal :=
  onFragment s (.fwait a) .control (fun h =>
    let w := h.s a
    match s.ctx? h.g.ctx with
    | none => next s (h.setZ false) (.fwait a)
    | some x =>
      let e := x.entry (handleIdx w)
      let named := handleFits w e.gen
      if named ∧ e.state = .active then next s (h.setZ true) (.fwait a)
      else if (named ∧ e.state = .thawing) ∨ thawWaited s x.id w then s.put (h.wait .suspended)
      else next s (h.setZ false) (.fwait a))

/-! ## PUBLISH (R310) -/

/-- The lowest byte of the first page of a buffer that is in host bias or transition. -/
def biasedPage (s : State) (x : Context) (b : PublishBuffer) : Option Nat :=
  ((rangeParts 65536 b.base (b.base + b.size)).find? (fun p => match walk s x p.1 with
    | .leaf l => l.bh || l.bt
    | .absent => false
    | .malformed => false)).map Prod.fst

/-- The lowest byte of a buffer whose live backing is frozen. -/
def frozenByte (s : State) (b : PublishBuffer) : Option Nat :=
  ((rangeParts 4096 0 b.size).find? (fun p => s.isFrozen (b.live + p.1))).map (fun p => b.base + p.1)

/-- `PUBLISH`: the checks and the pending count at issue; the publish point is an event. The epoch ends at issue, and again at the publish
point (R73; log 50). In a speculative task it traps with the buffer's base as the address (R375; log 52). -/
def execPublish (a : Reg) (sc : Scope) (s : State) : Host.Outcome State Fault Refusal :=
  onFragment s (.publish a sc) .control (fun h =>
    let i : Instr := .publish a sc
    let n := (h.s a).toNat
    match s.ctx? h.g.ctx with
    | none => plainTrap s h i cIllegal 0x03#8
    | some x => match (if n ≤ 4095 then tableFind x.buffers n else none) with
      | none => plainTrap s h i cIllegal 0x03#8
      | some b =>
        if isSpeculative s h then trapOf s h i ⟨cPriv, 0#8, h.lanes, BitVec.ofNat 64 b.base, 0#64, 0⟩
        else match biasedPage s x b with
        | some va => trapOf s h i ⟨cBias, 0x80#8, h.lanes, BitVec.ofNat 64 va, 0#64, 0⟩
        | none => match frozenByte s b with
          | some va =>
            let hd := match s.frozenBy (b.live + (va - b.base)) with
              | some e => handleOf e.2.1 e.2.2.gen
              | none => 0#32
            trapOf s h i ⟨cFrozenWrite, 0x05#8, h.lanes, BitVec.ofNat 64 va, hd.setWidth 64, 0⟩
          | none =>
            (s.setCtx { x with buffers := tablePut x.buffers n { b with pending := b.pending + 1 } }).put
              (h.endEpoch.wait (.publish n sc false)))

end Sys2Proof.Machine
end

