-- ==== Sys2Proof/Machine/Copies.lean ====
section
/-! DEFINITION. Issuing bulk copies (R301 to R303), batches (R304, R305), stage rings (R306 to R308), and the run-ahead
requests `RAF` and `RAFG` (R409 to R411). What a copy does later stands in Pad.lean.
-/

namespace Sys2Proof.Machine

/-! ## A copy request -/

/-- A checked-for-size request: rows of global start, scratchpad start and length, the index list, and its stage. -/
structure CopyReq where
  out : Bool
  rows : List (DWord × Nat × Nat)
  /-- Scratchpad ranges it touches besides the rows: the index list. -/
  list : Option (Nat × Nat)
  stage : Option (Nat × Nat)

/-- The size word of a copy: bits 27:0 with a stage, all bits without (R301). -/
def copySize (ring : Bool) (w : Word) : Nat := if ring then (w.extractLsb' 0 28).toNat else w.toNat

def copyStage (o : GaC) (w : Word) : Option (Nat × Nat) := if o.ring then some (o.imm.toNat, w.toNat / 2 ^ 28) else none

/-- A size and a row count outside R301. -/
def rowsBad (bytes rows : Nat) : Bool :=
  decide (bytes < 4) || decide (2 ^ 20 < bytes) || rows == 0 || decide (65535 < rows) || decide (2 ^ 20 < rows * bytes)

/-- Remove every active lane and do nothing more (R261). -/
def switchOff (s : State) (h : Here) (i : Instr) : State := next s (h.removeLanes h.lanes) i

/-- The 4 KiB parts of a row: global address, scratchpad address, length. -/
def rowParts (r : DWord × Nat × Nat) : List (DWord × Nat × Nat) :=
  (rangeParts 4096 r.1.toNat (r.1.toNat + r.2.2)).map (fun p => (BitVec.ofNat 64 p.1, r.2.1 + (p.1 - r.1.toNat), p.2))

/-- Where a part's global bytes lie: the shadow backing for a `CPYO` into a publish buffer (R309). -/
def partPlace (x : Context) (out : Bool) (va : DWord) (p : Place) : Nat :=
  if out then match x.bufferAt va.toNat with
    | some b => b.2.shadow + (va.toNat - b.2.base)
    | none => p.pa
  else p.pa

/-- The check of one part (R302 step 4): translation and permission, then for a destination the freeze check. -/
def checkPart (s : State) (h : Here) (x : Context) (out : Bool) (va : DWord) : Check :=
  let spec := isSpeculative s h && !specMayWrite s h ((x.bufferAt va.toNat).map Prod.fst)
  match checkAccess s x spec (if out then .copyDst else .copySrc) .none 1 1 va with
  | .ok p =>
    let pa := partPlace x out va p
    if out && s.isFrozen pa then
      let hd := match s.frozenBy pa with
        | some e => handleOf e.2.1 e.2.2.gen
        | none => 0#32
      .bad 15 cFrozenWrite 0x05#8 va (hd.setWidth 64)
    else .ok { p with pa := pa }
  | c => c

/-- The first cause of R197 over all parts with the lowest address that meets it; the frame pairs the scratchpad address. -/
def gatherParts (mask : LaneMask) (cs : List (Check × DWord × Nat × Nat)) : RangeCheck :=
  let r := cs.foldl (fun r c => min r c.1.rank) 100
  let worst := cs.filter (fun c => c.1.rank == r)
  let low := worst.foldl (fun (m : Option (Check × DWord × Nat × Nat)) c => match m with
    | none => some c
    | some d => if c.2.1.toNat < d.2.1.toNat then some c else some d) none
  match low with
  | some (.bad _ cause sub addr _, _, pad, _) => .trap ⟨cause, sub, mask, addr, BitVec.ofNat 64 pad, 0⟩
  | some (.wait _ w, _, _, _) => .wait w
  | _ => .ok (cs.filterMap (fun c => match c.1 with
    | .ok p => some p
    | _ => none))

/-- The pieces of a checked copy. -/
def copyPieces (out : Bool) (cs : List (Check × DWord × Nat × Nat)) : List Piece :=
  cs.filterMap (fun c => match c.1 with
    | .ok p => some (if out then ⟨c.2.2.1, p.pa, c.2.2.2⟩ else ⟨p.pa, c.2.2.1, c.2.2.2⟩)
    | _ => none)

/-- The buffer a `CPYO` destination lies in, or that it lies partly inside one (R309). -/
def copyBuffer (x : Context) (lo n : Nat) : Option Nat × Bool :=
  match x.buffers.find? (fun b => decide (b.2.base < lo + n) && decide (lo < b.2.base + b.2.size)) with
  | some b => if b.2.base ≤ lo ∧ lo + n ≤ b.2.base + b.2.size then (some b.1, false) else (none, true)
  | none => (none, false)

/-- The source lines of a copy that the observer sees (R396): lane k is the k-th line that meets the conditions. -/
def observeCopy (s : State) (h : Here) (x : Context) (rows : List (DWord × Nat × Nat)) : State :=
  if !observes s h then s
  else
    let parts := rows.flatMap (fun r => (rangeParts 128 r.1.toNat (r.1.toNat + r.2.2)).filterMap (fun p =>
      match place s x (BitVec.ofNat 64 p.1) with
      | .inl q => some (p, q)
      | .inr _ => none))
    let missed := parts.filter (fun p => !l1Holds s h.r.core p.2.pa p.1.2 && p.2.leaf.ca && !p.2.leaf.rad && !s.isFrozen p.2.pa)
    (missed.foldl (fun (a : State × Nat) p =>
      let o := isObserved a.1 h.r.core h.g.launch p.2
      if o.2 then (recordSeen o.1 h ⟨BitVec.ofNat 64 p.1.1, p.1.2, a.2, p.2⟩, a.2 + 1) else (o.1, a.2)) (s, 0)).1

/-- The misaligned address of a copy, with the scratchpad address that is paired with it (R196, R200, R302): the first of its addresses,
in the order in which they are given here, that is; where only a size is, the first (log 50). -/
def copyOdd (addrs : List (DWord × Nat)) (size : Nat) : Option (DWord × Nat) :=
  match addrs.find? (fun a => a.1.toNat % 4 != 0) with
  | some a => some a
  | none => if size % 4 = 0 then none else addrs.head?

/-- A scratchpad address of a copy, paired with itself. -/
def padPair (a : Nat) : DWord × Nat := (BitVec.ofNat 64 a, a)

/-- Issue a copy: the checks of R302 from step 2 on (its misaligned address, if any, is given), then the copy in flight. An empty range
that lies beyond the allocation is outside it too, as a range that is not empty is (R260, R302; log 50). -/
def issueCopy (s : State) (h : Here) (i : Instr) (x : Context) (t : Team) (q : CopyReq) (odd : Option (DWord × Nat)) (buffer : Option Nat) :
    State :=
  match odd with
  | some at' => trapOf s h i ⟨cAlign, 0#8, h.lanes, at'.1, BitVec.ofNat 64 at'.2, 0⟩
  | none =>
    let ranges := q.rows.map (fun r => (r.2.1, r.2.2)) ++ q.list.toList ++ (q.stage.map (fun st => (stageAddr st.1 st.2, 4))).toList
    if ranges.any (fun r => !padInside t r.1 r.2) then switchOff s h i
    else
      let parts := q.rows.flatMap rowParts
      let cs := parts.map (fun p => (checkPart s h x q.out p.1, p))
      match gatherParts h.lanes cs with
      | .trap tr => trapOf s h i tr
      | .wait w => s.put (h.wait w)
      | .ok _ =>
        let busy := (s.copies.filter (fun c => c.core == h.r.core)).length
        let held := match buffer with
          | some b => match tableFind x.buffers b with
            | some pb => pb.publishing
            | none => false
          | none => false
        if Config.copiesPerCore ≤ busy || held then s.put (h.wait .suspended)
        else
          let cp : Copy :=
            { id := s.fresh, core := h.r.core, group := h.g.uid, team := t.uid, ctx := x.id, launch := h.g.launch, out := q.out
              pieces := copyPieces q.out cs, batch := if q.stage.isSome then none else some h.g.batch, stage := q.stage
              buffer := buffer, written := none, captured := none }
          let s1 := if q.out then s else observeCopy s h x q.rows
          next { s1 with copies := s1.copies ++ [cp], fresh := s1.fresh + 1 } h i

/-- A copy instruction on a group with a team and a context. -/
def copyForm (s : State) (i : Instr) (f : Here → Context → Team → State) : Host.Outcome State Fault Refusal :=
  onFragment s i .copy (fun h => match s.ctx? h.g.ctx, teamOf s h with
    | some x, some t => f h x t
    | _, _ => next s h i)

/-- Stage bits where no ring takes them (R301). -/
def stageBitsBad (ring : Bool) (w : Word) : Bool := !ring && decide (2 ^ 28 ≤ w.toNat)

def execCpy (o : GaC) (s : State) : Host.Outcome State Fault Refusal :=
  copyForm s (.cpy o) (fun h x t =>
    let i : Instr := .cpy o
    let n := copySize o.ring (h.s o.b)
    if stageBitsBad o.ring (h.s o.b) || decide (2 ^ 20 < n) then plainTrap s h i cIllegal 0x03#8
    else
      let src := h.sp (pairReg o.p.toNat)
      let dst := (h.s o.a).toNat
      issueCopy s h i x t ⟨false, [(src, dst, n)], none, copyStage o (h.s o.b)⟩ (copyOdd [(src, dst), padPair dst] n) none)

def execCpy2d (o : GaC) (s : State) : Host.Outcome State Fault Refusal :=
  copyForm s (.cpy2d o) (fun h x t =>
    let i : Instr := .cpy2d o
    let n := copySize o.ring (h.s o.b)
    let rows := (h.s (o.b + 1#6)).toNat
    let stride := (h.s (o.b + 2#6)).signExtend 64
    if stageBitsBad o.ring (h.s o.b) || rowsBad n rows then plainTrap s h i cIllegal 0x03#8
    else
      let src := h.sp (pairReg o.p.toNat)
      let dst := (h.s o.a).toNat
      let list := (List.range rows).map (fun r => (src + BitVec.ofNat 64 r * stride, dst + r * n, n))
      issueCopy s h i x t ⟨false, list, none, copyStage o (h.s o.b)⟩ (copyOdd [(src, dst), padPair dst, (src + stride, dst + n)] n) none)

/-- `CPYG`. An index list that lies in a poisoned granule is read as it stands: the spec gives it neither a trap nor poison (R218; log 50). -/
def execCpyg (o : GaC) (s : State) : Host.Outcome State Fault Refusal :=
  copyForm s (.cpyg o) (fun h x t =>
    let i : Instr := .cpyg o
    let n := copySize o.ring (h.s o.b)
    let rows := (h.s (o.b + 1#6)).toNat
    let idx := (h.s (o.b + 2#6)).toNat
    if stageBitsBad o.ring (h.s o.b) || rowsBad n rows then plainTrap s h i cIllegal 0x03#8
    else
      let src := h.sp (pairReg o.p.toNat)
      let dst := (h.s o.a).toNat
      let row (r : Nat) : DWord × Nat × Nat :=
        (src + (padWord t (idx + 4 * r)).signExtend 64 * BitVec.ofNat 64 n, dst + r * n, n)
      issueCopy s h i x t ⟨false, (List.range rows).map row, some (idx, 4 * rows), copyStage o (h.s o.b)⟩
        (copyOdd [(src, dst), padPair dst, padPair idx] n) none)

def execCpyo (p : BitVec 5) (a b : Reg) (s : State) : Host.Outcome State Fault Refusal :=
  copyForm s (.cpyo p a b) (fun h x t =>
    let i : Instr := .cpyo p a b
    let n := (h.s b).toNat
    let dst := h.sp (pairReg p.toNat)
    let bf := copyBuffer x dst.toNat n
    if decide (2 ^ 20 < n) || bf.2 then plainTrap s h i cIllegal 0x03#8
    else issueCopy s h i x t ⟨true, [(dst, (h.s a).toNat, n)], none, none⟩ (copyOdd [(dst, (h.s a).toNat), padPair (h.s a).toNat] n) bf.1)

/-! ## Batches (R304, R305) -/

/-- The next batch number: 0 is skipped. -/
def nextBatch (b : Word) : Word := if b = 0xFFFFFFFF#32 then 1#32 else b + 1#32

/-- A copy of a batch of the group is in flight. -/
def batchBusy (s : State) (g : Nat) (p : Word → Bool) : Bool :=
  s.copies.any (fun c => c.group == g && (match c.batch with
    | some b => p b
    | none => false))

def execCloseb (a : Reg) (s : State) : Host.Outcome State Fault Refusal :=
  onFragment s (.closeb a) .copy (fun h =>
    let b := h.g.batch
    let h1 := h.setS a b
    let h2 : Here := { h1 with g := { h1.g with batch := nextBatch b } }
    next s (if batchBusy s h.g.uid (fun x => x == b) then h2 else h2.endEpoch) (.closeb a))

def execWaitb (a : Reg) (s : State) : Host.Outcome State Fault Refusal :=
  onFragment s (.waitb a) .copy (fun h0 =>
    let sh := settleAll s h0
    let h := sh.2
    let n := h.s a
    if n ≠ 0#32 ∧ batchBusy sh.1 h.g.uid (fun m => m != h.g.batch && decide ((n - m).toNat < 2 ^ 31)) then sh.1.put (h.wait (.batch n))
    else next sh.1 h.endEpoch (.waitb a))

/-! ## Stage rings (R307, R308) -/

def stageOf (w : Word) : Nat := w.toNat % 16

def execSarrive (a : Reg) (ring : BitVec 3) (s : State) : Host.Outcome State Fault Refusal :=
  onFragment s (.sarrive a ring) .control (fun h =>
    let i : Instr := .sarrive a ring
    let st := stageOf (h.s a)
    match teamOf s h with
    | none => next s h i
    | some t =>
      if !padInside t (stageAddr ring.toNat st) 4 then switchOff s h i
      else afterRelease s h .core [] (fun s => match teamOf s h with
        | some t => next (s.setTeam (arrive t ring.toNat st)) h i
        | none => next s h i))

def execSwait (ph : Bool) (a : Reg) (ring : BitVec 3) (s : State) : Host.Outcome State Fault Refusal :=
  onFragment s (.swait ph a ring) .control (fun h0 =>
    let i : Instr := .swait ph a ring
    let sh := settleAll s h0
    let h := sh.2
    let ad := stageAddr ring.toNat (stageOf (h.s a))
    match teamOf sh.1 h with
    | none => next sh.1 h i
    | some t =>
      if !padInside t ad 4 then switchOff sh.1 h i
      else if stagePhase (padWord t ad) == ph then next sh.1 h.endEpoch i
      else sh.1.put (h.wait (.stage ad ph)))

/-! ## RAF and RAFG (R409 to R411) -/

/-- The argument pair that anchors the window of the launch's image, as the fragment holds it (R406). -/
def windowPair (s : State) (h : Here) : DWord :=
  match (s.launch? h.g.launch).bind (fun l => l.image) with
  | some im => h.sp (pairReg (im.windowArg.toNat % 32))
  | none => 0#64

/-- Queue run-ahead requests of the group, in order. -/
def addFetches (s : State) (h : Here) (qs : List FetchReq) : State :=
  let k := s.core h.r.core
  let fs := qs.zipIdx.map (fun q => Fetch.mk (s.fresh + q.2) h.g.uid h.g.ctx h.g.launch h.g.team.isNone (windowPair s h) q.1)
  { s.setCore h.r.core { k with fetches := k.fetches ++ fs } with fresh := s.fresh + qs.length }

/-- The line requests of a byte range (R410). -/
def lineReqs (a n : Nat) : List FetchReq := (rangeParts 128 a (a + n)).map (fun p => .line p.1 (p.1 + p.2))

def execRaf (p : BitVec 5) (a : Reg) (s : State) : Host.Outcome State Fault Refusal :=
  onFragment s (.raf p a) .copy (fun h =>
    next (addFetches s h (lineReqs (h.sp (pairReg p.toNat)).toNat (min (h.s a).toNat (2 ^ 20)))) h (.raf p a))

def execRafg (p : BitVec 5) (a b : Reg) (z : BitVec 3) (s : State) : Host.Outcome State Fault Refusal :=
  onFragment s (.rafg p a b z) .copy (fun h =>
    let base := h.sp (pairReg p.toNat)
    let x := h.sp a &&& ~~~3#64
    let c := min (h.s b).toNat 4096
    next (addFetches s h ((List.range c).map (fun i => .element (x + BitVec.ofNat 64 (4 * i)) base (2 ^ z.toNat)))) h (.rafg p a b z))

end Sys2Proof.Machine
end

