-- ==== Sys2Proof/Machine/Integer.lean ====
section
/-! DEFINITION. Integer lane instructions (R158 to R165), and the integer functions the uniform instructions share (R190).
-/

namespace Sys2Proof.Machine

/-! ## Integer functions -/

/-- Shift left; 0 from 32 on (R159). -/
def shl32 (a : Word) (s : Nat) : Word := if 32 ≤ s then 0#32 else a <<< s
/-- Shift right with zero fill. -/
def shr32 (a : Word) (s : Nat) : Word := if 32 ≤ s then 0#32 else a >>> s
/-- Shift right with sign fill. -/
def sra32 (a : Word) (s : Nat) : Word := a.sshiftRight (min s 31)

/-- The shift amount of a lane or uniform shift: bits 7:0 (R159). -/
def shiftAmount (b : Word) : Nat := (b.extractLsb' 0 8).toNat

/-- Leading zero bits (R159). -/
def clz32 (a : Word) : Nat := if a = 0#32 then 32 else 31 - Nat.log2 a.toNat
/-- One bits. -/
def popc32 (a : Word) : Nat := laneCount a
/-- Bit i to bit 31 − i. -/
def rev32 (a : Word) : Word := maskOf (fun i => a.getLsbD (31 - i.val))

/-- `IBYTE`: byte i is byte (b bits 2i+1:2i) of a (R159). -/
def pickBytes (a b : Word) : Word :=
  let byte (i : Nat) : Byte := a.extractLsb' (8 * (b.extractLsb' (2 * i) 2).toNat) 8
  byte 3 ++ byte 2 ++ byte 1 ++ byte 0

/-- Signed and unsigned high halves (R160). -/
def mulHi (a b : Word) : Word := BitVec.ofInt 32 ((a.toInt * b.toInt) / 2 ^ 32)
def mulHiU (a b : Word) : Word := BitVec.ofNat 32 (a.toNat * b.toNat / 2 ^ 32)

def minS (a b : Word) : Word := if b.slt a then b else a
def maxS (a b : Word) : Word := if a.slt b then b else a
def minU (a b : Word) : Word := if b.ult a then b else a
def maxU (a b : Word) : Word := if a.ult b then b else a

/-- Position and width of a bit field (R163). -/
def fieldPos (b : Word) : Nat := (b.extractLsb' 0 5).toNat
def fieldLen (b : Word) : Nat := min (b.extractLsb' 8 6).toNat (32 - fieldPos b)

/-- The field, zero-extended. -/
def fieldU (a b : Word) : Word := BitVec.ofNat 32 (a.toNat / 2 ^ fieldPos b % 2 ^ fieldLen b)

/-- The field, sign-extended from its top bit. -/
def fieldS (a b : Word) : Word :=
  let n := (fieldU a b).toNat
  if fieldLen b ≠ 0 ∧ 2 ^ (fieldLen b - 1) ≤ n then BitVec.ofInt 32 (Int.ofNat n - 2 ^ fieldLen b) else BitVec.ofNat 32 n

/-- D with the field replaced by the low bits of a. -/
def fieldInsert (a b d : Word) : Word :=
  let m : Word := BitVec.ofNat 32 ((2 ^ fieldLen b - 1) * 2 ^ fieldPos b)
  (d &&& ~~~m) ||| ((a <<< fieldPos b) &&& m)

/-! ## LOP 0x00 and 0x01 (R158) -/

def execIadd (o : LrB) (s : State) : Host.Outcome State Fault Refusal :=
  lrB s (.iadd o) o codesAll (fun _ _ a b => addCodes a b false)
def execIaddc (o : LrB) (s : State) : Host.Outcome State Fault Refusal :=
  lrB s (.iaddc o) o codesAll (fun h l a b => addCodes a b (h.g.cc.c.getLsbD l.val))
def execIsub (o : LrB) (s : State) : Host.Outcome State Fault Refusal :=
  lrB s (.isub o) o codesAll (fun _ _ a b => subCodes a b false)
def execIsubb (o : LrB) (s : State) : Host.Outcome State Fault Refusal :=
  lrB s (.isubb o) o codesAll (fun h l a b => subCodes a b (h.g.cc.c.getLsbD l.val))
def execIabs (o : LrU) (s : State) : Host.Outcome State Fault Refusal :=
  lrU s (.iabs o) o codesZNV (fun a => negCodes a (if a.msb then -a else a))
def execIneg (o : LrU) (s : State) : Host.Outcome State Fault Refusal :=
  lrU s (.ineg o) o codesZNV (fun a => negCodes a (-a))
def execImin (o : LrB) (s : State) : Host.Outcome State Fault Refusal :=
  lrB s (.imin o) o codesZN (fun _ _ a b => zn (minS a b))
def execImax (o : LrB) (s : State) : Host.Outcome State Fault Refusal :=
  lrB s (.imax o) o codesZN (fun _ _ a b => zn (maxS a b))
def execIminu (o : LrB) (s : State) : Host.Outcome State Fault Refusal :=
  lrB s (.iminu o) o codesZN (fun _ _ a b => zn (minU a b))
def execImaxu (o : LrB) (s : State) : Host.Outcome State Fault Refusal :=
  lrB s (.imaxu o) o codesZN (fun _ _ a b => zn (maxU a b))
def execIand (o : LrB) (s : State) : Host.Outcome State Fault Refusal :=
  lrB s (.iand o) o codesZN (fun _ _ a b => zn (a &&& b))
def execIor (o : LrB) (s : State) : Host.Outcome State Fault Refusal :=
  lrB s (.ior o) o codesZN (fun _ _ a b => zn (a ||| b))
def execIxor (o : LrB) (s : State) : Host.Outcome State Fault Refusal :=
  lrB s (.ixor o) o codesZN (fun _ _ a b => zn (a ^^^ b))
def execIandn (o : LrB) (s : State) : Host.Outcome State Fault Refusal :=
  lrB s (.iandn o) o codesZN (fun _ _ a b => zn (a &&& ~~~b))
def execInot (o : LrU) (s : State) : Host.Outcome State Fault Refusal :=
  lrU s (.inot o) o codesZN (fun a => zn (~~~a))
def execImov (o : LrU) (s : State) : Host.Outcome State Fault Refusal :=
  lrU s (.imov o) o codesZN (fun a => zn a)

/-! ## LOP 0x02 (R159) -/

def execIshl (o : LrB) (s : State) : Host.Outcome State Fault Refusal :=
  lrB s (.ishl o) o codesZN (fun _ _ a b => zn (shl32 a (shiftAmount b)))
def execIshr (o : LrB) (s : State) : Host.Outcome State Fault Refusal :=
  lrB s (.ishr o) o codesZN (fun _ _ a b => zn (shr32 a (shiftAmount b)))
def execIsra (o : LrB) (s : State) : Host.Outcome State Fault Refusal :=
  lrB s (.isra o) o codesZN (fun _ _ a b => zn (sra32 a (shiftAmount b)))
def execIrot (o : LrB) (s : State) : Host.Outcome State Fault Refusal :=
  lrB s (.irot o) o codesZN (fun _ _ a b => zn (a.rotateLeft (shiftAmount b % 32)))
def execIclz (o : LrU) (s : State) : Host.Outcome State Fault Refusal :=
  lrU s (.iclz o) o codesZN (fun a => zn (BitVec.ofNat 32 (clz32 a)))
def execIpopc (o : LrU) (s : State) : Host.Outcome State Fault Refusal :=
  lrU s (.ipopc o) o codesZN (fun a => zn (BitVec.ofNat 32 (popc32 a)))
def execIbrev (o : LrU) (s : State) : Host.Outcome State Fault Refusal :=
  lrU s (.ibrev o) o codesZN (fun a => zn (rev32 a))
def execIbyte (o : LrB) (s : State) : Host.Outcome State Fault Refusal :=
  lrB s (.ibyte o) o codesZN (fun _ _ a b => zn (pickBytes a b))

/-! ## LOP 0x03 (R160) -/

def execImul (o : LrB) (s : State) : Host.Outcome State Fault Refusal :=
  lrB s (.imul o) o codesZNV (fun _ _ a b => mulCodes (a.toInt * b.toInt))
def execImulh (o : LrB) (s : State) : Host.Outcome State Fault Refusal :=
  lrB s (.imulh o) o codesZN (fun _ _ a b => zn (mulHi a b))
def execImulhu (o : LrB) (s : State) : Host.Outcome State Fault Refusal :=
  lrB s (.imulhu o) o codesZN (fun _ _ a b => zn (mulHiU a b))
def execImad (o : LrB) (s : State) : Host.Outcome State Fault Refusal :=
  lrD s (.imad o) o codesZNV (fun _ a b d => mulCodes (a.toInt * b.toInt + d.toInt))

/-! ## LOP 0x04 to 0x06 (R161 to R163) -/

def execIcmp (o : LrC) (s : State) : Host.Outcome State Fault Refusal :=
  lrC s (.icmp o) o (fun a b => subCodes a b false)
def execIcmpu (o : LrC) (s : State) : Host.Outcome State Fault Refusal :=
  lrC s (.icmpu o) o cmpuCodes

/-- `ISEL` (R162): a where the condition holds for the lane's codes, else b. -/
def execIsel (o : LrS) (s : State) : Host.Outcome State Fault Refusal :=
  lrB s (.isel o) ⟨o.k, false, o.d, o.a, o.b, o.ix⟩ codesNone (fun h l a b =>
    let cc := h.g.cc
    .plain (if condHolds (0#1 ++ o.cond) (cc.c.getLsbD l.val) (cc.z.getLsbD l.val) (cc.n.getLsbD l.val) (cc.v.getLsbD l.val) false
      then a else b))

def execIbfe (o : LrB) (s : State) : Host.Outcome State Fault Refusal :=
  lrB s (.ibfe o) o codesZN (fun _ _ a b => zn (fieldS a b))
def execIbfeu (o : LrB) (s : State) : Host.Outcome State Fault Refusal :=
  lrB s (.ibfeu o) o codesZN (fun _ _ a b => zn (fieldU a b))
def execIbfi (o : LrB) (s : State) : Host.Outcome State Fault Refusal :=
  lrD s (.ibfi o) o codesZN (fun _ a b d => zn (fieldInsert a b d))

/-! ## LI (R164) -/

def execIaddi (o : LiOp) (s : State) : Host.Outcome State Fault Refusal :=
  liRun s (.iaddi o) o.k o.c o.d o.a codesAll (fun a => addCodes a (liImm o.imm o.hi) false)
def execIandi (o : LiOp) (s : State) : Host.Outcome State Fault Refusal :=
  liRun s (.iandi o) o.k o.c o.d o.a codesZN (fun a => zn (a &&& (liImm o.imm o.hi)))
def execIori (o : LiOp) (s : State) : Host.Outcome State Fault Refusal :=
  liRun s (.iori o) o.k o.c o.d o.a codesZN (fun a => zn (a ||| (liImm o.imm o.hi)))
def execIxori (o : LiOp) (s : State) : Host.Outcome State Fault Refusal :=
  liRun s (.ixori o) o.k o.c o.d o.a codesZN (fun a => zn (a ^^^ (liImm o.imm o.hi)))
def execIshli (o : LiSh) (s : State) : Host.Outcome State Fault Refusal :=
  liRun s (.ishli o) o.k o.c o.d o.a codesZN (fun a => zn (shl32 a o.sh.toNat))
def execIshri (o : LiSh) (s : State) : Host.Outcome State Fault Refusal :=
  liRun s (.ishri o) o.k o.c o.d o.a codesZN (fun a => zn (shr32 a o.sh.toNat))
def execIsrai (o : LiSh) (s : State) : Host.Outcome State Fault Refusal :=
  liRun s (.israi o) o.k o.c o.d o.a codesZN (fun a => zn (sra32 a o.sh.toNat))

/-- `IMOVI` reads no register. -/
def execImovi (o : LiMov) (s : State) : Host.Outcome State Fault Refusal :=
  onFragment s (.imovi o) .lane (fun h =>
    runLane s h ⟨.imovi o, o.k, .regs o.d 1, none, none, [], [], none⟩ (fun ex =>
      perLane ex (codesIf o.c codesZN) (fun _ => zn (liImm o.imm o.hi))))

/-! ## Division (R165) -/

def execIdiv (o : LlB) (s : State) : Host.Outcome State Fault Refusal :=
  llB s (.idiv o) o false true (fun _ a b => .plain (BitVec.ofInt 32 (a.toInt.tdiv b.toInt)))
def execIdivu (o : LlB) (s : State) : Host.Outcome State Fault Refusal :=
  llB s (.idivu o) o false true (fun _ a b => .plain (BitVec.ofNat 32 (a.toNat / b.toNat)))
def execIrem (o : LlB) (s : State) : Host.Outcome State Fault Refusal :=
  llB s (.irem o) o false true (fun _ a b => .plain (BitVec.ofInt 32 (a.toInt.tmod b.toInt)))
def execIremu (o : LlB) (s : State) : Host.Outcome State Fault Refusal :=
  llB s (.iremu o) o false true (fun _ a b => .plain (BitVec.ofNat 32 (a.toNat % b.toNat)))

end Sys2Proof.Machine
end

