-- ==== Sys2Proof/Machine/Cross.lean ====
section
/-! DEFINITION. Cross-lane instructions over tiles (R36, R37, R236 to R244). -/

namespace Sys2Proof.Machine

/-! ## Tiles -/

/-- The tile size in force (R36). -/
def Here.tileSize (h : Here) : Nat := h.f.view.part.toNat

/-- `TILE(l)` (R36). -/
def tileOf (p : Nat) (l : Fin 32) : Nat := l.val / p

/-- The active lanes of each tile, ascending, tiles without one left out. -/
def tilesIn (p : Nat) (ex : LaneMask) : List (List (Fin 32)) :=
  ((List.range 32).map (fun t => (lanesIn ex).filter (fun l => tileOf p l == t))).filter (fun x => !x.isEmpty)

/-- The lanes of a list as a mask. -/
def maskOfLanes (x : List (Fin 32)) : LaneMask := maskOf (fun l => x.contains l)

/-! ## Running -/

/-- With no active lane a cross-lane instruction sets E and nothing else (R37, R236). -/
def noLanes (s : State) (h : Here) (i : Instr) : State := next s (h.setE true) i

/-- A cross-lane instruction: E, the gates, the result (R236). -/
def crossRun (s : State) (i : Instr) (sh : LaneShape) (old : Bool) (f : Here → LaneMask → LaneResult) : Host.Outcome State Fault Refusal :=
  onFragment s i .lane (fun h =>
    let ex := h.exec sh.k
    if ex = 0#32 then noLanes s h i
    else match issueGates s h sh ex with
    | some s' => s'
    | none => finishLane s h sh ex (old || ex != 0xFFFFFFFF#32) none { f h ex with e := some false })

/-- A lane's outcome from a list of outcomes. -/
def outOf (os : List (Fin 32 × LaneOut)) (l : Fin 32) : LaneOut := ((os.find? (fun p => p.1 == l)).map Prod.snd).getD LaneOut.idle

/-- Shape of a cross-lane word of one or two sources. -/
def crossShape (i : Instr) (k : KReg) (d : Reg) (reads : List Src) : LaneShape := ⟨i, k, .regs d 1, none, none, reads, [], none⟩

/-! ## XSHFL (R237) -/

/-- The source lane that an active lane names, when it is valid. -/
def shflSource (mode : BitVec 3) (p : Nat) (ex : LaneMask) (d : Word) (l : Fin 32) : Option (Fin 32) :=
  let t := tileOf p l
  let r := l.val % p
  let i : Int := match mode with
    | 0#3 => Int.ofNat d.toNat
    | 1#3 => Int.ofNat r + d.toInt
    | 2#3 => Int.ofNat (r ^^^ d.toNat)
    | _ => Int.ofNat ((r + d.toNat) % p)
  if 0 ≤ i ∧ i < p then
    let n := t * p + i.toNat
    if h : n < 32 then (if ex.getLsbD n then some ⟨n, h⟩ else none) else none
  else none

def execXshfl (o : LrF) (s : State) : Host.Outcome State Fault Refusal :=
  crossRun s (.xshfl o) (crossShape (.xshfl o) o.k o.d [.reg o.a, .reg o.b]) true (fun h ex =>
    let va := h.v o.a
    let vb := h.v o.b
    let src : Lanes (Option (Fin 32)) := Lanes.make (fun l =>
      if ex.getLsbD l.val then shflSource o.f h.tileSize ex vb[l] l else none)
    let got := maskOf (fun l => src[l].isSome)
    let vals : Lanes Word := Lanes.make (fun l => match src[l] with
      | some m => va[m]
      | none => 0#32)
    { LaneResult.values got [vals] with
      codes := ⟨false, o.c, false, false⟩, cc := { LaneCC.zero with z := ~~~got } })

/-! ## XGATHER (R238) -/

/-- The lanes that a group's slices of the fragment cover, removed lanes left out (R238, R260). -/
def execXgather (o : LrF) (s : State) : Host.Outcome State Fault Refusal :=
  onFragment s (.xgather o) .lane (fun h =>
    let i : Instr := .xgather o
    let ex := h.exec o.k
    let sh := crossShape i o.k o.d [.reg o.a]
    let w := h.w (o.f.setWidth 2)
    let va := h.v o.a
    if ex = 0#32 then noLanes s h i
    else match budgetGate s h i (h.raises ex sh.d false) with
    | some s' => s'
    | none =>
      let bad := ex &&& maskOf (fun l => decide (32 * w.len.toNat ≤ va[l].toNat))
      if 64 < w.base.toNat + w.len.toNat then trapOf s h i (.plain cIndexRange 0x08#8 ex)
      else if bad ≠ 0#32 then trapOf s h i (.plain cIndexRange 0x02#8 bad)
      else
        let from' (l : Fin 32) : VReg := h.vregAt (w.base.toNat + va[l].toNat / 32)
        let lane (l : Fin 32) : Fin 32 := Fin.ofNat 32 va[l].toNat
        let inside := maskOf (fun l => ex.getLsbD l.val && h.lanes.getLsbD (lane l).val)
        let poison := (ex &&& (h.vreg o.a).poison) |||
          maskOf (fun l => inside.getLsbD l.val && (from' l).poison.getLsbD (lane l).val)
        if poison ≠ 0#32 then trapOf s h i (.plain cEcc 0x01#8 poison)
        else
          let vals : Lanes Word := Lanes.make (fun l => if inside.getLsbD l.val then (from' l).lanes[lane l] else 0#32)
          finishLane s h sh ex true none
            { LaneResult.values ex [vals] with
              codes := ⟨false, o.c, false, false⟩, cc := { LaneCC.zero with z := ~~~inside }, e := some false })

/-! ## XVOTE (R239) -/

/-- One tile's census for one of its active lanes: value, Z, N. -/
def voteLane (mode : BitVec 3) (va : Lanes Word) (tile : List (Fin 32)) (l : Fin 32) : LaneOut :=
  let nz := tile.filter (fun m => va[m] != 0#32)
  match mode with
  | 0#3 => { LaneOut.plain (BitVec.ofNat 32 nz.length) with z := nz.isEmpty, n := nz.length == tile.length }
  | 1#3 =>
    let lead := maskOfLanes (tile.filter (fun m => (tile.find? (fun x => va[x] == va[m])) == some m))
    { LaneOut.plain lead with z := lead.getLsbD l.val }
  | 2#3 => { LaneOut.plain (maskOfLanes nz) with z := nz.isEmpty, n := nz.length == tile.length }
  | _ =>
    let same := maskOfLanes (tile.filter (fun m => va[m] == va[l]))
    { LaneOut.plain same with z := same == (1#32 <<< l.val) }

def execXvote (o : LrF) (s : State) : Host.Outcome State Fault Refusal :=
  crossRun s (.xvote o) (crossShape (.xvote o) o.k o.d [.reg o.a]) false (fun h ex =>
    let va := h.v o.a
    let os := (tilesIn h.tileSize ex).flatMap (fun t => t.map (fun l => (l, voteLane o.f va t l)))
    perLane ex (codesIf o.c codesZN) (outOf os))

/-! ## Reductions and scans (R240 to R243) -/

/-- One step of an operation: the new accumulator and its flags (R240). -/
def redStep (f : BitVec 3) (rm : BitVec 2) (acc x : Word) : Word × Flags :=
  match f with
  | 0#3 => (acc + x, 0#5)
  | 1#3 =>
    let a := f32 acc
    let b := f32 x
    let r := fmaRes fmtF32 rm false [b, a] b .one a
    (BitVec.ofNat 32 r.bits, r.flags)
  | 2#3 => (minS acc x, 0#5)
  | 3#3 => (maxS acc x, 0#5)
  | 4#3 => (minU acc x, 0#5)
  | 5#3 => (maxU acc x, 0#5)
  | 6#3 => (acc &&& x, 0#5)
  | _ => (acc ||| x, 0#5)

/-- The identity that `XSCANE` delivers first (R240). -/
def redIdentity (f : BitVec 3) : Word := match f with
  | 2#3 => 0x7FFFFFFF#32
  | 3#3 => 0x80000000#32
  | 4#3 => 0xFFFFFFFF#32
  | 6#3 => 0xFFFFFFFF#32
  | _ => 0#32

/-- The accumulators after each step of a chain that starts from `acc`. -/
def redSteps (f : BitVec 3) (rm : BitVec 2) (acc : Word) : List Word → List (Word × Flags)
  | [] => []
  | x :: xs => let r := redStep f rm acc x
    r :: redSteps f rm r.1 xs

/-- The three forms. -/
inductive ScanForm where
  | red | scan | scane
  deriving DecidableEq, Repr

/-- A delivered result: codes by R243, classes by R147 on the values that went into it. -/
def redOut (f : BitVec 3) (w : Word) (fl : Flags) (ins : List Word) : LaneOut :=
  if f = 1#3 then
    let v := f32 w
    { f32Codes w with flags := fl, cls := classOf ⟨w.toNat, fl, v.isNan, v.isInf⟩ (ins.map f32) }
  else { zn w with flags := fl }

/-- One chain over the lanes of a tile or segment (R241, R242). -/
def redChain (form : ScanForm) (f : BitVec 3) (rm : BitVec 2) (va : Lanes Word) (ls : List (Fin 32)) : List (Fin 32 × LaneOut) :=
  match ls with
  | [] => []
  | l0 :: rest =>
    let x0 := va[l0]
    let xs := rest.map (fun l => va[l])
    let steps := redSteps f rm x0 xs
    let incl := (x0, 0#5) :: steps
    let upTo (n : Nat) : List Word := (x0 :: xs).take n
    match form with
    | .red =>
      let last := incl.getLastD (x0, 0#5)
      let fl := steps.foldl (fun a r => a ||| r.2) 0#5
      ls.map (fun l => (l, redOut f last.1 fl (x0 :: xs)))
    | .scan => (ls.zip incl).zipIdx.map (fun p => (p.1.1, redOut f p.1.2.1 p.1.2.2 (upTo (p.2 + 1))))
    | .scane =>
      (l0, redOut f (redIdentity f) 0#5 []) ::
      (rest.zip incl).zipIdx.map (fun p => (p.1.1, redOut f p.1.2.1 p.1.2.2 (upTo (p.2 + 1))))

/-- Codes of a reduction or scan (R243). -/
def redCodes (o : LrF) : CodeSet := codesIf o.c (if o.f = 1#3 then codesAll else codesZN)

/-- An unsegmented form. -/
def redForm (s : State) (i : Instr) (o : LrF) (form : ScanForm) : Host.Outcome State Fault Refusal :=
  crossRun s i (crossShape i o.k o.d [.reg o.a]) false (fun h ex =>
    let va := h.v o.a
    let os := (tilesIn h.tileSize ex).flatMap (redChain form o.f h.f.view.rm va)
    perLane ex (redCodes o) (outOf os))

/-- Maximal runs of consecutive lanes with equal keys (R242). -/
def segments (vb : Lanes Word) : List (Fin 32) → List (List (Fin 32))
  | [] => []
  | l :: rest => match segments vb rest with
    | [] => [[l]]
    | [] :: gs => [l] :: gs
    | (m :: g) :: gs => if vb[l] == vb[m] then (l :: m :: g) :: gs else [l] :: (m :: g) :: gs

/-- A segmented form. -/
def segForm (s : State) (i : Instr) (o : LrF) (form : ScanForm) : Host.Outcome State Fault Refusal :=
  crossRun s i (crossShape i o.k o.d [.reg o.a, .reg o.b]) false (fun h ex =>
    let va := h.v o.a
    let vb := h.v o.b
    let os := ((tilesIn h.tileSize ex).flatMap (segments vb)).flatMap (redChain form o.f h.f.view.rm va)
    perLane ex (redCodes o) (outOf os))

def execXred (o : LrF) (s : State) : Host.Outcome State Fault Refusal := redForm s (.xred o) o .red
def execXscan (o : LrF) (s : State) : Host.Outcome State Fault Refusal := redForm s (.xscan o) o .scan
def execXscane (o : LrF) (s : State) : Host.Outcome State Fault Refusal := redForm s (.xscane o) o .scane
def execXsegred (o : LrF) (s : State) : Host.Outcome State Fault Refusal := segForm s (.xsegred o) o .red
def execXsegscan (o : LrF) (s : State) : Host.Outcome State Fault Refusal := segForm s (.xsegscan o) o .scan

/-! ## XISECT (R244) -/

/-- The merge of two lists, compared unsigned; `fuel` covers both lengths. -/
def mergeCommon : Nat → List Word → List Word → List Word
  | 0, _, _ => []
  | _ + 1, [], _ => []
  | _ + 1, _, [] => []
  | n + 1, a :: as, b :: bs =>
    if a.ult b then mergeCommon n as (b :: bs)
    else if b.ult a then mergeCommon n (a :: as) bs
    else a :: mergeCommon n as bs

def execXisect (o : LrN) (s : State) : Host.Outcome State Fault Refusal :=
  crossRun s (.xisect o) (crossShape (.xisect o) o.k o.d [.reg o.a, .reg o.b]) false (fun h ex =>
    let va := h.v o.a
    let vb := h.v o.b
    let got := (tilesIn h.tileSize ex).flatMap (fun t =>
      t.zip (mergeCommon 65 (t.map (fun l => va[l])) (t.map (fun l => vb[l]))))
    let m := maskOfLanes (got.map Prod.fst)
    let vals : Lanes Word := Lanes.make (fun l => ((got.find? (fun p => p.1 == l)).map Prod.snd).getD 0#32)
    { LaneResult.values m [vals] with
      codes := ⟨false, true, false, false⟩, cc := { LaneCC.zero with z := ~~~m } })

end Sys2Proof.Machine
end

