-- ==== Sys2Proof/Machine/Device.lean ====
section
/-! DEFINITION. The package itself: ports (R412), soft errors (R217, R218, R354), sync (R267, R270), droops (R426), loss of power and
bring-up (R424, R427, R428).
-/

namespace Sys2Proof.Machine

/-- The device has come up: in states ready and failed its ports and its agents' clocks run (R427; log 52). -/
def Phase.powered : Phase → Bool
  | .ready => true
  | .failed => true
  | .off => false
  | .booting => false

/-- `UNSUPPORTED_PACKET`: dropped, and counted on its port (R412). -/
def execUnsupportedPacket (port : Fin 8) (s : State) : Host.Outcome State Fault Refusal :=
  .next (if s.phase.powered then { s with ports := s.ports.set port (s.ports[port] + 1) } else s)

/-! ## Soft errors -/

/-- Poison one lane word of a mapped register: it loses its name (R68, R218). Another mapping of equal content that shares its storage
(R67) is not poisoned by it (log 50). -/
def poisonLane (s : State) (c : Fin 256) (slot : Fin 64) (r : Reg) (l : Fin 32) : State := match s.group? c slot with
  | none => s
  | some g => match regGet g.v r with
    | none => s
    | some v =>
      (s.setGroup c slot (some { g with v := regSet g.v r (some { v with poison := v.poison ||| (1#32 <<< l.val), serial := none }) })).evictNames c

/-- Poison one lane word of a trap register (R201, R218). -/
def poisonTrapLane (s : State) (c : Fin 256) (slot : Fin 64) (r : BitVec 3) (l : Fin 32) : State := match s.group? c slot with
  | none => s
  | some g =>
    let v := kGet g.hv r
    s.setGroup c slot (some { g with hv := kSet g.hv r { v with poison := v.poison ||| (1#32 <<< l.val) } })

/-- `ECC_ERROR`. -/
def execEccError (t : EccTarget) (s : State) : Host.Outcome State Fault Refusal :=
  .next (match t with
    | .refetched b => { s with ecc := s.ecc.set b (s.ecc[b] + 1) }
    | .register c slot r l => poisonLane s c slot r l
    | .trapRegister c slot r l => poisonTrapLane s c slot r l
    | .memory g => { s with poison := setAdd s.poison g }
    | .scratchpad team g => (match s.team? team with
      | some t => if 32 * g < t.scratchSize then s.setTeam { t with scratchPoison := setAdd t.scratchPoison g } else s
      | none => s)
    | .accumulator c tile row col =>
      let e := (s.core c).engine
      let n := tile.toFin
      s.setEngine c { e with accPoison := e.accPoison.set n (setAdd e.accPoison[n] (128 * row.val + col.val)) }
    | .reuse c i => if i < (s.core c).reuse.length then
        { s.setCore c { s.core c with reuse := (s.core c).reuse.eraseIdx i } with ecc := s.ecc.set 4 (s.ecc[4] + 1) } else s)

/-! ## Sync and droops -/

/-- Change how an agent keeps time: a core, or from 256 on a canopy slice. -/
def setAgent (s : State) (a : Fin 512) (x : Slice) : State :=
  if h : a.val < 256 then s.setCore ⟨a.val, h⟩ { s.core ⟨a.val, h⟩ with inSync := x.inSync, skew := x.skew }
  else { s with slices := s.slices.set (a.val - 256) x (by omega) }

/-- An agent treats every leased copy as expired, and so lets it go: a core those in its L1, a slice the die copies it holds (R270);
with a slice go the copies of other devices' lines, its own and, as a slice may at any time, the others'. -/
def dropLeased (s : State) (a : Fin 512) : State :=
  if h : a.val < 256 then
    s.setCore ⟨a.val, h⟩ { s.core ⟨a.val, h⟩ with l1 := (s.core ⟨a.val, h⟩).l1.filter (fun e => match e.2 with
      | .clean _ x => x.isNone
      | .dirty _ => true) }
  else
    let die (l : Nat) : Bool := 64 * ((a.val - 256) / 64) + (Config.dieSlice l).val == a.val - 256
    { s with sliceCopies := Vector.ofFn (fun t : Fin 5 =>
        if t = 4 then [] else if t.val = (a.val - 256) / 64 then s.sliceCopies[t].filter (fun e => !die (lineOf e.1)) else s.sliceCopies[t]) }

/-- `SYNC_LOSS`: an agent uses no leased copy until it is in sync again (R270). -/
def execSyncLoss (agent : Fin 512) (s : State) : Host.Outcome State Fault Refusal :=
  .next (if s.phase.powered then setAgent (dropLeased s agent) agent { s.agent agent.val with inSync := false } else s)

/-- Two agents' views differ by no more than the guard band (R211, R267). -/
def viewsAgree (s : State) (skew : Int) : Bool :=
  (List.range 512).all (fun b => !(s.agent b).inSync || decide (((s.agent b).skew - skew).natAbs ≤ Config.guardNs))

/-- `SYNC_RESTORED`: an agent that was out of sync has a view within G of the reference, and of every other agent in sync (R211, R267). -/
def execSyncRestored (agent : Fin 512) (skew : Int) (s : State) : Host.Outcome State Fault Refusal :=
  .next (if s.phase.powered && !(s.agent agent.val).inSync && decide (skew.natAbs ≤ Config.guardNs) && viewsAgree s skew
    then setAgent s agent ⟨true, skew⟩ else s)

/-- `DROOP_SLOWDOWN` and `DROOP_RECOVERY`: the clock of a die slows and returns; only timing changes (R426). -/
def execDroopSlowdown (die : Fin 4) (s : State) : Host.Outcome State Fault Refusal := .next { s with droop := s.droop.set die true }
def execDroopRecovery (die : Fin 4) (s : State) : Host.Outcome State Fault Refusal := .next { s with droop := s.droop.set die false }

/-! ## Power -/

/-- `POWER_ON` (R427): the bring-up of a booting device. Cores that fail are fenced; another failure puts it in state failed. -/
def execPowerOn (failedCores : BitVec 256) (otherFailure : Bool) (s : State) : Host.Outcome State Fault Refusal :=
  .next (match s.phase with
    | .ready | .failed => s
    | .off | .booting =>
      { s with
        phase := if otherFailure then .failed else .ready
        mem := [], freeAt := [], kept := [], poison := []
        slices := State.reset.slices, ports := State.reset.ports, ecc := State.reset.ecc
        cores := Vector.ofFn (fun c : Fin 256 => { Core.reset with fenced := failedCores.getLsbD c.val }) })

/-- `POWER_LOSS` (R424): all is erased. Global time, what is still to come and the model's counters go on. -/
def execPowerLoss (s : State) : Host.Outcome State Fault Refusal :=
  .next { State.reset with phase := .off, now := s.now, fresh := s.fresh, agenda := s.agenda, choices := s.choices }

end Sys2Proof.Machine
end

