-- ==== Sys2Proof/Machine/FloatOps.lean ====
section
/-! DEFINITION. Floating-point lane instructions, conversions and special functions (R166 to R177). `MVT` stands with
the lane memory instructions.
-/

namespace Sys2Proof.Machine

/-- One rounding of two sources. -/
def fbin (f : BitVec 2 → FVal → FVal → FRes) (h : Here) (a b : Word) : LaneOut :=
  let x := f32 a
  let y := f32 b
  floatOut (f h.f.view.rm x y) [x, y]

/-- A fused multiply-add on values whose signs are already flipped (R166). -/
def fma3 (rm : BitVec 2) (a b d : FVal) : LaneOut := floatOut (fmaRes fmtF32 rm false [a, b, d] a b d) [a, b, d]

/-! ## LOP 0x10 (R166, R167) -/

def execFadd (o : LrB) (s : State) : Host.Outcome State Fault Refusal :=
  lrB s (.fadd o) o codesAll (fun h _ a b => fbin (fun rm => addRes fmtF32 rm false) h a b)
def execFsub (o : LrB) (s : State) : Host.Outcome State Fault Refusal :=
  lrB s (.fsub o) o codesAll (fun h _ a b => fbin (fun rm => subRes fmtF32 rm false) h a b)
def execFmul (o : LrB) (s : State) : Host.Outcome State Fault Refusal :=
  lrB s (.fmul o) o codesAll (fun h _ a b => fbin (fun rm => mulRes fmtF32 rm false) h a b)
def execFma (o : LrB) (s : State) : Host.Outcome State Fault Refusal :=
  lrD s (.fma o) o codesAll (fun h a b d => fma3 h.f.view.rm (f32 a) (f32 b) (f32 d))
def execFms (o : LrB) (s : State) : Host.Outcome State Fault Refusal :=
  lrD s (.fms o) o codesAll (fun h a b d => fma3 h.f.view.rm (f32 a) (f32 b) (f32 d).flip)
def execFnma (o : LrB) (s : State) : Host.Outcome State Fault Refusal :=
  lrD s (.fnma o) o codesAll (fun h a b d => fma3 h.f.view.rm (f32 a).flip (f32 b) (f32 d))
def execFmin (o : LrB) (s : State) : Host.Outcome State Fault Refusal :=
  lrB s (.fmin o) o codesAll (fun _ _ a b => floatOut (minMaxRes fmtF32 false a.toNat b.toNat) [f32 a, f32 b])
def execFmax (o : LrB) (s : State) : Host.Outcome State Fault Refusal :=
  lrB s (.fmax o) o codesAll (fun _ _ a b => floatOut (minMaxRes fmtF32 true a.toNat b.toNat) [f32 a, f32 b])

/-! ## LOP 0x11 (R168 to R172) -/

def execFabs (o : LrU) (s : State) : Host.Outcome State Fault Refusal :=
  lrU s (.fabs o) o codesAll (fun a => f32Codes (a &&& 0x7FFFFFFF#32))
def execFneg (o : LrU) (s : State) : Host.Outcome State Fault Refusal :=
  lrU s (.fneg o) o codesAll (fun a => f32Codes (a ^^^ 0x80000000#32))
def execFcmp (o : LrC) (s : State) : Host.Outcome State Fault Refusal :=
  lrC s (.fcmp o) o (fun a b => fcmpOut (f32 a) (f32 b))

/-- The class bit of an f32 word (R170). -/
def classBit (a : Word) : Nat :=
  match f32 a with
  | .nan _ fr => if (FVal.nan false fr).signalling then 8 else 9
  | .inf n => if n then 0 else 7
  | .fin n m _ =>
    if m = 0 then (if n then 3 else 4)
    else if a.extractLsb' 23 8 = 0#8 then (if n then 2 else 5)
    else if n then 1 else 6

def execFclass (o : LrU) (s : State) : Host.Outcome State Fault Refusal :=
  lrU s (.fclass o) o codesAll (fun a => { f32Codes a with val := BitVec.ofNat 32 (2 ^ classBit a) })

/-- `FMAS` (R171): NaNs in the order a, sa, b, sb, d. -/
def execFmas (o : FmasOp) (s : State) : Host.Outcome State Fault Refusal :=
  onFragment s (.fmas o) .lane (fun h =>
    let va := h.v o.a
    let vb := h.v o.b
    let vd := h.v o.d
    let vs := h.v o.sr
    runLane s h ⟨.fmas o, o.k, .regs o.d 1, none, none, [.reg o.a, .reg o.b, .reg o.d, .reg o.sr], [], none⟩ (fun ex =>
      perLane ex (codesIf o.c codesAll) (fun l =>
        let a := f32 va[l]
        let b := f32 vb[l]
        let d := f32 vd[l]
        let sa := e8m0 (vs[l].extractLsb' (8 * o.ba.toNat) 8)
        let sb := e8m0 (vs[l].extractLsb' (8 * o.bb.toNat) 8)
        let ins := [a, sa, b, sb, d]
        floatOut (fmaRes fmtF32 h.f.view.rm false ins (a.scaleBy sa) (b.scaleBy sb) d) ins)))

def execFrnd (o : CvtOp) (s : State) : Host.Outcome State Fault Refusal :=
  lrCvt s (.frnd o) o (fun rm _ a => floatOut (rndRes rm (f32 a)) [f32 a])

/-- `FSEL` (R168): a where the lane's N is 1, else b. -/
def execFsel (o : LrB) (s : State) : Host.Outcome State Fault Refusal :=
  lrB s (.fsel o) o codesAll (fun h l a b => f32Codes (if h.g.cc.n.getLsbD l.val then a else b))
def execFcpys (o : LrB) (s : State) : Host.Outcome State Fault Refusal :=
  lrB s (.fcpys o) o codesAll (fun _ _ a b => f32Codes ((a &&& 0x7FFFFFFF#32) ||| (b &&& 0x80000000#32)))

/-! ## Conversions (R176, R177) -/

def execCvtfi (o : CvtOp) (s : State) : Host.Outcome State Fault Refusal :=
  lrCvt s (.cvtfi o) o (fun rm sat a => intOut true (toIntRes (-2 ^ 31) (2 ^ 31 - 1) rm sat (f32 a)))
def execCvtfn (o : CvtOp) (s : State) : Host.Outcome State Fault Refusal :=
  lrCvt s (.cvtfn o) o (fun rm sat a => intOut false (toIntRes 0 (2 ^ 32 - 1) rm sat (f32 a)))
def execCvtif (o : CvtOp) (s : State) : Host.Outcome State Fault Refusal :=
  lrCvt s (.cvtif o) o (fun rm _ a => floatOut (fromInt fmtF32 rm false a.toInt) [])
def execCvtnf (o : CvtOp) (s : State) : Host.Outcome State Fault Refusal :=
  lrCvt s (.cvtnf o) o (fun rm _ a => floatOut (fromInt fmtF32 rm false (Int.ofNat a.toNat)) [])

/-- The value in the low 16 bits of a lane. -/
def low16 (f : FloatFmt) (a : Word) : FVal := FVal.decode f (a.toNat % 2 ^ 16)

def execCvtfh (o : CvtOp) (s : State) : Host.Outcome State Fault Refusal :=
  lrCvt s (.cvtfh o) o (fun rm sat a => narrowOut fmtF16 (cvtRes fmtF16 rm sat (f32 a)) [f32 a])
def execCvthf (o : CvtOp) (s : State) : Host.Outcome State Fault Refusal :=
  lrCvt s (.cvthf o) o (fun rm _ a => floatOut (cvtRes fmtF32 rm false (low16 fmtF16 a)) [low16 fmtF16 a])
def execCvtfb (o : CvtOp) (s : State) : Host.Outcome State Fault Refusal :=
  lrCvt s (.cvtfb o) o (fun rm sat a => narrowOut fmtBf16 (cvtRes fmtBf16 rm sat (f32 a)) [f32 a])
def execCvtbf (o : CvtOp) (s : State) : Host.Outcome State Fault Refusal :=
  lrCvt s (.cvtbf o) o (fun rm _ a => floatOut (cvtRes fmtF32 rm false (low16 fmtBf16 a)) [low16 fmtBf16 a])

/-! ## Division and special functions (R173 to R175) -/

/-- One special function on a lane. -/
def sfu (f : FVal → FRes) (a : Word) : LaneOut := { floatOut (f (f32 a)) [f32 a] with c := false, z := false, n := false, v := false }

def execFdiv (o : LlB) (s : State) : Host.Outcome State Fault Refusal :=
  llB s (.fdiv o) o true false (fun h a b => fbin (fun rm => divRes fmtF32 rm) h a b)
def execFsqrt (o : LlU) (s : State) : Host.Outcome State Fault Refusal := llU s (.fsqrt o) o (fun rm => sfu (sqrtRes rm))
def execFrcp (o : LlU) (s : State) : Host.Outcome State Fault Refusal := llU s (.frcp o) o (fun rm => sfu (rcpRes rm))
def execFrsq (o : LlU) (s : State) : Host.Outcome State Fault Refusal := llU s (.frsq o) o (fun rm => sfu (rsqRes rm))
def execFexp2 (o : LlU) (s : State) : Host.Outcome State Fault Refusal := llU s (.fexp2 o) o (fun _ => sfu exp2Res)
def execFlog2 (o : LlU) (s : State) : Host.Outcome State Fault Refusal := llU s (.flog2 o) o (fun _ => sfu log2Res)
def execFsin (o : LlU) (s : State) : Host.Outcome State Fault Refusal := llU s (.fsin o) o (fun _ => sfu sinRes)
def execFcos (o : LlU) (s : State) : Host.Outcome State Fault Refusal := llU s (.fcos o) o (fun _ => sfu cosRes)
def execFtanh (o : LlU) (s : State) : Host.Outcome State Fault Refusal := llU s (.ftanh o) o (fun _ => sfu tanhRes)
def execFsigm (o : LlU) (s : State) : Host.Outcome State Fault Refusal := llU s (.fsigm o) o (fun _ => sfu sigmRes)

end Sys2Proof.Machine
end

