-- ==== Sys2Proof/Machine/PageTables.lean ====
section
/-! DEFINITION. The firmware's page tables (R212, R213): writing leaves, clearing them, and allocating tables and areas (log 9). -/

namespace Sys2Proof.Machine

/-- Write a page-table entry. -/
def setPte (s : State) (a : Nat) (e : DWord) : State := fwWrite s a (toLe e.toNat 8)

/-- The addresses of bytes that are not 0, are open, or are held by a core. -/
def heldBytes (s : State) : List Nat := s.mem.map Prod.fst ++ s.freeAt.map Prod.fst ++ s.registered.map Prod.fst

/-- Every byte of a range of physical memory is 0: no copy, registration or poison of it is left. What its frozen bytes held is kept (R327),
and the writes of its lines may be outstanding (R269). -/
def zeroRange (s : State) (a n : Nat) : State :=
  let out (k : Nat) : Bool := decide (k < a) || decide (a + n ≤ k)
  let s0 := ((heldBytes s).filter (fun k => !out k)).foldl (fun s k => { s with kept := s.keep k }) s
  let s1 := { s0 with
      mem := s0.mem.filter (fun c => out c.1), freeAt := s0.freeAt.filter (fun c => out c.1)
      registered := s0.registered.filter (fun c => out c.1), poison := s0.poison.filter (fun g => out (32 * g))
      sliceCopies := s0.sliceCopies.map (fun t => t.filter (fun c => out c.1))
      cores := s0.cores.map (fun k => { k with l1 := k.l1.filter (fun c => out c.1) }) }
  noteDevice s1 ((s.grants.map (fun g => 128 * g.line)).filter (fun k => !out k))

/-- The first address from `at'` on, aligned, with `n` bytes that no block holds. -/
def firstFit (align n : Nat) : Nat → List (Nat × Nat × Nat) → Nat
  | at', [] => (at' + align - 1) / align * align
  | at', (a, m, _) :: rest =>
    let b := (at' + align - 1) / align * align
    if b + n ≤ a then b else firstFit align n (a + m) rest

/-- A block among the others, by address. -/
def addBlock (b : Nat × Nat × Nat) : List (Nat × Nat × Nat) → List (Nat × Nat × Nat)
  | [] => [b]
  | c :: rest => if b.1 < c.1 then b :: c :: rest else c :: addBlock b rest

/-- Take `n` bytes of firmware memory for a context, aligned to `align`: the state after, and the address. The bytes are 0. -/
def takeMem (s : State) (align n owner : Nat) : State × Nat :=
  let a := firstFit align n 0xF000000000 s.fwBlocks
  ({ zeroRange s a n with fwBlocks := addBlock (a, n, owner) s.fwBlocks }, a)

/-- Every block lies in local memory (R256). -/
def memFits (s : State) : Bool := s.fwBlocks.all (fun b => decide (b.1 + b.2.1 ≤ 2 ^ 40))

/-- The entry's address of a leaf, and its level. -/
def leafAddr (s : State) (va : Nat) : Nat → Nat → Nat → Option (Nat × Nat)
  | 0, _, _ => none
  | fuel + 1, level, table =>
    let a := table + 8 * pteIndex va level
    let e := pteAt s a
    if !e.getLsbD 63 then none
    else if e.getLsbD 62 then (if level = 0 then none else some (a, level))
    else if level = 3 then none
    else leafAddr s va fuel (level + 1) ((e.toNat / 256 % 2 ^ 44) * 256)

def leafEntry (s : State) (x : Context) (va : Nat) : Option (Nat × Nat) := leafAddr s va 4 0 x.root

/-- The level whose leaves map a page size. -/
def pageLevel (size : Nat) : Nat := if size = 2 ^ 30 then 1 else if size = 2 ^ 21 then 2 else 3

/-- A table entry for a table at an address. -/
def tableEntry (a : Nat) : DWord := BitVec.ofNat 64 (2 ^ 63 + a)

/-- Write a leaf at a level, making the tables above it; `none` where a larger page is in the way. -/
def putLeaf (owner va level : Nat) (e : DWord) : Nat → Nat → Nat → State → Option State
  | 0, _, _, _ => none
  | fuel + 1, at', table, s =>
    let a := table + 8 * pteIndex va at'
    if at' = level then some (setPte s a e)
    else
      let o := pteAt s a
      if o.getLsbD 63 then
        (if o.getLsbD 62 then none else putLeaf owner va level e fuel (at' + 1) ((o.toNat / 256 % 2 ^ 44) * 256) s)
      else
        let n := tableSize (at' + 1)
        let r := takeMem s n n owner
        putLeaf owner va level e fuel (at' + 1) r.2 (setPte r.1 a (tableEntry r.2))

/-- A leaf's fields (R213). -/
structure LeafBits where
  rp : Bool
  wp : Bool
  xp : Bool
  fw : Bool
  ca : Bool
  rad : Bool
  sm : BitVec 2
  ps : BitVec 8

def flagBit (b : Bool) (i : Nat) : Nat := if b then 2 ^ i else 0

/-- The leaf entry of a page. -/
def leafWord (f : LeafBits) (pa : Nat) : DWord :=
  BitVec.ofNat 64 (2 ^ 63 + 2 ^ 62 + flagBit f.rp 61 + flagBit f.wp 60 + flagBit f.xp 59 + flagBit f.fw 58 + flagBit f.ca 57 +
    flagBit f.rad 56 + f.sm.toNat * 2 ^ 52 + pa / 256 * 256 + f.ps.toNat)

/-- Map `n` pages from va on to pa on. -/
def mapPages (x : Context) (f : LeafBits) (page : Nat) : Nat → Nat → Nat → State → Option State
  | 0, _, _, s => some s
  | n + 1, va, pa, s => match putLeaf x.id va (pageLevel page) (leafWord f pa) 4 0 x.root s with
    | none => none
    | some s1 => mapPages x f page n (va + page) (pa + page) s1

/-- What an absent entry spans, by level. -/
def spanSize : Nat → Nat
  | 0 => 2 ^ 43
  | 1 => 2 ^ 30
  | 2 => 2 ^ 21
  | _ => 2 ^ 16

/-- The span of the absent entry that an address meets. -/
def absentSpan (s : State) (va : Nat) : Nat → Nat → Nat → Nat
  | 0, _, _ => 2 ^ 16
  | fuel + 1, level, table =>
    let e := pteAt s (table + 8 * pteIndex va level)
    if !e.getLsbD 63 || e.getLsbD 62 || level = 3 then spanSize level
    else absentSpan s va fuel (level + 1) ((e.toNat / 256 % 2 ^ 44) * 256)

/-- A mapped page of a range: its virtual start, its size, its entry's address. -/
structure PageAt where
  va : Nat
  size : Nat
  entry : Nat
  deriving DecidableEq, Repr

/-- The pages with a leaf that meet [va, hi), ascending. -/
def pagesIn (s : State) (x : Context) (hi : Nat) : Nat → Nat → List PageAt
  | 0, _ => []
  | fuel + 1, va =>
    if hi ≤ va then []
    else match leafEntry s x va with
      | some (a, level) =>
        let n := levelSize level
        ⟨va / n * n, n, a⟩ :: pagesIn s x hi fuel (va / n * n + n)
      | none =>
        let n := absentSpan s va 4 0 x.root
        pagesIn s x hi fuel (va / n * n + n)

def pagesOf (s : State) (x : Context) (va size : Nat) : List PageAt := pagesIn s x (va + size) (size / 65536 + 2) va

/-- The physical start of a page as accesses reach it: a publish buffer's live backing (R309), or its leaf's. -/
def pagePlace (s : State) (x : Context) (p : PageAt) : Option Nat := match place s x (BitVec.ofNat 64 p.va) with
  | .inl q => some q.pa
  | .inr _ => none

/-- A page holds a byte of a range of physical bytes. -/
def pageHas (pa size lo n : Nat) : Bool := decide (lo < pa + size) && decide (pa < lo + n)

/-- A page holds a frozen byte (R273). -/
def pageFrozen (s : State) (x : Context) (p : PageAt) : Bool := match pagePlace s x p with
  | none => false
  | some pa => s.contexts.any (fun c => c.regions.any (fun e =>
      e.2.state == .active && decide (0 < e.2.count) && e.2.blocks.any (fun b => pageHas pa p.size b 4096)))

/-- A range that is being frozen, before its freeze point, holds a byte of a page (R278, R298). -/
def pageInstalling (s : State) (x : Context) (p : PageAt) : Bool := match pagePlace s x p with
  | none => false
  | some pa => s.contexts.any (fun c => c.regions.any (fun e => e.2.state == .installing && e.2.blocks.any (fun b => pageHas pa p.size b 4096)))

/-- A `FRZ` that waits with its checks past is to freeze a byte of a page (R195, R278, R298). -/
def freezeChecked (s : State) (x : Context) (p : PageAt) : Bool := match pagePlace s x p with
  | none => false
  | some pa => s.anyFrag (fun f => (match f.issued with
      | some (.frz _ _ _ _ _) => true
      | _ => false) && f.passed.any (fun a => a.touches (inRange pa p.size)))

/-- Set or clear a bit of a page's entry. -/
def setLeafBit (s : State) (p : PageAt) (bit : Nat) (v : Bool) : State :=
  let e := pteAt s p.entry
  setPte s p.entry (if v then e ||| (1#64 <<< bit) else e &&& ~~~(1#64 <<< bit))

/-- Copies in flight that read or write a page (R216). -/
def copiesTouch (s : State) (pa size : Nat) : Bool :=
  s.copies.any (fun c => c.pieces.any (fun q => if c.out then pageHas pa size q.dst q.len else pageHas pa size q.src q.len))

/-- Outstanding writes on the lines of a page. -/
def writesTouch (s : State) (pa size : Nat) : Bool := s.writes.any (fun w => pageHas pa size (w.line * 128) 128)

/-- Every access that translated by a page's old entry has completed (R216). -/
def pageQuiet (s : State) (pa size : Nat) : Bool :=
  !copiesTouch s pa size && !writesTouch s pa size && !s.redgs.any (fun r => pageHas pa size r.addr 4) && !accessPending s (inRange pa size)

end Sys2Proof.Machine
end

