-- ==== Sys2Proof/Machine/Publish.lean ====
section
/-! DEFINITION. The publish point (R310): emptying the caches of a buffer's live backing and swapping the backings. -/

namespace Sys2Proof.Machine

/-- Bytes of a core's L1 that meet a test leave it: dirty ones are written back, clean ones are dropped. -/
def flushCore (s : State) (c : Fin 256) (p : Nat → Bool) : State :=
  let s1 := writeBack s c (dirtyWhere s c p)
  let k := s1.core c
  s1.setCore c { k with l1 := k.l1.filter (fun e => !p e.1) }

/-- Every cached copy of the bytes that meet a test goes. -/
def flushWhere (s : State) (p : Nat → Bool) : State :=
  let s1 := (List.finRange 256).foldl (fun s c => if (s.core c).l1.any (fun e => p e.1) then flushCore s c p else s) s
  { s1 with sliceCopies := Vector.ofFn (fun t : Fin 5 => s1.sliceCopies[t].filter (fun e => !p e.1)) }

/-! ## The publish point -/

/-- A grant on a line of a range has not expired with its guard (R269). -/
def grantsStand (s : State) (lo n : Nat) : Bool :=
  s.grants.any (fun g => decide (lo < g.line * 128 + 128) && decide (g.line * 128 < lo + n) && s.stands g)

/-- Take a buffer's publishing flag, when it is free. -/
def takePublish (s : State) (ctx n : Nat) : Option State := (s.ctx? ctx).bind (fun x => (tableFind x.buffers n).bind (fun b =>
  if b.publishing then none else some (s.setCtx { x with buffers := tablePut x.buffers n { b with publishing := true } })))

/-- An access that has passed its checks goes elsewhere. -/
def Passed.move (a : Passed) (f : Nat → Nat) : Passed := { a with place := { a.place with pa := f a.place.pa } }

/-- Operations under way on a buffer's live backing go on to the new one (R310): what a `REDG`, a copy's source or an access past its
checks has still to do is done there. -/
def repoint (s : State) (b : PublishBuffer) : State :=
  let move (a : Nat) : Nat := if inRange b.live b.size a then b.shadow + (a - b.live) else a
  { s with
    redgs := s.redgs.map (fun r => { r with addr := move r.addr })
    cores := s.cores.map (fun k => { k with slots := k.slots.map (fun o => o.map (fun g =>
      g.mapFrags (fun _ f => { f with passed := f.passed.map (fun a => a.move move) }))) })
    copies := s.copies.map (fun c => if c.out then c else { c with pieces := c.pieces.map (fun p => { p with src := move p.src }) }) }

/-- What a reuse key's load has read of memory meets a test. -/
def ReuseKey.readFrom (k : ReuseKey) (p : Nat → Bool) : Bool := k.mem.any (fun m => !m.pad && m.read.any (fun b => p b.1))

/-- Loads that read bytes of the old backing serve no later lookup, whether their results are written or still in flight (R310). -/
def forgetReads (s : State) (p : Nat → Bool) : State :=
  { s with cores := s.cores.map (fun k => { k with
      reuse := k.reuse.filter (fun e => !e.key.readFrom p)
      slots := k.slots.map (fun o => o.map (fun g => g.mapFrags (fun _ f =>
        { f with pending := f.pending.map (fun q => { q with key := q.key.filter (fun x => !x.readFrom p) }) }))) }) }

/-- A `CPYO` into a buffer is not complete. -/
def bufferBusy (s : State) (ctx n : Nat) : Bool := s.copies.any (fun c => c.ctx == ctx && c.buffer == some n)

/-- A publish has made its release: no lease and no replica is granted on its buffer's lines from now on (R310). -/
def stopGrants (s : State) (ctx n : Nat) : State := match s.ctx? ctx with
  | none => s
  | some x => match tableFind x.buffers n with
    | some b => s.setCtx { x with buffers := tablePut x.buffers n { b with stopped := true } }
    | none => s

/-- The grants on a buffer's lines have been stopped. -/
def grantsHeld (s : State) (ctx n : Nat) : Bool := ((s.ctx? ctx).bind (fun x => tableFind x.buffers n)).any (fun b => b.stopped)

/-- The publish point of a buffer whose grants are stopped, when it can fall: no `CPYO` into it and no grant on it is left. It
swaps the backings, raises the version and gives the flag back; `n` pending publishes end. -/
def publishPoint? (s : State) (ctx n ends : Nat) : Option State := (s.ctx? ctx).bind (fun x => (tableFind x.buffers n).bind (fun b =>
  if !b.stopped || bufferBusy s ctx n || grantsStand s b.live b.size || aheadPending s (inRange b.live b.size) then none
  else
    let s1 := forgetReads (repoint (flushWhere s (inRange b.live b.size)) b) (inRange b.live b.size)
    let b1 : PublishBuffer :=
      { b with
        live := b.shadow, shadow := b.live, version := b.version + 1#32, publishing := false, stopped := false, pending := b.pending - ends }
    (s1.ctx? ctx).map (fun y => s1.setCtx { y with buffers := tablePut y.buffers n b1 })))

end Sys2Proof.Machine
end

