-- ==== Sys2Proof/Machine/MemEvents.lean ====
section
/-! DEFINITION. The memory system's own events: a result's arrival (R94), copies (R303), freeze points and thaws (R273, R276), writes
that complete (R269), publish points (R310), `REDG`s applied (R291), promotions (R295), evictions (R264), `MLOOP` steps
(R351), bias transitions (R278), and requests of another device (R256, R311). An event that the state does not let in has no
effect (log 1).
-/

namespace Sys2Proof.Machine

/-- Change the fragments of every resident group. -/
def mapFrags (s : State) (f : Group → Frag → Frag) : State :=
  { s with cores := Vector.ofFn (fun c : Fin 256 => { s.cores[c] with slots := Vector.ofFn (fun i : Fin 64 =>
      match s.cores[c].slots[i] with
      | some g => some { g with frags := Vector.ofFn (fun j : Fin 8 => (g.frags[j]).map (f g)) }
      | none => none) }) }

/-- A fragment that waits goes on to issue its instruction again, from a step. -/
def Frag.again (f : Frag) (resume : Nat) : Frag := { f with status := .ready, resume := resume }

/-! ## Results (R94, R51) -/

/-- The registers of the n-th outstanding result have arrived. -/
def markArrived (ps : List Pending) (n : Nat) : List Pending :=
  ps.zipIdx.map (fun p => if p.2 = n then { p.1 with regs := p.1.regs.map (fun r => { r with arrived := true }) } else p.1)

/-- `RESULT_ARRIVAL`: the charge of a result is released, and fragments of the group that wait for one issue again. -/
def execResultArrival (r : FragRef) (n : Nat) (s : State) : Host.Outcome State Fault Refusal :=
  .next (match s.at? r with
    | none => s
    | some h =>
      let g := ({ h with f := { h.f with pending := markArrived h.f.pending n } }).group
      let g1 := { g with frags := Vector.ofFn (fun j : Fin 8 => (g.frags[j]).map (fun f =>
        if f.status = .waiting .result then f.again 0 else f)) }
      s.setGroup r.core r.slot (some g1))

/-! ## Copies -/

/-- `COPY_COMPLETE` (R303): a copy moves its bytes, or its last write is complete. -/
def execCopyComplete (copy : Nat) (s : State) : Host.Outcome State Fault Refusal :=
  .next (match s.copies.find? (fun c => c.id == copy) with
    | some c => finishCopy s c
    | none => s)

/-! ## Freezing (R273) -/

/-- A byte of some 4 KiB blocks. -/
def inBlocks (bs : List Nat) (a : Nat) : Bool := bs.any (fun b => b == a / 4096 * 4096)

/-- The `REDG`s on a set of bytes are applied, in order. -/
def applyRedgsIn (s : State) (p : Nat → Bool) : State := ((s.redgs.filter (fun r => p r.addr)).reverse).foldl applyRedg s

/-- A copy that was checked before installation has still to write or to read some bytes (R273, R316). -/
def copyPending (s : State) (p : Nat → Bool) : Bool :=
  s.copies.any (fun c => c.pieces.any (fun q => (pieceOffsets q).any (fun i => p ((if c.out then q.dst else q.src) + i))))

/-- An outstanding write on a line of some blocks. -/
def writePending (s : State) (bs : List Nat) : Bool := s.writes.any (fun w => inBlocks bs (w.line * 128))

/-- An entry's freeze point: it covers what its range maps to now (R271), it is active, and the fragments that wait for it take its handle (R298). -/
def activate (s : State) (ctx idx : Nat) : State :=
  match s.ctx? ctx with
  | none => s
  | some x =>
    let e := x.entry idx
    let s1 := s.setCtx (x.setEntry idx { e with state := .active, blocks := rangeBlocks s x e.base (e.base + 4096 * e.length) })
    mapFrags s1 (fun g f => if g.ctx = ctx ∧ f.status = .waiting (.freeze idx) then f.again (idx + 1) else f)

/-- `FREEZE_POINT`: every store that passed its check before installation is brought home; when each is complete the entry is
active. It waits while a publish of a buffer in the range is pending (R310). -/
def execFreezePoint (ctx : Nat) (entry : Fin 1024) (s : State) : Host.Outcome State Fault Refusal :=
  .next (match s.ctx? ctx with
    | none => s
    | some x =>
      let e := x.entry entry.val
      let hi := e.base + 4096 * e.length
      if e.state ≠ .installing ∨ publishPending x e.base hi then s
      else
        let bs := rangeBlocks s x e.base hi
        let s1 := flushWhere (applyRedgsIn s (inBlocks bs)) (inBlocks bs)
        if copyPending s1 (inBlocks bs) || writePending s1 bs || accessPending s1 (inBlocks bs) then s1 else activate s1 ctx entry.val)

/-- A holder of replicas has let them go: a core answers the recall, another device has answered or its lease and guard are over
in the home's time (R276). -/
def holderGone (s : State) (h : Nat × Nat) : Bool :=
  decide (h.1 / 1024 < 256) || decide (h.2 + Config.guardNs ≤ s.agentTime (h.1 % 1024))

/-- `THAW_COMPLETE`: the entry is free, and its pinned bytes leave the frozen stores (R276). -/
def execThawComplete (ctx : Nat) (entry : Fin 1024) (s : State) : Host.Outcome State Fault Refusal :=
  .next (match s.ctx? ctx with
    | none => s
    | some x =>
      let e := x.entry entry.val
      if e.state ≠ .thawing ∨ !e.holders.all (holderGone s) then s
      else
        let s1 := s.setCtx (x.setEntry entry.val { FreezeEntry.free with gen := e.gen })
        { s1 with cores := Vector.ofFn (fun c : Fin 256 =>
            { s1.cores[c] with frozen := s1.cores[c].frozen.filter (fun f => f != (ctx, entry.val)) }) })

/-! ## Writes (R269) -/

/-- A write is complete: its home's time has come, or no grant is left on its line. -/
def writeDue (s : State) (w : OutWrite) : Bool := decide (w.emax + Config.guardNs ≤ s.agentTime w.home) || !s.grants.any (fun g => g.line == w.line)

/-- `WRITE_COMPLETE`. -/
def execWriteComplete (n : Nat) (s : State) : Host.Outcome State Fault Refusal :=
  .next (match s.writes.find? (fun w => w.id == n) with
    | some w => if writeDue s w then { s with writes := s.writes.filter (fun x => x.id != n) } else s
    | none => s)

/-! ## PUBLISH (R310) -/

/-- The publish point of a fragment's publish, when it can fall: the fragment goes on, and its group's epoch ends (R73, R310). -/
def passPublish (s : State) (h : Here) (n : Nat) : State := match publishPoint? s h.g.ctx n 1 with
  | none => s
  | some s1 => match s1.at? h.r with
    | none => s1
    | some y =>
      let z := y.endEpoch.advance 4
      s1.setGroup h.r.core h.r.slot (some ({ z with f := { z.f with late := z.f.dueLate } }.group.afterReissue h.r.frag))

/-- The publish of a fragment that holds the flag: it waits for the `CPYO`s into the buffer, makes its release, stops the grants, and comes
to its publish point (R310). -/
def finishPublish (s : State) (h : Here) (n : Nat) (sc : Scope) : State :=
  if grantsHeld s h.g.ctx n then passPublish s h n
  else if bufferBusy s h.g.ctx n then s
  else
    let r := releaseWork s h sc
    if r.2 then passPublish (stopGrants r.1 h.g.ctx n) h n else r.1

/-- `PUBLISH_POINT`: a waiting `PUBLISH` takes the publishing flag, and later comes to its publish point. -/
def execPublishPoint (r : FragRef) (s : State) : Host.Outcome State Fault Refusal :=
  .next (match s.at? r with
    | none => s
    | some h => match h.f.status with
      | .waiting (.publish n sc true) => finishPublish s h n sc
      | .waiting (.publish n sc false) => match takePublish s h.g.ctx n with
        | some s1 =>
          let h1 := h.wait (.publish n sc true)
          finishPublish (s1.put h1) h1 n sc
        | none => s
      | _ => s)

/-! ## REDG, promotions, evictions, steps -/

/-- `REDG_APPLY` (R291): a group's operations on one word are applied in issue order (R319). -/
def execRedgApply (n : Nat) (s : State) : Host.Outcome State Fault Refusal :=
  .next (match s.redgs.find? (fun r => r.id == n) with
    | some r => if s.redgs.any (fun x => x.group == r.group && x.addr == r.addr && decide (x.id < r.id)) then s else applyRedg s r
    | none => s)

/-- A core answers a promotion once every write it has made is complete (R295). -/
def promotionHeld (s : State) (p : Promotion) : Bool := s.writes.any (fun w => w.core == p.target)

/-- `PROMOTION_REQUEST`: the cores asked by request number n register their dirty bytes and answer as their writes complete;
with the last answer the `ACQR` goes on, and looks at the writer hint again (R295). -/
def execPromotionRequest (n : Nat) (s : State) : Host.Outcome State Fault Refusal :=
  .next (
    let mine := s.promotions.filter (fun p => p.n == n)
    if mine.isEmpty then s
    else
      let s1 := mine.foldl (fun s p => registerAll s ⟨p.target, 0, 0, false⟩) s
      let done := mine.filter (fun p => !promotionHeld s1 p)
      let s2 := { s1 with
        promotions := s1.promotions.filter (fun p => !done.contains p)
        hints := s1.hints.filter (fun x => !done.any (fun p => p.line == x.1 && p.target.val == x.2))
        owing := s1.owing.filter (fun x => !done.any (fun p => p.line == x.1 && p.target.val == x.2)) }
      if s2.promotions.any (fun p => p.n == n) then s2
      else mapFrags s2 (fun _ f => if f.status = .waiting (.promote n) then f.again 0 else f))

/-- `L1_EVICTION` (R264). -/
def execL1Eviction (core : Fin 256) (line : Nat) (s : State) : Host.Outcome State Fault Refusal :=
  .next (evictLine s core line)

/-- `MLOOP_STEP`: the engine performs the first step in its queue (R338, R351). -/
def execMloopStep (core : Fin 256) (s : State) : Host.Outcome State Fault Refusal := .next (engineStep s core)

/-! ## Bias transitions (R278) -/

/-- Every lease and replica grant on a page has expired with its guard, or been given back. -/
def pageUnleased (s : State) (pa size : Nat) : Bool :=
  !grantsStand s pa size &&
  !s.contexts.any (fun x => x.regions.any (fun e => e.2.blocks.any (fun b => pageHas pa size b 4096) && !e.2.holders.all (holderGone s)))

/-- The page of a context at an address, when it is in transition. -/
def biasPage (s : State) (x : Context) (va : Nat) : Option PageAt :=
  if x.bias.any (fun b => b.va == va) then (pagesOf s x va 1).head? else none

/-- `BIAS_TRANSITION_END`: registered words are written back, and when every grant has expired the page is in host bias. -/
def execBiasTransitionEnd (ctx va : Nat) (s : State) : Host.Outcome State Fault Refusal :=
  .next (match s.ctx? ctx with
    | none => s
    | some x => match biasPage s x va with
      | none => s
      | some p => match pagePlace s x p with
        | none => s
        | some pa =>
          let s1 := flushWhere (applyRedgsIn s (inRange pa p.size)) (inRange pa p.size)
          if !pageQuiet s1 pa p.size || !pageUnleased s1 pa p.size then s1
          else
            let s2 := setLeafBit (setLeafBit s1 p 55 true) p 54 false
            match s2.ctx? ctx with
            | some y => s2.setCtx { y with bias := y.bias.filter (fun b => b.va != va) }
            | none => s2)

/-! ## Another device (R256, R268, R276, R311; log 28) -/

/-- A write of another device to local bytes: it is held on a thaw, and a frozen byte takes none (R273, R277). -/
def remoteWrite (s : State) (a : Nat) (bs : List Byte) : State :=
  if (List.range bs.length).any (fun i => s.isFrozen (a + i) || s.isThawing (a + i)) then s
  else
    let s1 := (List.range bs.length).foldl (fun s i => (recallByte s (a + i)).memSet (a + i) (bs.getD i 0#8)) s
    let written := (List.range bs.length).map (fun i => a + i)
    settlePoison (noteDevice s1 written) written []

/-- `REMOTE_ACCESS_ARRIVAL`: another device reads a line, taking a replica of one frozen for the system, or a lease of the length of its fill
(R268); writes bytes; operates on a word; or answers a recall. Its read comes to the `HALL` slice of the line, whatever mode a page has
here (R258; log 28). -/
def execRemoteAccessArrival (q : RemoteReq) (s : State) : Host.Outcome State Fault Refusal :=
  .next (match q with
    | .read line l1 =>
      let home := 256 + (Config.hallSlice line).val
      let len := if l1 then s.l1Lease else s.sliceLease
      if s.contexts.any (fun x => x.regions.any (fun e => e.2.sys && e.2.freezes (line * 128))) then
        { s with contexts := s.contexts.map (fun x => { x with regions := x.regions.map (fun e =>
            if e.2.sys && e.2.freezes (line * 128) then
              (e.1, { e.2 with holders := tablePut e.2.holders (holderKey otherDevice home) (s.agentTime home + Config.replicaLeaseNs) })
            else e) }) }
      else if len = 0 || s.writing line || s.grantsStopped line then s
      else { s with grants := ⟨line, home, otherDevice, s.agentTime home + len⟩ :: s.grants }
    | .write a bs => remoteWrite s a bs
    | .atomic a op x =>
      if s.isFrozen a || s.isThawing a then s
      else
        let bytes := [a, a + 1, a + 2, a + 3]
        let s1 := bytes.foldl (fun s b => recallByte s b) s
        remoteWrite s1 a (toLe (atomicOp op (wordOf (bytes.map (fun b => s1.memGet b))) x).toNat 4)
    | .recall line =>
      { s with
        grants := s.grants.filter (fun g => !(g.line == line && g.holder == otherDevice))
        contexts := s.contexts.map (fun x => { x with regions := x.regions.map (fun e =>
          if inBlocks e.2.blocks (line * 128) then (e.1, { e.2 with holders := e.2.holders.filter (fun h => h.1 / 1024 != otherDevice) }) else e) }) })

end Sys2Proof.Machine
end

