-- ==== Sys2Proof/Machine/Ecdsa.lean ====
section
/-! DEFINITION. ECDSA on curve P-521 with SHA-512, as the signature block of a module uses it (R112, R421). The curve, its base point
and the check are those of the standard that R112 names (log 33).
-/

namespace Sys2Proof.Machine

/-! ## The field and the curve y² = x³ - 3x + b -/

def p521 : Nat := 2 ^ 521 - 1
def curveB : Nat :=
  0x51953EB9618E1C9A1F929A21A0B68540EEA2DA725B99B315F3B8B489918EF109E156193951EC7E937B1652C0BD3BB1BF073573DF883D2C34F1EF451FD46B503F00
/-- The order of the base point. -/
def curveN : Nat := 2 ^ 521 - 2 ^ 260 + 0xA51868783BF2F966B7FCC0148F709A5D03BB5C9B8899C47AEBB6FB71E91386409
def baseX : Nat :=
  0xC6858E06B70404E9CD9E3ECB662395B4429C648139053FB521F828AF606B4D3DBAA14B5E77EFE75928FE1DC127A2FFA8DE3348B3C1856A429BF97E7E31C2E5BD66
def baseY : Nat :=
  0x11839296A789A3BC0045C8A5FB42C7D1BD998F54449579B446817AFBD17273E662C97EE72995EF42640C550B9013FAD0761353C7086A272C24088BE94769FD16650

/-- x^e modulo m, by the low `fuel` bits of e. -/
def powMod (m : Nat) : Nat → Nat → Nat → Nat
  | 0, _, _ => 1
  | fuel + 1, x, e => (if e % 2 = 1 then x else 1) * powMod m fuel (x * x % m) (e / 2) % m

/-- The inverse modulo a prime. -/
def invMod (m x : Nat) : Nat := powMod m 521 (x % m) (m - 2)

/-- A point of the curve; none is the point at infinity. -/
abbrev CurvePoint := Option (Nat × Nat)

/-- A point lies on the curve. -/
def onCurve (x y : Nat) : Bool :=
  decide (x < p521) && decide (y < p521) && (y * y + 3 * x) % p521 == (x * x * x + curveB) % p521

/-- The third point of a line of slope l through two points, mirrored. -/
def chord (l x1 y1 x2 : Nat) : CurvePoint :=
  let x := (l * l + 2 * p521 - x1 - x2) % p521
  some (x, (l * (x1 + p521 - x) + p521 - y1) % p521)

/-- The sum of two points. -/
def pointAdd : CurvePoint → CurvePoint → CurvePoint
  | none, q => q
  | p, none => p
  | some (x1, y1), some (x2, y2) =>
    if x1 = x2 then
      if (y1 + y2) % p521 = 0 then none
      else chord ((3 * x1 * x1 + p521 - 3) * invMod p521 (2 * y1) % p521) x1 y1 x2
    else chord ((y2 + p521 - y1) * invMod p521 (x2 + p521 - x1) % p521) x1 y1 x2

/-- k times a point, by the low `fuel` bits of k. -/
def pointMul : Nat → Nat → CurvePoint → CurvePoint
  | 0, _, _ => none
  | fuel + 1, k, p =>
    let r := pointMul fuel (k / 2) (pointAdd p p)
    if k % 2 = 1 then pointAdd p r else r

/-- The signature (r, s) over a message verifies under a public key. -/
def signatureValid (msg : List Byte) (key : Nat × Nat) (r s : Nat) : Bool :=
  decide (1 ≤ r) && decide (r < curveN) && decide (1 ≤ s) && decide (s < curveN) && onCurve key.1 key.2 &&
  (let e := beNat (sha512 msg)
   let w := invMod curveN s
   match pointAdd (pointMul 521 (e * w % curveN) (some (baseX, baseY))) (pointMul 521 (r * w % curveN) (some key)) with
   | some p => p.1 % curveN == r
   | none => false)

/-! ## Keys (R112, R421) -/

/-- A public key's identifier: the first 16 bytes of SHA-512 over it, as the standard's uncompressed point (log 33). -/
def keyIdOf (key : Nat × Nat) : List Byte := (sha512 (4#8 :: (toBe key.1 66 ++ toBe key.2 66))).take 16

/-- The trusted module-signing key identifiers in the fuses, at most 8 (R421). -/
def trustedKeyIds : List (List Byte) := (List.range 8).filterMap (fun i => (Config.moduleKey i).map keyIdOf)

end Sys2Proof.Machine
end

