-- ==== Sys2Proof/Machine/Slots.lean ====
section
/-! DEFINITION. The leap area's slots (R390 to R392): finding and taking one, its header in memory, its image for a launch
(R393, R394).
-/

namespace Sys2Proof.Machine

/-- A slot's address (R390). -/
def slotAddr (x : Context) (slot : Nat) : Nat := x.leapArea + 4096 * slot

/-- A header's fields (R392). -/
structure SlotHeader where
  identity : Nat
  count : Nat
  confidence : Nat
  flags : Byte
  windowArg : Byte
  reserved : Byte
  low : DWord
  high : DWord
  budget : Nat
  bodyLen : Nat
  issued : Nat
  clipped : Nat
  suppressed : Nat
  deriving DecidableEq, Repr

/-- A header's fields by a way to read the numbers at its offsets. -/
def headerOf (f : Nat → Nat → Nat) : SlotHeader :=
  { identity := f 0 16, count := f 0x10 4, confidence := f 0x14 1, flags := BitVec.ofNat 8 (f 0x15 1)
    windowArg := BitVec.ofNat 8 (f 0x16 1), reserved := BitVec.ofNat 8 (f 0x17 1), low := BitVec.ofNat 64 (f 0x18 8)
    high := BitVec.ofNat 64 (f 0x20 8), budget := f 0x28 4, bodyLen := f 0x2C 4, issued := f 0x30 8, clipped := f 0x38 4
    suppressed := f 0x3C 4 }

/-- The header of a slot, as the device keeps it. -/
def readHeader (s : State) (x : Context) (slot : Nat) : SlotHeader := headerOf (fun off n => fwRead s (slotAddr x slot + off) n)

/-- The header of a slot, as a read of memory at `.sys` finds it (R327, R393, R395). -/
def seenHeader (s : State) (x : Context) (slot : Nat) : SlotHeader := headerOf (fun off n => leNat (homeBytes s (slotAddr x slot + off) n))

/-- The 64 bytes of a header. -/
def headerBytes (h : SlotHeader) : List Byte :=
  toLe h.identity 16 ++ toLe h.count 4 ++ toLe h.confidence 1 ++ [h.flags, h.windowArg, h.reserved] ++
  toLe h.low.toNat 8 ++ toLe h.high.toNat 8 ++ toLe h.budget 4 ++ toLe h.bodyLen 4 ++ toLe h.issued 8 ++
  toLe h.clipped 4 ++ toLe h.suppressed 4

def writeHeader (s : State) (x : Context) (slot : Nat) (h : SlotHeader) : State := fwWrite s (slotAddr x slot) (headerBytes h)

/-- The whole slot is zero, its observation state empty (R391, R395). -/
def clearSlotAt (s : State) (x : Context) (slot : Nat) : State :=
  let s1 := fwWrite s (slotAddr x slot) (List.replicate 4096 0#8)
  match s1.ctx? x.id with
  | some y => s1.setCtx { y with leap := tableDel y.leap slot }
  | none => s1

/-- A slot's observation state changes; its bytes are implementation-defined (R390; log 32). -/
def setObs (s : State) (ctx slot : Nat) (o : Option LeapObs) : State :=
  match s.ctx? ctx with
  | none => s
  | some x =>
    let s1 := s.setCtx { x with leap := match o with
      | some v => tablePut x.leap slot v
      | none => tableDel x.leap slot }
    noteDevice ((List.range 1024).foldl (fun s i => fwFreeByte s (slotAddr x slot + 0xC00 + i)) s1)
      ((List.range 1024).map (fun i => slotAddr x slot + 0xC00 + i))

/-- The slot that holds a kernel identity. -/
def findSlot (s : State) (x : Context) (identity : BitVec 128) : Option Nat :=
  (List.range 256).find? (fun i => fwRead s (slotAddr x i) 16 == identity.toNat)

/-- The slot a new identity takes (R391): the lowest without an identity, else the unpinned one of lowest confidence. -/
def chooseSlot (s : State) (x : Context) : Option Nat :=
  match (List.range 256).find? (fun i => fwRead s (slotAddr x i) 16 == 0) with
  | some i => some i
  | none => ((List.range 256).foldl (fun (best : Option (Nat × Nat)) i =>
      let h := readHeader s x i
      if h.flags.getLsbD 0 then best
      else match best with
        | none => some (h.confidence, i)
        | some b => if h.confidence < b.1 then some (h.confidence, i) else best) none).map Prod.snd

/-- Take a slot for an identity, cleared before use. -/
def takeSlot (s : State) (x : Context) (identity : BitVec 128) : Option (State × Nat) :=
  (chooseSlot s x).map (fun i =>
    (fwWrite (clearSlotAt s x i) (slotAddr x i) (toLe identity.toNat 16), i))

/-- Body length, budget and reserved bits are in range (R394). -/
def headerValid (h : SlotHeader) : Bool :=
  decide (4 ≤ h.bodyLen) && decide (h.bodyLen ≤ 3008) && h.bodyLen % 4 == 0 &&
  (h.budget == 0 || (decide (128 ≤ h.budget) && decide (h.budget ≤ 2 ^ 24) && h.budget % 128 == 0)) &&
  h.flags.extractLsb' 4 4 == 0#4 && h.reserved == 0#8

/-- The image taken at acceptance, when it starts a leap group (R393, R394). -/
def leapImage (s : State) (x : Context) (b : LaunchBlock) : Option LeapImage :=
  if b.leap = 0xFFFFFFFE#32 then none
  else (findSlot s x b.identity).bind (fun i =>
    let h := seenHeader s x i
    if headerValid h then
      some { slot := i, windowArg := h.windowArg, low := h.low, high := h.high, budget := h.budget
             body := homeBytes s (slotAddr x i + 0x40) h.bodyLen }
    else none)

end Sys2Proof.Machine
end

