-- ==== Sys2Proof/Machine/Module.lean ====
section
/-! DEFINITION. Module files (R108 to R120): the checks of the loader, placing sections and relocating them, and what a load
registers (R113). A check that fails makes the load fail with reason 0x04.
-/

namespace Sys2Proof.Machine

/-! ## Memory as the host and the loader reach it (R416) -/

/-- Every byte of a virtual range is mapped (R415, reason 0x09). -/
def hostMapped (s : State) (x : Context) (va n : Nat) : Bool :=
  decide (va + n ≤ 2 ^ 56) && (rangeParts 65536 va (va + n)).all (fun p => match place s x (BitVec.ofNat 64 p.1) with
    | .inl _ => true
    | .inr _ => false)

/-- The physical bytes of a mapped range. -/
def hostAddrs (s : State) (x : Context) (va n : Nat) : List Nat :=
  (rangeParts 65536 va (va + n)).flatMap (fun p => match place s x (BitVec.ofNat 64 p.1) with
    | .inl q => (List.range p.2).map (fun i => q.pa + i)
    | .inr _ => [])

/-- The bytes of a mapped range, read at their homes. -/
def hostBytes (s : State) (x : Context) (va n : Nat) : List Byte := (hostAddrs s x va n).map (homeByte s)

/-- Write bytes at their homes. -/
def hostWrite (s : State) (x : Context) (va : Nat) (bs : List Byte) : State :=
  let pas := hostAddrs s x va bs.length
  let s1 := (pas.zip bs).foldl (fun s c => (recallByte s c.1).memSet c.1 c.2) s
  settlePoison (noteDevice s1 pas) pas []

/-! ## The file (R108, R109) -/

/-- A field of a file. -/
def fileNat (f : List Byte) (off n : Nat) : Nat := leNat ((f.drop off).take n)

/-- An entry of the section table. -/
structure Sect where
  type : Nat
  flags : Nat
  align : Nat
  recSize : Nat
  off : Nat
  size : Nat
  reserved : Bool
  deriving DecidableEq, Repr

def sectAt (f : List Byte) (a : Nat) : Sect :=
  { type := fileNat f a 1, flags := fileNat f (a + 1) 1, align := fileNat f (a + 2) 1, recSize := fileNat f (a + 4) 4
    off := fileNat f (a + 8) 8, size := fileNat f (a + 16) 8
    reserved := fileNat f (a + 3) 1 == 0 && fileNat f (a + 24) 8 == 0 }

def sectsOf (f : List Byte) : List Sect := (List.range (fileNat f 0x0C 2)).map (fun i => sectAt f (fileNat f 0x10 8 + 32 * i))

/-- A type's flags, record size and least alignment (R109). -/
def sectRow : Nat → Option (Nat × Nat × Nat)
  | 1 => some (3, 0, 2)
  | 2 => some (1, 0, 0)
  | 3 => some (5, 0, 0)
  | 4 => some (1, 32, 5)
  | 5 => some (0, 128, 3)
  | 6 => some (0, 16, 3)
  | 7 => some (0, 0, 3)
  | 8 => some (0, 32, 3)
  | 9 => some (1, 80, 3)
  | 10 => some (0, 16, 3)
  | 11 => some (0, 0, 3)
  | 12 => some (0, 0, 3)
  | _ => none

def sectOk (c : Sect) : Bool := match sectRow c.type with
  | none => false
  | some r =>
    c.reserved && c.flags == r.1 && c.recSize == r.2.1 && decide (r.2.2 ≤ c.align) && decide (c.align ≤ 30) &&
    c.off % 8 == 0 && decide (c.size ≤ 2 ^ 32 - 16) && (r.2.1 == 0 || c.size % r.2.1 == 0) &&
    (c.type != 1 || c.size % 4 == 0)

/-- Each sects data starts after what is before it in the file. -/
def sectsOrdered : Nat → List Sect → Bool
  | _, [] => true
  | e, c :: rest => decide (e ≤ c.off) && sectsOrdered (c.off + c.size) rest

def sectOf (f : List Byte) (t : Nat) : Option Sect := (sectsOf f).find? (fun c => c.type == t)

/-- The data of a section. -/
def sectData (f : List Byte) (t : Nat) : List Byte := match sectOf f t with
  | some c => (f.drop c.off).take c.size
  | none => []

/-- Records of a section with n bytes each. -/
def recordsOf (f : List Byte) (t n : Nat) : List (List Byte) :=
  let d := sectData f t
  (List.range (d.length / n)).map (fun i => (d.drop (n * i)).take n)

/-- The bytes of a file from one offset up to another are 0. -/
def zeroBetween (f : List Byte) (lo hi : Nat) : Bool := ((f.drop lo).take (hi - lo)).all (· == 0#8)

/-- The padding before each section's data is 0. -/
def paddingOk (f : List Byte) : Nat → List Sect → Bool
  | _, [] => true
  | e, c :: rest => zeroBetween f e c.off && paddingOk f (c.off + c.size) rest

/-- The header and the table (R108, R109): the signature block ends the file. -/
def headerOk (f : List Byte) : Bool :=
  let cs := sectsOf f
  let tableAt := fileNat f 0x10 8
  decide (64 ≤ f.length) && f.take 4 == [0x44#8, 0x52#8, 0x56#8, 0x4F#8] && fileNat f 4 2 == 1 && fileNat f 6 2 == 64 &&
  fileNat f 8 4 == 1 && decide (1 ≤ fileNat f 0x0C 2) && decide (fileNat f 0x0C 2 ≤ 12) && fileNat f 0x0E 2 == 32 &&
  fileNat f 0x10 8 % 8 == 0 && decide (64 ≤ fileNat f 0x10 8) && fileNat f 0x1C 4 == 0 && (f.drop 0x28).take 24 == List.replicate 24 0#8 &&
  cs.all sectOk && decide ((cs.map (fun c => c.type)).Nodup) &&
  sectsOrdered (tableAt + 32 * cs.length) cs && cs.all (fun c => decide (c.off + c.size ≤ f.length)) &&
  zeroBetween f 64 tableAt && paddingOk f (tableAt + 32 * cs.length) cs &&
  (match cs.getLast? with
    | some c => c.type == 12 && c.size == 160 && fileNat f 0x20 8 == c.off && c.off + c.size == f.length
    | none => false)

/-! ## Strings, symbols and relocations (R110, R111) -/

/-- One byte of a UTF-8 text, after a state: how many bytes the character still needs, and the bounds of the next. -/
def utf8Step (q : Nat × Nat × Nat) (b : Byte) : Option (Nat × Nat × Nat) :=
  let n := b.toNat
  if q.1 ≠ 0 then (if q.2.1 ≤ n ∧ n ≤ q.2.2 then some (q.1 - 1, 0x80, 0xBF) else none)
  else if n < 0x80 then some (0, 0x80, 0xBF)
  else if 0xC2 ≤ n ∧ n ≤ 0xDF then some (1, 0x80, 0xBF)
  else if n = 0xE0 then some (2, 0xA0, 0xBF)
  else if n = 0xED then some (2, 0x80, 0x9F)
  else if 0xE1 ≤ n ∧ n ≤ 0xEF then some (2, 0x80, 0xBF)
  else if n = 0xF0 then some (3, 0x90, 0xBF)
  else if 0xF1 ≤ n ∧ n ≤ 0xF3 then some (3, 0x80, 0xBF)
  else if n = 0xF4 then some (3, 0x80, 0x8F)
  else none

/-- Bytes that are UTF-8 (R110). -/
def utf8Ok (bs : List Byte) : Bool := match bs.foldlM utf8Step (0, 0x80, 0xBF) with
  | some q => q.1 == 0
  | none => false

/-- The name at a string offset: 1 to 255 bytes before a NUL, in UTF-8. -/
def nameAt (f : List Byte) (off : Nat) : Option (List Byte) :=
  let d := sectData f 11
  let t := d.drop (leNat ((d.drop 4).take 4) + off)
  let n := t.takeWhile (· != 0#8)
  if 1 ≤ n.length ∧ n.length ≤ 255 ∧ n.length < t.length ∧ utf8Ok n = true then some n else none

def symCount (f : List Byte) : Nat := leNat ((sectData f 11).take 4)
/-- Bytes that are names one after the other: each of 1 to 255 bytes of UTF-8 with a NUL after it. `n` holds the bytes of the name so far,
the last first. -/
def namesOk : List Byte → List Byte → Bool
  | n, [] => n.isEmpty
  | n, b :: rest =>
    if b = 0#8 then decide (1 ≤ n.length) && decide (n.length ≤ 255) && utf8Ok n.reverse && namesOk [] rest else namesOk (b :: n) rest

/-- The string area lies after the entries, inside the section, with zeros between, and holds nothing but names (R108, R110). -/
def stringsOk (f : List Byte) : Bool :=
  let d := sectData f 11
  let a := leNat ((d.drop 4).take 4)
  decide (8 + 16 * symCount f ≤ a) && decide (a ≤ d.length) && zeroBetween d (8 + 16 * symCount f) a && namesOk [] (d.drop a)
def symAt (f : List Byte) (i : Nat) : List Byte := ((sectData f 11).drop (8 + 16 * i)).take 16

/-- How many records a kind of symbol may index. -/
def kindCount (f : List Byte) (leaps : Nat) : Nat → Option Nat
  | 2 => some (recordsOf f 5 128).length
  | 3 => some (recordsOf f 4 32).length
  | 4 => some (recordsOf f 8 32).length
  | 5 => some (recordsOf f 9 80).length
  | 6 => some leaps
  | _ => none

def symOk (f : List Byte) (leaps i : Nat) : Bool :=
  let e := symAt f i
  let sec := fileNat e 8 1
  e.length == 16 && (nameAt f (fileNat e 0 4)).isSome && decide (sec ≤ 9) &&
  (sec == 0 || (match sectOf f sec with
    | some c => decide (fileNat e 4 4 ≤ c.size)
    | none => false)) &&
  decide (fileNat e 9 1 ≤ 1) && decide (fileNat e 10 1 ≤ 6) && fileNat e 11 1 == 0 &&
  (match kindCount f leaps (fileNat e 10 1) with
    | some n => decide (fileNat e 12 4 < n)
    | none => true)

/-- No two global symbols share a name. -/
def globalsDistinct (f : List Byte) : Bool :=
  decide (((List.range (symCount f)).filterMap (fun i =>
    if fileNat (symAt f i) 9 1 = 1 then some (nameAt f (fileNat (symAt f i) 0 4)) else none)).Nodup)

/-- Bytes that a kind of relocation patches. -/
def relocBytes : Nat → Option Nat
  | 1 => some 8
  | 2 => some 4
  | 3 => some 4
  | 4 => some 8
  | 5 => some 8
  | _ => none

/-- A relocation record's own fields (R111). The linked flag's 'all relocations against section bases' is not asked of its symbol, which may
have any value, and may be absolute (R108; log 50). -/
def relocOk (f : List Byte) (r : List Byte) : Bool :=
  let t := fileNat r 4 1
  [1, 2, 3, 4, 9].contains t && fileNat r 6 2 == 0 && decide (fileNat r 8 4 < symCount f) &&
  (match sectOf f t, relocBytes (fileNat r 5 1) with
    | some c, some n => decide (fileNat r 0 4 + n ≤ c.size)
    | _, _ => false)

/-! ## Launch blocks (R115 to R117) -/

/-- A kernel's identity (R115). -/
def identityOf (f name : List Byte) : List Byte := (sha512 (sectData f 1 ++ name)).take 16

def roleOf : Nat → Option Role
  | 0 => some .copy
  | 1 => some .matrix
  | 2 => some .vector
  | 3 => some .combined
  | _ => none

/-- The role entry i of a block, its entry an address from `text` on. -/
def roleAt (f : List Byte) (text : Nat) (b : List Byte) (i : Nat) : Option RoleEntry :=
  let e := (b.drop (0x30 + 16 * i)).take 16
  let n := fileNat e 1 1
  let bud := fileNat e 2 1
  let off := fileNat e 4 4
  match roleOf (fileNat e 0 1) with
  | none => none
  | some r =>
    if 1 ≤ n ∧ n ≤ 32 ∧ 8 ≤ bud ∧ bud ≤ 96 ∧ bud % 8 = 0 ∧ fileNat e 3 1 = 0 ∧ off % 4 = 0 ∧ off < (sectData f 1).length ∧ fileNat e 8 8 = 0
    then some ⟨r, n, bud, BitVec.ofNat 64 (text + off)⟩ else none

/-- The rules on a block as a whole (R116, R117). -/
def blockRules (b : LaunchBlock) : Bool :=
  let rs := b.roles.map (fun r => r.role)
  decide (1 ≤ b.roles.length) && decide (b.roles.length ≤ 3) && (!rs.contains .combined || b.roles.length == 1) && decide rs.Nodup &&
  b.groups == (b.roles.map (fun r => r.groups)).sum && decide (1 ≤ b.groups) && decide (b.groups ≤ 32) &&
  [2, 4, 8, 16, 32].contains b.part.toNat && decide (b.prio ≤ 7) && decide (b.scratch ≤ 2 ^ 20) && b.scratch % 4096 == 0 &&
  decide (4 ≤ b.split.regs) && decide (b.split.regs ≤ 16) && decide (b.split.scratch ≤ 16) && decide (2 ≤ b.split.l1) &&
  decide (b.split.l1 ≤ 28) && b.split.regs + b.split.scratch + b.split.l1 == 32 && (b.fpc &&& ~~~0xF3#32) == 0#32 &&
  decide (b.scratch ≤ 65536 * b.split.scratch) && decide ((b.roles.map (fun r => r.groups * r.budget)).sum ≤ 512 * b.split.regs - 1024)

/-- A launch block, when it passes every check. One that declares no roles gives every group the combined role (R20). -/
def parseBlock (f : List Byte) (text leaps : Nat) (b : List Byte) : Option LaunchBlock :=
  let flags := fileNat b 4 4
  let count := fileNat b 0x19 1
  let trap := fileNat b 0x28 4
  let leap := fileNat b 0x2C 4
  match nameAt f (fileNat b 0 4), allSome ((List.range count).map (roleAt f text b)) with
  | some name, some roles =>
    let o : LaunchBlock :=
      { name := name, identity := BitVec.ofNat 128 (fileNat b 8 16), groups := fileNat b 0x18 1, part := BitVec.ofNat 32 (fileNat b 0x1A 1)
        prio := fileNat b 0x1B 1, scratch := fileNat b 0x1C 4, split := ⟨fileNat b 0x20 1, fileNat b 0x21 1, fileNat b 0x22 1⟩
        fpc := BitVec.ofNat 32 (fileNat b 0x24 4), trapEntry := if flags % 2 = 1 then some (BitVec.ofNat 64 (text + trap)) else none
        leap := BitVec.ofNat 32 leap, roles := roles }
    if count ≤ 3 ∧ flags < 4 ∧ fileNat b 0x23 1 = 0 ∧ fileNat b 0x70 16 = 0 ∧
        (flags % 2 = 0 ∨ (trap % 4 = 0 ∧ trap < (sectData f 1).length)) ∧
        (leap = 0xFFFFFFFF ∨ leap = 0xFFFFFFFE ∨ leap < leaps) ∧ fileNat b (0x30 + 16 * count) (16 * (4 - count)) = 0 ∧
        identityOf f name = (b.drop 8).take 16 ∧ blockRules o = true
    then some (if flags / 2 % 2 = 1 then o else { o with roles := o.roles.map (fun r => { r with role := .combined }) }) else none
  | _, _ => none

/-! ## Manifest, leap, node and task records (R118 to R120) -/

/-- A manifest entry: section, domain, pin, offset, length. -/
structure FrozenRec where
  sect : Nat
  sys : Bool
  pin : Bool
  off : Nat
  length : Nat
  deriving DecidableEq, Repr

def parseFrozen (f r : List Byte) : Option FrozenRec :=
  let o : FrozenRec := ⟨fileNat r 0 1, fileNat r 1 1 == 1, fileNat r 2 1 == 1, fileNat r 4 4, fileNat r 8 8⟩
  match sectOf f o.sect with
  | some c =>
    if (o.sect = 2 ∨ o.sect = 3) ∧ fileNat r 1 1 ≤ 1 ∧ fileNat r 2 1 ≤ 1 ∧ fileNat r 3 1 = 0 ∧ 1 ≤ o.length ∧
        o.off + o.length ≤ c.size ∧ 12 ≤ c.align
    then some o else none
  | none => none

/-- The header of a `.leap` record's image holds what R392 allows, and the length of the code after it. -/
def leapHeadOk (b : List Byte) : Bool :=
  let budget := fileNat b 0x28 4
  decide (fileNat b 0x14 1 ≤ 15) && decide (fileNat b 0x15 1 < 16) && fileNat b 0x17 1 == 0 && budget % 128 == 0 && decide (budget ≤ 2 ^ 24) &&
  fileNat b 0x2C 4 == b.length - 64

/-- The `.leap` records of section data: the launch block index and the body of each; `fuel` records at most (R119). -/
def parseLeaps (f : List Byte) (blocks : Nat) : Nat → List Byte → Option (List (Nat × List Byte))
  | 0, _ => none
  | fuel + 1, d =>
    if d.length = 0 then some []
    else
      let n := fileNat d 8 4
      if d.length < 16 + n ∨ n % 4 ≠ 0 ∨ n < 64 ∨ 64 + 3008 < n ∨ fileNat d 12 4 ≠ 0 ∨ blocks ≤ fileNat d 4 4 ∨
        (nameAt f (fileNat d 0 4)).isNone ∨ !leapHeadOk ((d.drop 16).take n) ∨
        !zeroBetween d (16 + n) ((16 + n + 7) / 8 * 8) then none
      else (parseLeaps f blocks fuel (d.drop ((16 + n + 7) / 8 * 8))).map (fun l => (fileNat d 4 4, (d.drop 16).take n) :: l)

def leapsOf (f : List Byte) : Option (List (Nat × List Byte)) :=
  let d := sectData f 7
  parseLeaps f (recordsOf f 5 128).length (d.length + 1) d

/-- A `.nodes` record (R120). -/
structure NodeRec where
  block : Nat
  coalesce : Nat
  timer : Nat
  capacity : Nat
  overflowTo : Option Nat
  deriving DecidableEq, Repr

def parseNode (f : List Byte) (kernels : List LaunchBlock) (count : Nat) (r : List Byte) : Option NodeRec :=
  let o : NodeRec :=
    { block := fileNat r 4 4, coalesce := fileNat r 8 4, timer := fileNat r 12 4, capacity := fileNat r 16 4
      overflowTo := if fileNat r 20 4 = 0xFFFFFFFF then none else some (fileNat r 20 4) }
  match kernels[o.block]? with
  | none => none
  | some b =>
    if (nameAt f (fileNat r 0 4)).isSome ∧ 1 ≤ o.coalesce ∧ o.coalesce ≤ 65535 ∧ 32 * o.coalesce ≤ b.scratch ∧
        (o.overflowTo.all (fun i => decide (i < count))) = true ∧ fileNat r 24 8 = 0
    then some o else none

/-- A `.tasks` record (R120). -/
structure TaskRec where
  block : Nat
  preds : Nat
  speculative : Nat
  succs : List Nat
  deriving DecidableEq, Repr

def parseTask (f : List Byte) (blocks count : Nat) (r : List Byte) : Option TaskRec :=
  let n := fileNat r 11 1
  let ix := (List.range 16).map (fun i => fileNat r (16 + 4 * i) 4)
  if (nameAt f (fileNat r 0 4)).isSome ∧ fileNat r 4 4 < blocks ∧ fileNat r 10 1 ≤ 1 ∧ n ≤ 16 ∧ fileNat r 12 4 = 0 ∧
      ((ix.take n).all (fun i => decide (i < count))) = true ∧ ((ix.drop n).all (fun i => i == 0xFFFFFFFF)) = true
  then some ⟨fileNat r 4 4, fileNat r 8 2, fileNat r 10 1, ix.take n⟩ else none

/-! ## A checked module -/

structure ModFile where
  kernels : List LaunchBlock
  frozen : List FrozenRec
  leaps : List (Nat × List Byte)
  nodes : List NodeRec
  tasks : List TaskRec

/-- The trusted key with an identifier. -/
def keyWithId (id : List Byte) : Option (Nat × Nat) :=
  ((List.range 8).filterMap Config.moduleKey).find? (fun k => keyIdOf k == id)

/-- The signature block (R112) verifies under a trusted key (R421). -/
def signatureOk (f : List Byte) : Bool :=
  let d := sectData f 12
  let key := (d.drop 8).take 16
  d.take 4 == [0x53#8, 0x49#8, 0x47#8, 0x31#8] && fileNat d 4 2 == 1 && fileNat d 6 2 == 0 && fileNat d 0x9C 4 == 0 &&
  (match keyWithId key with
    | some k => signatureValid (f.take (fileNat f 0x20 8)) k (beNat ((d.drop 0x18).take 66)) (beNat ((d.drop 0x5A).take 66))
    | none => false)

/-- Step 1 of R113 on a file, with `.text` placed at an address. -/
def parseModule (f : List Byte) (text : Nat) : Option ModFile :=
  if !headerOk f || !signatureOk f || (nameAt f (fileNat f 0x18 4)).isNone then none
  else
    match leapsOf f with
    | none => none
    | some leaps =>
      let nodes := recordsOf f 8 32
      let tasks := recordsOf f 9 80
      match allSome ((recordsOf f 5 128).map (parseBlock f text leaps.length)) with
      | none => none
      | some ks =>
        if !stringsOk f || !(List.range (symCount f)).all (symOk f leaps.length) || !globalsDistinct f || !(recordsOf f 10 16).all (relocOk f) then none
        else match allSome ((recordsOf f 6 16).map (parseFrozen f)), allSome (nodes.map (parseNode f ks nodes.length)),
            allSome (tasks.map (parseTask f ks.length tasks.length)) with
          | some fr, some ns, some ts => some ⟨ks, fr, leaps, ns, ts⟩
          | _, _, _ => none

/-! ## Steps 2 and 3: placing and relocating -/

/-- The load address of a section. -/
def loadAt (addrs : List (Nat × Nat)) (t : Nat) : Option Nat := (addrs.find? (fun a => a.1 == t)).map Prod.snd

/-- What each loadable section puts at its address: `.text` with the word 0x0E000000 after it (R93). They are copied in ascending order
of type, so that where the addresses given make sections overlap the later type's bytes stand (log 50). -/
def placements (f : List Byte) (addrs : List (Nat × Nat)) : List (Option (Nat × List Byte)) :=
  ([1, 2, 3, 4, 9].filterMap (sectOf f)).map (fun c => match loadAt addrs c.type with
    | none => none
    | some a =>
      if a % 2 ^ c.align = 0 then some (a, sectData f c.type ++ if c.type = 1 then toLe 0x0E000000 4 else []) else none)

/-- Write a word of 4 bytes at an address. -/
def patchWord (s : State) (x : Context) (va : Nat) (w : Word) : State := hostWrite s x va (toLe w.toNat 4)

/-- A word of the placed code. -/
def placedWord (s : State) (x : Context) (va : Nat) : Word := BitVec.ofNat 32 (leNat (hostBytes s x va 4))

/-- A relocated field in a word. -/
def inField (w : Word) (v : Int) (n : Nat) : Word := (w &&& ~~~(BitVec.ofNat 32 (2 ^ n - 1))) ||| BitVec.ofNat 32 (v % 2 ^ n).toNat

/-- One relocation (R111); none where it fails. A `LOOP12` whose difference is no multiple of 4 fails, and a section without a load address
counts from 0 (log 50). A `JUMP20` or `LOOP12` at a place that holds no GJ or `LOOP` word, or that is no multiple of 4, changes the low bits of
what stands there: R111 names no failure for it (log 52). -/
def relocate (f : List Byte) (addrs : List (Nat × Nat)) (x : Context) (s : State) (r : List Byte) : Option State :=
  let e := symAt f (fileNat r 8 4)
  let base := fun t => (loadAt addrs t).getD 0
  let sv := (if fileNat e 8 1 = 0 then 0 else base (fileNat e 8 1)) + fileNat e 4 4
  let sa : Int := sv + (BitVec.ofNat 32 (fileNat r 12 4)).toInt
  let p := base (fileNat r 4 1) + fileNat r 0 4
  let d : Int := sa - p
  let jump (bits : Nat) : Option State :=
    if d % 4 = 0 ∧ -(2 ^ (bits - 1) : Int) ≤ d / 4 ∧ d / 4 < 2 ^ (bits - 1)
    then some (patchWord s x p (inField (placedWord s x p) (d / 4) bits)) else none
  let wide (half : Nat) : Option State :=
    let w0 := placedWord s x p
    let w1 := placedWord s x (p + 4)
    let v := (sa % 2 ^ 64).toNat / 2 ^ (32 * half) % 2 ^ 32
    match isXp w0, decode none w1 with
    | true, .ok (.smovi _) => some (patchWord (patchWord s x p (inField w0 (v / 4096) 20)) x (p + 4) (inField w1 v 12))
    | _, _ => none
  match fileNat r 5 1 with
  | 1 => some (hostWrite s x p (toLe (sa % 2 ^ 64).toNat 8))
  | 2 => jump 20
  | 3 => jump 12
  | 4 => wide 0
  | 5 => wide 1
  | _ => none

/-- Every relocation in table order: the state as far as they went, and whether all held. -/
def relocateAll (f : List Byte) (addrs : List (Nat × Nat)) (x : Context) : List (List Byte) → State → State × Bool
  | [], s => (s, true)
  | r :: rest, s => match relocate f addrs x s r with
    | none => (s, false)
    | some s1 => relocateAll f addrs x rest s1

/-! ## Step 4: the manifest (R118) -/

/-- What becomes of a manifest entry: begun on an entry of the region table, waiting, without a place, or on a page that `FRZ` would
trap on, for which the load fails with reason 0x06 (log 44). -/
inductive Froze where
  | begun (s : State) (idx : Nat)
  | wait
  | full
  | bad

/-- Freeze [lo, hi) as by `FRZ` without its pin, its checks of the pages first (R118, R298). Entries that round to one range raise its count (log 50). -/
def loaderFreeze (s : State) (x : Context) (lo hi : Nat) (sys : Bool) : Froze :=
  let len := (hi - lo) / 4096
  let checks := (rangeParts 65536 lo hi).map (fun p => checkAccess s x false .freeze .none 1 1 (BitVec.ofNat 64 p.1))
  if checks.any (fun c => decide (c.rank < 14)) then .bad
  else if checks.any (fun c => c.rank == 14) || publishPending x lo hi then .wait
  else match x.findEntry lo len sys isFrozenState with
  | some (idx, e) =>
    if e.count < 65535 then .begun (s.setCtx (x.setEntry idx { e with count := e.count + 1 })) idx else .full
  | none =>
    if (x.findEntry lo len sys (fun st => st == .thawing)).isSome then .wait
    else match x.freeEntry with
    | none => .full
    | some idx =>
      let e : FreezeEntry :=
        { state := .installing, base := lo, length := len, count := 1, gen := (x.entry idx).gen + 1#32, sys := sys, pin := false
          blocks := rangeBlocks s x lo hi, holders := [] }
      .begun (s.setCtx (x.setEntry idx e)) idx

/-- The number of an entry that a load has begun: 1,024 more while its pin is still to be applied, which the freeze point comes before (R298). -/
def begunEntry (i : Nat) (pin : Bool) : Nat := if pin then i + 1024 else i

/-- Apply the pins that are due, to entries whose freeze points are reached. -/
def pinBegun (s : State) (ctx : Nat) (taken : List Nat) : State := (taken.filter (fun i => decide (1024 ≤ i))).foldl (fun s i => match s.ctx? ctx with
  | some x => applyPin s x (i % 1024)
  | none => s) s

/-- Thaw the entries a failed load froze. -/
def undoFreeze (s : State) (ctx : Nat) (idx : List Nat) : State :=
  idx.foldl (fun s i => match s.ctx? ctx with
    | some x => thaw s x (i % 1024) (x.entry (i % 1024))
    | none => s) s

/-! ## Steps 5 and 6 -/

/-- Install a `.leap` record (R119, R394): none where every slot is pinned. A slot that is pinned and holds a program keeps it; a pinned one
without a body holds none (R391). -/
def installLeap (s : State) (ctx : Nat) (identity : BitVec 128) (body : List Byte) : Option State :=
  match s.ctx? ctx with
  | none => none
  | some x =>
    let r := match findSlot s x identity with
      | some i => some (s, i)
      | none => takeSlot s x identity
    r.map (fun p =>
      let old := readHeader p.1 x p.2
      if old.flags.getLsbD 0 && old.bodyLen != 0 then p.1
      else
        let s1 := clearSlotAt p.1 x p.2
        let s2 := fwWrite s1 (slotAddr x p.2) body
        let h := readHeader s2 x p.2
        setObs (writeHeader s2 x p.2 { h with identity := identity.toNat, flags := h.flags ||| 2#8 }) ctx p.2 none)

def installLeaps (ctx : Nat) (ks : List LaunchBlock) : List (Nat × List Byte) → State → Option State
  | [], s => some s
  | (k, body) :: rest, s => match ks[k]? with
    | none => none
    | some b => match installLeap s ctx b.identity body with
      | none => none
      | some s1 => installLeaps ctx ks rest s1

/-- The 256 bytes of a control block built from a template (R120, R372); software gives it a grid. -/
def taskBlock (handle base : Nat) (t : TaskRec) : List Byte :=
  toLe handle 2 ++ toLe t.block 2 ++ toLe t.preds 4 ++ toLe 0 5 ++ toLe t.speculative 1 ++ toLe t.succs.length 1 ++
  List.replicate 113 0#8 ++ (List.range 16).flatMap (fun i => toLe (match t.succs[i]? with
    | some n => base + 256 * n
    | none => 0) 8)

/-- Register the nodes of a module (R378). -/
def addNodes (x : Context) (handle : Nat) (ns : List NodeRec) : Context :=
  let n0 := x.nodes.length
  { x with nodes := x.nodes ++ ns.map (fun n => Node.mk handle n.block n.coalesce n.timer n.capacity (n.overflowTo.map (fun i => n0 + i)) [] none [] 0#64) }

/-- The bits of a leaf overflowTo the firmware's areas that kernels may write. -/
def areaBits (rad : Bool) : LeafBits := { rp := true, wp := true, xp := false, fw := false, ca := true, rad := rad, sm := 0#2, ps := 0#8 }

/-- Take and map an area of n bytes at its own physical address (log 9); its bytes are 0. -/
def takeArea (s : State) (x : Context) (f : LeafBits) (n : Nat) : Option (State × Nat) :=
  let size := (n + 65535) / 65536 * 65536
  let r := takeMem s 65536 size x.id
  (mapPages x f 65536 (size / 65536) r.2 r.2 r.1).map (fun s1 => (s1, r.2))

/-- A module's handle: the next number of its context (R372 gives it 2 bytes). -/
def nextHandle (s : State) (ctx : Nat) : Nat := ((s.modules.filter (fun m => m.ctx == ctx)).map (fun m => m.handle)).foldl max 0 + 1

/-- Steps 5 to 7: the leap records, the nodes, the task blocks, and the module: its handle and its blocks' address. -/
def registerModule (s : State) (ctx : Nat) (m : ModFile) : Option (State × Nat × Nat) :=
  let handle := nextHandle s ctx
  if 65535 < handle then none
  else match installLeaps ctx m.kernels m.leaps s with
  | none => none
  | some s1 => match s1.ctx? ctx with
    | none => none
    | some x =>
      let s2 := s1.setCtx (addNodes x handle m.nodes)
      let r := if m.tasks.isEmpty then some (s2, 0) else takeArea s2 x (areaBits false) (256 * m.tasks.length)
      r.map (fun p =>
        let s3 := m.tasks.zipIdx.foldl (fun s t => fwWrite s (p.2 + 256 * t.2) (taskBlock handle p.2 t.1)) p.1
        ({ s3 with modules := s3.modules ++ [⟨handle, ctx, true, m.kernels⟩] }, handle, p.2))

end Sys2Proof.Machine
end

