-- ==== Sys2Proof/Machine/LineFetch.lean ====
section
/-! DEFINITION. Run-ahead fetches: the four checks (R406), the byte budget (R404), index reads (R408), and the `LINE_FETCH` event. A
fetch changes no memory (R279, R407).
-/

namespace Sys2Proof.Machine

/-- Count on a leap fetch's launch. -/
def countFetch (s : State) (f : Fetch) (g : Launch → Launch) : State :=
  if f.leap then match s.launch? f.launch with
    | some l => s.setLaunch (g l)
    | none => s
  else s

/-- A fetch leaves its core's queue. -/
def dropFetch (s : State) (c : Fin 256) (n : Nat) : State :=
  let k := s.core c
  s.setCore c { k with fetches := k.fetches.filter (fun f => f.n != n) }

/-- Checks 2 to 4 of one byte: its place, or none (R406). -/
def fetchPlace (s : State) (ctx a : Nat) : Option Place :=
  if 2 ^ 64 ≤ a then none
  else match s.ctx? ctx with
  | none => none
  | some x => match place s x (BitVec.ofNat 64 a) with
    | .inr _ => none
    | .inl p => if p.leaf.rp && p.leaf.ca && !isRemote p.pa && !p.leaf.rad && !p.leaf.bh && !p.leaf.bt then some p else none

/-- Check 1: the bytes [lo, hi) lie in the image's window. -/
def inWindow (f : Fetch) (im : LeapImage) (lo hi : Nat) : Bool :=
  if im.windowArg = 0xFF#8 then true
  else if 15 < im.windowArg.toNat then false
  else
    let base := Int.ofNat f.anchor.toNat
    decide (base + im.low.toInt ≤ Int.ofNat lo) && decide (Int.ofNat hi ≤ base + im.high.toInt)

/-- Bytes of budget that a launch's fetches hold on a core (R404). -/
def budgetHeld (k : Core) (launch : Nat) : Nat := 128 * (k.budgeted.filter (fun b => b.1 == launch)).length

/-- What becomes of a line request. -/
inductive FetchEnd where
  | clipped | suppressed | waits
  | issued (line : Nat)
  deriving DecidableEq, Repr

/-- Judge a line request for the bytes [lo, hi). -/
def judgeLine (s : State) (c : Fin 256) (f : Fetch) (lo hi : Nat) : FetchEnd :=
  let im := (s.launch? f.launch).bind (fun l => l.image)
  let inside := match im with
    | some x => inWindow f x lo hi
    | none => true
  if f.leap && !inside then .clipped
  else match fetchPlace s f.ctx lo with
  | none => .suppressed
  | some p =>
    let budget := match im with
      | some x => x.budget
      | none => 0
    if f.leap && decide (budget < budgetHeld (s.core c) f.launch + 128) then .waits else .issued (lineOf p.pa)

/-- A fetch that waits: the home may have evicted the oldest line that holds budget (R404; a choice of the device). -/
def evictHeld (s : State) (c : Fin 256) (launch : Nat) : State :=
  let s1 := { s with choices := s.choices + 1 }
  if Config.choice s.choices % 2 = 0 then s1
  else
    let k := s1.core c
    match k.budgeted.find? (fun b => b.1 == launch) with
    | some b => s1.setCore c { k with budgeted := k.budgeted.erase b }
    | none => s1

/-- Carry out a line request. A line with an uncorrectable error holds its budget as any other, and stays unfilled (R404, R407). -/
def fetchLine (s : State) (c : Fin 256) (f : Fetch) (lo hi : Nat) : State :=
  match judgeLine s c f lo hi with
  | .clipped => dropFetch (countFetch s f (fun l => { l with clipped := l.clipped + 1 })) c f.n
  | .suppressed => dropFetch (countFetch s f (fun l => { l with suppressed := l.suppressed + 1 })) c f.n
  | .waits => evictHeld s c f.launch
  | .issued line =>
    let s1 := dropFetch (countFetch s f (fun l => { l with issued := l.issued + 1 })) c f.n
    if !f.leap then s1
    else
      let k := s1.core c
      let unfilled := s.poisoned (128 * line) 128 || k.filled.contains (f.launch, line)
      s1.setCore c { k with budgeted := k.budgeted ++ [(f.launch, line)]
                            filled := if unfilled then k.filled else k.filled ++ [(f.launch, line)] }

/-- Carry out an element of `RAFG`: its index word is read at its home, or is one that a race makes of it, and its lines take its place in
the queue (R408, R411). -/
def fetchElement (s : State) (c : Fin 256) (f : Fetch) (index base : DWord) (size : Nat) (raced : Option Word) : State :=
  match fetchPlace s f.ctx index.toNat with
  | none => dropFetch (countFetch s f (fun l => { l with suppressed := l.suppressed + 1 })) c f.n
  | some p =>
    let idx := raced.getD (wordOf (homeBytes s p.pa 4))
    let t := (base + BitVec.ofNat 64 size * idx.signExtend 64).toNat
    let qs := (lineReqs t size).zipIdx.map (fun q => { f with n := s.fresh + q.2, req := q.1 })
    let k := s.core c
    { s.setCore c { k with fetches := k.fetches.flatMap (fun x => if x.n = f.n then qs else [x]) } with fresh := s.fresh + qs.length }

/-- The fetch is the first of its group: lines are fetched in order. -/
def firstFetch (k : Core) (f : Fetch) : Bool := match k.fetches.find? (fun x => x.group == f.group) with
  | some x => x.n == f.n
  | none => false

/-- Fetch number n of a core, when it is the first of its group. -/
def fetchAt (s : State) (c : Fin 256) (n : Nat) : Option Fetch :=
  (s.core c).fetches.find? (fun f => f.n == n && firstFetch (s.core c) f)

/-- `LINE_FETCH`: fetch number n of a core is carried out. -/
def execLineFetch (c : Fin 256) (n : Nat) (s : State) : Host.Outcome State Fault Refusal :=
  .next (match fetchAt s c n with
    | none => s
    | some f => match f.req with
      | .line lo hi => fetchLine s c f lo hi
      | .element index base size => fetchElement s c f index base size none)

/-- The most lines that a request comes to. -/
def FetchReq.lines : FetchReq → Nat
  | .line _ _ => 1
  | .element _ _ _ => 2

/-- A leap group waits while its queued fetches may come to lack budget, so that it is there to wait at the one that does (R404). -/
def fetchStalls (s : State) (c : Fin 256) (group : Nat) : Bool :=
  let k := s.core c
  let mine := k.fetches.filter (fun f => f.group == group && f.leap)
  match mine with
  | [] => false
  | f :: _ =>
    let budget := match (s.launch? f.launch).bind (fun l => l.image) with
      | some im => im.budget
      | none => 0
    decide (budget < budgetHeld k f.launch + 128 * (mine.map (fun f => f.req.lines)).sum)

/-- The leap group's next fetch waits for budget (R404). -/
def fetchWaits (s : State) (c : Fin 256) (group : Nat) : Bool :=
  match (s.core c).fetches.find? (fun f => f.group == group && f.leap) with
  | none => false
  | some f => match f.req with
    | .line lo hi => judgeLine s c f lo hi == .waits
    | .element _ _ _ => false

end Sys2Proof.Machine
end

