-- ==== Sys2Proof/Machine/Observe.lean ====
section
/-! DEFINITION. What the observer makes of a launch: pattern fits (R397), agreement and confidence (R398, R401), distillation
(R399) and the code of a distilled body (R400).
-/

namespace Sys2Proof.Machine

/-! ## Affine fits (R397) -/

/-- An observed access's variables: the team, the group or the lane. -/
def Observed.var (o : Observed) : Nat → Int
  | 0 => o.team
  | 1 => o.grp
  | _ => o.lane

def limit24 (x : Int) : Bool := decide (x.natAbs < 2 ^ 24)

/-- The variables that take more than one value over some accesses: lane, group, team. The others' coefficients are 0. -/
def varying (xs : List Observed) (o : Observed) : List Nat := [2, 1, 0].filter (fun i => xs.any (fun x => x.var i != o.var i))

/-- One equation on the coefficients: the differences of an access's variables from the first's, and of its address. -/
structure FitRow where
  vars : List Rat
  v : Rat

/-- r - m·p. -/
def FitRow.sub (r : FitRow) (m : Rat) (p : FitRow) : FitRow := ⟨List.zipWith (fun a b => a - m * b) r.vars p.vars, r.v - m * p.v⟩
def FitRow.scale (r : FitRow) (m : Rat) : FitRow := ⟨r.vars.map (fun a => a * m), r.v * m⟩
def FitRow.at' (r : FitRow) (i : Nat) : Rat := r.vars.getD i 0

/-- Add a row to a reduced basis, pivots with their rows: none when no coefficients satisfy both. -/
def addRow (basis : List (Nat × FitRow)) (r : FitRow) : Option (List (Nat × FitRow)) :=
  let q := basis.foldl (fun (q : FitRow) p => q.sub (q.at' p.1) p.2) r
  match (List.range q.vars.length).find? (fun i => q.at' i != 0) with
  | none => if q.v = 0 then some basis else none
  | some i =>
    let q1 := q.scale (1 / q.at' i)
    some ((i, q1) :: basis.map (fun p => (p.1, p.2.sub (p.2.at' i) q1)))

/-- A rational that is an integer below 2^24 in magnitude. -/
def coeff (x : Rat) : Option Int := if x.den = 1 ∧ limit24 x.num then some x.num else none

/-- The first answer of a search over 0, 1, -1, 2, -2, … -/
def searchInts {α : Type} (f : Int → Option α) : Nat → Nat → Option α
  | 0, _ => none
  | fuel + 1, n =>
    let z : Int := if n % 2 = 1 then Int.ofNat (n / 2 + 1) else -Int.ofNat (n / 2)
    match f z with
    | some x => some x
    | none => searchInts f fuel (n + 1)

/-- Integers for the places that a basis leaves free, each below 2^24 in magnitude and as near to 0 as the test allows, the first place
varied least (log 25). -/
def searchFree {α : Type} (f : List (Nat × Int) → Option α) : List Nat → List (Nat × Int) → Option α
  | [], vs => f vs
  | i :: rest, vs => searchInts (fun z => searchFree f rest ((i, z) :: vs)) (2 ^ 25 - 1) 0

/-- The value at a place: as searched, or what the basis makes of the searched ones. -/
def solvedAt (basis : List (Nat × FitRow)) (free : List (Nat × Int)) (i : Nat) : Option Int :=
  match free.find? (fun p => p.1 == i) with
  | some p => some p.2
  | none => match basis.find? (fun p => p.1 == i) with
    | some p => coeff (free.foldl (fun (v : Rat) q => v - p.2.at' q.1 * ((q.2 : Int) : Rat)) p.2.v)
    | none => some 0

/-- The anchor whose constant has the smallest magnitude, the lower number on a tie. -/
def bestAnchor (args : List DWord) (base : Int) : Option (Nat × Int) :=
  args.zipIdx.foldl (fun (m : Option (Nat × Int)) a =>
    let c := base - Int.ofNat a.1.toNat
    if !limit24 c then m
    else match m with
      | none => some (a.2, c)
      | some b => if c.natAbs < b.2.natAbs then some (a.2, c) else m) none

/-- The form that some values of the varying coefficients make, with its anchor. -/
def affineOf (args : List DWord) (o : Observed) (vars : List Nat) (basis : List (Nat × FitRow)) (free : List (Nat × Int)) :
    Option (Nat × PatForm) :=
  match allSome ((List.range vars.length).map (solvedAt basis free)) with
  | none => none
  | some cs =>
    let c (v : Nat) : Int := match (vars.zip cs).find? (fun p => p.1 == v) with
      | some p => p.2
      | none => 0
    (bestAnchor args (Int.ofNat o.addr.toNat - c 0 * o.team - c 1 * o.grp - c 2 * o.lane)).map (fun a =>
      (a.1, .affine a.2 (c 0) (c 1) (c 2)))

/-- The affine form that fits every access of a PC. Where the accesses leave a coefficient open, any value may do: all are tried. -/
def fitAffine (args : List DWord) (xs : List Observed) : Option (Nat × PatForm) :=
  match xs with
  | [] => none
  | o :: _ =>
    let vars := varying xs o
    let row (x : Observed) : FitRow :=
      ⟨vars.map (fun i => ((x.var i - o.var i : Int) : Rat)), ((Int.ofNat x.addr.toNat - Int.ofNat o.addr.toNat : Int) : Rat)⟩
    match xs.foldlM (fun basis x => addRow basis (row x)) [] with
    | none => none
    | some basis =>
      let open' := (List.range vars.length).filter (fun i => !basis.any (fun p => p.1 == i))
      searchFree (affineOf args o vars basis) open' []

/-! ## Indirect fits (R397) -/

/-- The words that the kernel's own loads returned. -/
abbrev LoadedWords := List (DWord × Word)

def loadedAt (ws : LoadedWords) (a : Int) : Option Int := (ws.find? (fun w => Int.ofNat w.1.toNat == a)).map (fun w => w.2.toInt)

/-- Every access of a PC is base + 2^e times the index at i + 4·(cG·group + lane), i being the index address of group 0, lane 0. -/
def indirectFits (ws : LoadedWords) (xs : List Observed) (i base : Int) (e : Nat) (cG : Int) : Bool :=
  xs.all (fun x => match loadedAt ws (i + 4 * (cG * x.grp + x.lane)) with
    | some w => Int.ofNat x.addr.toNat == base + 2 ^ e * w
    | none => false)

/-- A candidate and its rank: |c0|, j, |d0|, k, cG, e (log 25). -/
structure Indirect where
  anchor : Nat
  form : PatForm
  rank : List Nat

/-- Ranks in lexicographic order. -/
def rankLess : List Nat → List Nat → Bool
  | a :: s, b :: t => decide (a < b) || (a == b && rankLess s t)
  | [], _ => false
  | _ :: _, [] => false

/-- The candidates with an index word at one loaded address. -/
def indirectAt (args : List DWord) (ws : LoadedWords) (xs : List Observed) (o : Observed) (groups : List Int) (w : DWord × Word) : List Indirect :=
  groups.flatMap (fun cG => (List.range 8).filterMap (fun e =>
    let i := Int.ofNat w.1.toNat - 4 * (cG * o.grp + o.lane)
    let base := Int.ofNat o.addr.toNat - 2 ^ e * w.2.toInt
    if indirectFits ws xs i base e cG then
      match bestAnchor args base, bestAnchor args i with
      | some j, some k => some ⟨j.1, .indirect k.1 j.2 k.2 e cG, [j.2.natAbs, j.1, k.2.natAbs, k.1, cG.natAbs, e]⟩
      | _, _ => none
    else none))

/-- The page of an index word is not RAD. -/
def indexPageOpen (s : State) (x : Context) (a : DWord) : Bool := match place s x a with
  | .inl p => !p.leaf.rad
  | .inr _ => false

/-- The indirect form that fits every access of a PC. -/
def fitIndirect (s : State) (x : Context) (args : List DWord) (ws : LoadedWords) (xs : List Observed) : Option (Nat × PatForm) :=
  match xs with
  | [] => none
  | o :: _ =>
    let groups : List Int := if xs.all (fun y => y.grp == o.grp) then [0] else (List.range 33).map Int.ofNat
    let ok := ws.filter (fun w => indexPageOpen s x w.1)
    let cs := ok.flatMap (indirectAt args ok xs o groups)
    (cs.foldl (fun (m : Option Indirect) c => match m with
      | none => some c
      | some b => if rankLess c.rank b.rank then some c else m) none).map (fun c => (c.anchor, c.form))

/-! ## Pattern sets -/

/-- The observed accesses of a launch on every core. -/
def launchSeen (s : State) (l : Launch) : List Observed :=
  l.cores.flatMap (fun c => (s.core (Fin.ofNat 256 c)).observed.filter (fun o => o.launch == l.id))

def launchLoaded (s : State) (l : Launch) : LoadedWords :=
  l.cores.flatMap (fun c => ((s.core (Fin.ofNat 256 c)).loaded.filter (fun w => w.1 == l.id)).map Prod.snd)

/-- PCs, each once, ascending. -/
def pcsOf (xs : List Observed) : List Nat := xs.foldl (fun t o => setAdd t o.pc.toNat) []

/-- A launch's pattern set: none where it is unobservable or has no observed access (R397, R398). -/
def patternSet (s : State) (x : Context) (l : Launch) : Option (Nat × List Pattern) :=
  let xs := launchSeen s l
  let beyond := l.cores.any (fun c => (s.core (Fin.ofNat 256 c)).unobservable.contains l.id)
  if beyond || xs.isEmpty then none
  else
    let ws := launchLoaded s l
    some (l.args.length, (pcsOf xs).filterMap (fun pc =>
      let mine := xs.filter (fun o => o.pc.toNat == pc)
      let fit : Option (Nat × PatForm) := match fitAffine l.args mine with
        | some f => some f
        | none => fitIndirect s x l.args ws mine
      fit.map (fun f => Pattern.mk (BitVec.ofNat 64 pc) f.1 f.2)))

/-! ## Distillation (R399, R400) -/

/-- The instruction words of some instructions, as bytes. -/
def codeBytes (is : List Instr) : List Byte := is.flatMap (fun i => match encode i with
  | some (some p, w) => toLe (xpWord p).toNat 4 ++ toLe w.toNat 4
  | some (none, w) => toLe w.toNat 4
  | none => [])

/-- `SMOVI` of a 32-bit value, prefixed where its immediate needs it. -/
def smoviOf (r : Reg) (v : Word) : Instr :=
  if (v.setWidth 12).signExtend 32 = v then .smovi ⟨r, v.setWidth 12, none⟩
  else .smovi ⟨r, v.setWidth 12, some ((v >>> 12).setWidth 20)⟩

/-- The offsets from its anchor of the bytes an access read: its first and one past its last. -/
def anchorSpan (args : List DWord) (j : Nat) (o : Observed) : Int × Int :=
  let lo := Int.ofNat o.addr.toNat - Int.ofNat (args.getD j 0#64).toNat
  (lo, lo + o.bytes)

/-- The smallest interval over some spans. -/
def spanHull (l : List (Int × Int)) : Int × Int := match l with
  | [] => (0, 0)
  | p :: rest => rest.foldl (fun m q => (min m.1 q.1, max m.2 q.2)) p

/-- Pair register number of an argument. -/
def argReg (j : Nat) : Reg := BitVec.ofNat 6 (2 * j)

/-- A pair := an argument plus a constant, by way of the pair r. -/
def addConst (r d : Reg) (j : Nat) (c : Int) : List Instr :=
  let v := BitVec.ofInt 64 c
  [smoviOf r (v.setWidth 32), smoviOf (r + 1#6) ((v >>> 32).setWidth 32), .sadd64 ⟨d, argReg j, r⟩]

/-- The pair field of a GA word. -/
def pairField (r : Reg) : BitVec 5 := BitVec.ofNat 5 (r.toNat / 2)

/-- The sequence of one pattern (R400), from register r = 20 or 40 on. -/
def patternCode (args : List DWord) (r : Reg) (xs : List Observed) (p : Pattern) : List Instr :=
  match p.form with
  | .affine _ cT _ _ =>
    let h := spanHull (xs.map (fun o =>
      let sp := anchorSpan args p.anchor o
      (sp.1 - cT * o.team, sp.2 - cT * o.team)))
    addConst r (r + 2#6) p.anchor h.1 ++ [smoviOf (r + 4#6) (BitVec.ofInt 32 (h.2 - h.1))] ++
    (if cT = 0 then []
     else [smoviOf (r + 5#6) (BitVec.ofInt 32 cT), .smul ⟨r + 6#6, 48#6, r + 5#6⟩, .smulh ⟨r + 7#6, 48#6, r + 5#6⟩,
       .sadd64 ⟨r + 2#6, r + 2#6, r + 6#6⟩]) ++
    [.raf (pairField (r + 2#6)) (r + 4#6)]
  | .indirect k c0 d0 e cG =>
    let teams := xs.foldl (fun t o => setAdd t o.team) []
    let index (o : Observed) : Int := cG * o.grp + o.lane
    let most := (teams.map (fun t => ((xs.filter (fun o => o.team == t)).map index).eraseDups.length)).foldl max 0
    addConst r (r + 2#6) p.anchor c0 ++ addConst r (r + 4#6) k d0 ++
    [smoviOf (r + 6#6) (BitVec.ofNat 32 most), .rafg (pairField (r + 2#6)) (r + 4#6) (r + 6#6) (BitVec.ofNat 3 e)]

/-- The body: sequences in order of PC while they fit, and `EXIT`. -/
def bodyCode (args : List DWord) (xs : List Observed) (ps : List Pattern) : List Byte :=
  let r : Reg := if args.length ≤ 10 then 20#6 else 40#6
  let code (p : Pattern) : List Byte := codeBytes (patternCode args r (xs.filter (fun o => o.pc == p.pc)) p)
  (ps.foldl (fun (a : List Byte × Bool) p =>
    if a.2 && decide (a.1.length + (code p).length + 4 ≤ 3008) then (a.1 ++ code p, true) else (a.1, false)) ([], true)).1 ++ codeBytes [.exit]

/-- The bytes that patterns with an anchor predict, as addresses. -/
def predicted (xs : List Observed) (ps : List Pattern) (j : Nat) : List Nat :=
  (xs.filter (fun o => ps.any (fun p => p.pc == o.pc && p.anchor == j))).foldl (fun t o =>
    (List.range o.bytes).foldl (fun t i => setAdd t (o.addr.toNat + i)) t) []

/-- The anchor of the patterns that predict the most bytes, the lower number on a tie. -/
def mainAnchor (args : List DWord) (xs : List Observed) (ps : List Pattern) : Nat :=
  ((List.range args.length).foldl (fun (m : Nat × Nat) j =>
    let n := (predicted xs ps j).length
    if m.2 < n then (j, n) else m) (0, 0)).1

/-- Write a distilled program into a slot (R399). -/
def distil (s : State) (x : Context) (l : Launch) (slot : Nat) (h : SlotHeader) (ps : List Pattern) (run : Nat) : State :=
  let xs := launchSeen s l
  let j := mainAnchor l.args xs ps
  let kept := ps.filter (fun p => p.anchor == j)
  let bytes := predicted xs ps j
  let w := spanHull ((xs.filter (fun o => kept.any (fun p => p.pc == o.pc))).map (anchorSpan l.args j))
  let body := bodyCode l.args xs kept
  let h1 : SlotHeader :=
    { h with count := run, confidence := x.threshold, flags := 0#8, windowArg := BitVec.ofNat 8 j, reserved := 0#8
             low := BitVec.ofInt 64 w.1, high := BitVec.ofInt 64 w.2
             budget := min (128 * (linesOf bytes).length) (2 ^ 24), bodyLen := body.length, issued := 0, clipped := 0, suppressed := 0 }
  fwWrite (writeHeader s x slot h1) (slotAddr x slot + 0x40) (body ++ toLe 0 (3008 - body.length))

/-! ## The update at a launch's end (R393, R398, R399, R401) -/

/-- An unpinned slot at confidence 0: emptied but for its identity (R401). -/
def emptySlot (s : State) (x : Context) (slot : Nat) (identity : Nat) : State :=
  let s1 := clearSlotAt s x slot
  fwWrite (setObs s1 x.id slot none) (slotAddr x slot) (toLe identity 16)

/-- The observations of a launch on a slot with a body (R398, R401). -/
def rateSlot (s : State) (x : Context) (slot : Nat) (h : SlotHeader) (o : LeapObs) (ps : Nat × List Pattern) : State :=
  if o.patterns.isNone && !ps.2.isEmpty then setObs (writeHeader s x slot h) x.id slot (some { o with patterns := some ps })
  else
    let agrees := !ps.2.isEmpty && o.patterns == some ps
    let conf := if agrees then min 15 (h.confidence + 1) else h.confidence - 1
    if conf = 0 && !h.flags.getLsbD 0 then emptySlot s x slot h.identity
    else writeHeader s x slot { h with count := (h.count + 1) % 2 ^ 32, confidence := conf }

/-- The observations of a launch on an empty slot (R399). -/
def learnSlot (s : State) (x : Context) (l : Launch) (slot : Nat) (h : SlotHeader) (o : LeapObs) (ps : Nat × List Pattern) : State :=
  let agrees := !ps.2.isEmpty && o.patterns == some ps
  let run := if agrees then o.run + 1 else 1
  let s1 := setObs s x.id slot (some ⟨some ps, run⟩)
  let h1 := { h with count := (h.count + 1) % 2 ^ 32 }
  if !ps.2.isEmpty && decide (x.threshold ≤ run) && !h.flags.getLsbD 0 then distil s1 x l slot h1 ps.2 run
  else writeHeader s1 x slot h1

/-- The header with a launch's counts added (R392, R393, R403). -/
def addCounts (h : SlotHeader) (l : Launch) : SlotHeader :=
  { h with issued := (h.issued + l.issued) % 2 ^ 64, clipped := (h.clipped + l.clipped) % 2 ^ 32
           suppressed := (h.suppressed + l.suppressed) % 2 ^ 32, flags := if l.stopped then h.flags ||| 8#8 else h.flags }

/-- The slot an ended launch adds to: its identity's, or a new one where it was observed (R391; log 26). -/
def updateSlot (s : State) (x : Context) (identity : BitVec 128) (seen : Bool) : Option (State × Nat) :=
  match findSlot s x identity with
  | some i => some (s, i)
  | none => if seen then takeSlot s x identity else none

/-- Add an ended launch's counts and observations to its slot. -/
def updateLeap (s : State) (x : Context) (l : Launch) (b : LaunchBlock) : State :=
  if !l.observed || l.voided then s
  else
    let ps := patternSet s x l
    match updateSlot s x b.identity ps.isSome with
    | none => s
    | some r =>
      let h := addCounts (readHeader r.1 x r.2) l
      match ps, r.1.ctx? x.id with
      | some p, some y =>
        let o := (tableFind y.leap r.2).getD ⟨none, 0⟩
        if h.bodyLen = 0 then learnSlot r.1 y l r.2 h o p else rateSlot r.1 y r.2 h o p
      | _, _ => writeHeader r.1 x r.2 h

/-- The observers let a launch's records go. -/
def forgetLaunch (s : State) (l : Launch) : State :=
  l.cores.foldl (fun s c =>
    let c := Fin.ofNat 256 c
    let k := s.core c
    s.setCore c { k with
      observed := k.observed.filter (fun o => o.launch != l.id), loaded := k.loaded.filter (fun w => w.1 != l.id)
      unobservable := setDel k.unobservable l.id, filled := k.filled.filter (fun f => f.1 != l.id) }) s

end Sys2Proof.Machine
end

