-- ==== Sys2Proof/Machine/Distribute.lean ====
section
/-! DEFINITION. Launches and the distributors: accepting a launch (R360, R362, R393), where a team fits and goes (R363 to
R365), core-store splits and draining cores (R366, R367), a team's first state (R8, R19, R45, R262), and leap groups (R402).
-/

namespace Sys2Proof.Machine

/-! ## Accepting a launch -/

/-- The class of a launch: the lower of its block's and its context's (R362). -/
def launchClass (x : Context) (b : LaunchBlock) : Nat := min b.prio x.prioLimit

/-- Hand a launch to the package distributor. -/
def acceptLaunch (s : State) (x : Context) (module block grid : Nat) (args : List DWord) (kind : LaunchKind) (seq : Nat)
    (b : LaunchBlock) : State :=
  let l : Launch :=
    { id := s.fresh, ctx := x.id, seq := seq, module := module, block := block, grid := grid, args := args
      prio := launchClass x b, kind := kind, nextTeam := 0, ended := 0, exitRecords := 0, trapped := false, discarded := false
      observed := b.leap != 0xFFFFFFFE#32, image := leapImage s x b, cores := [], issued := 0, clipped := 0, suppressed := 0
      stopped := false, voided := false }
  { s with launches := s.launches ++ [l], fresh := s.fresh + 1 }

/-- The launch block of a launchable kernel (R114). -/
def kernelOf (s : State) (ctx module block : Nat) : Option LaunchBlock :=
  (s.modules.find? (fun m => m.handle == module && m.ctx == ctx && m.launchable)).bind (fun m => m.kernels[block]?)

/-! ## A group's first state (R45, R8) -/

/-- The uniform registers with argument doublewords in pairs from s0 on (R8). -/
def argRegs (args : List DWord) : Vector Word 64 :=
  Vector.ofFn (fun i : Fin 64 =>
    let x := args.getD (i.val / 2) 0#64
    if i.val % 2 = 0 then x.setWidth 32 else (x >>> 32).setWidth 32)

def Window.zero : Window := ⟨0#6, 0#7⟩

def firstView (args : List DWord) (fpc part : Word) : View :=
  { s := argRegs args, k := Vector.replicate 8 0#32, w := Vector.replicate 4 Window.zero, scc := ⟨false, false, false, false, false⟩
    rm := fpc.extractLsb' 0 2, en := fpc.extractLsb' 4 4, part := part }

/-- One gang of all eight slices. -/
def firstFrag (pc : DWord) (v : View) : Frag :=
  { slices := 0xFF#8, pc := pc, status := .ready, view := v, written := Written.empty, pending := [], held := .no
    halted := false, resume := 0, waited := 0, overdue := none, issued := none, passed := [], ahead := [], behind := false, late := false }

/-- A group as it becomes resident. -/
def firstGroup (uid ctx launch : Nat) (team : Option Nat) (grpid : Nat) (role : Role) (budget prio : Nat) (f : Frag) (fpc : Word) : Group :=
  { uid := uid, ctx := ctx, launch := launch, team := team, grpid := grpid, role := role, budget := budget, prio := prio
    frags := (Vector.replicate 8 none).set 0 (some f), v := Vector.replicate 64 none, x := Vector.replicate 8 (Lanes.all 0#8)
    cc := ⟨0#32, 0#32, 0#32, 0#32⟩, hv := Vector.replicate 8 VReg.zero, hs := Vector.replicate 8 0#32
    sticky := fpc.extractLsb' 8 5, removed := 0#32, killSet := 0#64, handler := none, reissue := none, epoch := 0, batch := 1#32, timeFloor := 0 }

/-! ## Where a team fits (R364, R367) -/

def Core.groups (k : Core) : List Group := k.slots.toList.filterMap id
def Core.occupancy (k : Core) : Nat := k.groups.length
def Core.freeSlots (k : Core) : Nat := 64 - k.occupancy
def Core.budgets (k : Core) : Nat := (k.groups.map (fun g => g.budget)).sum

/-- The budget of a team, over its roles. -/
def LaunchBlock.budget (b : LaunchBlock) : Nat := (b.roles.map (fun r => r.groups * r.budget)).sum

/-- Scratchpad of the teams of a core. -/
def State.padUsed (s : State) (c : Fin 256) : Nat := ((s.teams.filter (fun t => t.core == c)).map (fun t => t.scratchSize)).sum

/-- Reservations fit a split (R364). -/
def reservesFit (sp : Split) (regs pad : Nat) : Bool :=
  decide (regs ≤ 512 * sp.regs - 1024) && decide (pad ≤ 65536 * sp.scratch)

/-- A split is compatible with a core that holds some reservations (R366, R367). -/
def splitFits (s : State) (c : Fin 256) (sp : Split) : Bool :=
  let k := s.core c
  match k.split with
  | none => true
  | some o =>
    k.occupancy == 0 || o == sp ||
    (decide (sp.regs ≤ o.regs) && decide (sp.scratch ≤ o.scratch) && reservesFit sp k.budgets (s.padUsed c))

/-- A team fits on a core (R364). -/
def teamFits (s : State) (b : LaunchBlock) (c : Fin 256) : Bool :=
  let k := s.core c
  !k.fenced && k.draining.isNone && decide (b.groups ≤ k.freeSlots) && splitFits s c b.split &&
  reservesFit b.split (k.budgets + b.budget) (s.padUsed c + b.scratch)

/-- The cores of a die, ascending. -/
def dieCores (d : Nat) : List (Fin 256) := (List.finRange 256).filter (fun c => (dieOf c).val == d)

/-- The core of least occupancy among some, the lowest on a tie (R365). -/
def leastOccupied (s : State) (cs : List (Fin 256)) : Option (Fin 256) :=
  cs.foldl (fun (m : Option (Fin 256)) c => match m with
    | none => some c
    | some d => if (s.core c).occupancy < (s.core d).occupancy then some c else m) none

/-- The dies in the order in which a team is offered (R363). -/
def dieOrder (s : State) : List Nat := (List.range 4).map (fun i => (s.diePointer + i) % 4)

/-- The core a team goes to, and the die that takes it (R363, R365). -/
def chooseCore (s : State) (b : LaunchBlock) : Option (Nat × Fin 256) :=
  (dieOrder s).findSome? (fun d => (leastOccupied s ((dieCores d).filter (teamFits s b))).map (fun c => (d, c)))

/-! ## Placing (R365) -/

def Core.occupiedIn (k : Core) (q : Nat) : Nat := ((List.finRange 64).filter (fun i => i.val / 16 == q && k.slots[i].isSome)).length

/-- The quarter with the fewest occupied slots, the lowest on a tie. -/
def Core.emptiest (k : Core) : Nat := [1, 2, 3].foldl (fun q p => if k.occupiedIn p < k.occupiedIn q then p else q) 0

/-- The lowest free slot of a quarter. -/
def Core.freeIn (k : Core) (q : Nat) : Option (Fin 64) := (List.finRange 64).find? (fun i => i.val / 16 == q && k.slots[i].isNone)

/-- Give a group a slot of the emptiest quarter. -/
def Core.seat (k : Core) (g : Group) : Core := match k.freeIn k.emptiest with
  | some i => k.setSlot i (some g)
  | none => k

/-- The role entry of each group, in `GRPID` order (R17). -/
def LaunchBlock.members (b : LaunchBlock) : List RoleEntry := b.roles.flatMap (fun r => List.replicate r.groups r)

/-- The 32 bytes of a work-graph record (R378). -/
def recordBytes (r : NodeRecord) : List Byte :=
  toLe r.core 2 ++ toLe r.group 1 ++ toLe r.lane 1 ++ toLe r.team.toNat 4 ++ toLe r.round 4 ++ toLe r.node 2 ++
  [if r.overflow then 1#8 else 0#8, 0#8] ++ r.payload.toList.flatMap (fun w => toLe w.toNat 4)

/-- A team's scratchpad before its first instruction (R262, R380). -/
def firstPad (l : Launch) : List Host.Cell := match l.kind with
  | .node _ rs _ => bytesWrite [] 0 (rs.flatMap recordBytes)
  | .host => []
  | .task _ _ => []

/-- Start a launch's leap group on a core, if there is room (R402). -/
def startLeap (s : State) (x : Context) (l : Launch) (c : Fin 256) (team : Word) : State :=
  match l.image with
  | none => s
  | some im =>
    let k := s.core c
    let regs := match k.split with
      | some sp => sp.regs
      | none => 0
    if k.freeSlots = 0 || decide (512 * regs - 1024 < k.budgets + 8) then s
    else
      let v := firstView l.args 0#32 32#32
      let v1 := { v with s := regSet (regSet v.s 48#6 team) 49#6 (BitVec.ofNat 32 l.grid) }
      let pc := BitVec.ofNat 64 (slotAddr x im.slot + 0x40)
      let g := firstGroup s.fresh x.id l.id none 0xFF .copy 8 0 (firstFrag pc v1) 0#32
      { s.setCore c (k.seat g) with fresh := s.fresh + 1 }

/-- A context's time slice begins with its first resident team (log 19). -/
def beginSlice (s : State) (ctx : Nat) : State :=
  if s.teams.any (fun t => (s.launch? t.launch).any (fun l => l.ctx == ctx)) then s
  else match s.ctx? ctx with
    | some x => s.setCtx { x with sliceFrom := s.now }
    | none => s

/-- Make a launch's next team resident on a core (R365, R366). It sees all that came before, as after an acquire (R329, R373, R380). -/
def placeTeam (s0 : State) (x : Context) (l : Launch) (b : LaunchBlock) (d : Nat) (c : Fin 256) : State :=
  let s := selfInvalidate (beginSlice s0 x.id) c
  let tid := BitVec.ofNat 32 l.nextTeam
  let u := s.fresh
  let ms := b.members
  let team : Team :=
    { uid := u, launch := l.id, teamid := tid, core := c, groups := b.groups, roles := ms.map (fun m => m.role)
      scratch := firstPad l, scratchSize := b.scratch, scratchPoison := [], exited := 0#32, masks := Vector.replicate 32 0#32
      cause := 0#8, causeGroup := 0xFF#8, second := 0#8, frame := 0#64, moving := none }
  let k := ms.zipIdx.foldl (fun (k : Core) m =>
    k.seat (firstGroup (u + 1 + m.2) x.id l.id (some u) m.2 m.1.role m.1.budget l.prio
      (firstFrag m.1.entry (firstView l.args b.fpc b.part)) b.fpc)) { s.core c with split := some b.split }
  let first := !l.cores.contains c.val
  let l1 := { l with nextTeam := l.nextTeam + 1, cores := if first then l.cores ++ [c.val] else l.cores }
  let s1 := { (s.setCore c k).setLaunch l1 with
    teams := s.teams ++ [team], fresh := u + 1 + ms.length, diePointer := (d + 1) % 4 }
  let s2 := if first then startLeap s1 x l1 c tid else s1
  match l.kind with
  | .node _ _ _ => s2
  | .host | .task _ _ => if l1.nextTeam = l1.grid then runEntry s2 (some x.id) l.seq else s2

/-! ## Draining cores (R367) -/

/-- The cores of a die that the split keeps a team from. One that drains for any launch is not marked again (R367; log 52). -/
def incompatible (s : State) (b : LaunchBlock) (d : Nat) : List (Fin 256) :=
  (dieCores d).filter (fun c => !(s.core c).fenced && (s.core c).draining.isNone && !splitFits s c b.split)

/-- A die holds a core draining for a launch. -/
def dieDrains (s : State) (launch d : Nat) : Bool := (dieCores d).any (fun c => (s.core c).draining.any (fun d => d.1 == launch))

/-- No die took the team: the first die that can marks one core draining. -/
def markDraining (s : State) (l : Launch) (b : LaunchBlock) : State :=
  match (dieOrder s).find? (fun d => !dieDrains s l.id d && !(incompatible s b d).isEmpty) with
  | none => s
  | some d => match leastOccupied s (incompatible s b d) with
    | none => s
    | some c => settleDraining (s.setCore c { s.core c with draining := some (l.id, b.split) }) c

/-! ## The package distributor (R361) -/

/-- The launch has a team to place and its context may place (R381). -/
def placeable (s : State) (l : Launch) : Bool :=
  decide (l.nextTeam < l.grid) && (match s.ctx? l.ctx with
    | some x => !x.preempt && !x.parked
    | none => false)

/-- Pending launches in order: class descending, then acceptance. -/
def placeOrder (s : State) : List Launch :=
  [7, 6, 5, 4, 3, 2, 1, 0].flatMap (fun p => s.launches.filter (fun l => l.prio == p && placeable s l))

/-- Offer the next team of each launch in turn, until one is placed. -/
def placeFirst : List Launch → State → State
  | [], s => s
  | l :: rest, s => match s.block? l, s.ctx? l.ctx with
    | some b, some x => match chooseCore s b with
      | some dc => placeTeam s x l b dc.1 dc.2
      | none => placeFirst rest (markDraining s l b)
    | _, _ => placeFirst rest s

/-- The distributor places one team, where one fits. -/
def placeNext (s : State) : State := placeFirst (placeOrder s) s

end Sys2Proof.Machine
end

