-- ==== Sys2Proof/Machine/Tasks.lean ====
section
/-! DEFINITION. Tasks: control blocks (R372), `TSUB` and submission (R373), how a task's launch ends (R374), speculation and
its settling (R375 to R377).
-/

namespace Sys2Proof.Machine

/-! ## Control blocks (R372) -/

def taskField (s : State) (a off n : Nat) : Nat := fwRead s (a + off) n
def setTaskField (s : State) (a off n v : Nat) : State := fwWrite s (a + off) (toLe v n)
def taskState (s : State) (a : Nat) : Nat := taskField s a 0x0C 1
def setTaskState (s : State) (a v : Nat) : State := setTaskField s a 0x0C 1 v
def taskPreds (s : State) (a : Nat) : Nat := taskField s a 4 4

/-- A malformed block. -/
def taskMalformed (s : State) (x : Context) (a : Nat) : Bool :=
  let f := taskField s a
  (kernelOf s x.id (f 0 2) (f 2 2)).isNone || f 8 4 == 0 || decide (65535 < f 4 4) || decide (16 < f 0x0E 1) || decide (4 < f 0x0F 1) ||
  decide (8 < f 0x10 1) || decide (8 < f 0x11 1) || decide (1 < f 0x0D 1) || f 0x12 2 != 0 ||
  (taskReads s a ++ taskWrites s a).any (fun n => (tableFind x.buffers n).isNone)

/-- A successor's physical address. -/
def blockPlace (s : State) (x : Context) (va : Nat) : Option Nat := match place s x (BitVec.ofNat 64 va) with
  | .inl p => some p.pa
  | .inr _ => none

/-! ## Launching a task -/

/-- A journal entry for a launch that no host command made; where the journal has no room the number is used without one (log 21). -/
def taskEntry (s : State) (x : Context) : State × Nat :=
  match appendEntry s (some x.id) x.firstQueue 0x09 0 0 with
  | some r => r
  | none =>
    let j := s.journal (some x.id)
    (s.setJournal (some x.id) { j with next := j.next + 1 }, j.next)

/-- Launch a block's kernel, with the journal number of its `TASK_SUBMIT` or a new one. -/
def launchTask (s : State) (x : Context) (a : Nat) (spec : Bool) (seq : Option Nat) : State :=
  let f := taskField s a
  match kernelOf s x.id (f 0 2) (f 2 2) with
  | none => s
  | some b =>
    let r := match seq, tableFind x.submitted a with
      | some q, _ => (s, q)
      | none, some q => (s.setCtx { x with submitted := x.submitted.filter (fun p => p.1 != a) }, q)
      | none, none => taskEntry s x
    let args := (List.range (f 0x0F 1)).map (fun i => BitVec.ofNat 64 (f (0x60 + 8 * i) 8))
    acceptLaunch (setTaskField r.1 a 0x18 8 r.2) x (f 0 2) (f 2 2) (f 8 4) args (.task a spec) r.2 b

/-- Record the versions of a block's read set (R373). -/
def recordVersions (s : State) (x : Context) (a : Nat) : State :=
  (taskReads s a).zipIdx.foldl (fun s n =>
    setTaskField s a (0x40 + 4 * n.2) 4 (match tableFind x.buffers n.1 with
      | some b => b.version.toNat
      | none => 0)) s

/-- Submit a block (R373): whether it was taken, in one indivisible step. -/
def submitTask (s : State) (x : Context) (a : Nat) (seq : Option Nat) : State × Bool :=
  if taskState s a ≠ 0 ∨ taskMalformed s x a then (s, false)
  else if taskPreds s a = 0 then (launchTask (setTaskState s a 2) x a false seq, true)
  else if taskField s a 0x0D 1 % 2 = 1 then (launchTask (setTaskState (recordVersions s x a) a 3) x a true seq, true)
  else
    let s1 := setTaskState s a 1
    (match seq, s1.ctx? x.id with
      | some q, some y => s1.setCtx { y with submitted := tablePut y.submitted a q }
      | _, _ => s1, true)

/-! ## TSUB -/

def execTsub (a : Reg) (s : State) : Host.Outcome State Fault Refusal :=
  onFragment s (.tsub a) .control (fun h =>
    let i : Instr := .tsub a
    match gatherRange h.lanes [check1 s h .task .mustThaw 256 256 (h.sp a)] with
    | .trap t => trapOf s h i t
    | .wait w => s.put (h.stay w (passedAt s h 256 [h.sp a]))
    | .ok ps => afterRelease s h .pkg (passedAt s h 256 [h.sp a]) (fun s => match s.ctx? h.g.ctx with
      | some x =>
        let r := submitTask s x (ps.headD Place.none).pa none
        next r.1 (h.setZ (!r.2)) i
      | none => next s (h.setZ true) i))

/-! ## Ends (R374 to R377) -/

def addJob (s : State) (ctx : Nat) (j : TaskJob) : State := match s.ctx? ctx with
  | some x => s.setCtx { x with jobs := x.jobs ++ [j] }
  | none => s

/-- One predecessor less; a block whose count reaches 0 acts by its state (R374). -/
def decrementPreds (s : State) (ctx a : Nat) : State :=
  let n := taskPreds s a
  if n = 0 then s
  else
    let s1 := setTaskField s a 4 4 (n - 1)
    if 1 < n then s1
    else match taskState s1 a, s1.ctx? ctx with
      | 1, some x => launchTask (setTaskState s1 a 2) x a false none
      | 4, some _ => addJob s1 ctx ⟨a, .settle⟩
      | _, _ => s1

/-- A task has retired: state 5, and one predecessor less for each successor (R374). -/
def retireTask (s : State) (ctx a : Nat) : State :=
  let s1 := setTaskState s a 5
  (List.range (taskField s1 a 0x0E 1)).foldl (fun s i => match (s.ctx? ctx).bind (fun x => blockPlace s x (taskField s a (0x80 + 8 * i) 8)) with
    | some b => decrementPreds s ctx b
    | none => s) s1

/-- A buffer's shadow backing takes the bytes of the live one, and their poison (R218, R377). -/
def restoreShadow (s : State) (b : PublishBuffer) : State :=
  let at' := List.range b.size
  let s1 := noteDevice (at'.foldl (fun s i => fwSetByte s (b.shadow + i) (homeByte s (b.live + i))) s) (at'.map (fun i => b.shadow + i))
  settlePoison s1 (at'.map (fun i => b.shadow + i)) ((at'.filter (fun i => s.poisoned (b.live + i) 1)).map (fun i => b.shadow + i))

/-- A discarded speculative task: the shadows take the live bytes, and it is launched anew (R376, R377). -/
def relaunchTask (s : State) (ctx a : Nat) : State :=
  match s.ctx? ctx with
  | none => s
  | some x =>
    let s1 := (taskWrites s a).foldl (fun s n => match tableFind x.buffers n with
      | some b => restoreShadow s b
      | none => s) s
    let s2 := setTaskState (setTaskField s1 a 0x14 4 ((taskField s1 a 0x14 4 + 1) % 2 ^ 32)) a 2
    match s2.ctx? ctx with
    | some y => launchTask (s2.setCtx { y with doomed := setDel y.doomed a }) y a false none
    | none => s2

/-- Every buffer of a block has its recorded version (R376). -/
def versionsHold (s : State) (x : Context) (a : Nat) : Bool :=
  (taskReads s a).zipIdx.all (fun n => match tableFind x.buffers n.1 with
    | some b => b.version.toNat == taskField s a (0x40 + 4 * n.2) 4
    | none => false)

/-- One step of a job: what it becomes, none when it is over. -/
def jobStep (s : State) (ctx : Nat) (j : TaskJob) : State × Option TaskJob :=
  match s.ctx? ctx with
  | none => (s, none)
  | some x => match j.todo with
    | .settle =>
      if (taskReads s j.addr ++ taskWrites s j.addr).any (fun n => match tableFind x.buffers n with
          | some b => b.publishing
          | none => false) then (s, some j)
      else if versionsHold s x j.addr && !x.doomed.contains j.addr then (s, some { j with todo := .publish (taskWrites s j.addr) false })
      else (relaunchTask s ctx j.addr, none)
    | .publish [] _ => (retireTask s ctx j.addr, none)
    | .publish (n :: rest) false => match takePublish s ctx n with
      | some s1 => (s1, some { j with todo := .publish (n :: rest) true })
      | none => (s, some j)
    | .publish (n :: rest) true =>
      if bufferBusy s ctx n then (s, some j)
      else
        let s1 := stopGrants s ctx n
        match publishPoint? s1 ctx n 0 with
        | some s2 => (s2, some { j with todo := .publish rest false })
        | none => (s1, some j)

/-- Steps of one job, as far as it comes; `fuel` at most. -/
def runJob (ctx : Nat) : Nat → State → TaskJob → State × Option TaskJob
  | 0, s, j => (s, some j)
  | fuel + 1, s, j => match jobStep s ctx j with
    | (s1, none) => (s1, none)
    | (s1, some k) => if k = j then (s1, some j) else runJob ctx fuel s1 k

/-- Every job of a context goes as far as it can. -/
def pumpJobs (s : State) (ctx : Nat) : State := match s.ctx? ctx with
  | none => s
  | some x =>
    x.jobs.foldl (fun s j =>
      let r := runJob ctx 40 s j
      match r.2 with
      | some k => addJob r.1 ctx k
      | none => r.1) (s.setCtx { x with jobs := [] })

/-- A task's launch has ended (R374 to R376). -/
def endTask (s : State) (ctx a : Nat) (spec bad : Bool) : State :=
  match spec, bad with
  | false, false => addJob s ctx ⟨a, .publish (taskWrites s a) false⟩
  | false, true => setTaskState s a 6
  | true, bad =>
    let s1 := setTaskState s a 4
    let s2 := match s1.ctx? ctx with
      | some x => if bad then s1.setCtx { x with doomed := setAdd x.doomed a } else s1
      | none => s1
    if taskPreds s2 a = 0 then addJob s2 ctx ⟨a, .settle⟩ else s2

end Sys2Proof.Machine
end

