-- ==== Sys2Proof/Machine/Schedule.lean ====
section
/-! DEFINITION. The distributors' events: placement (R361), migration (R41 to R44), the end of a launch (R329, R374, R393), time
slices and deadlines (R381, R382), and stall samples (R369, R370).
-/

namespace Sys2Proof.Machine

/-- `TEAM_PLACEMENT`. -/
def execTeamPlacement (s : State) : Host.Outcome State Fault Refusal := .next (placeNext s)

/-! ## Migration (R41 to R44) -/

/-- A page at one of some addresses is in transition. -/
def inTransition (x : Context) (addrs : List Nat) : Bool :=
  addrs.any (fun a => x.bias.any (fun b => decide (b.va ≤ a) && decide (a < b.va + b.size)))

/-- A fragment's wait is one a team may move on, and it is not over (R41, R44); of `WAITB` the copies have completed first. -/
def mayMoveOn (s : State) (t : Team) (g : Group) (f : Frag) : Bool := match f.status with
  | .exited => true
  | .waiting .bar => true
  | .waiting (.batch n) => !batchBusy s g.uid (fun m => m != g.batch && decide ((n - m).toNat < 2 ^ 31))
  | .waiting (.stage a ph) => stagePhase (padWord t a) != ph
  | .waiting (.bias addrs) => (match s.ctx? g.ctx with
    | some x => inTransition x addrs
    | none => false)
  | .ready | .waiting _ => false

/-- The groups of a team with their slots. -/
def teamGroups (s : State) (t : Team) : List (Fin 64 × Group) :=
  ((s.core t.core).groupsOf t.uid).filterMap (fun i => ((s.core t.core).slots[i]).map (fun g => (i, g)))

/-- R41's conditions on a team. -/
def mayMove (s : State) (t : Team) : Bool :=
  let gs := teamGroups s t
  let e := (s.core t.core).engine
  t.moving.isNone &&
  gs.all (fun g => g.2.frags.toList.all (fun o => match o with
    | some f => mayMoveOn s t g.2 f
    | none => true) && g.2.handler.isNone && e.owner != some g.2.uid && !e.queue.contains g.2.uid && !e.held.contains g.2.uid) &&
  !s.copies.any (fun c => c.team == t.uid && !c.out)

/-- Groups take free slots of their own quarters (R15). -/
def seatSame (k : Core) : List (Fin 64 × Group) → Option Core
  | [] => some k
  | (i, g) :: rest => match k.freeIn (i.val / 16) with
    | some j => seatSame (k.setSlot j (some g)) rest
    | none => none

/-- A group on a new core: its epoch has ended and its registers are not named (R42). -/
def movedGroup (g : Group) : Group :=
  { g with epoch := g.epoch + 1, v := Vector.ofFn (fun i : Fin 64 => (g.v[i]).map (fun r => { r with serial := none })) }

/-- The work of a release by each of a team's groups (R43, R319): `REDG`s are applied, `MLOOP` operands read, and dirty bytes registered. -/
def releaseTeam (s : State) (t : Team) : State :=
  let gs := teamGroups s t
  let s1 := if (s.core t.core).engine.runs.any (fun r => r.team == t.uid) then drainEngine s t.core else s
  gs.foldl (fun s g => registerAll (drainRedgs s g.2.uid) ⟨t.core, g.2.uid, g.2.launch, false⟩) s1

/-- A core receives its first team of a launch: its leap group starts there (R402). -/
def firstTeam (s : State) (t : Team) (dest : Fin 256) : State := match s.launch? t.launch with
  | none => s
  | some l =>
    if l.cores.contains dest.val then s
    else
      let l1 := { l with cores := l.cores ++ [dest.val] }
      match s.ctx? l.ctx with
      | some x => startLeap (s.setLaunch l1) x l1 dest t.teamid
      | none => s.setLaunch l1

/-- Take a team off its core, its release begun, and seat it on another; it goes on when it arrives. -/
def beginMove (s : State) (t : Team) (b : LaunchBlock) (dest : Fin 256) : State :=
  let s1 := releaseTeam s t
  let gs := teamGroups s1 t
  match seatSame { s1.core dest with split := some b.split } (gs.map (fun g => (g.1, movedGroup g.2))) with
  | none => s
  | some k =>
    let s2 := gs.foldl (fun s g => s.clearSlot t.core g.1) s1
    let s3 := (s2.setCore dest k).setTeam { t with core := dest, moving := some t.core }
    settleDraining (firstTeam s3 t dest) t.core

/-- `TEAM_MIGRATION`: the distributor begins to move a waiting team. -/
def execTeamMigration (team : Nat) (dest : Fin 256) (s : State) : Host.Outcome State Fault Refusal :=
  .next (match s.team? team with
    | none => s
    | some t => match (s.launch? t.launch).bind s.block? with
      | none => s
      | some b => if mayMove s t && dest != t.core && teamFits s b dest then beginMove s t b dest else s)

/-- `TEAM_MOVE_ARRIVAL`: the release of a move is complete, and the groups acquire on the new core (R43, R44). -/
def execTeamMoveArrival (team : Nat) (s : State) : Host.Outcome State Fault Refusal :=
  .next (match s.team? team with
    | none => s
    | some t =>
      match t.moving with
      | none => s
      | some old =>
        if s.writes.any (fun w => w.core == old) || s.copies.any (fun c => c.team == t.uid) then s
        else selfInvalidate (s.setTeam { t with moving := none }) t.core)

/-! ## The end of a launch (R329) -/

/-- Every team has ended, and nothing the grid sent is still on its way. -/
def launchQuiet (s : State) (l : Launch) : Bool :=
  l.nextTeam == l.grid && l.ended == l.grid && !s.redgs.any (fun r => r.launch == l.id) &&
  !s.emits.any (fun e => e.launch == l.id) && !s.copies.any (fun c => c.launch == l.id)

/-- The final state of a launch's journal entry (R202, R382, R419). -/
def launchState (l : Launch) : JState := if l.discarded then .resetDiscarded else if l.trapped then .failed else .done

/-- The launch is done: its slot is updated, its entry is final, its task ends. -/
def finishLaunch (s : State) (l : Launch) : State :=
  let s1 := match s.ctx? l.ctx, s.block? l with
    | some x, some b => updateLeap s x l b
    | _, _ => s
  let s2 := forgetLaunch (l.cores.foldl (fun s c => endLeap s (Fin.ofNat 256 c) l.id) s1) l
  let s3 := { s2 with launches := s2.launches.filter (fun x => x.id != l.id) }
  match l.kind with
  | .host => endEntry s3 (some l.ctx) l.seq (launchState l) 0
  | .node _ _ _ => s3
  | .task a spec => endTask (endEntry s3 (some l.ctx) l.seq (launchState l) 0) l.ctx a spec (l.trapped || l.discarded)

/-- `LAUNCH_DONE`: the grid's dirty bytes are registered, and when every write is complete the launch is done. -/
def execLaunchDone (launch : Nat) (s : State) : Host.Outcome State Fault Refusal :=
  .next (match s.launch? launch with
    | none => s
    | some l =>
      if !launchQuiet s l then s
      else
        let s1 := l.cores.foldl (fun s c => registerAll s ⟨Fin.ofNat 256 c, 0, l.id, false⟩) s
        if s1.writes.any (fun w => w.launch == l.id || l.cores.contains w.core.val) then s1 else finishLaunch s1 l)

/-! ## Pre-emption (R381, R382) -/

/-- A pre-emption request on a context: its deadline timer starts. -/
def requestPreempt (s : State) (ctx : Nat) : State := match s.ctx? ctx with
  | none => s
  | some x => settlePark (if x.preempt then s else s.setCtx { x with preempt := true, deadlineLeft := x.deadlineNs }) ctx

/-- The context may place teams again. -/
def resumePark (s : State) (ctx : Nat) : State := match s.ctx? ctx with
  | none => s
  | some x => s.setCtx { x with preempt := false, parked := false }

/-- The highest class among a context's launches. -/
def contextClass (s : State) (ctx : Nat) : Nat := ((s.launches.filter (fun l => l.ctx == ctx)).map (fun l => l.prio)).foldl max 0

/-- `TIME_SLICE_EXPIRY`: once the slice has lasted its time it ends and the next begins (log 19). Parked contexts may place again,
and a request is raised when another context of the same or a higher class has a pending launch. -/
def execTimeSliceExpiry (ctx : Nat) (s : State) : Host.Outcome State Fault Refusal :=
  .next (match s.ctx? ctx with
    | none => s
    | some x =>
      if x.sliceNs = 0 ∨ s.now < x.sliceFrom + x.sliceNs then s
      else
        let s0 := s.setCtx { x with sliceFrom := s.now }
        let parked := s0.contexts.filter (fun y => y.id != ctx && y.parked)
        let s1 := parked.foldl (fun s y => resumePark s y.id) s0
        if s1.launches.any (fun l => l.ctx != ctx && decide (l.nextTeam < l.grid) && decide (contextClass s1 ctx ≤ l.prio))
        then requestPreempt s1 ctx else s1)

/-- The resident teams of a context. -/
def contextTeams (s : State) (ctx : Nat) : List Team := s.teams.filter (fun t => match s.launch? t.launch with
  | some l => l.ctx == ctx
  | none => false)

/-- The leap groups of a context's launches end on every core (R405). -/
def endLeaps (s : State) (ctx : Nat) : State :=
  (s.launches.filter (fun l => l.ctx == ctx)).foldl (fun s l => l.cores.foldl (fun s c => endLeap s (Fin.ofNat 256 c) l.id) s) s

/-- `DEADLINE_EXPIRY`: the context is reset, when its deadline has passed with teams resident (R382, R405). -/
def execDeadlineExpiry (ctx : Nat) (s : State) : Host.Outcome State Fault Refusal :=
  .next (match s.ctx? ctx with
    | none => s
    | some x =>
      let ts := contextTeams s ctx
      if x.preempt && x.deadlineLeft == 0 && !ts.isEmpty then
        settlePark (ts.foldl (fun s t => endTeam s t.uid false true) (endLeaps s ctx)) ctx
      else s)

/-! ## Stall samples (R369, R370) -/

/-- The fragments of a context on a quarter. -/
def quarterFrags (k : Core) (ctx q : Nat) : List (Fin 64 × Group × Frag) :=
  ((List.finRange 64).filter (fun i => i.val / 16 == q)).flatMap (fun i => match k.slots[i] with
    | some g => if g.ctx = ctx then g.live.filterMap (fun j => (g.frags[j]).map (fun f => (i, g, f))) else []
    | none => [])

/-- The reasons that a ready fragment may have (R39): it issued in the sampled clock or was not picked; a result that it waits for has not
arrived; its fetch is suspended behind the instruction that it issued last (R194). -/
def readyReasons (g : Group) (f : Frag) : List Nat :=
  [0, 1] ++ (if g.pendRegs.isEmpty && f.pending.isEmpty && !f.late then [] else [2]) ++ (if f.behind then [3] else [])

/-- The reason of a fragment. Which a ready fragment has is the device's choice (log 5). -/
def stallReason (s : State) (c : Fin 256) (g : Group) (f : Frag) : Nat := match f.status with
  | .exited => 8
  | .ready =>
    if f.held != .no || f.halted || f.issued.isSome || fetchWaits s c g.uid then 3
    else
      let rs := readyReasons g f
      rs.getD (Config.choice s.choices % rs.length) 1
  | .waiting .regang => 6
  | .waiting .bar => 6
  | .waiting (.owner held) => if held then 3 else 7
  | .waiting (.batch _) => 4
  | .waiting (.stage _ _) => 5
  | .waiting .result => 2
  | .waiting (.freeze _) => 3
  | .waiting (.publish _ _ _) => 3
  | .waiting (.promote _) => 3
  | .waiting .suspended => 3
  | .waiting (.thaw _) => 3
  | .waiting (.rels _) => 3
  | .waiting (.bias _) => 3

/-- The 16 bytes of a sample. Its handler flag stands for every fragment of a group whose handler runs (R370; log 52). -/
def sampleBytes (s : State) (c : Fin 256) (q : Nat) (o : Option (Fin 64 × Group × Frag)) : List Byte :=
  let pc := match o with
    | some p => p.2.2.pc.toNat % 2 ^ 56
    | none => 0
  let reason := match o with
    | some p => stallReason s c p.2.1 p.2.2
    | none => 8
  let slot := match o with
    | some p => p.1.val
    | none => 0
  let grp := match o with
    | some p => if p.2.1.team.isSome then p.2.1.grpid else 0xFF
    | none => 0xFF
  let flags := match o with
    | some p => (if p.2.1.handler.isSome then 1 else 0) + (if p.2.1.single then 0 else 2)
    | none => 0
  toLe pc 7 ++ toLe reason 1 ++ toLe (s.timeAt c) 4 ++ toLe c.val 1 ++ toLe (64 * q + slot) 1 ++ toLe grp 1 ++ toLe flags 1

/-- One quarter writes a record of the next fragment in its rotation. -/
def sampleQuarter (s : State) (ctx : Nat) (c : Fin 256) (q : Nat) : State := match s.ctx? ctx with
  | none => s
  | some x =>
    let fs := quarterFrags (s.core c) ctx q
    let key := 4 * c.val + q
    let n := (tableFind x.rotation key).getD 0
    let o := fs[n % fs.length]?
    let s1 := (ringPut s x.sampleRing 16 (sampleBytes s c q o)).1
    let s2 := s1.setCtx { x with rotation := tablePut x.rotation key (n + 1) }
    { s2 with choices := s2.choices + 1 }

/-- `STALL_SAMPLE`: each quarter of each core with a group of the context writes one record. -/
def execStallSample (ctx : Nat) (s : State) : Host.Outcome State Fault Refusal :=
  .next (match s.ctx? ctx with
    | none => s
    | some x =>
      if x.samplePeriod = 0 then s
      else ((List.finRange 256).filter (fun c => (s.core c).groups.any (fun g => g.ctx == ctx))).foldl (fun s c =>
        [0, 1, 2, 3].foldl (fun s q => sampleQuarter s ctx c q) s) s)

end Sys2Proof.Machine
end

