-- ==== Sys2Proof/Machine/Host.lean ====
section
/-! DEFINITION. The host's commands: admission to queues (R413 to R415), their order and journal entries (R416 to R419), and the
effect of each (R416), and messages as bytes (R414). The result bytes of `CTX_CREATE`, `MODULE_LOAD`, `TASK_SUBMIT` and `FW_INFO` are laid out
by log 37.
-/

namespace Sys2Proof.Machine

/-- How an attempt at a command's effect ends. -/
inductive Done where
  /-- Done, with the result bytes. -/
  | done (result : List Byte)
  /-- Failed, with a reason (R415). -/
  | failed (reason : Nat)
  /-- It waits, and is tried again from here. -/
  | wait (r : CmdRun)
  /-- `LAUNCH` and `TASK_SUBMIT`: answered with status 1 (R416); the entry goes on, or has nothing to wait for. -/
  | accepted (result : List Byte) (ends : Bool)

/-! ## Contexts -/

/-- Ranges of queues meet. -/
def queuesMeet (x : Context) (first count : Nat) : Bool :=
  decide (x.firstQueue < first + count) && decide (first < x.firstQueue + x.queueCount)

/-- The arguments of a `CTX_CREATE` are in range; 0 stands for the default deadline and threshold. -/
def ctxArgsOk (a : CtxArgs) : Bool :=
  decide (16 ≤ a.firstQueue) && decide (1 ≤ a.queueCount) && decide (a.firstQueue + a.queueCount ≤ 131072) &&
  decide (a.prioLimit ≤ 7) && (a.samplePeriod == 0 || (decide (64 ≤ a.samplePeriod) && decide (a.samplePeriod ≤ 2 ^ 24))) &&
  decide (4 ≤ a.ringLog2) && decide (a.ringLog2 ≤ 24) && decide (a.threshold ≤ 15) && decide (10 ≤ a.journalLog2) &&
  decide (a.journalLog2 ≤ 20)

/-- The header of a ring, with its capacity (R369, R371). -/
def ringHeader (capacity : Nat) : List Byte := toLe 0 24 ++ toLe capacity 8

/-- The areas of a new context: their sizes and leaf bits, in the order of the result (R199, R369, R371, R390, R418). -/
def ctxAreas (a : CtxArgs) : List (Nat × LeafBits) :=
  [(2 ^ 21, { areaBits false with wp := false, fw := true }), (2 ^ 20, areaBits true), (32 + 16 * 2 ^ a.ringLog2, areaBits false),
   (32 + 160 * 2 ^ a.ringLog2, areaBits false), (64 * 2 ^ a.journalLog2, { areaBits false with wp := false })]

/-- Take each area in turn. -/
def takeAreas (x : Context) : List (Nat × LeafBits) → State → Option (State × List Nat)
  | [], s => some (s, [])
  | (n, f) :: rest, s => match takeArea s x f n with
    | none => none
    | some r => (takeAreas x rest r.1).map (fun q => (q.1, r.2 :: q.2))

/-- A new context of these arguments, with the default deadline of 50 ms (R382) and threshold of 3 (R399). -/
def newContext (id root : Nat) (a : CtxArgs) : Context :=
  { id := id, firstQueue := a.firstQueue, queueCount := a.queueCount, prioLimit := a.prioLimit, sliceNs := a.sliceNs, sliceFrom := 0
    deadlineNs := if a.deadlineNs = 0 then 50000000 else a.deadlineNs, samplePeriod := a.samplePeriod, ringLog2 := a.ringLog2
    threshold := if a.threshold = 0 then 3 else a.threshold, root := root
    saveArea := 0, leapArea := 0, sampleRing := 0, exitRing := 0, journalAt := 0
    journal := { capacity := 2 ^ a.journalLog2, next := 1, entries := [] }, regions := [], buffers := [], windows := [], leap := []
    nodes := [], bias := [], preempt := false, deadlineLeft := 0, parked := false, rotation := [], doomed := [], jobs := []
    running := none, backlog := [], submitted := [] }

/-- `CTX_CREATE`. -/
def doCtxCreate (s : State) (a : CtxArgs) : State × Done :=
  if !ctxArgsOk a then (s, .failed 1)
  else if s.contexts.any (fun x => queuesMeet x a.firstQueue a.queueCount) then (s, .failed 3)
  else
    let id := (s.contexts.map (fun x => x.id)).foldl max 0 + 1
    let r := takeMem s 65536 65536 id
    let x := newContext id r.2 a
    match takeAreas x (ctxAreas a) r.1 with
    | none => (s, .failed 3)
    | some q =>
      if !memFits q.1 then (s, .failed 3) else
      let at' (i : Nat) : Nat := q.2.getD i 0
      let x1 := { x with saveArea := at' 0, leapArea := at' 1, sampleRing := at' 2, exitRing := at' 3, journalAt := at' 4 }
      let s1 := fwWrite (fwWrite q.1 (at' 2) (ringHeader (2 ^ a.ringLog2))) (at' 3) (ringHeader (2 ^ a.ringLog2))
      ({ s1 with contexts := s1.contexts ++ [x1] }, .done (toLe id 4 ++ (q.2 ++ [r.2]).flatMap (fun v => toLe v 8)))

/-- Its commands that have no effect yet fail, for it is gone (log 44). -/
def failLeft (s : State) (x : Context) : State :=
  (x.running.toList ++ x.backlog).foldl (fun s r => match commandOf r.cmd with
    | some (h, code) => if r.answered then s else respond s h code 2 6 r.seq []
    | none => s) s

/-- A command that was accepted is a `LAUNCH`, which is pending from then on (R360). -/
def launchPending (r : CmdRun) : Bool := match r.cmd with
  | .launch _ _ _ _ _ => true
  | _ => false

/-- `CTX_DESTROY`: it fails while the context has a launch that is not done; else its queues, entries, buffers, areas and memory are
released (R360, R416). -/
def doCtxDestroy (s : State) (ctx : Nat) : State × Done := match s.ctx? ctx with
  | none => (s, .failed 1)
  | some x =>
    if s.launches.any (fun l => l.ctx == ctx) || (x.running.toList ++ x.backlog).any launchPending then (s, .failed 6)
    else
      let mine (q : Nat) : Bool := decide (x.firstQueue ≤ q) && decide (q < x.firstQueue + x.queueCount)
      let s1 := failLeft s x
      let s2 : State := { s1 with
          contexts := s.contexts.filter (fun y => y.id != ctx), modules := s.modules.filter (fun m => m.ctx != ctx)
          accepted := s.accepted.filter (fun a => !mine a.1), fwBlocks := s.fwBlocks.filter (fun b => b.2.2 != ctx)
          heldCmds := s.heldCmds.filter (fun i => match commandOf i with
            | some (h, _) => !mine h.queue
            | none => true)
          cores := Vector.ofFn (fun c : Fin 256 => { s.cores[c] with
            frozen := s.cores[c].frozen.filter (fun e => e.1 != ctx), reuse := s.cores[c].reuse.filter (fun e => e.key.ctx != ctx) }) }
      (s2.dropKept, .done [])

/-! ## MAP and UNMAP (R212, R213, R216, R256, R309) -/

/-- The leaf fields of a `MAP`. -/
def mapBits (a : MapArgs) : LeafBits := ⟨a.rp, a.wp, a.xp, false, a.ca, a.rad, a.sm, a.ps⟩

def mapArgsOk (a : MapArgs) : Bool :=
  [2 ^ 16, 2 ^ 21, 2 ^ 30].contains a.pageSize && decide (1 ≤ a.size) && a.va % a.pageSize == 0 && a.pa % a.pageSize == 0 &&
  a.size % a.pageSize == 0 && decide (a.va + a.size ≤ 2 ^ 56) &&
  (decide (a.pa + a.size ≤ 2 ^ 40) || (decide (2 ^ 51 ≤ a.pa) && decide (a.pa + a.size ≤ 2 ^ 52))) &&
  a.sm != 3#2 && (a.sm == 2#2 || a.ps == 0#8)

/-- A frozen page of the range would get another entry (R273): another page size or other leaf bits count as a change of its translation,
though the physical address stays (log 52). -/
def mapTouchesFrozen (s : State) (x : Context) (a : MapArgs) : Bool :=
  (pagesOf s x a.va a.size).any (fun p => pageFrozen s x p &&
    !(p.size == a.pageSize && pteAt s p.entry == leafWord (mapBits a) (a.pa + (p.va - a.va))))

/-- The places of pages, as pairs in a list of numbers. -/
def pageRanges (s : State) (x : Context) (ps : List PageAt) : List Nat := ps.flatMap (fun p => match pagePlace s x p with
  | some pa => [pa, p.size]
  | none => [])

/-- Accesses by the old entries have completed (R216). -/
def rangesQuiet (s : State) : List Nat → Bool
  | pa :: n :: rest => pageQuiet s pa n && rangesQuiet s rest
  | _ => true

/-- The wait of R216, over the places gathered when the entries changed. -/
def waitQuiet (s : State) (r : CmdRun) (data : List Nat) : Done :=
  if rangesQuiet s data then .done [] else .wait { r with stage := 1, data := data }

/-- Begin `MAP`: the checks and the entries. It waits for the accesses by the entries of before, whose places are given. -/
def beginMap (s : State) (x : Context) (r : CmdRun) (a : MapArgs) (old : List Nat) : State × Done :=
  if !mapArgsOk a then (s, .failed 1)
  else if mapTouchesFrozen s x a then (s, .failed 5)
  else match mapPages x (mapBits a) a.pageSize (a.size / a.pageSize) a.va a.pa s with
    | none => (s, .failed 6)
    | some s1 => if memFits s1 then (s1, waitQuiet s1 r old) else (s, .failed 3)

/-- `MAP` without an option. -/
def doMap (s : State) (x : Context) (r : CmdRun) (a : MapArgs) : State × Done :=
  if r.stage = 0 then beginMap s x r a (pageRanges s x (pagesOf s x a.va a.size)) else (s, waitQuiet s r r.data)

/-- `MAP` with the shadow option: it makes a publish buffer too. -/
def doMapShadow (s : State) (x : Context) (r : CmdRun) (a : MapArgs) (n shadow : Nat) : State × Done :=
  if r.stage ≠ 0 then (s, waitQuiet s r r.data)
  else if 4095 < n ∨ shadow % 65536 ≠ 0 ∨ 2 ^ 40 < shadow + a.size ∨ 2 ^ 40 < a.pa + a.size then (s, .failed 1)
  else if (tableFind x.buffers n).isSome then (s, .failed 6)
  else if x.buffers.any (fun b => pageHas a.va a.size b.2.base b.2.size) then (s, .failed 6)
  else
    let m := beginMap s x r a (pageRanges s x (pagesOf s x a.va a.size))
    match m.2, m.1.ctx? x.id with
    | .failed e, _ => (s, .failed e)
    | _, none => m
    | _, some y =>
      let b : PublishBuffer :=
        { base := a.va, size := a.size, live := a.pa, shadow := shadow, version := 0#32, publishing := false, pending := 0, stopped := false }
      (m.1.setCtx { y with buffers := tablePut y.buffers n b }, m.2)

/-- A page of a context is mapped through an entry of its remote windows. -/
def throughWindow (s : State) (p : PageAt) (index : Nat) : Bool :=
  let pa := (pteAt s p.entry).toNat / 256 % 2 ^ 44 * 256
  decide (pa / 2 ^ 51 % 2 = 1) && pa / 2 ^ 40 % 2048 == index

/-- The physical range of a `MAP` lies in a window of the remote table (R256). -/
def inRemoteWindow (a : MapArgs) (index : Nat) : Bool :=
  decide (index < 2048) && decide (2 ^ 51 + index * 2 ^ 40 ≤ a.pa) && decide (a.pa + a.size ≤ 2 ^ 51 + (index + 1) * 2 ^ 40)

/-- `MAP` with the remote window option (R256): it writes the window's entry and then the pages', whose PA lies in that window (log 37); it
fails where a frozen byte would get another translation (R273), and waits for accesses through what the window was before (R216). -/
def doMapRemote (s : State) (x : Context) (r : CmdRun) (a : MapArgs) (w : WindowArgs) : State × Done :=
  if r.stage ≠ 0 then (s, waitQuiet s r r.data)
  else if !inRemoteWindow a w.index then (s, .failed 1)
  else
    let through := if tableFind x.windows w.index = some w.device then []
      else (pagesOf s x 0 (2 ^ 56)).filter (fun p => throughWindow s p w.index)
    if through.any (pageFrozen s x) then (s, .failed 5)
    else
      let x1 := { x with windows := tablePut x.windows w.index w.device }
      let m := beginMap (s.setCtx x1) x1 r a (pageRanges s x (pagesOf s x a.va a.size) ++ pageRanges s x through)
      match m.2 with
      | .failed e => (s, .failed e)
      | _ => m

/-- Clear the entries of pages. -/
def clearLeaves (s : State) (ps : List PageAt) : State := ps.foldl (fun s p => setPte s p.entry 0#64) s

/-- `UNMAP`; with the shadow option the buffers in the range go too (log 38). -/
def doUnmap (s : State) (x : Context) (r : CmdRun) (va size : Nat) (buffers : Bool) : State × Done :=
  if r.stage ≠ 0 then (s, waitQuiet s r r.data)
  else if size = 0 ∨ va % 65536 ≠ 0 ∨ size % 65536 ≠ 0 ∨ 2 ^ 56 < va + size then (s, .failed 1)
  else
    let ps := pagesOf s x va size
    let gone (b : PublishBuffer) : Bool := buffers && decide (va ≤ b.base) && decide (b.base + b.size ≤ va + size)
    if ps.any (fun p => decide (p.va < va) || decide (va + size < p.va + p.size)) then (s, .failed 1)
    else if ps.any (pageFrozen s x) then (s, .failed 5)
    else if x.buffers.any (fun b => gone b.2 && (decide (0 < b.2.pending) || b.2.publishing)) then (s, .failed 6)
    else
      let s1 := (clearLeaves s ps).setCtx { x with buffers := x.buffers.filter (fun b => !gone b.2) }
      (s1, waitQuiet s1 r (pageRanges s x ps))

/-! ## READ and WRITE -/

def doRead (s : State) (x : Context) (va n : Nat) : State × Done :=
  if 2 ^ 20 < n then (s, .failed 1) else if !hostMapped s x va n then (s, .failed 9) else (s, .done (hostBytes s x va n))

/-- A line of a list has a write of the firmware outstanding. -/
def linesBusy (s : State) (lines : List Nat) : Bool :=
  s.writes.any (fun w => setHas lines w.line && w.group == 0 && w.launch == 0)

def doWrite (s : State) (x : Context) (r : CmdRun) (va : Nat) (bs : List Byte) : State × Done :=
  if r.stage ≠ 0 then (s, if linesBusy s r.data then .wait r else .done [])
  else if 2 ^ 20 < bs.length then (s, .failed 1)
  else if !hostMapped s x va bs.length then (s, .failed 9)
  else
    let pas := hostAddrs s x va bs.length
    if pas.any (fun a => s.isFrozen a) then (s, .failed 5)
    else if pas.any (fun a => s.isThawing a) then (s, .wait r)
    else
      let s1 := hostWrite s x va bs
      let lines := linesOf pas
      (s1, if linesBusy s1 lines then .wait { r with stage := 1, data := lines } else .done [])

/-! ## MODULE_LOAD (R113) -/

/-- Steps 1 to 3: the file's bytes go on to step 4. -/
def beginLoad (s : State) (x : Context) (r : CmdRun) (va n : Nat) (addrs : List (Nat × Nat)) : State × Done :=
  if !hostMapped s x va n then (s, .failed 9)
  else
    let f := hostBytes s x va n
    match parseModule f ((loadAt addrs 1).getD 0) with
    | none => (s, .failed 4)
    | some _ => match allSome (placements f addrs) with
      | none => (s, .failed 1)
      | some ps =>
        if !ps.all (fun p => hostMapped s x p.1 p.2.length) then (s, .failed 9)
        else
          let pas := ps.flatMap (fun p => hostAddrs s x p.1 p.2.length)
          if pas.any (fun a => s.isFrozen a) then (s, .failed 5)
          else if pas.any (fun a => s.isThawing a) then (s, .wait r)
          else
            let s1 := ps.foldl (fun s p => hostWrite s x p.1 p.2) s
            let q := relocateAll f addrs x (recordsOf f 10 16) s1
            (q.1, if q.2 then .wait { r with stage := 1, data := f.map (fun b => b.toNat) } else .failed 4)

/-- The lines of what a load has placed. -/
def placedLines (s : State) (x : Context) (f : List Byte) (addrs : List (Nat × Nat)) : List Nat :=
  linesOf (((allSome (placements f addrs)).getD []).flatMap (fun p => hostAddrs s x p.1 p.2.length))

/-- The load once every entry that it has begun, `taken`, is past its freeze point and pinned where the manifest asks for it. -/
def loadFrom (s : State) (x : Context) (r : CmdRun) (addrs : List (Nat × Nat)) (taken : List Nat) (f : List Byte) : State × Done :=
  match parseModule f ((loadAt addrs 1).getD 0) with
  | none => (undoFreeze s x.id taken, .failed 4)
  | some m => match m.frozen[r.stage - 1]? with
    | some e =>
      let lo := (loadAt addrs e.sect).getD 0 + e.off
      let lo4 := lo / 4096 * 4096
      let hi4 := (lo + e.length + 4095) / 4096 * 4096
      match loaderFreeze s x lo4 hi4 e.sys with
      | .begun s1 i => (s1, .wait { r with stage := r.stage + 1, data := taken ++ [begunEntry i e.pin] ++ r.data.drop (r.stage - 1) })
      | .wait => (s, .wait r)
      | .full => (undoFreeze s x.id taken, .failed 3)
      | .bad => (undoFreeze s x.id taken, .failed 6)
    | none => if linesBusy s (placedLines s x f addrs) then (s, .wait r) else match registerModule s x.id m with
      | none => (undoFreeze s x.id taken, .failed 3)
      | some q =>
        if !memFits q.1 then (undoFreeze s x.id taken, .failed 3) else
        (q.1, .done (toLe q.2.1 4 ++ taken.flatMap (fun i => toLe (handleOf i (x.entry i).gen).toNat 4) ++
          (List.range m.tasks.length).flatMap (fun i => toLe (q.2.2 + 256 * i) 8)))

/-- The rest, at stage n + 1: n entries of the manifest are begun, and their numbers stand before the file's bytes. -/
def goOnLoad (s : State) (x : Context) (r : CmdRun) (addrs : List (Nat × Nat)) : State × Done :=
  let begun := r.data.take (r.stage - 1)
  let file := r.data.drop (r.stage - 1)
  if begun.any (fun i => (x.entry (i % 1024)).state == .installing) then (s, .wait r)
  else
    let taken := begun.map (fun i => i % 1024)
    let s1 := pinBegun s x.id begun
    match s1.ctx? x.id with
    | some y => loadFrom s1 y { r with data := taken ++ file } addrs taken (file.map (fun b => BitVec.ofNat 8 b))
    | none => (s1, .failed 2)

def doModuleLoad (s : State) (x : Context) (r : CmdRun) (va n : Nat) (addrs : List (Nat × Nat)) : State × Done :=
  if r.stage = 0 then beginLoad s x r va n addrs else goOnLoad s x r addrs

/-! ## LAUNCH and TASK_SUBMIT -/

def doLaunch (s : State) (x : Context) (r : CmdRun) (module block grid : Nat) (args : List DWord) : State × Done :=
  if grid = 0 ∨ 2 ^ 32 ≤ grid ∨ 16 < args.length then (s, .failed 1)
  else match kernelOf s x.id module block with
    | none => (s, .failed 6)
    | some b => (acceptLaunch s x module block grid args .host r.seq b, .accepted [] false)

/-- `TASK_SUBMIT`: as `TSUB` (R373). The result is the block's state; a block left as it was has no launch to wait for. -/
def doTaskSubmit (s : State) (x : Context) (r : CmdRun) (va : Nat) : State × Done :=
  if va % 256 ≠ 0 ∨ 2 ^ 56 ≤ va then (s, .failed 1)
  else match place s x (BitVec.ofNat 64 va) with
    | .inr _ => (s, .failed 1)
    | .inl p =>
      if !p.leaf.rp || !p.leaf.wp || p.leaf.fw then (s, .failed 1)
      else if p.leaf.bh then (s, .failed 6)
      else if s.isFrozen p.pa then (s, .failed 5)
      else if p.leaf.bt || s.isThawing p.pa then (s, .wait r)
      else
        let q := submitTask s x p.pa (some r.seq)
        (q.1, .accepted (toLe (taskState q.1 p.pa) 1) (!q.2))

/-! ## PREEMPT (R206 to R208, R381) -/

/-- Settle a fragment's results and stop it; one that waited for a result waits no more. -/
def haltFrag (s : State) (r : FragRef) : State := match s.at? r with
  | none => s
  | some h =>
    let sh := settleAll s h
    let f := sh.2.f
    sh.1.put { sh.2 with f := { f with halted := true, status := if f.status = .waiting .result then .ready else f.status } }

/-- The frame of a halt: a new one, or flag bits 1 and 2 of the one a handler runs on. -/
def haltFrame (s : State) (r : FragRef) : State := match s.at? r with
  | none => s
  | some h => match s.ctx? h.g.ctx with
    | none => s
    | some x =>
      let a := frameAddr x r.core r.slot
      let s1 := if h.g.handler.isSome then s else writeFrame s h ⟨0#32, none⟩ (.plain cDebugHalt 0#8 h.lanes)
      let bits := if h.g.handler.isSome then 6 else 4
      dropBytes (fwWrite s1 (a + 2) (toLe (fwRead s1 (a + 2) 1 ||| bits) 1)) r.core (a + 2) 1

/-- Halt the group of a slot: its live fragments stop, the epoch ends, the frame is written. -/
def haltGroup (s : State) (c : Fin 256) (slot : Fin 64) : State := match s.group? c slot with
  | none => s
  | some g =>
    let fs := g.bySlice (fun f => f.status != .exited && !f.halted)
    match fs with
    | [] => s
    | f0 :: _ =>
      let s1 := fs.foldl (fun s f => haltFrag s ⟨c, slot, f⟩) s
      let s2 := match s1.group? c slot with
        | some g1 => s1.setGroup c slot (some { g1 with epoch := g1.epoch + 1 })
        | none => s1
      haltFrame s2 ⟨c, slot, f0⟩

/-- The slots of a context's resident groups. -/
def contextSlots (s : State) (ctx : Nat) : List (Fin 256 × Fin 64) :=
  (List.finRange 256).flatMap (fun c => ((List.finRange 64).filter (fun i => match (s.core c).slots[i] with
    | some g => g.ctx == ctx
    | none => false)).map (fun i => (c, i)))

def haltContext (s : State) (ctx : Nat) : State := (contextSlots s ctx).foldl (fun s p => haltGroup s p.1 p.2) s

/-- Halted fragments go on from where they stopped. -/
def resumeHalt (s : State) (ctx : Nat) : State :=
  (contextSlots s ctx).foldl (fun s p => match s.group? p.1 p.2 with
    | some g => s.setGroup p.1 p.2 (some { g with frags := Vector.ofFn (fun i : Fin 8 => (g.frags[i]).map (fun f => { f with halted := false, waited := 0, overdue := none })) })
    | none => s) s

/-! ## The journal -/

def doJournalRead (s : State) (c : Option Nat) (first count : Nat) : State × Done :=
  if 16384 < count then (s, .failed 1)
  else (s, .done (((s.journal c).entries.filter (fun e => decide (first ≤ e.seq) && decide (e.seq < first + count))).flatMap entryBytes))

/-! ## Leap slots (R395) -/

/-- The running launches of a kernel (R360) add nothing more to the slot. -/
def voidLaunches (s : State) (ctx : Nat) (identity : BitVec 128) : State :=
  { s with launches := s.launches.map (fun l => match s.block? l with
      | some b => if l.ctx = ctx && b.identity = identity && l.nextTeam == l.grid && decide (l.ended < l.grid) then { l with voided := true } else l
      | none => l) }

def doLeapRead (s : State) (x : Context) (identity : BitVec 128) : State × Done := match findSlot s x identity with
  | none => (s, .done (toLe identity.toNat 16 ++ List.replicate 48 0#8))
  | some i =>
    let h := seenHeader s x i
    (s, .done (headerBytes h ++ homeBytes s (slotAddr x i + 0x40) (min h.bodyLen 3008)))

def doLeapWrite (s : State) (x : Context) (identity : BitVec 128) (a : LeapHdrArgs) (body : List Byte) : State × Done :=
  if 3008 < body.length then (s, .failed 1)
  else match (match findSlot s x identity with
      | some i => some (s, i)
      | none => takeSlot s x identity) with
    | none => (s, .failed 3)
    | some (s1, i) =>
      let h := readHeader s1 x i
      let h1 := { h with
        flags := a.flags ||| 4#8, windowArg := a.windowArg, reserved := a.reserved, low := a.windowLow, high := a.windowHigh
        budget := a.budget.toNat, bodyLen := a.bodyLen.toNat }
      let s2 := fwWrite (writeHeader s1 x i h1) (slotAddr x i + 0x40) (body ++ List.replicate (3008 - body.length) 0#8)
      (voidLaunches (setObs s2 x.id i none) x.id identity, .done [])

/-- `LEAP_PIN` with 1 or 0. -/
def setPin (s : State) (x : Context) (identity : BitVec 128) (pin : Bool) : State × Done := match findSlot s x identity with
  | none => (s, .failed 6)
  | some i =>
    let h := readHeader s x i
    if h.flags.getLsbD 0 = pin then (s, .done [])
    else (voidLaunches (writeHeader s x i { h with flags := if pin then h.flags ||| 1#8 else h.flags &&& 0xFE#8 }) x.id identity, .done [])

def doLeapDiscard (s : State) (x : Context) (identity : BitVec 128) : State × Done := match findSlot s x identity with
  | none => (s, .done [])
  | some i => (voidLaunches (clearSlotAt s x i) x.id identity, .done [])

/-! ## Leases and bias -/

def doSetLease (s : State) (v : DWord) : State × Done :=
  if 1000000 < (v.extractLsb' 32 20).toNat ∨ 1000000 < (v.extractLsb' 0 20).toNat ∨ v.extractLsb' 20 12 ≠ 0#12 ∨ v.extractLsb' 52 12 ≠ 0#12
  then (s, .failed 1) else ({ s with lease := v }, .done [])

/-- Pages begin the transition to host bias (R278 step 1). -/
def beginBias (s : State) (ctx : Nat) (ps : List PageAt) : State :=
  ps.foldl (fun s p =>
    if (pteAt s p.entry).getLsbD 55 || (pteAt s p.entry).getLsbD 54 then s
    else
      let s1 := setLeafBit s p 54 true
      match s1.ctx? ctx with
      | some x => s1.setCtx { x with bias := x.bias ++ [⟨p.va, p.size⟩] }
      | none => s1) s

def doBiasSet (s : State) (x : Context) (r : CmdRun) (va size : Nat) (host : Bool) : State × Done :=
  if r.stage ≠ 0 then
    (s, if x.bias.any (fun b => decide (b.va < va + size) && decide (va < b.va + b.size)) then .wait r else .done [])
  else if size = 0 ∨ va % 65536 ≠ 0 ∨ size % 65536 ≠ 0 ∨ !hostMapped s x va size then (s, .failed 1)
  else
    let ps := pagesOf s x va size
    if ps.any (fun p => decide (p.va < va) || decide (va + size < p.va + p.size)) then (s, .failed 1)
    else if !host then (ps.foldl (fun s p => setLeafBit s p 55 false) s, .done [])
    else if ps.any (pageFrozen s x) then (s, .failed 6)
    else if publishPending x va (va + size) || ps.any (pageInstalling s x) || ps.any (freezeChecked s x) then (s, .wait r)
    else (beginBias s x.id ps, .wait { r with stage := 1 })

/-! ## Reports (R422, R423) -/

def fencedMask (s : State) : BitVec 256 := BitVec.ofFnLE (fun c : Fin 256 => (s.core c).fenced)

/-- The first 152 bytes of an attestation report, and the signature over them. -/
def attestReport (s : State) (nonce : BitVec 256) : List Byte :=
  let b := toLe nonce.toNat 32 ++ toLe (Config.deviceId ()).toNat 4 ++ toLe (Config.romVersion ()).toNat 4 ++
    toLe (fencedMask s).toNat 32 ++ sha512 (Config.romBytes ()) ++ (sha512 trustedKeyIds.flatten).take 16
  let g := Config.attestSign b
  b ++ toBe g.1 66 ++ toBe g.2 66

def Phase.code : Phase → Nat
  | .off => 0 | .booting => 0 | .ready => 1 | .failed => 2

/-- The information report, with a context's dropped-record counters. -/
def infoReport (s : State) (c : Option Context) : List Byte :=
  toLe s.phase.code 1 ++ toLe (Config.deviceId ()).toNat 4 ++ toLe (Config.romVersion ()).toNat 4 ++ toLe (fencedMask s).toNat 32 ++
  toLe ((List.finRange 256).filter (fun k => !(s.core k).fenced)).length 2 ++ toLe s.lease.toNat 8 ++ toLe Config.guardNs 4 ++
  (if (List.range 512).all (fun a => (s.agent a).inSync) then [1#8] else [0#8]) ++ s.ecc.toList.flatMap (fun n => toLe n 8) ++
  s.ports.toList.flatMap (fun n => toLe n 8) ++
  (match c with
    | some x => x.nodes.flatMap (fun n => toLe n.dropped.toNat 8)
    | none => []) ++ Config.certificate ()

/-! ## A command's effect -/

/-- The effect of a command of a context. -/
def ctxEffect (s : State) (x : Context) (r : CmdRun) : State × Done := match r.cmd with
  | .map _ a => doMap s x r a
  | .mapShadow _ a n pa => doMapShadow s x r a n pa
  | .mapRemoteWindow _ a w => doMapRemote s x r a w
  | .unmap _ va n => doUnmap s x r va n false
  | .unmapShadow _ va n => doUnmap s x r va n true
  | .read _ va n => doRead s x va n
  | .write _ va bs => doWrite s x r va bs
  | .moduleLoad _ va n addrs => doModuleLoad s x r va n addrs
  | .launch _ m b g args => doLaunch s x r m b g args
  | .taskSubmit _ va => doTaskSubmit s x r va
  | .preemptRequest _ => (requestPreempt s x.id, .done [])
  | .preemptHalt _ => (haltContext s x.id, .done [])
  | .preemptResumeHalt _ => (resumeHalt s x.id, .done [])
  | .preemptResumePark _ => (resumePark s x.id, .done [])
  | .journalRead _ f n => doJournalRead s (some x.id) f n
  | .leapRead _ i => doLeapRead s x i
  | .leapWrite _ i a b => doLeapWrite s x i a b
  | .leapPin _ i => setPin s x i true
  | .leapUnpin _ i => setPin s x i false
  | .leapDiscard _ i => doLeapDiscard s x i
  | .biasSet _ va n host => doBiasSet s x r va n host
  | .fwInfo ⟨_, c⟩ => if c = 0 then (s, .done (infoReport s none)) else if c = x.id then (s, .done (infoReport s (some x))) else (s, .failed 2)
  | _ => (s, .failed 2)

/-- The effect of a command of an administrative queue. -/
def adminEffect (s : State) (r : CmdRun) : State × Done := match r.cmd with
  | .ctxCreate _ a => doCtxCreate s a
  | .ctxDestroy _ c => doCtxDestroy s c
  | .journalRead _ f n => doJournalRead s none f n
  | .setLease _ v => doSetLease s v
  | .attest _ n => (s, .done (attestReport s n))
  | .fwInfo ⟨_, c⟩ => if c = 0 then (s, .done (infoReport s none)) else match s.ctx? c with
    | some x => (s, .done (infoReport s (some x)))
    | none => (s, .failed 1)
  | _ => (s, .failed 2)

/-! ## Running commands in journal order (R417 to R419) -/

/-- Record what has become of an attempt: the entry, the response, or the wait. -/
def conclude (s : State) (c : Option Nat) (r : CmdRun) (o : Done) : State :=
  match commandOf r.cmd with
  | none => s
  | some (h, code) => match o with
    | .done res => respond (endEntry s c r.seq .done 0) h code 0 0 r.seq res
    | .failed e =>
      let s1 := endEntry s c r.seq .failed e
      if r.answered then s1 else respond s1 h code 2 e r.seq []
    | .accepted res ends =>
      let s1 := if ends then endEntry s c r.seq .done 0 else s
      if r.answered then s1 else respond s1 h code 1 0 r.seq res
    | .wait r1 => (match c.bind s.ctx? with
      | some x => s.setCtx { x with running := some r1 }
      | none => s)

/-- Try a command of a context, which is not the running one while it is tried. -/
def tryCmd (s : State) (ctx : Nat) (r : CmdRun) : State := match s.ctx? ctx with
  | none => s
  | some x =>
    let s0 := s.setCtx { x with running := none }
    let o := ctxEffect s0 { x with running := none } r
    conclude o.1 (some ctx) r o.2

/-- Go on with the running command, and begin those behind it as each ends; `fuel` attempts at most. -/
def pumpCmds (ctx : Nat) : Nat → State → State
  | 0, s => s
  | fuel + 1, s => match s.ctx? ctx with
    | none => s
    | some x => match x.running with
      | some r =>
        let s1 := tryCmd s ctx r
        if ((s1.ctx? ctx).bind (fun y => y.running)).isSome then s1 else pumpCmds ctx fuel s1
      | none => match x.backlog with
        | [] => s
        | r :: rest => pumpCmds ctx fuel (s.setCtx { x with running := some r, backlog := rest })

/-- The firmware goes on with every context's commands and tasks. -/
def pumpHost (s : State) : State :=
  s.contexts.foldl (fun s x => pumpJobs (pumpCmds x.id (2 * x.backlog.length + 2) s) x.id) s

/-- A `PREEMPT` that takes effect at acceptance (R417). -/
def atAcceptance : Instr → Bool
  | .preemptHalt _ => true
  | .preemptResumeHalt _ => true
  | .preemptResumePark _ => true
  | _ => false

/-- A `LAUNCH` that could not take effect at once is answered with status 1 (R416). A `TASK_SUBMIT` is answered with its block's state when
it takes effect (log 44). -/
def answerNow (s : State) (ctx seq : Nat) (i : Instr) : State := match s.ctx? ctx, commandOf i with
  | some x, some (h, code) =>
    if code == 0x08 && (x.running.toList ++ x.backlog).any (fun r => r.seq == seq) then
      let mark (r : CmdRun) : CmdRun := if r.seq = seq then { r with answered := true } else r
      respond (s.setCtx { x with running := x.running.map mark, backlog := x.backlog.map mark }) h code 1 0 seq []
    else s
  | _, _ => s

/-- Begin an accepted command, or put it behind those before it. -/
def startCmd (s : State) (c : Option Nat) (i : Instr) (seq : Nat) : State :=
  let r : CmdRun := ⟨i, seq, 0, [], false⟩
  match c with
  | none =>
    let o := adminEffect s r
    conclude o.1 none r o.2
  | some ctx => match s.ctx? ctx with
    | none => s
    | some x =>
      if atAcceptance i then
        let o := ctxEffect s x r
        conclude o.1 c r o.2
      else answerNow (pumpCmds ctx (2 * x.backlog.length + 4) (s.setCtx { x with backlog := x.backlog ++ [r] })) ctx seq i

/-! ## Admission (R413 to R415, R427) -/

/-- Commands marked A. -/
def adminOnly (code : Nat) : Bool := [0x01, 0x02, 0x10, 0x12].contains code

/-- The journal a command goes to on its queue, if it may be there (R413). -/
def queueOwner (s : State) (h : CmdHdr) (code : Nat) : Option (Option Nat) :=
  if h.queue < 16 then (if adminOnly code || code == 0x0B || code == 0x13 then some none else none)
  else match s.contexts.find? (fun x => decide (x.firstQueue ≤ h.queue) && decide (h.queue < x.firstQueue + x.queueCount)) with
    | none => none
    | some x => if adminOnly code || (h.ctx != 0 && h.ctx != x.id) then none else some (some x.id)

/-- The highest number accepted on a queue. -/
def acceptedMax (s : State) (q : Nat) : Nat := (tableFind s.accepted q).getD 0

/-- Accept the next command of a queue: its entry, then its effect (R418). -/
def acceptCmd (s : State) (c : Option Nat) (i : Instr) (h : CmdHdr) (code : Nat) : State :=
  match appendEntry s c h.queue code h.hseq (argDigest i) with
  | none => respond s h code 2 3 0 []
  | some r => startCmd { r.1 with accepted := tablePut r.1.accepted h.queue h.hseq } c i r.2

/-- A command that its queue admits: a repeat, an old number, a gap, or the next one (R415). -/
def screenCmd (s : State) (c : Option Nat) (i : Instr) (h : CmdHdr) (code : Nat) : State :=
  match (s.journal c).entries.find? (fun e => e.queue == h.queue && e.hseq == h.hseq) with
  | some e => if e.digest = argDigest i then respond s h code e.state.status e.reason e.seq [] else respond s h code 2 7 0 []
  | none =>
    if h.hseq ≤ acceptedMax s h.queue then respond s h code 2 8 0 []
    else if acceptedMax s h.queue + 1 < h.hseq then { s with heldCmds := s.heldCmds ++ [i] }
    else acceptCmd s c i h code

/-- One command message (R412 to R415); in state booting or failed only `FW_INFO` and `ATTEST` are carried out (R427). -/
def receive (s : State) (i : Instr) (h : CmdHdr) (code : Nat) : State :=
  if !cmdFits i ∨ 131071 < h.queue ∨ h.hseq = 0 then respond s h code 2 1 0 []
  else if s.phase ≠ .ready ∧ code ≠ 0x12 ∧ code ≠ 0x13 then respond s h code 2 6 0 []
  else match queueOwner s h code with
    | none => respond s h code 2 2 0 []
    | some c => screenCmd s c i h code

/-- The held command of a queue that no gap keeps back, and the others. -/
def takeHeld (s : State) (q : Nat) : Option (Instr × CmdHdr × Nat × List Instr) :=
  match s.heldCmds.findIdx? (fun i => match commandOf i with
      | some (h, _) => h.queue == q && decide (h.hseq ≤ acceptedMax s q + 1)
      | none => false) with
  | none => none
  | some n => (s.heldCmds[n]?).bind (fun i => (commandOf i).map (fun p => (i, p.1, p.2, s.heldCmds.eraseIdx n)))

/-- Held commands follow as their gap is filled; `fuel` at most. -/
def releaseHeldCmds (q : Nat) : Nat → State → State
  | 0, s => s
  | fuel + 1, s => match takeHeld s q with
    | none => s
    | some (i, h, code, rest) => releaseHeldCmds q fuel (receive { s with heldCmds := rest } i h code)

/-- A command message arrives; a device without power takes none. -/
def deliver (s : State) (i : Instr) (h : CmdHdr) (code : Nat) : State :=
  if s.phase = .off then s
  else
    let s1 := receive s i h code
    releaseHeldCmds h.queue s1.heldCmds.length s1

/-- A command message as it arrives: at most 1 MiB and 64 bytes, a header of 32 bytes with its flags and reserved bytes 0 and the length
of the arguments behind it, and arguments of the code's form; any other fails with reason 0x01 (R412, R414 to R416). -/
def receiveMessage (s : State) (m : List Byte) : State :=
  let f := msgNat m
  let h : CmdHdr := ⟨f 4 4, f 8 8, f 0x10 4⟩
  let code := f 0 2
  let refuse := respond s h code 2 1 0 []
  if s.phase = .off then s
  else if m.length < 32 ∨ messageMax < m.length ∨ f 2 2 ≠ 0 ∨ f 0x18 8 ≠ 0 ∨ f 0x14 4 ≠ m.length - 32 then refuse
  else match parseCmd h code (m.drop 32) with
    | some i => deliver s i h code
    | none => refuse

/-! ## The commands -/

def execCtxCreate (h : CmdHdr) (x : CtxArgs) (s : State) : Host.Outcome State Fault Refusal := .next (deliver s (.ctxCreate h x) h 0x01)
def execCtxDestroy (h : CmdHdr) (ctx : Nat) (s : State) : Host.Outcome State Fault Refusal := .next (deliver s (.ctxDestroy h ctx) h 0x02)
def execMap (h : CmdHdr) (x : MapArgs) (s : State) : Host.Outcome State Fault Refusal := .next (deliver s (.map h x) h 0x03)
def execMapShadow (h : CmdHdr) (x : MapArgs) (buffer shadowPa : Nat) (s : State) : Host.Outcome State Fault Refusal :=
  .next (deliver s (.mapShadow h x buffer shadowPa) h 0x03)
def execMapRemoteWindow (h : CmdHdr) (x : MapArgs) (w : WindowArgs) (s : State) : Host.Outcome State Fault Refusal :=
  .next (deliver s (.mapRemoteWindow h x w) h 0x03)
def execUnmap (h : CmdHdr) (va size : Nat) (s : State) : Host.Outcome State Fault Refusal := .next (deliver s (.unmap h va size) h 0x04)
def execUnmapShadow (h : CmdHdr) (va size : Nat) (s : State) : Host.Outcome State Fault Refusal :=
  .next (deliver s (.unmapShadow h va size) h 0x04)
def execRead (h : CmdHdr) (va len : Nat) (s : State) : Host.Outcome State Fault Refusal := .next (deliver s (.read h va len) h 0x05)
def execWrite (h : CmdHdr) (va : Nat) (bytes : List Byte) (s : State) : Host.Outcome State Fault Refusal :=
  .next (deliver s (.write h va bytes) h 0x06)
def execModuleLoad (h : CmdHdr) (va len : Nat) (addrs : List (Nat × Nat)) (s : State) : Host.Outcome State Fault Refusal :=
  .next (deliver s (.moduleLoad h va len addrs) h 0x07)
def execLaunch (h : CmdHdr) (module block grid : Nat) (args : List DWord) (s : State) : Host.Outcome State Fault Refusal :=
  .next (deliver s (.launch h module block grid args) h 0x08)
def execTaskSubmit (h : CmdHdr) (va : Nat) (s : State) : Host.Outcome State Fault Refusal := .next (deliver s (.taskSubmit h va) h 0x09)
def execPreemptRequest (h : CmdHdr) (s : State) : Host.Outcome State Fault Refusal := .next (deliver s (.preemptRequest h) h 0x0A)
def execPreemptHalt (h : CmdHdr) (s : State) : Host.Outcome State Fault Refusal := .next (deliver s (.preemptHalt h) h 0x0A)
def execPreemptResumeHalt (h : CmdHdr) (s : State) : Host.Outcome State Fault Refusal := .next (deliver s (.preemptResumeHalt h) h 0x0A)
def execPreemptResumePark (h : CmdHdr) (s : State) : Host.Outcome State Fault Refusal := .next (deliver s (.preemptResumePark h) h 0x0A)
def execJournalRead (h : CmdHdr) (first count : Nat) (s : State) : Host.Outcome State Fault Refusal :=
  .next (deliver s (.journalRead h first count) h 0x0B)
def execLeapRead (h : CmdHdr) (identity : BitVec 128) (s : State) : Host.Outcome State Fault Refusal :=
  .next (deliver s (.leapRead h identity) h 0x0C)
def execLeapWrite (h : CmdHdr) (identity : BitVec 128) (x : LeapHdrArgs) (body : List Byte) (s : State) : Host.Outcome State Fault Refusal :=
  .next (deliver s (.leapWrite h identity x body) h 0x0D)
def execLeapPin (h : CmdHdr) (identity : BitVec 128) (s : State) : Host.Outcome State Fault Refusal :=
  .next (deliver s (.leapPin h identity) h 0x0E)
def execLeapUnpin (h : CmdHdr) (identity : BitVec 128) (s : State) : Host.Outcome State Fault Refusal :=
  .next (deliver s (.leapUnpin h identity) h 0x0E)
def execLeapDiscard (h : CmdHdr) (identity : BitVec 128) (s : State) : Host.Outcome State Fault Refusal :=
  .next (deliver s (.leapDiscard h identity) h 0x0F)
def execSetLease (h : CmdHdr) (v : DWord) (s : State) : Host.Outcome State Fault Refusal := .next (deliver s (.setLease h v) h 0x10)
def execBiasSet (h : CmdHdr) (va size : Nat) (host : Bool) (s : State) : Host.Outcome State Fault Refusal :=
  .next (deliver s (.biasSet h va size host) h 0x11)
def execAttest (h : CmdHdr) (nonce : BitVec 256) (s : State) : Host.Outcome State Fault Refusal := .next (deliver s (.attest h nonce) h 0x12)
def execFwInfo (x : InfoArgs) (s : State) : Host.Outcome State Fault Refusal := .next (deliver s (.fwInfo x) x.hdr 0x13)

end Sys2Proof.Machine
end

