-- ==== Sys2Proof/Machine/LaneMem.lean ====
section
/-! DEFINITION. Lane memory: loads, first-fault loads, frozen loads, stores, scratchpad loads and stores (R281 to R286),
and `MVT` (R178 to R180).
-/

namespace Sys2Proof.Machine

/-! ## Data -/

/-- The words a load of these bytes writes, by size and extension (R282). -/
def loadWords (sz : BitVec 2) (signed : Bool) (bs : List Byte) : List Word :=
  match sz with
  | 0#2 => let b : Byte := bs.getD 0 0#8
           [if signed then b.signExtend 32 else b.setWidth 32]
  | 1#2 => let w : BitVec 16 := bs.getD 1 0#8 ++ bs.getD 0 0#8
           [if signed then w.signExtend 32 else w.setWidth 32]
  | 2#2 => [wordAt bs 0]
  | _ => [wordAt bs 0, wordAt bs 4, wordAt bs 8, wordAt bs 12]

/-- The bytes a store of these registers writes in a lane (R286). -/
def storeData (h : Here) (d : Reg) (sz : BitVec 2) (l : Fin 32) : List Byte :=
  ((regsFrom d (szRegs sz)).flatMap (fun r => toLe ((h.v r)[l]).toNat 4)).take (szBytes sz)

/-- Registers of loaded lanes: register i holds word i of each lane's list. -/
def regsOfLanes (n : Nat) (ws : Lanes (List Word)) (poison : LaneMask) : List (Lanes Word × LaneMask) :=
  (List.range n).map (fun i => (Lanes.make (fun l => ws[l].getD i 0#32), poison))

/-- A load's result. -/
def loadResult (ex : LaneMask) (outs : List (Lanes Word × LaneMask)) : LaneResult :=
  { LaneResult.values ex [] with outs := outs }

/-! ## Global loads (R282, R285) -/

/-- The shape of an LM load. -/
def loadShape (i : Instr) (o : LmLd) (uniform : List Reg) : LaneShape :=
  ⟨i, o.k, .regs o.d (szRegs o.sz), none, none, [.reg o.a], uniform, some o.la.toNat⟩

/-- The registers of a pair. -/
def pairRegs (p : Reg) : List Reg := [p, p + 1#6]

/-- Keep the words that a lane load of some lanes returned, one list for each lane, for the observer (R397). -/
def noteWords (s : State) (h : Here) (m : LaneMask) (n : Nat) (addr : Fin 32 → DWord) (w : Fin 32 → Nat → Word) : State :=
  if n = 4 ∨ n = 16 then
    noteLoaded s h ((lanesIn m).flatMap (fun l => (List.range (n / 4)).map (fun i => (addr l + BitVec.ofNat 64 (4 * i), w l i))))
  else s

/-- Read memory for some lanes and account for it: fills, replicas, observed accesses (R264, R274, R396). -/
def readLanes (s : State) (h : Here) (m : LaneMask) (n : Nat) (addr : Fin 32 → DWord) (pl : Fin 32 → Place) :
    State × Lanes (List Byte) :=
  let data : Lanes (List Byte) := Lanes.make (fun l => if m.getLsbD l.val then loadBytes s h.r.core (pl l) n else [])
  let ls := lanesIn m
  let missed := ls.filter (fun l => !l1Holds s h.r.core (pl l).pa n)
  let s1 := observe s h (ls.map (fun l => ⟨addr l, n, l.val, pl l⟩)) (missed.map pl)
  let s2 := noteWords s1 h m n addr (fun l i => wordAt (data[l]) (4 * i))
  let frozen := ls.filter (fun l => s.isFrozen (pl l).pa)
  let s3 := holdReplicas s2 h.r.core (frozen.map pl)
  (ls.foldl (fun s l => if frozen.contains l then s else afterLoad s h.r.core (pl l) n) s3, data)

/-- The lanes whose access touches a poisoned granule (R218). -/
def poisonedLanes (s : State) (m : LaneMask) (n : Nat) (pl : Fin 32 → Place) : LaneMask :=
  m &&& maskOf (fun l => m.getLsbD l.val && s.poisoned (pl l).pa n)

/-- `LDG`, `LDGS` and `LDC`: check every lane, look the key up, read, commit (R282, R69). The loads of a group are performed as they issue,
in program order, which R317 and R318 do not ask for (log 52). -/
def globalLoad (s : State) (i : Instr) (o : LmLd) (signed : Bool) (fr : FreezeRule) : Host.Outcome State Fault Refusal :=
  onFragment s i .lane (fun h =>
    let ex := h.exec o.k
    let n := szBytes o.sz
    let sh := loadShape i o (pairRegs (pairReg o.p.toNat))
    let addr := lmAddr h o.a o.p o.sz o.px
    if ex = 0#32 then next s h i
    else match issueGates s h sh ex with
    | some s' => s'
    | none =>
      let c := checkLanes s h ex .load fr n addr
      match stopOn s h i [] c with
      | some s' => s'
      | none =>
        let part := ex != 0xFFFFFFFF#32
        let mem := some (memKeyOf s h ((lanesIn ex).map (fun l => (c.place l).pa)))
        match s.reuseFind h.r.core (h.reuseKey sh ex part mem) with
        | some e =>
          let s1 := noteWords s h ex n addr (fun l j => ((e.results.getD j (.zero, zeroLanes)).2)[l])
          finishLane s1 h sh ex part mem (loadResult ex (e.results.map (fun r => (r.2, 0#32))))
        | none =>
          let r := readLanes s h ex n addr c.place
          let ws : Lanes (List Word) := Lanes.make (fun l => loadWords o.sz signed r.2[l])
          let bs := (lanesIn ex).flatMap (fun l => cellsAt (c.place l).pa r.2[l])
          noteRead (finishLane r.1 h sh ex part (mem.map (fun m => m.of false bs))
            (loadResult ex (regsOfLanes (szRegs o.sz) ws (poisonedLanes s ex n c.place)))) h false bs)

def execLdg (o : LmLd) (s : State) : Host.Outcome State Fault Refusal := globalLoad s (.ldg o) o false .none
def execLdgs (o : LmLd) (s : State) : Host.Outcome State Fault Refusal := globalLoad s (.ldgs o) o true .none
def execLdc (o : LmLd) (s : State) : Host.Outcome State Fault Refusal := globalLoad s (.ldc o) o false .mustFreeze

/-! ## First-fault load (R284) -/

/-- The active lanes below a lane. -/
def lanesBelow (ex : LaneMask) (f : Fin 32) : LaneMask := ex &&& maskOf (fun l => decide (l.val < f.val))

/-- Commit a first-fault load: the loaded lanes and Z, now or under the window (R95). -/
def commitFirstFault (s : State) (h : Here) (i : Instr) (o : LmLd) (ex : LaneMask) (outs : List (Lanes Word × LaneMask)) (m : LaneMask) : State :=
  let r := loadResult m outs
  let d := o.d
  let n := szRegs o.sz
  if o.la = 0#4 then
    let a := writeDst s (h.setCC ex none (some (~~~m)) none none) (.regs d n) r
    (next a.1 a.2 i).evictNames h.r.core
  else
    let p := { pendOf h d n r o.la.toNat none with zMask := ex, zVal := ex &&& ~~~m }
    let h1 := { h with f := { h.f with pending := (regsFrom d n).foldl (dropVector · true) (dropZ h.f.pending ex) } }
    s.put ((h1.advance i.bytes).pend p)

def execLdff (o : LmLd) (s : State) : Host.Outcome State Fault Refusal :=
  onFragment s (.ldff o) .lane (fun h =>
    let i : Instr := .ldff o
    let ex := h.exec o.k
    let n := szBytes o.sz
    let addr := lmAddr h o.a o.p o.sz o.px
    match lowestLane ex with
    | none => next s h i
    | some l0 =>
      match issueGates s h (loadShape i o []) ex with
      | some s' => s'
      | none =>
        let one := checkLanes s h (1#32 <<< l0.val) .load .none n addr
        match stopOn s h i [] one with
        | some s' => s'
        | none =>
          let good (l : Fin 32) : Bool := match check1 s h .load .none n n (addr l) with
            | .ok _ => true
            | .bad _ _ _ _ _ => false
            | .wait _ _ => false
          let m := match (lanesIn ex).find? (fun l => !good l) with
            | some f => lanesBelow ex f
            | none => ex
          let c := checkLanes s h m .load .none n addr
          let r := readLanes s h m n addr c.place
          let ws : Lanes (List Word) := Lanes.make (fun l => loadWords o.sz false r.2[l])
          noteRead (commitFirstFault r.1 h i o ex (regsOfLanes (szRegs o.sz) ws (poisonedLanes s m n c.place)) m) h false
            ((lanesIn m).flatMap (fun l => cellsAt (c.place l).pa r.2[l])))

/-! ## Scratchpad loads (R282, R260) -/

def execLdp (o : LmLd) (s : State) : Host.Outcome State Fault Refusal :=
  onFragment s (.ldp o) .padMove (fun h =>
    let i : Instr := .ldp o
    let ex := h.exec o.k
    let n := szBytes o.sz
    let sh := loadShape i o (pairRegs (pairReg o.p.toNat))
    let addr := lmAddr h o.a o.p o.sz o.px
    match teamOf s h with
    | none => next s h i
    | some t =>
      if ex = 0#32 then next s h i
      else match issueGates s h sh ex with
      | some s' => s'
      | none => match stopOn s h i [] (checkPadAlign ex n addr) with
        | some s' => s'
        | none =>
          let out := outside t ex n addr
          let m := ex &&& ~~~out
          let part := ex != 0xFFFFFFFF#32
          let bs := (lanesIn m).flatMap (fun l => cellsAt (addr l).toNat (padRead t (addr l).toNat n))
          let mem : MemKey := { gens := [], epoch := some (h.g.uid, h.g.epoch), read := bs, pad := true }
          let key := h.reuseKey sh ex part (some mem)
          let ws : Lanes (List Word) := Lanes.make (fun l =>
            if m.getLsbD l.val then loadWords o.sz false (padRead t (addr l).toNat n) else [])
          let bad := m &&& maskOf (fun l => m.getLsbD l.val && padPoisoned t (addr l).toNat n)
          let fresh := loadResult m (regsOfLanes (szRegs o.sz) ws bad)
          if out = 0#32 then
            match s.reuseFind h.r.core key with
            | some e => finishLane s h sh ex part (some mem) (loadResult ex (e.results.map (fun r => (r.2, 0#32))))
            | none => noteRead (finishLane s h sh ex part (some mem) fresh) h true bs
          else noteRead (commitLane (s.countLookup h.r.core key false) (h.removeLanes out) sh m fresh key) h true bs)

/-! ## Stores (R286) -/

/-- Store a lane's bytes, ascending lanes, so that the highest lane stands (R263). A lane whose data has been poisoned after the checks
poisons what it writes (R195, R218). -/
def storeLanes (s : State) (h : Here) (ex : LaneMask) (d : Reg) (sz : BitVec 2) (pl : Fin 32 → Place) : State :=
  let s1 := (lanesIn ex).foldl (fun s l => storeBytes s h.writer (pl l) (storeData h d sz l)) s
  let bytes (m : LaneMask) : List Nat := (lanesIn m).flatMap (fun l => (List.range (szBytes sz)).map (fun i => (pl l).pa + i))
  settlePoison s1 (bytes ex) (bytes (h.poisonRead ex ((regsFrom d (szRegs sz)).map Src.reg)))

/-- The shape of a store: it reads A and D. -/
def storeShape (i : Instr) (o : LmSt) : LaneShape :=
  ⟨i, o.k, .none, none, none, Src.reg o.a :: (regsFrom o.d (szRegs o.sz)).map Src.reg, [], none⟩

def execStg (o : LmSt) (s : State) : Host.Outcome State Fault Refusal :=
  onFragment s (.stg o) .lane (fun h =>
    let i : Instr := .stg o
    let ex := h.exec o.k
    let n := szBytes o.sz
    if ex = 0#32 then next s h i
    else match issueOnce s h (storeShape i o) ex with
    | some s' => s'
    | none =>
      let addr := lmAddr h o.a o.p o.sz o.px
      let c := checkLanes s h ex .store .mustThaw n addr
      match stopOn s h i (passedLanes s h ex n addr) c with
      | some s' => s'
      | none => next (storeLanes s h ex o.d o.sz c.place) h.endEpoch i)

/-- Write lanes to a scratchpad, ascending. -/
def padStoreLanes (t : Team) (h : Here) (m : LaneMask) (d : Reg) (sz : BitVec 2) (addr : Fin 32 → DWord) : Team :=
  let t1 := (lanesIn m).foldl (fun t l => padWrite t (addr l).toNat (storeData h d sz l)) t
  padPoison t1 ((lanesIn m).flatMap (fun l => (List.range (szBytes sz)).map (fun i => (addr l).toNat + i))) []

def execStp (o : LmSt) (s : State) : Host.Outcome State Fault Refusal :=
  onFragment s (.stp o) .padMove (fun h =>
    let i : Instr := .stp o
    let ex := h.exec o.k
    let n := szBytes o.sz
    let addr := lmAddr h o.a o.p o.sz o.px
    match teamOf s h with
    | none => next s h i
    | some t =>
      if ex = 0#32 then next s h i
      else match issueGates s h (storeShape i o) ex with
      | some s' => s'
      | none => match stopOn s h i [] (checkPadAlign ex n addr) with
        | some s' => s'
        | none =>
          let out := outside t ex n addr
          next (s.setTeam (padStoreLanes t h (ex &&& ~~~out) o.d o.sz addr)) (h.removeLanes out).endEpoch i)

/-! ## MVT (R178 to R180) -/

/-- The address of word w of the matrix. -/
def mvtAddr (h : Here) (o : MvtOp) (w : Nat) : DWord := h.sp o.b + BitVec.ofNat 64 (4 * o.off.toNat) + BitVec.ofNat 64 (4 * w)

/-- Row i of a lane: the chain from the bias over the inputs (R179). -/
def mvtRow (rm : BitVec 2) (n : Nat) (ws : List Word) (ins : List Word) (i : Nat) : LaneOut :=
  let at' (j : Nat) : Word := ws.getD (i * (n + 1) + j) 0#32
  chainOut rm (at' n) ((List.range n).map (fun j => (f32 (at' j), f32 (ins.getD j 0#32))))

/-- Row i of the matrix reads a poisoned granule (R218; that this poisons the row's result and no other: log 48). -/
def rowPoisoned (s : State) (n : Nat) (ps : List Place) (i : Nat) : Bool :=
  ((ps.drop (i * (n + 1))).take (n + 1)).any (fun p => s.poisoned p.pa 4)

/-- What `MVT` computes from its places. -/
def mvtResult (s : State) (h : Here) (ex : LaneMask) (m n : Nat) (srcs : List Reg) (ps : List Place) : LaneResult :=
  let ws := ps.map (fun p => wordOf (homeBytes s p.pa 4))
  let vals := srcs.map h.v
  let rows : Lanes (List LaneOut) := Lanes.make (fun l =>
    if ex.getLsbD l.val then (List.range m).map (mvtRow h.f.view.rm n ws (vals.map (fun v => v[l]))) else [])
  { LaneResult.values ex [] with
    outs := (List.range m).map (fun k =>
      (Lanes.make (fun l => (rows[l].getD k LaneOut.idle).val), if rowPoisoned s n ps k then ex else 0#32))
    flags := rows.toList.foldl (fun f os => os.foldl (fun f o => f ||| o.flags) f) 0#5
    cls := fun c => ex &&& maskOf (fun l => rows[l].any (fun o => o.cls.getLsbD c.val)) }

/-- `MVT`: the checks of R180, the lookup (R71), the rows, the commit. -/
def execMvt (o : MvtOp) (s : State) : Host.Outcome State Fault Refusal :=
  onFragment s (.mvt o) .lane (fun h =>
    let i : Instr := .mvt o
    let ex := h.exec o.k
    let m := o.m1.toNat + 1
    let n := o.n1.toNat + 1
    let srcs := regsFrom o.a n
    let sh : LaneShape := ⟨i, o.k, .regs o.d m, none, none, srcs.map Src.reg, pairRegs o.b, some (h.laFor o.la)⟩
    if ex = 0#32 then next s h i
    else match issueGates s h sh ex with
    | some s' => s'
    | none =>
      let checks := (List.range (m * (n + 1))).map (fun w => check1 s h .load .mustFreeze 4 4 (mvtAddr h o w))
      match gatherRange ex checks with
      | .trap t => trapOf s h i t
      | .wait w => s.put (h.wait w)
      | .ok ps =>
        let pas := ps.map (fun p => p.pa)
        let part := ex != 0xFFFFFFFF#32
        let mem := some (memKeyOf s h pas)
        match s.reuseFind h.r.core (h.reuseKey sh ex part mem) with
        | some e => finishLane s h sh ex part mem { loadResult ex (e.results.map (fun r => (r.2, 0#32))) with flags := e.flags }
        | none => finishLane (holdReplicas s h.r.core ps) h sh ex part mem (mvtResult s h ex m n srcs ps))

end Sys2Proof.Machine
end

