-- ==== Sys2Proof/Machine/Matrix.lean ====
section
/-! DEFINITION. The matrix engine's instructions (R337 to R358): ownership, shape records, the row index source, `MLOOP`'s
checks at issue and its steps, and tile moves. The engine's own work stands in Engine.lean.
-/

namespace Sys2Proof.Machine

/-- A matrix instruction of the engine's owner; of any other group it traps (R337), with step 0 in the frame, for an `MLOOP` that is issued
again at a later step too (R353; log 52). -/
def onOwner (s : State) (i : Instr) (f : Here → Engine → State) : Host.Outcome State Fault Refusal :=
  onFragment s i .matrix (fun h =>
    let e := (s.core h.r.core).engine
    if e.owner = some h.g.uid then f h e else plainTrap s h i cMatrixOwner 0#8)

/-! ## Ownership (R339 to R341) -/

def execMown (s : State) : Host.Outcome State Fault Refusal :=
  onFragment s .mown .matrix (fun h =>
    let c := h.r.core
    let e := (s.core c).engine
    let u := h.g.uid
    let queued (w : Bool) (e : Engine) : State := (s.setEngine c e).put (h.wait (.owner w))
    if e.owner = some u then next s h .mown
    else if e.queue.contains u then queued false e
    else if e.held.contains u then queued true e
    else if e.owner = none && e.queue.isEmpty then grantEngine (next s h .mown) c u
    else if e.queue.length < 8 then queued false { e with queue := e.queue ++ [u] }
    else queued true { e with held := e.held ++ [u] })

def execMrel (s : State) : Host.Outcome State Fault Refusal :=
  onOwner s .mrel (fun h _ => releaseEngine (next s h .mrel) h.r.core)

/-- Hand the engine to a group of the core: it leaves the queue or its hold, and a place of the queue may free (R341). -/
def passEngine (s : State) (c : Fin 256) (uid : Nat) : State :=
  let s1 := grantEngine s c uid
  let k := s1.core c
  let e := { k.engine with held := k.engine.held.filter (· != uid) }
  s1.setCore c ({ k with engine := e.letIn }).markQueued

/-- The resident group of a team with a `GRPID`. -/
def Core.memberOf (k : Core) (team grpid : Nat) : Option Group :=
  ((k.groupsOf team).filterMap (fun i => k.slots[i])).find? (fun g => g.grpid == grpid)

def execMpass (g : BitVec 12) (s : State) : Host.Outcome State Fault Refusal :=
  onOwner s (.mpass g) (fun h _ =>
    let i : Instr := .mpass g
    let c := h.r.core
    let target := (teamOf s h).bind (fun t => (s.core c).memberOf t.uid g.toNat)
    match target with
    | none => plainTrap s h i cIllegal 0x03#8
    | some x =>
      if x.role = .copy ∨ x.role = .vector then plainTrap s h i cIllegal 0x03#8
      else if x.uid = h.g.uid then next s h i
      else if x.live.isEmpty then releaseEngine (next s h i) c
      else passEngine (next s h i) c x.uid)

/-! ## Shape slots and the index source (R347, R348) -/

/-- Thirty-two bytes as a record. -/
def recordOf (bs : List Byte) : Vector Byte 32 := Vector.ofFn (fun i : Fin 32 => bs.getD i.val 0#8)

/-- `MSHAPE`: one global load of 32 bytes, of a frozen line a replica's (R327); every earlier engine operation comes first. No rule
says what a poisoned granule does to a shape slot: the bytes are taken as they are (log 50). -/
def execMshape (o : GlOp) (s : State) : Host.Outcome State Fault Refusal :=
  onOwner s (.mshape o) (fun h _ =>
    let i : Instr := .mshape o
    let va := h.sp (pairReg o.p.toNat) + glOff o.imm o.hi * 32#64
    match gatherRange h.lanes [check1 s h .load .none 32 32 va] with
    | .trap t => trapOf s h i t
    | .wait w => s.put (h.wait w)
    | .ok ps =>
      let c := h.r.core
      let p := ps.headD Place.none
      let r := recordOf (loadBytes s c p 32)
      let s1 := drainEngine (if s.isFrozen p.pa then holdReplicas s c [p] else afterLoad s c p 32) c
      let e := (s1.core c).engine
      next (s1.setEngine c { e with shapes := kSet e.shapes (o.d.setWidth 3) { record := some r, status := 0#32 } }) h i)

def execMidx (a : Reg) (s : State) : Host.Outcome State Fault Refusal :=
  onOwner s (.midx a) (fun h e => next (s.setEngine h.r.core { e with index := some a }) h (.midx a))

def execMidxOff (s : State) : Host.Outcome State Fault Refusal :=
  onOwner s .midxOff (fun h e => next (s.setEngine h.r.core { e with index := none }) h .midxOff)

/-! ## MLOOP (R349, R350, R353, R355) -/

/-- The K-blocks a loop touches. -/
def loopBlocks (x : Shape) (n : Nat) : Nat := (n * x.kstep + 31) / 32

/-- R350's checks of a slot's record against the loop's fields: the first that fails. -/
def loopCheck (e : Engine) (o : MloopOp) : Option Byte :=
  match (kGet e.shapes o.sl).record with
  | none => some 0x01#8
  | some r =>
    let x := shapeOf r
    let n := o.n.toNat
    let k := innerK x.afmt x.planesStored x.astride
    let j := loopBlocks x n
    if shapeInvalid r then some 0x02#8
    else if !shapePair x then some 0x03#8
    else if k != innerK x.bfmt 0 x.bstride then some 0x04#8
    else if decide (k < n * x.kstep) then some 0x05#8
    else if (match e.index with
        | some a => decide (63 < a.toNat + (x.m - 1) / 32)
        | none => false) ||
        (scalesApply x && (decide (63 < o.vs.toNat + o.sel.toNat + j - 1) || decide (16 < o.sel.toNat + j))) then some 0x06#8
    else none

/-- The row indexes of a loop as the registers stand (R348). -/
def loopRows (h : Here) (e : Engine) (x : Shape) : List Nat :=
  (List.range x.m).map (fun i => match e.index with
    | none => i
    | some a => ((h.v (a + BitVec.ofNat 6 (i / 32)))[i % 32]'(by omega)).toNat)

/-- The scale registers of a loop (R349), of those up to `v63`. -/
def loopScaleRegs (o : MloopOp) (x : Shape) : List Reg :=
  if scalesApply x then
    ((List.range (loopBlocks x o.n.toNat)).map (fun j => o.vs.toNat + o.sel.toNat + j)).filterMap (fun r =>
      if r ≤ 63 then some (BitVec.ofNat 6 r) else none)
  else []

/-- The lanes below a number. -/
def firstLanes (n : Nat) : LaneMask := maskOf (fun l => decide (l.val < n))

/-- The poisoned lane words that a loop reads: row indexes of rows below M, and scales of those rows (R219). -/
def loopPoison (h : Here) (e : Engine) (o : MloopOp) (x : Shape) : LaneMask :=
  let index := match e.index with
    | none => 0#32
    | some a => (List.range ((x.m + 31) / 32)).foldl (fun m j =>
        m ||| ((h.vregAt (a.toNat + j)).poison &&& firstLanes (x.m - 32 * j))) 0#32
  (loopScaleRegs o x).foldl (fun m r => m ||| ((h.vreg r).poison &&& firstLanes x.m)) index

/-- The register sources of a loop are poisoned; a slot that names no sources has none. -/
def loopSources (h : Here) (e : Engine) (o : MloopOp) : LaneMask := match (kGet e.shapes o.sl).record with
  | none => 0#32
  | some r => if shapeInvalid r then 0#32 else loopPoison h e o (shapeOf r)

/-- The lowest number of a list that meets a test. -/
def lowest (l : List Nat) (p : Nat → Bool) : Option Nat :=
  l.foldl (fun m a => if p a then (match m with
    | none => some a
    | some b => some (min a b)) else m) none

/-- The fault of one step, if it has one: bounds come before poison (R350). -/
def stepFault (t : Team) (x : Shape) (rows : List Nat) (k : Nat) : Option (Byte × Byte × Nat) :=
  let bs := stepBytes x rows k
  match lowest bs (fun a => !padInside t a 1) with
  | some a => some (cShape, 0x10#8, a)
  | none => (lowest bs (fun a => padPoisoned t a 1)).map (fun a => (cEcc, 0x04#8, a))

/-- The first step of [from, stop) that cannot be performed. -/
def loopFault (t : Team) (x : Shape) (rows : List Nat) (start stop : Nat) : Option (Nat × Byte × Byte × Nat) :=
  (List.range (stop - start)).findSome? (fun d => (stepFault t x rows (start + d)).map (fun f => (start + d, f)))

/-- An address field of a record moved by 16 bytes times an increment, modulo 2^32 (R355). -/
def addAddr (r : Vector Byte 32) (at' : Nat) (inc : BitVec 12) : Vector Byte 32 :=
  let old := wordOf ((List.range 4).map (fun i => r.toList.getD (at' + i) 0#8))
  let new := toLe (old + inc.signExtend 32 * 16#32).toNat 4
  Vector.ofFn (fun i : Fin 32 => if at' ≤ i.val ∧ i.val < at' + 4 then new.getD (i.val - at') 0#8 else r[i])

/-- A record after a loop's increments. -/
def loopIncs (r : Vector Byte 32) (inc : Option (BitVec 12 × BitVec 12)) : Vector Byte 32 := match inc with
  | none => r
  | some p => addAddr (addAddr r 8 p.1) 16 p.2

/-- Queue the steps [start, stop) of a loop. -/
def queueRun (e : Engine) (run : LoopRun) : Engine := if run.next < run.stop then { e with runs := e.runs ++ [run] } else e

/-- `MLOOP` once its checks have passed: the steps up to a faulting one and its trap, or all of them and the increments. -/
def startLoop (s : State) (h : Here) (o : MloopOp) (e : Engine) (t : Team) (r : Vector Byte 32) : State :=
  let i : Instr := .mloop o
  let c := h.r.core
  let x := shapeOf r
  let rows := loopRows h e x
  let run : LoopRun :=
    { slot := o.sl, record := r, team := t.uid, group := h.g.uid, rows := rows
      scales := (loopScaleRegs o x).map h.v, next := h.f.resume, stop := o.n.toNat }
  match loopFault t x rows h.f.resume o.n.toNat with
  | some (k, cause, sub, a) =>
    let s1 := drainEngine (s.setEngine c (queueRun e { run with stop := k })) c
    trapOf s1 { h with f := { h.f with resume := k } } i ⟨cause, sub, h.lanes, BitVec.ofNat 64 a, 0#64, k⟩
  | none =>
    let sh := kGet e.shapes o.sl
    let e1 := { e with shapes := kSet e.shapes o.sl { sh with record := some (loopIncs r o.inc) } }
    next (s.setEngine c (queueRun e1 run)) h i

/-- `MLOOP`. Poisoned sources are reported by their lanes, in the fragment or not (R196, R219; log 52). -/
def execMloop (o : MloopOp) (s : State) : Host.Outcome State Fault Refusal :=
  onOwner s (.mloop o) (fun h e =>
    let i : Instr := .mloop o
    let p := loopSources h e o
    if p ≠ 0#32 then trapOf s h i ⟨cEcc, 0x01#8, p, 0#64, 0#64, h.f.resume⟩
    else match loopCheck e o with
    | some sub => trapOf s h i ⟨cShape, sub, h.lanes, 0#64, 0#64, h.f.resume⟩
    | none => match (kGet e.shapes o.sl).record, teamOf s h with
      | some r, some t => startLoop s h o e t r
      | _, _ => next s h i)

/-! ## Tile moves (R356 to R358) -/

def execMzero (t : BitVec 12) (s : State) : Host.Outcome State Fault Refusal :=
  onOwner s (.mzero t) (fun h _ =>
    let c := h.r.core
    let s1 := drainEngine s c
    let e := (s1.core c).engine
    let n := Fin.ofNat 4 t.toNat
    next (s1.setEngine c { e with acc := e.acc.set n [], accPoison := e.accPoison.set n [] }) h (.mzero t))

/-- What `MRD` delivers for a row: four registers' lanes with their poison. -/
def readRow (e : Engine) (t : BitVec 2) (r : Nat) : List (Lanes Word × LaneMask) :=
  (List.range 4).map (fun i =>
    if r ≤ 127 then
      (Lanes.make (fun l => tileGet e.acc[t.toFin] (128 * r + 32 * i + l.val)),
       maskOf (fun l => setHas e.accPoison[t.toFin] (128 * r + 32 * i + l.val)))
    else
      let st := (kGet e.shapes (BitVec.ofNat 3 (r - 128))).status
      (Lanes.make (fun l => if i = 0 ∧ l.val = 0 then st else 0#32), 0#32))

def execMrd (d a : Reg) (t : BitVec 2) (s : State) : Host.Outcome State Fault Refusal :=
  onOwner s (.mrd d a t) (fun h _ =>
    let i : Instr := .mrd d a t
    let r := (h.s a).toNat
    if 135 < r then plainTrap s h i cIllegal 0x03#8
    else match budgetGate s h i (h.raises h.lanes (if h.lanes = 0#32 then .none else .regs d 4) false) with
    | some s' => s'
    | none =>
      let s1 := drainEngine s h.r.core
      let rows := readRow (s1.core h.r.core).engine t r
      let w := ((regsFrom d 4).zip rows).foldl (fun x p => writeV x p.1 p.2 h.lanes) (s1, h)
      (next w.1 w.2 i).evictNames h.r.core)

/-- Row r of a tile from 128 words, and the row's poison cleared. -/
def writeRow (e : Engine) (t : BitVec 2) (r : Nat) (w : Nat → Word) : Engine :=
  let n := t.toFin
  { e with
    acc := e.acc.set n ((List.range 128).foldl (fun tile c => tileSet tile (128 * r + c) (w c)) e.acc[n])
    accPoison := e.accPoison.set n (e.accPoison[n].filter (fun a => a / 128 != r)) }

/-- `MWR`. A row above 135 is looked at before poisoned sources, and those are reported by their lanes, in the fragment or not
(R196, R219, R358; log 52). -/
def execMwr (d a : Reg) (t : BitVec 2) (s : State) : Host.Outcome State Fault Refusal :=
  onOwner s (.mwr d a t) (fun h _ =>
    let i : Instr := .mwr d a t
    let r := (h.s a).toNat
    let bad := (regsFrom d 4).foldl (fun m x => m ||| (h.vreg x).poison) 0#32
    if 135 < r then plainTrap s h i cIllegal 0x03#8
    else if bad ≠ 0#32 then trapOf s h i (.plain cEcc 0x01#8 bad)
    else
      let c := h.r.core
      let s1 := drainEngine s c
      let e := (s1.core c).engine
      let word (n : Nat) : Word := (h.v (d + BitVec.ofNat 6 (n / 32)))[n % 32]'(by omega)
      let e1 :=
        if r ≤ 127 then writeRow e t r word
        else
          let sl : BitVec 3 := BitVec.ofNat 3 (r - 128)
          let sh := kGet e.shapes sl
          { e with shapes := kSet e.shapes sl { sh with status := (word 0).setWidth 9 |>.setWidth 32 } }
      next (s1.setEngine c e1) h i)

end Sys2Proof.Machine
end

