-- ==== Sys2Proof/Machine/Nodes.lean ====
section
/-! DEFINITION. Work graphs: `EMIT` (R249, R250), a record's arrival at its bin (R379), and node teams (R380). -/

namespace Sys2Proof.Machine

/-- The nodes of a module, with their places in the context's list, in `.nodes` order. -/
def moduleNodes (x : Context) (module : Nat) : List Nat :=
  (x.nodes.zipIdx.filter (fun n => n.1.module == module)).map Prod.snd

/-- The module of a launch. -/
def moduleOf (s : State) (launch : Nat) : Nat := match s.launch? launch with
  | some l => l.module
  | none => 0

/-- The round a launch's teams send in (R379). -/
def roundOf (s : State) (launch : Nat) : Nat := match s.launch? launch with
  | some l => (match l.kind with
    | .node _ _ r => r
    | .host => l.seq
    | .task _ _ => l.seq)
  | none => 0

/-- The record of one lane (R378). -/
def laneRecord (s : State) (h : Here) (a : Reg) (node : Nat) (l : Fin 32) : NodeRecord :=
  { core := h.r.core.val, group := h.g.grpid, lane := l.val, team := match teamOf s h with
      | some t => t.teamid
      | none => 0#32
    round := roundOf s h.g.launch, node := node, overflow := false
    payload := #v[(h.v a)[l], (h.v (a + 1#6))[l], (h.v (a + 2#6))[l], (h.v (a + 3#6))[l]] }

/-- Send the records of some lanes, after the work of a release at `.pkg` (R250). -/
def sendRecords (s : State) (h : Here) (a : Reg) (node : Nat) (ex : LaneMask) : State :=
  let s1 := (releaseWork s h .pkg).1
  let n := s1.fresh
  let rs := (lanesIn ex).zipIdx.map (fun l => Emitted.mk (n + l.2) n h.g.uid h.g.launch h.g.ctx (laneRecord s1 h a node l.1))
  { s1 with emits := s1.emits ++ rs, fresh := n + rs.length }

/-- `EMIT` (R250). In a speculative task it traps; the trap names no byte, and its address is 0 (R375; log 52). -/
def execEmit (o : LrN) (s : State) : Host.Outcome State Fault Refusal :=
  onFragment s (.emit o) .lane (fun h =>
    let i : Instr := .emit o
    let ex := h.exec o.k
    let node := (h.s o.b).toNat
    let rs := (regsFrom o.a 4).map Src.reg
    if ex = 0#32 then next s h i
    else match s.ctx? h.g.ctx with
    | none => next s h i
    | some x =>
      if (moduleNodes x (moduleOf s h.g.launch)).length ≤ node then plainTrap s h i cIllegal 0x03#8
      else match issueGates s h ⟨i, o.k, .none, none, none, rs, [], none⟩ ex with
      | some s' => s'
      | none =>
        if isSpeculative s h then trapOf s h i (.plain cPriv 0#8 ex)
        else next (sendRecords s h o.a node ex) h i)

/-! ## Bins (R379, R380) -/

/-- The number of a node in its module. -/
def nodeNumber (x : Context) (i : Nat) : Nat := match x.nodes[i]? with
  | some n => ((moduleNodes x n.module).findIdx? (· == i)).getD 0
  | none => 0

/-- Launch a team of a node on its k oldest records (R380). -/
def launchNode (s : State) (ctx i k : Nat) : State :=
  match s.ctx? ctx with
  | none => s
  | some x => match x.nodes[i]? with
    | none => s
    | some n =>
      let rs := n.bin.take k
      let round := (rs.head?.map (fun r => r.round)).getD 0
      let x1 := { x with nodes := x.nodes.set i { n with bin := n.bin.drop k, expiry := none } }
      let s1 := s.setCtx x1
      match kernelOf s1 ctx n.module n.block with
      | none => s1
      | some b =>
        acceptLaunch s1 x1 n.module n.block 1 [BitVec.ofNat 64 rs.length, BitVec.ofNat 64 (nodeNumber x i)] (.node i rs round) round b

/-- Records a node has accepted in a round. -/
def acceptedIn (n : Node) (round : Nat) : Nat := (tableFind n.accepted round).getD 0

/-- A record enters a bin: the timer of the oldest starts, and a full bin launches. -/
def enterBin (s : State) (ctx i : Nat) (r : NodeRecord) : State :=
  match s.ctx? ctx with
  | none => s
  | some x => match x.nodes[i]? with
    | none => s
    | some n =>
      let expiry := if n.bin.isEmpty && n.timer != 0 then some (s.now + n.timer) else n.expiry
      let n1 := { n with bin := n.bin ++ [r], expiry := expiry, accepted := tablePut n.accepted r.round (acceptedIn n r.round + 1) }
      let s1 := s.setCtx { x with nodes := x.nodes.set i n1 }
      if n.coalesce ≤ n1.bin.length then launchNode s1 ctx i n.coalesce else s1

/-- A record beyond a node's capacity is dropped and counted. -/
def dropRecord (s : State) (ctx i : Nat) : State :=
  match s.ctx? ctx with
  | none => s
  | some x => match x.nodes[i]? with
    | none => s
    | some n => s.setCtx { x with nodes := x.nodes.set i { n with dropped := n.dropped + 1#64 } }

/-- A record arrives at its node (R379). -/
def arriveRecord (s : State) (ctx i : Nat) (r : NodeRecord) : State :=
  match (s.ctx? ctx).bind (fun x => x.nodes[i]?) with
  | none => s
  | some n =>
    if n.capacity = 0 ∨ acceptedIn n r.round < n.capacity then enterBin s ctx i r
    else match n.overTo with
      | some j => enterBin s ctx j { r with overflow := true }
      | none => dropRecord s ctx i

/-- What a sent record still waits for: earlier records of its `EMIT`, and the writes that the release of its group waits for, those of its
core and the group's `REDG`s and `CPYO`s (R250, R379). -/
def recordHeld (s : State) (e : Emitted) : Bool :=
  s.emits.any (fun x => x.emit == e.emit && decide (x.id < e.id)) ||
  s.writes.any (fun w => (w.core.val == e.record.core || w.group == e.group) && decide (w.id < e.id)) ||
  s.copies.any (fun c => c.group == e.group && c.out && decide (c.id < e.id))

/-- `EMIT_RECORD_ARRIVAL`: sent record number n enters its bin. -/
def execEmitRecordArrival (n : Nat) (s : State) : Host.Outcome State Fault Refusal :=
  .next (match s.emits.find? (fun e => e.id == n) with
    | none => s
    | some e =>
      if recordHeld s e then s
      else
        let s1 := { s with emits := s.emits.filter (fun x => x.id != n) }
        match s1.ctx? e.ctx with
        | some x => match (moduleNodes x (moduleOf s1 e.launch))[e.record.node]? with
          | some i => arriveRecord s1 e.ctx i e.record
          | none => s1
        | none => s1)

/-- `NODE_TIMER_EXPIRY`: the node launches a team on every pending record (R380). -/
def execNodeTimerExpiry (ctx node : Nat) (s : State) : Host.Outcome State Fault Refusal :=
  .next (match (s.ctx? ctx).bind (fun x => x.nodes[node]?) with
    | none => s
    | some n => match n.expiry with
      | some t => if t ≤ s.now && !n.bin.isEmpty then launchNode s ctx node n.bin.length else s
      | none => s)

end Sys2Proof.Machine
end

