-- ==== Sys2Proof/Machine/Special.lean ====
section
/-! DEFINITION. Mask functions (R233, R234), `KILL` and `WIN` (R54 to R61), `SETPART` (R235), and the special registers
(R65, R138, R209 to R211).
-/

namespace Sys2Proof.Machine

/-! ## Mask functions -/

/-- K[kd] := f K[ka] K[kb]. -/
def gmB (s : State) (i : Instr) (o : GmB) (f : Word → Word → Word) : Host.Outcome State Fault Refusal :=
  uniRun s i (fun h => h.setK o.kd (f (h.f.view.mask o.ka) (h.f.view.mask o.kb)))

def execKand (o : GmB) (s : State) : Host.Outcome State Fault Refusal := gmB s (.kand o) o (fun a b => a &&& b)
def execKor (o : GmB) (s : State) : Host.Outcome State Fault Refusal := gmB s (.kor o) o (fun a b => a ||| b)
def execKxor (o : GmB) (s : State) : Host.Outcome State Fault Refusal := gmB s (.kxor o) o (fun a b => a ^^^ b)
def execKandn (o : GmB) (s : State) : Host.Outcome State Fault Refusal := gmB s (.kandn o) o (fun a b => a &&& ~~~b)
def execKnot (kd ka : KReg) (s : State) : Host.Outcome State Fault Refusal :=
  uniRun s (.knot kd ka) (fun h => h.setK kd (~~~(h.f.view.mask ka)))
def execKmov (kd : KReg) (x : Reg) (s : State) : Host.Outcome State Fault Refusal :=
  uniRun s (.kmov kd x) (fun h => h.setK kd (h.s x))
def execKtos (ka : KReg) (x : Reg) (s : State) : Host.Outcome State Fault Refusal :=
  uniRun s (.ktos ka x) (fun h => h.setS x (h.f.view.mask ka))
def execKpop (ka : KReg) (x : Reg) (s : State) : Host.Outcome State Fault Refusal :=
  uniRun s (.kpop ka x) (fun h => h.setS x (BitVec.ofNat 32 (popc32 (h.f.view.mask ka))))
def execKffs (ka : KReg) (x : Reg) (s : State) : Host.Outcome State Fault Refusal :=
  uniRun s (.kffs ka x) (fun h => h.setS x (match lowestLane (h.f.view.mask ka) with
    | some l => BitVec.ofNat 32 l.val
    | none => 32#32))

/-- `KSET` (R234): fragment lanes of K[ka] whose codes meet the condition. -/
def execKset (kd ka cond : KReg) (s : State) : Host.Outcome State Fault Refusal :=
  uniRun s (.kset kd ka cond) (fun h =>
    let cc := h.g.cc
    h.setK kd (h.lanes &&& h.f.view.mask ka &&& maskOf (fun l =>
      condHolds (0#1 ++ cond) (cc.c.getLsbD l.val) (cc.z.getLsbD l.val) (cc.n.getLsbD l.val) (cc.v.getLsbD l.val) false)))

/-! ## KILL (R54 to R57) -/

/-- The registers a `KILL` names; in a handler those from 56 on are left out (R57). 'While a handler runs' is read as in the handler:
another fragment of the group that runs beside it names all of them (log 50). -/
def killNames (h : Here) (b : Reg) (m : BitVec 16) : BitVec 64 :=
  let set : BitVec 64 := (m.setWidth 64) <<< b.toNat
  if h.inHandler then set &&& 0x00FFFFFFFFFFFFFF#64 else set

def execKill (b : Reg) (m : BitVec 16) (s : State) : Host.Outcome State Fault Refusal :=
  onFragment s (.kill b m) .control (fun h =>
    let set := killNames h b m
    if h.g.single then
      let rs := (List.range 64).filter (fun n => set.getLsbD n)
      let h1 : Here :=
        { h with g := h.g.unmap set, f := { h.f with pending := rs.foldl (fun p n => dropVector p true (BitVec.ofNat 6 n)) h.f.pending } }
      (next s h1 (.kill b m)).evictNames h.r.core
    else next s { h with g := { h.g with killSet := h.g.killSet ||| set } } (.kill b m))

/-! ## WIN and SETPART -/

def execWin (d : BitVec 2) (a : Reg) (len : BitVec 12) (s : State) : Host.Outcome State Fault Refusal :=
  uniRun s (.win d a len) (fun h =>
    let h1 := h.note { Written.empty with w := 1#4 <<< d.toNat }
    h1.setView { h1.f.view with w := h1.f.view.w.set d.toNat ⟨a, len.setWidth 7⟩ d.isLt })

def execSetpart (n : BitVec 12) (s : State) : Host.Outcome State Fault Refusal :=
  uniRun s (.setpart n) (fun h =>
    let h1 := h.note { Written.empty with part := true }
    h1.setView { h1.f.view with part := n.setWidth 32 })

/-! ## Special registers (R65) -/

/-- `ROLE`'s value (R20). -/
def Role.code : Role → Word
  | .copy => 0#32
  | .matrix => 1#32
  | .vector => 2#32
  | .combined => 3#32

/-- `FPC` as an `SRD` reads it (R137, R138). -/
def Here.fpc (h : Here) : Word := 0#19 ++ h.g.sticky ++ h.f.view.en ++ 0#2 ++ h.f.view.rm

/-- `TEAMID`; a leap-program group reads all ones (R402). -/
def teamIdOf (s : State) (h : Here) : Word := match teamOf s h with
  | some t => t.teamid
  | none => 0xFFFFFFFF#32

/-- `TFRAME` (R199). -/
def tframeOf (s : State) (h : Here) : DWord := match s.ctx? h.g.ctx with
  | some x => BitVec.ofNat 64 (frameAddr x h.r.core h.r.slot)
  | none => 0#64

/-- A 32-bit uniform special register (R65). -/
def special32 (s : State) (h : Here) (n : Nat) : Word :=
  match n with
  | 2 => if h.g.team.isSome then BitVec.ofNat 32 h.g.grpid else 0xFFFFFFFF#32
  | 3 => teamIdOf s h
  | 4 => h.g.role.code
  | 5 => h.f.view.part
  | 6 => h.fpc
  | 9 => BitVec.ofNat 32 h.g.ctx
  | 10 => BitVec.ofNat 32 h.r.core.val
  | _ => BitVec.ofNat 32 (dieOf h.r.core).val

/-- A 64-bit special register (R65). -/
def special64 (s : State) (h : Here) (n : Nat) : DWord :=
  let k := s.core h.r.core
  match n with
  | 7 => BitVec.ofNat 64 (groupTime s h)
  | 8 => tframeOf s h
  | 12 => k.rhit
  | 13 => k.rmiss
  | _ => k.rcoll

/-- `SRD` (R209): a lane register is written in every fragment lane, whatever the masks. -/
def execSrd (d : Reg) (n : BitVec 12) (s : State) : Host.Outcome State Fault Refusal :=
  onFragment s (.srd d n) .control (fun h =>
    let i : Instr := .srd d n
    if n.toNat ≤ 1 then
      let ex := h.lanes
      if ex = 0#32 then next s h i
      else match budgetGate s h i (h.raises ex (.regs d 1) false) with
      | some s' => s'
      | none =>
        let vals : Lanes Word := Lanes.make (fun l => BitVec.ofNat 32 (if n = 0#12 then l.val else l.val / 4))
        let a := writeV (s, h) d (vals, 0#32) ex
        (next a.1 a.2 i).evictNames h.r.core
    else if srWide n then
      let h1 := if n = 7#12 then { h with g := { h.g with timeFloor := groupTime s h } } else h
      next s (h1.setSP d (special64 s h n.toNat)) i
    else next s (h.setS d (special32 s h n.toNat)) i)

/-- `SWR` of `FPC` (R138, R210). -/
def execSwr (a : Reg) (n : BitVec 12) (s : State) : Host.Outcome State Fault Refusal :=
  uniRun s (.swr a n) (fun h =>
    let w := h.s a
    let h1 := h.note { Written.empty with fp := true }
    let h2 := h1.setView { h1.f.view with rm := w.extractLsb' 0 2, en := w.extractLsb' 4 4 }
    { h2 with g := { h2.g with sticky := w.extractLsb' 8 5 } })

end Sys2Proof.Machine
end

