-- ==== Sys2Proof/Machine/Uniform.lean ====
section
/-! DEFINITION. Uniform arithmetic (R189 to R193). -/

namespace Sys2Proof.Machine

/-- D := f a b, no codes. -/
def grB (s : State) (i : Instr) (o : GrB) (f : Word → Word → Word) : Host.Outcome State Fault Refusal :=
  uniRun s i (fun h => h.setS o.d (f (h.s o.a) (h.s o.b)))

/-- D := f a. -/
def grU (s : State) (i : Instr) (o : GrU) (f : Word → Word) : Host.Outcome State Fault Refusal :=
  uniRun s i (fun h => h.setS o.d (f (h.s o.a)))

/-- Codes of a scalar compare or of a sum with carry; E stays (R189, R191). -/
def Here.setOut (h : Here) (o : LaneOut) : Here := h.setSCC (ScalarCC.ofOut o h.f.view.scc.e)

/-! ## GOP 0x00 (R190) -/

def execSadd (o : GrB) (s : State) : Host.Outcome State Fault Refusal := grB s (.sadd o) o (fun a b => a + b)
def execSaddc (o : GrB) (s : State) : Host.Outcome State Fault Refusal :=
  uniRun s (.saddc o) (fun h =>
    let r := addCodes (h.s o.a) (h.s o.b) h.f.view.scc.c
    (h.setS o.d r.val).setOut r)
def execSsub (o : GrB) (s : State) : Host.Outcome State Fault Refusal := grB s (.ssub o) o (fun a b => a - b)
def execSsubb (o : GrB) (s : State) : Host.Outcome State Fault Refusal :=
  uniRun s (.ssubb o) (fun h =>
    let r := subCodes (h.s o.a) (h.s o.b) h.f.view.scc.c
    (h.setS o.d r.val).setOut r)
def execSand (o : GrB) (s : State) : Host.Outcome State Fault Refusal := grB s (.sand o) o (fun a b => a &&& b)
def execSor (o : GrB) (s : State) : Host.Outcome State Fault Refusal := grB s (.sor o) o (fun a b => a ||| b)
def execSxor (o : GrB) (s : State) : Host.Outcome State Fault Refusal := grB s (.sxor o) o (fun a b => a ^^^ b)
def execSandn (o : GrB) (s : State) : Host.Outcome State Fault Refusal := grB s (.sandn o) o (fun a b => a &&& ~~~b)
def execSshl (o : GrB) (s : State) : Host.Outcome State Fault Refusal := grB s (.sshl o) o (fun a b => shl32 a (shiftAmount b))
def execSshr (o : GrB) (s : State) : Host.Outcome State Fault Refusal := grB s (.sshr o) o (fun a b => shr32 a (shiftAmount b))
def execSsra (o : GrB) (s : State) : Host.Outcome State Fault Refusal := grB s (.ssra o) o (fun a b => sra32 a (shiftAmount b))
def execSmul (o : GrB) (s : State) : Host.Outcome State Fault Refusal := grB s (.smul o) o (fun a b => a * b)
def execSmulh (o : GrB) (s : State) : Host.Outcome State Fault Refusal := grB s (.smulh o) o mulHi
def execSmulhu (o : GrB) (s : State) : Host.Outcome State Fault Refusal := grB s (.smulhu o) o mulHiU
def execSmin (o : GrB) (s : State) : Host.Outcome State Fault Refusal := grB s (.smin o) o minS
def execSmax (o : GrB) (s : State) : Host.Outcome State Fault Refusal := grB s (.smax o) o maxS
def execSminu (o : GrB) (s : State) : Host.Outcome State Fault Refusal := grB s (.sminu o) o minU
def execSmaxu (o : GrB) (s : State) : Host.Outcome State Fault Refusal := grB s (.smaxu o) o maxU
def execSclz (o : GrU) (s : State) : Host.Outcome State Fault Refusal := grU s (.sclz o) o (fun a => BitVec.ofNat 32 (clz32 a))
def execSpopc (o : GrU) (s : State) : Host.Outcome State Fault Refusal := grU s (.spopc o) o (fun a => BitVec.ofNat 32 (popc32 a))
def execSmov (o : GrU) (s : State) : Host.Outcome State Fault Refusal := grU s (.smov o) o (fun a => a)
def execScmp (o : GrC) (s : State) : Host.Outcome State Fault Refusal :=
  uniRun s (.scmp o) (fun h => h.setOut (subCodes (h.s o.a) (h.s o.b) false))
def execScmpu (o : GrC) (s : State) : Host.Outcome State Fault Refusal :=
  uniRun s (.scmpu o) (fun h => h.setOut (cmpuCodes (h.s o.a) (h.s o.b)))
def execSsel (o : GrB) (s : State) : Host.Outcome State Fault Refusal :=
  uniRun s (.ssel o) (fun h => h.setS o.d (if h.f.view.scc.n then h.s o.a else h.s o.b))

/-! ## GOP 0x01 (R192) -/

def execSadd64 (o : GrB) (s : State) : Host.Outcome State Fault Refusal :=
  uniRun s (.sadd64 o) (fun h => h.setSP o.d (h.sp o.a + h.sp o.b))
def execSsub64 (o : GrB) (s : State) : Host.Outcome State Fault Refusal :=
  uniRun s (.ssub64 o) (fun h => h.setSP o.d (h.sp o.a - h.sp o.b))
def execSmov64 (o : GrU) (s : State) : Host.Outcome State Fault Refusal :=
  uniRun s (.smov64 o) (fun h => h.setSP o.d (h.sp o.a))
def execSshl64 (o : GrB) (s : State) : Host.Outcome State Fault Refusal :=
  uniRun s (.sshl64 o) (fun h =>
    let n := shiftAmount (h.s o.b)
    h.setSP o.d (if 64 ≤ n then 0#64 else h.sp o.a <<< n))
def execScmp64 (o : GrC) (s : State) : Host.Outcome State Fault Refusal :=
  uniRun s (.scmp64 o) (fun h => h.setSCC (cmp64Codes (h.sp o.a) (h.sp o.b) h.f.view.scc.e))

/-! ## GI (R193) -/

/-- The immediate of a GI word (R82, R193). -/
def giImm (imm : BitVec 12) : Option (BitVec 20) → Word
  | none => imm.signExtend 32
  | some h => h ++ imm

def execSaddi (o : GiOp) (s : State) : Host.Outcome State Fault Refusal :=
  uniRun s (.saddi o) (fun h => h.setS o.d (h.s o.a + giImm o.imm o.hi))
def execSandi (o : GiOp) (s : State) : Host.Outcome State Fault Refusal :=
  uniRun s (.sandi o) (fun h => h.setS o.d (h.s o.a &&& giImm o.imm o.hi))
def execSori (o : GiOp) (s : State) : Host.Outcome State Fault Refusal :=
  uniRun s (.sori o) (fun h => h.setS o.d (h.s o.a ||| giImm o.imm o.hi))
def execSxori (o : GiOp) (s : State) : Host.Outcome State Fault Refusal :=
  uniRun s (.sxori o) (fun h => h.setS o.d (h.s o.a ^^^ giImm o.imm o.hi))
def execSshli (o : GiSh) (s : State) : Host.Outcome State Fault Refusal :=
  uniRun s (.sshli o) (fun h => h.setS o.d (shl32 (h.s o.a) o.sh.toNat))
def execSshri (o : GiSh) (s : State) : Host.Outcome State Fault Refusal :=
  uniRun s (.sshri o) (fun h => h.setS o.d (shr32 (h.s o.a) o.sh.toNat))
def execSmovi (o : GiOne) (s : State) : Host.Outcome State Fault Refusal :=
  uniRun s (.smovi o) (fun h => h.setS o.r (giImm o.imm o.hi))
def execScmpi (o : GiOne) (s : State) : Host.Outcome State Fault Refusal :=
  uniRun s (.scmpi o) (fun h => h.setOut (subCodes (h.s o.r) (giImm o.imm o.hi) false))

end Sys2Proof.Machine
end

