-- ==== Sys2Proof/Machine/Dispatch.lean ====
section
/-! DEFINITION. Dispatch: each instruction, command and event calls its meaning. -/

namespace Sys2Proof.Machine

/-- What an instruction, command or event does. -/
def exec (i : Instr) (s : State) : Host.Outcome State Fault Refusal :=
  match i with
  | .iadd x => Sys2Proof.Machine.execIadd x s
  | .iaddc x => Sys2Proof.Machine.execIaddc x s
  | .isub x => Sys2Proof.Machine.execIsub x s
  | .isubb x => Sys2Proof.Machine.execIsubb x s
  | .iabs x => Sys2Proof.Machine.execIabs x s
  | .ineg x => Sys2Proof.Machine.execIneg x s
  | .imin x => Sys2Proof.Machine.execImin x s
  | .imax x => Sys2Proof.Machine.execImax x s
  | .iminu x => Sys2Proof.Machine.execIminu x s
  | .imaxu x => Sys2Proof.Machine.execImaxu x s
  | .iand x => Sys2Proof.Machine.execIand x s
  | .ior x => Sys2Proof.Machine.execIor x s
  | .ixor x => Sys2Proof.Machine.execIxor x s
  | .iandn x => Sys2Proof.Machine.execIandn x s
  | .inot x => Sys2Proof.Machine.execInot x s
  | .imov x => Sys2Proof.Machine.execImov x s
  | .ishl x => Sys2Proof.Machine.execIshl x s
  | .ishr x => Sys2Proof.Machine.execIshr x s
  | .isra x => Sys2Proof.Machine.execIsra x s
  | .irot x => Sys2Proof.Machine.execIrot x s
  | .iclz x => Sys2Proof.Machine.execIclz x s
  | .ipopc x => Sys2Proof.Machine.execIpopc x s
  | .ibrev x => Sys2Proof.Machine.execIbrev x s
  | .ibyte x => Sys2Proof.Machine.execIbyte x s
  | .imul x => Sys2Proof.Machine.execImul x s
  | .imulh x => Sys2Proof.Machine.execImulh x s
  | .imulhu x => Sys2Proof.Machine.execImulhu x s
  | .imad x => Sys2Proof.Machine.execImad x s
  | .icmp x => Sys2Proof.Machine.execIcmp x s
  | .icmpu x => Sys2Proof.Machine.execIcmpu x s
  | .isel x => Sys2Proof.Machine.execIsel x s
  | .ibfe x => Sys2Proof.Machine.execIbfe x s
  | .ibfeu x => Sys2Proof.Machine.execIbfeu x s
  | .ibfi x => Sys2Proof.Machine.execIbfi x s
  | .iaddi x => Sys2Proof.Machine.execIaddi x s
  | .iandi x => Sys2Proof.Machine.execIandi x s
  | .iori x => Sys2Proof.Machine.execIori x s
  | .ixori x => Sys2Proof.Machine.execIxori x s
  | .ishli x => Sys2Proof.Machine.execIshli x s
  | .ishri x => Sys2Proof.Machine.execIshri x s
  | .israi x => Sys2Proof.Machine.execIsrai x s
  | .imovi x => Sys2Proof.Machine.execImovi x s
  | .fadd x => Sys2Proof.Machine.execFadd x s
  | .fsub x => Sys2Proof.Machine.execFsub x s
  | .fmul x => Sys2Proof.Machine.execFmul x s
  | .fma x => Sys2Proof.Machine.execFma x s
  | .fms x => Sys2Proof.Machine.execFms x s
  | .fnma x => Sys2Proof.Machine.execFnma x s
  | .fmin x => Sys2Proof.Machine.execFmin x s
  | .fmax x => Sys2Proof.Machine.execFmax x s
  | .fabs x => Sys2Proof.Machine.execFabs x s
  | .fneg x => Sys2Proof.Machine.execFneg x s
  | .fcmp x => Sys2Proof.Machine.execFcmp x s
  | .fclass x => Sys2Proof.Machine.execFclass x s
  | .fmas x => Sys2Proof.Machine.execFmas x s
  | .frnd x => Sys2Proof.Machine.execFrnd x s
  | .fsel x => Sys2Proof.Machine.execFsel x s
  | .fcpys x => Sys2Proof.Machine.execFcpys x s
  | .cvtfi x => Sys2Proof.Machine.execCvtfi x s
  | .cvtfn x => Sys2Proof.Machine.execCvtfn x s
  | .cvtif x => Sys2Proof.Machine.execCvtif x s
  | .cvtnf x => Sys2Proof.Machine.execCvtnf x s
  | .cvtfh x => Sys2Proof.Machine.execCvtfh x s
  | .cvthf x => Sys2Proof.Machine.execCvthf x s
  | .cvtfb x => Sys2Proof.Machine.execCvtfb x s
  | .cvtbf x => Sys2Proof.Machine.execCvtbf x s
  | .fdiv x => Sys2Proof.Machine.execFdiv x s
  | .fsqrt x => Sys2Proof.Machine.execFsqrt x s
  | .frcp x => Sys2Proof.Machine.execFrcp x s
  | .frsq x => Sys2Proof.Machine.execFrsq x s
  | .fexp2 x => Sys2Proof.Machine.execFexp2 x s
  | .flog2 x => Sys2Proof.Machine.execFlog2 x s
  | .fsin x => Sys2Proof.Machine.execFsin x s
  | .fcos x => Sys2Proof.Machine.execFcos x s
  | .ftanh x => Sys2Proof.Machine.execFtanh x s
  | .fsigm x => Sys2Proof.Machine.execFsigm x s
  | .idiv x => Sys2Proof.Machine.execIdiv x s
  | .idivu x => Sys2Proof.Machine.execIdivu x s
  | .irem x => Sys2Proof.Machine.execIrem x s
  | .iremu x => Sys2Proof.Machine.execIremu x s
  | .mvt x => Sys2Proof.Machine.execMvt x s
  | .ldg x => Sys2Proof.Machine.execLdg x s
  | .ldgs x => Sys2Proof.Machine.execLdgs x s
  | .stg x => Sys2Proof.Machine.execStg x s
  | .ldff x => Sys2Proof.Machine.execLdff x s
  | .ldp x => Sys2Proof.Machine.execLdp x s
  | .stp x => Sys2Proof.Machine.execStp x s
  | .ldc x => Sys2Proof.Machine.execLdc x s
  | .padd x => Sys2Proof.Machine.execPadd x s
  | .psub x => Sys2Proof.Machine.execPsub x s
  | .pmul x => Sys2Proof.Machine.execPmul x s
  | .pfma x => Sys2Proof.Machine.execPfma x s
  | .pmin x => Sys2Proof.Machine.execPmin x s
  | .pmax x => Sys2Proof.Machine.execPmax x s
  | .pabs x => Sys2Proof.Machine.execPabs x s
  | .pavg x => Sys2Proof.Machine.execPavg x s
  | .pcmpeq x => Sys2Proof.Machine.execPcmpeq x s
  | .pcmplt x => Sys2Proof.Machine.execPcmplt x s
  | .pdot x => Sys2Proof.Machine.execPdot x s
  | .pcvt x => Sys2Proof.Machine.execPcvt x s
  | .psad x => Sys2Proof.Machine.execPsad x s
  | .pmov x => Sys2Proof.Machine.execPmov x s
  | .atomg x => Sys2Proof.Machine.execAtomg x s
  | .atomp x => Sys2Proof.Machine.execAtomp x s
  | .xshfl x => Sys2Proof.Machine.execXshfl x s
  | .xgather x => Sys2Proof.Machine.execXgather x s
  | .xvote x => Sys2Proof.Machine.execXvote x s
  | .xred x => Sys2Proof.Machine.execXred x s
  | .xscan x => Sys2Proof.Machine.execXscan x s
  | .xscane x => Sys2Proof.Machine.execXscane x s
  | .xsegred x => Sys2Proof.Machine.execXsegred x s
  | .xsegscan x => Sys2Proof.Machine.execXsegscan x s
  | .xisect x => Sys2Proof.Machine.execXisect x s
  | .qpush x => Sys2Proof.Machine.execQpush x s
  | .qpop x => Sys2Proof.Machine.execQpop x s
  | .qlen x => Sys2Proof.Machine.execQlen x s
  | .emit x => Sys2Proof.Machine.execEmit x s
  | .redg x => Sys2Proof.Machine.execRedg x s
  | .xchgg x => Sys2Proof.Machine.execXchgg x s
  | .casg x => Sys2Proof.Machine.execCasg x s
  | .xchgp x => Sys2Proof.Machine.execXchgp x s
  | .casp x => Sys2Proof.Machine.execCasp x s
  | .sadd x => Sys2Proof.Machine.execSadd x s
  | .saddc x => Sys2Proof.Machine.execSaddc x s
  | .ssub x => Sys2Proof.Machine.execSsub x s
  | .ssubb x => Sys2Proof.Machine.execSsubb x s
  | .sand x => Sys2Proof.Machine.execSand x s
  | .sor x => Sys2Proof.Machine.execSor x s
  | .sxor x => Sys2Proof.Machine.execSxor x s
  | .sandn x => Sys2Proof.Machine.execSandn x s
  | .sshl x => Sys2Proof.Machine.execSshl x s
  | .sshr x => Sys2Proof.Machine.execSshr x s
  | .ssra x => Sys2Proof.Machine.execSsra x s
  | .smul x => Sys2Proof.Machine.execSmul x s
  | .smulh x => Sys2Proof.Machine.execSmulh x s
  | .smulhu x => Sys2Proof.Machine.execSmulhu x s
  | .smin x => Sys2Proof.Machine.execSmin x s
  | .smax x => Sys2Proof.Machine.execSmax x s
  | .sminu x => Sys2Proof.Machine.execSminu x s
  | .smaxu x => Sys2Proof.Machine.execSmaxu x s
  | .sclz x => Sys2Proof.Machine.execSclz x s
  | .spopc x => Sys2Proof.Machine.execSpopc x s
  | .smov x => Sys2Proof.Machine.execSmov x s
  | .scmp x => Sys2Proof.Machine.execScmp x s
  | .scmpu x => Sys2Proof.Machine.execScmpu x s
  | .ssel x => Sys2Proof.Machine.execSsel x s
  | .sadd64 x => Sys2Proof.Machine.execSadd64 x s
  | .ssub64 x => Sys2Proof.Machine.execSsub64 x s
  | .smov64 x => Sys2Proof.Machine.execSmov64 x s
  | .sshl64 x => Sys2Proof.Machine.execSshl64 x s
  | .scmp64 x => Sys2Proof.Machine.execScmp64 x s
  | .saddi x => Sys2Proof.Machine.execSaddi x s
  | .sandi x => Sys2Proof.Machine.execSandi x s
  | .sori x => Sys2Proof.Machine.execSori x s
  | .sxori x => Sys2Proof.Machine.execSxori x s
  | .sshli x => Sys2Proof.Machine.execSshli x s
  | .sshri x => Sys2Proof.Machine.execSshri x s
  | .smovi x => Sys2Proof.Machine.execSmovi x s
  | .scmpi x => Sys2Proof.Machine.execScmpi x s
  | .bc x => Sys2Proof.Machine.execBc x s
  | .bmz x => Sys2Proof.Machine.execBmz x s
  | .bmnz x => Sys2Proof.Machine.execBmnz x s
  | .call x => Sys2Proof.Machine.execCall x s
  | .ret => Sys2Proof.Machine.execRet s
  | .regang => Sys2Proof.Machine.execRegang s
  | .exit => Sys2Proof.Machine.execExit s
  | .nop => Sys2Proof.Machine.execNop s
  | .loop x y => Sys2Proof.Machine.execLoop x y s
  | .trap x => Sys2Proof.Machine.execTrap x s
  | .rteRetry => Sys2Proof.Machine.execRteRetry s
  | .rteSkip => Sys2Proof.Machine.execRteSkip s
  | .brk x => Sys2Proof.Machine.execBrk x s
  | .kand x => Sys2Proof.Machine.execKand x s
  | .kor x => Sys2Proof.Machine.execKor x s
  | .kxor x => Sys2Proof.Machine.execKxor x s
  | .kandn x => Sys2Proof.Machine.execKandn x s
  | .knot x y => Sys2Proof.Machine.execKnot x y s
  | .kmov x y => Sys2Proof.Machine.execKmov x y s
  | .ktos x y => Sys2Proof.Machine.execKtos x y s
  | .kpop x y => Sys2Proof.Machine.execKpop x y s
  | .kffs x y => Sys2Proof.Machine.execKffs x y s
  | .kset x y z => Sys2Proof.Machine.execKset x y z s
  | .kill x y => Sys2Proof.Machine.execKill x y s
  | .win x y z => Sys2Proof.Machine.execWin x y z s
  | .setpart x => Sys2Proof.Machine.execSetpart x s
  | .srd x y => Sys2Proof.Machine.execSrd x y s
  | .swr x y => Sys2Proof.Machine.execSwr x y s
  | .sld x => Sys2Proof.Machine.execSld x s
  | .sst x => Sys2Proof.Machine.execSst x s
  | .sldc x => Sys2Proof.Machine.execSldc x s
  | .fence x => Sys2Proof.Machine.execFence x s
  | .acq x => Sys2Proof.Machine.execAcq x s
  | .rel x => Sys2Proof.Machine.execRel x s
  | .acqr x => Sys2Proof.Machine.execAcqr x s
  | .rels x => Sys2Proof.Machine.execRels x s
  | .bar => Sys2Proof.Machine.execBar s
  | .frz x y z u w => Sys2Proof.Machine.execFrz x y z u w s
  | .thw x => Sys2Proof.Machine.execThw x s
  | .fwait x => Sys2Proof.Machine.execFwait x s
  | .publish x y => Sys2Proof.Machine.execPublish x y s
  | .cpy x => Sys2Proof.Machine.execCpy x s
  | .cpy2d x => Sys2Proof.Machine.execCpy2d x s
  | .cpyg x => Sys2Proof.Machine.execCpyg x s
  | .cpyo x y z => Sys2Proof.Machine.execCpyo x y z s
  | .closeb x => Sys2Proof.Machine.execCloseb x s
  | .waitb x => Sys2Proof.Machine.execWaitb x s
  | .raf x y => Sys2Proof.Machine.execRaf x y s
  | .rafg x y z u => Sys2Proof.Machine.execRafg x y z u s
  | .sarrive x y => Sys2Proof.Machine.execSarrive x y s
  | .swait x y z => Sys2Proof.Machine.execSwait x y z s
  | .mown => Sys2Proof.Machine.execMown s
  | .mrel => Sys2Proof.Machine.execMrel s
  | .mpass x => Sys2Proof.Machine.execMpass x s
  | .mshape x => Sys2Proof.Machine.execMshape x s
  | .mloop x => Sys2Proof.Machine.execMloop x s
  | .mzero x => Sys2Proof.Machine.execMzero x s
  | .mrd x y z => Sys2Proof.Machine.execMrd x y z s
  | .mwr x y z => Sys2Proof.Machine.execMwr x y z s
  | .midx x => Sys2Proof.Machine.execMidx x s
  | .midxOff => Sys2Proof.Machine.execMidxOff s
  | .tsub x => Sys2Proof.Machine.execTsub x s
  | .ctxCreate x y => Sys2Proof.Machine.execCtxCreate x y s
  | .ctxDestroy x y => Sys2Proof.Machine.execCtxDestroy x y s
  | .map x y => Sys2Proof.Machine.execMap x y s
  | .mapShadow x y z u => Sys2Proof.Machine.execMapShadow x y z u s
  | .mapRemoteWindow x y z => Sys2Proof.Machine.execMapRemoteWindow x y z s
  | .unmap x y z => Sys2Proof.Machine.execUnmap x y z s
  | .unmapShadow x y z => Sys2Proof.Machine.execUnmapShadow x y z s
  | .read x y z => Sys2Proof.Machine.execRead x y z s
  | .write x y z => Sys2Proof.Machine.execWrite x y z s
  | .moduleLoad x y z u => Sys2Proof.Machine.execModuleLoad x y z u s
  | .launch x y z u w => Sys2Proof.Machine.execLaunch x y z u w s
  | .taskSubmit x y => Sys2Proof.Machine.execTaskSubmit x y s
  | .preemptRequest x => Sys2Proof.Machine.execPreemptRequest x s
  | .preemptHalt x => Sys2Proof.Machine.execPreemptHalt x s
  | .preemptResumeHalt x => Sys2Proof.Machine.execPreemptResumeHalt x s
  | .preemptResumePark x => Sys2Proof.Machine.execPreemptResumePark x s
  | .journalRead x y z => Sys2Proof.Machine.execJournalRead x y z s
  | .leapRead x y => Sys2Proof.Machine.execLeapRead x y s
  | .leapWrite x y z u => Sys2Proof.Machine.execLeapWrite x y z u s
  | .leapPin x y => Sys2Proof.Machine.execLeapPin x y s
  | .leapUnpin x y => Sys2Proof.Machine.execLeapUnpin x y s
  | .leapDiscard x y => Sys2Proof.Machine.execLeapDiscard x y s
  | .setLease x y => Sys2Proof.Machine.execSetLease x y s
  | .biasSet x y z u => Sys2Proof.Machine.execBiasSet x y z u s
  | .attest x y => Sys2Proof.Machine.execAttest x y s
  | .fwInfo x => Sys2Proof.Machine.execFwInfo x s
  | .unsupportedPacket x => Sys2Proof.Machine.execUnsupportedPacket x s
  | .resultArrival x y => Sys2Proof.Machine.execResultArrival x y s
  | .teamPlacement => Sys2Proof.Machine.execTeamPlacement s
  | .teamMigration x y => Sys2Proof.Machine.execTeamMigration x y s
  | .launchDone x => Sys2Proof.Machine.execLaunchDone x s
  | .emitRecordArrival x => Sys2Proof.Machine.execEmitRecordArrival x s
  | .nodeTimerExpiry x y => Sys2Proof.Machine.execNodeTimerExpiry x y s
  | .timeSliceExpiry x => Sys2Proof.Machine.execTimeSliceExpiry x s
  | .deadlineExpiry x => Sys2Proof.Machine.execDeadlineExpiry x s
  | .copyComplete x => Sys2Proof.Machine.execCopyComplete x s
  | .freezePoint x y => Sys2Proof.Machine.execFreezePoint x y s
  | .thawComplete x y => Sys2Proof.Machine.execThawComplete x y s
  | .writeComplete x => Sys2Proof.Machine.execWriteComplete x s
  | .publishPoint x => Sys2Proof.Machine.execPublishPoint x s
  | .redgApply x => Sys2Proof.Machine.execRedgApply x s
  | .promotionRequest x => Sys2Proof.Machine.execPromotionRequest x s
  | .l1Eviction x y => Sys2Proof.Machine.execL1Eviction x y s
  | .mloopStep x => Sys2Proof.Machine.execMloopStep x s
  | .lineFetch x y => Sys2Proof.Machine.execLineFetch x y s
  | .stallSample x => Sys2Proof.Machine.execStallSample x s
  | .eccError x => Sys2Proof.Machine.execEccError x s
  | .syncLoss x => Sys2Proof.Machine.execSyncLoss x s
  | .syncRestored x y => Sys2Proof.Machine.execSyncRestored x y s
  | .droopSlowdown x => Sys2Proof.Machine.execDroopSlowdown x s
  | .droopRecovery x => Sys2Proof.Machine.execDroopRecovery x s
  | .powerOn x y => Sys2Proof.Machine.execPowerOn x y s
  | .powerLoss => Sys2Proof.Machine.execPowerLoss s
  | .biasTransitionEnd x y => Sys2Proof.Machine.execBiasTransitionEnd x y s
  | .teamMoveArrival x => Sys2Proof.Machine.execTeamMoveArrival x s
  | .remoteAccessArrival x => Sys2Proof.Machine.execRemoteAccessArrival x s

end Sys2Proof.Machine
end

