-- ==== Sys2Proof/Machine/Issue.lean ====
section
/-! DEFINITION. Issue: which fragment may issue (R24, R34, R39, R206), fetching its word through the page tables (R75, R92, R194,
R214, R219), running it, the quarter's pick (R368), and what the package does when nothing is on the agenda (log 1).
-/

namespace Sys2Proof.Machine

/-! ## Fetch -/

/-- What a fetch of one word gives. -/
inductive Fetched where
  | word (w : Word)
  | trap (t : TrapInfo)
  /-- The page is in a bias transition (R214). -/
  | wait
  deriving DecidableEq, Repr

/-- The word after the last word of a code section, which no program may run (R93). -/
def endWord : Word := 0x0E000000#32

/-- A leap-program group's word, from the launch's image: past the body, the end word (R393, R402). -/
def imageWord (s : State) (h : Here) (va : DWord) : Word :=
  match s.launch? h.g.launch, s.ctx? h.g.ctx with
  | some l, some x => (match l.image with
    | some im =>
      let a := slotAddr x im.slot + 0x40
      if a ≤ va.toNat ∧ va.toNat + 4 ≤ a + im.body.length then wordOf ((im.body.drop (va.toNat - a)).take 4) else endWord
    | none => endWord)
  | _, _ => endWord

/-- Fetch a word: the checks of an instruction fetch, and poison. -/
def fetchWord (s : State) (h : Here) (va : DWord) : Fetched :=
  if h.g.team.isNone then .word (imageWord s h va)
  else match s.ctx? h.g.ctx with
  | none => .trap ⟨cPageAbsent, 3#8, h.lanes, va, 0#64, 0⟩
  | some x => match checkAccess s x false .fetch .none 4 4 va with
    | .bad _ cause sub addr aux => .trap ⟨cause, sub, h.lanes, addr, aux, 0⟩
    | .wait _ _ => .wait
    | .ok p => if s.poisoned p.pa 4 then .trap ⟨cEcc, 3#8, h.lanes, va, 0#64, 0⟩ else .word (wordOf (homeBytes s p.pa 4))

/-! ## Running one instruction -/

/-- The packed types whose elements are floats, by their codes (R78). -/
def floatCode (t : Nat) : Bool := [2, 3, 6, 7, 8, 9, 12].contains t

/-- An instruction word suspends the fetch behind it (R39): it may fault, and the last check of its class comes after its issue (R194). Of the
classes that may fault, indexed operands, `XGATHER`, the integer divisions (R165), `MLOOP`, `TRAP`, `BRK` and `RTE` pass theirs at issue. -/
def suspendsFetch (en : BitVec 4) (w : Word) : Bool :=
  let lop := (w.extractLsb' 25 6).toNat
  let f := (w.extractLsb' 18 3).toNat
  let gop := (w.extractLsb' 24 7).toNat
  if w.msb then [0x28, 0x29, 0x2B, 0x33, 0x34, 0x36, 0x39, 0x40, 0x41, 0x42, 0x43, 0x53, 0x60].contains gop
  else [0x19, 0x1A, 0x1B, 0x1C, 0x1D, 0x1E, 0x1F, 0x2E, 0x2F, 0x3A, 0x3B, 0x3C, 0x3D].contains lop || (lop == 0x39 && f != 2) ||
    (en != 0#4 && ((decide (0x10 ≤ lop) && decide (lop ≤ 0x14)) || lop == 0x2B ||
      (decide (0x20 ≤ lop) && decide (lop ≤ 0x2D) && floatCode (w.extractLsb' 18 4).toNat) ||
      (decide (0x33 ≤ lop) && decide (lop ≤ 0x37) && f == 1)))

/-- An instruction word writes a register or a code that the next instruction is held back for (R154), or that its window of no instruction
holds it back for (R94). -/
def holdsBack (en : BitVec 4) (w : Word) : Bool :=
  let lop := (w.extractLsb' 25 6).toNat
  let gop := (w.extractLsb' 24 7).toNat
  if w.msb then
    if gop = 0x28 ∨ gop = 0x2B then w.extractLsb' 20 4 == 0#4
    else decide (gop ≤ 9) || [0x13, 0x18, 0x20, 0x22, 0x24, 0x33, 0x36, 0x37, 0x38, 0x44, 0x56, 0x60].contains gop
  else if [0x1C, 0x1F, 0x3A, 0x3B].contains lop then false
  else if [0x13, 0x14, 0x19].contains lop then w.extractLsb' 18 4 == 0#4 || en != 0#4
  else if [0x15, 0x16, 0x17, 0x18, 0x1A, 0x1B, 0x1D, 0x1E, 0x3D].contains lop then w.extractLsb' 18 4 == 0#4
  else true

/-- The same of an instruction. -/
def ofWord (p : Word → Bool) (i : Instr) : Bool := match encode i with
  | some c => p c.2
  | none => false

/-- A wait in which the instruction at the PC has not been carried out, and is tested anew. -/
def Wait.retries : Wait → Bool
  | .suspended => true
  | .thaw _ => true
  | .rels _ => true
  | .batch _ => true
  | .stage _ _ => true
  | .bias _ => true
  | .result => true
  | .regang => false
  | .bar => false
  | .owner _ => false
  | .freeze _ => false
  | .publish _ _ _ => false
  | .promote _ => false

/-- After its meaning has run an instruction has issued and its meaning is to run again: it waits for something other than a result in
flight, without which it does not issue (R51). -/
def Frag.runsAgain (f : Frag) : Bool := f.waits (fun w => match w with
  | .freeze _ => true
  | .promote _ => true
  | .result => false
  | w => w.retries)

/-- After a fragment has issued an instruction, with these enables: whether that is to run again, what may hold its next one back (R39) - its
fetch is suspended, a result of its own, or one of another kind whose window is over - and the release of the next held fragment when its
re-issue has committed (R34). -/
def afterIssue (s : State) (r : FragRef) (uid : Nat) (i : Option Instr) (en : BitVec 4) : State := match s.group? r.core r.slot with
  | none => s
  | some g =>
    if g.uid != uid then s
    else
      let after (f : Frag) : Frag :=
        { f with
          issued := if f.runsAgain then i else none, behind := i.any (ofWord (suspendsFetch en))
          late := i.any (ofWord (holdsBack en)) || f.dueLate }
      s.setGroup r.core r.slot (some ((g.mapFrags (fun j f => if j = r.frag then after f else f)).afterReissue r.frag))

/-- Go on from a next state. -/
def onNext (o : Host.Outcome State Fault Refusal) (f : State → State) : Host.Outcome State Fault Refusal := match o with
  | .next t => .next (f t)
  | .fault x => .fault x
  | .refused x => .refused x

/-- Run an instruction that a fragment has issued. -/
def runInstr (s : State) (h : Here) (i : Instr) : Host.Outcome State Fault Refusal :=
  onNext (exec i s) (fun t => afterIssue t h.r h.g.uid (some i) h.f.view.en)

/-- Decode a word with its prefix, and run what it stands for (R92, R100). -/
def runWords (s : State) (h : Here) (p : Option Payload) (w : Word) : Host.Outcome State Fault Refusal :=
  match decode p w with
  | .error sub => .next (afterIssue (takeTrap s h ⟨w, p.map xpWord⟩ (.plain cIllegal sub h.lanes)) h.r h.g.uid none h.f.view.en)
  | .ok i => runInstr s h i

/-- Fetch and run the instruction at the PC of a fragment; one that has issued already is not fetched anew. -/
def runAt (s : State) (h : Here) : Host.Outcome State Fault Refusal :=
  match h.f.issued with
  | some i => runInstr s h i
  | none => match fetchWord s h h.f.pc with
    | .wait => .next (s.put (h.wait (.bias [h.f.pc.toNat])))
    | .trap t => .next (takeTrap s h ⟨0#32, none⟩ t)
    | .word w =>
      if !isXp w then runWords s h none w
      else match fetchWord s h (h.f.pc + 4#64) with
      | .wait => .next (s.put (h.wait (.bias [h.f.pc.toNat + 4])))
      | .trap t => .next (takeTrap s h ⟨0#32, some w⟩ t)
      | .word w1 => runWords s h (some (w.extractLsb' 0 24)) w1

/-- Settle what is due, and run the fragment's instruction. -/
def issueHere (s : State) (h : Here) : Host.Outcome State Fault Refusal :=
  let sh := settleDue s h
  runAt { sh.1.put sh.2 with cur := some h.r } sh.2

/-- Another fragment of the group is inside an atomic instruction: some of its lanes have been performed (log 49). -/
def othersAhead (h : Here) : Bool :=
  (List.finRange 8).any (fun j => j != h.r.frag && (match h.g.frags[j] with
    | some f => !f.ahead.isEmpty
    | none => false))

/-- The fragment's instruction would raise the charge above the budget, and a result is in flight: it is not ready (R51). -/
def isShort (s : State) (h : Here) : Bool := h.group.inFlight && (match issueHere s h with
  | .next t => (t.at? h.r).any (fun y => y.f.status == .waiting .result)
  | .fault _ => false
  | .refused _ => false)

/-- The fragment may issue now: it is ready, or it waits for what the instruction at its PC tests anew. -/
def mayIssue (s : State) (h : Here) : Bool :=
  !h.f.halted && h.f.held == .no && !fetchStalls s h.r.core h.g.uid && !othersAhead h &&
  (match h.f.status with
    | .ready => true
    | .waiting w => w.retries
    | .exited => false) &&
  (match h.g.team with
    | none => true
    | some u => match s.team? u with
      | some t => t.moving.isNone
      | none => false) && !isShort s h

/-! ## The quarter's pick (R368) -/

/-- The pipe that the next instruction of a fragment needs: the uniform pipe, or the lane pipe; none where it cannot be fetched. -/
def needsUniform (s : State) (h : Here) : Option Bool := match fetchWord s h h.f.pc with
  | .word w => if !isXp w then some (w.getLsbD 31) else (match fetchWord s h (h.f.pc + 4#64) with
    | .word w1 => some (w1.getLsbD 31)
    | .trap _ => none
    | .wait => none)
  | .trap _ => none
  | .wait => none

/-- The live fragments of a quarter. -/
def fragsIn (s : State) (c : Fin 256) (q : Nat) : List Here :=
  ((List.finRange 64).filter (fun i => i.val / 16 == q)).flatMap (fun i => match s.group? c i with
    | none => []
    | some g => (g.bySlice (fun f => f.status != .exited)).filterMap (fun j => s.at? ⟨c, i, j⟩))

/-- The fetch of a fragment's next instruction waits on a bias transition (R214). -/
def fetchHeld (s : State) (h : Here) : Bool := match fetchWord s h h.f.pc with
  | .word w => isXp w && fetchWord s h (h.f.pc + 4#64) == .wait
  | .trap _ => false
  | .wait => true

/-- A fragment is ready to issue its next instruction (R39). -/
def isReady (s : State) (h : Here) : Bool := h.f.issued.isNone && mayIssue s h && !fetchHeld s h

/-- The ready fragments of a quarter that need a pipe (R39); one that cannot be fetched goes to the uniform pipe. -/
def readyIn (s : State) (c : Fin 256) (q : Nat) (uniform : Bool) : List Here :=
  (fragsIn s c q).filter (fun h => isReady s h && (needsUniform s h).getD true == uniform)

/-- A ready fragment may in fact not be ready (R39): a result that it is held back for is not available, or its fetch is still
suspended behind the instruction that it issued last. Which of them is so is a matter of timing. -/
def mayLag (h : Here) : Bool := h.f.behind || h.f.late || h.f.pending.any (fun p => p.left == 0 && p.regs.any (fun r => !r.arrived))

/-- The better of two fragments by a test. -/
def bestOf (better : Here → Here → Bool) : List Here → Option Here
  | [] => none
  | h :: rest => some (rest.foldl (fun m x => if better x m then x else m) h)

/-- Whether x goes before y: overdue first, the one overdue longer; then the class; then the one that issued last; then age,
which a group that moves to another core keeps (R42, R368; log 52). -/
def goesBefore (last : Option (Nat × Fin 8)) (x y : Here) : Bool :=
  let is (h : Here) : Bool := last == some (h.g.uid, h.r.frag)
  match x.f.overdue, y.f.overdue with
  | some _, none => true
  | none, some _ => false
  | ox, oy =>
    if ox != oy then decide (ox.getD 0 < oy.getD 0)
    else if x.g.prio != y.g.prio then decide (y.g.prio < x.g.prio)
    else if is x then true
    else if is y then false
    else if x.g.uid != y.g.uid then decide (x.g.uid < y.g.uid)
    else decide (lowestSlice x.f.slices < lowestSlice y.f.slices)

/-- A quarter's number as an index. -/
def quarterOf (q : Nat) : Fin 4 := Fin.ofNat 4 q

/-- The fragment that a pipe of a quarter takes among some. -/
def pick (s : State) (c : Fin 256) (q : Nat) (uniform : Bool) (hs : List Here) : Option Here :=
  let k := s.core c
  bestOf (goesBefore (if uniform then k.lastUniform[quarterOf q] else k.lastLane[quarterOf q])) hs

/-- The ready fragments that a pipe does not pass over for a reason of timing. -/
def takers (s : State) (c : Fin 256) (q : Nat) (uniform : Bool) (skipped : List FragRef) : List Here :=
  (readyIn s c q uniform).filter (fun x => !(skipped.contains x.r && mayLag x))

/-- Of two picks of one group the first stands (R368): the one that became overdue earlier, or the lane pipe's. -/
def stands (lane : Bool) : Option Nat → Option Nat → Bool
  | some a, some b => decide (a < b)
  | some _, none => true
  | none, some _ => false
  | none, none => lane

/-- How an issue comes to its pipe: as the pipe's pick, or as its next candidate where the pick is displaced by one of its group on the
other pipe, which has issued or, if it is given, is to issue next (R368). -/
inductive Taken where
  | pick
  | displaced (pick : Here) (owed : Option FragRef)

/-- A pick's group has issued last in the quarter, on the other pipe, and that issue stands. -/
def displacedBefore (s : State) (x : Here) (uniform : Bool) : Bool := match (s.core x.r.core).paired[quarterOf (x.r.slot.val / 16)] with
  | some p => p.uniform != uniform && p.group == x.g.uid && stands uniform p.overdue x.f.overdue
  | none => false

/-- A pick of a pipe is displaced: by the quarter's last issue, or by the other pipe's pick, when that is of its group too and stands. -/
def displaces (s : State) (x : Here) (uniform : Bool) (skipped : List FragRef) : Option (Option FragRef) :=
  let q := x.r.slot.val / 16
  if displacedBefore s x uniform then some none
  else match pick s x.r.core q (!uniform) (takers s x.r.core q (!uniform) skipped) with
    | some y => if y.g.uid == x.g.uid && stands uniform y.f.overdue x.f.overdue then some (some y.r) else none
    | none => none

/-- The fragment that a quarter's last issue has left to issue next, while it can. -/
def owedIn (s : State) (c : Fin 256) (q : Nat) : Option FragRef :=
  (((s.core c).paired[quarterOf q]).bind (fun p => p.owed)).filter (fun r => (s.at? r).any (isReady s))

/-- The pipe takes this fragment (R368): no ready one that it does not pass over goes before, or one does whose group issues on the other
pipe in the same clock. -/
def taking (s : State) (h : Here) (skipped : List FragRef) : Option Taken :=
  let q := h.r.slot.val / 16
  let uniform := (needsUniform s h).getD true
  let hs := h :: (takers s h.r.core q uniform skipped).filter (fun x => x.r != h.r)
  if !isReady s h then none
  else match owedIn s h.r.core q, pick s h.r.core q uniform hs with
  | some r, _ => if r = h.r then some .pick else none
  | none, none => none
  | none, some x =>
    if x.r = h.r then some .pick
    else if (pick s h.r.core q uniform (hs.filter (fun y => y.g.uid != x.g.uid))).map (fun y => y.r) = some h.r
    then (displaces s x uniform skipped).map (.displaced x) else none

/-- A fragment has had one opportunity more on its pipe: at 32 it is overdue (R368). What it waited for is there. -/
def Frag.waitMore (f : Frag) (n : Nat) : Frag :=
  { f with
    waited := f.waited + 1, overdue := if f.overdue.isNone && decide (32 ≤ f.waited + 1) then some n else f.overdue, behind := false, late := false
    pending := f.pending.map (fun p => if p.left = 0 then { p with regs := p.regs.map (fun r => { r with arrived := true }) } else p) }

/-- A fragment's count starts again when it is next ready (R368). -/
def Frag.restart (f : Frag) : Frag := { f with waited := 0, overdue := none }

/-- What an issue makes of the count of a fragment of the quarter: one that issues, or is not ready, starts again; the others of the pipe
have had an opportunity, unless their overdue pick was displaced. -/
def countOf (s : State) (h : Here) (uniform : Bool) (skipped : List FragRef) (t : Taken) (x : Here) : Frag :=
  let spared := match t with
    | .pick => false
    | .displaced y _ => y.f.overdue.isSome
  if x.r = h.r || !isReady s x then x.f.restart
  else if (needsUniform s x).getD true != uniform then x.f
  else if skipped.contains x.r && mayLag x then x.f.restart
  else if spared then x.f
  else x.f.waitMore (s.core h.r.core).issues

/-- Note an issue on a pipe (R39, R368): it is the last issuer, and the others' counts go on. -/
def noteIssue (s : State) (h : Here) (skipped : List FragRef) (t : Taken) : State :=
  let q := h.r.slot.val / 16
  let uniform := (needsUniform s h).getD true
  let s1 := (fragsIn s h.r.core q).foldl (fun a x => match a.at? x.r with
    | some y => a.put { y with f := countOf s h uniform skipped t x }
    | none => a) s
  let k := s1.core h.r.core
  let me : Option (Nat × Fin 8) := some (h.g.uid, h.r.frag)
  let both := (k.paired[quarterOf q]).any (fun p => p.owed.isSome)
  let pair : Option Paired := match t with
    | .pick => if both then none else some ⟨uniform, h.g.uid, h.f.overdue, none⟩
    | .displaced _ none => none
    | .displaced _ owed => some ⟨uniform, h.g.uid, h.f.overdue, owed⟩
  s1.setCore h.r.core { k with
    lastUniform := if uniform then k.lastUniform.set (quarterOf q) me else k.lastUniform
    lastLane := if uniform then k.lastLane else k.lastLane.set (quarterOf q) me
    paired := k.paired.set (quarterOf q) pair, issues := k.issues + 1 }

/-- A fragment issues, if its pipe takes it; one whose instruction has issued goes on with it outside the pipe, and one whose fetch waits
comes to no pipe. -/
def issue (s : State) (r : FragRef) (skipped : List FragRef) : Host.Outcome State Fault Refusal := match s.at? r with
  | none => .next s
  | some h =>
    if h.f.issued.isSome || fetchHeld s h then (if mayIssue s h then issueHere s h else .next s)
    else match taking s h skipped with
      | none => .next s
      | some t =>
        let s1 := noteIssue s h skipped t
        match s1.at? r with
        | none => .next s1
        | some h1 => issueHere s1 h1

/-! ## Lanes ahead, and races -/

/-- Some lanes of the instruction that a fragment is to issue, or has issued, are performed ahead of the others (log 49). -/
def laneAhead (s : State) (h0 : Here) (ls : LaneMask) : State :=
  let sh := settleDue s h0
  let h := sh.2
  let i := match h.f.issued with
    | some i => some i
    | none => match fetchWord sh.1 h h.f.pc with
      | .word w => (match decode none w with
        | .ok i => some i
        | .error _ => none)
      | .trap _ => none
      | .wait => none
  match i with
  | some i =>
    let h1 : Here := { h with f := { h.f with issued := some i } }
    atomAhead (sh.1.put h1) h1 ls i
  | none => s

/-- Some lanes of a fragment's next instruction are performed ahead of the others, where it is an atomic or exchange; with the first of them
the instruction issues. -/
def runAhead (s : State) (r : FragRef) (ls : LaneMask) (skipped : List FragRef) : State := match s.at? r with
  | none => s
  | some h =>
    if h.f.status != .ready || !mayIssue s h then s
    else
      let s1 := if h.f.issued.isSome then some s else (taking s h skipped).map (noteIssue s h skipped)
      match s1.bind (fun t => (t.at? r).map (fun y => laneAhead t y ls)) with
      | some t => if (t.at? r).any (fun y => !y.f.ahead.isEmpty) then t else s
      | none => s

/-- The physical byte that an address of a context names, or the shadow backing's (R309), where a write could go to it: of the host or of the
device itself on any page (R416), but not on a frozen byte. -/
def racedByte (s : State) (ctx : Nat) (va : DWord) (shadow : Bool) : Option Nat := (s.ctx? ctx).bind (fun x => match place s x va with
  | .inl p => if !s.isFrozen (partPlace x shadow va p) then some (partPlace x shadow va p) else none
  | .inr _ => none)

/-- A byte of memory has been raced: wherever it is held it becomes one undefined value. -/
def raceByte (s : State) (a : Nat) : State :=
  let v := Config.freeByte s.choices
  { s.memFree a with
    cores := Vector.ofFn (fun c : Fin 256 => { s.cores[c] with l1 := s.cores[c].l1.map (fun e =>
      if e.1 = a then (a, match e.2 with
        | .clean _ x => .clean v x
        | .dirty _ => .dirty v) else e) })
    sliceCopies := Vector.ofFn (fun t : Fin 5 => s.sliceCopies[t].map (fun e => if e.1 = a then (a, { e.2 with val := v }) else e)) }

/-- A byte of a team's scratchpad has been raced. -/
def racePad (s : State) (team a : Nat) : State := match s.team? team with
  | none => s
  | some t =>
    if padInside t a 1 then { s.setTeam (padWrite t a [Config.freeByte s.choices]) with choices := s.choices + 1 } else s

/-- An undefined word. -/
def freeWord (s : State) : Word := BitVec.ofNat 32 (Config.choice s.choices)

/-- A race: what it makes undefined takes an undefined value (R6, R265, R322, R359, R408). Which accesses race is not tracked: a race may
fall on any mapped byte that is not frozen, on any result of the engine, on any index word (log 3). -/
def race (s : State) : Raced → State
  | .byte ctx va shadow => match racedByte s ctx va shadow with
    | some a => raceByte s a
    | none => s
  | .pad team a => racePad s team a
  | .element c tile row col =>
    let e := (s.core c).engine
    { s.setEngine c { e with acc := e.acc.set tile (tileSet e.acc[tile] (128 * row.val + col.val) (freeWord s)) } with choices := s.choices + 1 }
  | .status c slot =>
    let e := (s.core c).engine
    let sh := kGet e.shapes slot
    let w : Word := freeWord s &&& 0x1FF#32
    { s.setEngine c { e with shapes := kSet e.shapes slot { sh with status := w } } with choices := s.choices + 1 }
  | .index c n => match fetchAt s c n with
    | some f => (match f.req with
      | .element index base size => { fetchElement s c f index base size (some (freeWord s)) with choices := s.choices + 1 }
      | .line _ _ => s)
    | none => s

/-! ## Time -/

/-- A group of the context is halted (R382). -/
def contextHalted (s : State) (ctx : Nat) : Bool := s.cores.toList.any (fun k => k.groups.any (fun g =>
  g.ctx == ctx && g.frags.toList.any (fun o => match o with
    | some f => f.halted
    | none => false)))

/-- Global time goes on: deadlines run, and grants whose guard is over are forgotten (R267 to R269, R382). -/
def advanceTime (s : State) (dt : Nat) : State :=
  { s with
    now := s.now + dt
    contexts := s.contexts.map (fun x => if x.preempt && !contextHalted s x.id then { x with deadlineLeft := x.deadlineLeft - dt } else x)
    grants := s.grants.filter (fun g => decide (s.agentTime g.home + dt < g.expiry + Config.guardNs)) }

/-! ## What happens by itself -/

/-- Something the package may do next by itself. -/
inductive Auto where
  | time (dt : Nat)
  | bringUp
  | issue (c : Fin 256) (q : Nat) (uniform : Bool)
  | place
  | launchDone (l : Nat)
  | move (team : Nat)
  | copy (n : Nat)
  | redg (n : Nat)
  | write (n : Nat)
  | emit (n : Nat)
  | promotion (n : Nat)
  | engine (c : Fin 256)
  | fetch (c : Fin 256) (n : Nat)
  | freeze (ctx : Nat) (entry : Fin 1024)
  | thaw (ctx : Nat) (entry : Fin 1024)
  | bias (ctx va : Nat)
  | timer (ctx node : Nat)
  | slice (ctx : Nat)
  | deadline (ctx : Nat)
  | sample (ctx : Nat)
  | publish (r : FragRef)
  | result (r : FragRef) (n : Nat)
  | race
  | retry (r : FragRef)
  deriving DecidableEq, Repr

/-- Every live fragment of a core. -/
def coreFrags (k : Core) (c : Fin 256) : List (FragRef × Frag) :=
  (List.finRange 64).flatMap (fun i => match k.slots[i] with
    | none => []
    | some g => g.live.filterMap (fun j => (g.frags[j]).map (fun f => (FragRef.mk c i j, f))))

/-- What a core may do next. -/
def coreAutos (k : Core) (c : Fin 256) : List Auto :=
  if k.occupancy = 0 && k.fetches.isEmpty && k.engine.runs.isEmpty then []
  else
    [0, 1, 2, 3].flatMap (fun q => [Auto.issue c q false, Auto.issue c q true]) ++
    (if k.engine.runs.isEmpty then [] else [Auto.engine c]) ++ k.fetches.map (fun f => Auto.fetch c f.n) ++
    (coreFrags k c).flatMap (fun p => (match p.2.status with
        | .waiting (.publish _ _ _) => [Auto.publish p.1]
        | .waiting w => if w.retries then [Auto.retry p.1] else []
        | .ready => [Auto.retry p.1]
        | .exited => []) ++ (List.range p.2.pending.length).map (fun n => Auto.result p.1 n))

/-- What the firmware and the distributors may do next for a context. -/
def ctxAutos (x : Context) : List Auto :=
  x.regions.flatMap (fun e => match e.2.state with
    | .installing => [Auto.freeze x.id (Fin.ofNat 1024 e.1)]
    | .thawing => [Auto.thaw x.id (Fin.ofNat 1024 e.1)]
    | .free => []
    | .active => []) ++
  x.bias.map (fun b => Auto.bias x.id b.va) ++
  (List.range x.nodes.length).map (fun i => Auto.timer x.id i) ++ [Auto.slice x.id, Auto.deadline x.id, Auto.sample x.id]

/-- Everything that may happen next; which of it does is the device's choice (log 2). -/
def autos (s : State) : List Auto :=
  match s.phase with
  | .off => [.time 1]
  | .failed => [.time 1]
  | .booting => [.bringUp]
  | .ready =>
    [.time 1, .time 1000, .time 1000000, .place, .race] ++ s.launches.map (fun l => Auto.launchDone l.id) ++
    (s.teams.filter (fun t => t.moving.isSome)).map (fun t => Auto.move t.uid) ++ s.copies.map (fun c => Auto.copy c.id) ++
    s.redgs.map (fun r => Auto.redg r.id) ++ s.writes.map (fun w => Auto.write w.id) ++ s.emits.map (fun e => Auto.emit e.id) ++
    s.promotions.map (fun p => Auto.promotion p.n) ++ s.contexts.flatMap ctxAutos ++
    (List.finRange 256).flatMap (fun c => coreAutos (s.core c) c)

/-- What the device races next. -/
def chooseRace (s : State) : Raced :=
  let n (i : Nat) : Nat := Config.choice (s.choices + i)
  match n 0 % 5 with
  | 0 => .byte (n 1) (BitVec.ofNat 64 (n 2)) (n 3 % 2 == 1)
  | 1 => .pad (n 1) (n 2)
  | 2 => .element (Fin.ofNat 256 (n 1)) (Fin.ofNat 4 (n 2)) (Fin.ofNat 128 (n 3)) (Fin.ofNat 128 (n 4))
  | 3 => .status (Fin.ofNat 256 (n 1)) (BitVec.ofNat 3 (n 2))
  | _ => .index (Fin.ofNat 256 (n 1)) (n 2)

/-- Do one of them. -/
def runAuto (a : Auto) (s : State) : Host.Outcome State Fault Refusal := match a with
  | .time dt => .next (advanceTime s dt)
  | .bringUp => execPowerOn 0#256 false s
  | .issue c q u =>
    let late := (readyIn s c q true ++ readyIn s c q false).filter mayLag
    let skipped := (late.zipIdx.filter (fun p => (Config.choice s.choices).testBit p.2)).map (fun p => p.1.r)
    let may := (takers s c q u skipped).filter (fun h => (taking s h skipped).isSome)
    (match may[Config.choice (s.choices + 1) % may.length]? with
      | some h => issue { s with choices := s.choices + 2 } h.r skipped
      | none => .next s)
  | .retry r => issue s r []
  | .place => execTeamPlacement s
  | .launchDone l => execLaunchDone l s
  | .move t => execTeamMoveArrival t s
  | .copy n => execCopyComplete n s
  | .redg n => execRedgApply n s
  | .write n => execWriteComplete n s
  | .emit n => execEmitRecordArrival n s
  | .promotion n => execPromotionRequest n s
  | .engine c => execMloopStep c s
  | .fetch c n => execLineFetch c n s
  | .freeze x e => execFreezePoint x e s
  | .thaw x e => execThawComplete x e s
  | .bias x va => execBiasTransitionEnd x va s
  | .timer x n => execNodeTimerExpiry x n s
  | .slice x => execTimeSliceExpiry x s
  | .deadline x => execDeadlineExpiry x s
  | .sample x => execStallSample x s
  | .publish r => execPublishPoint r s
  | .result r n => execResultArrival r n s
  | .race => .next (race { s with choices := s.choices + 5 } (chooseRace s))

/-- The device chooses what happens. -/
def runSelf (s : State) : Host.Outcome State Fault Refusal :=
  let l := autos s
  runAuto (l.getD (Config.choice s.choices % l.length) (.time 1)) { s with choices := s.choices + 1 }

/-! ## Turns -/

/-- A turn of the agenda: a fragment issues, or a message or an event of the opcode table lands. An instruction word is no event. -/
def runAct (a : Act) (s : State) : Host.Outcome State Fault Refusal := match a with
  | .issue r skipped => issue s r skipped
  | .ahead r ls skipped => .next (runAhead s r ls skipped)
  | .race r => .next (race s r)
  | .message m => .next (receiveMessage s m)
  | .event i => if (encode i).isSome then .next s else exec i s

/-- The next turn, after which the firmware goes on with its commands (R417). -/
def takeTurn (s : State) : Host.Outcome State Fault Refusal :=
  let o := match s.agenda with
    | [] => runSelf s
    | t :: rest => runAct t.act (advanceTime { s with agenda := rest } t.dt)
  match o with
  | .next t => .next (pumpHost t)
  | .fault f => .fault f
  | .refused x => .refused x

end Sys2Proof.Machine
end

