-- ==== Sys2Proof/Machine/Step.lean ====
section
/-! DEFINITION. The step, and a state that is about to fetch a given instruction. How a program comes to run from reset: log 1.
-/

namespace Sys2Proof.Machine

/-- One step of the package: the next turn. -/
def step (s : State) : Host.Outcome State Fault Refusal := takeTurn s

/-! ## A state that fetches a given word -/

/-- The virtual address of the code that `withFetchWord` places. -/
def fetchVa : Nat := 0x10000

/-- The launch block of the kernel that `withFetchWord` runs: one combined-role group. -/
def fetchBlock : LaunchBlock :=
  { name := [], identity := 0#128, groups := 1, part := 32#32, prio := 0, scratch := 65536, split := ⟨8, 8, 16⟩, fpc := 0#32
    trapEntry := none, leap := 0xFFFFFFFE#32, roles := [⟨.combined, 1, 96, BitVec.ofNat 64 fetchVa⟩] }

/-- The context it runs in, with room for its frames. -/
def fetchContext (id root save : Nat) : Context :=
  { newContext id root ⟨16, 1, 7, 0, 50000000, 0, 4, 3, 10⟩ with saveArea := save, leapArea := save, sampleRing := save, exitRing := save + 0x200000, journalAt := save }

/-- A context, a launch, a team and a group as the host's commands and the distributor make them, on core 0. -/
def withRunning (s : State) (id root save : Nat) : State :=
  let u := s.fresh
  let l : Launch :=
    { id := u, ctx := id, seq := 1, module := 1, block := 0, grid := 1, args := [], prio := 0, kind := .host, nextTeam := 1, ended := 0
      exitRecords := 0, trapped := false, discarded := false, observed := false, image := none, cores := [0], issued := 0, clipped := 0
      suppressed := 0, stopped := false, voided := false }
  let t : Team :=
    { uid := u + 1, launch := u, teamid := 0#32, core := 0, groups := 1, roles := [.combined], scratch := [], scratchSize := 65536
      scratchPoison := [], exited := 0#32, masks := Vector.replicate 32 0#32, cause := 0#8, causeGroup := 0xFF#8, second := 0#8
      frame := 0#64, moving := none }
  let g := firstGroup (u + 2) id u (some (u + 1)) 0 .combined 96 0 (firstFrag (BitVec.ofNat 64 fetchVa) (firstView [] 0#32 32#32)) 0#32
  let k : Core := { (Core.reset.setSlot 0 (some g)) with split := some fetchBlock.split }
  { s.setCore 0 k with
    phase := .ready, contexts := s.contexts ++ [fetchContext id root save], modules := s.modules ++ [⟨1, id, true, [fetchBlock]⟩]
    launches := s.launches ++ [l], teams := s.teams ++ [t], fresh := u + 3
    agenda := ⟨0, .issue ⟨0, 0, 0⟩ []⟩ :: s.agenda }

/-- The state with an instruction, its bits numbered as the opcode table numbers them, where the next step fetches: a page of
code is mapped at `fetchVa`, the words stand there, and the next turn issues the group that starts there. -/
def State.withFetchWord (s : State) (nbits w : Nat) : State :=
  let id := (s.contexts.map (fun x => x.id)).foldl max 0 + 1
  let root := takeMem s 65536 65536 id
  let page := takeMem root.1 65536 65536 id
  let save := takeMem page.1 65536 0x400000 id
  let x := fetchContext id root.2 save.2
  let bits : LeafBits := { rp := true, wp := true, xp := true, fw := false, ca := true, rad := false, sm := 0#2, ps := 0#8 }
  let s1 := (mapPages x bits 65536 1 fetchVa page.2 save.1).getD save.1
  withRunning (fwWrite s1 page.2 (bytesOfNat (w % 2 ^ nbits) 8)) id root.2 save.2

end Sys2Proof.Machine
end

