-- ==== Sys2Proof/Safety.lean ====
section
/-! DEFINITION. What counts as a safe run, and the vocabulary of the claims: when a fragment issues an instruction, what a
step of it leaves as it was, and what a destination holds after it.
-/

namespace Sys2Proof.Machine

/-! ## The forms that every step keeps -/

/-- Every table of bytes is in its one canonical form: addresses strictly rising everywhere; no byte 0 listed in memory or in a
scratchpad, and no byte of memory both listed and open. -/
structure State.memOk (s : State) : Prop where
  mem : Memory.wf s.mem = true
  free : tableSortedFrom 0 s.freeAt = true
  apart : ∀ a, (tableFind s.freeAt a).isSome = true → tableFind s.mem a = none
  registered : tableSortedFrom 0 s.registered = true
  l1 : ∀ c : Fin 256, tableSortedFrom 0 (s.core c).l1 = true
  slices : ∀ d : Fin 5, tableSortedFrom 0 s.sliceCopies[d] = true
  pads : ∀ t, t ∈ s.teams → Memory.wf t.scratch = true
  kept : tableSortedFrom 0 s.kept = true

/-- A step that neither faults nor refuses. -/
def State.safe (s : State) : Prop := ∃ t, step s = .next t

/-! ## Issuing -/

/-- The fragment `h` is issuing `i`, and its role and kind of group may issue it (R21, R403). -/
structure Issues (s : State) (h : Here) (i : Instr) (cl : RoleClass) : Prop where
  here : s.here? = some h
  role : roleAllows h.g.role cl = true
  leap : h.g.team.isSome = true ∨ leapMay i = true

/-- A source names only registers inside its window, and the window lies in the file (R59). -/
def Src.inRange (h : Here) (ex : LaneMask) : Src → Prop
  | .reg _ => True
  | .win w x => (h.w w).base.toNat + (h.w w).len.toNat ≤ 64 ∧
      ∀ l : Fin 32, ex.getLsbD l.val = true → (h.x x)[l].toNat < (h.w w).len.toNat

/-- As `Src.inRange`, for a destination. -/
def Dst.inRange (h : Here) (ex : LaneMask) : Dst → Prop
  | .win w x => Src.inRange h ex (.win w x)
  | .none | .regs _ _ | .index _ => True

/-- The checks at issue of a lane instruction pass (R50, R59, R197, R219): some lane is active, the budget suffices, every
indexed operand is in range, and no active lane of a source is poisoned. -/
structure LaneReady (cl : RoleClass) (s : State) (h : Here) (i : Instr) (k : KReg) (d : Dst) (a b : Option Src) (reads : List Src)
    (late : Bool) : Prop where
  issues : Issues s h i cl
  active : h.exec k ≠ 0#32
  budget : h.raises (h.exec k) d late = 0 ∨ h.group.charge + h.raises (h.exec k) d late ≤ h.g.budget
  dRange : d.inRange h (h.exec k)
  aRange : ∀ x, a = some x → x.inRange h (h.exec k)
  bRange : ∀ x, b = some x → x.inRange h (h.exec k)
  clean : ∀ x, x ∈ reads → h.exec k &&& h.poisonOf x = 0#32

/-- No enabled class of R147 arises in an active lane (R148). -/
def quiet (h : Here) (ex : LaneMask) (out : Fin 32 → LaneOut) : Prop :=
  ∀ l : Fin 32, ex.getLsbD l.val = true → (out l).cls &&& h.f.view.en = 0#4

/-! ## Frames -/

/-- A step of one fragment changes nothing outside its group slot, but for the reuse table of its core with its three
counters, and the model's own choice counter. Every byte of memory reads as before on every core. -/
structure OnlyGroup (s t : State) (r : FragRef) : Prop where
  package : { t with cores := s.cores, choices := s.choices } = s
  cores : ∀ c : Fin 256, c ≠ r.core → t.core c = s.core c
  core : { t.core r.core with
      slots := (s.core r.core).slots, reuse := (s.core r.core).reuse, seen := (s.core r.core).seen, rhit := (s.core r.core).rhit
      rmiss := (s.core r.core).rmiss, rcoll := (s.core r.core).rcoll } = s.core r.core
  slots : ∀ i : Fin 64, i ≠ r.slot → t.group? r.core i = s.group? r.core i
  bytes : ∀ (c : Fin 256) (p : Place) (a : Nat), loadByte t c p a = loadByte s c p a

/-- The fragment has gone on: it stands at a new PC, ready, and of itself only its view, its written set and its results in
flight may have changed, and what the model notes of the instruction it was at; the other fragments of its group have not. -/
structure WentOn (t : State) (h h' : Here) (pc : DWord) : Prop where
  found : t.at? h.r = some h'
  pc : h'.f.pc = pc
  ready : h'.f.status = .ready
  kept : { h'.f with
      pc := h.f.pc, status := h.f.status, view := h.f.view, written := h.f.written, pending := h.f.pending
      resume := h.f.resume, ahead := h.f.ahead, passed := h.f.passed } = h.f
  siblings : ∀ j : Fin 8, j ≠ h.r.frag → h'.g.frags[j] = h.g.frags[j]

/-- Past an instruction of its length. -/
def Here.after (h : Here) (i : Instr) : DWord := h.f.pc + BitVec.ofNat 64 i.bytes

/-- Of the group, nothing but its fragments and the uniform trap registers may have changed. -/
def UniformFrame (h h' : Here) : Prop := { h'.g with frags := h.g.frags, hs := h.g.hs } = h.g

/-- One uniform register is written, as the fragment names it (R64), and the scalar codes are `scc`; no other register of the
group, no mask, no window, neither `FPC` nor `PART` changes. -/
structure WritesS (h h' : Here) (d : Reg) (w : Word) (scc : ScalarCC) : Prop where
  value : h'.s d = w
  others : ∀ n, n ≠ d → h'.s n = h.s n
  own : ∀ n, n ≠ d ∨ h.trapReg d = true → regGet h'.f.view.s n = regGet h.f.view.s n
  trap : h.trapReg d = false → h'.g.hs = h.g.hs
  view : { h'.f.view with s := h.f.view.s } = { h.f.view with scc := scc }

/-- As `WritesS`, for a pair of registers (R4). -/
structure WritesSP (h h' : Here) (d : Reg) (x : DWord) (scc : ScalarCC) : Prop where
  value : h'.sp d = x
  others : ∀ n, n ≠ d → n ≠ d + 1#6 → h'.s n = h.s n
  own : ∀ n, (n ≠ d ∧ n ≠ d + 1#6) ∨ (h.trapReg d = true ∧ h.trapReg (d + 1#6) = true) →
    regGet h'.f.view.s n = regGet h.f.view.s n
  trap : h.trapReg d = false → h.trapReg (d + 1#6) = false → h'.g.hs = h.g.hs
  view : { h'.f.view with s := h.f.view.s } = { h.f.view with scc := scc }

/-- No uniform register is written; the view becomes `v`. -/
structure WritesView (h h' : Here) (v : View) : Prop where
  view : h'.f.view = v
  trap : h'.g.hs = h.g.hs

/-! ## Lane destinations -/

/-- The destination names register n in lane l. -/
def Dst.names (h : Here) (n : Reg) (l : Fin 32) : Dst → Prop
  | .none => False
  | .regs r k => n ∈ regsFrom r k
  | .win w x => h.named w x l = n.toNat
  | .index _ => False

/-- What a destination holds in a lane after an instruction that `h` issued: word j in its j-th register, or the first word in the
register that the lane named, or the low byte in the index register (R48, R58, R91). -/
def Dst.holds (h h' : Here) (l : Fin 32) (val : Nat → Word) : Dst → Prop
  | .none => True
  | .regs r k => ∀ j, j < k → (h'.v (r + BitVec.ofNat 6 j))[l] = val j
  | .win w x => (h'.vregAt (h.named w x l)).lanes[l] = val 0
  | .index x => (h'.x x)[l] = (val 0).setWidth 8

/-- No lane word outside a destination's lanes `m` changes, nor the poison of one, nor the register file or the trap file that
the fragment does not name; index registers stay but for one that is the destination. -/
structure LaneFrame (h h' : Here) (d : Dst) (m : LaneMask) : Prop where
  regs : ∀ (n : Reg) (l : Fin 32), ¬(m.getLsbD l.val = true ∧ d.names h n l) →
    (h'.v n)[l] = (h.v n)[l] ∧ (h'.vreg n).poison.getLsbD l.val = (h.vreg n).poison.getLsbD l.val
  hidden : ∀ n : Reg, h.trapReg n = true → regGet h'.g.v n = regGet h.g.v n
  trapFile : h.inHandler = false → h'.g.hv = h.g.hv
  index : ∀ (x : BitVec 3) (l : Fin 32), ¬(m.getLsbD l.val = true ∧ d = .index x) → (h'.x x)[l] = (h.x x)[l]
  rest : { h'.g with
      frags := h.g.frags, v := h.g.v, hv := h.g.hv, x := h.g.x, cc := h.g.cc, sticky := h.g.sticky, killSet := h.g.killSet
      removed := h.g.removed, epoch := h.g.epoch } = h.g

/-- The lane codes after an instruction: those of `cs` in the lanes of `m`, the old ones elsewhere (R62). -/
structure LaneCodes (h h' : Here) (m : LaneMask) (cs : CodeSet) (out : Fin 32 → LaneOut) : Prop where
  c : ∀ l : Fin 32, h'.g.cc.c.getLsbD l.val = if cs.c && m.getLsbD l.val then (out l).c else h.g.cc.c.getLsbD l.val
  z : ∀ l : Fin 32, h'.g.cc.z.getLsbD l.val = if cs.z && m.getLsbD l.val then (out l).z else h.g.cc.z.getLsbD l.val
  n : ∀ l : Fin 32, h'.g.cc.n.getLsbD l.val = if cs.n && m.getLsbD l.val then (out l).n else h.g.cc.n.getLsbD l.val
  v : ∀ l : Fin 32, h'.g.cc.v.getLsbD l.val = if cs.v && m.getLsbD l.val then (out l).v else h.g.cc.v.getLsbD l.val

/-- A lane instruction has run to its end: every active lane of the destination holds the words `val` of the lane, the codes of `cs`
are those of `out` in the active lanes, the flags of active lanes are ORed into the sticky field (R29), no lane is removed and the
view is unchanged but for `scc`. -/
structure LaneDone (s t : State) (h h' : Here) (i : Instr) (ex : LaneMask) (d : Dst) (cs : CodeSet) (val : Fin 32 → Nat → Word)
    (out : Fin 32 → LaneOut) (scc : ScalarCC) : Prop where
  on : WentOn t h h' (h.after i)
  only : OnlyGroup s t h.r
  value : ∀ l : Fin 32, ex.getLsbD l.val = true → d.holds h h' l (val l)
  whole : ∀ (n : Reg) (l : Fin 32), ex.getLsbD l.val = true → d.names h n l → (h'.vreg n).poison.getLsbD l.val = false
  frame : LaneFrame h h' d ex
  codes : LaneCodes h h' ex cs out
  flags : ∀ b : Nat, h'.g.sticky.getLsbD b =
    (h.g.sticky.getLsbD b || (List.finRange 32).any (fun l => ex.getLsbD l.val && (out l).flags.getLsbD b))
  stays : h'.g.removed = h.g.removed ∧ h'.g.epoch = h.g.epoch
  view : h'.f.view = { h.f.view with scc := scc }

/-! ## What a lane instruction does -/

/-- The fragment has gone on and its view is `v`; of its group nothing else changed. -/
structure GoesOn (s t : State) (h h' : Here) (pc : DWord) (v : View) : Prop where
  on : WentOn t h h' pc
  only : OnlyGroup s t h.r
  group : { h'.g with frags := h.g.frags } = h.g
  view : h'.f.view = v

/-- `i` runs in the lanes of `k`: where the checks at issue pass, `pre` holds and no enabled class arises, it answers a next state
in which the registers of `d` hold the words `val` of each lane, codes and flags are those of `out`, and nothing else has changed;
with no active lane it only goes on (R101). -/
def DoesWith (i : Instr) (k : KReg) (d : Dst) (a b : Option Src) (reads : List Src) (late : Bool) (pre : Here → Prop) (cs : CodeSet)
    (val : Here → Fin 32 → Nat → Word) (out : Here → Fin 32 → LaneOut) : Prop :=
  ∀ s h, (LaneReady .lane s h i k d a b reads late → pre h → quiet h (h.exec k) (out h) → ∃ t h', exec i s = .next t ∧
      LaneDone s t h h' i (h.exec k) d cs (val h) (out h) h.f.view.scc) ∧
    (Issues s h i .lane → h.exec k = 0#32 → ∃ t h', exec i s = .next t ∧ GoesOn s t h h' (h.after i) h.f.view)

/-- As `DoesWith` for one value in each lane. -/
def Does (i : Instr) (k : KReg) (d : Dst) (a b : Option Src) (reads : List Src) (late : Bool) (pre : Here → Prop) (cs : CodeSet)
    (out : Here → Fin 32 → LaneOut) : Prop :=
  DoesWith i k d a b reads late pre cs (fun h l _ => (out h l).val) out

/-- Of a core only its counters of the reuse table may differ (R71). -/
structure Counted (s t : State) (c : Fin 256) : Prop where
  package : { t with cores := s.cores } = s
  cores : ∀ d, d ≠ c → t.core d = s.core d
  core : { t.core c with rhit := (s.core c).rhit, rmiss := (s.core c).rmiss } = s.core c

/-- Where `i` passes its checks at issue and `pre` holds, the lowest enabled class that some active lane meets traps with the lanes
that meet it, and nothing is committed (R148). `out` gives each lane's classes. -/
def TrapsClass (i : Instr) (k : KReg) (d : Dst) (a b : Option Src) (reads : List Src) (late : Bool) (pre : Here → Prop)
    (out : Here → Fin 32 → LaneOut) : Prop :=
  ∀ s h (c : Fin 4),
    let hit (c : Fin 4) : LaneMask := h.exec k &&& maskOf (fun l => (out h l).cls.getLsbD c.val)
    LaneReady .lane s h i k d a b reads late → pre h → h.f.view.en.getLsbD c.val = true → hit c ≠ 0#32 →
    (∀ b : Fin 4, b < c → h.f.view.en.getLsbD b.val = true → hit b = 0#32) →
    ∃ s1, Counted s s1 h.r.core ∧ exec i s = .next (trapOf s1 h i (.plain (0x30#8 + BitVec.ofNat 8 c.val) 0#8 (hit c)))

/-- A lane instruction has gone on with its registers as they were and one result more in flight (R94, R50): the words `val` of the
lanes `m` for the n registers from d up, with the lanes of each that are poisoned, and Z of some lanes. It stands ready after `la`
further instructions, behind the older results. Flags of the active lanes `ex` are raised, lanes `out` are removed. -/
structure LaneFlew (s t : State) (h h' : Here) (i : Instr) (la : BitVec 4) (older : List Pending) (ex m out : LaneMask) (d : Reg) (n : Nat)
    (val : Fin 32 → Nat → Word) (bad : Fin 32 → Nat → Prop) (flags : Fin 32 → Flags) (z : LaneMask × LaneMask) : Prop where
  on : WentOn t h h' (h.after i)
  only : OnlyGroup s t h.r
  view : h'.f.view = h.f.view
  group : { h'.g with frags := h.g.frags, sticky := h.g.sticky, removed := h.g.removed } = h.g
  removed : h'.g.removed = h.g.removed ||| out
  flags : ∀ b : Nat, h'.g.sticky.getLsbD b =
    (h.g.sticky.getLsbD b || (List.finRange 32).any (fun l => ex.getLsbD l.val && (flags l).getLsbD b))
  flight : ∃ x, h'.f.pending = older.map (fun q => { q with left := q.left - 1 }) ++ [x] ∧ x.left = la.toNat ∧ x.uni = [] ∧
    x.zMask = z.1 ∧ x.zVal = z.2 ∧ x.regs.length = (if m = 0#32 then 0 else n) ∧
    ∀ j r, x.regs[j]? = some r → r.reg = d + BitVec.ofNat 6 j ∧ r.mask = m ∧ r.trap = h.trapReg r.reg ∧ r.arrived = false ∧
      r.dropped = false ∧ ∀ l : Fin 32, m.getLsbD l.val = true → r.lanes[l] = val l j ∧ (r.poison.getLsbD l.val = true ↔ bad l j)

/-- The results in flight of the fragment after those for n registers from d up have been discarded (R95). -/
def Here.without (h : Here) (d : Reg) (n : Nat) : List Pending :=
  h.f.pending.map (fun p => { p with
    regs := p.regs.map (fun r => if r.reg ∈ regsFrom d n ∧ r.dropped = false then { r with dropped := true, charged := true } else r) })

/-- LR with three registers: D := f a b, the codes `cs` where C is 1 (R62, R76). -/
def DoesLrB (i : Instr) (o : LrB) (cs : CodeSet) (f : Here → Fin 32 → Word → Word → LaneOut) : Prop :=
  Does i o.k (dstD o.ix o.d) (some (srcA o.ix o.a)) (some (srcB o.ix o.b)) [srcA o.ix o.a, srcB o.ix o.b] false (fun _ => True)
    (codesIf o.c cs) (fun h l => f h l (h.read (srcA o.ix o.a))[l] (h.read (srcB o.ix o.b))[l])

/-- As `DoesLrB` where D is a source too. -/
def DoesLrD (i : Instr) (o : LrB) (cs : CodeSet) (f : Here → Word → Word → Word → LaneOut) : Prop :=
  Does i o.k (dstD o.ix o.d) (some (srcA o.ix o.a)) (some (srcB o.ix o.b)) [srcA o.ix o.a, srcB o.ix o.b, srcD o.ix o.d] false
    (fun _ => True) (codesIf o.c cs)
    (fun h l => f h (h.read (srcA o.ix o.a))[l] (h.read (srcB o.ix o.b))[l] (h.read (srcD o.ix o.d))[l])

/-- LR with one source: D := f a. -/
def DoesLrU (i : Instr) (o : LrU) (cs : CodeSet) (f : Word → LaneOut) : Prop :=
  Does i o.k (dstD o.ix o.d) (some (srcA o.ix o.a)) none [srcA o.ix o.a] false (fun _ => True) (codesIf o.c cs)
    (fun h l => f (h.read (srcA o.ix o.a))[l])

/-- A compare writes the four codes and no register (R89). -/
def DoesLrC (i : Instr) (o : LrC) (f : Word → Word → LaneOut) : Prop :=
  Does i o.k .none (some (srcA o.ix o.a)) (some (srcB o.ix o.b)) [srcA o.ix o.a, srcB o.ix o.b] false (fun _ => True) codesAll
    (fun h l => f (h.read (srcA o.ix o.a))[l] (h.read (srcB o.ix o.b))[l])

/-- The rounding mode of a selector: `FPC`'s RM, or the mode it names (R98). -/
def modeOf (rm : BitVec 2) : RndSel → BitVec 2
  | .fpc => rm
  | .rne => 0#2
  | .rtz => 1#2
  | .rdn => 2#2
  | .rup => 3#2

/-- `FRND` or a conversion, with the rounding mode that its selector names (R98). -/
def DoesCvt (i : Instr) (o : CvtOp) (f : BitVec 2 → Word → LaneOut) : Prop :=
  Does i o.k (dstD o.ix o.d) (some (srcA o.ix o.a)) none [srcA o.ix o.a] false (fun _ => True) (codesIf o.c codesAll)
    (fun h l => f (modeOf h.f.view.rm o.m) (h.read (srcA o.ix o.a))[l])

/-- LI: D := f a. -/
def DoesLi (i : Instr) (k : KReg) (c : Bool) (d : Reg) (a : List Reg) (cs : CodeSet) (f : Here → Fin 32 → LaneOut) : Prop :=
  Does i k (.regs d 1) none none (a.map Src.reg) false (fun _ => True) (codesIf c cs) f

/-- LL without lookahead in force: D := f a b, no codes (R79, R97). -/
def DoesLl (i : Instr) (k : KReg) (d : Reg) (srcs : List Reg) (pre : Here → Prop) (f : Here → Fin 32 → LaneOut) : Prop :=
  Does i k (.regs d 1) none none (srcs.map Src.reg) true pre codesNone f

/-- LP: D := f a b d, no codes (R78). -/
def DoesLp (i : Instr) (o : LpB) (srcs : List Reg) (f : Here → Word → Word → Word → LaneOut) : Prop :=
  Does i (0#1 ++ o.k) (.regs o.d 1) none none (srcs.map Src.reg) false (fun _ => True) codesNone
    (fun h l => f h (h.v o.a)[l] (h.v o.b)[l] (h.v o.d)[l])

/-- The lookahead in force is 0: the field is, or an enable is 1 (R97). -/
def noLookahead (la : BitVec 4) (h : Here) : Prop := la = 0#4 ∨ h.f.view.en ≠ 0#4

/-! ## Outcomes in the spec's own terms -/

/-- A 32-bit result with Z and N taken from it (R156) and its C and V. -/
def wordOut (w : Word) (c v : Bool) : LaneOut := ⟨w, c, w == 0#32, w.msb, v, 0#5, 0#4⟩

/-- An exact signed result that i32 does not hold. -/
def overflows (z : Int) : Bool := decide (z < -2 ^ 31) || decide (2 ^ 31 ≤ z)

/-- The shift amount, bits 7:0 of b (R159). -/
def amount (b : Word) : Nat := (b.setWidth 8).toNat

/-- The shared integer functions of the lane and the uniform instructions, as R158 to R160 state them. -/
def smaller (a b : Word) : Word := if a.toInt ≤ b.toInt then a else b
def larger (a b : Word) : Word := if a.toInt ≤ b.toInt then b else a
def smallerU (a b : Word) : Word := if a.toNat ≤ b.toNat then a else b
def largerU (a b : Word) : Word := if a.toNat ≤ b.toNat then b else a
def highS (a b : Word) : Word := (a.signExtend 64 * b.signExtend 64).extractLsb' 32 32
def highU (a b : Word) : Word := (a.setWidth 64 * b.setWidth 64).extractLsb' 32 32
/-- Leading zero bits: how many i below 32 have a below 2^(31 − i). -/
def leadingZeros (a : Word) : Word := BitVec.ofNat 32 ((List.range 32).countP (fun i => decide (a.toNat < 2 ^ (31 - i))))
def oneBits (a : Word) : Word := BitVec.ofNat 32 ((List.range 32).countP (fun i => a.getLsbD i))

/-- Position and width of a bit field (R163). -/
def bitPos (b : Word) : Nat := (b.extractLsb' 0 5).toNat
def bitWidth (b : Word) : Nat := min (b.extractLsb' 8 6).toNat (32 - bitPos b)

/-- Whether one of the conditions 0 to 7 of R84 holds for a lane's codes. -/
def laneHolds (h : Here) (cond : BitVec 3) (l : Fin 32) : Bool :=
  let c := h.g.cc.c.getLsbD l.val
  let z := h.g.cc.z.getLsbD l.val
  let n := h.g.cc.n.getLsbD l.val
  let v := h.g.cc.v.getLsbD l.val
  match cond with
  | 0#3 => z
  | 1#3 => !z
  | 2#3 => n != v
  | 3#3 => n == v
  | 4#3 => c
  | 5#3 => !c
  | 6#3 => n
  | _ => v

/-- The 32-bit immediate of an LI word: imm9 sign-extended, or the prefix's 23 bits above it (R164). -/
def immLi (imm : BitVec 9) (hi : Option (BitVec 23)) : Word := match hi with
  | none => imm.signExtend 32
  | some h => h ++ imm

/-- Every element of a lane by the rule of its type: over the elements' integers, or over their values in the format (R134, R183). -/
def elems (t : PType) (int : (Word → Int) → ElemOut) (flt : FloatFmt → (Word → FVal) → ElemOut) : LaneOut :=
  mapElems t (fun j => match pfmt t with
    | none => int (fun x => elemToInt (psigned t) t.width (elemAt t.width x j))
    | some f => flt f (fun x => FVal.decode f (elemAt t.width x j)))

/-- An integer element: wrapped modulo 2^w, or clamped to the type's range (R181). -/
def intElemOf (t : PType) (sat : Bool) (z : Int) : ElemOut :=
  let lo : Int := if psigned t then -2 ^ (t.width - 1) else 0
  let hi : Int := if psigned t then 2 ^ (t.width - 1) - 1 else 2 ^ t.width - 1
  ⟨((if sat then max lo (min hi z) else z) % 2 ^ t.width).toNat, 0#5, 0#4⟩

/-- A compare's element: all ones of the element's own bits, or all zeros (R184). -/
def testElem (t : PType) (p : Bool) (fl : Flags) : ElemOut :=
  ⟨if p then (match t with
    | .e3m2 | .e2m3 => 0x3F
    | _ => 2 ^ t.width - 1) else 0, fl, 0#4⟩

/-- A word of the elements e 0, e 1, … of width w, element 0 lowest. -/
def wordOfElems (w : Nat) (e : Nat → Nat) : Word := BitVec.ofNat 32 (packElems w ((List.range (32 / w)).map e))

/-- The flags and the classes that some of several elements have. -/
def unionOf (n : Nat) (e : Nat → ElemOut) : LaneOut :=
  { LaneOut.plain 0#32 with
    flags := (List.range n).foldl (fun f k => f ||| (e k).flags) 0#5, cls := (List.range n).foldl (fun c k => c ||| (e k).cls) 0#4 }

/-! ## Checks at issue -/

/-- A window that reaches past v63. -/
def Src.past (h : Here) : Src → Bool
  | .reg _ => false
  | .win w _ => decide (64 < (h.w w).base.toNat + (h.w w).len.toNat)

/-- The active lanes whose index is at fault: all of them where the window reaches past v63, else those at or past its length (R59). -/
def Src.faults (h : Here) (ex : LaneMask) : Src → LaneMask
  | .reg _ => 0#32
  | .win w x => if 64 < (h.w w).base.toNat + (h.w w).len.toNat then ex
    else ex &&& maskOf (fun l => decide ((h.w w).len.toNat ≤ (h.x x)[l].toNat))

/-- An operand's part of the sub-cause: its bit, and bit 3 where a faulting window reaches past v63. -/
def Src.subCause (h : Here) (ex : LaneMask) (bit : Byte) (x : Src) : Byte :=
  if x.faults h ex = 0#32 then 0#8 else bit ||| (if x.past h then 8#8 else 0#8)

/-- A destination as an indexed operand. -/
def Dst.asSrc : Dst → Src
  | .win w x => .win w x
  | .none | .regs _ _ | .index _ => .reg 0#6

/-- The checks at issue of a lane instruction with an active lane, in order (R155): the register budget, which traps or waits for the
group's own results (R50, R51); the range of the indexed operands, with the sub-cause of each (R59); poison of an active lane of a
source (R219). -/
def ChecksAtIssue (i : Instr) (k : KReg) (dst : Dst) (a b : Option Src) (reads : List Src) (late : Bool) : Prop :=
  ∀ s h, Issues s h i .lane → h.exec k ≠ 0#32 →
    let ex := h.exec k
    let d := dst.asSrc
    let a := a.getD (.reg 0#6)
    let b := b.getD (.reg 0#6)
    let rise := h.raises ex dst late
    let faults := d.faults h ex ||| a.faults h ex ||| b.faults h ex
    let bad := ex &&& reads.foldl (fun m x => m ||| h.poisonOf x) 0#32
    (rise ≠ 0 → h.g.budget < h.group.charge + rise → h.group.inFlight = false →
      exec i s = .next (trapOf s h i (.plain cIllegal 0x01#8 h.lanes))) ∧
    (rise ≠ 0 → h.g.budget < h.group.charge + rise → h.group.inFlight = true → exec i s = .next (s.put (h.wait .result))) ∧
    (rise = 0 ∨ h.group.charge + rise ≤ h.g.budget →
      (faults ≠ 0#32 → exec i s =
        .next (trapOf s h i (.plain cIndexRange (d.subCause h ex 1#8 ||| a.subCause h ex 2#8 ||| b.subCause h ex 4#8) faults))) ∧
      (faults = 0#32 → bad ≠ 0#32 → exec i s = .next (trapOf s h i (.plain cEcc 0x01#8 bad))))

/-! ## Memory -/

/-- The bytes of n-byte accesses of the lanes of `ex`. -/
def Covered (ex : LaneMask) (addr : Fin 32 → Nat) (n a : Nat) : Prop :=
  ∃ l : Fin 32, ex.getLsbD l.val = true ∧ addr l ≤ a ∧ a < addr l + n

/-- Lane l is the highest whose access covers a byte. -/
def HighestOn (ex : LaneMask) (addr : Fin 32 → Nat) (n : Nat) (l : Fin 32) (a : Nat) : Prop :=
  ex.getLsbD l.val = true ∧ addr l ≤ a ∧ a < addr l + n ∧
    ∀ m : Fin 32, l < m → ex.getLsbD m.val = true → ¬(addr m ≤ a ∧ a < addr m + n)

/-- Some of those bytes is in the word of an address. -/
def WordTouched (ex : LaneMask) (addr : Fin 32 → Nat) (n a : Nat) : Prop := ∃ b, b / 4 = a / 4 ∧ Covered ex addr n b

/-- Every active lane's access passes its checks, and stands at `p` (R197, R198, R214). -/
def Passes (s : State) (h : Here) (ex : LaneMask) (acc : Access) (fr : FreezeRule) (n : Nat) (addr : Fin 32 → DWord) (p : Fin 32 → Place) :
    Prop := ∀ l : Fin 32, ex.getLsbD l.val = true → check1 s h acc fr n n (addr l) = .ok (p l)

/-- The lanes of a first-fault load that load: the active ones below the first that would fail a check (R284). -/
def FirstGood (s : State) (h : Here) (o : LmLd) (good : LaneMask) : Prop :=
  ∀ l : Fin 32, good.getLsbD l.val = true ↔ (h.exec o.k).getLsbD l.val = true ∧ ∀ m : Fin 32, m ≤ l → (h.exec o.k).getLsbD m.val = true →
    ∃ x, check1 s h .load .none (szBytes o.sz) (szBytes o.sz) (lmAddr h o.a o.p o.sz o.px m) = .ok x

/-- A context without who holds replicas of its frozen blocks. -/
def Context.bare (x : Context) : Context := { x with regions := x.regions.map (fun e => (e.1, { e.2 with holders := [] })) }

/-- What a load may leave behind beside its result: copies in caches and the grants for them, replicas of frozen blocks, the
observer's records. Every byte at its home, its poison, every register and every team stay. -/
structure Accounted (s t : State) (c : Fin 256) : Prop where
  package : { t with cores := s.cores, contexts := s.contexts, sliceCopies := s.sliceCopies, grants := s.grants, choices := s.choices } = s
  contexts : t.contexts.map Context.bare = s.contexts.map Context.bare
  cores : ∀ d, d ≠ c → t.core d = s.core d
  core : { t.core c with
      l1 := (s.core c).l1, observed := (s.core c).observed, unobservable := (s.core c).unobservable
      budgeted := (s.core c).budgeted, loaded := (s.core c).loaded } = s.core c
  homes : ∀ a, homeByte t a = homeByte s a

/-- What a write to memory leaves as it was: of the package only memory's tables may differ, of a core only L1, of the issuing core
its slot and its reuse table. -/
structure OnlyMemory (s t : State) (r : FragRef) : Prop where
  package : { t with
      mem := s.mem, freeAt := s.freeAt, kept := s.kept, registered := s.registered, cores := s.cores, sliceCopies := s.sliceCopies, hints := s.hints
      writes := s.writes, fresh := s.fresh, poison := s.poison, choices := s.choices } = s
  cores : ∀ d, { t.core d with
      l1 := (s.core d).l1, bar := (s.core d).bar, slots := (s.core d).slots, reuse := (s.core d).reuse
      seen := (s.core d).seen, rcoll := (s.core d).rcoll } = s.core d
  others : ∀ d, d ≠ r.core → (t.core d).slots = (s.core d).slots
  slots : ∀ i : Fin 64, i ≠ r.slot → t.group? r.core i = s.group? r.core i

/-- What a write to a team's scratchpad leaves as it was. -/
structure OnlyPad (s t : State) (r : FragRef) (u : Nat) : Prop where
  package : { t with cores := s.cores, teams := s.teams, choices := s.choices } = s
  cores : ∀ d, d ≠ r.core → t.core d = s.core d
  core : { t.core r.core with
      slots := (s.core r.core).slots, reuse := (s.core r.core).reuse, seen := (s.core r.core).seen, rhit := (s.core r.core).rhit
      rmiss := (s.core r.core).rmiss, rcoll := (s.core r.core).rcoll } = s.core r.core
  slots : ∀ i : Fin 64, i ≠ r.slot → t.group? r.core i = s.group? r.core i
  teams : ∀ v, v ≠ u → t.team? v = s.team? v
  team : ∀ x, s.team? u = some x → ∃ y, t.team? u = some y ∧ { y with scratch := x.scratch, scratchPoison := x.scratchPoison } = x

/-- The fragment goes on after a write: the reuse epoch ends, lanes `out` are removed, nothing else of its group changes. -/
structure WentOnWriting (t : State) (h h' : Here) (i : Instr) (out : LaneMask) : Prop where
  on : WentOn t h h' (h.after i)
  group : { h'.g with frags := h.g.frags, epoch := h.g.epoch, removed := h.g.removed } = h.g
  epoch : h'.g.epoch = h.g.epoch + 1
  removed : h'.g.removed = h.g.removed ||| out
  view : h'.f.view = h.f.view

/-- As `LaneDone` for an instruction that also touches memory: the lanes `m` of the destination and the lanes `ex` of the codes are
written, and nothing else of the group but the reuse epoch and removed lanes. -/
structure LaneWrote (t : State) (h h' : Here) (i : Instr) (m ex : LaneMask) (d : Dst) (cs : CodeSet) (val : Fin 32 → Nat → Word)
    (out : Fin 32 → LaneOut) : Prop where
  on : WentOn t h h' (h.after i)
  value : ∀ l : Fin 32, m.getLsbD l.val = true → d.holds h h' l (val l)
  whole : ∀ (n : Reg) (l : Fin 32), m.getLsbD l.val = true → d.names h n l → (h'.vreg n).poison.getLsbD l.val = false
  frame : LaneFrame h h' d m
  codes : LaneCodes h h' ex cs out
  sticky : h'.g.sticky = h.g.sticky
  view : h'.f.view = h.f.view

/-- A cross-lane instruction has run to its end: the lanes `m` of the destination and the codes of the lanes `ex` are written, and
SCC.E is 0 (R236). -/
structure LaneCross (s t : State) (h h' : Here) (i : Instr) (m ex : LaneMask) (d : Dst) (cs : CodeSet) (val : Fin 32 → Word)
    (out : Fin 32 → LaneOut) : Prop where
  on : WentOn t h h' (h.after i)
  only : OnlyGroup s t h.r
  value : ∀ l : Fin 32, m.getLsbD l.val = true → d.holds h h' l (fun _ => val l)
  whole : ∀ (n : Reg) (l : Fin 32), m.getLsbD l.val = true → d.names h n l → (h'.vreg n).poison.getLsbD l.val = false
  frame : LaneFrame h h' d m
  codes : LaneCodes h h' ex cs out
  flags : ∀ b : Nat, h'.g.sticky.getLsbD b =
    (h.g.sticky.getLsbD b || (List.finRange 32).any (fun l => ex.getLsbD l.val && (out l).flags.getLsbD b))
  stays : h'.g.removed = h.g.removed ∧ h'.g.epoch = h.g.epoch
  view : h'.f.view = { h.f.view with scc := { h.f.view.scc with e := false } }

/-- `i` runs across the lanes of `k` (R236); with no active lane it sets SCC.E and nothing else (R37). -/
def DoesCross (i : Instr) (k : KReg) (d : Reg) (reads : List Reg) (cs : CodeSet) (pre : Here → Prop) (m : Here → LaneMask)
    (val : Here → Fin 32 → Word) (out : Here → Fin 32 → LaneOut) : Prop :=
  ∀ s h, (LaneReady .lane s h i k (.regs d 1) none none (reads.map Src.reg) false → pre h → quiet h (h.exec k) (out h) →
      ∃ t h', exec i s = .next t ∧ LaneCross s t h h' i (m h) (h.exec k) (.regs d 1) cs (val h) (out h)) ∧
    (Issues s h i .lane → h.exec k = 0#32 → ∃ t h', exec i s = .next t ∧
      GoesOn s t h h' (h.after i) { h.f.view with scc := { h.f.view.scc with e := true } })

/-- `PART` is one of its values (R36). -/
def Here.tiled (h : Here) : Prop := h.f.view.part.toNat ∈ [2, 4, 8, 16, 32]

/-- The active lanes of a lane's tile, ascending (R36). -/
def Here.tile (h : Here) (ex : LaneMask) (l : Fin 32) : List (Fin 32) :=
  (lanesIn ex).filter (fun m => m.val / h.f.view.part.toNat == l.val / h.f.view.part.toNat)

/-- The segment of a lane in a list: the lanes with no other key between them and it (R242). -/
def segmentOf (key : Fin 32 → Word) (ls : List (Fin 32)) (l : Fin 32) : List (Fin 32) :=
  ls.filter (fun m => ls.all (fun x => !(decide (min l m ≤ x) && decide (x ≤ max l m)) || key x == key l))

/-- Lane l takes lane j's value under a mode of `XSHFL` (R237). -/
def shflTakes (h : Here) (mode : BitVec 3) (d : Word) (l j : Fin 32) : Bool :=
  let p := h.f.view.part.toNat
  let r := l.val % p
  let i := j.val % p
  (l.val / p == j.val / p) && (match mode with
    | 0#3 => i == d.toNat
    | 1#3 => (i : Int) == r + d.toInt
    | 2#3 => i == r ^^^ d.toNat
    | _ => i == (r + d.toNat) % p)

/-- The accumulator and the flags of a chain over some words, first to last (R240, R241). -/
def redFold (f : BitVec 3) (rm : BitVec 2) : List Word → Word × Flags
  | [] => (redIdentity f, 0#5)
  | x :: xs => xs.foldl (fun a y => ((redStep f rm a.1 y).1, a.2 ||| (redStep f rm a.1 y).2)) (x, 0#5)

/-- What a reduction or a scan delivers to a lane of a list of lanes. -/
def redLane (form : ScanForm) (f : BitVec 3) (rm : BitVec 2) (va : Fin 32 → Word) (ls : List (Fin 32)) (l : Fin 32) : LaneOut :=
  let upTo := match form with
    | .red => ls
    | .scan => ls.filter (· ≤ l)
    | .scane => ls.filter (· < l)
  let r := redFold f rm (upTo.map va)
  redOut f r.1 r.2 (upTo.map va)

/-- How many active lanes stand below a lane: its slot in a queue instruction (R246). -/
def slotOf (ex : LaneMask) (l : Fin 32) : Nat := ((lanesIn ex).filter (· < l)).length

/-- The word at an address as a core's own fragments find it at its home, their own stores come first (R266, R324). -/
def homeWord (s : State) (c : Fin 256) (a : Nat) : Word :=
  copySource s c (a + 3) ++ copySource s c (a + 2) ++ copySource s c (a + 1) ++ copySource s c a

/-- The word at an address as it stands at its home. -/
def wordAt (s : State) (a : Nat) : Word := homeByte s (a + 3) ++ homeByte s (a + 2) ++ homeByte s (a + 1) ++ homeByte s a

/-- The word at an address of a scratchpad. -/
def scratchWord (t : Team) (a : Nat) : Word :=
  bytesGet t.scratch (a + 3) ++ bytesGet t.scratch (a + 2) ++ bytesGet t.scratch (a + 1) ++ bytesGet t.scratch a

/-- The byte that a store writes at offset i of lane l (R286). -/
def storeByte (h : Here) (d : Reg) (l : Fin 32) (i : Nat) : Byte :=
  ((h.v (d + BitVec.ofNat 6 (i / 4)))[l]).extractLsb' (8 * (i % 4)) 8

/-- The word of a load of some bytes in register j of its lane: zero- or sign-extended below a word (R282). -/
def loadedWord (sz : BitVec 2) (signed : Bool) (byte : Nat → Byte) (j : Nat) : Word :=
  match sz with
  | 0#2 => if signed then (byte 0).signExtend 32 else (byte 0).setWidth 32
  | 1#2 => if signed then (byte 1 ++ byte 0).signExtend 32 else (byte 1 ++ byte 0).setWidth 32
  | _ => byte (4 * j + 3) ++ byte (4 * j + 2) ++ byte (4 * j + 1) ++ byte (4 * j)

/-- What the word at each address holds after the lanes of a list, in order, have applied their operation to the word of theirs (R289). -/
def atomsRun (op : Fin 32 → Word → Option Word) (pa : Fin 32 → Nat) : List (Fin 32) → (Nat → Word) → Nat → Word
  | [], m => m
  | l :: ls, m => atomsRun op pa ls (match op l (m (pa l)) with
    | some x => fun a => if a = pa l then x else m a
    | none => m)

/-- The lanes of a set that have not been performed ahead of the others (R253; log 49), ascending. -/
def lanesDue (h : Here) (m : LaneMask) : List (Fin 32) := (lanesIn m).filter (fun l => (aheadOf h l).isNone)

/-- The word that a lane's operation finds: that which the lower lanes leave; of one performed ahead, what it found then. -/
def atomOld (h : Here) (op : Fin 32 → Word → Option Word) (pa : Fin 32 → Nat) (ex : LaneMask) (m : Nat → Word) (l : Fin 32) : Word :=
  match aheadOf h l with
  | some d => d.1
  | none => atomsRun op pa ((lanesDue h ex).filter (· < l)) m (pa l)

/-- The operations of R288. -/
def atomOp (f : BitVec 3) (old x : Word) : Word :=
  match f with
  | 0#3 => old + x
  | 1#3 => smaller old x
  | 2#3 => larger old x
  | 3#3 => smallerU old x
  | 4#3 => largerU old x
  | 5#3 => old &&& x
  | 6#3 => old ||| x
  | _ => old ^^^ x

/-! ## What a uniform instruction does -/

/-- `i` goes on at `pc`; of its group only what `w` says of the uniform state has changed (R189). -/
def DoesGo (i : Instr) (pc : Here → DWord) (w : Here → Here → Prop) : Prop :=
  ∀ s h, Issues s h i .control → ∃ t h', exec i s = .next t ∧ OnlyGroup s t h.r ∧ WentOn t h h' (pc h) ∧ UniformFrame h h' ∧ w h h'

/-- `i` writes one uniform register and the scalar codes. -/
def DoesS (i : Instr) (d : Reg) (val : Here → Word) (scc : Here → ScalarCC) : Prop :=
  DoesGo i (fun h => h.after i) (fun h h' => WritesS h h' d (val h) (scc h))

/-- `i` writes a pair of uniform registers. -/
def DoesSP (i : Instr) (d : Reg) (val : Here → DWord) (scc : Here → ScalarCC) : Prop :=
  DoesGo i (fun h => h.after i) (fun h h' => WritesSP h h' d (val h) (scc h))

/-- `i` changes the view alone. -/
def DoesView (i : Instr) (v : Here → View) : Prop := DoesGo i (fun h => h.after i) (fun h h' => WritesView h h' (v h))

/-- `i` writes one mask register. -/
def DoesK (i : Instr) (kd : KReg) (val : Here → Word) : Prop :=
  DoesView i (fun h => { h.f.view with k := kSet h.f.view.k kd (val h) })

/-- `i` goes on at `pc` and writes nothing. -/
def DoesJump (i : Instr) (pc : Here → DWord) (v : Here → View) : Prop := DoesGo i pc (fun h h' => WritesView h h' (v h))

/-- A mask register; `k0` is all ones (R46). -/
def Here.mask (h : Here) (k : KReg) : Word := if k = 0#3 then 0xFFFFFFFF#32 else kGet h.f.view.k k

/-- The 32-bit immediate of a GI word (R193). -/
def immGi (imm : BitVec 12) (hi : Option (BitVec 20)) : Word := match hi with
  | none => imm.signExtend 32
  | some h => h ++ imm

/-- The codes of a signed compare (R191). -/
def cmpCodes (a b : Word) (e : Bool) : ScalarCC :=
  ⟨decide (a.toNat < b.toNat), a - b == 0#32, (a - b).msb, overflows (a.toInt - b.toInt), e⟩

/-- Whether one of the sixteen conditions of R84 holds for the scalar codes. -/
def scalarHolds (h : Here) (cond : BitVec 4) : Bool :=
  let x := h.f.view.scc
  match cond with
  | 0#4 => x.z
  | 1#4 => !x.z
  | 2#4 => x.n != x.v
  | 3#4 => x.n == x.v
  | 4#4 => x.c
  | 5#4 => !x.c
  | 6#4 => x.n
  | 7#4 => x.v
  | 8#4 => !x.z && x.n == x.v
  | 9#4 => x.z || x.n != x.v
  | 10#4 => !x.c && !x.z
  | 11#4 => x.c || x.z
  | 12#4 => !x.n
  | 13#4 => !x.v
  | 14#4 => x.e
  | _ => true

/-- A written set with one uniform register more; a trap register of the handler is no element of it (R28, R64). -/
def Here.noteS (h : Here) (d : Reg) (w : Written) : Written := if h.trapReg d then w else { w with s := w.s ||| 1#64 <<< d.toNat }

/-- As `noteS` for a pair of registers. -/
def Here.noteSP (h : Here) (d : Reg) (w : Written) : Written := h.noteS (d + 1#6) (h.noteS d w)

/-- Where the fragment goes on past `i` (wherever it goes on to, for a jump), its written set becomes `w` of what it was in a group
that is split, and stays in one that is not (R28). -/
def Notes (i : Instr) (cl : RoleClass) (w : Here → Written → Written) (jumps : Bool := false) : Prop :=
  ∀ s h t h', Issues s h i cl → exec i s = .next t → t.at? h.r = some h' → (jumps = true ∨ h'.f.pc = h.after i) →
    h'.g.handler = h.g.handler → h'.f.written = if h.g.single then h.f.written else w h h.f.written

/-! ## Roles and fusion -/

/-- The class of a word by R21's table. -/
def wordClass (w : Word) : RoleClass :=
  let l := (w.extractLsb' 25 6).toNat
  let g := (w.extractLsb' 24 7).toNat
  if w.msb then (if 0x40 ≤ g ∧ g ≤ 0x47 then .copy else if 0x50 ≤ g ∧ g ≤ 0x58 then .matrix else .control)
  else if l = 0x1E ∨ l = 0x1F then .padMove else .lane

/-- What several fragments, lowest slice first, hold together of an element of the uniform state: the first one's that wrote it, else
the first one's (R31). -/
def fusedBy {α : Type} (fs : List Frag) (wrote : Frag → Bool) (val : View → α) : Option α :=
  ((fs.find? wrote).orElse (fun _ => fs.head?)).map (fun f => val f.view)

/-- A view is what some fragments fuse to (R31). -/
structure FusedView (fs : List Frag) (v : View) : Prop where
  s : ∀ n : Fin 64, some v.s[n] = fusedBy fs (fun f => f.written.s.getLsbD n.val) (fun v => v.s[n])
  k : ∀ n : Fin 8, some v.k[n] = fusedBy fs (fun f => f.written.k.getLsbD n.val) (fun v => v.k[n])
  w : ∀ n : Fin 4, some v.w[n] = fusedBy fs (fun f => f.written.w.getLsbD n.val) (fun v => v.w[n])
  scc : some v.scc = fusedBy fs (fun f => f.written.scc) (fun v => v.scc)
  fp : some (v.rm, v.en) = fusedBy fs (fun f => f.written.fp) (fun v => (v.rm, v.en))
  part : some v.part = fusedBy fs (fun f => f.written.part) (fun v => v.part)

/-! ## Traps -/

/-- A fragment after its outstanding results are settled (R96). -/
def Here.settled (s : State) (h : Here) : Here := (settleAll s h).2

/-- The fields of a trap frame at an address (R200). -/
structure FrameAt (t : State) (a : Nat) (h : Here) (w : Words) (x : TrapInfo) (preempt : Bool) (time : Nat) : Prop where
  cause : fwRead t a 1 = x.cause.toNat
  sub : fwRead t (a + 0x01) 1 = x.sub.toNat
  flags : fwRead t (a + 0x02) 2 = (if w.pfx.isSome then 1 else 0) + (if preempt then 8 else 0)
  mask : fwRead t (a + 0x04) 4 = x.mask.toNat
  addr : fwRead t (a + 0x08) 8 = x.addr.toNat % 2 ^ 56
  word : fwRead t (a + 0x10) 4 = w.word.toNat
  pfx : fwRead t (a + 0x14) 4 = (w.pfx.getD 0#32).toNat
  pc : fwRead t (a + 0x18) 8 = h.f.pc.toNat
  slices : fwRead t (a + 0x20) 1 = h.f.slices.toNat
  step : fwRead t (a + 0x21) 1 = x.step % 256
  lanes : fwRead t (a + 0x24) 4 = h.lanes.toNat
  time : fwRead t (a + 0x28) 8 = time % 2 ^ 64
  aux : fwRead t (a + 0x30) 8 = x.aux.toNat

/-- A fragment `h`, its results settled, has entered its group's handler at `e` (R201): what is saved, the enables at 0, a new epoch,
the frame in memory, and nothing else of the group or of memory changed. -/
structure EnteredHandler (s t : State) (h h' : Here) (w : Words) (x : TrapInfo) (c : Context) (e : DWord) : Prop where
  found : t.at? h.r = some h'
  frag : h'.f = { h.f with pc := e, status := .ready, resume := 0, ahead := [], passed := [], view := { h.f.view with en := 0#4 } }
  saved : h'.g.handler = some ⟨h.r.frag, h.f.pc, w.pfx.isSome, h.f.view.rm, h.f.view.en, if x.step = 0 then h.f.resume else x.step, x.cause⟩
  epoch : h'.g.epoch = h.g.epoch + 1
  group : { h'.g with frags := h.g.frags, handler := h.g.handler, reissue := h.g.reissue, epoch := h.g.epoch } = h.g
  siblings : ∀ j : Fin 8, j ≠ h.r.frag → h'.g.frags[j] = h.g.frags[j]
  frame : FrameAt t (frameAddr c h.r.core h.r.slot) h w x c.preempt (max (s.timeAt h.r.core) h.g.timeFloor)
  memory : ∀ a, ¬(frameAddr c h.r.core h.r.slot ≤ a ∧ a < frameAddr c h.r.core h.r.slot + 128) → homeByte t a = homeByte s a

/-- The fragment goes on from its settled state `h1` at `pc`, with the view `v`. -/
structure SettledOn (s t : State) (h1 h' : Here) (pc : DWord) (v : View) : Prop where
  found : t.at? h1.r = some h'
  only : OnlyGroup s t h1.r
  pc : h'.f.pc = pc
  ready : h'.f.status = .ready
  view : h'.f.view = v
  pending : h'.f.pending = []

/-! ## Rounding -/

/-- The distance of two numbers. -/
def apart (a b : Nat) : Nat := (a - b) + (b - a)

/-- A real magnitude in units of 2^k, given by how its double compares with each whole number. -/
abbrev Cut := Nat → Ordering

/-- The cut of x / d. -/
def cutOf (x d : Nat) : Cut := fun n => compare (2 * x) (n * d)

/-- The formats of R129. -/
def floatFormats : List FloatFmt := [fmtF32, fmtF16, fmtBf16, fmtE4m3, fmtE5m2, fmtE3m2, fmtE2m3, fmtE2m1]

/-- The exponent of a format's smallest subnormal. -/
def FloatFmt.lowest (f : FloatFmt) : Int := 1 - f.bias - f.mbits

/-- The magnitude of encoding b in units of 2^k, for a k no higher than the format's lowest exponent; past the format's own encodings
its exponent goes on (R139). -/
def FloatFmt.mag (f : FloatFmt) (k : Int) (b : Nat) : Nat :=
  if b / 2 ^ f.mbits = 0 then b * 2 ^ (f.lowest - k).toNat
  else (2 ^ f.mbits + b % 2 ^ f.mbits) * 2 ^ (f.lowest + Int.ofNat (b / 2 ^ f.mbits) - 1 - k).toNat

/-- An encoding stands for a real magnitude as R139 asks in a mode, exponents unbounded: of all magnitudes its own is the nearest, on a
tie it is even; or the largest not above, or the smallest not below. -/
def RoundedTo (f : FloatFmt) (rm : BitVec 2) (neg : Bool) (k : Int) (x : Cut) (enc : Nat) : Prop :=
  ∀ b, let y := f.mag k enc
    let z := f.mag k b
    if rm = 0#2 then (y < z → x (y + z) ≠ .gt) ∧ (z < y → x (y + z) ≠ .lt) ∧ (y ≠ z → x (y + z) = .eq → enc % 2 = 0)
    else if rm = 1#2 ∨ neg = decide (rm = 3#2) then x (2 * y) ≠ .lt ∧ (x (2 * z) ≠ .lt → z ≤ y)
    else x (2 * y) ≠ .gt ∧ (x (2 * z) ≠ .gt → y ≤ z)

/-- What R140 delivers where the magnitude passes every finite value. -/
def overflowOf (f : FloatFmt) (rm : BitVec 2) (sat neg : Bool) : FRes :=
  let toward := (rm = 1#2) ∨ (rm = 2#2 ∧ neg = false) ∨ (rm = 3#2 ∧ neg = true)
  let sign : Nat := if neg then 2 ^ f.magBits else 0
  if toward ∨ sat = true then ⟨sign + f.maxEnc, flOF ||| flNX, false, false⟩
  else match f.kind with
    | .ieee => ⟨sign + f.maxEnc + 1, flOF ||| flNX, false, true⟩
    | .nanOnly => ⟨sign + f.maxEnc + 1, flOF ||| flNX, true, false⟩
    | .finite => ⟨sign + f.maxEnc, flOF ||| flNX, false, false⟩

/-- A result is what R139 to R142 deliver for a real number of this sign and magnitude: rounded once, with UF and NX as R141 says, or
settled by R140 where the rounded magnitude passes every finite value. -/
def Delivers (f : FloatFmt) (rm : BitVec 2) (sat neg : Bool) (k : Int) (x : Cut) (r : FRes) : Prop :=
  ∃ enc, RoundedTo f rm neg k x enc ∧
    if f.maxEnc < enc then r = overflowOf f rm sat neg
    else r = ⟨(if neg then 2 ^ f.magBits else 0) + enc, if x (2 * f.mag k enc) = .eq then 0#5
      else if f.mag k enc < f.mag k (2 ^ f.mbits) then flUF ||| flNX else flNX, false, false⟩

/-- A zero, an infinity, with a sign and no flag. -/
def zeroOf (f : FloatFmt) (neg : Bool) : FRes := ⟨if neg then 2 ^ f.magBits else 0, 0#5, false, false⟩
def infinityOf (f : FloatFmt) (neg : Bool) : FRes := ⟨(if neg then 2 ^ f.magBits else 0) + f.maxEnc + 1, 0#5, false, true⟩

/-- A delivered NaN (R143): the sign, the payload's bits that fit and the quiet bit; e4m3 has one NaN for each sign. -/
def NanOut (f : FloatFmt) (neg : Bool) (frac : Nat) (fl : Flags) (r : FRes) : Prop :=
  r.flags = fl ∧ r.nan = true ∧ r.inf = false ∧ r.bits < 2 ^ (f.magBits + 1) ∧
    FVal.decode f r.bits = .nan neg (if f.kind = .nanOnly then 0x700000
      else (frac ||| quietBit) / 2 ^ (23 - f.mbits) * 2 ^ (23 - f.mbits))

/-- The default NaN and NV (R143). -/
def InvalidOut (f : FloatFmt) (r : FRes) : Prop := NanOut f false quietBit flNV r

/-- The NaN rule of R143: the first NaN argument, quieted; NV where it was signalling or the product is 0·∞. -/
def NanRule (f : FloatFmt) (bad : Bool) (args : List FVal) (r : FRes) : Prop :=
  ∀ pre n fr post, args = pre ++ FVal.nan n fr :: post → (∀ x ∈ pre, x.isNan = false) → fr < 2 ^ 23 → f.kind ≠ .finite →
    NanOut f n fr (if bad = true ∨ fr / quietBit % 2 = 0 then flNV else 0#5) r

/-- The product of a zero and an infinity. -/
def zeroTimesInf (a b : FVal) : Bool := (a.isZero && b.isInf) || (a.isInf && b.isZero)

/-- The exact product of two values that are not NaN. -/
def exactMul (a b : FVal) : FVal := match a, b with
  | .fin na ma ea, .fin nb mb eb => .fin (na != nb) (ma * mb) (ea + eb)
  | a, b => .inf (a.neg? != b.neg?)

/-- A whole number with a sign. -/
def signedNat (neg : Bool) (m : Nat) : Int := if neg then -(m : Int) else m

/-- The rounded sum of two values that are not NaN (R139 to R143): ∞ − ∞ is invalid, an infinity stays, an exact zero of opposite signs
is +0 but under RDN. -/
structure SumOf (f : FloatFmt) (rm : BitVec 2) (sat : Bool) (p c : FVal) (r : FRes) : Prop where
  invalid : ∀ n, p = .inf n → c = .inf (!n) → f.kind = .ieee → InvalidOut f r
  inf : ∀ n, (p = .inf n ∧ c ≠ .inf (!n)) ∨ (c = .inf n ∧ p.isInf = false) → f.kind = .ieee → r = infinityOf f n
  exact : ∀ np mp ep nc mc ec (k : Int), p = .fin np mp ep → c = .fin nc mc ec → k ≤ ep → k ≤ ec → k ≤ f.lowest →
    let z : Int := signedNat np (mp * 2 ^ (ep - k).toNat) + signedNat nc (mc * 2 ^ (ec - k).toNat)
    (z ≠ 0 → Delivers f rm sat (decide (z < 0)) k (cutOf z.natAbs 1) r) ∧
    (z = 0 → r = zeroOf f (if np = nc then np else decide (rm = 2#2)))

/-- The rounded product of two values that are not NaN. -/
structure ProductOf (f : FloatFmt) (rm : BitVec 2) (sat : Bool) (a b : FVal) (r : FRes) : Prop where
  invalid : zeroTimesInf a b = true → f.kind = .ieee → InvalidOut f r
  inf : ∀ n, zeroTimesInf a b = false → exactMul a b = .inf n → f.kind = .ieee → r = infinityOf f n
  exact : ∀ n m e (k : Int), exactMul a b = .fin n m e → k ≤ e → k ≤ f.lowest → Delivers f rm sat n k (cutOf (m * 2 ^ (e - k).toNat) 1) r

/-- A magnitude x / d as a whole number, rounded by a mode (R145). -/
def RoundedInt (rm : BitVec 2) (neg : Bool) (x d z : Nat) : Prop :=
  if rm = 0#2 then ∀ b : Nat, apart (z * d) x ≤ apart (b * d) x ∧ (apart (z * d) x = apart (b * d) x → b ≠ z → z % 2 = 0)
  else if rm = 1#2 ∨ neg = decide (rm = 3#2) then z * d ≤ x ∧ x < (z + 1) * d
  else x ≤ z * d ∧ z * d < x + d

/-- The codes of a delivered f32 (R157). -/
def F32Codes (w : Word) (o : LaneOut) : Prop :=
  let m := (w.extractLsb' 0 31).toNat
  o.z = decide (m = 0) ∧ o.c = decide (m = 0x7F800000) ∧ o.v = decide (0x7F800000 < m) ∧ o.n = (w.msb && decide (m ≤ 0x7F800000))

/-- The non-finite class of a result over its inputs (R147). -/
def ClassIs (nan inf : Bool) (ins : List FVal) (c : BitVec 4) : Prop :=
  c.getLsbD 0 = (nan && ins.all (fun x => !x.isNan)) ∧ c.getLsbD 1 = (nan && ins.any FVal.isNan) ∧
  c.getLsbD 2 = (!nan && inf && ins.all (fun x => !x.isInf)) ∧ c.getLsbD 3 = (!nan && inf && ins.any FVal.isInf)

/-- An encoding's place in the order of values, −0 below +0 (R167). -/
def orderKey (f : FloatFmt) (x : Nat) : Int := if 2 ^ f.magBits ≤ x then -((x - 2 ^ f.magBits : Nat) : Int) - 1 else x

/-- An f32 word's place in the order of values, zeros equal (R169). -/
def valueKey (w : Word) : Int := signedNat w.msb (w.extractLsb' 0 31).toNat

/-! ## Waits and releases -/

/-- The fragment waits where it stands, its instruction not carried out, with the accesses `ps` past their checks; nothing else of its
group has changed. -/
structure WaitsAt (t : State) (h h' : Here) (w : Wait) (ps : List Passed) : Prop where
  found : t.at? h.r = some h'
  frag : h'.f = { h.f with status := .waiting w, passed := ps }
  group : { h'.g with frags := h.g.frags } = h.g
  siblings : ∀ j : Fin 8, j ≠ h.r.frag → h'.g.frags[j] = h.g.frags[j]

/-- Nothing of the core's or the group's is outstanding, and no lease stands for which a write would wait (R269, R293). -/
structure Released (s : State) (h : Here) : Prop where
  grants : ∀ g ∈ s.grants, g.expiry + Config.guardNs ≤ s.agentTime g.home
  writes : ∀ w ∈ s.writes, w.core ≠ h.r.core ∧ w.group ≠ h.g.uid
  copies : ∀ c ∈ s.copies, c.group = h.g.uid → c.out = false
  redgs : ∀ r ∈ s.redgs, r.group ≠ h.g.uid
  runs : ∀ r ∈ (s.core h.r.core).engine.runs, r.group ≠ h.g.uid

/-- Nothing of the group's is outstanding that a release at `.grp` or `.core` carries out or waits for (R293). -/
structure GroupReleased (s : State) (h : Here) : Prop where
  redgs : ∀ r ∈ s.redgs, r.group ≠ h.g.uid
  runs : ∀ r ∈ (s.core h.r.core).engine.runs, r.group ≠ h.g.uid
  writes : ∀ w ∈ s.writes, w.redg = true → w.group ≠ h.g.uid
  copies : ∀ c ∈ s.copies, c.group = h.g.uid → c.out = true → c.written.isSome = true

/-- Such a release has to wait: a write of an applied `REDG` of the group is outstanding, or the bytes of a `CPYO` are not written. -/
def GroupWaits (s : State) (h : Here) : Prop :=
  (∃ w ∈ s.writes, w.redg = true ∧ w.group = h.g.uid) ∨ ∃ c ∈ s.copies, c.group = h.g.uid ∧ c.out = true ∧ c.written = none

/-- `.die`, `.pkg` or `.sys`. -/
def wideScope (sc : Scope) : Prop := sc ≠ .grp ∧ sc ≠ .core

/-- Every byte that a core's L1 holds is dirty (R264). -/
def NoClean (t : State) (c : Fin 256) : Prop := ∀ e ∈ (t.core c).l1, ∃ v, e.2 = .dirty v

/-- The word that a uniform load finds at an address (R287, R324). -/
def uniWordAt (s : State) (c : Fin 256) (p : Place) : Word :=
  if p.leaf.ca then homeWord s c p.pa
  else homeByte s (p.pa + 3) ++ homeByte s (p.pa + 2) ++ homeByte s (p.pa + 1) ++ homeByte s p.pa

/-- An address lies in a word. -/
def InWord (w a : Nat) : Prop := w ≤ a ∧ a < w + 4

/-! ## Copies -/

/-- What a copy instruction does once its sizes are legal (R301, R302): an address that is no multiple of 4 traps and is reported, with
the scratchpad address that is paired with it (R200), as the first is where only the size is none; a range outside the allocation
removes every lane; a full copy queue or a buffer that is being published holds the fragment; else a copy of these rows is in flight,
and an observed launch's core has seen it. Of several odd addresses the first of the list is reported, and a size alone stands with the
first of them: the order is the model's choice (log 50). -/
structure CopyDoes (i : Instr) (s : State) (h : Here) (x : Context) (u : Team) (out : Bool) (rows : List (DWord × Nat × Nat))
    (ranges : List (Nat × Nat)) (addrs : List (DWord × Nat)) (size : Nat) (stage : Option (Nat × Nat)) (buffer : Option Nat) : Prop where
  odd : ∀ a, addrs.find? (fun b => b.1.toNat % 4 != 0) = some a → exec i s =
    .next (trapOf s h i ⟨0x03#8, 0#8, h.lanes, a.1, BitVec.ofNat 64 a.2, 0⟩)
  oddSize : ∀ a, addrs.head? = some a → (∀ b ∈ addrs, b.1.toNat % 4 = 0) → size % 4 ≠ 0 → exec i s =
    .next (trapOf s h i ⟨0x03#8, 0#8, h.lanes, a.1, BitVec.ofNat 64 a.2, 0⟩)
  off : (∀ a ∈ addrs, a.1.toNat % 4 = 0) → size % 4 = 0 → (∃ r ∈ ranges, u.scratchSize < r.1 + r.2) →
    ∃ t h', exec i s = .next t ∧ OnlyGroup s t h.r ∧ WentOn t h h' (h.after i) ∧
      { h'.g with frags := h.g.frags, removed := h.g.removed } = h.g ∧ h'.g.removed = h.g.removed ||| h.lanes ∧ h'.f.view = h.f.view
  goes : (∀ a ∈ addrs, a.1.toNat % 4 = 0) → size % 4 = 0 → (∀ r ∈ ranges, r.1 + r.2 ≤ u.scratchSize) → ∀ pl : DWord → Place,
    (∀ r ∈ rows, ∀ p ∈ rowParts r, checkPart s h x out p.1 = .ok (pl p.1)) →
    let full := Config.copiesPerCore ≤ (s.copies.filter (fun c => c.core == h.r.core)).length
    let held := ∃ b pb, buffer = some b ∧ tableFind x.buffers b = some pb ∧ pb.publishing = true
    (full ∨ held → exec i s = .next (s.put (h.wait .suspended))) ∧
    (¬full → ¬held → ∃ s1 t h' c, exec i s = .next t ∧ Accounted s s1 h.r.core ∧ (out = true ∨ observes s h = false → s1 = s) ∧
      (out = false → observes s h = true → s1 = observeCopy s h x rows) ∧
      OnlyGroup { s1 with copies := s.copies ++ [c], fresh := s.fresh + 1 } t h.r ∧ WentOn t h h' (h.after i) ∧
      { h'.g with frags := h.g.frags } = h.g ∧ h'.f.view = h.f.view ∧ c =
        { id := s.fresh, core := h.r.core, group := h.g.uid, team := u.uid, ctx := x.id, launch := h.g.launch, out := out
          pieces := (rows.flatMap rowParts).map (fun p => if out then ⟨p.2.1, (pl p.1).pa, p.2.2⟩ else ⟨(pl p.1).pa, p.2.1, p.2.2⟩)
          batch := if stage.isSome then none else some h.g.batch, stage := stage, buffer := buffer, written := none, captured := none })

/-! ## The matrix engine -/

/-- The engine of a fragment's core. -/
def State.engineOf (s : State) (h : Here) : Engine := (s.core h.r.core).engine

/-- The group owns the engine of its core and no step is queued (R337, R338). -/
def Owns (s : State) (h : Here) : Prop := (s.engineOf h).owner = some h.g.uid ∧ (s.engineOf h).runs = []

/-- The fragment goes on, and of the rest of the package only its core's engine has changed: it is `e`. -/
structure EngineDone (s t : State) (h h' : Here) (i : Instr) (e : Engine) : Prop where
  on : WentOn t h h' (h.after i)
  only : OnlyGroup (s.setEngine h.r.core e) t h.r
  group : { h'.g with frags := h.g.frags } = h.g
  view : h'.f.view = h.f.view

/-! ## Host commands -/

/-- A command that its queue admits now, alone (R413 to R415, R418): `s1` is the state with its journal entry, number `seq`. -/
structure Admitted (s : State) (i : Instr) (h : CmdHdr) (code : Nat) (c : Option Nat) (s1 : State) (seq : Nat) : Prop where
  command : commandOf i = some (h, code)
  fits : cmdFits i = true
  phase : s.phase = .ready
  header : h.queue ≤ 131071 ∧ h.hseq ≠ 0
  owner : queueOwner s h code = some c
  order : h.hseq = acceptedMax s h.queue + 1
  fresh : ∀ e ∈ (s.journal c).entries, e.queue = h.queue → e.hseq ≠ h.hseq
  held : s.heldCmds = []
  entry : (appendEntry s c h.queue code h.hseq (argDigest i)).map (fun r =>
    ({ r.1 with accepted := tablePut r.1.accepted h.queue h.hseq }, r.2)) = some (s1, seq)

/-- An admitted command of a context with no command before it: `x` is the context once its entry is appended. -/
structure AdmittedIn (s : State) (i : Instr) (h : CmdHdr) (code : Nat) (s1 : State) (seq : Nat) (x : Context) : Prop where
  ok : Admitted s i h code (some x.id) s1 seq
  ctx : s1.ctx? x.id = some x
  only : ∀ y ∈ s1.contexts, y.id = x.id → y = x
  idle : x.running = none ∧ x.backlog = []

/-- The command is done with these result bytes, and `s2` is the state that its effect left: its entry ends and its response goes out
(R414, R419). -/
def Finished (i : Instr) (s s2 : State) (c : Option Nat) (h : CmdHdr) (code seq : Nat) (result : List Byte) : Prop :=
  exec i s = .next (respond (endEntry s2 c seq .done 0) h code 0 0 seq result)

/-- The command has failed with a reason; its effect left nothing. -/
def Failed (i : Instr) (s s1 : State) (c : Option Nat) (h : CmdHdr) (code seq reason : Nat) : Prop :=
  exec i s = .next (respond (endEntry s1 c seq .failed reason) h code 2 reason seq [])

/-- Of the package only memory's tables and L1 may differ. -/
structure OnlyBytes (s t : State) : Prop where
  package : { t with
      mem := s.mem, freeAt := s.freeAt, kept := s.kept, registered := s.registered, cores := s.cores, writes := s.writes
      fresh := s.fresh, poison := s.poison } = s
  cores : ∀ d, { t.core d with l1 := (s.core d).l1 } = s.core d


end Sys2Proof.Machine
end

