-- ==== Sys2Proof/Certificates/Slice0/Obligations.lean ====
section
/-! DEFINITION. The statements for the provers: encoding, reset, what each instruction does and leaves as it was, traps, invariants
of every step.
-/

open Sys2Proof Sys2Proof.Machine

/-! ## Encoding, reset and the step -/

/-- Words written out from the encodings of R76 to R88 decode to the instructions they stand for (a check on a few words). -/
def Obligations.DecodedWords : Prop :=
  decode none 0x00206084#32 = .ok (.iadd ⟨0#3, true, 6#6, 2#6, 4#6, none⟩) ∧
  decode none 0x2A0C5187#32 = .ok (.idiv ⟨0#3, 3#4, 5#6, 6#6, 7#6⟩) ∧
  decode none 0x34004046#32 = .ok (.ldg ⟨0#3, 0#4, 4#6, 1#6, 1#4, 2#2, none⟩) ∧
  decode none 0x5418A209#32 = .ok (.pdot ⟨0#2, false, .e4m3, 10#6, 8#6, 9#6⟩) ∧
  decode none 0x60649103#32 = .ok (.xshfl ⟨1#3, true, 1#3, 9#6, 4#6, 3#6⟩) ∧
  decode none 0x782460C4#32 = .ok (.casg ⟨0#3, true, 1#3, 6#6, 3#6, 4#6⟩) ∧
  decode none 0x81106200#32 = .ok (.sadd64 ⟨4#6, 6#6, 8#6⟩) ∧
  decode none 0x91A00003#32 = .ok (.bmz ⟨true, 2#3, 3#20⟩) ∧
  decode none 0xA1000003#32 = .ok (.kill 0#6 3#16) ∧
  decode none 0xA2008004#32 = .ok (.win 0#2 8#6 4#12) ∧
  decode none 0xA4280007#32 = .ok (.srd 10#6 7#12) ∧
  decode none 0xB6508283#32 = .ok (.frz 20#6 8#6 10#6 true true) ∧
  decode none 0xC0011458#32 = .ok (.cpy ⟨false, 2#5, 10#6, 11#6, 0#3⟩) ∧
  decode none 0xD40A0040#32 = .ok (.mloop ⟨0#3, 20#6, 0#4, 0x40#8, none⟩) ∧
  decode none 0xE0008000#32 = .ok (.tsub 8#6) ∧
  decode (some 0#24) 0xFF000000#32 = .error 0x02#8 ∧
  decode none 0x0E000000#32 = .error 0x00#8

/-- R100, R75: every well-formed instruction is read back from its own words, prefix and all, with every operand. -/
def Obligations.EncodeDecode : Prop :=
  ∀ (i : Instr) (p : Option Payload) (w : Word), i.wf = true → encode i = some (p, w) → decode p w = .ok i

/-- R100: what the decoder accepts is well-formed, and no two words, with or without their prefixes, stand for one instruction: no bit
of an accepted word is ignored, so that every other word is refused. -/
def Obligations.DecodeEncode : Prop :=
  ∀ (p : Option Payload) (w : Word) (i : Instr), decode p w = .ok i → i.wf = true ∧ encode i = some (p, w)

/-- The state right after reset: booting, each core empty, nothing mapped and nothing in flight, memory 0, and every table of bytes in
its form; its first step brings the package up. The values the spec gives no reset for are the model's choice (log 4), and so is that
one step is the whole bring-up and what a step does with no agenda (logs 1 and 46). -/
def Obligations.ResetState : Prop :=
  State.reset.phase = .booting ∧ State.reset.memOk ∧ (∀ a, homeByte State.reset a = 0#8) ∧ State.reset.lease = 0x00004E20000007D0#64 ∧
  (∀ c : Fin 256, State.reset.core c = Core.reset ∧ ∀ i : Fin 64, State.reset.group? c i = none) ∧
  (∀ p : Fin 8, State.reset.ports[p] = 0) ∧ (∀ b : Fin 9, State.reset.ecc[b] = 0) ∧
  Core.reset.rhit = 0#64 ∧ Core.reset.rmiss = 0#64 ∧ Core.reset.rcoll = 0#64 ∧ Core.reset.reuse = [] ∧ Core.reset.l1 = [] ∧
  Core.reset.engine = Engine.reset ∧ Engine.reset.owner = none ∧ Engine.reset.runs = [] ∧
  State.reset.contexts = [] ∧ State.reset.modules = [] ∧ State.reset.launches = [] ∧ State.reset.teams = [] ∧ State.reset.copies = [] ∧
  State.reset.grants = [] ∧ State.reset.writes = [] ∧ State.reset.redgs = [] ∧ State.reset.hints = [] ∧ State.reset.fwBlocks = [] ∧
  (∀ n : Fin 256, State.reset.slices[n] = ⟨true, 0⟩) ∧ (∀ t : Fin 5, State.reset.sliceCopies[t] = []) ∧ State.reset.agenda = [] ∧
  ∃ t, step State.reset = .next t ∧ t.phase = .ready

/-- R75, R92, R94, R100: a turn that issues a fragment which its pipe may take runs, in the state in which its results that are due are
settled, the instruction that the word at its PC stands for, or the one behind an `XP`; a word that stands for none, of the two as well,
takes the `ILLEGAL` trap with the decoder's sub-cause; where the pipe does not take the fragment, nothing happens. An instruction that
has issued and waited goes on without its word (`issued`, log 49). The word of a team's group is that of the bytes at the place its PC
maps to, as their homes hold them (the model's reading: log 23). A message's bytes and an event of the agenda are carried out as they
come (how turns come about is the model's: log 1). -/
def Obligations.StepRunsDecoded : Prop :=
  (∀ (s : State) (dt : Nat) (r : FragRef) (skipped : List FragRef) (rest : List Turn) (h0 : Here),
    let s0 := advanceTime { s with agenda := rest } dt
    let runs (s1 : State) (h1 : Here) : Prop :=
      let q := settleDue s1 h1
      let s2 := { q.1.put q.2 with cur := some r }
      let h := { q.2 with g := q.2.group }
      let goesOn (i : Instr) (t : State) : State := pumpHost (afterIssue t r h.g.uid (some i) h.f.view.en)
      let illegal (w : Words) (sub : Byte) : State :=
        pumpHost (afterIssue (takeTrap s2 q.2 w (.plain cIllegal sub h.lanes)) r h.g.uid none h.f.view.en)
      s2.here? = some h ∧ (∀ i t, h.f.issued = some i → exec i s2 = .next t → step s = .next (goesOn i t)) ∧
      (h.f.issued = none →
        (∀ w i t, fetchWord s2 h h.f.pc = .word w → decode none w = .ok i → exec i s2 = .next t → step s = .next (goesOn i t)) ∧
        (∀ w w1 i t, fetchWord s2 h h.f.pc = .word w → w.extractLsb' 24 8 = 0xFF#8 → fetchWord s2 h (h.f.pc + 4#64) = .word w1 →
          decode (some (w.extractLsb' 0 24)) w1 = .ok i → exec i s2 = .next t → step s = .next (goesOn i t)) ∧
        (∀ w sub, fetchWord s2 h h.f.pc = .word w → w.extractLsb' 24 8 ≠ 0xFF#8 → decode none w = .error sub →
          step s = .next (illegal ⟨w, none⟩ sub)) ∧
        ∀ w w1 sub, fetchWord s2 h h.f.pc = .word w → w.extractLsb' 24 8 = 0xFF#8 → fetchWord s2 h (h.f.pc + 4#64) = .word w1 →
          decode (some (w.extractLsb' 0 24)) w1 = .error sub → step s = .next (illegal ⟨w1, some w⟩ sub)) ∧
      ∀ x p, h.g.team.isSome = true → s2.ctx? h.g.ctx = some x → checkAccess s2 x false .fetch .none 4 4 h.f.pc = .ok p →
        s2.poisoned p.pa 4 = false → fetchWord s2 h h.f.pc =
          .word (homeByte s2 (p.pa + 3) ++ homeByte s2 (p.pa + 2) ++ homeByte s2 (p.pa + 1) ++ homeByte s2 p.pa)
    s.agenda = ⟨dt, .issue r skipped⟩ :: rest → s0.at? r = some h0 →
    (h0.f.issued = none → fetchHeld s0 h0 = false →
      (taking s0 h0 skipped = none → step s = .next (pumpHost s0)) ∧
      ∀ t h1, taking s0 h0 skipped = some t → (noteIssue s0 h0 skipped t).at? r = some h1 → runs (noteIssue s0 h0 skipped t) h1) ∧
    (h0.f.issued.isSome = true → (mayIssue s0 h0 = false → step s = .next (pumpHost s0)) ∧ (mayIssue s0 h0 = true → runs s0 h0))) ∧
  ∀ (s : State) (dt : Nat) (rest : List Turn),
    let s0 := advanceTime { s with agenda := rest } dt
    (∀ i t, s.agenda = ⟨dt, .event i⟩ :: rest → encode i = none → exec i s0 = .next t → step s = .next (pumpHost t)) ∧
    ∀ m, s.agenda = ⟨dt, .message m⟩ :: rest → step s = .next (pumpHost (receiveMessage s0 m))

/-- R4 and the form of log 1's tables: every step answers a next state, from any state whose tables of bytes (memory, open bytes,
registrations, L1, die copies, scratchpads) are each in their one canonical form, and keeps that form. -/
def Obligations.StepKeepsForm : Prop := ∀ s : State, s.memOk → ∃ t, step s = .next t ∧ t.memOk

/-! ## Integer lane instructions -/

/-- R158, R156: sums and differences with their four codes, `CC[l].C` a carry or borrow in; absolute value and negation, where −2^31 stays
and sets V; minima, maxima, logic and moves, which leave C and V. -/
def Obligations.IntegerArithmetic : Prop :=
  (∀ o : LrB,
     DoesLrB (.iadd o) o codesAll (fun _ _ a b =>
       wordOut (a + b) (decide (2 ^ 32 ≤ a.toNat + b.toNat)) (overflows (a.toInt + b.toInt))) ∧
     DoesLrB (.isub o) o codesAll (fun _ _ a b =>
       wordOut (a - b) (decide (a.toNat < b.toNat)) (overflows (a.toInt - b.toInt))) ∧
     DoesLrB (.iaddc o) o codesAll (fun h l a b =>
       let i : Nat := (h.g.cc.c.getLsbD l.val).toNat
       wordOut (a + b + BitVec.ofNat 32 i) (decide (2 ^ 32 ≤ a.toNat + b.toNat + i)) (overflows (a.toInt + b.toInt + i))) ∧
     DoesLrB (.isubb o) o codesAll (fun h l a b =>
       let i : Nat := (h.g.cc.c.getLsbD l.val).toNat
       wordOut (a - b - BitVec.ofNat 32 i) (decide (a.toNat < b.toNat + i)) (overflows (a.toInt - b.toInt - i)))) ∧
  (∀ o : LrU,
     DoesLrU (.iabs o) o codesZNV (fun a => wordOut (if a.toInt < 0 then 0#32 - a else a) false (decide (a.toInt = -2 ^ 31))) ∧
     DoesLrU (.ineg o) o codesZNV (fun a => wordOut (0#32 - a) false (decide (a.toInt = -2 ^ 31)))) ∧
  ((∀ o : LrB,
     DoesLrB (.imin o) o codesZN (fun _ _ a b => wordOut (smaller a b) false false) ∧
     DoesLrB (.imax o) o codesZN (fun _ _ a b => wordOut (larger a b) false false) ∧
     DoesLrB (.iminu o) o codesZN (fun _ _ a b => wordOut (smallerU a b) false false) ∧
     DoesLrB (.imaxu o) o codesZN (fun _ _ a b => wordOut (largerU a b) false false) ∧
     DoesLrB (.iand o) o codesZN (fun _ _ a b => wordOut (a &&& b) false false) ∧
     DoesLrB (.ior o) o codesZN (fun _ _ a b => wordOut (a ||| b) false false) ∧
     DoesLrB (.ixor o) o codesZN (fun _ _ a b => wordOut (a ^^^ b) false false) ∧
     DoesLrB (.iandn o) o codesZN (fun _ _ a b => wordOut (a &&& ~~~b) false false)) ∧
   ∀ o : LrU,
     DoesLrU (.inot o) o codesZN (fun a => wordOut (~~~a) false false) ∧
     DoesLrU (.imov o) o codesZN (fun a => wordOut a false false))

/-- R159: shifts by bits 7:0 of b, rotation, counts, bit and byte order; R163: bit fields, position and width from b; the width is cut at
bit 31, a field of width 0 reads 0 and inserts nothing. -/
def Obligations.IntegerShiftsAndFields : Prop :=
  ((∀ o : LrB,
     DoesLrB (.ishl o) o codesZN (fun _ _ a b => wordOut (a <<< amount b) false false) ∧
     DoesLrB (.ishr o) o codesZN (fun _ _ a b => wordOut (a >>> amount b) false false) ∧
     DoesLrB (.isra o) o codesZN (fun _ _ a b => wordOut (a.sshiftRight (amount b)) false false) ∧
     DoesLrB (.irot o) o codesZN (fun _ _ a b => wordOut (a.rotateLeft (amount b)) false false) ∧
     DoesLrB (.ibyte o) o codesZN (fun _ _ a b =>
       let byte (i : Nat) : Word := (a >>> (8 * (b.toNat / 4 ^ i % 4))) &&& 0xFF#32
       wordOut (byte 0 ||| (byte 1 <<< 8) ||| (byte 2 <<< 16) ||| (byte 3 <<< 24)) false false)) ∧
   ∀ o : LrU,
     DoesLrU (.iclz o) o codesZN (fun a => wordOut (leadingZeros a) false false) ∧
     DoesLrU (.ipopc o) o codesZN (fun a => wordOut (oneBits a) false false) ∧
     DoesLrU (.ibrev o) o codesZN (fun a => wordOut a.reverse false false)) ∧
  (∀ o : LrB,
     DoesLrB (.ibfe o) o codesZN (fun _ _ a b => wordOut ((a.extractLsb' (bitPos b) (bitWidth b)).signExtend 32) false false) ∧
     DoesLrB (.ibfeu o) o codesZN (fun _ _ a b => wordOut ((a.extractLsb' (bitPos b) (bitWidth b)).setWidth 32) false false) ∧
     DoesLrD (.ibfi o) o codesZN (fun _ a b d => wordOut (maskOf (fun i =>
       if bitPos b ≤ i.val ∧ i.val < bitPos b + bitWidth b then a.getLsbD (i.val - bitPos b) else d.getLsbD i.val)) false false))

/-- R160, R156: products; V is set where the exact signed result does not fit; R165: division without lookahead; a divisor of 0 in any
active lane traps 0x38 with those lanes and writes nothing. -/
def Obligations.IntegerProductsAndDivision : Prop :=
  (∀ o : LrB,
     DoesLrB (.imul o) o codesZNV (fun _ _ a b => wordOut (a * b) false (overflows (a.toInt * b.toInt))) ∧
     DoesLrB (.imulh o) o codesZN (fun _ _ a b => wordOut (highS a b) false false) ∧
     DoesLrB (.imulhu o) o codesZN (fun _ _ a b => wordOut (highU a b) false false) ∧
     DoesLrD (.imad o) o codesZNV (fun _ a b d => wordOut (a * b + d) false (overflows (a.toInt * b.toInt + d.toInt)))) ∧
  (∀ o : LlB,
     (∀ p : Instr × (Word → Word → Word),
       p ∈ [(.idiv o, fun a b => a.sdiv b), (.idivu o, fun a b => a / b), (.irem o, fun a b => a.srem b), (.iremu o, fun a b => a % b)] →
       DoesLl p.1 o.k o.d [o.a, o.b]
         (fun h => o.la = 0#4 ∧ ∀ l : Fin 32, (h.exec o.k).getLsbD l.val = true → (h.v o.b)[l] ≠ 0#32)
         (fun h l => .plain (p.2 (h.v o.a)[l] (h.v o.b)[l])) ∧
       ∀ s h, LaneReady .lane s h p.1 o.k (.regs o.d 1) none none [.reg o.a, .reg o.b] true →
         (h.exec o.k &&& maskOf (fun l => (h.v o.b)[l] == 0#32)) ≠ 0#32 →
         exec p.1 s = .next (trapOf s h p.1 (.plain cIntDivzero 0#8 (h.exec o.k &&& maskOf (fun l => (h.v o.b)[l] == 0#32))))))

/-- R161, R162, R156: compares write codes only; a select takes a where the condition holds for the lane's codes; R164: LI instructions
with the immediate in place of b. -/
def Obligations.IntegerComparesAndImmediates : Prop :=
  ((∀ o : LrC,
     DoesLrC (.icmp o) o (fun a b => wordOut (a - b) (decide (a.toNat < b.toNat)) (overflows (a.toInt - b.toInt))) ∧
     DoesLrC (.icmpu o) o (fun a b => ⟨a - b, decide (a.toNat < b.toNat), a == b, decide (a.toNat < b.toNat), false, 0#5, 0#4⟩)) ∧
   ∀ o : LrS,
     DoesLrB (.isel o) ⟨o.k, false, o.d, o.a, o.b, o.ix⟩ codesNone (fun h l a b => .plain (if laneHolds h o.cond l then a else b))) ∧
  ((∀ o : LiOp,
     DoesLi (.iaddi o) o.k o.c o.d [o.a] codesAll (fun h l =>
       let a := (h.v o.a)[l]
       let i := immLi o.imm o.hi
       wordOut (a + i) (decide (2 ^ 32 ≤ a.toNat + i.toNat)) (overflows (a.toInt + i.toInt))) ∧
     DoesLi (.iandi o) o.k o.c o.d [o.a] codesZN (fun h l => wordOut ((h.v o.a)[l] &&& immLi o.imm o.hi) false false) ∧
     DoesLi (.iori o) o.k o.c o.d [o.a] codesZN (fun h l => wordOut ((h.v o.a)[l] ||| immLi o.imm o.hi) false false) ∧
     DoesLi (.ixori o) o.k o.c o.d [o.a] codesZN (fun h l => wordOut ((h.v o.a)[l] ^^^ immLi o.imm o.hi) false false)) ∧
   (∀ o : LiSh,
     DoesLi (.ishli o) o.k o.c o.d [o.a] codesZN (fun h l => wordOut ((h.v o.a)[l] <<< o.sh.toNat) false false) ∧
     DoesLi (.ishri o) o.k o.c o.d [o.a] codesZN (fun h l => wordOut ((h.v o.a)[l] >>> o.sh.toNat) false false) ∧
     DoesLi (.israi o) o.k o.c o.d [o.a] codesZN (fun h l => wordOut ((h.v o.a)[l].sshiftRight o.sh.toNat) false false)) ∧
   ∀ o : LiMov, DoesLi (.imovi o) o.k o.c o.d [] codesZN (fun _ _ => wordOut (immLi o.imm o.hi) false false))


/-! ## Floating-point lane instructions -/

/-- R166, R167: one rounding by `FPC`.RM, NaNs in the order a, b, d; `FMS` flips d and `FNMA` flips a before any NaN is chosen. R168 to R170:
bit moves, the compare of R169's table, the class mask. R139 to R143, R147, R157: what a sum, a product and their fusion deliver in
every format, minimum and maximum, the order of values, and the codes and class of a delivered f32. That an infinite operand of a
saturating sum or product keeps its infinity is the model's choice (log 43). -/
def Obligations.FloatArithmetic : Prop :=
  (∀ o : LrB,
     DoesLrB (.fadd o) o codesAll (fun h _ a b => floatOut (addRes fmtF32 h.f.view.rm false (f32 a) (f32 b)) [f32 a, f32 b]) ∧
     DoesLrB (.fsub o) o codesAll (fun h _ a b => floatOut (subRes fmtF32 h.f.view.rm false (f32 a) (f32 b)) [f32 a, f32 b]) ∧
     DoesLrB (.fmul o) o codesAll (fun h _ a b => floatOut (mulRes fmtF32 h.f.view.rm false (f32 a) (f32 b)) [f32 a, f32 b]) ∧
     DoesLrD (.fma o) o codesAll (fun h a b d =>
       floatOut (fmaRes fmtF32 h.f.view.rm false [f32 a, f32 b, f32 d] (f32 a) (f32 b) (f32 d)) [f32 a, f32 b, f32 d]) ∧
     DoesLrD (.fms o) o codesAll (fun h a b d =>
       floatOut (fmaRes fmtF32 h.f.view.rm false [f32 a, f32 b, (f32 d).flip] (f32 a) (f32 b) (f32 d).flip) [f32 a, f32 b, (f32 d).flip]) ∧
     DoesLrD (.fnma o) o codesAll (fun h a b d =>
       floatOut (fmaRes fmtF32 h.f.view.rm false [(f32 a).flip, f32 b, f32 d] (f32 a).flip (f32 b) (f32 d)) [(f32 a).flip, f32 b, f32 d]) ∧
     DoesLrB (.fmin o) o codesAll (fun _ _ a b => floatOut (minMaxRes fmtF32 false a.toNat b.toNat) [f32 a, f32 b]) ∧
     DoesLrB (.fmax o) o codesAll (fun _ _ a b => floatOut (minMaxRes fmtF32 true a.toNat b.toNat) [f32 a, f32 b])) ∧
  ((∀ o : LrU,
     DoesLrU (.fabs o) o codesAll (fun a => f32Codes (0#1 ++ a.extractLsb' 0 31)) ∧
     DoesLrU (.fneg o) o codesAll (fun a => f32Codes (~~~(a.extractLsb' 31 1) ++ a.extractLsb' 0 31)) ∧
     DoesLrU (.fclass o) o codesAll (fun a => { f32Codes a with val := 1#32 <<< (match f32 a with
       | .nan _ _ => if a.getLsbD 22 then 9 else 8
       | .inf n => if n then 0 else 7
       | .fin n m _ =>
         if m = 0 then (if n then 3 else 4)
         else if a.extractLsb' 23 8 = 0#8 then (if n then 2 else 5)
         else if n then 1 else 6) })) ∧
   (∀ o : LrB,
     DoesLrB (.fsel o) o codesAll (fun h l a b => f32Codes (if h.g.cc.n.getLsbD l.val then a else b)) ∧
     DoesLrB (.fcpys o) o codesAll (fun _ _ a b => f32Codes (b.extractLsb' 31 1 ++ a.extractLsb' 0 31))) ∧
   ∀ o : LrC, DoesLrC (.fcmp o) o (fun a b =>
     let fl := if (f32 a).signalling || (f32 b).signalling then flNV else 0#5
     if (f32 a).isNan || (f32 b).isNan then ⟨0#32, false, false, false, true, fl, 0#4⟩
     else match (f32 a).cmp (f32 b) with
       | .lt => ⟨0#32, false, false, true, false, fl, 0#4⟩
       | .eq => ⟨0#32, false, true, false, false, fl, 0#4⟩
       | .gt => ⟨0#32, false, false, false, false, fl, 0#4⟩)) ∧
  (∀ (f : FloatFmt) (rm : BitVec 2) (sat : Bool) (args : List FVal) (a b c : FVal), f ∈ floatFormats →
     NanRule f (zeroTimesInf a b) args (fmaRes f rm sat args a b c) ∧
     NanRule f false [a, b] (addRes f rm sat a b) ∧ NanRule f false [a, b] (subRes f rm sat a b) ∧
     NanRule f (zeroTimesInf a b) [a, b] (mulRes f rm sat a b) ∧
     ((∀ x ∈ a :: b :: c :: args, x.isNan = false) →
       (zeroTimesInf a b = true → f.kind = .ieee → InvalidOut f (fmaRes f rm sat args a b c)) ∧
       (zeroTimesInf a b = false → SumOf f rm sat (exactMul a b) c (fmaRes f rm sat args a b c)) ∧
       SumOf f rm sat a b (addRes f rm sat a b) ∧ SumOf f rm sat a b.flip (subRes f rm sat a b) ∧
       ProductOf f rm sat a b (mulRes f rm sat a b))) ∧
  (∀ (f : FloatFmt) (hi : Bool) (x y : Nat), f ∈ floatFormats → x < 2 ^ (f.magBits + 1) → y < 2 ^ (f.magBits + 1) →
     let a := FVal.decode f x
     let b := FVal.decode f y
     let fl := if a.signalling || b.signalling then flNV else 0#5
     let first := if hi then decide (orderKey f y ≤ orderKey f x) else decide (orderKey f x ≤ orderKey f y)
     (∀ n fr, a = .nan n fr → b.isNan = true → NanOut f n fr fl (minMaxRes f hi x y)) ∧
     (a.isNan = true → b.isNan = false → minMaxRes f hi x y = ⟨y, fl, false, false⟩) ∧
     (a.isNan = false → b.isNan = true → minMaxRes f hi x y = ⟨x, fl, false, false⟩) ∧
     (a.isNan = false → b.isNan = false → minMaxRes f hi x y = ⟨if first then x else y, 0#5, false, false⟩)) ∧
  (∀ x y : Word, (f32 x).isNan = false → (f32 y).isNan = false → (f32 x).cmp (f32 y) = compare (valueKey x) (valueKey y)) ∧
  ∀ (r : FRes) (ins : List FVal), r.bits < 2 ^ 32 →
    (floatOut r ins).val.toNat = r.bits ∧ (floatOut r ins).flags = r.flags ∧ F32Codes (floatOut r ins).val (floatOut r ins) ∧
    ClassIs r.nan r.inf ins (floatOut r ins).cls ∧ (∀ w, F32Codes w (f32Codes w) ∧ (f32Codes w).val = w)

/-- R171: `FMAS` scales a and b by bytes of the scale register, rounds once, and takes NaNs in the order a, sa, b, sb, d. R172, R176, R177:
rounding to an integral value and the eight conversions, by the selector's mode. R133, R151: scales multiply exactly. R144 to R146:
what each conversion delivers, with its flags, and the codes of a 16-bit float and of an integer. -/
def Obligations.ScalingAndConversions : Prop :=
  (∀ o : FmasOp, Does (.fmas o) o.k (.regs o.d 1) none none [.reg o.a, .reg o.b, .reg o.d, .reg o.sr] false (fun _ => True)
     (codesIf o.c codesAll) (fun h l =>
       let a := f32 (h.v o.a)[l]
       let b := f32 (h.v o.b)[l]
       let d := f32 (h.v o.d)[l]
       let sa := e8m0 (((h.v o.sr)[l] >>> (8 * o.ba.toNat)).setWidth 8)
       let sb := e8m0 (((h.v o.sr)[l] >>> (8 * o.bb.toNat)).setWidth 8)
       floatOut (fmaRes fmtF32 h.f.view.rm false [a, sa, b, sb, d] (a.scaleBy sa) (b.scaleBy sb) d) [a, sa, b, sb, d])) ∧
  (∀ o : CvtOp,
     DoesCvt (.frnd o) o (fun rm a => floatOut (rndRes rm (f32 a)) [f32 a]) ∧
     DoesCvt (.cvtfi o) o (fun rm a => intOut true (toIntRes (-2 ^ 31) (2 ^ 31 - 1) rm o.s (f32 a))) ∧
     DoesCvt (.cvtfn o) o (fun rm a => intOut false (toIntRes 0 (2 ^ 32 - 1) rm o.s (f32 a))) ∧
     DoesCvt (.cvtif o) o (fun rm a => floatOut (roundInt fmtF32 rm false a.toInt 0) []) ∧
     DoesCvt (.cvtnf o) o (fun rm a => floatOut (roundInt fmtF32 rm false a.toNat 0) []) ∧
     DoesCvt (.cvtfh o) o (fun rm a => narrowOut fmtF16 (cvtRes fmtF16 rm o.s (f32 a)) [f32 a]) ∧
     DoesCvt (.cvtfb o) o (fun rm a => narrowOut fmtBf16 (cvtRes fmtBf16 rm o.s (f32 a)) [f32 a]) ∧
     DoesCvt (.cvthf o) o (fun rm a =>
       let x := FVal.decode fmtF16 (a.extractLsb' 0 16).toNat
       floatOut (cvtRes fmtF32 rm false x) [x]) ∧
     DoesCvt (.cvtbf o) o (fun rm a =>
       let x := FVal.decode fmtBf16 (a.extractLsb' 0 16).toNat
       floatOut (cvtRes fmtF32 rm false x) [x])) ∧
  (∀ (b : Byte) (n : Bool) (m : Nat) (e k : Int), (b ≠ 0xFF#8 → e8m0 b = .fin false 1 (b.toNat - 127)) ∧
     e8m0 0xFF#8 = .nan false quietBit ∧ (FVal.fin n m e).scaleBy (.fin false 1 k) = .fin n m (e + k) ∧
     (FVal.inf n).scaleBy (.fin false 1 k) = .inf n) ∧
  (∀ (f : FloatFmt) (rm : BitVec 2) (sat n : Bool), f ∈ floatFormats →
     (∀ fr, fr < 2 ^ 23 → if f.kind = .finite then cvtRes f rm sat (.nan n fr) = ⟨0, flNV, false, false⟩
       else NanOut f n fr (if fr / quietBit % 2 = 0 then flNV else 0#5) (cvtRes f rm sat (.nan n fr))) ∧
     (sat = true → cvtRes f rm sat (.inf n) = ⟨(zeroOf f n).bits + f.maxEnc, 0#5, false, false⟩) ∧
     (sat = false → (f.kind = .ieee → cvtRes f rm sat (.inf n) = infinityOf f n) ∧
       (f.kind = .nanOnly → NanOut f n quietBit flNV (cvtRes f rm sat (.inf n))) ∧
       (f.kind = .finite → cvtRes f rm sat (.inf n) = ⟨(zeroOf f n).bits + f.maxEnc, flNV, false, false⟩)) ∧
     (∀ m e (k : Int), k ≤ e → k ≤ f.lowest → Delivers f rm sat n k (cutOf (m * 2 ^ (e - k).toNat) 1) (cvtRes f rm sat (.fin n m e))) ∧
     ∀ (z k : Int), k ≤ 0 → k ≤ f.lowest → Delivers f rm sat (decide (z < 0)) k (cutOf (z.natAbs * 2 ^ (-k).toNat) 1) (roundInt f rm sat z 0)) ∧
  (∀ (lo hi : Int) (rm : BitVec 2) (sat n : Bool) (fr : Nat), toIntRes lo hi rm sat (.nan n fr) = ⟨0, flNV, true, true⟩ ∧
     toIntRes lo hi rm sat (.inf n) = ⟨if n then lo else hi, if sat then 0#5 else flNV, true, true⟩) ∧
  (∀ (lo hi : Int) (rm : BitVec 2) (sat n : Bool) (m : Nat) (e : Int), lo ≤ hi →
     let x := m * 2 ^ e.toNat
     let d := 2 ^ (-e).toNat
     ∃ z, RoundedInt rm n x d z ∧ toIntRes lo hi rm sat (.fin n m e) =
       if signedNat n z < lo then ⟨lo, if sat then flNX else flNV, true, true⟩
       else if hi < signedNat n z then ⟨hi, if sat then flNX else flNV, true, true⟩
       else ⟨signedNat n z, if z * d = x then 0#5 else flNX, false, decide (z * d ≠ x)⟩) ∧
  (∀ (rm : BitVec 2) (n : Bool) (fr : Nat), (fr < 2 ^ 23 → NanOut fmtF32 n fr (if fr / quietBit % 2 = 0 then flNV else 0#5) (rndRes rm (.nan n fr))) ∧
     rndRes rm (.inf n) = infinityOf fmtF32 n) ∧
  (∀ (rm : BitVec 2) (w : Word) (n : Bool) (m : Nat) (e : Int), f32 w = .fin n m e →
     let x := m * 2 ^ e.toNat
     let d := 2 ^ (-e).toNat
     let r := rndRes rm (f32 w)
     ∃ z, RoundedInt rm n x d z ∧ r.bits < 2 ^ 32 ∧ (FVal.decode fmtF32 r.bits).neg? = n ∧
       (FVal.decode fmtF32 r.bits).cmp (.fin n z 0) = .eq ∧ r.flags = (if z * d = x then 0#5 else flNX) ∧ r.nan = false ∧ r.inf = false) ∧
  (∀ (signed : Bool) (r : IntRes), let w := BitVec.ofInt 32 r.val
     intOut signed r = ⟨w, r.differs, decide (w = 0#32), signed && w.msb, r.clamped, r.flags, 0#4⟩) ∧
  ∀ (f : FloatFmt) (r : FRes) (ins : List FVal), f ∈ [fmtF16, fmtBf16] → r.bits < 2 ^ 16 →
    let m := r.bits % 2 ^ 15
    let o := narrowOut f r ins
    o.val.toNat = r.bits ∧ o.flags = r.flags ∧ ClassIs r.nan r.inf ins o.cls ∧ o.z = decide (m = 0) ∧ o.c = decide (m = f.maxEnc + 1) ∧
      o.v = decide (f.maxEnc + 1 < m) ∧ o.n = (decide (2 ^ 15 ≤ r.bits) && decide (m ≤ f.maxEnc + 1))

/-- R173, R174: `FDIV` and the special functions write no code; while an enable is 1 they issue as with LA 0 (R97). R173 to R175: division,
square root, reciprocal and reciprocal root are correctly rounded, with R175's special values; of the other six, the values are the
model's own fixed-point work (log 8, UNVERIFIED), and what R175 lists is stated. -/
def Obligations.DivisionAndSpecialFunctions : Prop :=
  (∀ o : LlB, DoesLl (.fdiv o) o.k o.d [o.a, o.b] (noLookahead o.la) (fun h l =>
    floatOut (divRes fmtF32 h.f.view.rm (f32 (h.v o.a)[l]) (f32 (h.v o.b)[l])) [f32 (h.v o.a)[l], f32 (h.v o.b)[l]])) ∧
  (∀ o : LlU, ∀ p : Instr × (BitVec 2 → FVal → FRes),
    p ∈ [(.fsqrt o, sqrtRes), (.frcp o, rcpRes), (.frsq o, rsqRes), (.fexp2 o, fun _ => exp2Res), (.flog2 o, fun _ => log2Res),
      (.fsin o, fun _ => sinRes), (.fcos o, fun _ => cosRes), (.ftanh o, fun _ => tanhRes), (.fsigm o, fun _ => sigmRes)] →
    DoesLl p.1 o.k o.d [o.a] (noLookahead o.la) (fun h l => floatOut (p.2 h.f.view.rm (f32 (h.v o.a)[l])) [f32 (h.v o.a)[l]]) ∧
    ∀ rm a, NanRule fmtF32 false [a] (p.2 rm a)) ∧
  (∀ (rm : BitVec 2) (a b : FVal), NanRule fmtF32 false [a, b] (divRes fmtF32 rm a b)) ∧
  (∀ (rm : BitVec 2) (na nb : Bool) (ma mb : Nat) (ea eb : Int),
    let q := divRes fmtF32 rm
    InvalidOut fmtF32 (q (.inf na) (.inf nb)) ∧ q (.inf na) (.fin nb mb eb) = infinityOf fmtF32 (na != nb) ∧
    q (.fin na ma ea) (.inf nb) = zeroOf fmtF32 (na != nb) ∧ InvalidOut fmtF32 (q (.fin na 0 ea) (.fin nb 0 eb)) ∧
    (ma ≠ 0 → q (.fin na ma ea) (.fin nb 0 eb) = { infinityOf fmtF32 (na != nb) with flags := flDZ }) ∧
    (mb ≠ 0 → ∀ k : Int, k ≤ ea - eb → k ≤ fmtF32.lowest →
      Delivers fmtF32 rm false (na != nb) k (cutOf (ma * 2 ^ (ea - eb - k).toNat) mb) (q (.fin na ma ea) (.fin nb mb eb)))) ∧
  (∀ (rm : BitVec 2) (n : Bool) (m : Nat) (e : Int),
    sqrtRes rm (.inf false) = infinityOf fmtF32 false ∧ InvalidOut fmtF32 (sqrtRes rm (.inf true)) ∧
    sqrtRes rm (.fin n 0 e) = zeroOf fmtF32 n ∧ (m ≠ 0 → InvalidOut fmtF32 (sqrtRes rm (.fin true m e))) ∧
    (m ≠ 0 → ∀ k : Int, 2 * k ≤ e → k ≤ fmtF32.lowest →
      Delivers fmtF32 rm false false k (fun x => compare (4 * m * 2 ^ (e - 2 * k).toNat) (x * x)) (sqrtRes rm (.fin false m e))) ∧
    (∀ a, rcpRes rm a = divRes fmtF32 rm (.fin false 1 0) a) ∧
    rsqRes rm (.inf false) = zeroOf fmtF32 false ∧ InvalidOut fmtF32 (rsqRes rm (.inf true)) ∧
    rsqRes rm (.fin n 0 e) = { infinityOf fmtF32 n with flags := flDZ } ∧ (m ≠ 0 → InvalidOut fmtF32 (rsqRes rm (.fin true m e))) ∧
    (m ≠ 0 → m < 2 ^ 64 → ∀ k : Int, e + 2 * k ≤ 0 → k ≤ fmtF32.lowest →
      Delivers fmtF32 rm false false k (fun x => compare (4 * 2 ^ (-(e + 2 * k)).toNat) (x * x * m)) (rsqRes rm (.fin false m e)))) ∧
  (∀ (n : Bool) (m j : Nat) (e : Int),
    exp2Res (.inf true) = zeroOf fmtF32 false ∧ exp2Res (.inf false) = infinityOf fmtF32 false ∧
    (m * 2 ^ e.toNat = j * 2 ^ (-e).toNat →
      (j ≤ 127 → exp2Res (.fin false m e) = ⟨(j + 127) * 2 ^ 23, 0#5, false, false⟩) ∧
      (j ≤ 126 → exp2Res (.fin true m e) = ⟨(127 - j) * 2 ^ 23, 0#5, false, false⟩) ∧
      (127 ≤ j → j ≤ 149 → exp2Res (.fin true m e) = ⟨2 ^ (149 - j), 0#5, false, false⟩) ∧
      (149 < j → exp2Res (.fin true m e) = ⟨0, flUF ||| flNX, false, false⟩)) ∧
    (128 * 2 ^ (-e).toNat ≤ m * 2 ^ e.toNat → exp2Res (.fin false m e) = { infinityOf fmtF32 false with flags := flOF ||| flNX }) ∧
    log2Res (.inf false) = infinityOf fmtF32 false ∧ InvalidOut fmtF32 (log2Res (.inf true)) ∧
    log2Res (.fin n 0 e) = { infinityOf fmtF32 true with flags := flDZ } ∧ (m ≠ 0 → InvalidOut fmtF32 (log2Res (.fin true m e))) ∧
    ((j + e).natAbs ≤ 2 ^ 24 → (log2Res (.fin false (2 ^ j) e)).flags = 0#5 ∧ (log2Res (.fin false (2 ^ j) e)).bits < 2 ^ 32 ∧
      (FVal.decode fmtF32 (log2Res (.fin false (2 ^ j) e)).bits).cmp (.fin (decide (j + e < 0)) (j + e).natAbs 0) = .eq)) ∧
  ∀ (n : Bool) (m : Nat) (e : Int),
    let one := 0x3F800000
    let sign := if n then 2 ^ 31 else 0
    sinRes (.fin n 0 e) = zeroOf fmtF32 n ∧ InvalidOut fmtF32 (sinRes (.inf n)) ∧
    cosRes (.fin n 0 e) = ⟨one, 0#5, false, false⟩ ∧ InvalidOut fmtF32 (cosRes (.inf n)) ∧
    tanhRes (.fin n 0 e) = zeroOf fmtF32 n ∧ tanhRes (.inf n) = ⟨sign + one, 0#5, false, false⟩ ∧
    (16 * 2 ^ (-e).toNat ≤ m * 2 ^ e.toNat → tanhRes (.fin n m e) = ⟨sign + one, flNX, false, false⟩) ∧
    sigmRes (.fin n 0 e) = ⟨0x3F000000, 0#5, false, false⟩ ∧ sigmRes (.inf false) = ⟨one, 0#5, false, false⟩ ∧
    sigmRes (.inf true) = zeroOf fmtF32 false ∧
    (32 * 2 ^ (-e).toNat ≤ m * 2 ^ e.toNat → sigmRes (.fin false m e) = ⟨one, flNX, false, false⟩)

/-! ## Packed instructions -/

/-- R181, R183: arithmetic on elements; integers wrap or clamp, floats round once by `FPC`.RM; R183, R184, R188: minima, maxima, absolute
values, compares and the spread of one element. `PABS` of a 6-bit element clears the bits above its own, as the model reads R183 and R134
(log 41). -/
def Obligations.PackedArithmetic : Prop :=
  (∀ o : LpB,
     DoesLp (.padd o) o [o.a, o.b] (fun h a b _ => elems o.t (fun e => intElemOf o.t o.s (e a + e b))
       (fun f e => floatElem (addRes f h.f.view.rm o.s (e a) (e b)) [e a, e b])) ∧
     DoesLp (.psub o) o [o.a, o.b] (fun h a b _ => elems o.t (fun e => intElemOf o.t o.s (e a - e b))
       (fun f e => floatElem (subRes f h.f.view.rm o.s (e a) (e b)) [e a, e b])) ∧
     DoesLp (.pmul o) o [o.a, o.b] (fun h a b _ => elems o.t (fun e => intElemOf o.t o.s (e a * e b))
       (fun f e => floatElem (mulRes f h.f.view.rm o.s (e a) (e b)) [e a, e b])) ∧
     DoesLp (.pfma o) o [o.a, o.b, o.d] (fun h a b d => elems o.t (fun e => intElemOf o.t o.s (e a * e b + e d))
       (fun f e => floatElem (fmaRes f h.f.view.rm o.s [e a, e b, e d] (e a) (e b) (e d)) [e a, e b, e d])) ∧
     (pfmt o.t = none → DoesLp (.pavg o) o [o.a, o.b] (fun _ a b _ =>
       elems o.t (fun e => intElemOf o.t false ((e a + e b + 1) / 2)) (fun _ _ => ⟨0, 0#5, 0#4⟩)))) ∧
  (∀ o : LpB,
     (∀ p : Instr × Bool, p ∈ [(.pmin o, false), (.pmax o, true)] → DoesLp p.1 o [o.a, o.b] (fun _ a b _ =>
       mapElems o.t (fun j =>
         let x := elemAt o.t.width a j
         let y := elemAt o.t.width b j
         let z (n : Nat) : Int := elemToInt (psigned o.t) o.t.width n
         match pfmt o.t with
         | none => intElemOf o.t false (if p.2 then max (z x) (z y) else min (z x) (z y))
         | some f => floatElem (minMaxRes f p.2 x y) [FVal.decode f x, FVal.decode f y]))) ∧
     DoesLp (.pabs o) o [o.a] (fun _ a _ _ => mapElems o.t (fun j => match pfmt o.t with
       | none => intElemOf o.t o.s ((elemToInt (psigned o.t) o.t.width (elemAt o.t.width a j)).natAbs)
       | some f => ⟨elemAt o.t.width a j % 2 ^ f.magBits, 0#5, 0#4⟩)) ∧
     DoesLp (.pcmpeq o) o [o.a, o.b] (fun _ a b _ => elems o.t (fun e => testElem o.t (decide (e a = e b)) 0#5)
       (fun _ e => testElem o.t (!(e a).isNan && !(e b).isNan && (e a).cmp (e b) == .eq)
         (if (e a).signalling || (e b).signalling then flNV else 0#5))) ∧
     DoesLp (.pcmplt o) o [o.a, o.b] (fun _ a b _ => elems o.t (fun e => testElem o.t (decide (e a < e b)) 0#5)
       (fun _ e => testElem o.t (!(e a).isNan && !(e b).isNan && (e a).cmp (e b) == .lt)
         (if (e a).signalling || (e b).signalling then flNV else 0#5))) ∧
     DoesLp (.pmov o) o [o.a] (fun _ a _ _ => mapElems o.t (fun _ =>
       ⟨elemAt o.t.width a o.b.toNat % 2 ^ (match o.t with
         | .e3m2 | .e2m3 => 6
         | _ => o.t.width), 0#5, 0#4⟩)) ∧
     ∀ (f : Nat → ElemOut) (j : Nat), j < 32 / o.t.width → (∀ k, (f k).bits < 2 ^ o.t.width) →
       elemAt o.t.width (mapElems o.t f).val j = (f j).bits)

/-- R185 to R187, R150, R147: dot products, sums of absolute differences, conversions between packed types; a chain rounds each step
once, and its class is judged on its result over every input; each element converts by the rule of its two types. -/
def Obligations.PackedChains : Prop :=
  (∀ o : LpB,
    DoesLp (.pdot o) o [o.a, o.b, o.d] (fun h a b d => match pfmt o.t with
      | none => .plain (d + BitVec.ofInt 32 (((List.range (32 / o.t.width)).map (fun j =>
          elemToInt (psigned o.t) o.t.width (elemAt o.t.width a j) * elemToInt (psigned o.t) o.t.width (elemAt o.t.width b j))).sum))
      | some f => chainOut h.f.view.rm d ((List.range (32 / o.t.width)).map (fun j =>
          (FVal.decode f (elemAt o.t.width a j), FVal.decode f (elemAt o.t.width b j))))) ∧
    DoesLp (.psad o) o [o.a, o.b, o.d] (fun _ a b d =>
      .plain (d + BitVec.ofNat 32 (((List.range (32 / o.t.width)).map (fun j =>
        (elemToInt (psigned o.t) o.t.width (elemAt o.t.width a j) - elemToInt (psigned o.t) o.t.width (elemAt o.t.width b j)).natAbs)).sum)))) ∧
  (∀ (rm : BitVec 2) (c : Word) (a b : FVal) (ts : List (FVal × FVal)),
    chain rm c [] = (c, 0#5) ∧
    (chain rm c ((a, b) :: ts)).1 = (chain rm (BitVec.ofNat 32 (fmaRes fmtF32 rm false [a, b, f32 c] a b (f32 c)).bits) ts).1 ∧
    (chain rm c ((a, b) :: ts)).2 = (fmaRes fmtF32 rm false [a, b, f32 c] a b (f32 c)).flags |||
      (chain rm (BitVec.ofNat 32 (fmaRes fmtF32 rm false [a, b, f32 c] a b (f32 c)).bits) ts).2 ∧
    (chainOut rm c ts).val = (chain rm c ts).1 ∧ (chainOut rm c ts).flags = (chain rm c ts).2 ∧
    ClassIs (f32 (chain rm c ts).1).isNan (f32 (chain rm c ts).1).isInf (f32 c :: ts.flatMap (fun t => [t.1, t.2])) (chainOut rm c ts).cls) ∧
  (∀ (src dst : CvtType) (rm : BitVec 2) (sat : Bool) (b : Nat),
    let x (f : FloatFmt) := FVal.decode f b
    let z (t : PType) : Int := elemToInt (psigned t) t.width b
    let out := cvtElem src dst rm sat b
    let fmt : CvtType → Option FloatFmt
      | .f32 => some fmtF32
      | .packed t => pfmt t
    (∀ f g, fmt src = some f → fmt dst = some g → out.bits = (cvtRes g rm sat (x f)).bits ∧ out.flags = (cvtRes g rm sat (x f)).flags ∧
      ClassIs (cvtRes g rm sat (x f)).nan (cvtRes g rm sat (x f)).inf [x f] out.cls) ∧
    (∀ f t, fmt src = some f → dst = .packed t → pfmt t = none →
      let r := toIntRes (if psigned t then -2 ^ (t.width - 1) else 0) (if psigned t then 2 ^ (t.width - 1) - 1 else 2 ^ t.width - 1) rm sat (x f)
      out = { intElemOf t false r.val with flags := r.flags }) ∧
    (∀ t g, src = .packed t → pfmt t = none → fmt dst = some g → let r := roundInt g rm sat (z t) 0
      out.bits = r.bits ∧ out.flags = r.flags ∧ ClassIs r.nan r.inf [] out.cls) ∧
    ∀ t u, src = .packed t → pfmt t = none → dst = .packed u → pfmt u = none → out = intElemOf u sat (z t)) ∧
  ∀ o : PcvtOp,
    let src : CvtType := if o.toU then .packed o.t else o.u
    let dst : CvtType := if o.toU then o.u else .packed o.t
    let n := 32 / min src.width dst.width
    let elem (h : Here) (l : Fin 32) (k : Nat) : ElemOut :=
      cvtElem src dst h.f.view.rm o.s (elemAt src.width ((h.v (o.a + BitVec.ofNat 6 (k / (32 / src.width))))[l]) (k % (32 / src.width)))
    DoesWith (.pcvt o) (0#1 ++ o.k) (.regs o.d (dst.width / min src.width dst.width)) none none
      ((regsFrom o.a (src.width / min src.width dst.width)).map Src.reg) false (fun _ => True) codesNone
      (fun h l j => wordOfElems dst.width (fun k => (elem h l (j * (32 / dst.width) + k)).bits)) (fun h l => unionOf n (elem h l))

/-! ## Checks at issue and results in flight -/

/-- R155, R50, R59, R219, R51: the checks at issue of the lane instructions that touch no memory, in order: the register
budget, which traps or waits for the group's own results; the range of the indexed operands, with the sub-cause of each; poison of an
active lane of a source, the old D among them where the instruction reads it. -/
def Obligations.LaneChecks : Prop :=
  (∀ (o : LrB) (i : Instr), i ∈ [.iadd o, .isub o, .iaddc o, .isubb o, .imin o, .imax o, .iminu o, .imaxu o, .iand o, .ior o, .ixor o,
      .iandn o, .ishl o, .ishr o, .isra o, .irot o, .ibyte o, .imul o, .imulh o, .imulhu o, .ibfe o, .ibfeu o, .fadd o, .fsub o, .fmul o,
      .fmin o, .fmax o, .fsel o, .fcpys o] →
    ChecksAtIssue i o.k (dstD o.ix o.d) (some (srcA o.ix o.a)) (some (srcB o.ix o.b)) [srcA o.ix o.a, srcB o.ix o.b] false) ∧
  (∀ (o : LrB) (i : Instr), i ∈ [.imad o, .ibfi o, .fma o, .fms o, .fnma o] →
    ChecksAtIssue i o.k (dstD o.ix o.d) (some (srcA o.ix o.a)) (some (srcB o.ix o.b)) [srcA o.ix o.a, srcB o.ix o.b, srcD o.ix o.d] false) ∧
  (∀ (o : LrU) (i : Instr), i ∈ [.iabs o, .ineg o, .inot o, .imov o, .iclz o, .ipopc o, .ibrev o, .fabs o, .fneg o, .fclass o] →
    ChecksAtIssue i o.k (dstD o.ix o.d) (some (srcA o.ix o.a)) none [srcA o.ix o.a] false) ∧
  (∀ (o : LrC) (i : Instr), i ∈ [.icmp o, .icmpu o, .fcmp o] →
    ChecksAtIssue i o.k .none (some (srcA o.ix o.a)) (some (srcB o.ix o.b)) [srcA o.ix o.a, srcB o.ix o.b] false) ∧
  (∀ o : LrS,
    ChecksAtIssue (.isel o) o.k (dstD o.ix o.d) (some (srcA o.ix o.a)) (some (srcB o.ix o.b)) [srcA o.ix o.a, srcB o.ix o.b] false) ∧
  (∀ (o : CvtOp) (i : Instr), i ∈ [.frnd o, .cvtfi o, .cvtfn o, .cvtif o, .cvtnf o, .cvtfh o, .cvtfb o, .cvthf o, .cvtbf o] →
    ChecksAtIssue i o.k (dstD o.ix o.d) (some (srcA o.ix o.a)) none [srcA o.ix o.a] false) ∧
  (∀ o : FmasOp, ChecksAtIssue (.fmas o) o.k (.regs o.d 1) none none [.reg o.a, .reg o.b, .reg o.d, .reg o.sr] false) ∧
  (∀ (o : LiOp) (i : Instr), i ∈ [.iaddi o, .iandi o, .iori o, .ixori o] → ChecksAtIssue i o.k (.regs o.d 1) none none [.reg o.a] false) ∧
  (∀ (o : LiSh) (i : Instr), i ∈ [.ishli o, .ishri o, .israi o] → ChecksAtIssue i o.k (.regs o.d 1) none none [.reg o.a] false) ∧
  (∀ o : LiMov, ChecksAtIssue (.imovi o) o.k (.regs o.d 1) none none [] false) ∧
  (∀ (o : LlB) (i : Instr), i ∈ [.idiv o, .idivu o, .irem o, .iremu o, .fdiv o] →
    ChecksAtIssue i o.k (.regs o.d 1) none none [.reg o.a, .reg o.b] true) ∧
  (∀ (o : LlU) (i : Instr), i ∈ [.fsqrt o, .frcp o, .frsq o, .fexp2 o, .flog2 o, .fsin o, .fcos o, .ftanh o, .fsigm o] →
    ChecksAtIssue i o.k (.regs o.d 1) none none [.reg o.a] true) ∧
  (∀ (o : LpB) (i : Instr), i ∈ [.padd o, .psub o, .pmul o, .pmin o, .pmax o, .pavg o, .pcmpeq o, .pcmplt o] →
    ChecksAtIssue i (0#1 ++ o.k) (.regs o.d 1) none none [.reg o.a, .reg o.b] false) ∧
  (∀ (o : LpB) (i : Instr), i ∈ [.pfma o, .pdot o, .psad o] →
    ChecksAtIssue i (0#1 ++ o.k) (.regs o.d 1) none none [.reg o.a, .reg o.b, .reg o.d] false) ∧
  (∀ (o : LpB) (i : Instr), i ∈ [.pabs o, .pmov o] → ChecksAtIssue i (0#1 ++ o.k) (.regs o.d 1) none none [.reg o.a] false) ∧
  (∀ o : PcvtOp,
    let src : CvtType := if o.toU then .packed o.t else o.u
    let dst : CvtType := if o.toU then o.u else .packed o.t
    ChecksAtIssue (.pcvt o) (0#1 ++ o.k) (.regs o.d (dst.width / min src.width dst.width)) none none
      ((regsFrom o.a (src.width / min src.width dst.width)).map Src.reg) false) ∧
  (∀ (o : LrF) (i : Instr), i ∈ [.xvote o, .xred o, .xscan o, .xscane o] →
    ChecksAtIssue i o.k (.regs o.d 1) none none [.reg o.a] false) ∧
  (∀ (o : LrF) (i : Instr), i ∈ [.xshfl o, .xsegred o, .xsegscan o] →
    ChecksAtIssue i o.k (.regs o.d 1) none none [.reg o.a, .reg o.b] false) ∧
  ∀ o : LrN, ChecksAtIssue (.xisect o) o.k (.regs o.d 1) none none [.reg o.a, .reg o.b] false

/-- R148: the lowest enabled class that an active lane meets traps with the lanes of that class, and commits nothing: for every lane
instruction whose results fall into a class (R147). `MVT`'s trap stands with its results. -/
def Obligations.ClassTraps : Prop :=
  (∀ o : LrB,
    let a (h : Here) (l : Fin 32) : Word := (h.read (srcA o.ix o.a))[l]
    let b (h : Here) (l : Fin 32) : Word := (h.read (srcB o.ix o.b))[l]
    let d (h : Here) (l : Fin 32) : FVal := f32 (h.read (srcD o.ix o.d))[l]
    let ab : List Src := [srcA o.ix o.a, srcB o.ix o.b]
    let fused (rm : BitVec 2) (x y z : FVal) : LaneOut := floatOut (fmaRes fmtF32 rm false [x, y, z] x y z) [x, y, z]
    ∀ q : Instr × List Src × (Here → Fin 32 → LaneOut), q ∈ [
        (.fadd o, ab, fun h l => floatOut (addRes fmtF32 h.f.view.rm false (f32 (a h l)) (f32 (b h l))) [f32 (a h l), f32 (b h l)]),
        (.fsub o, ab, fun h l => floatOut (subRes fmtF32 h.f.view.rm false (f32 (a h l)) (f32 (b h l))) [f32 (a h l), f32 (b h l)]),
        (.fmul o, ab, fun h l => floatOut (mulRes fmtF32 h.f.view.rm false (f32 (a h l)) (f32 (b h l))) [f32 (a h l), f32 (b h l)]),
        (.fmin o, ab, fun h l => floatOut (minMaxRes fmtF32 false (a h l).toNat (b h l).toNat) [f32 (a h l), f32 (b h l)]),
        (.fmax o, ab, fun h l => floatOut (minMaxRes fmtF32 true (a h l).toNat (b h l).toNat) [f32 (a h l), f32 (b h l)]),
        (.fma o, ab ++ [srcD o.ix o.d], fun h l => fused h.f.view.rm (f32 (a h l)) (f32 (b h l)) (d h l)),
        (.fms o, ab ++ [srcD o.ix o.d], fun h l => fused h.f.view.rm (f32 (a h l)) (f32 (b h l)) (d h l).flip),
        (.fnma o, ab ++ [srcD o.ix o.d], fun h l => fused h.f.view.rm (f32 (a h l)).flip (f32 (b h l)) (d h l))] →
      TrapsClass q.1 o.k (dstD o.ix o.d) (some (srcA o.ix o.a)) (some (srcB o.ix o.b)) q.2.1 false (fun _ => True) q.2.2) ∧
  (∀ o : FmasOp, TrapsClass (.fmas o) o.k (.regs o.d 1) none none [.reg o.a, .reg o.b, .reg o.d, .reg o.sr] false (fun _ => True) (fun h l =>
    let a := f32 (h.v o.a)[l]
    let b := f32 (h.v o.b)[l]
    let d := f32 (h.v o.d)[l]
    let sa := e8m0 (((h.v o.sr)[l] >>> (8 * o.ba.toNat)).setWidth 8)
    let sb := e8m0 (((h.v o.sr)[l] >>> (8 * o.bb.toNat)).setWidth 8)
    floatOut (fmaRes fmtF32 h.f.view.rm false [a, sa, b, sb, d] (a.scaleBy sa) (b.scaleBy sb) d) [a, sa, b, sb, d])) ∧
  (∀ (o : CvtOp) (q : Instr × (BitVec 2 → Word → LaneOut)), q ∈ [
      (.frnd o, fun rm a => floatOut (rndRes rm (f32 a)) [f32 a]),
      (.cvtfh o, fun rm a => narrowOut fmtF16 (cvtRes fmtF16 rm o.s (f32 a)) [f32 a]),
      (.cvtfb o, fun rm a => narrowOut fmtBf16 (cvtRes fmtBf16 rm o.s (f32 a)) [f32 a]),
      (.cvthf o, fun rm a =>
        let x := FVal.decode fmtF16 (a.extractLsb' 0 16).toNat
        floatOut (cvtRes fmtF32 rm false x) [x]),
      (.cvtbf o, fun rm a =>
        let x := FVal.decode fmtBf16 (a.extractLsb' 0 16).toNat
        floatOut (cvtRes fmtF32 rm false x) [x])] →
    TrapsClass q.1 o.k (dstD o.ix o.d) (some (srcA o.ix o.a)) none [srcA o.ix o.a] false (fun _ => True)
      (fun h l => q.2 (modeOf h.f.view.rm o.m) (h.read (srcA o.ix o.a))[l])) ∧
  (∀ o : LlB, TrapsClass (.fdiv o) o.k (.regs o.d 1) none none [.reg o.a, .reg o.b] true (fun _ => True)
    (fun h l => floatOut (divRes fmtF32 h.f.view.rm (f32 (h.v o.a)[l]) (f32 (h.v o.b)[l])) [f32 (h.v o.a)[l], f32 (h.v o.b)[l]])) ∧
  (∀ (o : LlU) (q : Instr × (BitVec 2 → FVal → FRes)),
    q ∈ [(.fsqrt o, sqrtRes), (.frcp o, rcpRes), (.frsq o, rsqRes), (.fexp2 o, fun _ => exp2Res), (.flog2 o, fun _ => log2Res),
      (.fsin o, fun _ => sinRes), (.fcos o, fun _ => cosRes), (.ftanh o, fun _ => tanhRes), (.fsigm o, fun _ => sigmRes)] →
    TrapsClass q.1 o.k (.regs o.d 1) none none [.reg o.a] true (fun _ => True)
      (fun h l => floatOut (q.2 h.f.view.rm (f32 (h.v o.a)[l])) [f32 (h.v o.a)[l]])) ∧
  (∀ o : LpB,
    let none' : ElemOut := ⟨0, 0#5, 0#4⟩
    let each (f : FloatFmt → BitVec 2 → FVal → FVal → FVal → ElemOut) (h : Here) (l : Fin 32) : LaneOut := elems o.t (fun _ => none')
      (fun g e => f g h.f.view.rm (e (h.v o.a)[l]) (e (h.v o.b)[l]) (e (h.v o.d)[l]))
    let pick (hi : Bool) (h : Here) (l : Fin 32) : LaneOut := mapElems o.t (fun j =>
      let x := elemAt o.t.width (h.v o.a)[l] j
      let y := elemAt o.t.width (h.v o.b)[l] j
      match pfmt o.t with
      | none => none'
      | some f => floatElem (minMaxRes f hi x y) [FVal.decode f x, FVal.decode f y])
    let dot (h : Here) (l : Fin 32) : LaneOut := match pfmt o.t with
      | none => LaneOut.idle
      | some f => chainOut h.f.view.rm (h.v o.d)[l] ((List.range (32 / o.t.width)).map (fun j =>
          (FVal.decode f (elemAt o.t.width (h.v o.a)[l] j), FVal.decode f (elemAt o.t.width (h.v o.b)[l] j))))
    ∀ q : Instr × List Reg × (Here → Fin 32 → LaneOut), q ∈ [
        (.padd o, [o.a, o.b], each (fun f rm a b _ => floatElem (addRes f rm o.s a b) [a, b])),
        (.psub o, [o.a, o.b], each (fun f rm a b _ => floatElem (subRes f rm o.s a b) [a, b])),
        (.pmul o, [o.a, o.b], each (fun f rm a b _ => floatElem (mulRes f rm o.s a b) [a, b])),
        (.pfma o, [o.a, o.b, o.d], each (fun f rm a b d => floatElem (fmaRes f rm o.s [a, b, d] a b d) [a, b, d])),
        (.pmin o, [o.a, o.b], pick false), (.pmax o, [o.a, o.b], pick true), (.pdot o, [o.a, o.b, o.d], dot)] →
      TrapsClass q.1 (0#1 ++ o.k) (.regs o.d 1) none none (q.2.1.map Src.reg) false (fun _ => True) q.2.2) ∧
  (∀ o : PcvtOp,
    let src : CvtType := if o.toU then .packed o.t else o.u
    let dst : CvtType := if o.toU then o.u else .packed o.t
    TrapsClass (.pcvt o) (0#1 ++ o.k) (.regs o.d (dst.width / min src.width dst.width)) none none
      ((regsFrom o.a (src.width / min src.width dst.width)).map Src.reg) false (fun _ => True)
      (fun h l => unionOf (32 / min src.width dst.width) (fun k =>
        cvtElem src dst h.f.view.rm o.s (elemAt src.width ((h.v (o.a + BitVec.ofNat 6 (k / (32 / src.width))))[l]) (k % (32 / src.width)))))) ∧
  ∀ (o : LrF) (q : Instr × List Reg × ScanForm × Bool), q ∈ [(.xred o, [o.a], .red, false), (.xscan o, [o.a], .scan, false),
      (.xscane o, [o.a], .scane, false), (.xsegred o, [o.a, o.b], .red, true), (.xsegscan o, [o.a, o.b], .scan, true)] →
    TrapsClass q.1 o.k (.regs o.d 1) none none (q.2.1.map Src.reg) false Here.tiled (fun h l =>
      let tile := h.tile (h.exec o.k) l
      redLane q.2.2.1 o.f h.f.view.rm (fun m => (h.v o.a)[m]) (if q.2.2.2 then segmentOf (fun m => (h.v o.b)[m]) tile l else tile) l)

/-- R94, R50, R95: under lookahead n the fragment goes on with its registers as they were and one result more in flight, which stands
ready after n further instructions and discards the older ones of its registers: divisions, special functions, loads, and `LDFF` with
its Z (`MVT`, `SLD` and `SLDC` stand with their results). When it is due its lanes take the words, unless a younger write dropped it. -/
def Obligations.Lookahead : Prop :=
  (∀ (o : LlB) (p : Instr × (BitVec 2 → Word → Word → Word × Flags)),
    p ∈ [(.idiv o, fun _ a b => (a.sdiv b, 0#5)), (.idivu o, fun _ a b => (a / b, 0#5)), (.irem o, fun _ a b => (a.srem b, 0#5)),
      (.iremu o, fun _ a b => (a % b, 0#5)),
      (.fdiv o, fun rm a b => (BitVec.ofNat 32 (divRes fmtF32 rm (f32 a) (f32 b)).bits, (divRes fmtF32 rm (f32 a) (f32 b)).flags))] →
    ∀ s h, LaneReady .lane s h p.1 o.k (.regs o.d 1) none none [.reg o.a, .reg o.b] true → o.la ≠ 0#4 → (p.1 = .fdiv o → h.f.view.en = 0#4) →
      (∀ l : Fin 32, (h.exec o.k).getLsbD l.val = true → p.1 = .fdiv o ∨ (h.v o.b)[l] ≠ 0#32) →
      let out (l : Fin 32) := p.2 h.f.view.rm (h.v o.a)[l] (h.v o.b)[l]
      ∃ t h', exec p.1 s = .next t ∧ LaneFlew s t h h' p.1 o.la (h.without o.d 1) (h.exec o.k) (h.exec o.k) 0#32 o.d 1
        (fun l _ => (out l).1) (fun _ _ => False) (fun l => (out l).2) (0#32, 0#32)) ∧
  (∀ (o : LlU) (p : Instr × (BitVec 2 → FVal → FRes)),
    p ∈ [(.fsqrt o, sqrtRes), (.frcp o, rcpRes), (.frsq o, rsqRes), (.fexp2 o, fun _ => exp2Res), (.flog2 o, fun _ => log2Res),
      (.fsin o, fun _ => sinRes), (.fcos o, fun _ => cosRes), (.ftanh o, fun _ => tanhRes), (.fsigm o, fun _ => sigmRes)] →
    ∀ s h, LaneReady .lane s h p.1 o.k (.regs o.d 1) none none [.reg o.a] true → o.la ≠ 0#4 → h.f.view.en = 0#4 →
      let out (l : Fin 32) := p.2 h.f.view.rm (f32 (h.v o.a)[l])
      ∃ t h', exec p.1 s = .next t ∧ LaneFlew s t h h' p.1 o.la (h.without o.d 1) (h.exec o.k) (h.exec o.k) 0#32 o.d 1
        (fun l _ => BitVec.ofNat 32 (out l).bits) (fun _ _ => False) (fun l => (out l).flags) (0#32, 0#32)) ∧
  (∀ (o : LmLd) (q : Instr × Bool × FreezeRule), q ∈ [(.ldg o, false, .none), (.ldgs o, true, .none), (.ldc o, false, .mustFreeze)] →
    ∀ (s : State) (h : Here) (p : Fin 32 → Place),
      let ex := h.exec o.k
      let n := szBytes o.sz
      let sh := loadShape q.1 o [pairReg o.p.toNat, pairReg o.p.toNat + 1#6]
      let entry := s.reuseFind h.r.core (h.reuseKey sh ex (ex != 0xFFFFFFFF#32)
        (some (memKeyOf s h ((lanesIn ex).map (fun l => (p l).pa)))))
      LaneReady .lane s h q.1 o.k (.regs o.d (szRegs o.sz)) none none [.reg o.a] true → o.la ≠ 0#4 →
      Passes s h ex .load q.2.2 n (lmAddr h o.a o.p o.sz o.px) p →
      (entry = none → ∃ s1 t h', exec q.1 s = .next t ∧ Accounted s s1 h.r.core ∧
        LaneFlew s1 t h h' q.1 o.la (h.without o.d (szRegs o.sz)) ex ex 0#32 o.d (szRegs o.sz)
          (fun l => loadedWord o.sz q.2.1 (fun i => loadByte s h.r.core (p l) ((p l).pa + i))) (fun l _ => s.poisoned (p l).pa n = true)
          (fun _ => 0#5) (0#32, 0#32)) ∧
      ∀ e, entry = some e → e.results.length = szRegs o.sz → ∃ s1 t h', exec q.1 s = .next t ∧ Accounted s s1 h.r.core ∧
        LaneFlew s1 t h h' q.1 o.la (h.without o.d (szRegs o.sz)) ex ex 0#32 o.d (szRegs o.sz)
          (fun l j => ((e.results.map (fun r => r.2[l])).getD j 0#32)) (fun _ _ => False) (fun _ => 0#5) (0#32, 0#32)) ∧
  (∀ (o : LmLd) (s : State) (h : Here) (x : Team),
    let ex := h.exec o.k
    let n := szBytes o.sz
    let addr := lmAddr h o.a o.p o.sz o.px
    let out := ex &&& maskOf (fun l => decide (x.scratchSize < (addr l).toNat + n))
    let m := ex &&& ~~~out
    LaneReady .padMove s h (.ldp o) o.k (.regs o.d (szRegs o.sz)) none none [.reg o.a] true → o.la ≠ 0#4 → teamOf s h = some x →
    (∀ l : Fin 32, ex.getLsbD l.val = true → (addr l).toNat % n = 0) →
    (out ≠ 0#32 ∨ s.reuseFind h.r.core (h.reuseKey (loadShape (.ldp o) o [pairReg o.p.toNat, pairReg o.p.toNat + 1#6]) ex
      (ex != 0xFFFFFFFF#32) (some { gens := [], epoch := some (h.g.uid, h.g.epoch), read := [], pad := false })) = none) →
    ∃ t h', exec (.ldp o) s = .next t ∧
      LaneFlew s t h h' (.ldp o) o.la (if m = 0#32 then h.f.pending else h.without o.d (szRegs o.sz)) ex m out o.d (szRegs o.sz)
        (fun l => loadedWord o.sz false (fun i => bytesGet x.scratch ((addr l).toNat + i)))
        (fun l _ => padPoisoned x (addr l).toNat n = true) (fun _ => 0#5) (0#32, 0#32)) ∧
  (∀ (o : LmLd) (s : State) (h : Here) (p : Fin 32 → Place) (good : LaneMask),
    let ex := h.exec o.k
    let n := szBytes o.sz
    LaneReady .lane s h (.ldff o) o.k (.regs o.d (szRegs o.sz)) none none [.reg o.a] true → o.la ≠ 0#4 → good ≠ 0#32 →
    FirstGood s h o good → Passes s h good .load .none n (lmAddr h o.a o.p o.sz o.px) p →
    ∃ s1 t h', exec (.ldff o) s = .next t ∧ Accounted s s1 h.r.core ∧
      LaneFlew s1 t h h' (.ldff o) o.la ((h.without o.d (szRegs o.sz)).map (fun q => { q with zMask := 0#32 })) ex good 0#32 o.d (szRegs o.sz)
        (fun l => loadedWord o.sz false (fun i => loadByte s h.r.core (p l) ((p l).pa + i))) (fun l _ => s.poisoned (p l).pa n = true)
        (fun _ => 0#5) (ex, ex &&& ~~~good)) ∧
  ∀ (s : State) (h : Here) (x : Pending) (r : PendReg), h.f.pending = [x] → x.left = 0 → x.regs = [r] → x.uni = [] → x.zMask = 0#32 →
    (settleDue s h).2.f.pending = [] ∧ (settleDue s h).2.f.pc = h.f.pc ∧ (settleDue s h).2.f.view = h.f.view ∧
    (r.dropped = true → ∀ n, (settleDue s h).2.v n = h.v n) ∧
    (r.dropped = false → ∀ (n : Reg) (l : Fin 32), ((settleDue s h).2.v n)[l] =
      if n = r.reg ∧ r.mask.getLsbD l.val = true then r.lanes[l] else (h.v n)[l])

/-! ## Lane memory -/

/-- R281, R282, R285, R71: loads of every size without lookahead: each register takes the words of its lane's bytes, and every byte at its
home stays. `LDC` asks that every byte be frozen. Where the reuse table holds the load, its results are taken and nothing is read;
that an entry whose bytes the group has since read otherwise is not held is the model's reading (log 53). -/
def Obligations.GlobalLoads : Prop :=
  (∀ (h : Here) (a : Reg) (p : BitVec 4) (sz : BitVec 2) (px : Option LmPx) (l : Fin 32), lmAddr h a p sz px l =
    h.sp (BitVec.ofNat 6 (2 * p.toNat)) + (h.v a)[l].setWidth 64 * (match px with
      | some ⟨true, _⟩ => BitVec.ofNat 64 (szBytes sz)
      | _ => 1#64) + (match px with
      | some x => x.disp.signExtend 64
      | none => 0#64)) ∧
  ∀ (o : LmLd) (q : Instr × Bool × FreezeRule), q ∈ [(.ldg o, false, .none), (.ldgs o, true, .none), (.ldc o, false, .mustFreeze)] →
    ∀ (s : State) (h : Here) (p : Fin 32 → Place),
      let ex := h.exec o.k
      let n := szBytes o.sz
      let sh := loadShape q.1 o [pairReg o.p.toNat, pairReg o.p.toNat + 1#6]
      let key := h.reuseKey sh ex (ex != 0xFFFFFFFF#32) (some (memKeyOf s h ((lanesIn ex).map (fun l => (p l).pa))))
      LaneReady .lane s h q.1 o.k (.regs o.d (szRegs o.sz)) none none [.reg o.a] true → o.la = 0#4 →
      Passes s h ex .load q.2.2 n (lmAddr h o.a o.p o.sz o.px) p →
      (s.reuseFind h.r.core key = none → (∀ l : Fin 32, ex.getLsbD l.val = true → s.poisoned (p l).pa n = false) →
        ∃ s1 t h', exec q.1 s = .next t ∧ Accounted s s1 h.r.core ∧
          LaneDone s1 t h h' q.1 ex (.regs o.d (szRegs o.sz)) codesNone
            (fun l => loadedWord o.sz q.2.1 (fun i => loadByte s h.r.core (p l) ((p l).pa + i))) (fun _ => LaneOut.idle) h.f.view.scc) ∧
      ∀ e, s.reuseFind h.r.core key = some e → e.results.length = szRegs o.sz →
        ∃ s1 t h', exec q.1 s = .next t ∧ Accounted s s1 h.r.core ∧ LaneDone s1 t h h' q.1 ex (.regs o.d (szRegs o.sz)) codesNone
          (fun l j => ((e.results.map (fun r => r.2[l])).getD j 0#32)) (fun _ => LaneOut.idle) h.f.view.scc

/-- R284, R218: lanes below the first that would fault load and clear their Z; that lane and those above it set Z and write no register; a
word of a poisoned granule poisons its lane. Where the lowest active lane itself fails a check, it alone traps, or waits. -/
def Obligations.FirstFaultLoad : Prop :=
  ∀ (o : LmLd) (s : State) (h : Here) (p : Fin 32 → Place) (good : LaneMask),
    let ex := h.exec o.k
    let n := szBytes o.sz
    let d : Dst := .regs o.d (szRegs o.sz)
    let va (l : Fin 32) : DWord := lmAddr h o.a o.p o.sz o.px l
    LaneReady .lane s h (.ldff o) o.k d none none [.reg o.a] true →
    (o.la = 0#4 → good ≠ 0#32 → FirstGood s h o good → Passes s h good .load .none n va p →
      ∃ s1 t h', exec (.ldff o) s = .next t ∧ Accounted s s1 h.r.core ∧ OnlyGroup s1 t h.r ∧ WentOn t h h' (h.after (.ldff o)) ∧
        (∀ l : Fin 32, good.getLsbD l.val = true →
          d.holds h h' l (loadedWord o.sz false (fun i => loadByte s h.r.core (p l) ((p l).pa + i)))) ∧
        (∀ (r : Reg) (l : Fin 32), good.getLsbD l.val = true → d.names h r l →
          (h'.vreg r).poison.getLsbD l.val = s.poisoned (p l).pa n) ∧
        LaneFrame h h' d good ∧ h'.f.view = h.f.view ∧ h'.g.sticky = h.g.sticky ∧ h'.g.removed = h.g.removed ∧ h'.g.epoch = h.g.epoch ∧
        LaneCodes h h' ex ⟨false, true, false, false⟩ (fun l => { LaneOut.idle with z := !good.getLsbD l.val })) ∧
    ∀ l : Fin 32, ex.getLsbD l.val = true → (∀ m : Fin 32, m < l → ex.getLsbD m.val = false) →
      (∀ rank cause sub a x, check1 s h .load .none n n (va l) = .bad rank cause sub a x →
        exec (.ldff o) s = .next (trapOf s h (.ldff o) ⟨cause, sub, 1#32 <<< l.val, a, x, 0⟩)) ∧
      ∀ rank w, check1 s h .load .none n n (va l) = .wait rank w →
        ∃ t h' w', exec (.ldff o) s = .next t ∧ WaitsAt t h h' w' h.f.passed

/-- R286, R263, R321: a store of every size: the highest lane that covers a byte gives it, every other byte stays at its home and reads as
before on every core; of a word that it stores part of, the rest may also read as the home's, since no load mixes two ages of a word. -/
def Obligations.GlobalStores : Prop :=
  ∀ (o : LmSt) (s : State) (h : Here) (p : Fin 32 → Place),
    let ex := h.exec o.k
    let n := szBytes o.sz
    let pa (l : Fin 32) : Nat := (p l).pa
    s.memOk → LaneReady .lane s h (.stg o) o.k .none none none (.reg o.a :: (regsFrom o.d (szRegs o.sz)).map Src.reg) false →
    Passes s h ex .store .mustThaw n (lmAddr h o.a o.p o.sz o.px) p →
    ∃ t h', exec (.stg o) s = .next t ∧ WentOnWriting t h h' (.stg o) 0#32 ∧ OnlyMemory s t h.r ∧
      (∀ l a, HighestOn ex pa n l a → loadByte t h.r.core (p l) a = storeByte h o.d l (a - pa l)) ∧
      ∀ a, ¬Covered ex pa n a → homeByte t a = homeByte s a ∧ ∀ d q, loadByte t d q a = loadByte s d q a ∨
        (WordTouched ex pa n a ∧ loadByte t d q a = homeByte s a)

/-- R260, R282, R286: scratchpad loads and stores; a lane outside the allocation is removed and touches nothing. -/
def Obligations.ScratchpadMoves : Prop :=
  (∀ (o : LmLd) (s : State) (h : Here) (x : Team),
    let ex := h.exec o.k
    let n := szBytes o.sz
    let addr := lmAddr h o.a o.p o.sz o.px
    let out := ex &&& maskOf (fun l => decide (x.scratchSize < (addr l).toNat + n))
    let m := ex &&& ~~~out
    LaneReady .padMove s h (.ldp o) o.k (.regs o.d (szRegs o.sz)) none none [.reg o.a] true → o.la = 0#4 → teamOf s h = some x →
    (∀ l : Fin 32, ex.getLsbD l.val = true → (addr l).toNat % n = 0) →
    (∀ l : Fin 32, m.getLsbD l.val = true → padPoisoned x (addr l).toNat n = false) →
    (out ≠ 0#32 ∨ s.reuseFind h.r.core (h.reuseKey (loadShape (.ldp o) o [pairReg o.p.toNat, pairReg o.p.toNat + 1#6]) ex
      (ex != 0xFFFFFFFF#32) (some { gens := [], epoch := some (h.g.uid, h.g.epoch), read := [], pad := false })) = none) →
    ∃ t h', exec (.ldp o) s = .next t ∧ OnlyGroup s t h.r ∧ h'.g.removed = h.g.removed ||| out ∧ h'.g.epoch = h.g.epoch ∧
      LaneWrote t h h' (.ldp o) m m (.regs o.d (szRegs o.sz)) codesNone
        (fun l => loadedWord o.sz false (fun i => bytesGet x.scratch ((addr l).toNat + i))) (fun _ => LaneOut.idle)) ∧
  ∀ (o : LmSt) (s : State) (h : Here) (x : Team),
    let ex := h.exec o.k
    let n := szBytes o.sz
    let addr := lmAddr h o.a o.p o.sz o.px
    let at' (l : Fin 32) : Nat := (addr l).toNat
    let out := ex &&& maskOf (fun l => decide (x.scratchSize < (addr l).toNat + n))
    let m := ex &&& ~~~out
    s.memOk → LaneReady .padMove s h (.stp o) o.k .none none none (.reg o.a :: (regsFrom o.d (szRegs o.sz)).map Src.reg) false →
    teamOf s h = some x → (∀ l : Fin 32, ex.getLsbD l.val = true → (addr l).toNat % n = 0) →
    ∃ t h' y, exec (.stp o) s = .next t ∧ WentOnWriting t h h' (.stp o) out ∧ OnlyPad s t h.r x.uid ∧ t.team? x.uid = some y ∧
      (∀ l a, HighestOn m at' n l a → bytesGet y.scratch a = storeByte h o.d l (a - at' l)) ∧
      ∀ a, ¬Covered m at' n a → bytesGet y.scratch a = bytesGet x.scratch a

/-- R288 to R290, R292: global atomics and exchanges: lanes apply in ascending order, each takes the word that the lower ones leave; the
words hold what the last leaves, every other byte stays. A lane that was performed ahead of the others has the word that it found then
(log 49). -/
def Obligations.GlobalAtomics : Prop :=
  ∀ (k : KReg) (d a b : Reg) (f : BitVec 3) (c : Bool) (s : State) (h : Here) (p : Fin 32 → Place)
    (q : Instr × List Src × (Fin 32 → Word → Option Word) × Bool),
    q ∈ [(.atomg ⟨k, c, f, d, a, b⟩, [.reg a, .reg d], fun l old => some (atomOp f old (h.v d)[l]), false),
      (.xchgg ⟨k, d, a, b⟩, [.reg a, .reg d], fun l _ => some (h.v d)[l], false),
      (.casg ⟨k, c, f, d, a, b⟩, [.reg a, .reg d, .reg (d + 1#6)],
        fun l old => if old = (h.v d)[l] then some (h.v (d + 1#6))[l] else none, c)] →
    let ex := h.exec k
    let pa (l : Fin 32) : Nat := (p l).pa
    let m0 := homeWord s h.r.core
    s.memOk → LaneReady .lane s h q.1 k (.regs d 1) none none q.2.1 false →
    Passes s h ex .atomic .mustThaw 4 (fun l => h.sp b + (h.v a)[l].setWidth 64) p → (∀ l : Fin 32, ex.getLsbD l.val = true → pa l % 4 = 0) →
    (∀ l : Fin 32, ex.getLsbD l.val = true → (aheadOf h l = none → s.poisoned (pa l) 4 = false) ∧ ∀ d, aheadOf h l = some d → d.2 = false) →
    (∀ r ∈ s.redgs, r.group ≠ h.g.uid) →
    ∃ t h', exec q.1 s = .next t ∧ OnlyMemory s t h.r ∧ h'.g.epoch = h.g.epoch + 1 ∧ h'.g.removed = h.g.removed ∧
      LaneWrote t h h' q.1 ex ex (.regs d 1) ⟨false, q.2.2.2, false, false⟩ (fun l _ => atomOld h q.2.2.1 pa ex m0 l)
        (fun l => { LaneOut.idle with z := atomOld h q.2.2.1 pa ex m0 l == (h.v d)[l] }) ∧
      (∀ l : Fin 32, ex.getLsbD l.val = true → homeWord t h.r.core (pa l) = atomsRun q.2.2.1 pa (lanesDue h ex) m0 (pa l)) ∧
      ∀ x, ¬Covered ex pa 4 x → homeByte t x = homeByte s x

/-- R288 to R290, R260: scratchpad atomics and exchanges; a lane outside the allocation is removed; one that was performed ahead of the
others has the word that it found then (R253; log 49). -/
def Obligations.ScratchpadAtomics : Prop :=
  ∀ (k : KReg) (d a b : Reg) (f : BitVec 3) (c : Bool) (s : State) (h : Here) (x : Team)
    (q : Instr × List Src × (Fin 32 → Word → Option Word) × Bool),
    q ∈ [(.atomp ⟨k, c, f, d, a, b⟩, [.reg a, .reg b], fun l old => some (atomOp f old (h.v b)[l]), false),
      (.xchgp ⟨k, d, a, b⟩, [.reg a, .reg b], fun l _ => some (h.v b)[l], false),
      (.casp ⟨k, c, f, d, a, b⟩, [.reg a, .reg b, .reg d], fun l old => if old = (h.v d)[l] then some (h.v b)[l] else none, c)] →
    let ex := h.exec k
    let pa (l : Fin 32) : Nat := (h.v a)[l].toNat
    let out := ex &&& maskOf (fun l => decide (x.scratchSize < pa l + 4))
    let m := ex &&& ~~~out
    s.memOk → LaneReady .lane s h q.1 k (.regs d 1) none none q.2.1 false → teamOf s h = some x →
    (∀ l : Fin 32, ex.getLsbD l.val = true → pa l % 4 = 0) → (∀ l : Fin 32, m.getLsbD l.val = true →
      (aheadOf h l = none → padPoisoned x (pa l) 4 = false) ∧ ∀ d, aheadOf h l = some d → d.2 = false) →
    ∃ t h' y, exec q.1 s = .next t ∧ OnlyPad s t h.r x.uid ∧ t.team? x.uid = some y ∧
      h'.g.epoch = h.g.epoch + 1 ∧ h'.g.removed = h.g.removed ||| out ∧
      LaneWrote t h h' q.1 m m (.regs d 1) ⟨false, q.2.2.2, false, false⟩ (fun l _ => atomOld h q.2.2.1 pa m (scratchWord x) l)
        (fun l => { LaneOut.idle with z := atomOld h q.2.2.1 pa m (scratchWord x) l == (h.v d)[l] }) ∧
      (∀ l : Fin 32, m.getLsbD l.val = true → scratchWord y (pa l) = atomsRun q.2.2.1 pa (lanesDue h m) (scratchWord x) (pa l)) ∧
      ∀ n, ¬Covered m pa 4 n → bytesGet y.scratch n = bytesGet x.scratch n

/-- R291, R319, R266: `REDG` sends one operation from each active lane, in ascending order, and returns nothing; only the bytes of its words
may come to stand at their homes, from the core's own stores, which register before it is sent. Its arrival applies the operation once
to the word at its home (R292); what its core has stored since and not registered stays in the core's L1. -/
def Obligations.SentReductions : Prop :=
  (∀ (o : LrF) (s : State) (h : Here) (p : Fin 32 → Place),
    let ex := h.exec o.k
    let pa (l : Fin 32) : Nat := (p l).pa
    s.memOk → LaneReady .lane s h (.redg o) o.k .none none none [.reg o.a, .reg o.d] false →
    Passes s h ex .atomic .mustThaw 4 (fun l => h.sp o.b + (h.v o.a)[l].setWidth 64) p →
    ∃ t h' rs, exec (.redg o) s = .next t ∧ WentOnWriting t h h' (.redg o) 0#32 ∧ OnlyMemory s { t with redgs := s.redgs } h.r ∧
      t.redgs = rs ++ s.redgs ∧
      rs.reverse.map (fun r => (r.addr, r.op, r.x, r.core, r.group, r.launch, r.poison)) =
        (lanesIn ex).map (fun l => (pa l, o.f, (h.v o.d)[l], h.r.core, h.g.uid, h.g.launch, false)) ∧
      ∀ a, ¬Covered ex pa 4 a → homeByte t a = homeByte s a) ∧
  ∀ (s : State) (r : Redg), s.memOk → s.redgs.find? (fun x => x.id == r.id) = some r → r.poison = false → r.addr % 4 = 0 →
    (∀ x ∈ s.redgs, x.group = r.group → x.addr = r.addr → r.id ≤ x.id) →
    ∃ t, exec (.redgApply r.id) s = .next t ∧ t.redgs = s.redgs.filter (fun x => x.id != r.id) ∧
      wordAt t r.addr = atomOp r.op (wordAt s r.addr) r.x ∧ (∀ a, ¬InWord r.addr a → homeByte t a = homeByte s a) ∧
      ∀ a v, tableFind s.registered a = none → tableFind (s.core r.core).l1 a = some (.dirty v) →
        tableFind (t.core r.core).l1 a = some (.dirty v)

/-! ## Cross-lane instructions and queues -/

/-- R237 to R239: shuffles, gathers and votes; a lane without a source keeps D and sets Z. -/
def Obligations.ShufflesAndVotes : Prop :=
  (∀ o : LrF,
    let takes (h : Here) (l j : Fin 32) : Bool := (h.exec o.k).getLsbD j.val && shflTakes h o.f ((h.v o.b)[l]) l j
    DoesCross (.xshfl o) o.k o.d [o.a, o.b] ⟨false, o.c, false, false⟩ Here.tiled
      (fun h => h.exec o.k &&& maskOf (fun l => (List.finRange 32).any (takes h l)))
      (fun h l => match (List.finRange 32).find? (takes h l) with
        | some j => (h.v o.a)[j]
        | none => 0#32)
      (fun h l => { LaneOut.idle with z := !(List.finRange 32).any (takes h l) })) ∧
  (∀ o : LrF,
    let w (h : Here) : Window := h.w (o.f.setWidth 2)
    let reg (h : Here) (l : Fin 32) : VReg := h.vregAt ((w h).base.toNat + (h.v o.a)[l].toNat / 32)
    let lane (h : Here) (l : Fin 32) : Fin 32 := Fin.ofNat 32 (h.v o.a)[l].toNat
    let inside (h : Here) (l : Fin 32) : Bool := h.lanes.getLsbD (lane h l).val
    DoesCross (.xgather o) o.k o.d [o.a] ⟨false, o.c, false, false⟩
      (fun h => (w h).base.toNat + (w h).len.toNat ≤ 64 ∧ ∀ l : Fin 32, (h.exec o.k).getLsbD l.val = true →
        (h.v o.a)[l].toNat < 32 * (w h).len.toNat ∧ (inside h l = true → (reg h l).poison.getLsbD (lane h l).val = false))
      (fun h => h.exec o.k) (fun h l => if inside h l then (reg h l).lanes[lane h l] else 0#32)
      (fun h l => { LaneOut.idle with z := !inside h l }) ∧
    ∀ s h, Issues s h (.xgather o) .lane → h.exec o.k ≠ 0#32 →
      let ex := h.exec o.k
      let rise := h.raises ex (.regs o.d 1) false
      let past := ex &&& maskOf (fun l => decide (32 * (w h).len.toNat ≤ (h.v o.a)[l].toNat))
      let bad := ex &&& maskOf (fun l => (h.vreg o.a).poison.getLsbD l.val || (inside h l && (reg h l).poison.getLsbD (lane h l).val))
      rise = 0 ∨ h.group.charge + rise ≤ h.g.budget →
      (64 < (w h).base.toNat + (w h).len.toNat → exec (.xgather o) s = .next (trapOf s h (.xgather o) (.plain cIndexRange 0x08#8 ex))) ∧
      ((w h).base.toNat + (w h).len.toNat ≤ 64 → past ≠ 0#32 →
        exec (.xgather o) s = .next (trapOf s h (.xgather o) (.plain cIndexRange 0x02#8 past))) ∧
      ((w h).base.toNat + (w h).len.toNat ≤ 64 → past = 0#32 → bad ≠ 0#32 →
        exec (.xgather o) s = .next (trapOf s h (.xgather o) (.plain cEcc 0x01#8 bad)))) ∧
  ∀ o : LrF,
    let tile (h : Here) (l : Fin 32) : List (Fin 32) := h.tile (h.exec o.k) l
    let mask (ls : List (Fin 32)) : Word := maskOf (fun m => ls.contains m)
    let nz (h : Here) (l : Fin 32) : List (Fin 32) := (tile h l).filter (fun m => (h.v o.a)[m] != 0#32)
    let lead (h : Here) (l : Fin 32) : List (Fin 32) :=
      (tile h l).filter (fun m => (tile h l).all (fun x => !decide (x < m) || (h.v o.a)[x] != (h.v o.a)[m]))
    let same (h : Here) (l : Fin 32) : List (Fin 32) := (tile h l).filter (fun m => (h.v o.a)[m] == (h.v o.a)[l])
    let out (h : Here) (l : Fin 32) : LaneOut := match o.f with
      | 0#3 => ⟨BitVec.ofNat 32 (nz h l).length, false, (nz h l).isEmpty, (nz h l).length == (tile h l).length, false, 0#5, 0#4⟩
      | 1#3 => ⟨mask (lead h l), false, (lead h l).contains l, false, false, 0#5, 0#4⟩
      | 2#3 => ⟨mask (nz h l), false, (nz h l).isEmpty, (nz h l).length == (tile h l).length, false, 0#5, 0#4⟩
      | _ => ⟨mask (same h l), false, same h l == [l], false, false, 0#5, 0#4⟩
    DoesCross (.xvote o) o.k o.d [o.a] (codesIf o.c codesZN) Here.tiled (fun h => h.exec o.k) (fun h l => (out h l).val) out

/-- R240 to R244: reductions and scans over tiles and segments, with the codes and classes of what they deliver (R243), and the
intersection of two lists. -/
def Obligations.ReductionsAndScans : Prop :=
  (∀ (rm : BitVec 2) (a x : Word),
    [0, 1, 2, 3, 4, 5, 6, 7].map (fun f : BitVec 3 => (redStep f rm a x).1) =
      [a + x, BitVec.ofNat 32 (fmaRes fmtF32 rm false [f32 x, f32 a] (f32 x) .one (f32 a)).bits, smaller a x, larger a x,
        smallerU a x, largerU a x, a &&& x, a ||| x]) ∧
  [0, 1, 2, 3, 4, 5, 6, 7].map redIdentity =
    [0#32, 0#32, 0x7FFFFFFF#32, 0x80000000#32, 0xFFFFFFFF#32, 0#32, 0xFFFFFFFF#32, 0#32] ∧
  (∀ (rm : BitVec 2) (a x : Word), (redStep 1#3 rm a x).2 = (fmaRes fmtF32 rm false [f32 x, f32 a] (f32 x) .one (f32 a)).flags ∧
    ∀ f : BitVec 3, f ≠ 1#3 → (redStep f rm a x).2 = 0#5) ∧
  (∀ (f : BitVec 3) (w : Word) (fl : Flags) (ins : List Word),
    let o := redOut f w fl ins
    o.val = w ∧ o.flags = fl ∧ (f = 1#3 → F32Codes w o ∧ ClassIs (f32 w).isNan (f32 w).isInf (ins.map f32) o.cls) ∧
      (f ≠ 1#3 → o.z = decide (w = 0#32) ∧ o.n = w.msb ∧ o.cls = 0#4)) ∧
  (∀ (o : LrF) (q : Instr × ScanForm), q ∈ [(.xred o, .red), (.xscan o, .scan), (.xscane o, .scane)] →
    let out (h : Here) (l : Fin 32) : LaneOut := redLane q.2 o.f h.f.view.rm (fun m => (h.v o.a)[m]) (h.tile (h.exec o.k) l) l
    DoesCross q.1 o.k o.d [o.a] (codesIf o.c (if o.f = 1#3 then codesAll else codesZN)) Here.tiled (fun h => h.exec o.k)
      (fun h l => (out h l).val) out) ∧
  (∀ (o : LrF) (q : Instr × ScanForm), q ∈ [(.xsegred o, .red), (.xsegscan o, .scan)] →
    let out (h : Here) (l : Fin 32) : LaneOut := redLane q.2 o.f h.f.view.rm (fun m => (h.v o.a)[m])
      (segmentOf (fun m => (h.v o.b)[m]) (h.tile (h.exec o.k) l) l) l
    DoesCross q.1 o.k o.d [o.a, o.b] (codesIf o.c (if o.f = 1#3 then codesAll else codesZN)) Here.tiled (fun h => h.exec o.k)
      (fun h l => (out h l).val) out) ∧
  ∀ o : LrN,
    let common (h : Here) (l : Fin 32) : List Word :=
      mergeCommon 65 ((h.tile (h.exec o.k) l).map (fun m => (h.v o.a)[m])) ((h.tile (h.exec o.k) l).map (fun m => (h.v o.b)[m]))
    let rank (h : Here) (l : Fin 32) : Nat := ((h.tile (h.exec o.k) l).filter (· < l)).length
    DoesCross (.xisect o) o.k o.d [o.a, o.b] ⟨false, true, false, false⟩ Here.tiled
      (fun h => h.exec o.k &&& maskOf (fun l => decide (rank h l < (common h l).length)))
      (fun h l => (common h l).getD (rank h l) 0#32)
      (fun h l => { LaneOut.idle with z := !decide (rank h l < (common h l).length) }) ∧
    ∀ xs ys : List Word, xs.length ≤ 32 → ys.length ≤ 32 → xs.Pairwise (· < ·) → ys.Pairwise (· < ·) →
      mergeCommon 65 xs ys = xs.filter (fun x => ys.contains x)

/-- R245, R246, R248, R261: queues in scratchpad: active lanes take slots in ascending order, one without a slot sets Z; a lane whose
element lies outside the allocation is removed, its slot counted. A descriptor address that is no multiple of 16 traps; one outside the
allocation removes every active lane. An element that overlaps its descriptor is left out (log 50). -/
def Obligations.Queues : Prop :=
  (∀ (o : LrN) (s : State) (h : Here) (x : Team) (q : Instr × Dst × List Src),
    q ∈ [(.qpush o, .none, [.reg o.b]), (.qpop o, .regs o.d 1, []), (.qlen o, .regs o.d 1, [])] →
    let a := (h.s o.a).toNat
    LaneReady .lane s h q.1 o.k q.2.1 none none q.2.2 false → teamOf s h = some x →
    (a % 16 ≠ 0 → exec q.1 s = .next (trapOf s h q.1 ⟨0x03#8, 0#8, h.exec o.k, (h.s o.a).setWidth 64, 0#64, 0⟩)) ∧
    (a % 16 = 0 → x.scratchSize < a + 16 → ∃ t h', exec q.1 s = .next t ∧ OnlyGroup s t h.r ∧ WentOn t h h' (h.after q.1) ∧
      { h'.g with frags := h.g.frags, removed := h.g.removed } = h.g ∧ h'.g.removed = h.g.removed ||| h.exec o.k ∧
      h'.f.view = h.f.view)) ∧
  ∀ (o : LrN) (s : State) (h : Here) (x : Team),
    let ex := h.exec o.k
    let a := (h.s o.a).toNat
    let head := (scratchWord x a).toNat
    let tail := (scratchWord x (a + 4)).toNat
    let cap := 2 ^ ((scratchWord x (a + 8)).toNat % 16)
    let base := (scratchWord x (a + 12)).toNat / 4 * 4
    let len := (tail + 2 ^ 32 - head) % 2 ^ 32
    let free := cap - len
    let n := (lanesIn ex).length
    let elem (k : Nat) : Nat := base + 4 * (k % cap)
    let inside (k : Nat) : Bool := decide (elem k + 4 ≤ x.scratchSize)
    s.memOk → teamOf s h = some x → a % 16 = 0 → a + 16 ≤ x.scratchSize →
    (∀ j, j < cap → base + 4 * j + 4 ≤ a ∨ a + 16 ≤ base + 4 * j) → x.scratchPoison = [] →
    (LaneReady .lane s h (.qpush o) o.k .none none none [.reg o.b] false →
      let out := ex &&& maskOf (fun l => decide (slotOf ex l < free) && !inside (tail + slotOf ex l))
      ∃ t h' y, exec (.qpush o) s = .next t ∧ OnlyPad s t h.r x.uid ∧ t.team? x.uid = some y ∧ h'.g.epoch = h.g.epoch + 1 ∧
        h'.g.removed = h.g.removed ||| out ∧ LaneWrote t h h' (.qpush o) 0#32 (ex &&& ~~~out) .none ⟨false, true, false, false⟩
          (fun _ _ => 0#32) (fun l => { LaneOut.idle with z := !decide (slotOf ex l < free) }) ∧
        (∀ l : Fin 32, ex.getLsbD l.val = true → slotOf ex l < free → inside (tail + slotOf ex l) = true →
          scratchWord y (elem (tail + slotOf ex l)) = (h.v o.b)[l]) ∧
        scratchWord y (a + 4) = BitVec.ofNat 32 (tail + min free n) ∧
        ∀ b, ¬(a + 4 ≤ b ∧ b < a + 8) → (∀ k, k < min free n → inside (tail + k) = true → ¬(elem (tail + k) ≤ b ∧ b < elem (tail + k) + 4)) →
          bytesGet y.scratch b = bytesGet x.scratch b) ∧
    (LaneReady .lane s h (.qpop o) o.k (.regs o.d 1) none none [] false →
      let took := ex &&& maskOf (fun l => decide (slotOf ex l < len))
      let out := took &&& maskOf (fun l => !inside (head + slotOf ex l))
      ∃ t h' y, exec (.qpop o) s = .next t ∧ OnlyPad s t h.r x.uid ∧ t.team? x.uid = some y ∧ h'.g.epoch = h.g.epoch + 1 ∧
        h'.g.removed = h.g.removed ||| out ∧ LaneWrote t h h' (.qpop o) (took &&& ~~~out) (ex &&& ~~~out) (.regs o.d 1)
          ⟨false, true, false, false⟩ (fun l _ => scratchWord x (elem (head + slotOf ex l)))
          (fun l => { LaneOut.idle with z := !decide (slotOf ex l < len) }) ∧
        scratchWord y a = BitVec.ofNat 32 (head + min len n) ∧
        ∀ b, ¬(a ≤ b ∧ b < a + 4) → bytesGet y.scratch b = bytesGet x.scratch b) ∧
    (LaneReady .lane s h (.qlen o) o.k (.regs o.d 1) none none [] false →
      ∃ t h', exec (.qlen o) s = .next t ∧ OnlyGroup s t h.r ∧ h'.g.epoch = h.g.epoch ∧ h'.g.removed = h.g.removed ∧
        LaneWrote t h h' (.qlen o) ex ex (.regs o.d 1) ⟨false, true, false, false⟩ (fun _ _ => BitVec.ofNat 32 len)
          (fun _ => { LaneOut.idle with z := decide (len = 0) }))

/-- R249, R250: `EMIT` sends one record for each active lane, in ascending order; a node index past the module's nodes traps. -/
def Obligations.Emission : Prop :=
  ∀ (o : LrN) (s : State) (h : Here) (x : Context), s.ctx? h.g.ctx = some x → Issues s h (.emit o) .lane → h.exec o.k ≠ 0#32 →
    let count := (moduleNodes x (moduleOf s h.g.launch)).length
    (count ≤ (h.s o.b).toNat → exec (.emit o) s = .next (trapOf s h (.emit o) (.plain cIllegal 0x03#8 h.lanes))) ∧
    ((h.s o.b).toNat < count → LaneReady .lane s h (.emit o) o.k .none none none ((regsFrom o.a 4).map Src.reg) false →
      isSpeculative s h = false →
      ∃ t h' rs, exec (.emit o) s = .next t ∧ WentOn t h h' (h.after (.emit o)) ∧ { h'.g with frags := h.g.frags } = h.g ∧
        h'.f.view = h.f.view ∧ t.emits = s.emits ++ rs ∧
        rs.map (fun e => (e.record.lane, e.record.node, e.record.payload, e.ctx)) = (lanesIn (h.exec o.k)).map (fun l =>
          (l.val, (h.s o.b).toNat, #v[(h.v o.a)[l], (h.v (o.a + 1#6))[l], (h.v (o.a + 2#6))[l], (h.v (o.a + 3#6))[l]], h.g.ctx)) ∧
        ((∀ r ∈ s.redgs, r.group ≠ h.g.uid) → (s.core h.r.core).engine.runs = [] → unregistered s h.r.core = [] →
          { t with cores := s.cores, emits := s.emits, fresh := s.fresh } = s ∧ ∀ a, homeByte t a = homeByte s a))

/-! ## Uniform instructions -/

/-- R189, R190: uniform arithmetic writes one register, as the fragment names it, and no code; R190 to R193: sums with carry, compares and
pairs; only these write the scalar codes, and none touches SCC.E. -/
def Obligations.UniformArithmetic : Prop :=
  ((∀ (o : GrB) (q : Instr × (Word → Word → Word)),
     q ∈ [(.sadd o, fun a b => a + b), (.ssub o, fun a b => a - b), (.sand o, fun a b => a &&& b), (.sor o, fun a b => a ||| b),
       (.sxor o, fun a b => a ^^^ b), (.sandn o, fun a b => a &&& ~~~b), (.sshl o, fun a b => a <<< amount b),
       (.sshr o, fun a b => a >>> amount b), (.ssra o, fun a b => a.sshiftRight (amount b)), (.smul o, fun a b => a * b),
       (.smulh o, highS), (.smulhu o, highU), (.smin o, smaller), (.smax o, larger), (.sminu o, smallerU), (.smaxu o, largerU)] →
     DoesS q.1 o.d (fun h => q.2 (h.s o.a) (h.s o.b)) (fun h => h.f.view.scc)) ∧
   (∀ o : GrU,
     DoesS (.sclz o) o.d (fun h => leadingZeros (h.s o.a)) (fun h => h.f.view.scc) ∧
     DoesS (.spopc o) o.d (fun h => oneBits (h.s o.a)) (fun h => h.f.view.scc) ∧
     DoesS (.smov o) o.d (fun h => h.s o.a) (fun h => h.f.view.scc)) ∧
   (∀ o : GrB, DoesS (.ssel o) o.d (fun h => if h.f.view.scc.n then h.s o.a else h.s o.b) (fun h => h.f.view.scc)) ∧
   (∀ (o : GiOp) (q : Instr × (Word → Word → Word)),
     q ∈ [(.saddi o, fun a b => a + b), (.sandi o, fun a b => a &&& b), (.sori o, fun a b => a ||| b), (.sxori o, fun a b => a ^^^ b)] →
     DoesS q.1 o.d (fun h => q.2 (h.s o.a) (immGi o.imm o.hi)) (fun h => h.f.view.scc)) ∧
   (∀ o : GiSh,
     DoesS (.sshli o) o.d (fun h => h.s o.a <<< o.sh.toNat) (fun h => h.f.view.scc) ∧
     DoesS (.sshri o) o.d (fun h => h.s o.a >>> o.sh.toNat) (fun h => h.f.view.scc)) ∧
   ∀ o : GiOne, DoesS (.smovi o) o.r (fun _ => immGi o.imm o.hi) (fun h => h.f.view.scc)) ∧
  ((∀ o : GrB,
     let i (h : Here) : Nat := h.f.view.scc.c.toNat
     DoesS (.saddc o) o.d (fun h => h.s o.a + h.s o.b + BitVec.ofNat 32 (i h)) (fun h =>
       let r := h.s o.a + h.s o.b + BitVec.ofNat 32 (i h)
       ⟨decide (2 ^ 32 ≤ (h.s o.a).toNat + (h.s o.b).toNat + i h), r == 0#32, r.msb,
         overflows ((h.s o.a).toInt + (h.s o.b).toInt + i h), h.f.view.scc.e⟩) ∧
     DoesS (.ssubb o) o.d (fun h => h.s o.a - h.s o.b - BitVec.ofNat 32 (i h)) (fun h =>
       let r := h.s o.a - h.s o.b - BitVec.ofNat 32 (i h)
       ⟨decide ((h.s o.a).toNat < (h.s o.b).toNat + i h), r == 0#32, r.msb,
         overflows ((h.s o.a).toInt - (h.s o.b).toInt - i h), h.f.view.scc.e⟩)) ∧
   (∀ o : GrC,
     DoesView (.scmp o) (fun h => { h.f.view with scc := cmpCodes (h.s o.a) (h.s o.b) h.f.view.scc.e }) ∧
     DoesView (.scmpu o) (fun h => { h.f.view with scc := ⟨decide ((h.s o.a).toNat < (h.s o.b).toNat), h.s o.a == h.s o.b,
       decide ((h.s o.a).toNat < (h.s o.b).toNat), false, h.f.view.scc.e⟩ }) ∧
     DoesView (.scmp64 o) (fun h =>
       let a := h.sp o.a
       let b := h.sp o.b
       { h.f.view with scc := ⟨decide (a.toNat < b.toNat), a - b == 0#64, (a - b).msb,
         decide (a.toInt - b.toInt < -2 ^ 63) || decide (2 ^ 63 ≤ a.toInt - b.toInt), h.f.view.scc.e⟩ })) ∧
   (∀ o : GiOne, DoesView (.scmpi o) (fun h => { h.f.view with scc := cmpCodes (h.s o.r) (immGi o.imm o.hi) h.f.view.scc.e })) ∧
   (∀ o : GrB,
     DoesSP (.sadd64 o) o.d (fun h => h.sp o.a + h.sp o.b) (fun h => h.f.view.scc) ∧
     DoesSP (.ssub64 o) o.d (fun h => h.sp o.a - h.sp o.b) (fun h => h.f.view.scc) ∧
     DoesSP (.sshl64 o) o.d (fun h => h.sp o.a <<< amount (h.s o.b)) (fun h => h.f.view.scc)) ∧
   ∀ o : GrU, DoesSP (.smov64 o) o.d (fun h => h.sp o.a) (fun h => h.f.view.scc))

/-- R233, R234: mask functions; `k0` reads all ones, `KSET` keeps to the fragment's lanes. -/
def Obligations.MaskFunctions : Prop :=
  (∀ (o : GmB) (q : Instr × (Word → Word → Word)),
    q ∈ [(.kand o, fun a b => a &&& b), (.kor o, fun a b => a ||| b), (.kxor o, fun a b => a ^^^ b), (.kandn o, fun a b => a &&& ~~~b)] →
    DoesK q.1 o.kd (fun h => q.2 (h.mask o.ka) (h.mask o.kb))) ∧
  (∀ (kd ka cond : KReg) (x : Reg),
    DoesK (.knot kd ka) kd (fun h => ~~~(h.mask ka)) ∧
    DoesK (.kmov kd x) kd (fun h => h.s x) ∧
    DoesK (.kset kd ka cond) kd (fun h => h.lanes &&& h.mask ka &&& maskOf (laneHolds h cond)) ∧
    DoesS (.ktos ka x) x (fun h => h.mask ka) (fun h => h.f.view.scc) ∧
    DoesS (.kpop ka x) x (fun h => oneBits (h.mask ka)) (fun h => h.f.view.scc) ∧
    DoesS (.kffs ka x) x (fun h => BitVec.ofNat 32 (((List.range 32).find? (fun i => (h.mask ka).getLsbD i)).getD 32))
      (fun h => h.f.view.scc))

/-- R28, R31, R64: in a split group every instruction that writes uniform state adds what it writes to the written set of its fragment;
a group that is not split keeps none, and a trap register of the handler is no element of it. -/
def Obligations.WrittenSets : Prop :=
  let scc (w : Written) : Written := { w with scc := true }
  (∀ o : GrB,
    (∀ i ∈ [.sadd o, .ssub o, .sand o, .sor o, .sxor o, .sandn o, .sshl o, .sshr o, .ssra o, .smul o, .smulh o, .smulhu o, .smin o, .smax o,
      .sminu o, .smaxu o, .ssel o], Notes i .control (fun h => h.noteS o.d)) ∧
    (∀ i ∈ [.saddc o, .ssubb o], Notes i .control (fun h w => scc (h.noteS o.d w))) ∧
    ∀ i ∈ [.sadd64 o, .ssub64 o, .sshl64 o], Notes i .control (fun h => h.noteSP o.d)) ∧
  (∀ o : GrU, (∀ i ∈ [.sclz o, .spopc o, .smov o], Notes i .control (fun h => h.noteS o.d)) ∧
    Notes (.smov64 o) .control (fun h => h.noteSP o.d)) ∧
  (∀ o : GrC, ∀ i ∈ [.scmp o, .scmpu o, .scmp64 o], Notes i .control (fun _ => scc)) ∧
  (∀ o : GiOp, ∀ i ∈ [.saddi o, .sandi o, .sori o, .sxori o], Notes i .control (fun h => h.noteS o.d)) ∧
  (∀ o : GiSh, ∀ i ∈ [.sshli o, .sshri o], Notes i .control (fun h => h.noteS o.d)) ∧
  (∀ o : GiOne, Notes (.smovi o) .control (fun h => h.noteS o.r) ∧ Notes (.scmpi o) .control (fun _ => scc)) ∧
  (∀ q : Instr × KReg, (∃ o : GmB, q ∈ [(.kand o, o.kd), (.kor o, o.kd), (.kxor o, o.kd), (.kandn o, o.kd)]) ∨
      (∃ kd ka : KReg, q = (.knot kd ka, kd)) ∨ (∃ (kd : KReg) (x : Reg), q = (.kmov kd x, kd)) ∨
      (∃ kd ka c : KReg, q = (.kset kd ka c, kd)) →
    Notes q.1 .control (fun _ w => { w with k := w.k ||| 1#8 <<< q.2.toNat })) ∧
  (∀ (ka : KReg) (x : Reg), ∀ i ∈ [.ktos ka x, .kpop ka x, .kffs ka x], Notes i .control (fun h => h.noteS x)) ∧
  (∀ (d : BitVec 2) (a : Reg) (n : BitVec 12), Notes (.win d a n) .control (fun _ w => { w with w := w.w ||| 1#4 <<< d.toNat })) ∧
  (∀ n : BitVec 12, Notes (.setpart n) .control (fun _ w => { w with part := true })) ∧
  (∀ a : Reg, Notes (.swr a 6#12) .control (fun _ w => { w with fp := true })) ∧
  (∀ (d : Reg) (n : BitVec 12), (n ∈ [2#12, 3#12, 4#12, 5#12, 6#12, 9#12, 10#12, 11#12] → Notes (.srd d n) .control (fun h => h.noteS d)) ∧
    (n ∈ [7#12, 8#12, 12#12, 13#12, 14#12] → Notes (.srd d n) .control (fun h => h.noteSP d))) ∧
  (∀ (d : Reg) (off : BitVec 12), Notes (.loop d off) .control (fun h => h.noteS d) (jumps := true)) ∧
  (∀ o : GjC, Notes (.call o) .control (fun h w => if scalarHolds h o.cond then h.noteSP 62#6 w else w) (jumps := true)) ∧
  (∀ o : GlOp, o.la = 0#4 → ∀ i ∈ [.sld o, .sldc o], Notes i .control (fun h => h.noteS o.d)) ∧
  (∀ o : GlS, Notes (.acqr o) .control (fun h => h.noteS o.d)) ∧
  (∀ (d a b : Reg) (sys pin : Bool), Notes (.frz d a b sys pin) .control (fun h w => scc (h.noteS d w))) ∧
  (∀ a : Reg, (∀ i ∈ [.thw a, .fwait a, .tsub a], Notes i .control (fun _ => scc)) ∧ Notes (.closeb a) .copy (fun h => h.noteS a)) ∧
  (∀ o : LrF, ∀ i ∈ [.xshfl o, .xgather o, .xvote o, .xred o, .xscan o, .xscane o, .xsegred o, .xsegscan o], Notes i .lane (fun _ => scc)) ∧
  ∀ o : LrN, Notes (.xisect o) .lane (fun _ => scc)

/-! ## Control -/

/-- R225, R229, R230, R232: branches on a condition, calls, returns, loops and `NOP`, with targets in words from the instruction. -/
def Obligations.Branches : Prop :=
  (∀ o : GjC,
    let target (h : Here) : DWord := h.f.pc + o.off.signExtend 64 * 4#64
    DoesJump (.bc o) (fun h => if scalarHolds h o.cond then target h else h.f.pc + 4#64) (fun h => h.f.view) ∧
    DoesGo (.call o) (fun h => if scalarHolds h o.cond then target h else h.f.pc + 4#64) (fun h h' =>
      if scalarHolds h o.cond then WritesSP h h' 62#6 (h.f.pc + 4#64) h.f.view.scc else WritesView h h' h.f.view)) ∧
  DoesJump .ret (fun h => h.sp 62#6 &&& 0xFFFFFFFFFFFFFFFC#64) (fun h => h.f.view) ∧
  DoesJump .nop (fun h => h.f.pc + 4#64) (fun h => h.f.view) ∧
  ∀ (d : Reg) (off : BitVec 12),
    DoesGo (.loop d off) (fun h => if h.s d = 1#32 then h.f.pc + 4#64 else h.f.pc + off.signExtend 64 * 4#64)
      (fun h h' => WritesS h h' d (h.s d - 1#32) h.f.view.scc)

/-- R226 to R228, R26: mask branches: whole, or for each slice on its own, where some slices go and some stay the fragment splits; the core
forgets the entry that the new fragment takes as its last issuer. -/
def Obligations.MaskBranches : Prop :=
  ∀ (o : GjM) (q : Instr × Bool), q ∈ [(.bmz o, false), (.bmnz o, true)] →
    let target (h : Here) : DWord := h.f.pc + o.off.signExtend 64 * 4#64
    (o.s = false → DoesJump q.1 (fun h => if (h.lanes &&& h.mask o.m != 0#32) = q.2 then target h else h.f.pc + 4#64) (fun h => h.f.view)) ∧
    ∀ (s : State) (h : Here), Issues s h q.1 .control → o.s = true →
      let h1 := h.settled s
      let set : BitVec 8 := BitVec.ofFnLE (fun i : Fin 8 => h1.f.slices.getLsbD i.val &&
        ((h1.lanes &&& h1.mask o.m).extractLsb' (4 * i.val) 4 != 0#4))
      let go : BitVec 8 := if q.2 then set else h1.f.slices &&& ~~~set
      (h.inHandler = true → ∃ t h', exec q.1 s = .next t ∧
        SettledOn s t h1 h' (if (h1.lanes &&& h1.mask o.m != 0#32) = q.2 then target h else h.f.pc + 4#64) h1.f.view) ∧
      (h.inHandler = false → go = 0#8 ∨ go = h1.f.slices ∨ target h = h.f.pc + 4#64 → ∃ t h', exec q.1 s = .next t ∧
        SettledOn s t h1 h' (if go = 0#8 then h.f.pc + 4#64 else target h) h1.f.view ∧ h'.f.slices = h.f.slices) ∧
      (h.inHandler = false → go ≠ 0#8 → go ≠ h1.f.slices → target h ≠ h.f.pc + 4#64 → (∃ j : Fin 8, h.g.frags[j] = none) →
        ∃ t h' j f, exec q.1 s = .next t ∧
          SettledOn (s.setCore h.r.core ((s.core h.r.core).forgetIssuer h.g.uid j)) t h1 h' (h.f.pc + 4#64) h1.f.view ∧
          h'.f.slices = h.f.slices &&& ~~~go ∧
          h.g.frags[j] = none ∧ h'.g.frags[j] = some f ∧ f.slices = go ∧ f.pc = target h ∧ f.status = .ready ∧ f.view = h1.f.view ∧
          ∀ i : Fin 8, i ≠ j → i ≠ h.r.frag → h'.g.frags[i] = h.g.frags[i])

/-- R30 to R32: `REGANG` alone or in a handler only settles; else the fragment waits, until all that live wait at a `REGANG`. Then those
at each address fuse into one with all their slices, each element of its view from the lowest-sliced fragment that wrote it; where one
fragment is left, its written set is empty and the pending kills take effect. -/
def Obligations.Regang : Prop :=
  ∀ (s : State) (h : Here), Issues s h .regang .control →
    let h1 := h.settled s
    let g1 := h1.group
    let there (p : DWord) : List Frag :=
      (g1.bySlice (fun f => f.status != .exited && f.pc == p)).filterMap (fun i => g1.frags[i])
    (h.inHandler = true ∨ h.g.single = true → ∃ t h', exec .regang s = .next t ∧ SettledOn s t h1 h' (h.f.pc + 4#64) h1.f.view) ∧
    (h.inHandler = false → (∃ (j : Fin 8) (f : Frag), j ≠ h.r.frag ∧ h.g.frags[j] = some f ∧ f.status ≠ .exited ∧
        f.status ≠ .waiting .regang ∧ f.slices ≠ 0#8 ∧ ∀ (i : Fin 8) (g : Frag), i ≠ j → h.g.frags[i] = some g → f.slices &&& g.slices = 0#8) →
      ∃ t h', exec .regang s = .next t ∧ t.at? h.r = some h' ∧ h'.f.status = .waiting .regang ∧ h'.f.pc = h.f.pc ∧
        ∀ i : Fin 8, i ≠ h.r.frag → h'.g.frags[i] = h.g.frags[i]) ∧
    (h.inHandler = false → h.g.single = false →
      (∀ j ∈ h.g.live, j ≠ h.r.frag → ∃ f, h.g.frags[j] = some f ∧ f.status = .waiting .regang) →
      (∀ (j : Fin 8) (f : Frag), h.g.frags[j] = some f → f.slices ≠ 0#8) →
      (∀ (i j : Fin 8) (f g : Frag), i ≠ j → h.g.frags[i] = some f → h.g.frags[j] = some g → f.slices &&& g.slices = 0#8) →
      ∃ t g', exec .regang s = .next t ∧ t.group? h.r.core h.r.slot = some g' ∧
        (∀ p, there p ≠ [] → ∃ (j : Fin 8) (f : Frag), g'.frags[j] = some f ∧ f.pc = p + 4#64 ∧ f.status = .ready ∧ f.pending = [] ∧
          (∀ k, f.slices.getLsbD k = (there p).any (fun x => x.slices.getLsbD k)) ∧ FusedView (there p) f.view ∧
          (g'.live ≠ [j] → ∀ k, f.written.s.getLsbD k = (there p).any (fun x => x.written.s.getLsbD k)) ∧
          (g'.live = [j] → f.written = Written.empty)) ∧
        (∀ j ∈ g'.live, ∃ f p, g'.frags[j] = some f ∧ f.pc = p + 4#64 ∧ there p ≠ []) ∧
        ((∀ j ∈ g1.live, ∃ f, g1.frags[j] = some f ∧ f.pc = h.f.pc) → g'.live.length = 1 ∧ g'.killSet = 0#64 ∧
          ∀ n : Reg, regGet g'.v n = if h1.g.killSet.getLsbD n.toNat then none else regGet h1.g.v n) ∧
        ((∃ j ∈ g1.live, ∃ f, g1.frags[j] = some f ∧ f.pc ≠ h.f.pc) → g'.killSet = h1.g.killSet ∧ g'.v = h1.g.v))

/-- R33, R32, R30, R53, R371: `EXIT` ends the fragment's slices. Of several others left, one of them at neither `REGANG` nor `BAR`, all go
on as they were; one alone that is left keeps no written set, and the pending kills take effect; all that wait at `REGANG` fuse, those at
each address. A group's last fragment drops every mapping, and the team ends with its last group. R297: where all the others wait at
`BAR`, so that the group arrives with this end, `REL.core` comes first, and the fragment waits for it. -/
def Obligations.Exit : Prop :=
  (∀ (s : State) (h : Here), Issues s h .exit .control →
    let h1 := h.settled s
    let others : List (Fin 8) := h.g.live.filter (fun j => j != h.r.frag)
    let there (p : DWord) : List Frag :=
      (h.g.bySlice (fun f => f.status != .exited && f.pc == p)).filterMap (fun i => if i = h.r.frag then none else h.g.frags[i])
    let runs (j : Fin 8) : Prop := ∃ f, h.g.frags[j] = some f ∧ f.status ≠ .waiting .regang ∧ f.status ≠ .waiting .bar
    h.inHandler = false → (∀ (j : Fin 8) (f : Frag), h.g.frags[j] = some f → f.slices ≠ 0#8) →
    (∀ (i j : Fin 8) (f g : Frag), i ≠ j → h.g.frags[i] = some f → h.g.frags[j] = some g → f.slices &&& g.slices = 0#8) →
    (2 ≤ others.length → (∃ j ∈ others, runs j) → ∃ t g', exec .exit s = .next t ∧ t.at? h.r = none ∧
      t.group? h.r.core h.r.slot = some g' ∧ g'.killSet = h1.g.killSet ∧ g'.v = h1.g.v ∧
      ∀ i : Fin 8, i ≠ h.r.frag → g'.frags[i] = h.g.frags[i]) ∧
    (∀ j, others = [j] → runs j → ∃ t g', exec .exit s = .next t ∧ t.at? h.r = none ∧ t.group? h.r.core h.r.slot = some g' ∧
      g'.killSet = 0#64 ∧ (∀ n : Reg, regGet g'.v n = if h1.g.killSet.getLsbD n.toNat then none else regGet h1.g.v n) ∧
      g'.frags[j] = (h.g.frags[j]).map (fun f => { f with written := Written.empty })) ∧
    (others ≠ [] → (∀ j ∈ others, ∃ f, h.g.frags[j] = some f ∧ f.status = .waiting .regang) → ∃ t g', exec .exit s = .next t ∧
      t.group? h.r.core h.r.slot = some g' ∧
      (∀ p, there p ≠ [] → ∃ (j : Fin 8) (f : Frag), g'.frags[j] = some f ∧ f.pc = p + 4#64 ∧ f.status = .ready ∧ f.pending = [] ∧
        (∀ k, f.slices.getLsbD k = (there p).any (fun x => x.slices.getLsbD k)) ∧ FusedView (there p) f.view) ∧
      ∀ j ∈ g'.live, ∃ f p, g'.frags[j] = some f ∧ f.pc = p + 4#64 ∧ there p ≠ [])) ∧
  ∀ (s : State) (h : Here), Issues s h .exit .control →
    let arrives := (∃ j, j ∈ h.g.live ∧ j ≠ h.r.frag) ∧
      ∀ j ∈ h.g.live, j ≠ h.r.frag → ∃ f, h.g.frags[j] = some f ∧ f.status = .waiting .bar
    (arrives → GroupWaits s h → ∃ t h', exec .exit s = .next t ∧ WaitsAt t h h' .suspended []) ∧
    (¬arrives ∨ GroupReleased s h → ∃ t, exec .exit s = .next t ∧ t.at? h.r = none ∧
    ∀ (u : Nat) (x : Team), h.g.team = some u → s.team? u = some x → h.g.live = [h.r.frag] →
      (∀ (j : Fin 8) (f : Frag), j ≠ h.r.frag → h.g.frags[j] = some f → f.held = .no) →
      ((∃ j g, j ≠ h.r.slot ∧ s.group? h.r.core j = some g ∧ g.team = some u ∧ g.live ≠ []) →
        ∃ g y, t.group? h.r.core h.r.slot = some g ∧ (∀ n, regGet g.v n = none) ∧ t.team? u = some y ∧
          y.exited = x.exited ||| (1#32 <<< h.g.grpid)) ∧
      ((∀ j g, j ≠ h.r.slot → s.group? h.r.core j = some g → g.team = some u → g.live = []) → t.team? u = none))

/-- R194 to R203: taking a trap. A leap-program group stops; a fragment is held while another's handler runs; a trap in its own handler,
or with no trap entry, ends the team; else the handler is entered with R200's frame and R201's saved state, once what a release at `.grp`
carries out is done (R199); that the fragment waits where it stands until then is the model's reading (log 52). -/
def Obligations.TakingATrap : Prop :=
  ∀ (s : State) (h : Here) (w : Words) (x : TrapInfo), s.at? h.r = some h →
    let t := takeTrap s h w x
    let h1 := h.settled s
    (h.g.team = none → t.group? h.r.core h.r.slot = none ∧
      ∀ l, s.launch? h.g.launch = some l → ∃ y, t.launch? h.g.launch = some y ∧ y.stopped = true) ∧
    (∀ u, h.g.team = some u →
      (∀ d, h.g.handler = some d → d.frag ≠ h.r.frag → ∃ h', t.at? h.r = some h' ∧
        h'.f = { h.f with held := .stopped, status := .ready, ahead := [], passed := [] } ∧ OnlyGroup s t h.r) ∧
      (∀ d, h.g.handler = some d → d.frag = h.r.frag → (s.team? u).isSome = true → t.team? u = none) ∧
      (h.g.handler = none → trapEntry s h.g = none → (s.team? u).isSome = true → t.team? u = none) ∧
      (∀ e c, h.g.handler = none → trapEntry s h.g = some e → s.ctx? h.g.ctx = some c → s.memOk → GroupReleased s h →
        ∃ h', EnteredHandler s t h1 h' w x c e) ∧
      (∀ e, h.g.handler = none → trapEntry s h.g = some e → GroupWaits s h → ∃ h', WaitsAt t h h' .suspended h.f.passed))

/-- R205, R22, R21: `TRAP` and `BRK` take their traps with their codes as sub-causes; every instruction word outside its group's role, by
R21's classes of the encodings, traps `ROLE`. That a trap waits where it stands for what a release at `.grp` carries out is the model's
reading (log 52). -/
def Obligations.TrapInstructions : Prop :=
  (∀ (code : Byte) (s : State) (h : Here) (q : Instr × Word × Byte),
    q ∈ [(.trap code, 0x99#8 ++ 0#16 ++ code, 0x40#8), (.brk code, 0x9B#8 ++ 0#16 ++ code, 0x41#8)] → Issues s h q.1 .control →
    exec q.1 s = .next (takeTrap s h ⟨q.2.1, none⟩ ⟨q.2.2, code, h.lanes, 0#64, 0#64, 0⟩) ∧
    ∀ u e c, h.g.team = some u → h.g.handler = none → trapEntry s h.g = some e → s.ctx? h.g.ctx = some c → s.memOk → GroupReleased s h →
      ∃ t h', exec q.1 s = .next t ∧
        EnteredHandler s t (h.settled s) h' ⟨q.2.1, none⟩ ⟨q.2.2, code, h.lanes, 0#64, 0#64, 0⟩ c e) ∧
  ([Role.copy, .matrix, .vector, .combined].map (fun r =>
      [RoleClass.copy, .matrix, .padMove, .lane, .control].map (roleAllows r))) =
    [[true, false, false, false, true], [false, true, true, false, true], [false, false, true, true, true], [true, true, true, true, true]] ∧
  ∀ (i : Instr) (p : Option Payload) (w : Word) (s : State) (h : Here), encode i = some (p, w) → s.here? = some h → h.g.team.isSome = true →
    roleAllows h.g.role (wordClass w) = false → exec i s = .next (trapOf s h i ⟨0x04#8, 0#8, h.lanes, 0#64, 0#64, 0⟩)

/-- R204, R34: `RTE` restores what entry saved and goes back to the instruction or past it; the fragments that stopped while the handler
ran become due, and the first of those that are due issues its instruction again, unless one that was released before has still to
commit. Outside a handler it traps `PRIV`. -/
def Obligations.ReturnFromHandler : Prop :=
  ∀ (s : State) (h : Here) (q : Instr × Bool), q ∈ [(.rteRetry, false), (.rteSkip, true)] → Issues s h q.1 .control →
    let h1 := h.settled s
    let waits (f : Frag) : Bool := f.held == .stopped || f.held == .due
    let due (f : Frag) : Frag := if f.held = .stopped then { f with held := .due } else f
    (h.inHandler = false → exec q.1 s = .next (trapOf s h q.1 (.plain 0x02#8 0x01#8 h.lanes))) ∧
    ∀ d, h.g.handler = some d → d.frag = h.r.frag → h.f.held = .no → ∃ t h', exec q.1 s = .next t ∧
      SettledOn s t h1 h' (if q.2 then d.pc + (if d.prefixed then 8#64 else 4#64) else d.pc) { h1.f.view with rm := d.rm, en := d.en } ∧
      h'.f.resume = (if q.2 then 0 else d.step) ∧ h'.g.handler = none ∧
      { h'.g with frags := h1.g.frags, handler := h1.g.handler, reissue := h1.g.reissue } = h1.g ∧
      (h1.g.reissue = none → ∀ i f, h1.g.bySlice waits = i :: f → h'.g.reissue = some i ∧
        (h'.g.frags[i] = (h1.g.frags[i]).map (fun x => { x with held := .no, status := .ready })) ∧
        ∀ j : Fin 8, j ≠ h.r.frag → j ≠ i → h'.g.frags[j] = (h.g.frags[j]).map due) ∧
      (h1.g.reissue.isSome = true ∨ h1.g.bySlice waits = [] → h'.g.reissue = h1.g.reissue ∧
        ∀ j : Fin 8, j ≠ h.r.frag → h'.g.frags[j] = (h.g.frags[j]).map due)

/-! ## Registers by name -/

/-- R54 to R58, R235: `KILL` unmaps its registers at once in a group of one fragment, and what is in flight into them is discarded when it
arrives, charged until then; else it marks them. `WIN` and `SETPART` set the view. That a `KILL` beside another fragment's handler names
all its registers is the model's choice (log 50). -/
def Obligations.KillsAndWindows : Prop :=
  (∀ (b : Reg) (m : BitVec 16) (s : State) (h : Here), Issues s h (.kill b m) .control →
    let named (n : Reg) : Bool := decide (b.toNat ≤ n.toNat) && m.getLsbD (n.toNat - b.toNat) && !(h.inHandler && decide (56 ≤ n.toNat))
    ∃ t h', exec (.kill b m) s = .next t ∧ OnlyGroup s t h.r ∧ WentOn t h h' (h.f.pc + 4#64) ∧ h'.f.view = h.f.view ∧
      (h.g.single = true → { h'.g with frags := h.g.frags, v := h.g.v } = h.g ∧
        (∀ n, regGet h'.g.v n = if named n then none else regGet h.g.v n) ∧
        h'.f.pending = h.f.pending.map (fun p => { p with
          left := p.left - 1
          regs := p.regs.map (fun r => if named r.reg = true ∧ r.dropped = false then { r with dropped := true, charged := true } else r) })) ∧
      (h.g.single = false → { h'.g with frags := h.g.frags, killSet := h.g.killSet } = h.g ∧
        h'.f.pending = h.f.pending.map (fun p => { p with left := p.left - 1 }) ∧
        ∀ n : Reg, h'.g.killSet.getLsbD n.toNat = (h.g.killSet.getLsbD n.toNat || named n))) ∧
  (∀ (d : BitVec 2) (a : Reg) (len : BitVec 12),
    DoesView (.win d a len) (fun h => { h.f.view with w := h.f.view.w.set d.toNat ⟨a, len.setWidth 7⟩ d.isLt })) ∧
  ∀ n : BitVec 12, DoesView (.setpart n) (fun h => { h.f.view with part := n.setWidth 32 })

/-- R65, R138, R209 to R211: every special register that can be read, and the write of `FPC`. -/
def Obligations.SpecialRegisters : Prop :=
  (∀ (d : Reg) (q : BitVec 12 × (Fin 32 → Word)), q ∈ [(0#12, fun l => BitVec.ofNat 32 l.val), (1#12, fun l => BitVec.ofNat 32 (l.val / 4))] →
    ∀ s h, Issues s h (.srd d q.1) .control → h.lanes ≠ 0#32 →
      (h.raises h.lanes (.regs d 1) false = 0 ∨ h.group.charge + h.raises h.lanes (.regs d 1) false ≤ h.g.budget) →
      ∃ t h', exec (.srd d q.1) s = .next t ∧ LaneDone s t h h' (.srd d q.1) h.lanes (.regs d 1) codesNone (fun l _ => q.2 l)
        (fun _ => LaneOut.idle) h.f.view.scc) ∧
  (∀ (d : Reg) (s : State) (h : Here) (q : BitVec 12 × Word),
    q ∈ [(2#12, if h.g.team.isSome then BitVec.ofNat 32 h.g.grpid else 0xFFFFFFFF#32),
      (3#12, match h.g.team.bind s.team? with
        | some t => t.teamid
        | none => 0xFFFFFFFF#32),
      (4#12, match h.g.role with
        | .copy => 0#32
        | .matrix => 1#32
        | .vector => 2#32
        | .combined => 3#32),
      (5#12, h.f.view.part), (6#12, h.f.view.rm.setWidth 32 ||| (h.f.view.en.setWidth 32 <<< 4) ||| (h.g.sticky.setWidth 32 <<< 8)),
      (9#12, BitVec.ofNat 32 h.g.ctx), (10#12, BitVec.ofNat 32 h.r.core.val), (11#12, BitVec.ofNat 32 (h.r.core.val / 64))] →
    Issues s h (.srd d q.1) .control → ∃ t h', exec (.srd d q.1) s = .next t ∧ OnlyGroup s t h.r ∧
      WentOn t h h' (h.f.pc + 4#64) ∧ UniformFrame h h' ∧ WritesS h h' d q.2 h.f.view.scc) ∧
  (∀ (d : Reg) (s : State) (h : Here) (q : BitVec 12 × DWord),
    q ∈ [(7#12, BitVec.ofNat 64 (max (s.timeAt h.r.core) h.g.timeFloor)),
      (8#12, match s.ctx? h.g.ctx with
        | some x => BitVec.ofNat 64 (x.saveArea + 128 * (64 * h.r.core.val + h.r.slot.val))
        | none => 0#64),
      (12#12, (s.core h.r.core).rhit), (13#12, (s.core h.r.core).rmiss), (14#12, (s.core h.r.core).rcoll)] →
    Issues s h (.srd d q.1) .control → ∃ t h', exec (.srd d q.1) s = .next t ∧ OnlyGroup s t h.r ∧
      WentOn t h h' (h.f.pc + 4#64) ∧ { h'.g with frags := h.g.frags, hs := h.g.hs, timeFloor := h.g.timeFloor } = h.g ∧
      h'.g.timeFloor = (if q.1 = 7#12 then max (s.timeAt h.r.core) h.g.timeFloor else h.g.timeFloor) ∧
      WritesSP h h' d q.2 h.f.view.scc) ∧
  ∀ (a : Reg) (s : State) (h : Here), Issues s h (.swr a 6#12) .control → ∃ t h', exec (.swr a 6#12) s = .next t ∧
    OnlyGroup s t h.r ∧ WentOn t h h' (h.f.pc + 4#64) ∧ { h'.g with frags := h.g.frags, sticky := h.g.sticky } = h.g ∧
    h'.g.sticky = (h.s a).extractLsb' 8 5 ∧
    h'.f.view = { h.f.view with rm := (h.s a).extractLsb' 0 2, en := (h.s a).extractLsb' 4 4 }


/-! ## Rounding -/

/-- R139 to R141: rounding an exact value ±m·2^e to each format: of the magnitudes of all encodings, the exponent going on past the
format's own, it takes the one that the mode asks for, with its sign, NX where it differs and UF where it is then below the smallest
normal; where that one is past the largest finite value it overflows as R140's table says. Encodings and their magnitudes rise
together. -/
def Obligations.Rounding : Prop :=
  ∀ (f : FloatFmt), f ∈ floatFormats →
    (∀ (b : Nat) (k : Int), b ≤ f.maxEnc → k ≤ f.lowest → ∃ m e, FVal.decode f b = .fin false m e ∧ k ≤ e ∧ m * 2 ^ (e - k).toNat = f.mag k b) ∧
    (∀ (b : Nat) (k : Int), k ≤ f.lowest → f.mag k b < f.mag k (b + 1)) ∧
    ∀ (rm : BitVec 2) (sat neg : Bool) (m : Nat) (e k : Int), k ≤ e → k ≤ f.lowest →
      Delivers f rm sat neg k (cutOf (m * 2 ^ (e - k).toNat) 1) (roundVal f rm sat neg m e false)

/-! ## `MVT` -/

/-- R178 to R180, R71, R218: `MVT` without lookahead over a frozen matrix: each lane's row i is the chain from its bias over the row's
weights and the lane's inputs; a row that reads a poisoned granule poisons its result, and no other (log 48). Where the reuse table holds
it, its results and flags are taken. R94: under lookahead the rows are in flight. R148: an enabled class traps. -/
def Obligations.VectorTransform : Prop :=
  ∀ (o : MvtOp) (s : State) (h : Here) (p : Nat → Place),
    let m := o.m1.toNat + 1
    let n := o.n1.toNat + 1
    let ex := h.exec o.k
    let word (w : Nat) : Word :=
      homeByte s ((p w).pa + 3) ++ homeByte s ((p w).pa + 2) ++ homeByte s ((p w).pa + 1) ++ homeByte s (p w).pa
    let row (l : Fin 32) (i : Nat) : LaneOut := chainOut h.f.view.rm (word (i * (n + 1) + n))
      ((List.range n).map (fun j => (f32 (word (i * (n + 1) + j)), f32 (h.v (o.a + BitVec.ofNat 6 j))[l])))
    let out (l : Fin 32) : LaneOut := { LaneOut.idle with
      flags := (List.range m).foldl (fun f i => f ||| (row l i).flags) 0#5, cls := (List.range m).foldl (fun c i => c ||| (row l i).cls) 0#4 }
    let hit (c : Fin 4) : LaneMask := ex &&& maskOf (fun l => (out l).cls.getLsbD c.val)
    let bad (i : Nat) : Prop := ∃ j, j ≤ n ∧ s.poisoned (p (i * (n + 1) + j)).pa 4 = true
    let srcs := (regsFrom o.a n).map Src.reg
    let entry := s.reuseFind h.r.core (h.reuseKey ⟨.mvt o, o.k, .regs o.d m, none, none, srcs, [o.b, o.b + 1#6], some 0⟩ ex
      (ex != 0xFFFFFFFF#32) (some (memKeyOf s h ((List.range (m * (n + 1))).map (fun w => (p w).pa)))))
    (LaneReady .lane s h (.mvt o) o.k (.regs o.d m) none none srcs true → noLookahead o.la h →
      (∀ w, w < m * (n + 1) →
        check1 s h .load .mustFreeze 4 4 (h.sp o.b + BitVec.ofNat 64 (4 * o.off.toNat) + BitVec.ofNat 64 (4 * w)) = .ok (p w)) →
      (entry = none → quiet h ex out → (∀ i, i < m → ¬bad i) → ∃ s1 t h', exec (.mvt o) s = .next t ∧ Accounted s s1 h.r.core ∧
        LaneDone s1 t h h' (.mvt o) ex (.regs o.d m) codesNone (fun l i => (row l i).val) out h.f.view.scc) ∧
      (entry = none → quiet h ex out → ∃ s1 t h', exec (.mvt o) s = .next t ∧ Accounted s s1 h.r.core ∧ OnlyGroup s1 t h.r ∧
        WentOn t h h' (h.after (.mvt o)) ∧ h'.f.view = h.f.view ∧ LaneFrame h h' (.regs o.d m) ex ∧
        ∀ (i : Nat) (l : Fin 32), i < m → ex.getLsbD l.val = true → (h'.v (o.d + BitVec.ofNat 6 i))[l] = (row l i).val ∧
          ((h'.vreg (o.d + BitVec.ofNat 6 i)).poison.getLsbD l.val = true ↔ bad i)) ∧
      ∀ e, entry = some e → e.results.length = m → ∃ s1 t h', exec (.mvt o) s = .next t ∧ Accounted s s1 h.r.core ∧
        LaneDone s1 t h h' (.mvt o) ex (.regs o.d m) codesNone (fun l j => ((e.results.map (fun r => r.2[l])).getD j 0#32))
          (fun _ => { LaneOut.idle with flags := e.flags }) h.f.view.scc) ∧
    (LaneReady .lane s h (.mvt o) o.k (.regs o.d m) none none srcs true →
      (∀ w, w < m * (n + 1) →
        check1 s h .load .mustFreeze 4 4 (h.sp o.b + BitVec.ofNat 64 (4 * o.off.toNat) + BitVec.ofNat 64 (4 * w)) = .ok (p w)) →
      (entry = none → o.la ≠ 0#4 → h.f.view.en = 0#4 → ∃ s1 t h', exec (.mvt o) s = .next t ∧ Accounted s s1 h.r.core ∧
        LaneFlew s1 t h h' (.mvt o) o.la (h.without o.d m) ex ex 0#32 o.d m (fun l i => (row l i).val) (fun _ i => bad i)
          (fun l => (out l).flags) (0#32, 0#32)) ∧
      (∀ e, entry = some e → e.results.length = m → o.la ≠ 0#4 → h.f.view.en = 0#4 → ∃ s1 t h', exec (.mvt o) s = .next t ∧
        Accounted s s1 h.r.core ∧ LaneFlew s1 t h h' (.mvt o) o.la (h.without o.d m) ex ex 0#32 o.d m
          (fun l j => ((e.results.map (fun r => r.2[l])).getD j 0#32)) (fun _ _ => False) (fun _ => e.flags) (0#32, 0#32)) ∧
      ∀ c : Fin 4, entry = none → h.f.view.en.getLsbD c.val = true → hit c ≠ 0#32 →
        (∀ b : Fin 4, b < c → h.f.view.en.getLsbD b.val = true → hit b = 0#32) → ∃ s1 s2, Accounted s s1 h.r.core ∧
          Counted s1 s2 h.r.core ∧ exec (.mvt o) s = .next (trapOf s2 h (.mvt o) (.plain (0x30#8 + BitVec.ofNat 8 c.val) 0#8 (hit c)))) ∧
    (Issues s h (.mvt o) .lane → ex = 0#32 →
      ∃ t h', exec (.mvt o) s = .next t ∧ GoesOn s t h h' (h.after (.mvt o)) h.f.view)

/-! ## Uniform memory, fences, barriers -/

/-- R287, R324, R285, R397: uniform loads and stores: `SLD` reads the word that the core's own stores and the home give, `SLDC` the home's word of
frozen bytes, `SST` stores one word and ends the reuse epoch; every other byte at its home stays. Under lookahead `SLD` and `SLDC` only
note their results. In an observed launch the core keeps the word (R397). -/
def Obligations.UniformMemory : Prop :=
  (∀ (h : Here) (p : BitVec 5) (imm : BitVec 9) (hi : Option (BitVec 24)), glAddr h p imm hi =
    h.sp (BitVec.ofNat 6 (2 * p.toNat)) + (match hi with
      | none => imm.signExtend 64
      | some x => (x ++ imm).signExtend 64) * 4#64) ∧
  ∀ (o : GlOp) (s : State) (h : Here) (p : Place),
    let va := glAddr h o.p o.imm o.hi
    let w := uniWordAt s h.r.core p
    s.memOk →
    (Issues s h (.sld o) .control → check1 s h .load .none 4 4 va = .ok p → s.poisoned p.pa 4 = false →
      (o.la = 0#4 → ∃ t h', exec (.sld o) s = .next t ∧ OnlyMemory (noteLoaded s h [(va, w)]) t h.r ∧ WentOn t h h' (h.after (.sld o)) ∧ UniformFrame h h' ∧
        WritesS h h' o.d w h.f.view.scc ∧ ∀ a, ¬InWord p.pa a → homeByte t a = homeByte s a) ∧
      (o.la ≠ 0#4 → ∃ t h' x, exec (.sld o) s = .next t ∧ OnlyMemory (noteLoaded s h [(va, w)]) t h.r ∧ WentOn t h h' (h.after (.sld o)) ∧
        { h'.g with frags := h.g.frags } = h.g ∧ h'.f.view = h.f.view ∧
        h'.f.pending = (dropUniform h.f.pending o.d).map (fun q => { q with left := q.left - 1 }) ++ [x] ∧ x.left = o.la.toNat ∧
        x.regs = [] ∧ x.zMask = 0#32 ∧ x.uni = [(o.d, w)])) ∧
    (Issues s h (.sldc o) .control → check1 s h .load .mustFreeze 4 4 va = .ok p → s.poisoned p.pa 4 = false →
      let x := homeByte s (p.pa + 3) ++ homeByte s (p.pa + 2) ++ homeByte s (p.pa + 1) ++ homeByte s p.pa
      ∃ s1 t h', exec (.sldc o) s = .next t ∧ Accounted s s1 h.r.core ∧ OnlyGroup s1 t h.r ∧ WentOn t h h' (h.after (.sldc o)) ∧
        (o.la = 0#4 → UniformFrame h h' ∧ WritesS h h' o.d x h.f.view.scc) ∧
        (o.la ≠ 0#4 → { h'.g with frags := h.g.frags } = h.g ∧ h'.f.view = h.f.view ∧ ∃ q,
          h'.f.pending = (dropUniform h.f.pending o.d).map (fun q => { q with left := q.left - 1 }) ++ [q] ∧ q.left = o.la.toNat ∧
          q.regs = [] ∧ q.zMask = 0#32 ∧ q.uni = [(o.d, x)])) ∧
    (Issues s h (.sst o) .control → check1 s h .store .mustThaw 4 4 va = .ok p →
      ∃ t h', exec (.sst o) s = .next t ∧ OnlyMemory s t h.r ∧ WentOnWriting t h h' (.sst o) 0#32 ∧
        (∀ j, j < 4 → loadByte t h.r.core p (p.pa + j) = (h.s o.d).extractLsb' (8 * j) 8) ∧
        ∀ a, ¬InWord p.pa a → homeByte t a = homeByte s a ∧ ∀ c q, loadByte t c q a = loadByte s c q a)

/-- R293 to R296: with nothing of the group's or its core's outstanding a release completes, and from `.die` on every byte at its home is
the one that the core's stores gave; an outstanding write of the core keeps the fragment waiting (of writes that a core registers, the
model does not tell whose they are: it waits for all). An acquire from `.die` on drops clean bytes and, like
`FENCE`, ends the reuse epoch; `RELS` stores after its release; `ACQR` reads a word that no other core is asked for, and asks the cores
in the line's writer hint, and those that left it while they owed older writes (log 51). An instruction that waits keeps the place that
its checks have found (log 49). -/
def Obligations.AcquireAndRelease : Prop :=
  (∀ (sc : Scope) (s : State) (h : Here) (q : Instr × Bool), q ∈ [(.fence sc, true), (.rel sc, false)] → s.memOk → Issues s h q.1 .control →
    (Released s h → ∃ t h', exec q.1 s = .next t ∧ OnlyMemory s t h.r ∧ WentOn t h h' (h.f.pc + 4#64) ∧ h'.f.view = h.f.view ∧
      { h'.g with frags := h.g.frags, epoch := h.g.epoch } = h.g ∧ h'.g.epoch = h.g.epoch + (if q.2 then 1 else 0) ∧
      (wideScope sc → unregistered t h.r.core = [] ∧ (∀ a, homeByte t a = copySource s h.r.core a) ∧ (q.2 = true → NoClean t h.r.core)) ∧
      (¬wideScope sc → ∀ a, homeByte t a = homeByte s a)) ∧
    (wideScope sc → (∃ w ∈ s.writes, w.core = h.r.core) → ∃ t h', exec q.1 s = .next t ∧ WaitsAt t h h' .suspended [])) ∧
  (∀ (sc : Scope) (s : State) (h : Here), s.memOk → Issues s h (.acq sc) .control →
    ∃ t h', exec (.acq sc) s = .next t ∧ OnlyMemory s t h.r ∧ WentOnWriting t h h' (.acq sc) 0#32 ∧
      (∀ a, homeByte t a = homeByte s a) ∧ (wideScope sc → NoClean t h.r.core)) ∧
  (∀ (o : GlS) (s : State) (h : Here) (p : Place), s.memOk → Issues s h (.rels o) .control →
    check1 s h .store .mustThaw 4 4 (glAddr h o.p o.imm o.hi) = .ok p →
    (Released s h → ∃ t h', exec (.rels o) s = .next t ∧ OnlyMemory s t h.r ∧ WentOnWriting t h h' (.rels o) 0#32 ∧
      homeWord t h.r.core p.pa = h.s o.d ∧ (∀ a, ¬InWord p.pa a → copySource t h.r.core a = copySource s h.r.core a) ∧
      (wideScope o.scope → ∀ a, ¬InWord p.pa a → homeByte t a = copySource s h.r.core a)) ∧
    (wideScope o.scope → (∃ w ∈ s.writes, w.core = h.r.core) → ∃ t h', exec (.rels o) s = .next t ∧
      WaitsAt t h h' (.rels (glAddr h o.p o.imm o.hi)) (if h.f.passed = [] then [⟨glAddr h o.p o.imm o.hi, 4, p⟩] else h.f.passed))) ∧
  ∀ (o : GlS) (s : State) (h : Here) (p : Place), s.memOk → Issues s h (.acqr o) .control →
    check1 s h .load .none 4 4 (glAddr h o.p o.imm o.hi) = .ok p → s.poisoned p.pa 4 = false →
    let asked : List (Fin 256) := hintTargets s h.r.core (p.pa / 128)
    let owes (c : Fin 256) : Prop := (p.pa / 128, c.val) ∈ s.hints ∨ (p.pa / 128, c.val) ∈ s.owing
    (¬wideScope o.scope ∨ asked = [] → ∃ t h', exec (.acqr o) s = .next t ∧
      OnlyMemory (noteLoaded s h [(glAddr h o.p o.imm o.hi, uniWordAt s h.r.core p)]) t h.r ∧ WentOn t h h' (h.after (.acqr o)) ∧
      { h'.g with frags := h.g.frags, hs := h.g.hs, epoch := h.g.epoch } = h.g ∧ h'.g.epoch = h.g.epoch + 1 ∧
      WritesS h h' o.d (uniWordAt s h.r.core p) h.f.view.scc ∧ (∀ a, ¬InWord p.pa a → homeByte t a = homeByte s a) ∧
      (wideScope o.scope → NoClean t h.r.core)) ∧
    (wideScope o.scope → asked ≠ [] → ∃ t h', exec (.acqr o) s = .next t ∧ WaitsAt t h h' (.promote s.fresh) (if h.f.passed = [] then [⟨glAddr h o.p o.imm o.hi, 4, p⟩] else h.f.passed) ∧
      t.promotions = s.promotions ++ asked.map (fun c => ⟨s.fresh, c, p.pa / 128⟩) ∧
      ∀ c, c ∈ asked ↔ c ≠ h.r.core ∧ owes c)

/-- R297, R35: at `BAR` the fragment waits until every live fragment of every group of its team does; then all go on and their reuse
epochs end. In a handler it traps. -/
def Obligations.TeamBarrier : Prop :=
  ∀ (s : State) (h : Here) (u : Nat), Issues s h .bar .control → h.g.team = some u →
    (h.inHandler = true → exec .bar s = .next (trapOf s h .bar (.plain 0x01#8 0x03#8 h.lanes))) ∧
    (h.inHandler = false → Released s h →
      ((∃ (j : Fin 64) (g : Group) (f : Fin 8) (x : Frag), j ≠ h.r.slot ∧ s.group? h.r.core j = some g ∧ g.team = some u ∧
          g.frags[f] = some x ∧ x.status ≠ .exited ∧ x.status ≠ .waiting .bar) →
        ∃ t h', exec .bar s = .next t ∧ t.at? h.r = some h' ∧ h'.f.status = .waiting .bar ∧ h'.f.pc = h.f.pc ∧
          h'.g.epoch = h.g.epoch) ∧
      ((∀ (j : Fin 64) (g : Group) (f : Fin 8) (x : Frag), s.group? h.r.core j = some g → g.team = some u → g.frags[f] = some x →
          (j ≠ h.r.slot ∨ f ≠ h.r.frag) → x.status = .exited ∨ x.status = .waiting .bar) →
        ∃ t, exec .bar s = .next t ∧
          ∀ (j : Fin 64) (g : Group) (f : Fin 8) (x : Frag), s.group? h.r.core j = some g → g.team = some u → g.frags[f] = some x →
            x.status ≠ .exited ∨ (j = h.r.slot ∧ f = h.r.frag) →
            ∃ g' y, t.group? h.r.core j = some g' ∧ g'.epoch = g.epoch + 1 ∧ g'.frags[f] = some y ∧ y.status = .ready ∧
              y.pc = x.pc + 4#64))

/-! ## Freezing, publishing, tasks -/

/-- R298, R271, R273, R275: `FRZ` of a legal, readable range with no publish pending: it raises the count of an identical entry, waits for an
identical one that thaws with its checks past (R195), installs the lowest free entry and waits for its freeze point, or freezes nothing; at
the freeze point its pin is applied and it takes the handle. R299, R300, R276: `THW` lowers a count and starts the thaw at 0, `FWAIT` waits
for a thaw and for the stores that wait on that generation of the entry alone, whatever has become of the entry. An entry before its freeze
point is `installing`, a state of the model's own: another `FRZ` of the range finds it, and `THW` and `FWAIT`, which need an active entry, do
not (log 15). -/
def Obligations.Freezing : Prop :=
  (∀ (d a b : Reg) (sys pin : Bool) (s : State) (h : Here) (x : Context), Issues s h (.frz d a b sys pin) .control →
    s.ctx? h.g.ctx = some x →
    let i : Instr := .frz d a b sys pin
    let lo := (h.sp a).toNat / 4096 * 4096
    let hi := ((h.sp a).toNat + (h.s b).toNat + 0xFFF) / 4096 * 4096
    let len := (hi - lo) / 4096
    let pinned (s1 : State) (x1 : Context) (n : Nat) : State := if pin then applyPin s1 x1 n else s1
    let past := passedAt s h 1 ((rangeParts 65536 lo hi).map (fun p => BitVec.ofNat 64 p.1))
    (h.f.resume = 0 → (h.s b = 0#32 ∨ 2 ^ 20 < len) → exec i s = .next (trapOf s h i (.plain 0x01#8 0x03#8 h.lanes))) ∧
    (h.f.resume = 0 → h.s b ≠ 0#32 → len ≤ 2 ^ 20 →
      (∀ p ∈ rangeParts 65536 lo hi, ∃ q, check1 s h .freeze .none 1 1 (BitVec.ofNat 64 p.1) = .ok q) →
      (∀ y ∈ x.buffers, 0 < y.2.pending → y.2.base < hi → y.2.base + y.2.size ≤ lo) →
      (∀ n e, x.findEntry lo len sys isFrozenState = some (n, e) → e.state = .active → e.count < 65535 →
        let x1 := x.setEntry n { e with count := e.count + 1 }
        ∃ t h', exec i s = .next t ∧ OnlyGroup (pinned (s.setCtx x1) x1 n) t h.r ∧ WentOn t h h' (h.f.pc + 4#64) ∧ UniformFrame h h' ∧
          WritesS h h' d ((e.gen <<< 10) ||| BitVec.ofNat 32 (n % 1024)) { h.f.view.scc with z := false }) ∧
      (∀ n e, x.findEntry lo len sys isFrozenState = some (n, e) → e.state = .installing → e.count < 65535 →
        ∃ t h', exec i s = .next t ∧ OnlyGroup (s.setCtx (x.setEntry n { e with count := e.count + 1 })) t h.r ∧
          WaitsAt t h h' (.freeze n) []) ∧
      (∀ n e, x.findEntry lo len sys isFrozenState = some (n, e) → 65535 ≤ e.count →
        ∃ t h', exec i s = .next t ∧ OnlyGroup s t h.r ∧ WentOn t h h' (h.f.pc + 4#64) ∧ UniformFrame h h' ∧
          WritesS h h' d 0#32 { h.f.view.scc with z := true }) ∧
      (x.findEntry lo len sys isFrozenState = none → (x.findEntry lo len sys (fun st => st == .thawing)).isSome = true →
        ∃ t h', exec i s = .next t ∧ WaitsAt t h h' .suspended past) ∧
      (x.findEntry lo len sys isFrozenState = none → x.findEntry lo len sys (fun st => st == .thawing) = none →
        ((∀ n, n < 1024 → (x.entry n).state ≠ .free) → ∃ t h', exec i s = .next t ∧ OnlyGroup s t h.r ∧
          WentOn t h h' (h.f.pc + 4#64) ∧ UniformFrame h h' ∧ WritesS h h' d 0#32 { h.f.view.scc with z := true }) ∧
        ∀ n, n < 1024 → (x.entry n).state = .free → (∀ m, m < n → (x.entry m).state ≠ .free) →
          ∃ t h', exec i s = .next t ∧ WaitsAt t h h' (.freeze n) [] ∧ OnlyGroup (s.setCtx
            (x.setEntry n ⟨.installing, lo, len, 1, (x.entry n).gen + 1#32, sys, false, rangeBlocks s x lo hi, []⟩)) t h.r)) ∧
    (h.f.resume = 0 → h.s b ≠ 0#32 → len ≤ 2 ^ 20 →
      (∀ p ∈ rangeParts 65536 lo hi, ∃ q, check1 s h .freeze .none 1 1 (BitVec.ofNat 64 p.1) = .ok q) →
      (∃ y ∈ x.buffers, 0 < y.2.pending ∧ y.2.base < hi ∧ lo < y.2.base + y.2.size) →
      ∃ t h', exec i s = .next t ∧ OnlyGroup s t h.r ∧ WaitsAt t h h' .suspended past) ∧
    (∀ n, h.f.resume = n + 1 → ∃ t h', exec i s = .next t ∧ OnlyGroup (pinned s x n) t h.r ∧ WentOn t h h' (h.f.pc + 4#64) ∧ UniformFrame h h' ∧
      WritesS h h' d (((x.entry n).gen <<< 10) ||| BitVec.ofNat 32 (n % 1024)) { h.f.view.scc with z := false })) ∧
  ∀ (a : Reg) (s : State) (h : Here) (x : Context), s.ctx? h.g.ctx = some x →
    let n := (h.s a).toNat % 1024
    let e := x.entry n
    let fits := e.gen.toNat % 2 ^ 22 = (h.s a).toNat / 1024
    let key := (x.id * 1024 + n, e.gen.toNat)
    let named (k : Nat × Nat × Nat) : Prop := k.1 = x.id ∧ k.2.1 = n ∧ k.2.2 % 2 ^ 22 = (h.s a).toNat / 1024
    let thaws (k : Nat × Nat × Nat) : Prop := ∃ y, s.ctx? k.1 = some y ∧ (y.entry k.2.1).state = .thawing ∧ (y.entry k.2.1).gen.toNat = k.2.2
    let stores := ∃ (c : Fin 256) (i : Fin 64) (j : Fin 8) (g : Group) (f : Frag) (keys : List (Nat × Nat × Nat)),
      (s.core c).slots[i] = some g ∧ g.frags[j] = some f ∧ f.status = .waiting (.thaw keys) ∧
      (∃ k ∈ keys, named k) ∧ ∀ k ∈ keys, ¬named k → ¬thaws k
    (Issues s h (.thw a) .control → isSpeculative s h = true →
      exec (.thw a) s = .next (trapOf s h (.thw a) (.plain 0x02#8 0#8 h.lanes))) ∧
    (Issues s h (.thw a) .control → isSpeculative s h = false →
      (e.state = .active → 1 < e.count → fits → ∃ t h', exec (.thw a) s = .next t ∧
        OnlyGroup (s.setCtx (x.setEntry n { e with count := e.count - 1 })) t h.r ∧ WentOn t h h' (h.f.pc + 4#64) ∧ UniformFrame h h' ∧
        WritesView h h' { h.f.view with scc := { h.f.view.scc with z := false } }) ∧
      (e.state = .active → e.count = 1 → fits → ∃ t h', exec (.thw a) s = .next t ∧
        OnlyGroup (evictGen (s.setCtx (x.setEntry n { e with count := 0, state := .thawing })) key).dropKept t h.r ∧
        WentOn t h h' (h.f.pc + 4#64) ∧ UniformFrame h h' ∧ WritesView h h' { h.f.view with scc := { h.f.view.scc with z := false } }) ∧
      (¬(e.state = .active ∧ 0 < e.count ∧ fits) → ∃ t h', exec (.thw a) s = .next t ∧ OnlyGroup s t h.r ∧
        WentOn t h h' (h.f.pc + 4#64) ∧ UniformFrame h h' ∧ WritesView h h' { h.f.view with scc := { h.f.view.scc with z := true } })) ∧
    let z (z : Bool) : Prop := ∃ t h', exec (.fwait a) s = .next t ∧ OnlyGroup s t h.r ∧ WentOn t h h' (h.f.pc + 4#64) ∧
      UniformFrame h h' ∧ WritesView h h' { h.f.view with scc := { h.f.view.scc with z := z } }
    (Issues s h (.fwait a) .control →
      (e.state = .active → fits → z true) ∧
      (¬(e.state = .active ∧ fits) → (e.state = .thawing ∧ fits) ∨ stores →
        ∃ t h', exec (.fwait a) s = .next t ∧ WaitsAt t h h' .suspended h.f.passed) ∧
      (¬(e.state = .active ∧ fits) → ¬(e.state = .thawing ∧ fits) → ¬stores → z false))

/-- R310: `PUBLISH` of a buffer whose pages are in device bias and not frozen adds a pending publish and waits; a number that names no
buffer, a page in host bias or transition and a frozen byte trap, the lowest first. R373: `TSUB` of a well-formed new block: with
predecessors it waits, or records the versions of its read set and is launched speculatively; without it is launched; the launch's
sequence number stands in the block; and a malformed or used block only sets Z. That `PUBLISH` ends the epoch when it issues (log 50), that
the launch of a `TSUB` takes the next number of the context's journal with an entry of its own (log 21), and that one which a
`TASK_SUBMIT` left waiting keeps that command's number (log 44), is the model's choice. -/
def Obligations.PublishingAndTasks : Prop :=
  (∀ (a : Reg) (sc : Scope) (s : State) (h : Here) (x : Context), Issues s h (.publish a sc) .control → s.ctx? h.g.ctx = some x →
    let n := (h.s a).toNat
    let i : Instr := .publish a sc
    (4095 < n ∨ tableFind x.buffers n = none → exec i s = .next (trapOf s h i (.plain 0x01#8 0x03#8 h.lanes))) ∧
    ∀ b, n ≤ 4095 → tableFind x.buffers n = some b →
      let pages := rangeParts 65536 b.base (b.base + b.size)
      let biased (p : Nat × Nat) : Prop := ∃ l, walk s x p.1 = .leaf l ∧ (l.bh = true ∨ l.bt = true)
      let blocks := rangeParts 4096 0 b.size
      (isSpeculative s h = true → exec i s = .next (trapOf s h i ⟨0x02#8, 0#8, h.lanes, BitVec.ofNat 64 b.base, 0#64, 0⟩)) ∧
      (isSpeculative s h = false → ∀ p ∈ pages, biased p → (∀ q ∈ pages, q.1 < p.1 → ¬biased q) →
        exec i s = .next (trapOf s h i ⟨0x12#8, 0x80#8, h.lanes, BitVec.ofNat 64 p.1, 0#64, 0⟩)) ∧
      (isSpeculative s h = false → (∀ p ∈ pages, ¬biased p) → ∀ p ∈ blocks, ∀ c k e, s.frozenBy (b.live + p.1) = some (c, k, e) →
        (∀ q ∈ blocks, q.1 < p.1 → s.isFrozen (b.live + q.1) = false) →
        exec i s = .next (trapOf s h i
          ⟨0x13#8, 0x05#8, h.lanes, BitVec.ofNat 64 (b.base + p.1), ((e.gen <<< 10) ||| BitVec.ofNat 32 (k % 1024)).setWidth 64, 0⟩)) ∧
      (isSpeculative s h = false → (∀ p ∈ pages, ¬biased p) → (∀ p ∈ blocks, s.isFrozen (b.live + p.1) = false) →
        ∃ t h', exec i s = .next t ∧
          OnlyGroup (s.setCtx { x with buffers := tablePut x.buffers n { b with pending := b.pending + 1 } }) t h.r ∧
          t.at? h.r = some h' ∧ h'.f = { h.f with status := .waiting (.publish n sc false) } ∧ h'.g.epoch = h.g.epoch + 1 ∧
          { h'.g with frags := h.g.frags, epoch := h.g.epoch } = h.g)) ∧
  ∀ (a : Reg) (s : State) (h : Here) (x : Context) (p : Place), s.memOk → Issues s h (.tsub a) .control → s.ctx? h.g.ctx = some x →
    Released s h → unregistered s h.r.core = [] → check1 s h .task .mustThaw 256 256 (h.sp a) = .ok p →
    let field (s : State) (off n : Nat) : Nat := fwRead s (p.pa + off) n
    let z (t : State) (h' : Here) (z : Bool) : Prop := exec (.tsub a) s = .next t ∧ WentOn t h h' (h.f.pc + 4#64) ∧ UniformFrame h h' ∧
      WritesView h h' { h.f.view with scc := { h.f.view.scc with z := z } }
    let taken := field s 0x0C 1 = 0 ∧ taskMalformed s x p.pa = false
    let entry := x.journalAt + 64 * (if x.journal.entries.length < x.journal.capacity then x.journal.entries.length
      else (x.journal.entries.head?.map (fun e => e.slot)).getD 0)
    let launched (t : State) (spec : Bool) : Prop := ∃ l, t.launches = s.launches ++ [l] ∧ l.ctx = x.id ∧ l.kind = .task p.pa spec ∧
      l.nextTeam = 0 ∧ l.module = field s 0 2 ∧ l.block = field s 2 2 ∧ l.grid = field s 8 4 ∧
      l.args = (List.range (field s 0x0F 1)).map (fun i => BitVec.ofNat 64 (field s (0x60 + 8 * i) 8)) ∧
      l.seq = (tableFind x.submitted p.pa).getD x.journal.next ∧ field t 0x18 8 = l.seq % 2 ^ 64
    (¬taken → ∃ t h', z t h' true ∧ OnlyGroup s t h.r) ∧
    (taken → field s 4 4 ≠ 0 → field s 0x0D 1 % 2 = 0 → ∃ t h', z t h' false ∧ OnlyMemory s t h.r ∧ field t 0x0C 1 = 1 ∧
      ∀ b, b ≠ p.pa + 0x0C → homeByte t b = homeByte s b) ∧
    (taken → field s 4 4 = 0 → entry + 64 ≤ p.pa ∨ p.pa + 256 ≤ entry → ∃ t h', z t h' false ∧ launched t false ∧ field t 0x0C 1 = 2 ∧
      ∀ b, b ≠ p.pa + 0x0C → ¬(p.pa + 0x18 ≤ b ∧ b < p.pa + 0x20) → ¬(entry ≤ b ∧ b < entry + 64) → homeByte t b = homeByte s b) ∧
    (taken → field s 4 4 ≠ 0 → field s 0x0D 1 % 2 = 1 → entry + 64 ≤ p.pa ∨ p.pa + 256 ≤ entry → ∃ t h', z t h' false ∧
      launched t true ∧ field t 0x0C 1 = 3 ∧
      (∀ i, i < field s 0x10 1 → ∀ b, tableFind x.buffers (field s (0x20 + 2 * i) 2) = some b → field t (0x40 + 4 * i) 4 = b.version.toNat) ∧
      ∀ b, b ≠ p.pa + 0x0C → ¬(p.pa + 0x18 ≤ b ∧ b < p.pa + 0x20) → ¬(p.pa + 0x40 ≤ b ∧ b < p.pa + 0x60) →
        ¬(entry ≤ b ∧ b < entry + 64) → homeByte t b = homeByte s b)

/-! ## Copies, batches, rings, run-ahead -/

/-- R301 to R303, R309: the four copies, row by row; the rows are cut into parts of one 4 KiB block each. A size, a row count, stage bits
without a ring or a destination partly inside a publish buffer trap first; then what `CopyDoes` says, with each address that must be a
multiple of 4 and the scratchpad address paired with it (R200): a row's global start with the row's scratchpad start, a scratchpad
address with itself. Which of several odd addresses is reported, and with which the copy of an odd size, is the model's choice (log 50);
an index list in a poisoned granule is read as it stands (log 50). -/
def Obligations.BulkCopies : Prop :=
  (∀ (a : DWord) (d n : Nat), a.toNat + n < 2 ^ 64 →
    ((rowParts (a, d, n)).flatMap (fun p => (List.range p.2.2).map (fun j => (p.1.toNat + j, p.2.1 + j)))) =
      (List.range n).map (fun j => (a.toNat + j, d + j)) ∧
    ∀ p ∈ rowParts (a, d, n), 0 < p.2.2 ∧ (p.1.toNat + p.2.2 - 1) / 4096 = p.1.toNat / 4096) ∧
  (∀ (o : GaC) (s : State) (h : Here) (x : Context) (u : Team), s.ctx? h.g.ctx = some x → teamOf s h = some u →
    let src := h.sp (pairReg o.p.toNat)
    let dst := (h.s o.a).toNat
    let n := if o.ring then (h.s o.b).toNat % 2 ^ 28 else (h.s o.b).toNat
    let stage : Option (Nat × Nat) := if o.ring then some (o.imm.toNat, (h.s o.b).toNat / 2 ^ 28) else none
    let word : List (Nat × Nat) := if o.ring then [(64 * o.imm.toNat + 4 * ((h.s o.b).toNat / 2 ^ 28), 4)] else []
    let rows := (h.s (o.b + 1#6)).toNat
    let third := h.s (o.b + 2#6)
    let flat : List (DWord × Nat × Nat) := (List.range rows).map (fun r =>
      (src + BitVec.ofNat 64 r * third.signExtend 64, dst + r * n, n))
    let taken : List (DWord × Nat × Nat) := (List.range rows).map (fun r =>
      (src + (scratchWord u (third.toNat + 4 * r)).signExtend 64 * BitVec.ofNat 64 n, dst + r * n, n))
    let bits := o.ring = false ∧ 2 ^ 28 ≤ (h.s o.b).toNat
    let legal := 4 ≤ n ∧ n ≤ 2 ^ 20 ∧ 1 ≤ rows ∧ rows ≤ 65535 ∧ rows * n ≤ 2 ^ 20
    let illegal (i : Instr) : Prop := exec i s = .next (trapOf s h i (.plain 0x01#8 0x03#8 h.lanes))
    (Issues s h (.cpy o) .copy →
      (bits ∨ 2 ^ 20 < n → illegal (.cpy o)) ∧
      (¬bits → n ≤ 2 ^ 20 →
        CopyDoes (.cpy o) s h x u false [(src, dst, n)] ((dst, n) :: word) [(src, dst), (BitVec.ofNat 64 dst, dst)] n stage none)) ∧
    (Issues s h (.cpy2d o) .copy →
      (bits ∨ ¬legal → illegal (.cpy2d o)) ∧
      (¬bits → legal → CopyDoes (.cpy2d o) s h x u false flat (flat.map (fun r => (r.2.1, r.2.2)) ++ word)
        [(src, dst), (BitVec.ofNat 64 dst, dst), (src + third.signExtend 64, dst + n)] n stage none)) ∧
    (Issues s h (.cpyg o) .copy →
      (bits ∨ ¬legal → illegal (.cpyg o)) ∧
      (¬bits → legal → CopyDoes (.cpyg o) s h x u false taken (taken.map (fun r => (r.2.1, r.2.2)) ++ (third.toNat, 4 * rows) :: word)
        [(src, dst), (BitVec.ofNat 64 dst, dst), (third.setWidth 64, third.toNat)] n stage none))) ∧
  ∀ (p : BitVec 5) (a b : Reg) (s : State) (h : Here) (x : Context) (u : Team), s.ctx? h.g.ctx = some x → teamOf s h = some u →
    Issues s h (.cpyo p a b) .copy →
    let dst := h.sp (pairReg p.toNat)
    let n := (h.s b).toNat
    let meets (y : Nat × PublishBuffer) : Prop := y.2.base < dst.toNat + n ∧ dst.toNat < y.2.base + y.2.size
    let inside (y : Nat × PublishBuffer) : Prop := meets y ∧ y.2.base ≤ dst.toNat ∧ dst.toNat + n ≤ y.2.base + y.2.size
    let goes (buffer : Option Nat) : Prop := CopyDoes (.cpyo p a b) s h x u true [(dst, (h.s a).toNat, n)] [((h.s a).toNat, n)]
      [(dst, (h.s a).toNat), ((h.s a).setWidth 64, (h.s a).toNat)] n none buffer
    let illegal := exec (.cpyo p a b) s = .next (trapOf s h (.cpyo p a b) (.plain 0x01#8 0x03#8 h.lanes))
    (2 ^ 20 < n → illegal) ∧ ((∃ y ∈ x.buffers, meets y) → (∀ y ∈ x.buffers, ¬inside y) → illegal) ∧
    (n ≤ 2 ^ 20 → (∀ y ∈ x.buffers, ¬meets y) → goes none) ∧
    (n ≤ 2 ^ 20 → ∀ y ∈ x.buffers, inside y → (∀ z ∈ x.buffers, meets z → z = y) → goes (some y.1))

/-- R304 to R308, R409 to R411: `CLOSEB` names the batch and opens the next; `WAITB` and `SWAIT` wait or go on with a new reuse epoch;
`SARRIVE` counts an arrival on a stage; `RAF` and `RAFG` queue line and element requests, each with the pair that anchors the image's
window, as the fragment holds it when it makes the request: that moment is the model's reading of R406 (log 27). -/
def Obligations.BatchesAndRings : Prop :=
  (∀ (a : Reg) (s : State) (h : Here), Issues s h (.closeb a) .copy →
    ∃ t h', exec (.closeb a) s = .next t ∧ OnlyGroup s t h.r ∧ WentOn t h h' (h.f.pc + 4#64) ∧ WritesS h h' a h.g.batch h.f.view.scc ∧
      h'.g.batch = (if h.g.batch = 0xFFFFFFFF#32 then 1#32 else h.g.batch + 1#32) ∧
      { h'.g with frags := h.g.frags, hs := h.g.hs, batch := h.g.batch, epoch := h.g.epoch } = h.g ∧
      ((∀ c ∈ s.copies, c.group = h.g.uid → c.batch ≠ some h.g.batch) → h'.g.epoch = h.g.epoch + 1) ∧
      ((∃ c ∈ s.copies, c.group = h.g.uid ∧ c.batch = some h.g.batch) → h'.g.epoch = h.g.epoch)) ∧
  (∀ (a : Reg) (s : State) (h : Here), Issues s h (.waitb a) .copy →
    let h1 := h.settled s
    let n := h1.s a
    let waits := n ≠ 0#32 ∧ ∃ c ∈ s.copies, c.group = h.g.uid ∧ ∃ m, c.batch = some m ∧ m ≠ h.g.batch ∧ (n - m).toNat < 2 ^ 31
    (¬waits → ∃ t h', exec (.waitb a) s = .next t ∧ SettledOn s t h1 h' (h.f.pc + 4#64) h1.f.view ∧ h'.g.epoch = h.g.epoch + 1) ∧
    (waits → ∃ t h', exec (.waitb a) s = .next t ∧ WaitsAt t h1 h' (.batch n) h1.f.passed)) ∧
  (∀ w : Word,
    let c := w.toNat % 2 ^ 14 + 1
    let e := w.toNat / 2 ^ 16 % 2 ^ 14
    let ph := w.toNat / 2 ^ 31
    (stageArrive w).toNat = if max e 1 ≤ c then (1 - ph) * 2 ^ 31 + e * 2 ^ 16 else ph * 2 ^ 31 + e * 2 ^ 16 + c) ∧
  (∀ (ph : Bool) (a : Reg) (ring : BitVec 3) (s : State) (h : Here) (u : Team), teamOf s h = some u →
    (Issues s h (.sarrive a ring) .control → Released s h →
      let w := 64 * ring.toNat + 4 * ((h.s a).toNat % 16)
      (w + 4 ≤ u.scratchSize → Memory.wf u.scratch = true → ∃ t h' y, exec (.sarrive a ring) s = .next t ∧ OnlyPad s t h.r u.uid ∧
        WentOn t h h' (h.f.pc + 4#64) ∧ { h'.g with frags := h.g.frags } = h.g ∧ h'.f.view = h.f.view ∧ t.team? u.uid = some y ∧
        scratchWord y w = stageArrive (scratchWord u w) ∧ ∀ b, ¬InWord w b → bytesGet y.scratch b = bytesGet u.scratch b) ∧
      (u.scratchSize < w + 4 → ∃ t h', exec (.sarrive a ring) s = .next t ∧ OnlyGroup s t h.r ∧ WentOn t h h' (h.f.pc + 4#64) ∧
        h'.g.removed = h.g.removed ||| h.lanes)) ∧
    (Issues s h (.swait ph a ring) .control →
      let h1 := h.settled s
      let w := 64 * ring.toNat + 4 * ((h1.s a).toNat % 16)
      w + 4 ≤ u.scratchSize →
      ((scratchWord u w).getLsbD 31 = ph → ∃ t h', exec (.swait ph a ring) s = .next t ∧
        SettledOn s t h1 h' (h.f.pc + 4#64) h1.f.view ∧ h'.g.epoch = h.g.epoch + 1) ∧
      ((scratchWord u w).getLsbD 31 ≠ ph → ∃ t h', exec (.swait ph a ring) s = .next t ∧ WaitsAt t h1 h' (.stage w ph) h1.f.passed))) ∧
  ∀ (p : BitVec 5) (a b : Reg) (z : BitVec 3) (s : State) (h : Here) (q : Instr × List FetchReq),
    let base := h.sp (pairReg p.toNat)
    let bytes := min (h.s a).toNat (2 ^ 20)
    let anchor : DWord := match (s.launch? h.g.launch).bind (fun l => l.image) with
      | some im => h.sp (pairReg (im.windowArg.toNat % 32))
      | none => 0#64
    q ∈ [(.raf p a, (List.range ((base.toNat % 128 + bytes + 127) / 128)).filterMap (fun j =>
          let lo := max base.toNat ((base.toNat / 128 + j) * 128)
          let hi := min (base.toNat + bytes) ((base.toNat / 128 + j + 1) * 128)
          if lo < hi then some (.line lo hi) else none)),
      (.rafg p a b z, (List.range (min (h.s b).toNat 4096)).map (fun j =>
        .element ((h.sp a &&& 0xFFFFFFFFFFFFFFFC#64) + BitVec.ofNat 64 (4 * j)) base (2 ^ z.toNat)))] →
    Issues s h q.1 .copy → ∃ t h', exec q.1 s = .next t ∧ WentOn t h h' (h.f.pc + 4#64) ∧ { h'.g with frags := h.g.frags } = h.g ∧
      h'.f.view = h.f.view ∧ ∃ fs, (t.core h.r.core).fetches = (s.core h.r.core).fetches ++ fs ∧ fs.map (fun f => f.req) = q.2 ∧
        OnlyGroup { s.setCore h.r.core { s.core h.r.core with fetches := (s.core h.r.core).fetches ++ fs } with
          fresh := s.fresh + fs.length } t h.r ∧
        ∀ f ∈ fs, f.group = h.g.uid ∧ f.ctx = h.g.ctx ∧ f.launch = h.g.launch ∧ f.leap = h.g.team.isNone ∧ f.anchor = anchor

/-! ## The matrix engine -/

/-- R337, R339 to R343: the owner goes on, a free engine is granted, others queue or are held; release and hand-over pass the engine to a
group, the state as it is within one team and cleared for another, let its `MOWN` go on, and keep the order of the queue and of the held
groups. Every other matrix instruction of a group that does not own the engine traps. -/
def Obligations.EngineOwnership : Prop :=
  (∀ (e : Engine) (team : Option Nat),
    (e.ownerTeam = none ∨ e.ownerTeam = team → e.handOver team = { e with ownerTeam := team }) ∧
    (e.ownerTeam ≠ none → e.ownerTeam ≠ team → e.handOver team = { e with
      ownerTeam := team, shapes := Vector.replicate 8 ⟨none, 0#32⟩, index := none, acc := Vector.replicate 4 []
      accPoison := Vector.replicate 4 [] })) ∧
  (∀ (s : State) (h : Here), Issues s h .mown .matrix →
    let e := s.engineOf h
    let u := h.g.uid
    (e.owner = some u → ∃ t h', exec .mown s = .next t ∧ OnlyGroup s t h.r ∧ WentOn t h h' (h.f.pc + 4#64) ∧
      { h'.g with frags := h.g.frags } = h.g ∧ h'.f.view = h.f.view) ∧
    (e.owner = none → e.queue = [] → e.held = [] → e.runs = [] →
      (∀ (j : Fin 64) (g : Group), s.group? h.r.core j = some g → g.uid = u → j = h.r.slot) →
      (∀ (j : Fin 8) (f : Frag) (b : Bool), h.g.frags[j] = some f → f.status ≠ .waiting (.owner b)) →
      ∃ t h', exec .mown s = .next t ∧ EngineDone s t h h' .mown { e.handOver h.g.team with owner := some u }) ∧
    (e.owner ≠ some u → (e.owner ≠ none ∨ e.queue ≠ []) → u ∉ e.queue → u ∉ e.held →
      (e.queue.length < 8 → ∃ t h', exec .mown s = .next t ∧ WaitsAt t h h' (.owner false) h.f.passed ∧
        OnlyGroup (s.setEngine h.r.core { e with queue := e.queue ++ [u] }) t h.r) ∧
      (8 ≤ e.queue.length → ∃ t h', exec .mown s = .next t ∧ WaitsAt t h h' (.owner true) h.f.passed ∧
        OnlyGroup (s.setEngine h.r.core { e with held := e.held ++ [u] }) t h.r)) ∧
    (e.owner ≠ some u → u ∈ e.queue → ∃ t h', exec .mown s = .next t ∧ WaitsAt t h h' (.owner false) h.f.passed ∧ OnlyGroup s t h.r) ∧
    (e.owner ≠ some u → u ∉ e.queue → u ∈ e.held → ∃ t h', exec .mown s = .next t ∧ WaitsAt t h h' (.owner true) h.f.passed ∧
      OnlyGroup s t h.r)) ∧
  (∀ (s : State) (h : Here) (n : BitVec 12), Owns s h → h.g.team.isSome = true →
    let e := s.engineOf h
    let passed (i : Instr) (u : Nat) (rest : List Nat) : Prop :=
      ∃ t h', exec i s = .next t ∧ WentOn t h h' (h.f.pc + 4#64) ∧ { h'.g with frags := h.g.frags } = h.g ∧ h'.f.view = h.f.view ∧
        { t with cores := s.cores, choices := s.choices } = s ∧ (∀ c, c ≠ h.r.core → t.core c = s.core c) ∧
        ∀ (j : Fin 64) (g : Group), s.group? h.r.core j = some g → g.uid = u →
          (∀ (k : Fin 64) (x : Group), s.group? h.r.core k = some x → x.uid = u → k = j) →
          t.engineOf h = { e.handOver g.team with owner := some u, queue := rest.take 8, held := rest.drop 8 } ∧
          ∃ g', t.group? h.r.core j = some g' ∧
            ∀ (k : Fin 8) (f : Frag), g.frags[k] = some f → (∃ b, f.status = .waiting (.owner b)) →
              ∃ y, g'.frags[k] = some y ∧ y.status = .ready ∧ y.pc = f.pc + 4#64
    let released (i : Instr) : Prop :=
      (e.queue = [] → e.held = [] → ∃ t h', exec i s = .next t ∧ EngineDone s t h h' i { e with owner := none }) ∧
      (∀ u rest, e.queue ++ e.held = u :: rest → u ≠ h.g.uid → u ∉ rest → passed i u rest)
    e.queue.length ≤ 8 → (∀ (j : Fin 8) (f : Frag) (b : Bool), h.g.frags[j] = some f → f.status ≠ .waiting (.owner b)) →
    (Issues s h .mrel .matrix → released .mrel) ∧
    (Issues s h (.mpass n) .matrix → ∀ x, teamOf s h = some x →
      ((s.core h.r.core).memberOf x.uid n.toNat = none → exec (.mpass n) s = .next (trapOf s h (.mpass n) (.plain 0x01#8 0x03#8 h.lanes))) ∧
      ∀ g, (s.core h.r.core).memberOf x.uid n.toNat = some g →
        (g.role = .copy ∨ g.role = .vector → exec (.mpass n) s = .next (trapOf s h (.mpass n) (.plain 0x01#8 0x03#8 h.lanes))) ∧
        (g.role = .matrix ∨ g.role = .combined → g.uid ≠ h.g.uid → g.live ≠ [] →
          passed (.mpass n) g.uid ((e.queue ++ e.held).filter (fun u => u != g.uid))) ∧
        (g.role = .matrix ∨ g.role = .combined → g.uid ≠ h.g.uid → g.live = [] → released (.mpass n)) ∧
        (g.role = .matrix ∨ g.role = .combined → g.uid = h.g.uid → ∃ t h', exec (.mpass n) s = .next t ∧ OnlyGroup s t h.r ∧
          WentOn t h h' (h.f.pc + 4#64) ∧ { h'.g with frags := h.g.frags } = h.g ∧ h'.f.view = h.f.view))) ∧
  ∀ (n z : BitVec 12) (o : GlOp) (a d : Reg) (t : BitVec 2) (m : MloopOp) (i : Instr) (s : State) (h : Here),
    i ∈ [.mrel, .mpass n, .mshape o, .midx a, .midxOff, .mzero z, .mrd d a t, .mwr d a t, .mloop m] → Issues s h i .matrix →
    (s.engineOf h).owner ≠ some h.g.uid → exec i s = .next (trapOf s h i (.plain 0x22#8 0#8 h.lanes))

/-- R344, R347, R348, R356 to R358: the owner sets shape slots and the index source, clears a tile, reads a row of it into four registers,
and writes one. That a record of `MSHAPE` in a poisoned granule is taken as it stands (log 50), and that `MRD`'s row check comes before the
budget (log 11), is the model's choice. -/
def Obligations.EngineRegisters : Prop :=
  (∀ (o : GlOp) (s : State) (h : Here) (p : Place), Issues s h (.mshape o) .matrix → Owns s h →
    check1 s h .load .none 32 32 (h.sp (pairReg o.p.toNat) + glOff o.imm o.hi * 32#64) = .ok p →
    let e := s.engineOf h
    ∃ s1 t h', exec (.mshape o) s = .next t ∧ Accounted s s1 h.r.core ∧ EngineDone s1 t h h' (.mshape o) { e with
      shapes := kSet e.shapes (o.d.setWidth 3) ⟨some (Vector.ofFn (fun j : Fin 32 => loadByte s h.r.core p (p.pa + j.val))), 0#32⟩ }) ∧
  (∀ (a : Reg) (s : State) (h : Here), (s.engineOf h).owner = some h.g.uid →
    (Issues s h (.midx a) .matrix → ∃ t h', exec (.midx a) s = .next t ∧
      EngineDone s t h h' (.midx a) { s.engineOf h with index := some a }) ∧
    (Issues s h .midxOff .matrix → ∃ t h', exec .midxOff s = .next t ∧
      EngineDone s t h h' .midxOff { s.engineOf h with index := none })) ∧
  (∀ (n : BitVec 12) (s : State) (h : Here), Issues s h (.mzero n) .matrix → Owns s h → n.toNat < 4 →
    ∃ t h' e, exec (.mzero n) s = .next t ∧ EngineDone s t h h' (.mzero n) e ∧
      { e with acc := (s.engineOf h).acc, accPoison := (s.engineOf h).accPoison } = s.engineOf h ∧
      (∀ c, tileGet (e.acc[Fin.ofNat 4 n.toNat]) c = 0#32) ∧ e.accPoison[Fin.ofNat 4 n.toNat] = [] ∧
      ∀ j : Fin 4, j.val ≠ n.toNat → e.acc[j] = (s.engineOf h).acc[j] ∧ e.accPoison[j] = (s.engineOf h).accPoison[j]) ∧
  (∀ (d a : Reg) (n : BitVec 2) (s : State) (h : Here),
    let e := s.engineOf h
    let r := (h.s a).toNat
    let word (l : Fin 32) (j : Nat) : Word := if r ≤ 127 then tileGet e.acc[n.toFin] (128 * r + 32 * j + l.val)
      else if j = 0 ∧ l = 0 then (kGet e.shapes (BitVec.ofNat 3 (r - 128))).status else 0#32
    Issues s h (.mrd d a n) .matrix → Owns s h →
    (135 < r → exec (.mrd d a n) s = .next (trapOf s h (.mrd d a n) (.plain 0x01#8 0x03#8 h.lanes))) ∧
    (r ≤ 135 → h.lanes ≠ 0#32 →
      (h.raises h.lanes (.regs d 4) false = 0 ∨ h.group.charge + h.raises h.lanes (.regs d 4) false ≤ h.g.budget) → e.accPoison[n.toFin] = [] →
      ∃ t h', exec (.mrd d a n) s = .next t ∧
        LaneDone s t h h' (.mrd d a n) h.lanes (.regs d 4) codesNone word (fun _ => LaneOut.idle) h.f.view.scc)) ∧
  ∀ (d a : Reg) (n : BitVec 2) (s : State) (h : Here),
    let e := s.engineOf h
    let r := (h.s a).toNat
    let word (c : Nat) : Word := (h.v (d + BitVec.ofNat 6 (c / 32)))[Fin.ofNat 32 c]
    Issues s h (.mwr d a n) .matrix → Owns s h → (∀ x ∈ regsFrom d 4, (h.vreg x).poison = 0#32) →
    (135 < r → exec (.mwr d a n) s = .next (trapOf s h (.mwr d a n) (.plain 0x01#8 0x03#8 h.lanes))) ∧
    (r ≤ 127 → tableSortedFrom 0 e.acc[n.toFin] = true → ∃ t h' e', exec (.mwr d a n) s = .next t ∧ EngineDone s t h h' (.mwr d a n) e' ∧
      { e' with acc := e.acc, accPoison := e.accPoison } = e ∧ (∀ j : Fin 4, j ≠ n.toFin → e'.acc[j] = e.acc[j]) ∧
      ∀ x c, x ≤ 127 → c ≤ 127 → tileGet e'.acc[n.toFin] (128 * x + c) = if x = r then word c else tileGet e.acc[n.toFin] (128 * x + c)) ∧
    (128 ≤ r → r ≤ 135 → ∃ t h', exec (.mwr d a n) s = .next t ∧ EngineDone s t h h' (.mwr d a n) { e with
      shapes := kSet e.shapes (BitVec.ofNat 3 (r - 128)) { kGet e.shapes (BitVec.ofNat 3 (r - 128)) with
        status := (word 0) &&& 0x1FF#32 } })

/-- R348 to R355: `MLOOP`'s checks in order, the steps it queues from the step at which it starts or resumes, and the increments; the first
step that reads a byte outside the allocation, or a poisoned one, traps after the steps before it (R353); each step adds, for every row
and column, the products of its K-elements in ascending order to the tile's element, and ORs their status bits; R354: an element whose
operand bytes lie in a granule that has become poisoned is poisoned. That an empty slot and an invalid record stop before the poison of
registers they do not name, and which register lanes a loop's poison is judged on, is the model's reading (log 11). -/
def Obligations.MatrixLoops : Prop :=
  (∀ (o : MloopOp) (s : State) (h : Here), Issues s h (.mloop o) .matrix → (s.engineOf h).owner = some h.g.uid →
    let e := s.engineOf h
    let slot := kGet e.shapes o.sl
    let stops (sub : Byte) : Prop := exec (.mloop o) s = .next (trapOf s h (.mloop o) ⟨0x21#8, sub, h.lanes, 0#64, 0#64, h.f.resume⟩)
    (slot.record = none → stops 0x01#8) ∧
    ∀ r, slot.record = some r →
      let x := shapeOf r
      let k := innerK x.afmt x.planesStored x.astride
      let blocks := (o.n.toNat * x.kstep + 31) / 32
      let far := (∃ a, e.index = some a ∧ 63 < a.toNat + (x.m - 1) / 32) ∨
        (scalesApply x = true ∧ (63 < o.vs.toNat + o.sel.toNat + blocks - 1 ∨ 16 < o.sel.toNat + blocks))
      let bad := loopPoison h e o x
      let rows := (List.range x.m).map (fun i => match e.index with
        | none => i
        | some a => ((h.v (a + BitVec.ofNat 6 (i / 32)))[Fin.ofNat 32 i]).toNat)
      (shapeInvalid r = true → stops 0x02#8) ∧
      (shapeInvalid r = false → bad ≠ 0#32 →
        exec (.mloop o) s = .next (trapOf s h (.mloop o) ⟨cEcc, 0x01#8, bad, 0#64, 0#64, h.f.resume⟩)) ∧
      (shapeInvalid r = false → bad = 0#32 →
        (shapePair x = false → stops 0x03#8) ∧
        (shapePair x = true → k ≠ innerK x.bfmt 0 x.bstride → stops 0x04#8) ∧
        (shapePair x = true → k = innerK x.bfmt 0 x.bstride → k < o.n.toNat * x.kstep → stops 0x05#8) ∧
        (shapePair x = true → k = innerK x.bfmt 0 x.bstride → o.n.toNat * x.kstep ≤ k → far → stops 0x06#8) ∧
        (shapePair x = true → k = innerK x.bfmt 0 x.bstride → o.n.toNat * x.kstep ≤ k → ¬far → ∀ u, teamOf s h = some u →
          let run (stop : Nat) : List LoopRun := if h.f.resume < stop then
            [⟨o.sl, r, u.uid, h.g.uid, rows, (loopScaleRegs o x).map h.v, h.f.resume, stop⟩] else []
          (loopFault u x rows h.f.resume o.n.toNat = none → ∃ t h', exec (.mloop o) s = .next t ∧ EngineDone s t h h' (.mloop o) { e with
            shapes := kSet e.shapes o.sl { slot with record := some (loopIncs r o.inc) }, runs := e.runs ++ run o.n.toNat }) ∧
          ∀ k' cause sub a, loopFault u x rows h.f.resume o.n.toNat = some (k', cause, sub, a) → exec (.mloop o) s = .next
            (trapOf (drainEngine (s.setEngine h.r.core { e with runs := e.runs ++ run k' }) h.r.core)
              { h with f := { h.f with resume := k' } } (.mloop o) ⟨cause, sub, h.lanes, BitVec.ofNat 64 a, 0#64, k'⟩)))) ∧
  (∀ (u : Team) (x : Shape) (rows : List Nat) (start stop : Nat),
    let out (a : Nat) : Prop := u.scratchSize ≤ a
    let bad (a : Nat) : Prop := a / 32 ∈ u.scratchPoison
    let clean (k : Nat) : Prop := ∀ a ∈ stepBytes x rows k, ¬out a ∧ ¬bad a
    let first (p : Nat → Prop) (k a : Nat) : Prop := a ∈ stepBytes x rows k ∧ p a ∧ ∀ b ∈ stepBytes x rows k, p b → a ≤ b
    (loopFault u x rows start stop = none ↔ ∀ k, start ≤ k → k < stop → clean k) ∧
    ∀ k cause sub a, loopFault u x rows start stop = some (k, cause, sub, a) ↔
      start ≤ k ∧ k < stop ∧ (∀ j, start ≤ j → j < k → clean j) ∧
        ((cause = 0x21#8 ∧ sub = 0x10#8 ∧ first out k a) ∨
          (cause = cEcc ∧ sub = 0x04#8 ∧ (∀ b ∈ stepBytes x rows k, ¬out b) ∧ first bad k a))) ∧
  (∀ (c : Fin 256) (s : State) (r : LoopRun) (rest : List LoopRun), (s.core c).engine.runs = r :: rest →
    let e := (s.core c).engine
    let x := shapeOf r.record
    x.m ≤ 128 → x.n ≤ 128 → tableSortedFrom 0 e.acc[x.tile] = true →
    let old (i n : Nat) : Word := tileGet e.acc[x.tile] (128 * i + n)
    let after (i n : Nat) : Word × Word := (List.range x.kstep).foldl (fun p k =>
      let q := macElem x r.scales (s.pad r.team) (r.rows.getD i 0) i n (r.next * x.kstep + k) p.1
      (q.1, p.2 ||| q.2)) (old i n, 0#32)
    let bad (bytes : Nat → List Nat) : Prop := ∃ k a, k < x.kstep ∧ a ∈ bytes (r.next * x.kstep + k) ∧ a / 32 ∈ s.padBad r.team
    let rowBad (i : Nat) : Prop := bad (elemBytes x.afmt x.planesRead x.planesStored x.astride (x.aaddr + x.astride * r.rows.getD i 0))
    let colBad (n : Nat) : Prop := bad (elemBytes x.bfmt 0 0 x.bstride (x.baddr + x.bstride * n)) ∨
      (scalesApply x = true ∧ bad (fun k => [scaleByte x.bfmt (x.baddr + x.bstride * n) k]))
    ∃ t, exec (.mloopStep c) s = .next t ∧ { t with cores := s.cores } = s ∧ (∀ d, d ≠ c → t.core d = s.core d) ∧
      let f := (t.core c).engine
      { t.core c with engine := e } = s.core c ∧ { f with acc := e.acc, accPoison := e.accPoison, shapes := e.shapes, runs := e.runs } = e ∧
      (∀ j : Fin 4, j ≠ x.tile → f.acc[j] = e.acc[j] ∧ f.accPoison[j] = e.accPoison[j]) ∧
      (∀ i n, i < 128 → n < 128 → (128 * i + n ∈ f.accPoison[x.tile] ↔
        128 * i + n ∈ e.accPoison[x.tile] ∨ (i < x.m ∧ n < x.n ∧ (rowBad i ∨ colBad n)))) ∧
      (∀ i n, i < 128 → n < 128 → tileGet f.acc[x.tile] (128 * i + n) = if i < x.m ∧ n < x.n then (after i n).1 else old i n) ∧
      (∀ b, (kGet f.shapes r.slot).status.getLsbD b = ((kGet e.shapes r.slot).status.getLsbD b ||
        (List.range x.m).any (fun i => (List.range x.n).any (fun n => (after i n).2.getLsbD b)))) ∧
      f.runs = if r.next + 1 < r.stop then { r with next := r.next + 1 } :: rest else rest) ∧
  ∀ (x : Shape) (scales : List (Lanes Word)) (pad : List Host.Cell) (row i n k : Nat) (w : Word),
    let at' (b : Nat) : Byte := bytesGet pad b
    let a := (elemBytes x.afmt x.planesRead x.planesStored x.astride (x.aaddr + x.astride * row) k).map at'
    let b := (elemBytes x.bfmt 0 0 x.bstride (x.baddr + x.bstride * n) k).map at'
    let z := w.toInt + elemInt x.afmt x.planesRead k a * elemInt x.bfmt 0 k b
    let sa := if scalesApply x then e8m0 (scaleA scales i (k / 32)) else FVal.one
    let sb := if scalesApply x then e8m0 (at' (scaleByte x.bfmt (x.baddr + x.bstride * n) k)) else FVal.one
    let va := elemVal x.afmt x.planesRead k a
    let vb := elemVal x.bfmt 0 k b
    let r := fmaRes fmtF32 0#2 false [va, sa, vb, sb, f32 w] (va.scaleBy sa) (vb.scaleBy sb) (f32 w)
    (x.i32 = true → macElem x scales pad row i n k w = (BitVec.ofInt 32 z, if overflows z then 0x100#32 else 0#32)) ∧
    (x.i32 = false → (macElem x scales pad row i n k w).1 = BitVec.ofNat 32 r.bits ∧
      [3, 2, 1, 0, 5, 4, 7, 6].map (fun j => (macElem x scales pad row i n k w).2.getLsbD j) =
        [r.flags.getLsbD 4, r.flags.getLsbD 3, r.flags.getLsbD 2, r.flags.getLsbD 0,
          r.nan && [va, sa, vb, sb, f32 w].any FVal.isNan, r.nan && !([va, sa, vb, sb, f32 w].any FVal.isNan),
          r.inf && [va, sa, vb, sb, f32 w].any FVal.isInf, r.inf && !([va, sa, vb, sb, f32 w].any FVal.isInf)])

/-! ## Checks of an access -/

/-- R197, R198, R212 to R214, R256, R309: one access is checked for alignment, a canonical address and a mapping, privilege, permission,
bias, and freezing, in this order, and a write under a thawing entry waits (R277); of the lanes of a load the least of these causes traps, with the lanes that meet it and the address
of the lowest. -/
def Obligations.AccessChecks : Prop :=
  (∀ (e : DWord) (size : Nat), e.toNat / 256 % 2 ^ 44 * 256 < 2 ^ 40 → e.toNat / 256 % 2 ^ 44 * 256 % size = 0 → e.extractLsb' 52 2 ≠ 3#2 →
    leafOf e size = .leaf ⟨e.toNat / 256 % 2 ^ 44 * 256, size, e.getLsbD 61, e.getLsbD 60, e.getLsbD 59, e.getLsbD 58, e.getLsbD 57,
      e.getLsbD 56, e.getLsbD 55, e.getLsbD 54, e.extractLsb' 52 2, e.extractLsb' 0 8⟩) ∧
  (∀ (s : State) (c : Context) (va : DWord) (l : Leaf), va.toNat < 2 ^ 56 → walk s c va.toNat = .leaf l → l.base + l.size ≤ 2 ^ 51 →
    0 < l.size → place s c va = .inl ⟨match c.bufferAt va.toNat with
      | some b => b.2.live + (va.toNat - b.2.base)
      | none => l.base + va.toNat % l.size, l⟩) ∧
  (∀ (s : State) (c : Context) (spec : Bool) (acc : Access) (fr : FreezeRule) (al n : Nat) (va : DWord),
    let code : Byte := BitVec.ofNat 8 acc.code
    let r := checkAccess s c spec acc fr al n va
    (va.toNat % al ≠ 0 → r = .bad 9 0x03#8 0#8 va 0#64) ∧
    (va.toNat % al = 0 →
      (2 ^ 56 ≤ va.toNat → r = .bad 10 0x10#8 (code ||| 8#8) va 0#64) ∧
      (va.toNat < 2 ^ 56 → walk s c va.toNat = .absent → r = .bad 10 0x10#8 code va 0#64) ∧
      (va.toNat < 2 ^ 56 → walk s c va.toNat = .malformed → r = .bad 10 0x10#8 (code ||| 16#8) va 0#64) ∧
      ∀ p, place s c va = .inl p →
        let priv := (acc.writes && p.leaf.fw) || (spec && (acc.writes || acc == .freeze))
        let prot := (acc.reads && !p.leaf.rp) || (acc.writes && !p.leaf.wp) || (acc == .fetch && !p.leaf.xp)
        (priv = true → r = .bad 11 0x02#8 0#8 va 0#64) ∧
        (priv = false → prot = true → r = .bad 12 0x11#8 code va 0#64) ∧
        (priv = false → prot = false → p.leaf.bh = true → r = .bad 13 0x12#8 code va 0#64) ∧
        (priv = false → prot = false → p.leaf.bh = false → p.leaf.bt = true → r = .wait 14 (.bias [va.toNat])) ∧
        (priv = false → prot = false → p.leaf.bh = false → p.leaf.bt = false →
          (fr = .none → r = .ok p) ∧
          (fr = .mustFreeze → (∀ j, j < n → s.isFrozen (p.pa + j) = true) → r = .ok p) ∧
          (∀ j, fr = .mustFreeze → j < n → s.isFrozen (p.pa + j) = false → (∀ k, k < j → s.isFrozen (p.pa + k) = true) →
            r = .bad 15 0x14#8 0#8 (va + BitVec.ofNat 64 j) 0#64) ∧
          (∀ j a b e, fr = .mustThaw → j < n → s.frozenBy (p.pa + j) = some (a, b, e) → (∀ k, k < j → s.isFrozen (p.pa + k) = false) →
            r = .bad 15 0x13#8 code (va + BitVec.ofNat 64 j) (((e.gen <<< 10) ||| BitVec.ofNat 32 (b % 1024)).setWidth 64)) ∧
          (fr = .mustThaw → (∀ j, j < n → s.isFrozen (p.pa + j) = false) →
            ((∀ j, j < n → s.thawsOver (p.pa + j) = []) → r = .ok p) ∧
            ((∃ j, j < n ∧ s.thawsOver (p.pa + j) ≠ []) → ∃ w, r = .wait 16 (.thaw w) ∧
              ∀ y, y ∈ w ↔ ∃ j, j < n ∧ y ∈ s.thawsOver (p.pa + j)))))) ∧
  ∀ (o : LmLd) (s : State) (h : Here) (l : Fin 32) (rank : Nat) (cause sub : Byte) (a x : DWord),
    let c (m : Fin 32) : Check := check1 s h .load .none (szBytes o.sz) (szBytes o.sz) (lmAddr h o.a o.p o.sz o.px m)
    LaneReady .lane s h (.ldg o) o.k (.regs o.d (szRegs o.sz)) none none [.reg o.a] true →
    (h.exec o.k).getLsbD l.val = true → c l = .bad rank cause sub a x →
    (∀ m : Fin 32, (h.exec o.k).getLsbD m.val = true → rank ≤ (c m).rank ∧ (m < l → rank < (c m).rank)) →
    exec (.ldg o) s = .next (trapOf s h (.ldg o)
      ⟨cause, sub, h.exec o.k &&& maskOf (fun m => decide ((c m).rank = rank)), a, x, 0⟩)

/-! ## The host -/

/-- R412 to R415, R418, R419, R427: what becomes of a command message: one too long or malformed, a device that is not ready, a queue that
does not admit it, a repeat, a number passed, a gap, a full journal; the entry that an accepted one appends; and that a command is the one
that its message's bytes say. That a command which is not accepted has no entry and takes no number, and that a device without power
answers nothing, is the model's reading (log 6); the widths of the arguments of R416 are the model's (log 37). -/
def Obligations.HostAdmission : Prop :=
  (∀ (i : Instr) (s : State) (h : CmdHdr) (code : Nat), commandOf i = some (h, code) → s.heldCmds = [] →
    let answer (status reason seq : Nat) : Prop := exec i s = .next (respond s h code status reason seq [])
    let headed := cmdFits i = true ∧ h.queue ≤ 131071 ∧ h.hseq ≠ 0
    (s.phase = .off → exec i s = .next s) ∧
    (s.phase ≠ .off → ¬headed → answer 2 1 0) ∧
    (s.phase = .booting ∨ s.phase = .failed → headed → code ≠ 0x12 → code ≠ 0x13 → answer 2 6 0) ∧
    (s.phase = .ready → headed →
      (queueOwner s h code = none → answer 2 2 0) ∧
      ∀ c, queueOwner s h code = some c →
        let found := (s.journal c).entries.find? (fun e => e.queue == h.queue && e.hseq == h.hseq)
        (∀ e, found = some e → e.digest = argDigest i → answer (match e.state with
          | .accepted => 1
          | .running => 1
          | .done => 0
          | .failed => 2
          | .resetDiscarded => 2) e.reason e.seq) ∧
        (∀ e, found = some e → e.digest ≠ argDigest i → answer 2 7 0) ∧
        (found = none → h.hseq ≤ acceptedMax s h.queue → answer 2 8 0) ∧
        (found = none → acceptedMax s h.queue + 1 < h.hseq → exec i s = .next { s with heldCmds := [i] }) ∧
        (found = none → h.hseq = acceptedMax s h.queue + 1 → (s.journal c).entries.length ≥ (s.journal c).capacity →
          (∃ e, (s.journal c).entries.head? = some e ∧ e.state.final = false) → answer 2 3 0))) ∧
  (∀ (s : State) (h : CmdHdr) (code : Nat),
    (h.queue < 16 → queueOwner s h code = if code ∈ [0x01, 0x02, 0x10, 0x12, 0x0B, 0x13] then some none else none) ∧
    (16 ≤ h.queue → ∀ x, s.contexts.find? (fun x => decide (x.firstQueue ≤ h.queue) && decide (h.queue < x.firstQueue + x.queueCount)) = some x →
      queueOwner s h code = if code ∈ [0x01, 0x02, 0x10, 0x12] ∨ (h.ctx ≠ 0 ∧ h.ctx ≠ x.id) then none else some (some x.id)) ∧
    (16 ≤ h.queue → (∀ x ∈ s.contexts, h.queue < x.firstQueue ∨ x.firstQueue + x.queueCount ≤ h.queue) → queueOwner s h code = none)) ∧
  (∀ (s : State) (c : Option Nat) (queue code hseq digest : Nat), s.memOk → (∀ id, c = some id → (s.ctx? id).isSome = true) →
    let j := s.journal c
    let place := if j.entries.length < j.capacity then j.entries.length else (j.entries.head?.map (fun e => e.slot)).getD 0
    let e : JEntry := ⟨j.next, queue, code, .accepted, 0, digest, hseq, s.now, 0, 0, place⟩
    (j.entries.length < j.capacity ∨ (∀ e, j.entries.head? = some e → e.state.final = true)) →
    ∃ s1, appendEntry s c queue code hseq digest = some (s1, j.next) ∧ s1.outbox = s.outbox ∧ (s1.journal c).next = j.next + 1 ∧
      (s1.journal c).capacity = j.capacity ∧ (s1.journal c).entries =
        (if j.entries.length < j.capacity then j.entries else j.entries.tail) ++ [e] ∧
      (∀ id x, c = some id → s.ctx? id = some x → rawBytes s1 (x.journalAt + 64 * place) 64 = entryBytes e)) ∧
  (∀ (i : Instr) (s : State), cmdFits i = true → exec i s = .next (receiveMessage s (messageOf i))) ∧
  ∀ (s : State) (m : List Byte), s.phase ≠ .off →
    let f (off n : Nat) : Nat := leNat ((m.drop off).take n)
    let h : CmdHdr := ⟨f 4 4, f 8 8, f 0x10 4⟩
    m.length < 32 ∨ 2 ^ 20 + 64 < m.length ∨ f 2 2 ≠ 0 ∨ f 0x14 4 ≠ m.length - 32 ∨ f 0x18 8 ≠ 0 ∨ f 0 2 = 0 ∨ 0x14 ≤ f 0 2 →
      receiveMessage s m = respond s h (f 0 2) 2 1 0 []

/-- R416, R212, R213, R216, R256, R309: contexts and mappings: `CTX_CREATE` adds a context with these arguments, `CTX_DESTROY` removes one
without launches, accepted ones that wait behind another command among them (R360), `MAP` writes leaves of the fields it names and makes a publish buffer, or writes an entry of the remote table beside its
leaves, `UNMAP` clears entries; each is done at once where no access by the old entries is under way. Result bytes and the places of the
areas are the model's (logs 9, 37), and so are that the physical range of a remote `MAP` lies in the window it names (log 37) and that
`UNMAP` of a shadow range removes the buffers that lie in it whole (log 38). -/
def Obligations.HostMappings : Prop :=
  (∀ (f : LeafBits) (pa size : Nat), f.sm ≠ 3#2 → pa < 2 ^ 40 → pa % 65536 = 0 → size ∈ [2 ^ 16, 2 ^ 21, 2 ^ 30] → pa % size = 0 →
    (leafWord f pa).getLsbD 63 = true ∧ (leafWord f pa).getLsbD 62 = true ∧
    leafOf (leafWord f pa) size = .leaf ⟨pa, size, f.rp, f.wp, f.xp, f.fw, f.ca, f.rad, false, false, f.sm, f.ps⟩) ∧
  (∀ (s s1 : State) (h : CmdHdr) (seq : Nat),
    (∀ a, Admitted s (.ctxCreate h a) h 0x01 none s1 seq → ctxArgsOk a = true →
      (∀ x ∈ s1.contexts, x.firstQueue + x.queueCount ≤ a.firstQueue ∨ a.firstQueue + a.queueCount ≤ x.firstQueue) →
      let id := (s1.contexts.map (fun x => x.id)).foldl max 0 + 1
      let r := takeMem s1 65536 65536 id
      ∀ q, takeAreas (newContext id r.2 a) (ctxAreas a) r.1 = some q →
        (memFits q.1 = false → Failed (.ctxCreate h a) s s1 none h 0x01 seq 3) ∧
        (memFits q.1 = true → ∃ s2 y, s2.contexts = s1.contexts ++ [y] ∧
          Finished (.ctxCreate h a) s s2 none h 0x01 seq (toLe id 4 ++
            [y.saveArea, y.leapArea, y.sampleRing, y.exitRing, y.journalAt, y.root].flatMap (fun v => toLe v 8)) ∧
          y.deadlineNs = (if a.deadlineNs = 0 then 50000000 else a.deadlineNs) ∧ y.threshold = (if a.threshold = 0 then 3 else a.threshold) ∧
          { newContext id r.2 a with
            saveArea := y.saveArea, leapArea := y.leapArea, sampleRing := y.sampleRing, exitRing := y.exitRing, journalAt := y.journalAt } = y)) ∧
    (∀ n y, Admitted s (.ctxDestroy h n) h 0x02 none s1 seq → s1.ctx? n = some y →
      let pending := (∃ l ∈ s1.launches, l.ctx = n) ∨
        ∃ r ∈ y.running.toList ++ y.backlog, ∃ hd m b grid args, r.cmd = .launch hd m b grid args
      (pending → Failed (.ctxDestroy h n) s s1 none h 0x02 seq 6) ∧
      (¬pending → ∃ s2, Finished (.ctxDestroy h n) s s2 none h 0x02 seq [] ∧ s2.ctx? n = none ∧
        (∀ m, m ≠ n → s2.ctx? m = s1.ctx? m) ∧ (∀ m ∈ s2.modules, m.ctx ≠ n) ∧ (∀ b ∈ s2.fwBlocks, b.2.2 ≠ n) ∧
        ∀ c, (∀ e ∈ (s2.core c).frozen, e.1 ≠ n) ∧ ∀ e ∈ (s2.core c).reuse, e.key.ctx ≠ n))) ∧
  ∀ (s s1 : State) (h : CmdHdr) (seq : Nat) (x : Context) (a : MapArgs),
    let old := pageRanges s1 x (pagesOf s1 x a.va a.size)
    let ps := pagesOf s1 x a.va a.size
    (AdmittedIn s (.map h a) h 0x03 s1 seq x → mapArgsOk a = true →
      (mapTouchesFrozen s1 x a = true → Failed (.map h a) s s1 (some x.id) h 0x03 seq 5) ∧
      (mapTouchesFrozen s1 x a = false → ∀ s2, mapPages x (mapBits a) a.pageSize (a.size / a.pageSize) a.va a.pa s1 = some s2 →
        (memFits s2 = false → Failed (.map h a) s s1 (some x.id) h 0x03 seq 3) ∧
        (memFits s2 = true → rangesQuiet s2 old = true → Finished (.map h a) s s2 (some x.id) h 0x03 seq []))) ∧
    (∀ n shadow, AdmittedIn s (.mapShadow h a n shadow) h 0x03 s1 seq x → mapArgsOk a = true → mapTouchesFrozen s1 x a = false →
      ∀ s2, mapPages x (mapBits a) a.pageSize (a.size / a.pageSize) a.va a.pa s1 = some s2 → memFits s2 = true → rangesQuiet s2 old = true →
        n ≤ 4095 → shadow % 65536 = 0 → shadow + a.size ≤ 2 ^ 40 → a.pa + a.size ≤ 2 ^ 40 → tableFind x.buffers n = none →
        (∀ b ∈ x.buffers, b.2.base + b.2.size ≤ a.va ∨ a.va + a.size ≤ b.2.base) →
        ∃ y, s2.ctx? x.id = some y ∧ Finished (.mapShadow h a n shadow) s
          (s2.setCtx { y with buffers := tablePut y.buffers n ⟨a.va, a.size, a.pa, shadow, 0#32, false, 0, false⟩ }) (some x.id) h 0x03 seq []) ∧
    (∀ w : WindowArgs, AdmittedIn s (.mapRemoteWindow h a w) h 0x03 s1 seq x →
      let i : Instr := .mapRemoteWindow h a w
      let inside := w.index < 2048 ∧ 2 ^ 51 + w.index * 2 ^ 40 ≤ a.pa ∧ a.pa + a.size ≤ 2 ^ 51 + (w.index + 1) * 2 ^ 40
      let through := if tableFind x.windows w.index = some w.device then []
        else (pagesOf s1 x 0 (2 ^ 56)).filter (fun p => throughWindow s1 p w.index)
      let x1 := { x with windows := tablePut x.windows w.index w.device }
      (¬inside → Failed i s s1 (some x.id) h 0x03 seq 1) ∧
      (inside → (∃ p ∈ through, pageFrozen s1 x p = true) → Failed i s s1 (some x.id) h 0x03 seq 5) ∧
      (inside → (∀ p ∈ through, pageFrozen s1 x p = false) → mapArgsOk a = true →
        (mapTouchesFrozen (s1.setCtx x1) x1 a = true → Failed i s s1 (some x.id) h 0x03 seq 5) ∧
        (mapTouchesFrozen (s1.setCtx x1) x1 a = false → ∀ s2,
          mapPages x1 (mapBits a) a.pageSize (a.size / a.pageSize) a.va a.pa (s1.setCtx x1) = some s2 → memFits s2 = true →
          rangesQuiet s2 (old ++ pageRanges s1 x through) = true → Finished i s s2 (some x.id) h 0x03 seq []))) ∧
    let whole := 0 < a.size ∧ a.va % 65536 = 0 ∧ a.size % 65536 = 0 ∧ a.va + a.size ≤ 2 ^ 56 ∧
      ∀ p ∈ ps, a.va ≤ p.va ∧ p.va + p.size ≤ a.va + a.size
    let gone (b : PublishBuffer) : Bool := decide (a.va ≤ b.base) && decide (b.base + b.size ≤ a.va + a.size)
    let s2 := clearLeaves s1 ps
    (AdmittedIn s (.unmap h a.va a.size) h 0x04 s1 seq x → whole →
      ((∃ p ∈ ps, pageFrozen s1 x p = true) → Failed (.unmap h a.va a.size) s s1 (some x.id) h 0x04 seq 5) ∧
      ((∀ p ∈ ps, pageFrozen s1 x p = false) → rangesQuiet s2 old = true →
        Finished (.unmap h a.va a.size) s s2 (some x.id) h 0x04 seq [])) ∧
    (AdmittedIn s (.unmapShadow h a.va a.size) h 0x04 s1 seq x → whole → (∀ p ∈ ps, pageFrozen s1 x p = false) →
      (∀ b ∈ x.buffers, gone b.2 = true → b.2.pending = 0 ∧ b.2.publishing = false) → rangesQuiet s2 old = true →
        Finished (.unmapShadow h a.va a.size) s (s2.setCtx { x with buffers := x.buffers.filter (fun b => !gone b.2) })
          (some x.id) h 0x04 seq [])

/-- R416, R113, R360, R373, R381, R206: the commands that move bytes and start or hold work; `LAUNCH` and `TASK_SUBMIT` are answered with
status 1 when they are accepted. The result bytes are the model's layout (log 37), and so is the answer to a `TASK_SUBMIT`, with the
block's state when it takes effect, also of one that submits nothing (log 44). -/
def Obligations.HostWork : Prop :=
  ∀ (s s1 : State) (h : CmdHdr) (seq : Nat) (x : Context) (va n : Nat),
    (AdmittedIn s (.read h va n) h 0x05 s1 seq x → n ≤ 2 ^ 20 →
      (hostMapped s1 x va n = true → Finished (.read h va n) s s1 (some x.id) h 0x05 seq ((hostAddrs s1 x va n).map (homeByte s1))) ∧
      (hostMapped s1 x va n = false → Failed (.read h va n) s s1 (some x.id) h 0x05 seq 9)) ∧
    (∀ bs : List Byte, AdmittedIn s (.write h va bs) h 0x06 s1 seq x → s1.memOk → bs.length ≤ 2 ^ 20 → hostMapped s1 x va bs.length = true →
      let pas := hostAddrs s1 x va bs.length
      ((∃ a ∈ pas, s1.isFrozen a = true) → Failed (.write h va bs) s s1 (some x.id) h 0x06 seq 5) ∧
      ((∀ a ∈ pas, s1.isFrozen a = false ∧ s1.isThawing a = false) → pas.Nodup → (∀ g ∈ s1.grants, s1.stands g = false) → s1.writes = [] →
        ∃ s2, Finished (.write h va bs) s s2 (some x.id) h 0x06 seq [] ∧ OnlyBytes s1 s2 ∧
          (∀ j a, pas[j]? = some a → homeByte s2 a = bs.getD j 0#8) ∧ ∀ a, a ∉ pas → homeByte s2 a = homeByte s1 a)) ∧
    (∀ addrs, AdmittedIn s (.moduleLoad h va n addrs) h 0x07 s1 seq x → hostMapped s1 x va n = true →
      let f := hostBytes s1 x va n
      let run : CmdRun := ⟨.moduleLoad h va n addrs, seq, 1, f.map (fun b => b.toNat), false⟩
      (parseModule f ((loadAt addrs 1).getD 0) = none → Failed (.moduleLoad h va n addrs) s s1 (some x.id) h 0x07 seq 4) ∧
      ∀ m ps q, parseModule f ((loadAt addrs 1).getD 0) = some m → allSome (placements f addrs) = some ps →
        (∀ p ∈ ps, hostMapped s1 x p.1 p.2.length = true ∧ ∀ a ∈ hostAddrs s1 x p.1 p.2.length, s1.isFrozen a = false ∧ s1.isThawing a = false) →
        relocateAll f addrs x (recordsOf f 10 16) (ps.foldl (fun s p => hostWrite s x p.1 p.2) s1) = (q, true) →
        exec (.moduleLoad h va n addrs) s = .next (q.setCtx { x with running := some run }) ∧
        (m.frozen = [] → ∀ (t t1 : State) (y : Context) (hd at' : Nat), t.ctx? x.id = some y →
          linesBusy t (placedLines t y f addrs) = false → registerModule t y.id m = some (t1, hd, at') → memFits t1 = true →
          ∃ res, goOnLoad t y run addrs = (t1, .done res) ∧ res.take 4 = toLe hd 4)) ∧
    (∀ (m b grid : Nat) (args : List DWord) (blk : LaunchBlock), AdmittedIn s (.launch h m b grid args) h 0x08 s1 seq x → 0 < grid →
      grid < 2 ^ 32 → args.length ≤ 16 → kernelOf s1 x.id m b = some blk → ∃ s2 l, s2.launches = s1.launches ++ [l] ∧
        { s2 with launches := s1.launches, fresh := s1.fresh } = s1 ∧ l.ctx = x.id ∧ l.seq = seq ∧ l.module = m ∧ l.block = b ∧
        l.grid = grid ∧ l.args = args ∧ l.prio = min blk.prio x.prioLimit ∧ l.kind = .host ∧ l.nextTeam = 0 ∧ l.ended = 0 ∧
        exec (.launch h m b grid args) s = .next (respond s2 h 0x08 1 0 seq [])) ∧
    (∀ p, AdmittedIn s (.taskSubmit h va) h 0x09 s1 seq x → s1.memOk → va % 256 = 0 → va < 2 ^ 56 →
      place s1 x (BitVec.ofNat 64 va) = .inl p → p.leaf.rp = true → p.leaf.wp = true → p.leaf.fw = false → p.leaf.bh = false →
      p.leaf.bt = false → s1.isFrozen p.pa = false → s1.isThawing p.pa = false →
      let field (s : State) (off n : Nat) : Nat := fwRead s (p.pa + off) n
      let taken := field s1 0x0C 1 = 0 ∧ taskMalformed s1 x p.pa = false
      let answered (s2 : State) (state : Nat) : Prop := exec (.taskSubmit h va) s = .next (respond s2 h 0x09 1 0 seq (toLe state 1))
      let launched (s2 : State) (spec : Bool) : Prop := ∃ l, s2.launches = s1.launches ++ [l] ∧ l.ctx = x.id ∧ l.kind = .task p.pa spec ∧
        l.nextTeam = 0 ∧ l.module = field s1 0 2 ∧ l.block = field s1 2 2 ∧ l.grid = field s1 8 4 ∧ l.seq = seq ∧
        field s2 0x18 8 = seq % 2 ^ 64
      (¬taken → answered (endEntry s1 (some x.id) seq .done 0) (field s1 0x0C 1)) ∧
      (taken → field s1 4 4 ≠ 0 → field s1 0x0D 1 % 2 = 0 → ∃ s2, answered s2 1 ∧
        OnlyBytes (s1.setCtx { x with submitted := tablePut x.submitted p.pa seq }) s2 ∧ field s2 0x0C 1 = 1 ∧
        ∀ a, a ≠ p.pa + 0x0C → homeByte s2 a = homeByte s1 a) ∧
      (taken → field s1 4 4 = 0 → ∃ s2, answered s2 2 ∧ launched s2 false ∧ field s2 0x0C 1 = 2 ∧
        ∀ a, a ≠ p.pa + 0x0C → ¬(p.pa + 0x18 ≤ a ∧ a < p.pa + 0x20) → homeByte s2 a = homeByte s1 a) ∧
      (taken → field s1 4 4 ≠ 0 → field s1 0x0D 1 % 2 = 1 → ∃ s2, answered s2 3 ∧ launched s2 true ∧ field s2 0x0C 1 = 3 ∧
        ∀ a, a ≠ p.pa + 0x0C → ¬(p.pa + 0x18 ≤ a ∧ a < p.pa + 0x20) → ¬(p.pa + 0x40 ≤ a ∧ a < p.pa + 0x60) →
          homeByte s2 a = homeByte s1 a)) ∧
    (AdmittedIn s (.preemptRequest h) h 0x0A s1 seq x → x.preempt = false →
      ∃ s2 y, Finished (.preemptRequest h) s s2 (some x.id) h 0x0A seq [] ∧ s2.ctx? x.id = some y ∧
        { y with parked := x.parked } = { x with preempt := true, deadlineLeft := x.deadlineNs } ∧
        (y.parked = true ↔ x.parked = true ∨ ∀ t ∈ s1.teams, ∀ l, s1.launch? t.launch = some l → l.ctx ≠ x.id)) ∧
    (AdmittedIn s (.preemptHalt h) h 0x0A s1 seq x →
      ∃ s2, Finished (.preemptHalt h) s s2 (some x.id) h 0x0A seq [] ∧ ∀ r g, s2.at? r = some g → g.g.ctx = x.id →
        g.f.status ≠ .exited → g.f.slices ≠ 0#8 →
        (∀ (i j : Fin 8) (f k : Frag), i ≠ j → g.g.frags[i] = some f → g.g.frags[j] = some k → f.slices &&& k.slices = 0#8) → g.f.halted = true) ∧
    (AdmittedIn s (.preemptResumeHalt h) h 0x0A s1 seq x →
      ∃ s2, Finished (.preemptResumeHalt h) s s2 (some x.id) h 0x0A seq [] ∧ ∀ r g, s1.at? r = some g →
        ∃ k, s2.at? r = some k ∧ k.f = if g.g.ctx = x.id then { g.f with halted := false } else g.f) ∧
    (AdmittedIn s (.preemptResumePark h) h 0x0A s1 seq x →
      Finished (.preemptResumePark h) s (s1.setCtx { x with preempt := false, parked := false }) (some x.id) h 0x0A seq [])

/-- R416, R395, R268, R278, R422, R423: the commands on journals, leap slots, leases, bias, and the reports. The layouts of results
and reports are the model's (log 37); so is that the bytes of a slot's body behind those that `LEAP_WRITE` writes read zero (log 27). -/
def Obligations.HostReports : Prop :=
  (∀ (s s1 : State) (h : CmdHdr) (seq : Nat) (x : Context) (id : BitVec 128) (first count : Nat),
    (AdmittedIn s (.journalRead h first count) h 0x0B s1 seq x → count ≤ 16384 → Finished (.journalRead h first count) s s1 (some x.id) h 0x0B seq
      ((x.journal.entries.filter (fun e => decide (first ≤ e.seq) && decide (e.seq < first + count))).flatMap entryBytes)) ∧
    (AdmittedIn s (.leapRead h id) h 0x0C s1 seq x →
      (findSlot s1 x id = none → Finished (.leapRead h id) s s1 (some x.id) h 0x0C seq (toLe id.toNat 16 ++ List.replicate 48 0#8)) ∧
      ∀ i, findSlot s1 x id = some i → s1.memOk → Finished (.leapRead h id) s s1 (some x.id) h 0x0C seq
        (homeBytes s1 (x.leapArea + 4096 * i) (64 + min (leNat (homeBytes s1 (x.leapArea + 4096 * i + 0x2C) 4)) 3008))) ∧
    (∀ (a : LeapHdrArgs) (body : List Byte), AdmittedIn s (.leapWrite h id a body) h 0x0D s1 seq x → s1.memOk → body.length ≤ 3008 → ∀ i, findSlot s1 x id = some i →
      let at' := x.leapArea + 4096 * i
      let kept (b : Nat) : Bool := decide (b < at' + 0x15) || (decide (at' + 0x30 ≤ b) && decide (b < at' + 0x40)) || decide (at' + 4096 ≤ b)
      ∃ s2, Finished (.leapWrite h id a body) s s2 (some x.id) h 0x0D seq [] ∧ (∀ b, kept b = true → homeByte s2 b = homeByte s1 b) ∧
        rawBytes s2 (at' + 0x15) 27 = [a.flags ||| 4#8, a.windowArg, a.reserved] ++ toLe a.windowLow.toNat 8 ++ toLe a.windowHigh.toNat 8 ++
          toLe a.budget.toNat 4 ++ toLe a.bodyLen.toNat 4 ∧
        rawBytes s2 (at' + 0x40) 3008 = body ++ List.replicate (3008 - body.length) 0#8) ∧
    (∀ p : Bool,
      let i : Instr := if p then .leapPin h id else .leapUnpin h id
      AdmittedIn s i h 0x0E s1 seq x → s1.memOk →
      (findSlot s1 x id = none → Failed i s s1 (some x.id) h 0x0E seq 6) ∧
      ∀ n, findSlot s1 x id = some n → ∃ s2, Finished i s s2 (some x.id) h 0x0E seq [] ∧
        rawByte s2 (x.leapArea + 4096 * n + 0x15) =
          (if p then rawByte s1 (x.leapArea + 4096 * n + 0x15) ||| 1#8 else rawByte s1 (x.leapArea + 4096 * n + 0x15) &&& 0xFE#8) ∧
        ∀ b, b ≠ x.leapArea + 4096 * n + 0x15 → homeByte s2 b = homeByte s1 b) ∧
    (AdmittedIn s (.leapDiscard h id) h 0x0F s1 seq x →
      (findSlot s1 x id = none → Finished (.leapDiscard h id) s s1 (some x.id) h 0x0F seq []) ∧
      ∀ n, findSlot s1 x id = some n → s1.memOk → ∃ s2, Finished (.leapDiscard h id) s s2 (some x.id) h 0x0F seq [] ∧
        let inside (b : Nat) : Prop := x.leapArea + 4096 * n ≤ b ∧ b < x.leapArea + 4096 * n + 4096
        ∀ b, (inside b → rawByte s2 b = 0#8) ∧ (¬inside b → homeByte s2 b = homeByte s1 b)) ∧
    (∀ va size host, AdmittedIn s (.biasSet h va size host) h 0x11 s1 seq x → 0 < size → va % 65536 = 0 → size % 65536 = 0 →
      hostMapped s1 x va size = true →
      let ps := pagesOf s1 x va size
      let i : Instr := .biasSet h va size host
      (∀ p ∈ ps, va ≤ p.va ∧ p.va + p.size ≤ va + size) →
      (host = false → Finished i s (ps.foldl (fun s p => setLeafBit s p 55 false) s1) (some x.id) h 0x11 seq []) ∧
      (host = true → (∃ p ∈ ps, pageFrozen s1 x p = true) → Failed i s s1 (some x.id) h 0x11 seq 6) ∧
      (host = true → (∀ p ∈ ps, pageFrozen s1 x p = false) →
        let waits := publishPending x va (va + size) = true ∨ ∃ p ∈ ps, pageInstalling s1 x p = true ∨ freezeChecked s1 x p = true
        (waits → exec i s = .next (s1.setCtx { x with running := some ⟨i, seq, 0, [], false⟩ })) ∧
        (¬waits → ∃ y, (beginBias s1 x.id ps).ctx? x.id = some y ∧
          exec i s = .next ((beginBias s1 x.id ps).setCtx { y with running := some ⟨i, seq, 1, [], false⟩ })))) ∧
    (∀ c, AdmittedIn s (.fwInfo ⟨h, c⟩) h 0x13 s1 seq x →
      (c = 0 → Finished (.fwInfo ⟨h, c⟩) s s1 (some x.id) h 0x13 seq (infoReport s1 none)) ∧
      (c = x.id → c ≠ 0 → Finished (.fwInfo ⟨h, c⟩) s s1 (some x.id) h 0x13 seq (infoReport s1 (some x))) ∧
      (c ≠ x.id → c ≠ 0 → Failed (.fwInfo ⟨h, c⟩) s s1 (some x.id) h 0x13 seq 2))) ∧
  ∀ (s s1 : State) (h : CmdHdr) (seq : Nat),
    (∀ first count, Admitted s (.journalRead h first count) h 0x0B none s1 seq → count ≤ 16384 → Finished (.journalRead h first count) s s1 none h 0x0B seq
      ((s1.adminJournal.entries.filter (fun e => decide (first ≤ e.seq) && decide (e.seq < first + count))).flatMap entryBytes)) ∧
    (∀ v : DWord, Admitted s (.setLease h v) h 0x10 none s1 seq →
      let ok := v.toNat / 2 ^ 32 % 2 ^ 20 ≤ 1000000 ∧ v.toNat % 2 ^ 20 ≤ 1000000 ∧ v.toNat / 2 ^ 20 % 2 ^ 12 = 0 ∧ v.toNat / 2 ^ 52 = 0
      (ok → Finished (.setLease h v) s { s1 with lease := v } none h 0x10 seq []) ∧
      (¬ok → Failed (.setLease h v) s s1 none h 0x10 seq 1)) ∧
    (∀ nonce, Admitted s (.attest h nonce) h 0x12 none s1 seq → ∃ sig : List Byte, sig.length = 132 ∧ Finished (.attest h nonce) s s1 none h 0x12 seq
      (toLe nonce.toNat 32 ++ toLe (Config.deviceId ()).toNat 4 ++ toLe (Config.romVersion ()).toNat 4 ++ toLe (fencedMask s1).toNat 32 ++
        sha512 (Config.romBytes ()) ++ (sha512 trustedKeyIds.flatten).take 16 ++ sig)) ∧
    (∀ c, Admitted s (.fwInfo ⟨h, c⟩) h 0x13 none s1 seq →
      (c = 0 → Finished (.fwInfo ⟨h, c⟩) s s1 none h 0x13 seq (infoReport s1 none)) ∧
      (∀ y, c ≠ 0 → s1.ctx? c = some y → Finished (.fwInfo ⟨h, c⟩) s s1 none h 0x13 seq (infoReport s1 (some y))) ∧
      (c ≠ 0 → s1.ctx? c = none → Failed (.fwInfo ⟨h, c⟩) s s1 none h 0x13 seq 1))

/-! ## Events -/

/-- R94, R264, R265, R269, R273, R276 to R278, R294, R295, R303, R310, R256, R268, R406, R407, R410, R6: what the memory system's own events
do, where the state lets them in, that a race leaves an undefined value in the byte it falls on and no other, and that the device's own
writes leave what a read finds in a frozen byte (R327). What another device does is the model's: a request that its home, the line's `HALL` slice, serves at once (log 28). So are that a freeze waits in a state of its
own, `installing`, to its freeze point (log 15), that a result's arrival only marks it (log 14), that a `CPYO` takes its bytes from the
scratchpad as it stood when its team ended (`captured`, log 20), that a core which leaves a line's writer hint
while it owes older writes stays noted for the line (log 51), which byte a race falls on (log 3), that
the device's own writes ask for no frozen byte (log 50), and what a publish point forgets of earlier reads (log 52). -/
def Obligations.MemoryEvents : Prop :=
  (∀ (r : FragRef) (n : Nat) (s : State) (h : Here), s.at? r = some h → ∃ t h', exec (.resultArrival r n) s = .next t ∧ t.at? r = some h' ∧
    (∀ (j : Nat) (p : Pending), h.f.pending[j]? = some p → h'.f.pending[j]? =
      some (if j = n then { p with regs := p.regs.map (fun x => { x with arrived := true }) } else p)) ∧
    (h'.f.status = if h.f.status = .waiting .result then .ready else h.f.status) ∧
    ∀ (j : Fin 8) (f : Frag), j ≠ r.frag → h.g.frags[j] = some f →
      h'.g.frags[j] = some (if f.status = .waiting .result then { f with status := .ready, resume := 0 } else f)) ∧
  (∀ (s : State) (c : Copy), s.memOk → s.copies.find? (fun x => x.id == c.id) = some c → c.written = none → c.stage = none →
    (c.pieces.flatMap (fun p => (List.range p.len).map (fun j => p.dst + j))).Nodup →
    let thaws := ∃ p ∈ c.pieces, ∃ j, j < p.len ∧ s.isThawing (p.dst + j) = true
    (∀ u, c.out = false → s.team? c.team = some u → ∃ t y, exec (.copyComplete c.id) s = .next t ∧
      t.copies = s.copies.filter (fun x => x.id != c.id) ∧
      t.team? c.team = some y ∧ (∀ p ∈ c.pieces, ∀ j, j < p.len → bytesGet y.scratch (p.dst + j) = copySource s c.core (p.src + j)) ∧
      (∀ b, (∀ p ∈ c.pieces, ¬(p.dst ≤ b ∧ b < p.dst + p.len)) → bytesGet y.scratch b = bytesGet u.scratch b) ∧
      ∀ a, homeByte t a = homeByte s a) ∧
    (c.out = true → thaws → exec (.copyComplete c.id) s = .next s) ∧
    (∀ pad, c.out = true → ¬thaws → (∀ g ∈ s.grants, s.stands g = false) →
      (c.captured.map Prod.fst).or ((s.team? c.team).map (fun u => u.scratch)) = some pad →
      ∃ t, exec (.copyComplete c.id) s = .next t ∧ t.copies = s.copies.filter (fun x => x.id != c.id) ∧
        (∀ p ∈ c.pieces, ∀ j, j < p.len → homeByte t (p.dst + j) = bytesGet pad (p.src + j)) ∧
        ∀ a, (∀ p ∈ c.pieces, ¬(p.dst ≤ a ∧ a < p.dst + p.len)) → homeByte t a = homeByte s a)) ∧
  (∀ (s : State) (x : Context) (n : Fin 1024), s.ctx? x.id = some x →
    let e := x.entry n.val
    let hi := e.base + 4096 * e.length
    let bs := rangeBlocks s x e.base hi
    (e.state = .installing → publishPending x e.base hi = true → exec (.freezePoint x.id n) s = .next s) ∧
    (e.state = .installing → publishPending x e.base hi = false → s.memOk → s.redgs = [] → s.copies = [] → s.grants = [] → s.writes = [] →
      accessPending s (inBlocks bs) = false →
      ∃ t y, exec (.freezePoint x.id n) s = .next t ∧ t.ctx? x.id = some y ∧ y.entry n.val = { e with state := .active, blocks := bs } ∧
        (∀ r h, s.at? r = some h → h.g.ctx = x.id → h.f.status = .waiting (.freeze n.val) →
          ∃ h', t.at? r = some h' ∧ h'.f = { h.f with status := .ready, resume := n.val + 1 }) ∧
        (∀ c : Fin 256, ∀ e ∈ (t.core c).l1, e.1 / 4096 * 4096 ∉ bs) ∧
        ∀ a, a / 4096 * 4096 ∉ bs → homeByte t a = homeByte s a) ∧
    (e.state = .thawing → (∀ q ∈ e.holders, q.1 / 1024 < 256 ∨ q.2 + Config.guardNs ≤ s.agentTime (q.1 % 1024)) →
      ∃ t y, exec (.thawComplete x.id n) s = .next t ∧ t.ctx? x.id = some y ∧ (y.entry n.val).state = .free ∧ (y.entry n.val).blocks = [] ∧
        (y.entry n.val).gen = e.gen ∧ (∀ c, (x.id, n.val) ∉ (t.core c).frozen) ∧ ∀ a, homeByte t a = homeByte s a) ∧
    (e.state = .thawing → (∃ q ∈ e.holders, 256 ≤ q.1 / 1024 ∧ s.agentTime (q.1 % 1024) < q.2 + Config.guardNs) →
      exec (.thawComplete x.id n) s = .next s)) ∧
  (∀ (s : State) (w : OutWrite), s.writes.find? (fun x => x.id == w.id) = some w →
    let due := w.emax + Config.guardNs ≤ s.agentTime w.home ∨ ∀ g ∈ s.grants, g.line ≠ w.line
    (due → exec (.writeComplete w.id) s = .next { s with writes := s.writes.filter (fun x => x.id != w.id) }) ∧
    (¬due → exec (.writeComplete w.id) s = .next s)) ∧
  (∀ (s : State) (r : FragRef) (h : Here) (n : Nat) (sc : Scope) (x : Context) (b : PublishBuffer) (begun : Bool), s.memOk → s.at? r = some h →
    h.r = r → h.f.status = .waiting (.publish n sc begun) → s.ctx? h.g.ctx = some x → tableFind x.buffers n = some b → b.publishing = begun →
    s.copies = [] → s.grants = [] → s.writes = [] → s.redgs = [] → (s.core r.core).engine.runs = [] → aheadPending s (inRange b.live b.size) = false →
    ∃ t h' y, exec (.publishPoint r) s = .next t ∧ t.at? r = some h' ∧ h'.f.pc = h.f.pc + 4#64 ∧ h'.f.status = .ready ∧
      h'.g.epoch = h.g.epoch + 1 ∧ t.ctx? h.g.ctx = some y ∧ tableFind y.buffers n = some { b with
        live := b.shadow, shadow := b.live, version := b.version + 1#32, publishing := false, stopped := false, pending := b.pending - 1 } ∧
      ∀ c : Fin 256, ∀ e ∈ (t.core c).reuse, ∀ m, e.key.mem = some m → m.pad = false → ∀ q ∈ m.read, ¬(b.live ≤ q.1 ∧ q.1 < b.live + b.size)) ∧
  (∀ (s : State) (r : FragRef) (h : Here) (n : Nat) (sc : Scope) (x : Context) (b : PublishBuffer), s.at? r = some h → h.r = r →
    h.f.status = .waiting (.publish n sc true) → s.ctx? h.g.ctx = some x → tableFind x.buffers n = some b →
    b.stopped = false → (∃ c ∈ s.copies, c.ctx = h.g.ctx ∧ c.buffer = some n) → exec (.publishPoint r) s = .next s) ∧
  (∀ (s : State) (a : Nat) (bs : List Byte), s.memOk → (∀ j, j < bs.length → rawByte (fwWrite s a bs) (a + j) = bs.getD j 0#8) ∧
    ∀ b, ¬(a ≤ b ∧ b < a + bs.length) ∨ s.isFrozen b = true → homeByte (fwWrite s a bs) b = homeByte s b) ∧
  (∀ (s : State) (n : Nat), s.memOk → (∃ p ∈ s.promotions, p.n = n) → s.writes = [] → s.grants = [] →
    ∃ t, exec (.promotionRequest n) s = .next t ∧ t.promotions = s.promotions.filter (fun p => p.n != n) ∧
      (∀ p ∈ s.promotions, p.n = n → unregistered t p.target = [] ∧ (p.line, p.target.val) ∉ t.hints ∧ (p.line, p.target.val) ∉ t.owing) ∧
      ∀ r h, s.at? r = some h → h.f.status = .waiting (.promote n) → ∃ h', t.at? r = some h' ∧ h'.f = { h.f with status := .ready, resume := 0 }) ∧
  (∀ (c : Fin 256) (line : Nat) (s : State), s.memOk → ∃ t, exec (.l1Eviction c line) s = .next t ∧
    (∀ e ∈ (t.core c).l1, e.1 / 128 ≠ line) ∧
    let dirty := ∃ e ∈ (s.core c).l1, e.1 / 128 = line ∧ ∃ v, e.2 = .dirty v
    (∀ a, homeByte t a = if a / 128 = line then copySource s c a else homeByte s a) ∧ (¬dirty → t.hints = s.hints ∧ t.owing = s.owing) ∧
    (dirty → (line, c.val) ∉ t.hints ∧ (unregistered t c ≠ [] → (line, c.val) ∈ t.owing))) ∧
  (∀ (s : State) (x : Context) (va : Nat) (p : PageAt) (pa : Nat), s.memOk → s.ctx? x.id = some x → biasPage s x va = some p →
    pagePlace s x p = some pa → s.writes = [] → s.grants = [] → s.copies = [] → s.redgs = [] →
    (∀ y ∈ s.contexts, ∀ e ∈ y.regions, e.2.holders = []) → accessPending s (inRange pa p.size) = false →
    ∃ t y, exec (.biasTransitionEnd x.id va) s = .next t ∧ (pteAt t p.entry).getLsbD 55 = true ∧ (pteAt t p.entry).getLsbD 54 = false ∧
      t.ctx? x.id = some y ∧ ∀ b ∈ y.bias, b.va ≠ va) ∧
  (∀ (s : State) (line a : Nat) (bs : List Byte) (op : BitVec 3) (w : Word), s.memOk →
    let home := 256 + (Config.hallSlice line).val
    (∀ l1 : Bool, let len := if l1 then s.lease.toNat % 2 ^ 20 else s.lease.toNat / 2 ^ 32 % 2 ^ 20
      (∀ x ∈ s.contexts, ∀ e ∈ x.regions, e.2.sys = true → e.2.freezes (line * 128) = false) → len ≠ 0 → s.writing line = false →
      s.grantsStopped line = false → exec (.remoteAccessArrival (.read line l1)) s =
        .next { s with grants := ⟨line, home, otherDevice, s.agentTime home + len⟩ :: s.grants }) ∧
    ((∀ j, j < bs.length → s.isFrozen (a + j) = false ∧ s.isThawing (a + j) = false) →
      ∃ t, exec (.remoteAccessArrival (.write a bs)) s = .next t ∧ (∀ j, j < bs.length → homeByte t (a + j) = bs.getD j 0#8) ∧
        ∀ b, ¬(a ≤ b ∧ b < a + bs.length) → homeByte t b = homeByte s b) ∧
    ((∀ j, j < 4 → s.isFrozen (a + j) = false ∧ s.isThawing (a + j) = false) →
      ∃ t, exec (.remoteAccessArrival (.atomic a op w)) s = .next t ∧
        homeByte t (a + 3) ++ homeByte t (a + 2) ++ homeByte t (a + 1) ++ homeByte t a =
          atomOp op (homeByte s (a + 3) ++ homeByte s (a + 2) ++ homeByte s (a + 1) ++ homeByte s a) w ∧
        ∀ b, ¬InWord a b → homeByte t b = homeByte s b) ∧
    ∃ t, exec (.remoteAccessArrival (.recall line)) s = .next t ∧ (∀ g ∈ t.grants, g.line = line → g.holder ≠ otherDevice) ∧
      ∀ b, homeByte t b = homeByte s b) ∧
  (∀ (s : State) (ctx : Nat) (va : DWord) (shadow : Bool), s.memOk →
    (∀ a, racedByte s ctx va shadow = some a → homeByte (race s (.byte ctx va shadow)) a = Config.freeByte s.choices ∧
      ∀ b, b ≠ a → homeByte (race s (.byte ctx va shadow)) b = homeByte s b) ∧
    (racedByte s ctx va shadow = none → race s (.byte ctx va shadow) = s)) ∧
  ∀ (c : Fin 256) (s : State) (f : Fetch) (lo hi : Nat), (s.core c).fetches.find? (fun x => x.n == f.n) = some f →
    firstFetch (s.core c) f = true → f.req = .line lo hi →
    (f.leap = false → ∃ t, exec (.lineFetch c f.n) s = .next t ∧ { t with cores := s.cores } = s ∧ (∀ d, d ≠ c → t.core d = s.core d) ∧
      t.core c = { s.core c with fetches := (s.core c).fetches.filter (fun x => x.n != f.n) }) ∧
    ∀ l im p, f.leap = true → s.launch? f.launch = some l → l.image = some im → inWindow f im lo hi = true →
      fetchPlace s f.ctx lo = some p → budgetHeld (s.core c) f.launch + 128 ≤ im.budget → ∃ t y, exec (.lineFetch c f.n) s = .next t ∧
        t.launch? f.launch = some y ∧ y = { l with issued := l.issued + 1 } ∧ { t with cores := s.cores, launches := s.launches } = s ∧
        (t.core c).budgeted = (s.core c).budgeted ++ [(f.launch, p.pa / 128)] ∧
        (t.core c).fetches = (s.core c).fetches.filter (fun x => x.n != f.n)

/-- R41 to R44, R211, R217, R218, R267, R270, R329, R361, R365, R369, R379 to R382, R412, R424 to R427: what the distributors, the firmware and the
package do by themselves, where the state lets them. The reason 0 of a launch with a trapped team (log 18), the class of a context and
where its slice begins (log 19), the bring-up as one event (log 46), with the slices and counters it resets, and that packets and slices have
no events in a device without power (log 52) are the model's choice. -/
def Obligations.PackageEvents : Prop :=
  (∀ (p : Fin 8) (s : State), s.phase = .ready ∨ s.phase = .failed → ∃ t, exec (.unsupportedPacket p) s = .next t ∧ { t with ports := s.ports } = s ∧
    t.ports[p] = s.ports[p] + 1 ∧ ∀ q : Fin 8, q ≠ p → t.ports[q] = s.ports[q]) ∧
  (∀ (s : State) (l : Launch) (rest : List Launch) (b : LaunchBlock) (x : Context) (d : Nat) (c : Fin 256), placeOrder s = l :: rest →
    s.block? l = some b → s.ctx? l.ctx = some x → chooseCore s b = some (d, c) → s.launch? l.id = some l →
    b.members.length ≤ (s.core c).freeSlots → ∃ t u y, exec .teamPlacement s = .next t ∧ t.teams = s.teams ++ [u] ∧ u.uid = s.fresh + 1 ∧ NoClean t c ∧
      u.launch = l.id ∧ u.teamid = BitVec.ofNat 32 l.nextTeam ∧ u.core = c ∧ u.scratchSize = b.scratch ∧ u.moving = none ∧
      t.launch? l.id = some y ∧ y.nextTeam = l.nextTeam + 1 ∧ t.diePointer = (d + 1) % 4 ∧ (t.core c).split = some b.split ∧
      ∀ n m, b.members[n]? = some m → ∃ j g f, t.group? c j = some g ∧ g.team = some u.uid ∧ g.grpid = n ∧ g.role = m.role ∧
        g.budget = m.budget ∧ g.ctx = x.id ∧ g.live = [0] ∧ g.frags[(0 : Fin 8)] = some f ∧ f.pc = m.entry ∧ f.slices = 0xFF#8 ∧ f.status = .ready) ∧
  (∀ (s : State) (u : Team) (l : Launch) (b : LaunchBlock) (dest : Fin 256), s.team? u.uid = some u → s.launch? u.launch = some l →
    s.block? l = some b → mayMove s u = true → dest ≠ u.core → teamFits s b dest = true →
    (seatSame (s.core dest) (teamGroups s u)).isSome = true →
    ∃ t, exec (.teamMigration u.uid dest) s = .next t ∧ t.team? u.uid = some { u with core := dest, moving := some u.core } ∧
      (∀ j g, s.group? u.core j = some g → g.team = some u.uid → t.group? u.core j = none) ∧
      ∀ g ∈ teamGroups s u, ∃ j, j.val / 16 = g.1.val / 16 ∧ t.group? dest j = some (movedGroup g.2)) ∧
  (∀ (s : State) (u : Team) (old : Fin 256), s.team? u.uid = some u → u.moving = some old → (∀ w ∈ s.writes, w.core ≠ old) →
    (∀ c ∈ s.copies, c.team ≠ u.uid) → ∃ t, exec (.teamMoveArrival u.uid) s = .next t ∧ t.team? u.uid = some { u with moving := none } ∧
      NoClean t u.core ∧ ∀ a, homeByte t a = homeByte s a) ∧
  (∀ (s : State) (l : Launch), s.launch? l.id = some l → launchQuiet s l = true → l.kind = .host → l.observed = false → s.writes = [] →
    (∀ c ∈ l.cores, unregistered s (Fin.ofNat 256 c) = []) → ∀ x, s.ctx? l.ctx = some x →
    ∃ t, exec (.launchDone l.id) s = .next t ∧ t.launch? l.id = none ∧ (∀ m, m ≠ l.id → t.launch? m = s.launch? m) ∧
      ∀ e ∈ x.journal.entries, e.seq = l.seq → e.state.final = false → (∀ e1 ∈ x.journal.entries, e1.seq = l.seq → e1 = e) →
        { e with
          state := if l.discarded then .resetDiscarded else if l.trapped then .failed else .done, reason := 0, timeEnded := s.now } ∈ (t.journal (some l.ctx)).entries) ∧
  (∀ (s : State) (e : Emitted) (x : Context) (i : Nat) (n : Node), s.emits.find? (fun y => y.id == e.id) = some e → recordHeld s e = false →
    s.ctx? e.ctx = some x → (moduleNodes x (moduleOf s e.launch))[e.record.node]? = some i → x.nodes[i]? = some n →
    n.bin.length + 1 < n.coalesce → n.capacity = 0 → ∃ t y n', exec (.emitRecordArrival e.id) s = .next t ∧ t.ctx? e.ctx = some y ∧
      y.nodes[i]? = some n' ∧ n'.bin = n.bin ++ [e.record] ∧ t.emits = s.emits.filter (fun y => y.id != e.id) ∧
      n'.expiry = (if n.bin = [] ∧ n.timer ≠ 0 then some (s.now + n.timer) else n.expiry) ∧
      ∀ j m, j ≠ i → x.nodes[j]? = some m → y.nodes[j]? = some m) ∧
  (∀ (s : State) (x : Context) (i e : Nat) (n : Node) (b : LaunchBlock), s.ctx? x.id = some x → x.nodes[i]? = some n → n.expiry = some e →
    e ≤ s.now → n.bin ≠ [] → kernelOf s x.id n.module n.block = some b → ∃ t l y n', exec (.nodeTimerExpiry x.id i) s = .next t ∧
      t.launches = s.launches ++ [l] ∧ l.ctx = x.id ∧ l.module = n.module ∧ l.block = n.block ∧ l.grid = 1 ∧
      l.args.head? = some (BitVec.ofNat 64 n.bin.length) ∧ t.ctx? x.id = some y ∧ y.nodes[i]? = some n' ∧ n'.bin = [] ∧ n'.expiry = none) ∧
  (∀ (s : State) (x : Context), s.ctx? x.id = some x →
    (x.sliceNs = 0 ∨ s.now < x.sliceFrom + x.sliceNs → exec (.timeSliceExpiry x.id) s = .next s) ∧
    (x.sliceNs ≠ 0 → x.sliceFrom + x.sliceNs ≤ s.now →
    (∃ l ∈ s.launches, l.ctx ≠ x.id ∧ l.nextTeam < l.grid ∧ contextClass s x.id ≤ l.prio) →
    ∃ t y, exec (.timeSliceExpiry x.id) s = .next t ∧ t.ctx? x.id = some y ∧ y.preempt = true ∧
      ∀ z ∈ s.contexts, z.id ≠ x.id → z.parked = true → ∃ w, t.ctx? z.id = some w ∧ w.parked = false ∧ w.preempt = false)) ∧
  (∀ (s : State) (x : Context), s.ctx? x.id = some x →
    (x.deadlineLeft ≠ 0 → exec (.deadlineExpiry x.id) s = .next s) ∧
    (x.deadlineLeft = 0 → x.preempt = true → contextTeams s x.id ≠ [] → ∃ t, exec (.deadlineExpiry x.id) s = .next t ∧
      ∀ u ∈ contextTeams s x.id, t.team? u.uid = none)) ∧
  (∀ (s : State) (x : Context) (c : Fin 256), s.memOk → s.ctx? x.id = some x → x.samplePeriod ≠ 0 →
    (∀ d : Fin 256, (s.core d).groups.any (fun g => g.ctx == x.id) = decide (d = c)) →
    let w := fwRead s x.sampleRing 8
    let r := fwRead s (x.sampleRing + 8) 8
    let cap := fwRead s (x.sampleRing + 24) 8
    r ≤ w → w + 4 ≤ r + cap → w + 4 < 2 ^ 64 → ∃ t, exec (.stallSample x.id) s = .next t ∧ fwRead t x.sampleRing 8 = w + 4 ∧
      fwRead t (x.sampleRing + 8) 8 = r ∧ ∀ a, ¬(x.sampleRing ≤ a ∧ a < x.sampleRing + 32 + 16 * cap) → homeByte t a = homeByte s a) ∧
  (∀ (s : State) (b : Fin 9) (n g : Nat) (c : Fin 256) (slot : Fin 64) (r : Reg) (l : Fin 32) (tile : BitVec 2) (row col : Fin 128),
    (∃ t, exec (.eccError (.refetched b)) s = .next t ∧ { t with ecc := s.ecc } = s ∧ t.ecc[b] = s.ecc[b] + 1) ∧
    exec (.eccError (.memory g)) s = .next { s with poison := setAdd s.poison g } ∧
    (n < (s.core c).reuse.length → ∃ t, exec (.eccError (.reuse c n)) s = .next t ∧ t.ecc = s.ecc.set 4 (s.ecc[4] + 1) ∧
      { t with ecc := s.ecc } = s.setCore c { s.core c with reuse := (s.core c).reuse.eraseIdx n }) ∧
    (∀ x (k : BitVec 3), s.group? c slot = some x → ∃ t y, exec (.eccError (.trapRegister c slot k l)) s = .next t ∧
      t.group? c slot = some y ∧ (kGet y.hv k).lanes = (kGet x.hv k).lanes ∧
      (∀ m, (kGet y.hv k).poison.getLsbD m = ((kGet x.hv k).poison.getLsbD m || decide (m = l.val))) ∧
      { y with hv := x.hv } = x ∧ ∀ j, j ≠ k → kGet y.hv j = kGet x.hv j) ∧
    (∀ u, s.team? n = some u → 32 * g < u.scratchSize → ∃ t y, exec (.eccError (.scratchpad n g)) s = .next t ∧ t.team? n = some y ∧
      { y with scratchPoison := u.scratchPoison } = u ∧ y.scratchPoison = setAdd u.scratchPoison g) ∧
    (∃ t, exec (.eccError (.accumulator c tile row col)) s = .next t ∧
      (t.core c).engine.accPoison[tile.toFin] = setAdd (s.core c).engine.accPoison[tile.toFin] (128 * row.val + col.val) ∧
      (t.core c).engine.acc = (s.core c).engine.acc) ∧
    (∀ x v, s.group? c slot = some x → regGet x.v r = some v → ∃ t y v', exec (.eccError (.register c slot r l)) s = .next t ∧
      t.group? c slot = some y ∧ regGet y.v r = some v' ∧ v'.lanes = v.lanes ∧ v'.serial = none ∧
      ∀ m, v'.poison.getLsbD m = (v.poison.getLsbD m || decide (m = l.val)))) ∧
  (∀ (p : Fin 8) (a : Fin 512) (z : Int) (s : State), s.phase = .off ∨ s.phase = .booting →
    ∀ i ∈ ([.unsupportedPacket p, .syncLoss a, .syncRestored a z] : List Instr), exec i s = .next s) ∧
  (∀ (a : Fin 512) (d : Fin 4) (z : Int) (s : State), s.phase = .ready ∨ s.phase = .failed →
    (∃ t, exec (.syncLoss a) s = .next t ∧ (t.agent a.val).inSync = false ∧ (t.agent a.val).skew = (s.agent a.val).skew ∧
      (∀ b : Fin 512, b ≠ a → t.agent b.val = s.agent b.val) ∧ (∀ x, homeByte t x = homeByte s x) ∧
      ∀ c : Fin 256, c.val = a.val → ∀ e ∈ (t.core c).l1, ∀ v n, e.2 ≠ .clean v (some n)) ∧
    let may := (s.agent a.val).inSync = false ∧ z.natAbs ≤ Config.guardNs ∧
        ∀ b : Fin 512, (s.agent b.val).inSync = true → ((s.agent b.val).skew - z).natAbs ≤ Config.guardNs
    (¬may → exec (.syncRestored a z) s = .next s) ∧
    (may → ∃ t, exec (.syncRestored a z) s = .next t ∧ (t.agent a.val).inSync = true ∧ (t.agent a.val).skew = z ∧
      (∀ b : Fin 512, b ≠ a → t.agent b.val = s.agent b.val) ∧ { t with cores := s.cores, slices := s.slices } = s) ∧
    exec (.droopSlowdown d) s = .next { s with droop := s.droop.set d true } ∧
    exec (.droopRecovery d) s = .next { s with droop := s.droop.set d false }) ∧
  ∀ (failed : BitVec 256) (other : Bool) (s : State),
    (s.phase = .booting → ∃ t, exec (.powerOn failed other) s = .next t ∧ t.phase = (if other then .failed else .ready) ∧
      (∀ a, homeByte t a = 0#8) ∧ (∀ p : Fin 8, t.ports[p] = 0) ∧ (∀ b : Fin 9, t.ecc[b] = 0) ∧
      (∀ n : Fin 256, t.slices[n] = ⟨true, 0⟩) ∧ ∀ c : Fin 256, t.core c = { Core.reset with fenced := failed.getLsbD c.val }) ∧
    (s.phase = .ready → exec (.powerOn failed other) s = .next s) ∧
    ∃ t, exec .powerLoss s = .next t ∧ t.phase = .off ∧ t.contexts = [] ∧ t.launches = [] ∧ t.teams = [] ∧ t.mem = [] ∧ t.now = s.now
end

