-- ==== Sys2Proof/Laws/State.lean ====
section
/-! SUPPORT. What each update of the state leaves as it was, one field at a time, and reading back a core, a group, a fragment.
-/

namespace Sys2Proof.Machine

/-! ## One core -/

@[simp] theorem core_setCore_same (s : State) (c : Fin 256) (k : Core) : (s.setCore c k).core c = k := by
  simp [State.core, State.setCore]

/-- Putting a core back as it is changes nothing. -/
theorem setCore_self (s : State) (c : Fin 256) : s.setCore c (s.core c) = s := by
  have : s.cores.set c (s.core c) = s.cores := by
    apply Vector.ext; intro i hi
    by_cases e : c.val = i
    · subst e; simp [State.core]
    · simp [e]
  unfold State.setCore; rw [this]

theorem setCore_setCore (s : State) (c : Fin 256) (j k : Core) : (s.setCore c j).setCore c k = s.setCore c k := by
  simp [State.setCore]

theorem core_setCore_ne (s : State) (c d : Fin 256) (k : Core) (h : d ≠ c) : (s.setCore c k).core d = s.core d := by
  have : c.val ≠ d.val := fun e => h (Fin.ext e.symm)
  simp [State.core, State.setCore, this]

@[simp] theorem setCore_phase (s : State) (c : Fin 256) (k : Core) : (s.setCore c k).phase = s.phase := rfl
@[simp] theorem setCore_now (s : State) (c : Fin 256) (k : Core) : (s.setCore c k).now = s.now := rfl
@[simp] theorem setCore_mem (s : State) (c : Fin 256) (k : Core) : (s.setCore c k).mem = s.mem := rfl
@[simp] theorem setCore_freeAt (s : State) (c : Fin 256) (k : Core) : (s.setCore c k).freeAt = s.freeAt := rfl
@[simp] theorem setCore_kept (s : State) (c : Fin 256) (k : Core) : (s.setCore c k).kept = s.kept := rfl
@[simp] theorem setCore_poison (s : State) (c : Fin 256) (k : Core) : (s.setCore c k).poison = s.poison := rfl
@[simp] theorem setCore_registered (s : State) (c : Fin 256) (k : Core) : (s.setCore c k).registered = s.registered := rfl
@[simp] theorem setCore_slices (s : State) (c : Fin 256) (k : Core) : (s.setCore c k).slices = s.slices := rfl
@[simp] theorem setCore_sliceCopies (s : State) (c : Fin 256) (k : Core) : (s.setCore c k).sliceCopies = s.sliceCopies := rfl
@[simp] theorem setCore_grants (s : State) (c : Fin 256) (k : Core) : (s.setCore c k).grants = s.grants := rfl
@[simp] theorem setCore_writes (s : State) (c : Fin 256) (k : Core) : (s.setCore c k).writes = s.writes := rfl
@[simp] theorem setCore_hints (s : State) (c : Fin 256) (k : Core) : (s.setCore c k).hints = s.hints := rfl
@[simp] theorem setCore_owing (s : State) (c : Fin 256) (k : Core) : (s.setCore c k).owing = s.owing := rfl
@[simp] theorem setCore_lease (s : State) (c : Fin 256) (k : Core) : (s.setCore c k).lease = s.lease := rfl
@[simp] theorem setCore_diePointer (s : State) (c : Fin 256) (k : Core) : (s.setCore c k).diePointer = s.diePointer := rfl
@[simp] theorem setCore_droop (s : State) (c : Fin 256) (k : Core) : (s.setCore c k).droop = s.droop := rfl
@[simp] theorem setCore_ports (s : State) (c : Fin 256) (k : Core) : (s.setCore c k).ports = s.ports := rfl
@[simp] theorem setCore_ecc (s : State) (c : Fin 256) (k : Core) : (s.setCore c k).ecc = s.ecc := rfl
@[simp] theorem setCore_contexts (s : State) (c : Fin 256) (k : Core) : (s.setCore c k).contexts = s.contexts := rfl
@[simp] theorem setCore_modules (s : State) (c : Fin 256) (k : Core) : (s.setCore c k).modules = s.modules := rfl
@[simp] theorem setCore_launches (s : State) (c : Fin 256) (k : Core) : (s.setCore c k).launches = s.launches := rfl
@[simp] theorem setCore_teams (s : State) (c : Fin 256) (k : Core) : (s.setCore c k).teams = s.teams := rfl
@[simp] theorem setCore_copies (s : State) (c : Fin 256) (k : Core) : (s.setCore c k).copies = s.copies := rfl
@[simp] theorem setCore_redgs (s : State) (c : Fin 256) (k : Core) : (s.setCore c k).redgs = s.redgs := rfl
@[simp] theorem setCore_emits (s : State) (c : Fin 256) (k : Core) : (s.setCore c k).emits = s.emits := rfl
@[simp] theorem setCore_promotions (s : State) (c : Fin 256) (k : Core) : (s.setCore c k).promotions = s.promotions := rfl
@[simp] theorem setCore_adminJournal (s : State) (c : Fin 256) (k : Core) : (s.setCore c k).adminJournal = s.adminJournal := rfl
@[simp] theorem setCore_accepted (s : State) (c : Fin 256) (k : Core) : (s.setCore c k).accepted = s.accepted := rfl
@[simp] theorem setCore_heldCmds (s : State) (c : Fin 256) (k : Core) : (s.setCore c k).heldCmds = s.heldCmds := rfl
@[simp] theorem setCore_outbox (s : State) (c : Fin 256) (k : Core) : (s.setCore c k).outbox = s.outbox := rfl
@[simp] theorem setCore_fwBlocks (s : State) (c : Fin 256) (k : Core) : (s.setCore c k).fwBlocks = s.fwBlocks := rfl
@[simp] theorem setCore_fresh (s : State) (c : Fin 256) (k : Core) : (s.setCore c k).fresh = s.fresh := rfl
@[simp] theorem setCore_agenda (s : State) (c : Fin 256) (k : Core) : (s.setCore c k).agenda = s.agenda := rfl
@[simp] theorem setCore_choices (s : State) (c : Fin 256) (k : Core) : (s.setCore c k).choices = s.choices := rfl
@[simp] theorem setCore_cur (s : State) (c : Fin 256) (k : Core) : (s.setCore c k).cur = s.cur := rfl

/-- A change of a core is a change of the cores alone. -/
theorem setCore_package (s : State) (c : Fin 256) (k : Core) : { s.setCore c k with cores := s.cores } = s := rfl

/-! ## One slot -/

@[simp] theorem setSlot_l1 (k : Core) (i : Fin 64) (g : Option Group) : (k.setSlot i g).l1 = k.l1 := rfl
@[simp] theorem setSlot_reuse (k : Core) (i : Fin 64) (g : Option Group) : (k.setSlot i g).reuse = k.reuse := rfl
@[simp] theorem setSlot_seen (k : Core) (i : Fin 64) (g : Option Group) : (k.setSlot i g).seen = k.seen := rfl
@[simp] theorem setSlot_rhit (k : Core) (i : Fin 64) (g : Option Group) : (k.setSlot i g).rhit = k.rhit := rfl
@[simp] theorem setSlot_rmiss (k : Core) (i : Fin 64) (g : Option Group) : (k.setSlot i g).rmiss = k.rmiss := rfl
@[simp] theorem setSlot_rcoll (k : Core) (i : Fin 64) (g : Option Group) : (k.setSlot i g).rcoll = k.rcoll := rfl
@[simp] theorem setSlot_engine (k : Core) (i : Fin 64) (g : Option Group) : (k.setSlot i g).engine = k.engine := rfl
@[simp] theorem setSlot_bar (k : Core) (i : Fin 64) (g : Option Group) : (k.setSlot i g).bar = k.bar := rfl
@[simp] theorem setSlot_fetches (k : Core) (i : Fin 64) (g : Option Group) : (k.setSlot i g).fetches = k.fetches := rfl
@[simp] theorem setSlot_inSync (k : Core) (i : Fin 64) (g : Option Group) : (k.setSlot i g).inSync = k.inSync := rfl
@[simp] theorem setSlot_skew (k : Core) (i : Fin 64) (g : Option Group) : (k.setSlot i g).skew = k.skew := rfl

theorem setSlot_same (k : Core) (i : Fin 64) (g : Option Group) : (k.setSlot i g).slots[i] = g := by
  simp [Core.setSlot]

theorem setSlot_ne (k : Core) (i j : Fin 64) (g : Option Group) (h : j ≠ i) : (k.setSlot i g).slots[j] = k.slots[j] := by
  have : i.val ≠ j.val := fun e => h (Fin.ext e.symm)
  simp [Core.setSlot, this]

/-! ## One group -/

theorem group?_setGroup_same (s : State) (c : Fin 256) (i : Fin 64) (g : Option Group) : (s.setGroup c i g).group? c i = g := by
  simp [State.setGroup, State.group?, Core.setSlot]

theorem group?_setGroup_ne (s : State) (c d : Fin 256) (i j : Fin 64) (g : Option Group) (h : d ≠ c ∨ j ≠ i) :
    (s.setGroup c i g).group? d j = s.group? d j := by
  by_cases hd : d = c
  · subst hd
    have hj : j ≠ i := by tauto
    simp only [State.setGroup, State.group?, core_setCore_same]
    exact setSlot_ne _ _ _ _ hj
  · simp only [State.setGroup, State.group?, core_setCore_ne _ _ _ _ hd]

/-! ## One fragment -/

/-- A fragment that is put back is found again. -/
theorem at?_put (s : State) (h : Here) (hs : h.f.status ≠ .exited) : (s.put h).at? h.r = some ⟨h.r, h.group, h.f⟩ := by
  simp [State.at?, State.put, group?_setGroup_same, Here.group, hs]

/-- The fragment that issues stands at its place. -/
theorem here?_spec {s : State} {h : Here} (e : s.here? = some h) :
    s.cur = some h.r ∧ s.group? h.r.core h.r.slot = some h.g ∧ h.g.frags[h.r.frag] = some h.f ∧ h.f.status ≠ .exited := by
  unfold State.here? at e
  cases hc : s.cur with
  | none => simp [hc] at e
  | some r =>
    simp only [hc, Option.bind_some] at e
    unfold State.at? at e
    split at e
    · cases e
    · next g hg =>
      split at e
      · cases e
      · next f hf =>
        split at e
        · cases e
        · next hx => cases e; exact ⟨rfl, hg, hf, hx⟩

theorem group_frags_self (h : Here) : h.group.frags[h.r.frag] = some h.f := by simp [Here.group]

theorem group_frags_ne (h : Here) (j : Fin 8) (hj : j ≠ h.r.frag) : h.group.frags[j] = h.g.frags[j] := by
  have : h.r.frag.val ≠ j.val := fun e => hj (Fin.ext e.symm)
  simp [Here.group, this]

/-- `onFragment` answers a next state wherever a fragment issues. -/
theorem onFragment_next {s : State} {h : Here} (i : Instr) (cl : RoleClass) (f : Here → State) (e : s.here? = some h) :
    ∃ t, onFragment s i cl f = .next t := by simp [onFragment, e]

end Sys2Proof.Machine
end

