-- ==== Sys2Proof/Laws/Lane.lean ====
section
/-! SUPPORT. The one way in which a lane instruction runs, said once: what the writes of a destination do, and that an instruction whose
checks pass has run to its end as `LaneDone` says (R48, R62, R91, R148, R153).
-/

namespace Sys2Proof.Machine

/-! ## Masks and lanes -/

@[simp] theorem maskOf_getLsbD (p : Fin 32 → Bool) (l : Fin 32) : (maskOf p).getLsbD l.val = p l := by
  simp [maskOf]

@[simp] theorem make_get {α : Type} (f : Fin 32 → α) (l : Fin 32) : (Lanes.make f)[l] = f l := by simp [Lanes.make]

theorem laneMask_ext {a b : LaneMask} (h : ∀ l : Fin 32, a.getLsbD l.val = b.getLsbD l.val) : a = b :=
  BitVec.eq_of_getLsbD_eq (fun i hi => h ⟨i, hi⟩)

theorem laneMask_ne_zero {m : LaneMask} {l : Fin 32} (h : m.getLsbD l.val = true) : m ≠ 0#32 := by
  intro e; simp [e] at h

theorem mem_lanesIn {m : LaneMask} {l : Fin 32} : l ∈ lanesIn m ↔ m.getLsbD l.val = true := by simp [lanesIn]

@[simp] theorem regGet_regSet_same {α : Type} (v : Vector α 64) (n : Reg) (x : α) : regGet (regSet v n x) n = x := by
  simp [regGet, regSet]

theorem regGet_regSet_ne {α : Type} (v : Vector α 64) (n m : Reg) (x : α) (h : m ≠ n) : regGet (regSet v n x) m = regGet v m := by
  have : n.toNat ≠ m.toNat := fun e => h (BitVec.eq_of_toNat_eq e.symm)
  simp [regGet, regSet, this]

@[simp] theorem kGet_kSet_same {α : Type} (v : Vector α 8) (n : KReg) (x : α) : kGet (kSet v n x) n = x := by
  simp [kGet, kSet]

theorem kGet_kSet_ne {α : Type} (v : Vector α 8) (n m : KReg) (x : α) (h : m ≠ n) : kGet (kSet v n x) m = kGet v m := by
  have : n.toNat ≠ m.toNat := fun e => h (BitVec.eq_of_toNat_eq e.symm)
  simp [kGet, kSet, this]

/-- Two trap registers with one index are one register. -/
theorem trapIndex_inj {n m : Reg} (hn : 56 ≤ n.toNat) (hm : 56 ≤ m.toNat) (h : trapIndex n = trapIndex m) : n = m := by
  have := congrArg BitVec.toNat h
  simp only [trapIndex, BitVec.toNat_ofNat] at this
  apply BitVec.eq_of_toNat_eq
  have := n.isLt; have := m.isLt
  omega

/-! ## Writes of a run of destinations -/

/-- What the writes so far have done to each lane word of each register: the word and its poison, or nothing. -/
abbrev Edits := Reg → Fin 32 → Option (Word × Bool)

/-- From (s0, h0) some lane words have been written, and nothing else. -/
structure Wrote (s0 s : State) (h0 h : Here) (P : Edits) : Prop where
  state : s = s0.setCore h0.r.core { s0.core h0.r.core with rcoll := (s.core h0.r.core).rcoll }
  ref : h.r = h0.r
  group : { h.g with v := h0.g.v, hv := h0.g.hv, killSet := h0.g.killSet } = h0.g
  frag : { h.f with pending := h0.f.pending } = h0.f
  words : ∀ (n : Reg) (l : Fin 32), match P n l with
    | some w => (h.v n)[l] = w.1 ∧ (h.vreg n).poison.getLsbD l.val = w.2
    | none => (h.v n)[l] = (h0.v n)[l] ∧ (h.vreg n).poison.getLsbD l.val = (h0.vreg n).poison.getLsbD l.val
  hidden : ∀ n : Reg, h0.trapReg n = true → regGet h.g.v n = regGet h0.g.v n
  trapFile : h0.inHandler = false → h.g.hv = h0.g.hv

theorem Wrote.refl (s : State) (h : Here) : Wrote s s h h (fun _ _ => none) where
  state := (setCore_self s h.r.core).symm
  ref := rfl
  group := rfl
  frag := rfl
  words := fun _ _ => ⟨rfl, rfl⟩
  hidden := fun _ _ => rfl
  trapFile := fun _ => rfl

theorem Wrote.handler {s0 s : State} {h0 h : Here} {P : Edits} (w : Wrote s0 s h0 h P) : h.g.handler = h0.g.handler :=
  by have e := congrArg Group.handler w.group; exact e

theorem Wrote.inHandler {s0 s : State} {h0 h : Here} {P : Edits} (w : Wrote s0 s h0 h P) : h.inHandler = h0.inHandler := by
  simp [Here.inHandler, w.handler, w.ref]

theorem Wrote.trapReg {s0 s : State} {h0 h : Here} {P : Edits} (w : Wrote s0 s h0 h P) (n : Reg) : h.trapReg n = h0.trapReg n := by
  simp [Here.trapReg, w.inHandler]

theorem Wrote.index {s0 s : State} {h0 h : Here} {P : Edits} (w : Wrote s0 s h0 h P) : h.g.x = h0.g.x :=
  by have e := congrArg Group.x w.group; exact e

theorem Wrote.view {s0 s : State} {h0 h : Here} {P : Edits} (w : Wrote s0 s h0 h P) : h.f.view = h0.f.view :=
  by have e := congrArg Frag.view w.frag; exact e

/-- The names of lanes through windows do not move. -/
theorem Wrote.named {s0 s : State} {h0 h : Here} {P : Edits} (w : Wrote s0 s h0 h P) (a : BitVec 2) (x : BitVec 3) (l : Fin 32) :
    h.named a x l = h0.named a x l := by
  simp only [Here.named, Here.w, Here.x, w.view, w.index]

/-- Dropping results in flight writes nothing. -/
theorem Wrote.pending {s0 s : State} {h0 h : Here} {P : Edits} (w : Wrote s0 s h0 h P) (p : List Pending) :
    Wrote s0 s h0 { h with f := { h.f with pending := p } } P where
  state := w.state
  ref := w.ref
  group := w.group
  frag := by have := w.frag; simpa using this
  words := w.words
  hidden := w.hidden
  trapFile := w.trapFile

/-- The register that a write of some lanes leaves. -/
def VReg.written (o : VReg) (x : Lanes Word) (m p : LaneMask) (serial : Option Nat) : VReg :=
  { lanes := mergeLanes o.lanes x m, poison := (o.poison &&& ~~~m) ||| (p &&& m), serial := serial }

theorem writeLanes_trap {h : Here} {n : Reg} (ht : h.trapReg n = true) (x : Lanes Word) (m p : LaneMask) (serial : Option Nat) :
    h.writeLanes n x m p serial =
      { h with g := { h.g with hv := kSet h.g.hv (trapIndex n) ((h.vreg n).written x m p none) } } := by
  simp [Here.writeLanes, ht, VReg.written]

theorem writeLanes_own {h : Here} {n : Reg} (ht : h.trapReg n = false) (x : Lanes Word) (m p : LaneMask) (serial : Option Nat) :
    h.writeLanes n x m p serial =
      { h with g := { h.g with v := regSet h.g.v n (some ((h.vreg n).written x m p serial))
                               killSet := h.g.killSet &&& ~~~(1#64 <<< n.toNat) } } := by
  simp [Here.writeLanes, ht, VReg.written]

theorem writeLanes_vreg (h : Here) (n r : Reg) (x : Lanes Word) (m p : LaneMask) (serial : Option Nat) :
    (h.writeLanes n x m p serial).vreg r =
      if r = n then (h.vreg n).written x m p (if h.trapReg n then none else serial) else h.vreg r := by
  cases ht : h.trapReg n with
  | true =>
    have hn : 56 ≤ n.toNat := by simp [Here.trapReg] at ht; exact ht.2
    rw [writeLanes_trap ht]
    generalize hw : (h.vreg n).written x m p none = w
    have e : ({ h with g := { h.g with hv := kSet h.g.hv (trapIndex n) w } } : Here).trapReg r = h.trapReg r := rfl
    unfold Here.vreg
    rw [e]
    cases hr : h.trapReg r with
    | true =>
      have hr' : 56 ≤ r.toNat := by simp [Here.trapReg] at hr; exact hr.2
      by_cases hrn : r = n
      · subst hrn
        simp [← hw, Here.vreg, ht]
      · have hi : trapIndex r ≠ trapIndex n := fun e => hrn (trapIndex_inj hr' hn e)
        simp [hrn, kGet_kSet_ne _ _ _ _ hi]
    | false =>
      have hrn : r ≠ n := by intro e; subst e; simp [ht] at hr
      simp [hrn]
  | false =>
    rw [writeLanes_own ht]
    generalize hw : (h.vreg n).written x m p serial = w
    have e : ({ h with g := { h.g with v := regSet h.g.v n (some w), killSet := h.g.killSet &&& ~~~(1#64 <<< n.toNat) } } : Here).trapReg r = h.trapReg r := rfl
    unfold Here.vreg
    rw [e]
    cases hr : h.trapReg r with
    | true =>
      have hrn : r ≠ n := by intro e; subst e; simp [ht] at hr
      simp [hrn]
    | false =>
      by_cases hrn : r = n
      · subst hrn; simp [← hw, Here.vreg, ht]
      · simp [hrn, regGet_regSet_ne]

theorem writeLanes_r (h : Here) (n : Reg) (x : Lanes Word) (m p : LaneMask) (serial : Option Nat) :
    (h.writeLanes n x m p serial).r = h.r := by
  cases ht : h.trapReg n
  · rw [writeLanes_own ht]
  · rw [writeLanes_trap ht]

theorem writeLanes_f (h : Here) (n : Reg) (x : Lanes Word) (m p : LaneMask) (serial : Option Nat) :
    (h.writeLanes n x m p serial).f = h.f := by
  cases ht : h.trapReg n
  · rw [writeLanes_own ht]
  · rw [writeLanes_trap ht]

theorem writeLanes_group (h : Here) (n : Reg) (x : Lanes Word) (m p : LaneMask) (serial : Option Nat) (v : Vector (Option VReg) 64)
    (hv : Vector VReg 8) (ks : BitVec 64) :
    { (h.writeLanes n x m p serial).g with v := v, hv := hv, killSet := ks } = { h.g with v := v, hv := hv, killSet := ks } := by
  cases ht : h.trapReg n
  · rw [writeLanes_own ht]
  · rw [writeLanes_trap ht]

/-- One `writeLanes` of a register. -/
theorem writeLanes_wrote {s0 s : State} {h0 h : Here} {P : Edits} (w : Wrote s0 s h0 h P) (n : Reg) (x : Lanes Word) (m p : LaneMask)
    (serial : Option Nat) :
    Wrote s0 s h0 (h.writeLanes n x m p serial)
      (fun r l => if r = n ∧ m.getLsbD l.val = true then some (x[l], p.getLsbD l.val) else P r l) := by
  constructor
  · exact w.state
  · rw [writeLanes_r, w.ref]
  · rw [writeLanes_group, w.group]
  · rw [writeLanes_f, w.frag]
  · intro r l
    have hw := w.words r l
    have h1 : ((h.writeLanes n x m p serial).v r)[l] = if r = n ∧ m.getLsbD l.val = true then x[l] else (h.v r)[l] := by
      unfold Here.v
      rw [writeLanes_vreg]
      by_cases hr : r = n
      · subst hr
        simp only [if_true, true_and, VReg.written, mergeLanes, make_get]
      · simp [hr]
    have h2 : ((h.writeLanes n x m p serial).vreg r).poison.getLsbD l.val =
        if r = n ∧ m.getLsbD l.val = true then p.getLsbD l.val else (h.vreg r).poison.getLsbD l.val := by
      rw [writeLanes_vreg]
      by_cases hr : r = n
      · subst hr
        cases hm : m.getLsbD l.val <;>
          simp only [VReg.written, if_true, true_and, BitVec.getLsbD_or, BitVec.getLsbD_and, BitVec.getLsbD_not, hm, l.isLt, decide_true,
            Bool.not_true, Bool.not_false, Bool.and_false, Bool.and_true, Bool.false_or, Bool.or_false, if_false, Bool.false_eq_true]
      · simp [hr]
    by_cases c : r = n ∧ m.getLsbD l.val = true
    · simp only [if_pos c] at h1 h2 ⊢
      exact ⟨h1, h2⟩
    · simp only [if_neg c] at h1 h2 ⊢
      cases hP : P r l with
      | none => rw [hP] at hw; exact ⟨h1.trans hw.1, h2.trans hw.2⟩
      | some _ => rw [hP] at hw; exact ⟨h1.trans hw.1, h2.trans hw.2⟩
  · intro r hr
    have hr' : h.trapReg r = true := by rw [w.trapReg]; exact hr
    rw [← w.hidden r hr]
    cases ht : h.trapReg n
    · rw [writeLanes_own ht]
      exact regGet_regSet_ne _ _ _ _ (by intro e; subst e; simp [ht] at hr')
    · rw [writeLanes_trap ht]
  · intro hh
    have hh' : h.inHandler = false := by rw [w.inHandler]; exact hh
    have ht : h.trapReg n = false := by simp [Here.trapReg, hh']
    rw [← w.trapFile hh, writeLanes_own ht]

/-- A committed result of one register. -/
theorem commitV_wrote {s0 s : State} {h0 h : Here} {P : Edits} (w : Wrote s0 s h0 h P) (n : Reg) (x : Lanes Word) (m p : LaneMask) :
    Wrote s0 (commitV s h n x m p).1 h0 (commitV s h n x m p).2
      (fun r l => if r = n ∧ m.getLsbD l.val = true then some (x[l], p.getLsbD l.val) else P r l) := by
  unfold commitV
  split
  · next hm =>
    subst hm
    have : (fun r (l : Fin 32) => if r = n ∧ (0#32 : LaneMask).getLsbD l.val = true then some (x[l], p.getLsbD l.val) else P r l) = P := by
      funext r l; simp
    rw [this]; exact w
  · dsimp only
    split
    · exact writeLanes_wrote w n x m p none
    · have w1 := writeLanes_wrote w n x m p
        (nameFor (((s.core h.r.core).setSlot h.r.slot (some h.group)).resident h.g.ctx) (mergeLanes (h.vreg n).lanes x m)).1
      refine ⟨?_, w1.ref, w1.group, w1.frag, w1.words, w1.hidden, w1.trapFile⟩
      have hs := w.state
      rw [w.ref]
      simp only [core_setCore_same]
      generalize (nameFor (((s.core h0.r.core).setSlot h0.r.slot (some h.group)).resident h.g.ctx) (mergeLanes (h.vreg n).lanes x m)) = nm
      generalize (s.core h0.r.core).rcoll = q at hs
      subst hs
      simp only [core_setCore_same, setCore_setCore]

/-- A single-clock write. -/
theorem writeV_wrote {s0 s : State} {h0 h : Here} {P : Edits} (w : Wrote s0 s h0 h P) (n : Reg) (o : Lanes Word × LaneMask) (m : LaneMask) :
    Wrote s0 (writeV (s, h) n o m).1 h0 (writeV (s, h) n o m).2
      (fun r l => if r = n ∧ m.getLsbD l.val = true then some (o.1[l], o.2.getLsbD l.val) else P r l) := by
  unfold writeV
  dsimp only
  split
  · exact commitV_wrote w n o.1 m o.2
  · exact commitV_wrote (w.pending _) n o.1 m o.2

/-! ## A list of writes -/

/-- One write: a register, its words with their poison, the lanes. -/
abbrev OneWrite := Reg × (Lanes Word × LaneMask) × LaneMask

/-- Writes of a list, in order. -/
def writeAll (a : State × Here) (ws : List OneWrite) : State × Here := ws.foldl (fun a w => writeV a w.1 w.2.1 w.2.2) a

/-- A write touches a lane word. -/
def OneWrite.hits (w : OneWrite) (r : Reg) (l : Fin 32) : Prop := r = w.1 ∧ w.2.2.getLsbD l.val = true

/-- What a list of writes does: a later write stands. -/
def editsOf : List OneWrite → Edits → Edits
  | [], P => P
  | w :: t, P => editsOf t (fun r l =>
      if r = w.1 ∧ w.2.2.getLsbD l.val = true then some (w.2.1.1[l], w.2.1.2.getLsbD l.val) else P r l)

theorem writeAll_wrote (ws : List OneWrite) : ∀ {s0 s : State} {h0 h : Here} {P : Edits}, Wrote s0 s h0 h P →
    Wrote s0 (writeAll (s, h) ws).1 h0 (writeAll (s, h) ws).2 (editsOf ws P) := by
  induction ws with
  | nil => intro s0 s h0 h P w; exact w
  | cons x t ih =>
    intro s0 s h0 h P w
    have w1 := writeV_wrote w x.1 x.2.1 x.2.2
    have := ih (s := (writeV (s, h) x.1 x.2.1 x.2.2).1) (h := (writeV (s, h) x.1 x.2.1 x.2.2).2) w1
    simpa [writeAll, editsOf] using this

/-- No write of the list touches the lane word. -/
theorem editsOf_miss (ws : List OneWrite) : ∀ (P : Edits) (r : Reg) (l : Fin 32), (∀ w, w ∈ ws → ¬w.hits r l) →
    editsOf ws P r l = P r l := by
  induction ws with
  | nil => intro P r l _; rfl
  | cons x t ih =>
    intro P r l hm
    rw [editsOf, ih _ r l (fun w hw => hm w (List.mem_cons_of_mem _ hw))]
    exact if_neg (hm x (List.mem_cons_self))

/-- Every write of the list that touches the lane word brings the same word. -/
theorem editsOf_hit (ws : List OneWrite) (v : Word × Bool) : ∀ (P : Edits) (r : Reg) (l : Fin 32), (∃ w, w ∈ ws ∧ w.hits r l) →
    (∀ w, w ∈ ws → w.hits r l → (w.2.1.1[l], w.2.1.2.getLsbD l.val) = v) → editsOf ws P r l = some v := by
  induction ws with
  | nil => intro P r l ⟨w, hw, _⟩ _; cases hw
  | cons x t ih =>
    intro P r l hex hall
    rw [editsOf]
    by_cases ht : ∃ w, w ∈ t ∧ w.hits r l
    · exact ih _ r l ht (fun w hw => hall w (List.mem_cons_of_mem _ hw))
    · rw [editsOf_miss t _ r l (fun w hw hh => ht ⟨w, hw, hh⟩)]
      obtain ⟨w, hw, hh⟩ := hex
      have hx : x.hits r l := by
        rcases List.mem_cons.mp hw with e | hw'
        · exact e ▸ hh
        · exact absurd ⟨w, hw', hh⟩ ht
      rw [if_pos (show r = x.1 ∧ x.2.2.getLsbD l.val = true from hx), hall x List.mem_cons_self hx]

/-! ## Destinations -/

/-- The writes of a destination. -/
def dstWrites (h : Here) (r : LaneResult) : Dst → List OneWrite
  | .none => []
  | .regs d n => ((regsFrom d n).zip r.outs).map (fun x => (x.1, x.2, r.mask))
  | .win w x => (h.namedRegs w x r.mask).map (fun n => (n, r.first, r.mask &&& maskOf (fun l => h.named w x l == n.toNat)))
  | .index _ => []

theorem writeDst_eq (s : State) (h : Here) (d : Dst) (r : LaneResult) (hd : ∀ x, d ≠ .index x) :
    writeDst s h d r = writeAll (s, h) (dstWrites h r d) := by
  cases d with
  | none => rfl
  | regs d n => simp [writeDst, writeAll, dstWrites, List.foldl_map]
  | win w x => simp [writeDst, writeAll, dstWrites, List.foldl_map]
  | index x => exact absurd rfl (hd x)

theorem mem_setAdd (l : List Nat) (n m : Nat) : m ∈ setAdd l n ↔ m = n ∨ m ∈ l := by
  induction l with
  | nil => simp [setAdd]
  | cons k t ih =>
    unfold setAdd
    split
    · simp
    · split
      · next e => subst e; simp
      · simp only [List.mem_cons, ih]; tauto

theorem mem_foldl_setAdd {α : Type} (xs : List α) (f : α → Nat) : ∀ (l : List Nat) (m : Nat),
    m ∈ xs.foldl (fun t x => setAdd t (f x)) l ↔ m ∈ l ∨ ∃ x, x ∈ xs ∧ m = f x := by
  induction xs with
  | nil => simp
  | cons x t ih =>
    intro l m
    rw [List.foldl_cons, ih, mem_setAdd]
    simp only [List.mem_cons]
    constructor
    · rintro ((e | h) | ⟨y, hy, e⟩)
      · exact .inr ⟨x, .inl rfl, e⟩
      · exact .inl h
      · exact .inr ⟨y, .inr hy, e⟩
    · rintro (h | ⟨y, (e | hy), e'⟩)
      · exact .inl (.inr h)
      · exact .inl (.inl (e ▸ e'))
      · exact .inr ⟨y, hy, e'⟩

/-- The registers that active lanes name. -/
theorem mem_namedRegs (h : Here) (w : BitVec 2) (x : BitVec 3) (m : LaneMask) (r : Reg) :
    r ∈ h.namedRegs w x m ↔ ∃ l : Fin 32, m.getLsbD l.val = true ∧ h.named w x l = r.toNat := by
  simp only [Here.namedRegs, List.mem_filterMap]
  constructor
  · rintro ⟨n, hn, e⟩
    split at e
    · next hlt =>
      rw [mem_foldl_setAdd] at hn
      rcases hn with hn | ⟨l, hl, rfl⟩
      · cases hn
      · refine ⟨l, mem_lanesIn.mp hl, ?_⟩
        have := congrArg BitVec.toNat (Option.some.inj e)
        simp only [BitVec.toNat_ofNat] at this
        omega
    · cases e
  · rintro ⟨l, hl, e⟩
    refine ⟨h.named w x l, ?_, ?_⟩
    · rw [mem_foldl_setAdd]; exact .inr ⟨l, mem_lanesIn.mpr hl, rfl⟩
    · have := r.isLt
      rw [if_pos (by omega)]
      congr 1
      apply BitVec.eq_of_toNat_eq
      simp only [BitVec.toNat_ofNat]
      omega

/-! ## States that differ in one core's slots, reuse table and counters -/

/-- From s only one core's slots, reuse table and counters, and the choice counter, have changed; the slots are `sl`. -/
def Near (s t : State) (c : Fin 256) (sl : Vector (Option Group) 64) : Prop := ∃ (reuse : List ReuseEntry) (b d e : DWord) (n : Nat),
  t = { s.setCore c { s.core c with slots := sl, reuse := reuse, rhit := b, rmiss := d, rcoll := e } with choices := n }

theorem Near.refl (s : State) (c : Fin 256) : Near s s c (s.core c).slots :=
  ⟨(s.core c).reuse, (s.core c).rhit, (s.core c).rmiss, (s.core c).rcoll, s.choices, by
    exact (congrArg (fun x : State => { x with choices := s.choices }) (setCore_self s c)).symm⟩

/-- The core after such a change. -/
theorem Near.core {s t : State} {c : Fin 256} {sl : Vector (Option Group) 64} (n : Near s t c sl) :
    ∃ (reuse : List ReuseEntry) (b d e : DWord),
      t.core c = { s.core c with slots := sl, reuse := reuse, rhit := b, rmiss := d, rcoll := e } := by
  obtain ⟨reuse, b, d, e, k, rfl⟩ := n
  exact ⟨reuse, b, d, e, core_setCore_same _ _ _⟩

/-- Setting that core again. -/
theorem Near.setCore {s t : State} {c : Fin 256} {sl sl' : Vector (Option Group) 64} (n : Near s t c sl) (k : Core)
    (hk : ∃ (reuse : List ReuseEntry) (b d e : DWord),
      k = { t.core c with slots := sl', reuse := reuse, rhit := b, rmiss := d, rcoll := e }) : Near s (t.setCore c k) c sl' := by
  obtain ⟨reuse, b, d, e, rfl⟩ := hk
  obtain ⟨reuse0, b0, d0, e0, k0, rfl⟩ := n
  refine ⟨reuse, b, d, e, k0, ?_⟩
  have : ({ s.setCore c { s.core c with slots := sl, reuse := reuse0, rhit := b0, rmiss := d0, rcoll := e0 } with choices := k0 } : State).core c =
      { s.core c with slots := sl, reuse := reuse0, rhit := b0, rmiss := d0, rcoll := e0 } := core_setCore_same _ _ _
  rw [this]
  simp [State.setCore]

theorem Near.choices {s t : State} {c : Fin 256} {sl : Vector (Option Group) 64} (n : Near s t c sl) (k : Nat) :
    Near s { t with choices := k } c sl := by
  obtain ⟨reuse, b, d, e, k0, rfl⟩ := n
  exact ⟨reuse, b, d, e, k, rfl⟩

/-- The slots of the core. -/
theorem Near.slots {s t : State} {c : Fin 256} {sl : Vector (Option Group) 64} (n : Near s t c sl) : (t.core c).slots = sl := by
  obtain ⟨_, _, _, _, e⟩ := n.core
  rw [e]

theorem near_self_core (t : State) (c : Fin 256) (reuse : List ReuseEntry) (b d e : DWord) :
    ∃ (reuse' : List ReuseEntry) (b' d' e' : DWord), ({ t.core c with reuse := reuse, rhit := b, rmiss := d, rcoll := e } : Core) =
      { t.core c with slots := (t.core c).slots, reuse := reuse', rhit := b', rmiss := d', rcoll := e' } := ⟨reuse, b, d, e, rfl⟩

theorem Near.evictNames {s t : State} {c : Fin 256} {sl : Vector (Option Group) 64} (n : Near s t c sl) : Near s (t.evictNames c) c sl := by
  unfold State.evictNames
  apply n.setCore
  unfold Core.evictNames
  rw [← n.slots]
  exact ⟨_, _, _, _, rfl⟩

theorem Near.countLookup {s t : State} {c : Fin 256} {sl : Vector (Option Group) 64} (n : Near s t c sl) (key : Option ReuseKey) (hit : Bool) :
    Near s (t.countLookup c key hit) c sl := by
  unfold State.countLookup
  split
  · exact n
  · apply n.setCore
    rw [← n.slots]
    cases hit
    · exact ⟨_, _, _, _, rfl⟩
    · exact ⟨_, _, _, _, rfl⟩

theorem Near.addEntry {s t : State} {c : Fin 256} {sl : Vector (Option Group) 64} (n : Near s t c sl) (key : ReuseKey)
    (rs : List (Option RName × Lanes Word)) (cc : Option LaneCC) (fl : BitVec 5) : Near s (addEntry t c key rs cc fl) c sl := by
  unfold Machine.addEntry
  dsimp only
  split
  · exact n
  · split
    · apply n.setCore
      rw [← n.slots]
      exact ⟨_, _, _, _, rfl⟩
    · apply Near.choices
      apply n.setCore
      rw [← n.slots]
      exact ⟨_, _, _, _, rfl⟩

theorem Near.put {s t : State} {h : Here} {sl : Vector (Option Group) 64} (n : Near s t h.r.core sl) :
    Near s (t.put h) h.r.core (sl.set h.r.slot (some h.group)) := by
  unfold State.put State.setGroup
  apply n.setCore
  rw [← n.slots]
  exact ⟨_, _, _, _, rfl⟩

/-- As `put`, where the place is known by another name. -/
theorem Near.put_at {s t : State} {h : Here} {r : FragRef} {sl : Vector (Option Group) 64} (e : h.r = r) (n : Near s t r.core sl) :
    Near s (t.put h) r.core (sl.set r.slot (some h.group)) := by subst e; exact n.put

theorem Near.wrote {s t t' : State} {h0 h : Here} {P : Edits} {sl : Vector (Option Group) 64} (n : Near s t h0.r.core sl)
    (w : Wrote t t' h0 h P) : Near s t' h0.r.core sl := by
  rw [w.state]
  apply n.setCore
  rw [← n.slots]
  exact ⟨_, _, _, _, rfl⟩

/-- A byte reads as before where only such things have changed. -/
theorem Near.loadByte {s t : State} {c : Fin 256} {sl : Vector (Option Group) 64} (n : Near s t c sl) (d : Fin 256) (p : Place) (a : Nat) :
    loadByte t d p a = loadByte s d p a := by
  obtain ⟨reuse, b, e1, e2, k, rfl⟩ := n
  generalize hu : ({ s.setCore c { s.core c with slots := sl, reuse := reuse, rhit := b, rmiss := e1, rcoll := e2 } with choices := k } : State) = u
  have hc : ∀ x : Fin 256, (u.core x).l1 = (s.core x).l1 ∧ (u.core x).inSync = (s.core x).inSync ∧ (u.core x).skew = (s.core x).skew ∧
      (u.core x).bar = (s.core x).bar := by
    intro x
    subst hu
    by_cases e : x = c
    · subst e
      have : ({ s.setCore x { s.core x with slots := sl, reuse := reuse, rhit := b, rmiss := e1, rcoll := e2 } with choices := k } : State).core x =
        { s.core x with slots := sl, reuse := reuse, rhit := b, rmiss := e1, rcoll := e2 } := core_setCore_same _ _ _
      rw [this]; exact ⟨rfl, rfl, rfl, rfl⟩
    · have : ({ s.setCore c { s.core c with slots := sl, reuse := reuse, rhit := b, rmiss := e1, rcoll := e2 } with choices := k } : State).core x =
        s.core x := core_setCore_ne _ _ _ _ e
      rw [this]; exact ⟨rfl, rfl, rfl, rfl⟩
  have hm : ∀ x, u.memGet x = s.memGet x := by subst hu; intro x; rfl
  have hr : u.registered = s.registered := by subst hu; rfl
  have hdc : u.sliceCopies = s.sliceCopies := by subst hu; rfl
  have hsl : u.slices = s.slices := by subst hu; rfl
  have hnow : u.now = s.now := by subst hu; rfl
  have hh : ∀ x, homeByte u x = homeByte s x := by
    intro x
    have hk : u.keptByte x = s.keptByte x := by subst hu; rfl
    have hw : u.heldByte x = s.heldByte x := by
      unfold State.heldByte; rw [hr]
      split
      · rfl
      · rw [(hc _).1]
    unfold homeByte; rw [hk, hw, hm]
  have hag : ∀ x, u.agent x = s.agent x := by
    intro x; unfold State.agent; split
    · next h => rw [(hc ⟨x, h⟩).2.1, (hc ⟨x, h⟩).2.2.1]
    · rw [hsl]
  have hl : ∀ x o, leaseGood u x o = leaseGood s x o := by
    intro x o; unfold leaseGood State.agentTime; rw [hag, hnow]
  have hdie : ∀ x p a, sliceCopy u x p a = sliceCopy s x p a := by
    intro x p a; unfold sliceCopy; rw [hdc, (hc x).2.2.2]; simp only [hl]
  unfold Machine.loadByte
  simp only [hh, hdie, hl, (hc d).1]

/-- What is noted of a read changes nothing but that note (R321). -/
theorem noteRead_spec (t : State) (h : Here) (pad : Bool) (bs : List (Nat × Byte)) :
    ∃ seen, noteRead t h pad bs = t.setCore h.r.core { t.core h.r.core with seen := seen } := ⟨_, rfl⟩

theorem at?_noteRead (t : State) (h : Here) (pad : Bool) (bs : List (Nat × Byte)) (r : FragRef) : (noteRead t h pad bs).at? r = t.at? r := by
  obtain ⟨seen, e⟩ := noteRead_spec t h pad bs
  have hg : ∀ (c : Fin 256) (i : Fin 64), (noteRead t h pad bs).group? c i = t.group? c i := by
    intro c i
    rw [e]; unfold State.group?
    by_cases hc : c = h.r.core
    · subst hc; rw [core_setCore_same]
    · rw [core_setCore_ne _ _ _ _ hc]
  unfold State.at?; rw [hg]

/-- Where the slot of a fragment's group is all that changed besides, nothing outside the group has. -/
theorem Near.only {s t : State} {r : FragRef} {o : Option Group} (n : Near s t r.core ((s.core r.core).slots.set r.slot o)) :
    OnlyGroup s t r where
  bytes := n.loadByte
  package := by obtain ⟨reuse, b, d, e, k, rfl⟩ := n; rfl
  cores := by
    intro c hc
    obtain ⟨reuse, b, d, e, k, rfl⟩ := n
    exact core_setCore_ne _ _ _ _ hc
  core := by
    obtain ⟨reuse, b, d, e, hk⟩ := n.core
    rw [hk]
  slots := by
    intro i hi
    have : r.slot.val ≠ i.val := fun e => hi (Fin.ext e.symm)
    unfold State.group?
    rw [n.slots]
    simp [this]

/-- And the fragment is found with its new group. -/
theorem Near.at? {s t : State} {h : Here} (n : Near s t h.r.core ((s.core h.r.core).slots.set h.r.slot (some h.group)))
    (hs : h.f.status ≠ .exited) : t.at? h.r = some ⟨h.r, h.group, h.f⟩ := by
  unfold State.at? State.group?
  rw [n.slots]
  simp [Here.group, hs]

/-! ## What a lane instruction leaves -/

/-- What a lane instruction does to the issuing fragment and its group besides words of registers: `h1` is the fragment with
its group after its writes, before it goes on. -/
structure Lanewise (h h1 : Here) (scc : ScalarCC) : Prop where
  ref : h1.r = h.r
  group : { h1.g with v := h.g.v, hv := h.g.hv, x := h.g.x, killSet := h.g.killSet, cc := h.g.cc, sticky := h.g.sticky } = h.g
  frag : { h1.f with pending := h.f.pending, view := h.f.view, written := h.f.written } = h.f
  view : h1.f.view = { h.f.view with scc := scc }

theorem Lanewise.went {s t : State} {h h1 : Here} {scc : ScalarCC} (w : Lanewise h h1 scc) (n : Nat)
    (k : Near s t h.r.core ((s.core h.r.core).slots.set h.r.slot (some (h1.advance n).group))) :
    WentOn t h ⟨h.r, (h1.advance n).group, (h1.advance n).f⟩ (h.f.pc + BitVec.ofNat 64 n) where
  found := by
    have := Near.at? (h := ⟨h.r, h1.g, (h1.advance n).f⟩) (s := s) (t := t) (by
      have e : (⟨h.r, h1.g, (h1.advance n).f⟩ : Here).group = (h1.advance n).group := by
        unfold Here.group Here.advance; rw [w.ref]
      rw [e]; exact k) (by simp [Here.advance])
    rw [this]
    have e : (⟨h.r, h1.g, (h1.advance n).f⟩ : Here).group = (h1.advance n).group := by
      unfold Here.group Here.advance; rw [w.ref]
    rw [e]
  pc := by
    have : h1.f.pc = h.f.pc := by have e := congrArg Frag.pc w.frag; exact e
    show h1.f.pc + _ = _
    rw [this]
  ready := rfl
  kept := by
    have e := w.frag
    rw [← e]
    rfl
  siblings := by
    intro j hj
    have hg : h1.g.frags = h.g.frags := by have e := congrArg Group.frags w.group; exact e
    have : h1.r.frag.val ≠ j.val := by rw [w.ref]; exact fun e => hj (Fin.ext e.symm)
    simp [Here.group, Here.advance, this, hg]

theorem Lanewise.rest {h h1 : Here} {scc : ScalarCC} (w : Lanewise h h1 scc) (n : Nat) :
    { (h1.advance n).group with
      frags := h.g.frags, v := h.g.v, hv := h.g.hv, x := h.g.x, cc := h.g.cc, sticky := h.g.sticky, killSet := h.g.killSet
      removed := h.g.removed, epoch := h.g.epoch } = h.g := by
  have e := w.group
  have e1 : h1.g.frags = h.g.frags := by have e := congrArg Group.frags w.group; exact e
  rw [← e]
  simp only [Here.group, Here.advance, e1]

theorem Lanewise.handler {h h1 : Here} {scc : ScalarCC} (w : Lanewise h h1 scc) : h1.g.handler = h.g.handler := by
  have e := congrArg Group.handler w.group; exact e

theorem Lanewise.trapReg {h h1 : Here} {scc : ScalarCC} (w : Lanewise h h1 scc) (n : Reg) : h1.trapReg n = h.trapReg n := by
  simp [Here.trapReg, Here.inHandler, w.handler, w.ref]

/-- The final fragment reads registers as before it went on. -/
theorem Lanewise.vreg {h h1 : Here} {scc : ScalarCC} (w : Lanewise h h1 scc) (n : Nat) (m : Reg) :
    (⟨h.r, (h1.advance n).group, (h1.advance n).f⟩ : Here).vreg m = h1.vreg m := by
  rw [← w.ref]; rfl

theorem mem_regsFrom {r d : Reg} {n : Nat} : r ∈ regsFrom d n ↔ ∃ j, j < n ∧ r = d + BitVec.ofNat 6 j := by
  simp only [regsFrom, List.mem_map, List.mem_range]
  constructor
  · rintro ⟨j, hj, e⟩; exact ⟨j, hj, e.symm⟩
  · rintro ⟨j, hj, e⟩; exact ⟨j, hj, e.symm⟩

theorem reg_add_inj {d : Reg} {i j : Nat} (hi : i < 64) (hj : j < 64) (e : d + BitVec.ofNat 6 i = d + BitVec.ofNat 6 j) : i = j := by
  have h := congrArg BitVec.toNat e
  simp only [BitVec.toNat_add, BitVec.toNat_ofNat] at h
  omega

/-- The results fit the destination: word j of active lane l is `vals l j`, and none is poisoned. -/
def LaneResult.gives (r : LaneResult) (vals : Fin 32 → Nat → Word) : Dst → Prop
  | .none => True
  | .regs _ n => n ≤ 64 ∧ ∀ j, j < n → ∃ o, r.outs[j]? = some o ∧ o.2 = 0#32 ∧ ∀ l : Fin 32, r.mask.getLsbD l.val = true → o.1[l] = vals l j
  | .win _ _ | .index _ => r.first.2 = 0#32 ∧ ∀ l : Fin 32, r.mask.getLsbD l.val = true → r.first.1[l] = vals l 0

/-- Each write of a destination brings an unpoisoned result word of an active lane that the destination names. -/
theorem dstWrites_spec (h : Here) (d : Dst) (r : LaneResult) (vals : Fin 32 → Nat → Word) (g : r.gives vals d) (w : OneWrite)
    (hw : w ∈ dstWrites h r d) (n : Reg) (l : Fin 32) (hit : w.hits n l) :
    r.mask.getLsbD l.val = true ∧ d.names h n l ∧ w.2.1.2 = 0#32 ∧
      ∃ j, w.2.1.1[l] = vals l j ∧ (match d with
        | .regs b k => j < k ∧ n = b + BitVec.ofNat 6 j
        | .none | .win _ _ | .index _ => j = 0) := by
  cases d with
  | none => cases hw
  | index x => cases hw
  | win a x =>
    simp only [dstWrites, List.mem_map] at hw
    obtain ⟨m, hm, rfl⟩ := hw
    obtain ⟨e, hl⟩ := hit
    dsimp only at e hl
    subst e
    rw [BitVec.getLsbD_and, maskOf_getLsbD] at hl
    simp only [Bool.and_eq_true, beq_iff_eq] at hl
    exact ⟨hl.1, hl.2, g.1, 0, g.2 l hl.1, rfl⟩
  | regs b k =>
    simp only [dstWrites, List.mem_map] at hw
    obtain ⟨⟨m, o⟩, hm, rfl⟩ := hw
    obtain ⟨e, hl⟩ := hit
    dsimp only at e hl
    subst e
    obtain ⟨i, hi, hz⟩ := List.mem_iff_getElem.mp hm
    rw [List.getElem_zip] at hz
    have h1 := congrArg Prod.fst hz
    have h2 := congrArg Prod.snd hz
    dsimp only at h1 h2
    simp only [List.length_zip, lt_min_iff] at hi
    have hik : i < k := by simpa [regsFrom] using hi.1
    obtain ⟨o', ho, hp, hv⟩ := g.2 i hik
    rw [List.getElem?_eq_getElem hi.2] at ho
    have ho' := Option.some.inj ho
    rw [h2] at ho'
    subst ho'
    have hn : n = b + BitVec.ofNat 6 i := by rw [← h1]; simp [regsFrom]
    exact ⟨hl, mem_regsFrom.mpr ⟨i, hik, hn⟩, hp, i, hv l hl, hik, hn⟩

/-- Every active lane that the destination names is written. -/
theorem dstWrites_all (h : Here) (d : Dst) (r : LaneResult) (vals : Fin 32 → Nat → Word) (g : r.gives vals d) (n : Reg) (l : Fin 32)
    (hm : r.mask.getLsbD l.val = true) (hn : d.names h n l) : ∃ w, w ∈ dstWrites h r d ∧ w.hits n l := by
  cases d with
  | none => cases hn
  | index x => cases hn
  | win a x =>
    refine ⟨(n, r.first, r.mask &&& maskOf (fun l => h.named a x l == n.toNat)), ?_, rfl, ?_⟩
    · simp only [dstWrites, List.mem_map]
      exact ⟨n, (mem_namedRegs h a x r.mask n).mpr ⟨l, hm, hn⟩, rfl⟩
    · show (r.mask &&& maskOf (fun l => h.named a x l == n.toNat)).getLsbD l.val = true
      rw [BitVec.getLsbD_and, maskOf_getLsbD, hm, Bool.true_and, beq_iff_eq]
      exact hn
  | regs b k =>
    obtain ⟨j, hj, e⟩ := mem_regsFrom.mp hn
    obtain ⟨o, ho, _, _⟩ := g.2 j hj
    refine ⟨(n, o, r.mask), ?_, rfl, hm⟩
    simp only [dstWrites, List.mem_map]
    refine ⟨(n, o), ?_, rfl⟩
    have hlen : j < r.outs.length := (List.getElem?_eq_some_iff.mp ho).1
    refine List.mem_iff_getElem.mpr ⟨j, by simp [regsFrom, hj, hlen], ?_⟩
    rw [List.getElem_zip]
    have := (List.getElem?_eq_some_iff.mp ho).2
    simp [regsFrom, this, e]

/-- What the writes of a destination leave, in the fragment `h1` that has made them. -/
structure DstDone (h h1 : Here) (m : LaneMask) (d : Dst) (vals : Fin 32 → Nat → Word) : Prop where
  value : ∀ l : Fin 32, m.getLsbD l.val = true → d.holds h h1 l (vals l)
  whole : ∀ (n : Reg) (l : Fin 32), m.getLsbD l.val = true → d.names h n l → (h1.vreg n).poison.getLsbD l.val = false
  regs : ∀ (n : Reg) (l : Fin 32), ¬(m.getLsbD l.val = true ∧ d.names h n l) →
    (h1.v n)[l] = (h.v n)[l] ∧ (h1.vreg n).poison.getLsbD l.val = (h.vreg n).poison.getLsbD l.val
  hidden : ∀ n : Reg, h.trapReg n = true → regGet h1.g.v n = regGet h.g.v n
  trapFile : h.inHandler = false → h1.g.hv = h.g.hv
  index : ∀ (x : BitVec 3) (l : Fin 32), ¬(m.getLsbD l.val = true ∧ d = .index x) → (h1.x x)[l] = (h.x x)[l]

theorem Dst.inRange.named {h : Here} {m : LaneMask} {a : BitVec 2} {x : BitVec 3} (hr : Dst.inRange h m (.win a x)) {l : Fin 32}
    (hl : m.getLsbD l.val = true) : h.named a x l < 64 := by
  have h1 := hr.1
  have h2 := hr.2 l hl
  unfold Here.named
  omega

/-- The writes of a destination. -/
theorem writeDst_done (s : State) (h : Here) (d : Dst) (r : LaneResult) (vals : Fin 32 → Nat → Word) (g : r.gives vals d)
    (hr : d.inRange h r.mask) :
    (∃ q, (writeDst s h d r).1 = s.setCore h.r.core { s.core h.r.core with rcoll := q }) ∧
      Lanewise h (writeDst s h d r).2 h.f.view.scc ∧ DstDone h (writeDst s h d r).2 r.mask d vals ∧
      (writeDst s h d r).2.g.cc = h.g.cc ∧ (writeDst s h d r).2.g.sticky = h.g.sticky := by
  by_cases hd : ∃ x, d = .index x
  · obtain ⟨x, rfl⟩ := hd
    refine ⟨⟨(s.core h.r.core).rcoll, (setCore_self s _).symm⟩, ⟨rfl, rfl, rfl, rfl⟩, ?_, rfl, rfl⟩
    constructor
    · intro l hl
      show ((kGet (kSet h.g.x x _) x)[l] : Byte) = _
      rw [kGet_kSet_same, make_get, if_pos hl, g.2 l hl]
    · intro n l _ hn; cases hn
    · intro n l _; exact ⟨rfl, rfl⟩
    · intro n _; rfl
    · intro _; rfl
    · intro y l hy
      show (kGet (kSet h.g.x x _) y)[l] = (kGet h.g.x y)[l]
      by_cases e : y = x
      · subst e
        rw [kGet_kSet_same, make_get, if_neg (fun hl => hy ⟨hl, rfl⟩)]; rfl
      · rw [kGet_kSet_ne _ _ _ _ e]
  · have hd' : ∀ x, d ≠ .index x := fun x e => hd ⟨x, e⟩
    rw [writeDst_eq s h d r hd']
    have w := writeAll_wrote (dstWrites h r d) (Wrote.refl s h)
    generalize writeAll (s, h) (dstWrites h r d) = a at w
    have hgr := w.group
    have e1 : a.2.g.cc = h.g.cc := by have e := congrArg Group.cc w.group; exact e
    have e2 : a.2.g.sticky = h.g.sticky := by have e := congrArg Group.sticky w.group; exact e
    have e3 : a.2.g.x = h.g.x := w.index
    have hit : ∀ (n : Reg) (l : Fin 32), r.mask.getLsbD l.val = true → ∀ j, (match d with
        | .regs b k => j < k ∧ n = b + BitVec.ofNat 6 j
        | .win p q => j = 0 ∧ h.named p q l = n.toNat
        | .none | .index _ => False) → (a.2.v n)[l] = vals l j ∧ (a.2.vreg n).poison.getLsbD l.val = false := by
      intro n l hl j hj
      have hn : d.names h n l := by
        cases d with
        | none => cases hj
        | index _ => cases hj
        | regs b k => exact mem_regsFrom.mpr ⟨j, hj⟩
        | win p q => exact hj.2
      have he := editsOf_hit (dstWrites h r d) (vals l j, false) (fun _ _ => none) n l (dstWrites_all h d r vals g n l hl hn) (by
        intro v hv hh
        obtain ⟨-, -, hp, i, hi, hc⟩ := dstWrites_spec h d r vals g v hv n l hh
        rw [hp, hi]
        have : i = j := by
          cases d with
          | none => cases hj
          | index _ => cases hj
          | regs b k => exact reg_add_inj (by have := g.1; omega) (by have := g.1; omega) (hc.2.symm.trans hj.2)
          | win p q => exact hc.trans hj.1.symm
        subst this
        simp)
      have := w.words n l
      rw [he] at this
      exact this
    refine ⟨⟨_, w.state⟩, ⟨w.ref, ?_, ?_, ?_⟩, ⟨?_, ?_, ?_, w.hidden, w.trapFile, ?_⟩, e1, e2⟩
    · rw [← hgr]
    · rw [← w.frag]
    · rw [w.view]
    · intro l hl
      cases d with
      | none => trivial
      | index x => exact absurd rfl (hd' x)
      | regs b k => intro j hj; exact (hit _ l hl j ⟨hj, rfl⟩).1
      | win p q =>
        have hlt := hr.named hl
        show (a.2.vregAt (h.named p q l)).lanes[l] = _
        unfold Here.vregAt
        rw [if_pos hlt]
        exact (hit (BitVec.ofNat 6 (h.named p q l)) l hl 0 ⟨rfl, by simp only [BitVec.toNat_ofNat]; omega⟩).1
    · intro n l hl hn
      cases d with
      | none => cases hn
      | index x => cases hn
      | regs b k => obtain ⟨j, hj, e⟩ := mem_regsFrom.mp hn; exact (hit n l hl j ⟨hj, e⟩).2
      | win p q => exact (hit n l hl 0 ⟨rfl, hn⟩).2
    · intro n l hn
      have he := editsOf_miss (dstWrites h r d) (fun _ _ => none) n l (by
        intro v hv hh
        have := dstWrites_spec h d r vals g v hv n l hh
        exact hn ⟨this.1, this.2.1⟩)
      have := w.words n l
      rw [he] at this
      exact this
    · intro y l _
      show (kGet a.2.g.x y)[l] = (kGet h.g.x y)[l]
      rw [e3]

/-! ## Codes and flags -/

theorem flags_foldl (ls : List LaneOut) (b : Nat) : ∀ f : Flags,
    (ls.foldl (fun f o => f ||| o.flags) f).getLsbD b = (f.getLsbD b || ls.any (fun o => o.flags.getLsbD b)) := by
  induction ls with
  | nil => simp
  | cons o t ih => intro f; rw [List.foldl_cons, ih, BitVec.getLsbD_or, List.any_cons, Bool.or_assoc]

/-- The flags of a rule for each active lane. -/
theorem perLane_flags (ex : LaneMask) (cs : CodeSet) (f : Fin 32 → LaneOut) (b : Nat) :
    (perLane ex cs f).flags.getLsbD b = (List.finRange 32).any (fun l => ex.getLsbD l.val && (f l).flags.getLsbD b) := by
  unfold perLane flagsOf Lanes.make
  dsimp only
  rw [flags_foldl, Vector.toList_ofFn, List.ofFn_eq_map, List.any_map]
  simp only [BitVec.getLsbD_zero, Bool.false_or]
  congr 1
  funext l
  simp only [Function.comp]
  cases ex.getLsbD l.val <;> simp [LaneOut.idle, LaneOut.plain]

/-- The codes of active lanes. -/
theorem perLane_cc (ex : LaneMask) (cs : CodeSet) (f : Fin 32 → LaneOut) (l : Fin 32) (hl : ex.getLsbD l.val = true) :
    (perLane ex cs f).cc.c.getLsbD l.val = (f l).c ∧ (perLane ex cs f).cc.z.getLsbD l.val = (f l).z ∧
      (perLane ex cs f).cc.n.getLsbD l.val = (f l).n ∧ (perLane ex cs f).cc.v.getLsbD l.val = (f l).v := by
  unfold perLane
  dsimp only
  simp only [maskOf_getLsbD, make_get, hl, if_true, and_self]

/-- The lanes of a class. -/
theorem perLane_cls (ex : LaneMask) (cs : CodeSet) (f : Fin 32 → LaneOut) (c : Fin 4) (l : Fin 32) :
    ((perLane ex cs f).cls c).getLsbD l.val = (ex.getLsbD l.val && (f l).cls.getLsbD c.val) := by
  unfold perLane
  dsimp only
  rw [BitVec.getLsbD_and, maskOf_getLsbD, make_get]
  cases ex.getLsbD l.val <;> simp

/-- The words of active lanes. -/
theorem perLane_first (ex : LaneMask) (cs : CodeSet) (f : Fin 32 → LaneOut) (l : Fin 32) (hl : ex.getLsbD l.val = true) :
    (perLane ex cs f).first.1[l] = (f l).val := by
  unfold perLane LaneResult.first
  dsimp only [List.headD]
  rw [make_get, make_get, if_pos hl]

/-- The bits of a merged mask. -/
theorem mergeMask_bit (o x m : LaneMask) (l : Fin 32) :
    (mergeMask o x m).getLsbD l.val = if m.getLsbD l.val then x.getLsbD l.val else o.getLsbD l.val := by
  cases hm : m.getLsbD l.val <;>
    simp only [mergeMask, BitVec.getLsbD_or, BitVec.getLsbD_and, BitVec.getLsbD_not, hm, l.isLt, decide_true, Bool.not_true, Bool.not_false,
      Bool.and_false, Bool.and_true, Bool.false_or, Bool.or_false, if_true, if_false, Bool.false_eq_true]

/-- What the codes, flags and `E` of a result leave in a fragment, before its registers are written. -/
def Here.coded (h : Here) (ex : LaneMask) (r : LaneResult) : Here :=
  let pick (b : Bool) (m : LaneMask) : Option LaneMask := if b then some m else none
  let h1 := (h.setCC ex (pick r.codes.c r.cc.c) (pick r.codes.z r.cc.z) (pick r.codes.n r.cc.n) (pick r.codes.v r.cc.v)).raise r.flags
  match r.e with
  | some e => h1.setE e
  | none => h1

/-- The scalar codes after a result. -/
def Here.sccAfter (h : Here) (r : LaneResult) : ScalarCC := match r.e with
  | some e => { h.f.view.scc with e := e }
  | none => h.f.view.scc

theorem note_g (h : Here) (w : Written) : (h.note w).g = h.g := by unfold Here.note; split <;> rfl
theorem note_r (h : Here) (w : Written) : (h.note w).r = h.r := by unfold Here.note; split <;> rfl
theorem note_view (h : Here) (w : Written) : (h.note w).f.view = h.f.view := by unfold Here.note; split <;> rfl
theorem note_frag (h : Here) (w x : Written) : { (h.note w).f with written := x } = { h.f with written := x } := by
  unfold Here.note; split <;> rfl

/-- The codes leave the registers. -/
theorem coded_spec (h : Here) (ex : LaneMask) (r : LaneResult) :
    Lanewise h (h.coded ex r) (h.sccAfter r) ∧ (h.coded ex r).g = { h.g with cc := (h.coded ex r).g.cc, sticky := h.g.sticky ||| r.flags } := by
  unfold Here.coded Here.sccAfter
  cases hr : r.e with
  | none =>
    exact ⟨⟨rfl, rfl, rfl, rfl⟩, rfl⟩
  | some e =>
    dsimp only
    unfold Here.setE Here.setSCC
    dsimp only
    refine ⟨⟨?_, ?_, ?_, ?_⟩, ?_⟩
    · show (Here.note _ _).r = _; rw [note_r]; rfl
    · unfold Here.setView; dsimp only; rw [note_g]; rfl
    · unfold Here.setView; dsimp only
      have := note_frag ((h.setCC ex (if r.codes.c then some r.cc.c else none) (if r.codes.z then some r.cc.z else none)
          (if r.codes.n then some r.cc.n else none) (if r.codes.v then some r.cc.v else none)).raise r.flags)
          { Written.empty with scc := true } h.f.written
      have e2 := congrArg (fun f : Frag => { f with pending := h.f.pending, view := h.f.view }) this
      exact e2
    · unfold Here.setView; dsimp only; rw [note_view]; rfl
    · unfold Here.setView; dsimp only; rw [note_g]; rfl

theorem coded_cc (h : Here) (ex : LaneMask) (r : LaneResult) (l : Fin 32) :
    (h.coded ex r).g.cc.c.getLsbD l.val = (if r.codes.c && ex.getLsbD l.val then r.cc.c.getLsbD l.val else h.g.cc.c.getLsbD l.val) ∧
    (h.coded ex r).g.cc.z.getLsbD l.val = (if r.codes.z && ex.getLsbD l.val then r.cc.z.getLsbD l.val else h.g.cc.z.getLsbD l.val) ∧
    (h.coded ex r).g.cc.n.getLsbD l.val = (if r.codes.n && ex.getLsbD l.val then r.cc.n.getLsbD l.val else h.g.cc.n.getLsbD l.val) ∧
    (h.coded ex r).g.cc.v.getLsbD l.val = (if r.codes.v && ex.getLsbD l.val then r.cc.v.getLsbD l.val else h.g.cc.v.getLsbD l.val) := by
  have key : ∀ (b : Bool) (x o : LaneMask), (match (if b then some x else none : Option LaneMask) with
      | none => o
      | some y => mergeMask o y ex).getLsbD l.val = if b && ex.getLsbD l.val then x.getLsbD l.val else o.getLsbD l.val := by
    intro b x o
    cases b
    · simp
    · simp only [if_true, Bool.true_and]; exact mergeMask_bit o x ex l
  have hcc : (h.coded ex r).g.cc = (h.setCC ex (if r.codes.c then some r.cc.c else none) (if r.codes.z then some r.cc.z else none)
      (if r.codes.n then some r.cc.n else none) (if r.codes.v then some r.cc.v else none)).g.cc := by
    unfold Here.coded
    cases r.e with
    | none => rfl
    | some e =>
      dsimp only
      unfold Here.setE Here.setSCC Here.setView
      dsimp only
      rw [note_g]; rfl
  rw [hcc]
  exact ⟨key _ _ _, key _ _ _, key _ _ _, key _ _ _⟩

/-! ## Commit and the whole run -/

/-- A committed lane instruction has run to its end, with registers as its destination writes them. -/
theorem commitLane_done {s t0 : State} {h : Here} (sh : LaneShape) (ex : LaneMask) (r : LaneResult) (key : Option ReuseKey)
    (vals : Fin 32 → Nat → Word) (out : Fin 32 → LaneOut) (hm : r.mask = ex) (g : r.gives vals sh.d) (hr : sh.d.inRange h ex)
    (hla : sh.la = none ∨ sh.la = some 0 ∨ ∀ d n, sh.d ≠ .regs d n)
    (hcc : ∀ l : Fin 32, ex.getLsbD l.val = true → r.cc.c.getLsbD l.val = (out l).c ∧ r.cc.z.getLsbD l.val = (out l).z ∧
      r.cc.n.getLsbD l.val = (out l).n ∧ r.cc.v.getLsbD l.val = (out l).v)
    (hf : ∀ b : Nat, r.flags.getLsbD b = (List.finRange 32).any (fun l => ex.getLsbD l.val && (out l).flags.getLsbD b))
    (near : Near s t0 h.r.core (s.core h.r.core).slots) :
    ∃ h', LaneDone s (commitLane t0 h sh ex r key) h h' sh.i ex sh.d r.codes vals out (h.sccAfter r) := by
  obtain ⟨lw, hg2⟩ := coded_spec h ex r
  have hcd := coded_cc h ex r
  have hunf : ∃ (a : State × Here) (s1 : State), a = writeDst t0 (h.coded ex r) sh.d r ∧
      (s1 = a.1 ∨ ∃ k rs cc fl, s1 = addEntry (a.1.put a.2) h.r.core k rs cc fl) ∧
      commitLane t0 h sh ex r key = (next s1 a.2 sh.i).evictNames h.r.core := by
    have no : ∀ d n la, sh.d = .regs d n → sh.la = some (la + 1) → False := by
      intro d n la e1 e2
      rcases hla with e | e | e
      · rw [e] at e2; cases e2
      · rw [e] at e2; injection e2 with e2; omega
      · exact e _ _ e1
    obtain ⟨i, k, d, x, y, reads, uni, la⟩ := sh
    have fin : ∃ s1, (s1 = (writeDst t0 (h.coded ex r) d r).1 ∨ ∃ k rs cc fl, s1 = addEntry ((writeDst t0 (h.coded ex r) d r).1.put
          (writeDst t0 (h.coded ex r) d r).2) h.r.core k rs cc fl) ∧
        (next (match key with
          | some key => addEntry ((writeDst t0 (h.coded ex r) d r).1.put (writeDst t0 (h.coded ex r) d r).2) h.r.core key
              ((writeDst t0 (h.coded ex r) d r).2.results (h.dstRegs ex d))
              (if r.codes = codesNone then none else some (writeDst t0 (h.coded ex r) d r).2.g.cc) r.flags
          | none => (writeDst t0 (h.coded ex r) d r).1) (writeDst t0 (h.coded ex r) d r).2 i).evictNames h.r.core =
          (next s1 (writeDst t0 (h.coded ex r) d r).2 i).evictNames h.r.core := by
      cases key with
      | none => exact ⟨_, .inl rfl, rfl⟩
      | some k => exact ⟨_, .inr ⟨k, _, _, _, rfl⟩, rfl⟩
    obtain ⟨s1, h1, h2⟩ := fin
    refine ⟨_, s1, rfl, h1, ?_⟩
    rw [← h2]
    cases d with
    | regs d n =>
      rcases la with - | (- | la)
      · rfl
      · rfl
      · exact (no d n la rfl rfl).elim
    | none => rfl
    | win w x => rfl
    | index x => rfl
  obtain ⟨a, s1, ha, hs1, he⟩ := hunf
  rw [he]
  generalize hq : h.coded ex r = h2 at *
  have hr2 : sh.d.inRange h2 r.mask := by
    rw [hm]
    cases hd : sh.d with
    | none => trivial
    | regs d n => trivial
    | index x => trivial
    | win w x =>
      rw [hd] at hr
      have e1 : h2.f.view.w = h.f.view.w := by rw [lw.view]
      have e2 : h2.g.x = h.g.x := by rw [hg2]
      refine ⟨?_, ?_⟩
      · have := hr.1; unfold Here.w at this ⊢; rw [e1]; exact this
      · intro l hl; have := hr.2 l hl; unfold Here.w Here.x at this ⊢; rw [e1, e2]; exact this
  obtain ⟨⟨q, hs⟩, lw2, dd, ecc, est⟩ := writeDst_done t0 h2 sh.d r vals g hr2
  rw [← ha] at hs lw2 dd ecc est
  rw [hm] at dd
  -- the fragment after its writes, seen from where it issued
  have er : a.2.r = h.r := lw2.ref.trans lw.ref
  have hframe : Lanewise h a.2 (h.sccAfter r) := by
    refine ⟨er, ?_, ?_, ?_⟩
    · rw [← lw.group, ← lw2.group]
    · rw [← lw.frag, ← lw2.frag]
    · rw [lw2.view, lw.view]
  have n1 : Near s a.1 h.r.core (s.core h.r.core).slots := by
    rw [hs, lw.ref]
    apply near.setCore
    rw [← near.slots]
    exact ⟨_, _, _, _, rfl⟩
  have n3 : Near s ((next s1 a.2 sh.i).evictNames h.r.core) h.r.core
      ((s.core h.r.core).slots.set h.r.slot (some (a.2.advance sh.i.bytes).group)) := by
    apply Near.evictNames
    rcases hs1 with rfl | ⟨k, rs, cc, fl, rfl⟩
    · exact Near.put_at (h := a.2.advance sh.i.bytes) er n1
    · have n2 := Near.addEntry (Near.put_at er n1) k rs cc fl
      have := Near.put_at (h := a.2.advance sh.i.bytes) er n2
      rw [Vector.set_set] at this
      exact this
  have hx2 : h2.g.x = h.g.x := by rw [hg2]
  have hview : ∀ n : Reg, h2.vreg n = h.vreg n := by
    intro n
    unfold Here.vreg
    rw [lw.trapReg, hg2]
  refine ⟨⟨h.r, (a.2.advance sh.i.bytes).group, (a.2.advance sh.i.bytes).f⟩, ?_⟩
  have hv : ∀ m : Reg, (⟨h.r, (a.2.advance sh.i.bytes).group, (a.2.advance sh.i.bytes).f⟩ : Here).vreg m = a.2.vreg m :=
    hframe.vreg sh.i.bytes
  have hgx : (a.2.advance sh.i.bytes).group.x = a.2.g.x := rfl
  have hnames : ∀ n l, sh.d.names h2 n l ↔ sh.d.names h n l := by
    intro n l
    cases hd : sh.d with
    | none => exact Iff.rfl
    | regs d k => exact Iff.rfl
    | index x => exact Iff.rfl
    | win w x =>
      show h2.named w x l = n.toNat ↔ h.named w x l = n.toNat
      have : h2.named w x l = h.named w x l := by
        unfold Here.named Here.w Here.x; rw [lw.view, hx2]
      rw [this]
  constructor
  · exact hframe.went sh.i.bytes n3
  · exact n3.only
  · intro l hl
    have := dd.value l hl
    cases hd : sh.d with
    | none => trivial
    | regs d k =>
      rw [hd] at this
      intro j hj
      have h3 := this j hj
      show ((⟨h.r, (a.2.advance sh.i.bytes).group, (a.2.advance sh.i.bytes).f⟩ : Here).vreg _).lanes[l] = _
      rw [hv]; exact h3
    | index x => rw [hd] at this; exact this
    | win w x =>
      rw [hd] at this
      have e6 : h2.named w x l = h.named w x l := by unfold Here.named Here.w Here.x; rw [lw.view, hx2]
      have h3 : (a.2.vregAt (h2.named w x l)).lanes[l] = vals l 0 := this
      rw [e6] at h3
      show (Here.vregAt _ _).lanes[l] = _
      unfold Here.vregAt at h3 ⊢
      rw [hv]; exact h3
  · intro n l hl hn
    rw [hv]; exact dd.whole n l hl ((hnames n l).mpr hn)
  · constructor
    · intro n l hn
      have := dd.regs n l (fun x => hn ⟨x.1, (hnames n l).mp x.2⟩)
      unfold Here.v at this ⊢
      rw [hv, ← hview]; exact this
    · intro n hn
      have e7 := dd.hidden n (by rw [lw.trapReg]; exact hn)
      show regGet a.2.g.v n = _
      rw [e7, hg2]
    · intro hh
      have : h2.inHandler = false := by simpa [Here.inHandler, lw.handler, lw.ref] using hh
      have e8 := dd.trapFile this
      show a.2.g.hv = _
      rw [e8, hg2]
    · intro x l hx
      have e9 := dd.index x l hx
      show (kGet a.2.g.x x)[l] = (kGet h.g.x x)[l]
      rw [← hx2]; exact e9
    · exact hframe.rest sh.i.bytes
  · have hc : ∀ l : Fin 32, _ := fun l => hcd l
    constructor
    · intro l
      show a.2.g.cc.c.getLsbD l.val = _
      rw [ecc, (hc l).1]
      cases he : ex.getLsbD l.val
      · simp
      · rw [(hcc l he).1]
    · intro l
      show a.2.g.cc.z.getLsbD l.val = _
      rw [ecc, (hc l).2.1]
      cases he : ex.getLsbD l.val
      · simp
      · rw [(hcc l he).2.1]
    · intro l
      show a.2.g.cc.n.getLsbD l.val = _
      rw [ecc, (hc l).2.2.1]
      cases he : ex.getLsbD l.val
      · simp
      · rw [(hcc l he).2.2.1]
    · intro l
      show a.2.g.cc.v.getLsbD l.val = _
      rw [ecc, (hc l).2.2.2]
      cases he : ex.getLsbD l.val
      · simp
      · rw [(hcc l he).2.2.2]
  · intro b
    show a.2.g.sticky.getLsbD b = _
    rw [est, hg2, BitVec.getLsbD_or, hf]
  · have e1 : a.2.g.removed = h.g.removed := by have e := congrArg Group.removed hframe.group; exact e
    have e2 : a.2.g.epoch = h.g.epoch := by have e := congrArg Group.epoch hframe.group; exact e
    exact ⟨e1, e2⟩
  · exact hframe.view

/-- The checks at issue pass. -/
theorem issueGates_none {cl : RoleClass} {s : State} {h : Here} (sh : LaneShape) {late : Bool} (hl : sh.la.isSome = late)
    (q : LaneReady cl s h sh.i sh.k sh.d sh.a sh.b sh.reads late) : issueGates s h sh (h.exec sh.k) = none := by
  have hb : budgetGate s h sh.i (h.raises (h.exec sh.k) sh.d sh.la.isSome) = none := by
    rw [hl]
    unfold budgetGate
    rw [if_pos]
    rcases q.budget with e | e
    · simp [e]
    · simp [e]
  have bad : ∀ (w : BitVec 2) (x : BitVec 3), Src.inRange h (h.exec sh.k) (.win w x) → (h.indexBad (h.exec sh.k) w x).1 = 0#32 := by
    intro w x hr
    unfold Here.indexBad
    dsimp only
    rw [if_neg (by have := hr.1; omega)]
    apply laneMask_ext
    intro l
    show (h.exec sh.k &&& maskOf _).getLsbD l.val = _
    rw [BitVec.getLsbD_and, maskOf_getLsbD]
    cases e : (h.exec sh.k).getLsbD l.val
    · simp
    · have := hr.2 l e
      simp; omega
  have hi : (h.indexCheck (h.exec sh.k) sh.d sh.a sh.b).2 = 0#32 := by
    have src : ∀ o : Option Src, (∀ x, o = some x → x.inRange h (h.exec sh.k)) → ∀ bit : Byte,
        ((match (match o with
          | some (.win w x) => some (w, x)
          | some (.reg _) => none
          | none => none : Option (BitVec 2 × BitVec 3)) with
        | none => (0#8, 0#32)
        | some p =>
          let r := h.indexBad (h.exec sh.k) p.1 p.2
          if r.1 = 0#32 then (0#8, 0#32) else (bit ||| (if r.2 then 8#8 else 0#8), r.1)) : Byte × LaneMask).2 = 0#32 := by
      intro o ho bit
      rcases o with - | (r | ⟨w, x⟩)
      · rfl
      · rfl
      · dsimp only
        rw [if_pos (bad w x (ho _ rfl))]
    have dst : ∀ bit : Byte, ((match (match sh.d with
          | .win w x => some (w, x)
          | .none | .regs _ _ | .index _ => none : Option (BitVec 2 × BitVec 3)) with
        | none => (0#8, 0#32)
        | some p =>
          let r := h.indexBad (h.exec sh.k) p.1 p.2
          if r.1 = 0#32 then (0#8, 0#32) else (bit ||| (if r.2 then 8#8 else 0#8), r.1)) : Byte × LaneMask).2 = 0#32 := by
      intro bit
      have := q.dRange
      cases hd : sh.d with
      | none => rfl
      | regs r n => rfl
      | index x => rfl
      | win w x =>
        rw [hd] at this
        dsimp only
        rw [if_pos (bad w x this)]
    unfold Here.indexCheck
    dsimp only
    erw [dst 1#8, src sh.a q.aRange 2#8, src sh.b q.bRange 4#8]
    rfl
  have hp : h.poisonRead (h.exec sh.k) sh.reads = 0#32 := by
    unfold Here.poisonRead
    have : ∀ (rs : List Src), (∀ x, x ∈ rs → h.exec sh.k &&& h.poisonOf x = 0#32) →
        rs.foldl (fun m r => m ||| (h.exec sh.k &&& h.poisonOf r)) 0#32 = 0#32 := by
      intro rs
      induction rs with
      | nil => intro _; rfl
      | cons x t ih =>
        intro hx
        rw [List.foldl_cons, hx x List.mem_cons_self]
        exact ih (fun y hy => hx y (List.mem_cons_of_mem _ hy))
    exact this _ q.clean
  unfold issueGates
  rw [hb]
  dsimp only
  rw [if_neg (by simp [hi]), if_neg (by simp [hp])]

/-- No class traps. -/
theorem trapClass_none {en : BitVec 4} {cls : Fin 4 → LaneMask} (q : ∀ c : Fin 4, en.getLsbD c.val = true → cls c = 0#32) :
    trapClass en cls = none := by
  unfold trapClass
  rw [List.find?_eq_none]
  intro c _ hc
  simp only [Bool.and_eq_true, bne_iff_ne, ne_eq] at hc
  exact hc.2 (q c hc.1)

/-- From the results on. -/
theorem finishLane_done {s t0 : State} {h : Here} (sh : LaneShape) (ex : LaneMask) (old : Bool) (mem : Option MemKey) (r : LaneResult)
    (vals : Fin 32 → Nat → Word) (out : Fin 32 → LaneOut) (hm : r.mask = ex) (g : r.gives vals sh.d) (hr : sh.d.inRange h ex)
    (hla : sh.la = none ∨ sh.la = some 0 ∨ ∀ d n, sh.d ≠ .regs d n) (hz : r.divz = 0#32)
    (hq : ∀ c : Fin 4, h.f.view.en.getLsbD c.val = true → r.cls c = 0#32)
    (hcc : ∀ l : Fin 32, ex.getLsbD l.val = true → r.cc.c.getLsbD l.val = (out l).c ∧ r.cc.z.getLsbD l.val = (out l).z ∧
      r.cc.n.getLsbD l.val = (out l).n ∧ r.cc.v.getLsbD l.val = (out l).v)
    (hf : ∀ b : Nat, r.flags.getLsbD b = (List.finRange 32).any (fun l => ex.getLsbD l.val && (out l).flags.getLsbD b))
    (near : Near s t0 h.r.core (s.core h.r.core).slots) :
    ∃ h', LaneDone s (finishLane t0 h sh ex old mem r) h h' sh.i ex sh.d r.codes vals out (h.sccAfter r) := by
  unfold finishLane
  rw [if_neg (by simp [hz])]
  dsimp only
  rw [trapClass_none hq]
  dsimp only
  exact commitLane_done sh ex r _ vals out hm g hr hla hcc hf (near.countLookup _ _)

/-- A lane instruction whose checks pass runs to its end. -/
theorem runLane_done {s : State} {h : Here} (sh : LaneShape) (F : LaneMask → LaneResult) (r : LaneResult) (hF : F (h.exec sh.k) = r)
    (vals : Fin 32 → Nat → Word) (out : Fin 32 → LaneOut)
    (q : LaneReady .lane s h sh.i sh.k sh.d sh.a sh.b sh.reads sh.la.isSome) (hm : r.mask = h.exec sh.k) (g : r.gives vals sh.d)
    (hla : sh.la = none ∨ sh.la = some 0) (hz : r.divz = 0#32)
    (hq : ∀ c : Fin 4, h.f.view.en.getLsbD c.val = true → r.cls c = 0#32)
    (hcc : ∀ l : Fin 32, (h.exec sh.k).getLsbD l.val = true → r.cc.c.getLsbD l.val = (out l).c ∧ r.cc.z.getLsbD l.val = (out l).z ∧
      r.cc.n.getLsbD l.val = (out l).n ∧ r.cc.v.getLsbD l.val = (out l).v)
    (hf : ∀ b : Nat, r.flags.getLsbD b = (List.finRange 32).any (fun l => (h.exec sh.k).getLsbD l.val && (out l).flags.getLsbD b)) :
    ∃ h', LaneDone s (runLane s h sh F) h h' sh.i (h.exec sh.k) sh.d r.codes vals out (h.sccAfter r) := by
  unfold runLane
  dsimp only
  rw [if_neg q.active, issueGates_none sh rfl q]
  dsimp only
  rw [hF]
  refine finishLane_done sh (h.exec sh.k) _ none r vals out hm g q.dRange ?_ hz hq hcc hf (Near.refl s h.r.core)
  rcases hla with e | e
  · exact .inl e
  · exact .inr (.inl e)

/-- No enabled class arises. -/
theorem quiet_cls {h : Here} {ex : LaneMask} {cs : CodeSet} {f : Fin 32 → LaneOut} (hq : quiet h ex f) (c : Fin 4)
    (hc : h.f.view.en.getLsbD c.val = true) : (perLane ex cs f).cls c = 0#32 := by
  apply laneMask_ext
  intro l
  rw [perLane_cls]
  cases e : ex.getLsbD l.val
  · simp
  · have := congrArg (fun x : BitVec 4 => x.getLsbD c.val) (hq l e)
    simp only [BitVec.getLsbD_and, hc, Bool.and_true] at this
    rw [this]; simp

/-- The words of a rule for each active lane fit a destination of one value. -/
theorem perLane_gives {ex : LaneMask} {cs : CodeSet} {f : Fin 32 → LaneOut} {d : Dst} (r : LaneResult)
    (ho : r.outs = (perLane ex cs f).outs) (hm : r.mask = ex) (hd : ∀ b n, d = .regs b n → n = 1) : r.gives (fun l _ => (f l).val) d := by
  have hf : r.first = (perLane ex cs f).first := by unfold LaneResult.first; rw [ho]
  have one : r.first.2 = 0#32 ∧ ∀ l : Fin 32, r.mask.getLsbD l.val = true → r.first.1[l] = (f l).val := by
    rw [hf, hm]; exact ⟨rfl, perLane_first _ cs f⟩
  cases d with
  | none => trivial
  | regs d n =>
    have := hd d n rfl
    subst this
    refine ⟨by omega, ?_⟩
    intro j hj
    have : j = 0 := by omega
    subst this
    refine ⟨r.first, ?_, one⟩
    rw [hf, ho]; rfl
  | win w x => exact one
  | index x => exact one

/-- A lane instruction of one value by a rule for each active lane, with no lane that divides by zero. -/
theorem runLane_perLane {s : State} {h : Here} (sh : LaneShape) (cs : CodeSet) (f : Fin 32 → LaneOut) (F : LaneMask → LaneResult)
    (r : LaneResult) (hF : F (h.exec sh.k) = r) (e1 : r.outs = (perLane (h.exec sh.k) cs f).outs) (e2 : r.mask = h.exec sh.k)
    (e3 : r.codes = cs) (e4 : r.cc = (perLane (h.exec sh.k) cs f).cc) (e5 : r.flags = (perLane (h.exec sh.k) cs f).flags)
    (e6 : r.cls = (perLane (h.exec sh.k) cs f).cls) (e7 : r.e = none) (hz : r.divz = 0#32)
    (q : LaneReady .lane s h sh.i sh.k sh.d sh.a sh.b sh.reads sh.la.isSome) (hd : ∀ d n, sh.d = .regs d n → n = 1)
    (hla : sh.la = none ∨ sh.la = some 0) (hq : quiet h (h.exec sh.k) f) :
    ∃ h', LaneDone s (runLane s h sh F) h h' sh.i (h.exec sh.k) sh.d cs (fun l _ => (f l).val) f h.f.view.scc := by
  have := runLane_done sh F r hF (fun l _ => (f l).val) f q e2 (perLane_gives r e1 e2 hd) hla hz (by rw [e6]; exact fun c => quiet_cls hq c)
    (by rw [e4]; exact perLane_cc _ cs f) (by rw [e5]; exact perLane_flags _ cs f)
  rw [e3] at this
  unfold Here.sccAfter at this
  rw [e7] at this
  exact this

/-- As `runLane_perLane`, where the lanes that divide by zero are judged and none does. -/
theorem runLane_divz {s : State} {h : Here} (sh : LaneShape) (cs : CodeSet) (f : Fin 32 → LaneOut) (dz : LaneMask → LaneMask)
    (hz : dz (h.exec sh.k) = 0#32)
    (q : LaneReady .lane s h sh.i sh.k sh.d sh.a sh.b sh.reads sh.la.isSome) (hd : ∀ d n, sh.d = .regs d n → n = 1)
    (hla : sh.la = none ∨ sh.la = some 0) (hq : quiet h (h.exec sh.k) f) :
    ∃ h', LaneDone s (runLane s h sh (fun ex => { perLane ex cs f with divz := dz ex })) h h' sh.i (h.exec sh.k) sh.d cs
      (fun l _ => (f l).val) f h.f.view.scc := by
  generalize hG : (fun ex => ({ perLane ex cs f with divz := dz ex } : LaneResult)) = G
  have c : ∀ {α : Type} (p : LaneResult → α), p (G (h.exec sh.k)) = p { perLane (h.exec sh.k) cs f with divz := dz (h.exec sh.k) } := by
    intro α p; rw [← hG]
  have e1 : (G (h.exec sh.k)).outs = (perLane (h.exec sh.k) cs f).outs := by rw [c LaneResult.outs]
  have e2 : (G (h.exec sh.k)).mask = h.exec sh.k := by rw [c LaneResult.mask]; rfl
  have e3 : (G (h.exec sh.k)).codes = cs := by rw [c LaneResult.codes]; rfl
  have e4 : (G (h.exec sh.k)).cc = (perLane (h.exec sh.k) cs f).cc := by rw [c LaneResult.cc]
  have e5 : (G (h.exec sh.k)).flags = (perLane (h.exec sh.k) cs f).flags := by rw [c LaneResult.flags]
  have e6 : (G (h.exec sh.k)).cls = (perLane (h.exec sh.k) cs f).cls := by rw [c LaneResult.cls]
  have e7 : (G (h.exec sh.k)).e = none := by rw [c LaneResult.e]; rfl
  have e8 : (G (h.exec sh.k)).divz = 0#32 := by rw [c LaneResult.divz]; exact hz
  exact runLane_perLane sh cs f G _ rfl e1 e2 e3 e4 e5 e6 e7 e8 q hd hla hq

/-- An instruction word whose role may issue it runs. -/
theorem onFragment_issues {s : State} {h : Here} {i : Instr} {cl : RoleClass} (q : Issues s h i cl) (f : Here → State) :
    onFragment s i cl f = .next (f h) := by
  unfold onFragment
  rw [q.here]
  dsimp only
  have : (h.g.team.isNone && !leapMay i) = false := by
    rcases q.leap with e | e
    · cases ht : h.g.team with
      | none => simp [ht] at e
      | some x => rfl
    · simp [e]
  rw [this, if_neg (by simp), if_pos q.role]

/-! ## The forms -/

theorem dstD_one (ix : Option Ix) (d b : Reg) (n : Nat) (e : dstD ix d = .regs b n) : n = 1 := by
  unfold dstD at e
  split at e
  · split at e
    · cases e
    · split at e <;> cases e
      rfl
  · cases e; rfl

/-- Three registers. -/
theorem lrB_done {s : State} {h : Here} {i : Instr} (o : LrB) (codes : CodeSet) (f : Here → Fin 32 → Word → Word → LaneOut)
    (q : LaneReady .lane s h i o.k (dstD o.ix o.d) (some (srcA o.ix o.a)) (some (srcB o.ix o.b)) [srcA o.ix o.a, srcB o.ix o.b] false)
    (hq : quiet h (h.exec o.k) (fun l => f h l (h.read (srcA o.ix o.a))[l] (h.read (srcB o.ix o.b))[l])) :
    ∃ t h', lrB s i o codes f = .next t ∧ LaneDone s t h h' i (h.exec o.k) (dstD o.ix o.d) (codesIf o.c codes)
      (fun l _ => (f h l (h.read (srcA o.ix o.a))[l] (h.read (srcB o.ix o.b))[l]).val) (fun l => f h l (h.read (srcA o.ix o.a))[l] (h.read (srcB o.ix o.b))[l]) h.f.view.scc := by
  obtain ⟨h', e⟩ := runLane_perLane ⟨i, o.k, (dstD o.ix o.d), (some (srcA o.ix o.a)), (some (srcB o.ix o.b)), [srcA o.ix o.a, srcB o.ix o.b], [], none⟩ (codesIf o.c codes)
    (fun l => f h l (h.read (srcA o.ix o.a))[l] (h.read (srcB o.ix o.b))[l]) (fun ex => perLane ex (codesIf o.c codes) (fun l => f h l (h.read (srcA o.ix o.a))[l] (h.read (srcB o.ix o.b))[l])) _ rfl rfl rfl rfl rfl rfl rfl rfl rfl q (by exact dstD_one _ _) (.inl rfl) hq
  exact ⟨_, h', onFragment_issues q.issues _, e⟩

/-- Three registers, D read as well. -/
theorem lrD_done {s : State} {h : Here} {i : Instr} (o : LrB) (codes : CodeSet) (f : Here → Word → Word → Word → LaneOut)
    (q : LaneReady .lane s h i o.k (dstD o.ix o.d) (some (srcA o.ix o.a)) (some (srcB o.ix o.b)) [srcA o.ix o.a, srcB o.ix o.b, srcD o.ix o.d] false)
    (hq : quiet h (h.exec o.k) (fun l => f h (h.read (srcA o.ix o.a))[l] (h.read (srcB o.ix o.b))[l] (h.read (srcD o.ix o.d))[l])) :
    ∃ t h', lrD s i o codes f = .next t ∧ LaneDone s t h h' i (h.exec o.k) (dstD o.ix o.d) (codesIf o.c codes)
      (fun l _ => (f h (h.read (srcA o.ix o.a))[l] (h.read (srcB o.ix o.b))[l] (h.read (srcD o.ix o.d))[l]).val) (fun l => f h (h.read (srcA o.ix o.a))[l] (h.read (srcB o.ix o.b))[l] (h.read (srcD o.ix o.d))[l]) h.f.view.scc := by
  obtain ⟨h', e⟩ := runLane_perLane ⟨i, o.k, (dstD o.ix o.d), (some (srcA o.ix o.a)), (some (srcB o.ix o.b)), [srcA o.ix o.a, srcB o.ix o.b, srcD o.ix o.d], [], none⟩ (codesIf o.c codes)
    (fun l => f h (h.read (srcA o.ix o.a))[l] (h.read (srcB o.ix o.b))[l] (h.read (srcD o.ix o.d))[l]) (fun ex => perLane ex (codesIf o.c codes) (fun l => f h (h.read (srcA o.ix o.a))[l] (h.read (srcB o.ix o.b))[l] (h.read (srcD o.ix o.d))[l])) _ rfl rfl rfl rfl rfl rfl rfl rfl rfl q (by exact dstD_one _ _) (.inl rfl) hq
  exact ⟨_, h', onFragment_issues q.issues _, e⟩

/-- Unary. -/
theorem lrU_done {s : State} {h : Here} {i : Instr} (o : LrU) (codes : CodeSet) (f : Word → LaneOut)
    (q : LaneReady .lane s h i o.k (dstD o.ix o.d) (some (srcA o.ix o.a)) none [srcA o.ix o.a] false)
    (hq : quiet h (h.exec o.k) (fun l => f (h.read (srcA o.ix o.a))[l])) :
    ∃ t h', lrU s i o codes f = .next t ∧ LaneDone s t h h' i (h.exec o.k) (dstD o.ix o.d) (codesIf o.c codes)
      (fun l _ => (f (h.read (srcA o.ix o.a))[l]).val) (fun l => f (h.read (srcA o.ix o.a))[l]) h.f.view.scc := by
  obtain ⟨h', e⟩ := runLane_perLane ⟨i, o.k, (dstD o.ix o.d), (some (srcA o.ix o.a)), none, [srcA o.ix o.a], [], none⟩ (codesIf o.c codes)
    (fun l => f (h.read (srcA o.ix o.a))[l]) (fun ex => perLane ex (codesIf o.c codes) (fun l => f (h.read (srcA o.ix o.a))[l])) _ rfl rfl rfl rfl rfl rfl rfl rfl rfl q (by exact dstD_one _ _) (.inl rfl) hq
  exact ⟨_, h', onFragment_issues q.issues _, e⟩

/-- A compare. -/
theorem lrC_done {s : State} {h : Here} {i : Instr} (o : LrC) (f : Word → Word → LaneOut)
    (q : LaneReady .lane s h i o.k .none (some (srcA o.ix o.a)) (some (srcB o.ix o.b)) [srcA o.ix o.a, srcB o.ix o.b] false)
    (hq : quiet h (h.exec o.k) (fun l => f (h.read (srcA o.ix o.a))[l] (h.read (srcB o.ix o.b))[l])) :
    ∃ t h', lrC s i o f = .next t ∧ LaneDone s t h h' i (h.exec o.k) .none codesAll
      (fun l _ => (f (h.read (srcA o.ix o.a))[l] (h.read (srcB o.ix o.b))[l]).val) (fun l => f (h.read (srcA o.ix o.a))[l] (h.read (srcB o.ix o.b))[l]) h.f.view.scc := by
  obtain ⟨h', e⟩ := runLane_perLane ⟨i, o.k, .none, (some (srcA o.ix o.a)), (some (srcB o.ix o.b)), [srcA o.ix o.a, srcB o.ix o.b], [], none⟩ codesAll
    (fun l => f (h.read (srcA o.ix o.a))[l] (h.read (srcB o.ix o.b))[l]) (fun ex => perLane ex codesAll (fun l => f (h.read (srcA o.ix o.a))[l] (h.read (srcB o.ix o.b))[l])) _ rfl rfl rfl rfl rfl rfl rfl rfl rfl q (fun _ _ e => by cases e) (.inl rfl) hq
  exact ⟨_, h', onFragment_issues q.issues _, e⟩

/-- A register and an immediate. -/
theorem liRun_done {s : State} {h : Here} {i : Instr} {k : KReg} {c : Bool} {d a : Reg} (codes : CodeSet) (f : Word → LaneOut)
    (q : LaneReady .lane s h i k (.regs d 1) none none [.reg a] false)
    (hq : quiet h (h.exec k) (fun l => f (h.v a)[l])) :
    ∃ t h', liRun s i k c d a codes f = .next t ∧ LaneDone s t h h' i (h.exec k) (.regs d 1) (codesIf c codes)
      (fun l _ => (f (h.v a)[l]).val) (fun l => f (h.v a)[l]) h.f.view.scc := by
  obtain ⟨h', e⟩ := runLane_perLane ⟨i, k, (.regs d 1), none, none, [.reg a], [], none⟩ (codesIf c codes)
    (fun l => f (h.v a)[l]) (fun ex => perLane ex (codesIf c codes) (fun l => f (h.v a)[l])) _ rfl rfl rfl rfl rfl rfl rfl rfl rfl q (fun _ _ e => by cases e; rfl) (.inl rfl) hq
  exact ⟨_, h', onFragment_issues q.issues _, e⟩

/-- Two sources of an LL word without lookahead, no divisor 0 where it divides. -/
theorem llB_done {s : State} {h : Here} {i : Instr} (o : LlB) (en dv : Bool) (f : Here → Word → Word → LaneOut)
    (q : LaneReady .lane s h i o.k (.regs o.d 1) none none [.reg o.a, .reg o.b] true) (hla : o.la = 0#4)
    (hz : dv = true → ∀ l : Fin 32, (h.exec o.k).getLsbD l.val = true → (h.v o.b)[l] ≠ 0#32)
    (hq : quiet h (h.exec o.k) (fun l => f h (h.v o.a)[l] (h.v o.b)[l])) :
    ∃ t h', llB s i o en dv f = .next t ∧ LaneDone s t h h' i (h.exec o.k) (.regs o.d 1) codesNone
      (fun l _ => (f h (h.v o.a)[l] (h.v o.b)[l]).val) (fun l => f h (h.v o.a)[l] (h.v o.b)[l]) h.f.view.scc := by
  have la : (if en then h.laFor o.la else o.la.toNat) = 0 := by
    unfold Here.laFor; rw [hla]; cases en <;> simp
  have dz : (if dv then h.exec o.k &&& maskOf (fun l => (h.v o.b)[l] == 0#32) else 0#32 : LaneMask) = 0#32 := by
    cases dv with
    | false => rfl
    | true =>
      rw [if_pos rfl]
      apply laneMask_ext
      intro l
      rw [BitVec.getLsbD_and, maskOf_getLsbD]
      cases e : (h.exec o.k).getLsbD l.val
      · simp
      · rw [beq_false_of_ne (hz rfl l e)]; simp
  obtain ⟨h', e⟩ := runLane_divz ⟨i, o.k, .regs o.d 1, none, none, [.reg o.a, .reg o.b], [],
      some (if en then h.laFor o.la else o.la.toNat)⟩ codesNone (fun l => f h (h.v o.a)[l] (h.v o.b)[l])
    (fun ex => if dv then ex &&& maskOf (fun l => (h.v o.b)[l] == 0#32) else 0#32) dz q (fun _ _ e => by cases e; rfl) (.inr (by rw [la])) hq
  exact ⟨_, h', onFragment_issues q.issues _, e⟩

end Sys2Proof.Machine
end

