-- ==== Sys2Proof/Laws/Uniform.lean ====
section
/-! SUPPORT. What the uniform writes do (R28, R64, R4), and that a uniform instruction that always goes on has run to its end. -/

namespace Sys2Proof.Machine

/-! ## One register -/

theorem note_written (h : Here) (w : Written) : ∃ x, h.note w = { h with f := { h.f with written := x } } := by
  unfold Here.note
  split
  · exact ⟨h.f.written, rfl⟩
  · exact ⟨_, rfl⟩

/-- A uniform instruction touches of its fragment the view, the written set and the results in flight, and the uniform trap registers. -/
structure Uniformly (h h1 : Here) : Prop where
  ref : h1.r = h.r
  group : { h1.g with hs := h.g.hs } = h.g
  frag : { h1.f with view := h.f.view, written := h.f.written, pending := h.f.pending } = h.f

theorem Uniformly.refl (h : Here) : Uniformly h h := ⟨rfl, rfl, rfl⟩

theorem Uniformly.trans {a b c : Here} (x : Uniformly a b) (y : Uniformly b c) : Uniformly a c where
  ref := y.ref.trans x.ref
  group := by rw [← x.group, ← y.group]
  frag := by rw [← x.frag, ← y.frag]

theorem Uniformly.handler {h h1 : Here} (u : Uniformly h h1) : h1.g.handler = h.g.handler := by
  have e := congrArg Group.handler u.group; exact e

theorem Uniformly.trapReg {h h1 : Here} (u : Uniformly h h1) (n : Reg) : h1.trapReg n = h.trapReg n := by
  simp [Here.trapReg, Here.inHandler, u.handler, u.ref]

theorem setS_uniformly (h : Here) (d : Reg) (w : Word) : Uniformly h (h.setS d w) := by
  unfold Here.setS
  split
  · exact ⟨rfl, rfl, rfl⟩
  · obtain ⟨x, e⟩ := note_written h { Written.empty with s := 1#64 <<< d.toNat }
    dsimp only
    rw [e]
    exact ⟨rfl, rfl, rfl⟩

theorem setSCC_uniformly (h : Here) (c : ScalarCC) : Uniformly h (h.setSCC c) := by
  unfold Here.setSCC Here.setView
  obtain ⟨x, e⟩ := note_written h { Written.empty with scc := true }
  dsimp only
  rw [e]
  exact ⟨rfl, rfl, rfl⟩

/-- What a write of a uniform register does to the two files. -/
theorem setS_files (h : Here) (d : Reg) (w : Word) :
    (h.setS d w).f.view = { h.f.view with s := if h.trapReg d then h.f.view.s else regSet h.f.view.s d w } ∧
      (h.setS d w).g.hs = if h.trapReg d then kSet h.g.hs (trapIndex d) w else h.g.hs := by
  unfold Here.setS
  cases e : h.trapReg d
  · obtain ⟨x, ex⟩ := note_written h { Written.empty with s := 1#64 <<< d.toNat }
    simp only [Bool.false_eq_true, if_false]
    rw [ex]
    exact ⟨rfl, rfl⟩
  · simp

theorem setSCC_files (h : Here) (c : ScalarCC) :
    (h.setSCC c).f.view = { h.f.view with scc := c } ∧ (h.setSCC c).g.hs = h.g.hs := by
  unfold Here.setSCC Here.setView
  obtain ⟨x, e⟩ := note_written h { Written.empty with scc := true }
  dsimp only
  rw [e]
  exact ⟨rfl, rfl⟩

/-- Reading after a write of a uniform register. -/
theorem setS_s (h : Here) (d n : Reg) (w : Word) : (h.setS d w).s n = if n = d then w else h.s n := by
  obtain ⟨hv, hh⟩ := setS_files h d w
  have ht := (setS_uniformly h d w).trapReg n
  unfold Here.s
  rw [ht, hv, hh]
  cases en : h.trapReg n
  · simp only [Bool.false_eq_true, if_false]
    by_cases e : n = d
    · subst e; simp [en]
    · rw [if_neg e]
      cases ed : h.trapReg d
      · simp [regGet_regSet_ne _ _ _ _ e]
      · simp
  · simp only [if_true]
    by_cases e : n = d
    · subst e; simp [en]
    · rw [if_neg e]
      cases ed : h.trapReg d
      · simp
      · have hn : 56 ≤ n.toNat := by simp [Here.trapReg] at en; exact en.2
        have hd : 56 ≤ d.toNat := by simp [Here.trapReg] at ed; exact ed.2
        have hi : trapIndex n ≠ trapIndex d := fun x => e (trapIndex_inj hn hd x)
        simp [kGet_kSet_ne _ _ _ _ hi]

/-! ## The run -/

/-- The final fragment reads uniform registers as before it went on. -/
theorem Uniformly.s {h h1 : Here} (u : Uniformly h h1) (k : Nat) (n : Reg) :
    (⟨h.r, (h1.advance k).group, (h1.advance k).f⟩ : Here).s n = h1.s n := by
  rw [← u.ref]; rfl

/-- A uniform instruction that always goes on has run to its end. -/
theorem uniRun_done {s : State} {h : Here} {i : Instr} (f : Here → Here) (q : Issues s h i .control) (u : Uniformly h (f h)) :
    ∃ t, uniRun s i f = .next t ∧ OnlyGroup s t h.r ∧
      WentOn t h ⟨h.r, ((f h).advance i.bytes).group, ((f h).advance i.bytes).f⟩ (h.after i) ∧
      UniformFrame h ⟨h.r, ((f h).advance i.bytes).group, ((f h).advance i.bytes).f⟩ := by
  have near : Near s (next s (f h) i) h.r.core ((s.core h.r.core).slots.set h.r.slot (some ((f h).advance i.bytes).group)) :=
    Near.put_at (h := (f h).advance i.bytes) (show ((f h).advance i.bytes).r = h.r from u.ref) (Near.refl s h.r.core)
  have hfr : (f h).g.frags = h.g.frags := by have e := congrArg Group.frags u.group; exact e
  have found := Near.at? (h := ⟨h.r, (f h).g, ((f h).advance i.bytes).f⟩) (s := s) (t := next s (f h) i) (by
      have e : (⟨h.r, (f h).g, ((f h).advance i.bytes).f⟩ : Here).group = ((f h).advance i.bytes).group := by
        unfold Here.group Here.advance; rw [u.ref]
      rw [e]; exact near) (by simp [Here.advance])
  have e : (⟨h.r, (f h).g, ((f h).advance i.bytes).f⟩ : Here).group = ((f h).advance i.bytes).group := by
    unfold Here.group Here.advance; rw [u.ref]
  refine ⟨_, onFragment_issues q _, near.only, ⟨?_, ?_, rfl, ?_, ?_⟩, ?_⟩
  · rw [found, e]
  · have : (f h).f.pc = h.f.pc := by have e := congrArg Frag.pc u.frag; exact e
    show (f h).f.pc + _ = _
    rw [this]; rfl
  · rw [← u.frag]; rfl
  · intro j hj
    have : (f h).r.frag.val ≠ j.val := by rw [u.ref]; exact fun e => hj (Fin.ext e.symm)
    simp [Here.group, Here.advance, this, hfr]
  · unfold UniformFrame
    have hg := u.group
    rw [← hg]
    simp only [Here.group, Here.advance, hfr]

/-- A uniform instruction that writes one register and perhaps the codes. -/
theorem writesS_of {h h1 : Here} (k : Nat) (d : Reg) (w : Word) (scc : ScalarCC) (u : Uniformly h h1)
    (hv : h1.f.view = { (h.setS d w).f.view with scc := scc }) (hh : h1.g.hs = (h.setS d w).g.hs) :
    WritesS h ⟨h.r, (h1.advance k).group, (h1.advance k).f⟩ d w scc := by
  obtain ⟨fv, fh⟩ := setS_files h d w
  have hs : ∀ n, h1.s n = (h.setS d w).s n := by
    intro n
    unfold Here.s
    rw [u.trapReg, (setS_uniformly h d w).trapReg, hh, hv]
  have he : (⟨h.r, (h1.advance k).group, (h1.advance k).f⟩ : Here).f.view = h1.f.view := rfl
  constructor
  · rw [u.s, hs, setS_s, if_pos rfl]
  · intro n hn; rw [u.s, hs, setS_s, if_neg hn]
  · intro n hn
    rw [he, hv, fv]
    show regGet (if _ then _ else _) n = _
    rcases hn with hn | ht
    · cases h.trapReg d
      · simp [regGet_regSet_ne _ _ _ _ hn]
      · simp
    · simp [ht]
  · intro ht
    show h1.g.hs = _
    rw [hh, fh, if_neg (by simp [ht])]
  · rw [he, hv, fv]

end Sys2Proof.Machine
end

