-- ==== Sys2Proof/Laws/Does.lean ====
section
/-! SUPPORT. From an operand form to what the instruction does: one lemma for each form, which leaves the rule of a lane to show. -/

namespace Sys2Proof.Machine

/-- An instruction that only goes on. -/
theorem goesOn_next {s : State} {h : Here} {i : Instr} {cl : RoleClass} (_ : Issues s h i cl) :
    GoesOn s (next s h i) h ⟨h.r, (h.advance i.bytes).group, (h.advance i.bytes).f⟩ (h.after i) h.f.view := by
  have near : Near s (next s h i) h.r.core ((s.core h.r.core).slots.set h.r.slot (some (h.advance i.bytes).group)) :=
    Near.put_at (h := h.advance i.bytes) rfl (Near.refl s h.r.core)
  have found := Near.at? (h := ⟨h.r, h.g, (h.advance i.bytes).f⟩) (s := s) (t := next s h i) near (by simp [Here.advance])
  refine ⟨⟨found, rfl, rfl, rfl, ?_⟩, near.only, rfl, rfl⟩
  intro j hj
  have : h.r.frag.val ≠ j.val := fun e => hj (Fin.ext e.symm)
  simp [Here.group, Here.advance, this]

/-- A lane instruction with no active lane only goes on (R101). -/
theorem idle_goesOn {s : State} {h : Here} {i : Instr} {cl : RoleClass} (q : Issues s h i cl) (F : Here → State) (hF : F h = next s h i) :
    ∃ t h', onFragment s i cl F = .next t ∧ GoesOn s t h h' (h.after i) h.f.view := by
  rw [onFragment_issues q, hF]
  exact ⟨_, _, rfl, goesOn_next q⟩

theorem runLane_idle {s : State} {h : Here} (sh : LaneShape) (f : LaneMask → LaneResult) (e : h.exec sh.k = 0#32) :
    runLane s h sh f = next s h sh.i := by
  unfold runLane
  dsimp only
  rw [if_pos e]

/-- A lane instruction's outcomes matter in the codes it writes, the values and the flags. -/
theorem LaneDone.congr {s t : State} {h h' : Here} {i : Instr} {ex : LaneMask} {d : Dst} {cs : CodeSet} {val : Fin 32 → Nat → Word}
    {a b : Fin 32 → LaneOut} {scc : ScalarCC} (q : LaneDone s t h h' i ex d cs val a scc)
    (e : ∀ l, (a l).flags = (b l).flags ∧ (cs.c = true → (a l).c = (b l).c) ∧ (cs.z = true → (a l).z = (b l).z) ∧
      (cs.n = true → (a l).n = (b l).n) ∧ (cs.v = true → (a l).v = (b l).v)) : LaneDone s t h h' i ex d cs val b scc where
  on := q.on
  only := q.only
  value := q.value
  whole := q.whole
  frame := q.frame
  codes := by
    constructor
    · intro l; rw [q.codes.c]; cases hc : cs.c <;> simp [(e l).2.1, hc]
    · intro l; rw [q.codes.z]; cases hc : cs.z <;> simp [(e l).2.2.1, hc]
    · intro l; rw [q.codes.n]; cases hc : cs.n <;> simp [(e l).2.2.2.1, hc]
    · intro l; rw [q.codes.v]; cases hc : cs.v <;> simp [(e l).2.2.2.2, hc]
  flags := by
    intro k
    rw [q.flags]
    congr 1
    exact List.any_congr rfl fun l => by rw [(e l).1]
  stays := q.stays
  view := q.view

theorem lrB_does {i : Instr} {o : LrB} {cs : CodeSet} {f g : Here → Fin 32 → Word → Word → LaneOut}
    (e : ∀ s, exec i s = lrB s i o cs f) (fg : ∀ h l a b, f h l a b = g h l a b) : DoesLrB i o cs g := by
  have : f = g := by funext h l a b; exact fg h l a b
  subst this
  refine fun s h => ⟨fun q _ hq => ?_, fun q he => ?_⟩
  · rw [e]; exact lrB_done o cs f q hq
  · rw [e]; exact idle_goesOn q _ (runLane_idle _ _ he)

theorem lrD_does {i : Instr} {o : LrB} {cs : CodeSet} {f g : Here → Word → Word → Word → LaneOut}
    (e : ∀ s, exec i s = lrD s i o cs f) (fg : ∀ h a b d, f h a b d = g h a b d) : DoesLrD i o cs g := by
  have : f = g := by funext h a b d; exact fg h a b d
  subst this
  refine fun s h => ⟨fun q _ hq => ?_, fun q he => ?_⟩
  · rw [e]; exact lrD_done o cs f q hq
  · rw [e]; exact idle_goesOn q _ (runLane_idle _ _ he)

theorem lrU_does {i : Instr} {o : LrU} {cs : CodeSet} {f g : Word → LaneOut}
    (e : ∀ s, exec i s = lrU s i o cs f) (fg : ∀ a, f a = g a) : DoesLrU i o cs g := by
  have : f = g := by funext a; exact fg a
  subst this
  refine fun s h => ⟨fun q _ hq => ?_, fun q he => ?_⟩
  · rw [e]; exact lrU_done o cs f q hq
  · rw [e]; exact idle_goesOn q _ (runLane_idle _ _ he)

theorem lrC_does {i : Instr} {o : LrC} {f g : Word → Word → LaneOut}
    (e : ∀ s, exec i s = lrC s i o f) (fg : ∀ a b, f a b = g a b) : DoesLrC i o g := by
  have : f = g := by funext a b; exact fg a b
  subst this
  refine fun s h => ⟨fun q _ hq => ?_, fun q he => ?_⟩
  · rw [e]; exact lrC_done o f q hq
  · rw [e]; exact idle_goesOn q _ (runLane_idle _ _ he)

theorem lrCvt_run {s : State} {h : Here} {i : Instr} (k : KReg) (d : Dst) (a : Src) (cs : CodeSet) (g : Word → LaneOut)
    (hd : ∀ b n, d = .regs b n → n = 1) (q : LaneReady .lane s h i k d (some a) none [a] false)
    (hq : quiet h (h.exec k) (fun l => g (h.read a)[l])) :
    ∃ h', LaneDone s (runLane s h ⟨i, k, d, some a, none, [a], [], none⟩ (fun ex => perLane ex cs (fun l => g (h.read a)[l]))) h h' i
      (h.exec k) d cs (fun l _ => (g (h.read a)[l]).val) (fun l => g (h.read a)[l]) h.f.view.scc :=
  runLane_perLane ⟨i, k, d, some a, none, [a], [], none⟩ cs (fun l => g (h.read a)[l]) (fun ex => perLane ex cs (fun l => g (h.read a)[l])) _
    rfl rfl rfl rfl rfl rfl rfl rfl rfl q hd (.inl rfl) hq

theorem lrCvt_eq (s : State) (i : Instr) (o : CvtOp) (f : BitVec 2 → Bool → Word → LaneOut) :
    lrCvt s i o f = onFragment s i .lane (fun h =>
      runLane s h ⟨i, o.k, dstD o.ix o.d, some (srcA o.ix o.a), none, [srcA o.ix o.a], [], none⟩ (fun ex =>
        perLane ex (codesIf o.c codesAll) (fun l => f (modeOf h.f.view.rm o.m) o.s (h.read (srcA o.ix o.a))[l]))) := by
  unfold lrCvt
  congr 1

theorem lrCvt_does {i : Instr} {o : CvtOp} {f : BitVec 2 → Bool → Word → LaneOut} {g : BitVec 2 → Word → LaneOut}
    (e : ∀ s, exec i s = lrCvt s i o f) (fg : ∀ rm a, f rm o.s a = g rm a) : DoesCvt i o g := by
  have : (fun rm a => f rm o.s a) = g := by funext rm a; exact fg rm a
  subst this
  refine fun s h => ⟨fun q _ hq => ?_, fun q he => ?_⟩
  · rw [e, lrCvt_eq]
    obtain ⟨h', r⟩ := lrCvt_run o.k (dstD o.ix o.d) (srcA o.ix o.a) (codesIf o.c codesAll) (fun a => f (modeOf h.f.view.rm o.m) o.s a)
      (dstD_one _ _) q hq
    exact ⟨_, h', onFragment_issues q.issues _, r⟩
  · rw [e, lrCvt_eq]; exact idle_goesOn q _ (runLane_idle _ _ he)

theorem liRun_does {i : Instr} {k : KReg} {c : Bool} {d a : Reg} {cs : CodeSet} {f : Word → LaneOut} {g : Here → Fin 32 → LaneOut}
    (e : ∀ s, exec i s = liRun s i k c d a cs f) (fg : ∀ h l, f (h.v a)[l] = g h l) : DoesLi i k c d [a] cs g := by
  have : g = fun h l => f (h.v a)[l] := by funext h l; exact (fg h l).symm
  subst this
  refine fun s h => ⟨fun q _ hq => ?_, fun q he => ?_⟩
  · rw [e]; exact liRun_done cs f q hq
  · rw [e]; exact idle_goesOn q _ (runLane_idle _ _ he)

/-- LL with two sources: where `pre` holds no lookahead is in force and no active lane divides by zero. -/
theorem llB_does {i : Instr} {o : LlB} {en dv : Bool} {f : Here → Word → Word → LaneOut} {pre : Here → Prop} {g : Here → Fin 32 → LaneOut}
    (e : ∀ s, exec i s = llB s i o en dv f) (hla : ∀ h, pre h → (if en then h.laFor o.la else o.la.toNat) = 0)
    (hz : dv = true → ∀ h, pre h → ∀ l : Fin 32, (h.exec o.k).getLsbD l.val = true → (h.v o.b)[l] ≠ 0#32)
    (fg : ∀ h l, (f h (h.v o.a)[l] (h.v o.b)[l]).val = (g h l).val ∧ (f h (h.v o.a)[l] (h.v o.b)[l]).flags = (g h l).flags ∧
      (f h (h.v o.a)[l] (h.v o.b)[l]).cls = (g h l).cls) : DoesLl i o.k o.d [o.a, o.b] pre g := by
  refine fun s h => ⟨fun q hp hq => ?_, fun q he => ?_⟩
  · rw [e]
    have hq' : quiet h (h.exec o.k) (fun l => f h (h.v o.a)[l] (h.v o.b)[l]) := fun l hl => by rw [(fg h l).2.2]; exact hq l hl
    have dz : (if dv then h.exec o.k &&& maskOf (fun l => (h.v o.b)[l] == 0#32) else 0#32 : LaneMask) = 0#32 := by
      cases dv with
      | false => rfl
      | true =>
        rw [if_pos rfl]
        apply laneMask_ext
        intro l
        rw [BitVec.getLsbD_and, maskOf_getLsbD, BitVec.getLsbD_zero]
        cases hl : (h.exec o.k).getLsbD l.val
        · rfl
        · have := hz rfl h hp l hl
          simpa using this
    obtain ⟨h', r⟩ := runLane_divz (s := s) (h := h)
      ⟨i, o.k, .regs o.d 1, none, none, [.reg o.a, .reg o.b], [], some (if en then h.laFor o.la else o.la.toNat)⟩ codesNone
      (fun l => f h (h.v o.a)[l] (h.v o.b)[l])
      (fun ex => if dv then ex &&& maskOf (fun l => (h.v o.b)[l] == 0#32) else 0#32) dz q (fun _ _ e => by cases e; rfl)
      (.inr (congrArg some (hla h hp))) hq'
    refine ⟨_, h', onFragment_issues q.issues _, ?_⟩
    have c := LaneDone.congr (b := g h) r (fun l => ⟨(fg h l).2.1, by simp [codesNone], by simp [codesNone], by simp [codesNone], by simp [codesNone]⟩)
    have v : (fun (l : Fin 32) (_ : Nat) => (f h (h.v o.a)[l] (h.v o.b)[l]).val) = fun l _ => (g h l).val := by
      funext l _; exact (fg h l).1
    rw [v] at c
    exact c
  · rw [e]; exact idle_goesOn q _ (runLane_idle _ _ he)

/-- LL with one source. -/
theorem llU_does {i : Instr} {o : LlU} {f : BitVec 2 → Word → LaneOut} {pre : Here → Prop} {g : Here → Fin 32 → LaneOut}
    (e : ∀ s, exec i s = llU s i o f) (hla : ∀ h, pre h → h.laFor o.la = 0)
    (fg : ∀ h l, (f h.f.view.rm (h.v o.a)[l]).val = (g h l).val ∧ (f h.f.view.rm (h.v o.a)[l]).flags = (g h l).flags ∧
      (f h.f.view.rm (h.v o.a)[l]).cls = (g h l).cls) : DoesLl i o.k o.d [o.a] pre g := by
  refine fun s h => ⟨fun q hp hq => ?_, fun q he => ?_⟩
  · rw [e]
    have hq' : quiet h (h.exec o.k) (fun l => f h.f.view.rm (h.v o.a)[l]) := fun l hl => by rw [(fg h l).2.2]; exact hq l hl
    obtain ⟨h', r⟩ := runLane_perLane (s := s) (h := h) ⟨i, o.k, .regs o.d 1, none, none, [.reg o.a], [], some (h.laFor o.la)⟩ codesNone
      (fun l => f h.f.view.rm (h.v o.a)[l]) (fun ex => perLane ex codesNone (fun l => f h.f.view.rm (h.v o.a)[l])) _
      rfl rfl rfl rfl rfl rfl rfl rfl rfl q (fun _ _ e => by cases e; rfl) (.inr (congrArg some (hla h hp))) hq'
    refine ⟨_, h', onFragment_issues q.issues _, ?_⟩
    have c := LaneDone.congr (b := g h) r (fun l => ⟨(fg h l).2.1, by simp [codesNone], by simp [codesNone], by simp [codesNone], by simp [codesNone]⟩)
    have v : (fun (l : Fin 32) (_ : Nat) => (f h.f.view.rm (h.v o.a)[l]).val) = fun l _ => (g h l).val := by
      funext l _; exact (fg h l).1
    rw [v] at c
    exact c
  · rw [e]; exact idle_goesOn q _ (runLane_idle _ _ he)

theorem laFor_zero {h : Here} {la : BitVec 4} (p : noLookahead la h) : h.laFor la = 0 := by
  unfold Here.laFor
  rcases p with rfl | p
  · split <;> rfl
  · rw [if_neg p]

/-- LP. -/
theorem lpRun_does {i : Instr} {o : LpB} {b d : Bool} {srcs : List Reg} {f g : Here → Word → Word → Word → LaneOut}
    (e : ∀ s, exec i s = lpRun s i o b d f) (hs : [o.a] ++ (if b then [o.b] else []) ++ (if d then [o.d] else []) = srcs)
    (fg : ∀ h x y z, f h x y z = g h x y z) : DoesLp i o srcs g := by
  have : f = g := by funext h x y z; exact fg h x y z
  subst this
  subst hs
  have hr : ([o.a] ++ (if b then [o.b] else []) ++ (if d then [o.d] else [])).map Src.reg =
      [Src.reg o.a] ++ (if b then [Src.reg o.b] else []) ++ (if d then [Src.reg o.d] else []) := by
    cases b <;> cases d <;> rfl
  unfold DoesLp
  rw [hr]
  refine fun s h => ⟨fun q _ hq => ?_, fun q he => ?_⟩
  · rw [e]
    obtain ⟨h', r⟩ := runLane_perLane (s := s) (h := h) ⟨i, lpMask o.k, .regs o.d 1, none, none,
      [Src.reg o.a] ++ (if b then [Src.reg o.b] else []) ++ (if d then [Src.reg o.d] else []), [], none⟩ codesNone
      (fun l => f h (h.v o.a)[l] (h.v o.b)[l] (h.v o.d)[l]) (fun ex => perLane ex codesNone (fun l => f h (h.v o.a)[l] (h.v o.b)[l] (h.v o.d)[l])) _
      rfl rfl rfl rfl rfl rfl rfl rfl rfl q (fun _ _ e => by cases e; rfl) (.inl rfl) hq
    exact ⟨_, h', onFragment_issues q.issues _, r⟩
  · rw [e]; exact idle_goesOn q _ (runLane_idle _ _ he)

end Sys2Proof.Machine
end

