-- ==== Sys2Proof/Laws/Memory.lean ====
section
/-! SUPPORT. The canonical form of byte tables and of memory: reading after writing, and that every operation of memory keeps the form.
-/

namespace Sys2Proof.Machine

/-! ## Tables -/

theorem sortedFrom_mono {α : Type} {t : List (Nat × α)} {a b : Nat} (h : tableSortedFrom b t = true) (hab : a ≤ b) : tableSortedFrom a t = true := by
  cases t with
  | nil => rfl
  | cons x t =>
    simp only [tableSortedFrom, Bool.and_eq_true, decide_eq_true_eq] at h ⊢
    exact ⟨by omega, h.2⟩

/-- Below its first key a sorted table lists nothing. -/
theorem find_below {α : Type} : ∀ {t : List (Nat × α)} {lo n : Nat}, tableSortedFrom lo t = true → n < lo → tableFind t n = none
  | [], _, _, _, _ => rfl
  | (k, v) :: t, lo, n, h, hn => by
    simp only [tableSortedFrom, Bool.and_eq_true, decide_eq_true_eq] at h
    unfold tableFind
    rw [if_neg (by omega), if_pos (by omega)]

theorem sorted_put {α : Type} : ∀ {t : List (Nat × α)} {lo n : Nat} (x : α), tableSortedFrom lo t = true → lo ≤ n →
    tableSortedFrom lo (tablePut t n x) = true
  | [], lo, n, x, _, hn => by simp [tablePut, tableSortedFrom, hn]
  | (k, v) :: t, lo, n, x, h, hn => by
    simp only [tableSortedFrom, Bool.and_eq_true, decide_eq_true_eq] at h
    unfold tablePut
    split
    · simp only [tableSortedFrom, Bool.and_eq_true, decide_eq_true_eq]
      exact ⟨hn, by omega, h.2⟩
    · split
      · next e => subst e; simp only [tableSortedFrom, Bool.and_eq_true, decide_eq_true_eq]; exact ⟨hn, h.2⟩
      · simp only [tableSortedFrom, Bool.and_eq_true, decide_eq_true_eq]
        exact ⟨h.1, sorted_put x h.2 (by omega)⟩

theorem sorted_del {α : Type} : ∀ {t : List (Nat × α)} {lo : Nat} (n : Nat), tableSortedFrom lo t = true →
    tableSortedFrom lo (tableDel t n) = true
  | [], _, _, h => h
  | (k, v) :: t, lo, n, h => by
    have h' := h
    simp only [tableSortedFrom, Bool.and_eq_true, decide_eq_true_eq] at h
    unfold tableDel
    split
    · exact h'
    · split
      · exact sortedFrom_mono h.2 (by omega)
      · simp only [tableSortedFrom, Bool.and_eq_true, decide_eq_true_eq]
        exact ⟨h.1, sorted_del n h.2⟩

theorem sorted_filter {α : Type} (p : Nat × α → Bool) : ∀ {t : List (Nat × α)} {lo : Nat}, tableSortedFrom lo t = true →
    tableSortedFrom lo (t.filter p) = true
  | [], _, h => h
  | (k, v) :: t, lo, h => by
    simp only [tableSortedFrom, Bool.and_eq_true, decide_eq_true_eq] at h
    rw [List.filter_cons]
    split
    · simp only [tableSortedFrom, Bool.and_eq_true, decide_eq_true_eq]
      exact ⟨h.1, sorted_filter p h.2⟩
    · exact sorted_filter p (sortedFrom_mono h.2 (by omega))

/-- Reading after writing a table. -/
theorem find_put {α : Type} : ∀ (t : List (Nat × α)) (n m : Nat) (x : α), tableFind (tablePut t n x) m = if m = n then some x else tableFind t m
  | [], n, m, x => by unfold tablePut tableFind; split <;> simp_all [tableFind]
  | (k, v) :: t, n, m, x => by
    unfold tablePut
    split
    · next h =>
      unfold tableFind
      by_cases e : m = n
      · simp [e]
      · rw [if_neg e, if_neg e]
        by_cases l : m < n
        · rw [if_pos l, if_neg (by omega), if_pos (by omega)]
        · rw [if_neg l]; rfl
    · split
      · next h e =>
        subst e
        unfold tableFind
        by_cases e : m = n
        · simp [e]
        · simp [e]
      · next h e =>
        unfold tableFind
        by_cases c : m = k
        · rw [if_pos c, if_neg (by omega), if_pos c]
        · rw [if_neg c, if_neg c]
          by_cases l : m < k
          · rw [if_pos l, if_pos l, if_neg (by omega)]
          · rw [if_neg l, if_neg l, find_put t n m x]

/-- Reading after removing a key of a sorted table. -/
theorem find_del {α : Type} : ∀ {t : List (Nat × α)} {lo : Nat} (n m : Nat), tableSortedFrom lo t = true →
    tableFind (tableDel t n) m = if m = n then none else tableFind t m
  | [], _, n, m, _ => by unfold tableDel tableFind; simp
  | (k, v) :: t, lo, n, m, h => by
    simp only [tableSortedFrom, Bool.and_eq_true, decide_eq_true_eq] at h
    unfold tableDel
    split
    · next hl =>
      by_cases e : m = n
      · rw [if_pos e]; unfold tableFind; rw [if_neg (by omega), if_pos (by omega)]
      · rw [if_neg e]
    · split
      · next _ e =>
        subst e
        by_cases e : m = n
        · rw [if_pos e, e, find_below h.2 (by omega)]
        · rw [if_neg e]
          conv_rhs => unfold tableFind
          rw [if_neg e]
          by_cases l : m < n
          · rw [if_pos l, find_below h.2 (by omega)]
          · rw [if_neg l]
      · next _ e =>
        unfold tableFind
        by_cases c : m = k
        · rw [if_pos c, if_pos c, if_neg (by omega)]
        · rw [if_neg c, if_neg c]
          by_cases l : m < k
          · rw [if_pos l, if_pos l]; simp
          · rw [if_neg l, if_neg l, find_del n m h.2]

theorem find_filter {α : Type} (p : Nat → Bool) : ∀ {t : List (Nat × α)} {lo : Nat} (m : Nat), tableSortedFrom lo t = true →
    tableFind (t.filter (fun c => p c.1)) m = if p m then tableFind t m else none
  | [], _, m, _ => by simp [tableFind]
  | (k, v) :: t, lo, m, h => by
    simp only [tableSortedFrom, Bool.and_eq_true, decide_eq_true_eq] at h
    rw [List.filter_cons]
    dsimp only
    cases hp : p k
    · simp only [Bool.false_eq_true, if_false]
      rw [find_filter p m h.2]
      cases hm : p m
      · simp
      · simp only [if_true]
        have : m ≠ k := by intro e; rw [e] at hm; simp [hm] at hp
        conv_rhs => unfold tableFind
        rw [if_neg this]
        by_cases l : m < k
        · rw [if_pos l, find_below h.2 (by omega)]
        · rw [if_neg l]
    · simp only [if_true]
      unfold tableFind
      by_cases c : m = k
      · rw [if_pos c, if_pos c, c, hp]; rfl
      · rw [if_neg c, if_neg c]
        by_cases l : m < k
        · rw [if_pos l, if_pos l]; simp
        · rw [if_neg l, if_neg l, find_filter p m h.2]

/-! ## Bytes -/

theorem wf_iff (m : List Host.Cell) : Memory.wf m = true ↔ tableSortedFrom 0 m = true ∧ ∀ c, c ∈ m → c.2 ≠ 0#8 := by
  simp [Memory.wf]

theorem mem_put {α : Type} : ∀ {t : List (Nat × α)} {n : Nat} {x : α} {c : Nat × α}, c ∈ tablePut t n x → c = (n, x) ∨ c ∈ t
  | [], n, x, c, h => by simp only [tablePut, List.mem_singleton] at h; exact .inl h
  | (k, v) :: t, n, x, c, h => by
    unfold tablePut at h
    split at h
    · simpa using h
    · split at h
      · rcases List.mem_cons.mp h with h | h
        · exact .inl h
        · exact .inr (List.mem_cons_of_mem _ h)
      · rcases List.mem_cons.mp h with h | h
        · exact .inr (h ▸ List.mem_cons_self)
        · rcases mem_put h with h | h
          · exact .inl h
          · exact .inr (List.mem_cons_of_mem _ h)

theorem mem_del {α : Type} : ∀ {t : List (Nat × α)} {n : Nat} {c : Nat × α}, c ∈ tableDel t n → c ∈ t
  | [], _, _, h => h
  | (k, v) :: t, n, c, h => by
    unfold tableDel at h
    split at h
    · exact h
    · split at h
      · exact List.mem_cons_of_mem _ h
      · rcases List.mem_cons.mp h with h | h
        · exact h ▸ List.mem_cons_self
        · exact List.mem_cons_of_mem _ (mem_del h)

theorem wf_del {m : List Host.Cell} (h : Memory.wf m = true) (a : Nat) : Memory.wf (tableDel m a) = true := by
  rw [wf_iff] at h ⊢
  exact ⟨sorted_del a h.1, fun c hc => h.2 c (mem_del hc)⟩

/-- A write of one byte keeps the canonical form. -/
theorem wf_bytesSet {m : List Host.Cell} (h : Memory.wf m = true) (a : Nat) (b : Byte) : Memory.wf (bytesSet m a b) = true := by
  unfold bytesSet
  split
  · exact wf_del h a
  · next hb =>
    rw [wf_iff] at h ⊢
    refine ⟨sorted_put b h.1 (Nat.zero_le a), ?_⟩
    intro c hc
    rcases mem_put hc with rfl | hc
    · exact hb
    · exact h.2 c hc

/-- Reading after a write of one byte. -/
theorem bytesGet_bytesSet {m : List Host.Cell} (h : Memory.wf m = true) (a x : Nat) (b : Byte) :
    bytesGet (bytesSet m a b) x = if x = a then b else bytesGet m x := by
  rw [wf_iff] at h
  unfold bytesGet bytesSet
  split
  · next hb =>
    rw [find_del a x h.1]
    by_cases e : x = a
    · simp [e, hb]
    · simp [e]
  · rw [find_put]
    by_cases e : x = a
    · simp [e]
    · simp [e]

theorem wf_bytesWrite : ∀ (bs : List Byte) {m : List Host.Cell} (a : Nat), Memory.wf m = true → Memory.wf (bytesWrite m a bs) = true
  | [], _, _, h => h
  | b :: bs, _, a, h => wf_bytesWrite bs (a + 1) (wf_bytesSet h a b)

/-! ## Memory -/

/-- Reading after a write of a byte of memory. -/
theorem memGet_memSet {s : State} (h : s.memOk) (a x : Nat) (b : Byte) : (s.memSet a b).memGet x = if x = a then b else s.memGet x := by
  unfold State.memGet State.memSet
  dsimp only
  rw [find_del a x h.free, bytesGet_bytesSet h.mem]
  by_cases e : x = a
  · simp [e]
  · simp [e]

theorem memOk_memSet {s : State} (h : s.memOk) (a : Nat) (b : Byte) : (s.memSet a b).memOk where
  mem := wf_bytesSet h.mem a b
  free := sorted_del a h.free
  apart := by
    intro x hx
    unfold State.memSet at hx ⊢
    dsimp only at hx ⊢
    rw [find_del a x h.free] at hx
    have hs := ((wf_iff _).mp h.mem).1
    by_cases e : x = a
    · rw [if_pos e] at hx; cases hx
    · rw [if_neg e] at hx
      unfold bytesSet
      split
      · rw [find_del a x hs, if_neg e]; exact h.apart x hx
      · rw [find_put, if_neg e]; exact h.apart x hx
  registered := h.registered
  l1 := h.l1
  slices := h.slices
  pads := h.pads
  kept := sorted_del a h.kept

theorem memOk_memFree {s : State} (h : s.memOk) (a : Nat) : (s.memFree a).memOk where
  mem := wf_del h.mem a
  free := sorted_put s.choices h.free (Nat.zero_le a)
  apart := by
    intro x hx
    unfold State.memFree at hx ⊢
    dsimp only at hx ⊢
    rw [find_put] at hx
    rw [find_del a x ((wf_iff _).mp h.mem).1]
    by_cases e : x = a
    · rw [if_pos e]
    · rw [if_neg e]; rw [if_neg e] at hx; exact h.apart x hx
  registered := h.registered
  l1 := h.l1
  slices := h.slices
  pads := h.pads
  kept := sorted_del a h.kept

/-- A change of what the form does not speak of keeps it. -/
theorem memOk_same {s t : State} (h : s.memOk) (m : t.mem = s.mem) (f : t.freeAt = s.freeAt) (r : t.registered = s.registered)
    (c : t.cores = s.cores) (d : t.sliceCopies = s.sliceCopies) (p : t.teams = s.teams) (k : t.kept = s.kept) : t.memOk where
  mem := m ▸ h.mem
  free := f ▸ h.free
  apart := by rw [m, f]; exact h.apart
  registered := r ▸ h.registered
  l1 := by intro x; unfold State.core; rw [c]; exact h.l1 x
  slices := by intro x; rw [d]; exact h.slices x
  pads := p ▸ h.pads
  kept := k ▸ h.kept

/-- A change of one core keeps the form where its L1 stays sorted. -/
theorem memOk_setCore {s : State} (h : s.memOk) (c : Fin 256) (k : Core) (hk : tableSortedFrom 0 k.l1 = true) : (s.setCore c k).memOk where
  mem := h.mem
  free := h.free
  apart := h.apart
  registered := h.registered
  l1 := by
    intro d
    by_cases e : d = c
    · subst e; rw [core_setCore_same]; exact hk
    · rw [core_setCore_ne _ _ _ _ e]; exact h.l1 d
  slices := h.slices
  pads := h.pads
  kept := h.kept

theorem memOk_setGroup {s : State} (h : s.memOk) (c : Fin 256) (i : Fin 64) (g : Option Group) : (s.setGroup c i g).memOk :=
  memOk_setCore h c _ (h.l1 c)

theorem memOk_put {s : State} (h : s.memOk) (x : Here) : (s.put x).memOk := memOk_setGroup h _ _ _

theorem memOk_dropL1 {s : State} (h : s.memOk) (c : Fin 256) (pa : Nat) : (s.dropL1 c pa).memOk :=
  memOk_setCore h c _ (sorted_filter _ (h.l1 c))

theorem memOk_dropCopies {s : State} (h : s.memOk) (c : Fin 256) (pa : Nat) : (s.dropCopies c pa).memOk where
  mem := h.mem
  free := h.free
  apart := h.apart
  registered := h.registered
  l1 := h.l1
  slices := by
    intro x
    have hs := fun y => sorted_filter (fun e : Nat × SliceByte => e.1 / 4 != pa / 4) (h.slices y)
    unfold State.dropCopies
    dsimp only
    show tableSortedFrom 0 ((s.sliceCopies.set (dieOf c).castSucc.val _ _).set 4 _ _)[x.val] = true
    rw [Vector.getElem_set]
    split
    · exact hs 4
    · rw [Vector.getElem_set]
      split
      · exact hs (dieOf c).castSucc
      · exact h.slices x
  pads := h.pads
  kept := h.kept

theorem memOk_recallByte {s : State} (h : s.memOk) (pa : Nat) : (recallByte s pa).memOk := by
  unfold recallByte
  split
  · exact h
  · apply memOk_dropL1
    split
    · next v _ =>
      have h1 := memOk_memSet h pa v
      exact ⟨h1.mem, h1.free, h1.apart, sorted_del pa h1.registered, h1.l1, h1.slices, h1.pads, h1.kept⟩
    · exact ⟨h.mem, h.free, h.apart, sorted_del pa h.registered, h.l1, h.slices, h.pads, h.kept⟩

theorem memOk_homeSetByte {s : State} (h : s.memOk) (c : Fin 256) (pa : Nat) (b : Byte) : (homeSetByte s c pa b).memOk :=
  memOk_dropCopies (memOk_dropL1 (memOk_memSet (memOk_recallByte h pa) pa b) c pa) c pa

/-- A fold of steps that keep the form keeps it. -/
theorem memOk_foldl {α : Type} (f : State → α → State) (hf : ∀ s x, s.memOk → (f s x).memOk) : ∀ (l : List α) (s : State), s.memOk →
    (l.foldl f s).memOk
  | [], _, h => h
  | x :: l, s, h => memOk_foldl f hf l (f s x) (hf s x h)

theorem memOk_hint {s : State} (h : s.memOk) (c : Fin 256) (line : Nat) : (s.hint c line).memOk := by
  unfold State.hint
  split
  · exact h
  · exact memOk_same h rfl rfl rfl rfl rfl rfl rfl

theorem memOk_noteWrite {s : State} (h : s.memOk) (w : Writer) (line : Nat) : (noteWrite s w line).memOk := by
  unfold noteWrite
  split
  · exact h
  · exact memOk_same h rfl rfl rfl rfl rfl rfl rfl

theorem memOk_homeWrite {s : State} (h : s.memOk) (w : Writer) (pa : Nat) (bs : List Byte) : (homeWrite s w pa bs).memOk :=
  memOk_noteWrite (memOk_hint (memOk_foldl _ (fun _ _ h => memOk_homeSetByte h _ _ _) _ s h) _ _) _ _

theorem sorted_foldl_put {α β : Type} (f : β → Nat) (g : β → α) : ∀ (l : List β) (t : List (Nat × α)), tableSortedFrom 0 t = true →
    tableSortedFrom 0 (l.foldl (fun t i => tablePut t (f i) (g i)) t) = true
  | [], _, h => h
  | x :: l, _, h => sorted_foldl_put f g l _ (sorted_put (g x) h (Nat.zero_le _))

/-- A store keeps the form. -/
theorem memOk_storeBytes {s : State} (h : s.memOk) (w : Writer) (p : Place) (bs : List Byte) : (storeBytes s w p bs).memOk := by
  unfold storeBytes
  split
  · have h1 : (s.setCore w.core { s.core w.core with l1 := (List.range bs.length).foldl (fun t i =>
        tablePut t (p.pa + i) (CacheByte.dirty (bs.getD i 0#8))) (s.core w.core).l1 }).memOk :=
      memOk_setCore h _ _ (sorted_foldl_put _ _ _ _ (h.l1 _))
    dsimp only
    split
    · exact memOk_noteWrite (memOk_hint h1 _ _) _ _
    · exact memOk_hint h1 _ _
  · exact memOk_homeWrite h w p.pa bs

theorem memOk_registerByte {s : State} (h : s.memOk) (c : Fin 256) (pa : Nat) : (registerByte s c pa).memOk := by
  unfold registerByte
  split
  · split
    · exact h
    · have h1 := memOk_recallByte h pa
      exact ⟨h1.mem, h1.free, h1.apart, sorted_put c h1.registered (Nat.zero_le _), h1.l1, h1.slices, h1.pads, h1.kept⟩
  · exact h

theorem memOk_registerBytes {s : State} (h : s.memOk) (w : Writer) (l : List Nat) : (registerBytes s w l).memOk :=
  memOk_foldl _ (fun _ _ h => memOk_noteWrite h _ _) _ _ (memOk_foldl _ (fun _ _ h => memOk_registerByte h _ _) _ s h)

theorem memOk_selfInvalidate {s : State} (h : s.memOk) (c : Fin 256) : (selfInvalidate s c).memOk :=
  memOk_same (memOk_setCore h c _ (sorted_filter _ (h.l1 c))) rfl rfl rfl rfl rfl rfl rfl

theorem memOk_forgetWord {s : State} (h : s.memOk) (c : Fin 256) (pa : Nat) : (forgetWord s c pa).memOk := by
  unfold forgetWord
  refine memOk_foldl _ ?_ _ s h
  intro s a h
  apply memOk_dropCopies
  split
  · exact memOk_dropL1 h c a
  · exact h

theorem memOk_recallWord {s : State} (h : s.memOk) (pa : Nat) : (recallWord s pa).1.memOk :=
  memOk_foldl _ (fun _ _ h => memOk_recallByte h _) _ s h

/-- An atomic operation at the home of a word keeps the form. -/
theorem memOk_atomicWord {s : State} (h : s.memOk) (w : Writer) (pa : Nat) (f : Word → Option Word) : (atomicWord s w pa f).1.memOk := by
  unfold atomicWord
  have h1 := memOk_recallWord (memOk_registerBytes h w (wordBytes pa)) pa
  generalize recallWord (registerBytes s w (wordBytes pa)) pa = r at h1 ⊢
  dsimp only
  split
  · exact memOk_forgetWord h1 w.core pa
  · next x _ => exact memOk_forgetWord (memOk_homeWrite h1 w pa (toLe x.toNat 4)) w.core pa

/-- An operation applied at a word's home keeps the form. -/
theorem memOk_atomicHome {s : State} (h : s.memOk) (w : Writer) (pa : Nat) (f : Word → Word) : (atomicHome s w pa f).memOk := by
  unfold atomicHome
  have h1 := memOk_recallWord h pa
  generalize recallWord s pa = r at h1 ⊢
  exact memOk_forgetWord (memOk_noteWrite (memOk_hint (memOk_foldl _ (fun _ _ h => memOk_memSet h _ _) _ _ h1) _ _) _ _) _ _

theorem memOk_settlePoison {s : State} (h : s.memOk) (x y : List Nat) : (settlePoison s x y).memOk := by
  unfold settlePoison notePoison
  split
  · exact h
  · exact memOk_same h rfl rfl rfl rfl rfl rfl rfl

theorem sorted_keep {s : State} (h : s.memOk) (pa : Nat) : tableSortedFrom 0 (s.keep pa) = true := by
  unfold State.keep
  split
  · exact sorted_put _ h.kept (Nat.zero_le pa)
  · exact h.kept

/-- The form is kept with any other sorted table of kept bytes. -/
theorem memOk_kept {s : State} (h : s.memOk) (k : List (Nat × Byte)) (hk : tableSortedFrom 0 k = true) : ({ s with kept := k } : State).memOk :=
  ⟨h.mem, h.free, h.apart, h.registered, h.l1, h.slices, h.pads, hk⟩

theorem memOk_dropKept {s : State} (h : s.memOk) : s.dropKept.memOk :=
  memOk_kept h _ (sorted_filter _ h.kept)

theorem memOk_noteDevice {s : State} (h : s.memOk) (l : List Nat) : (noteDevice s l).memOk :=
  memOk_foldl _ (fun _ _ h => memOk_noteWrite h _ _) _ s h

theorem memOk_fwSetByte {s : State} (h : s.memOk) (pa : Nat) (b : Byte) : (fwSetByte s pa b).memOk :=
  memOk_kept (memOk_memSet (memOk_recallByte h pa) pa b) _ (sorted_keep (memOk_recallByte h pa) pa)

theorem memOk_fwFreeByte {s : State} (h : s.memOk) (pa : Nat) : (fwFreeByte s pa).memOk :=
  memOk_kept (memOk_memFree h pa) _ (sorted_keep h pa)

/-- Firmware's writes keep the form. -/
theorem memOk_fwWrite {s : State} (h : s.memOk) (pa : Nat) (bs : List Byte) : (fwWrite s pa bs).memOk :=
  memOk_settlePoison (memOk_noteDevice (memOk_foldl _ (fun _ _ h => memOk_fwSetByte h _ _) _ s h) _) _ _

theorem memOk_leaveHints {s : State} (h : s.memOk) (c : Fin 256) (l : List Nat) : (leaveHints s c l).memOk :=
  memOk_same h rfl rfl rfl rfl rfl rfl rfl

theorem memOk_writeBack {s : State} (h : s.memOk) (c : Fin 256) (l : List Nat) : (writeBack s c l).memOk :=
  memOk_leaveHints (memOk_foldl _ (fun _ _ h => memOk_recallByte h _) _ _ (memOk_registerBytes h _ _)) _ _

/-- An eviction keeps the form. -/
theorem memOk_evictLine {s : State} (h : s.memOk) (c : Fin 256) (line : Nat) : (evictLine s c line).memOk :=
  memOk_same (memOk_setCore (memOk_writeBack h c (dirtyWhere s c (fun a => lineOf a == line))) c _
    (sorted_filter _ ((memOk_writeBack h c _).l1 c))) rfl rfl rfl rfl rfl rfl rfl

/-- A fill of a slice's copy keeps the form. -/
theorem memOk_fillSlice {s : State} (h : s.memOk) (c : Fin 256) (p : Place) : (fillSlice s c p).memOk := by
  unfold fillSlice
  split
  · exact h
  · next tb _ =>
    split
    · exact h
    · split
      · exact h
      · next e _ =>
        refine ⟨h.mem, h.free, h.apart, h.registered, h.l1, ?_, h.pads, h.kept⟩
        intro x
        by_cases e1 : tb.val = x.val
        · have : tb = x := Fin.ext e1
          subst this
          simp only [Fin.getElem_fin, Vector.getElem_set_self]
          exact sorted_foldl_put (fun i => lineOf p.pa * 128 + i) (fun i => (⟨homeByte s (lineOf p.pa * 128 + i), e, s.fresh⟩ : SliceByte)) _ _
            (h.slices _)
        · simpa [e1] using h.slices x

/-- A fill of a line into the L1 or a slice's copies keeps the form. -/
theorem memOk_fillLine {s : State} (h : s.memOk) (c : Fin 256) (p : Place) : (fillLine s c p).memOk := by
  have h1 : (fillSlice s c p).memOk := memOk_fillSlice h c p
  unfold fillLine
  dsimp only
  generalize fillSlice s c p = s1 at h1
  have hadd : ∀ (f : List (Nat × CacheByte) → Nat → List (Nat × CacheByte)),
      (∀ t i, tableSortedFrom 0 t = true → tableSortedFrom 0 (f t i) = true) → ∀ (l : List Nat) (t : List (Nat × CacheByte)),
      tableSortedFrom 0 t = true → tableSortedFrom 0 (l.foldl f t) = true := by
    intro f hf l
    induction l with
    | nil => intro t h; exact h
    | cons i l ih => intro t h; exact ih _ (hf t i h)
  have step : ∀ (e : Option Nat) (t : List (Nat × CacheByte)) (i : Nat), tableSortedFrom 0 t = true →
      tableSortedFrom 0 (match tableFind t (lineOf p.pa * 128 + i) with
        | some (CacheByte.dirty _) => t
        | some (CacheByte.clean _ e0) => if leaseGood s1 c.val e0 then t else
            tablePut t (lineOf p.pa * 128 + i) (CacheByte.clean (loadByte s1 c p (lineOf p.pa * 128 + i)) e)
        | none => tablePut t (lineOf p.pa * 128 + i) (CacheByte.clean (loadByte s1 c p (lineOf p.pa * 128 + i)) e)) = true := by
    intro e t i h
    split
    · exact h
    · split
      · exact h
      · exact sorted_put _ h (Nat.zero_le _)
    · exact sorted_put _ h (Nat.zero_le _)
  split
  · exact h1
  · next e _ =>
    cases e with
    | none => refine memOk_setCore h1 c _ ?_; dsimp only; exact hadd _ (step none) _ _ (h1.l1 c)
    | some x =>
      refine memOk_same (memOk_setCore h1 c _ ?_) rfl rfl rfl rfl rfl rfl rfl
      dsimp only; exact hadd _ (step (some x)) _ _ (h1.l1 c)

/-- The form is kept where every byte of a range is 0. -/
theorem memOk_zeroRange {s : State} (h : s.memOk) (a n : Nat) : (zeroRange s a n).memOk := by
  unfold zeroRange
  extract_lets out s0 s1
  have h0 : s0.memOk := memOk_foldl _ (fun _ k h => memOk_kept h _ (sorted_keep h k)) _ s h
  clear_value s0
  apply memOk_noteDevice
  have hs := (wf_iff _).mp h0.mem
  exact
    { mem := (wf_iff _).mpr ⟨sorted_filter _ hs.1, fun c hc => hs.2 c (List.mem_filter.mp hc).1⟩
      free := sorted_filter _ h0.free
      apart := by
        intro x hx
        dsimp only [s1] at hx ⊢
        rw [find_filter out x h0.free] at hx
        rw [find_filter out x hs.1]
        split
        · next e => rw [if_pos e] at hx; exact h0.apart x hx
        · rfl
      registered := sorted_filter _ h0.registered
      l1 := by intro c; simpa [s1, State.core] using sorted_filter _ (h0.l1 c)
      slices := by intro x; simpa [s1] using sorted_filter _ (h0.slices x)
      pads := h0.pads
      kept := h0.kept }

end Sys2Proof.Machine
end

