-- ==== Sys2Proof/Tests/Slice0.lean ====
section
/-! SUPPORT. Tests: an ill-formed term for each check of `Instr.wf`, words written out from the spec's encodings, worked examples of the
spec on a small state, and states that meet the hypotheses of the statements.
-/

open Sys2Proof Sys2Proof.Machine

namespace Sys2Proof.Tests

-- One proof at a time: each holds the states that it computes.
set_option Elab.async false

/-! ## Ill-formed terms -/

/-- An index payload. -/
def ixOf (di ai bi dxr : Bool) : Option Ix := some ⟨di, ai, bi, 0#2, 0#3, 0#2, 0#3, 0#2, 0#3, dxr⟩

theorem smoke_index_di_dxr : (Instr.iadd ⟨0#3, false, 0#6, 0#6, 0#6, ixOf true false false true⟩).wf = false := by decide
theorem smoke_index_d : (Instr.iadd ⟨0#3, false, 1#6, 0#6, 0#6, ixOf true false false false⟩).wf = false := by decide
theorem smoke_index_a : (Instr.iadd ⟨0#3, false, 0#6, 1#6, 0#6, ixOf false true false false⟩).wf = false := by decide
theorem smoke_index_b : (Instr.iadd ⟨0#3, false, 0#6, 0#6, 1#6, ixOf false false true false⟩).wf = false := by decide
theorem smoke_index_dxr : (Instr.iadd ⟨0#3, false, 8#6, 0#6, 0#6, ixOf false false false true⟩).wf = false := by decide
theorem smoke_unary_bi : (Instr.inot ⟨0#3, false, 0#6, 0#6, ixOf false false true false⟩).wf = false := by decide
theorem smoke_compare_dxr : (Instr.icmp ⟨0#3, 0#6, 0#6, ixOf false false false true⟩).wf = false := by decide
theorem smoke_select_a : (Instr.isel ⟨0#3, 0#3, 0#6, 1#6, 0#6, ixOf false true false false⟩).wf = false := by decide
theorem smoke_convert_s : (Instr.cvtif ⟨0#3, false, 0#6, 0#6, true, .fpc, none⟩).wf = false := by decide
theorem smoke_mvt_range : (Instr.mvt ⟨0#3, 0#4, 60#6, 0#6, 0#6, 4#3, 0#3, 0#18⟩).wf = false := by decide
theorem smoke_mvt_pair : (Instr.mvt ⟨0#3, 0#4, 0#6, 0#6, 1#6, 0#3, 0#3, 0#18⟩).wf = false := by decide
theorem smoke_load_range : (Instr.ldg ⟨0#3, 0#4, 61#6, 0#6, 0#4, 3#2, none⟩).wf = false := by decide
theorem smoke_load_signed : (Instr.ldgs ⟨0#3, 0#4, 0#6, 0#6, 0#4, 2#2, none⟩).wf = false := by decide
theorem smoke_store_range : (Instr.stg ⟨0#3, 61#6, 0#6, 0#4, 3#2, none⟩).wf = false := by decide
theorem smoke_packed_s : (Instr.pmin ⟨0#2, true, .i8, 0#6, 0#6, 0#6⟩).wf = false := by decide
theorem smoke_packed_abs_b : (Instr.pabs ⟨0#2, false, .i8, 0#6, 0#6, 1#6⟩).wf = false := by decide
theorem smoke_packed_abs_s : (Instr.pabs ⟨0#2, true, .f16, 0#6, 0#6, 0#6⟩).wf = false := by decide
theorem smoke_packed_avg_float : (Instr.pavg ⟨0#2, false, .f16, 0#6, 0#6, 0#6⟩).wf = false := by decide
theorem smoke_packed_mov_index : (Instr.pmov ⟨0#2, false, .i16, 0#6, 0#6, 2#6⟩).wf = false := by decide
theorem smoke_packed_cvt_range : (Instr.pcvt ⟨0#2, false, .i8, 0#6, 61#6, false, .f32⟩).wf = false := by decide
theorem smoke_atomic_pair : (Instr.atomg ⟨0#3, false, 0#3, 0#6, 0#6, 1#6⟩).wf = false := by decide
theorem smoke_atomic_c : (Instr.atomp ⟨0#3, true, 0#3, 0#6, 0#6, 0#6⟩).wf = false := by decide
theorem smoke_shuffle_mode : (Instr.xshfl ⟨0#3, false, 4#3, 0#6, 0#6, 0#6⟩).wf = false := by decide
theorem smoke_vote_b : (Instr.xvote ⟨0#3, false, 0#3, 0#6, 0#6, 1#6⟩).wf = false := by decide
theorem smoke_reduce_b : (Instr.xred ⟨0#3, false, 0#3, 0#6, 0#6, 1#6⟩).wf = false := by decide
theorem smoke_push_d : (Instr.qpush ⟨0#3, 1#6, 0#6, 0#6⟩).wf = false := by decide
theorem smoke_pop_b : (Instr.qpop ⟨0#3, 0#6, 0#6, 1#6⟩).wf = false := by decide
theorem smoke_emit_range : (Instr.emit ⟨0#3, 0#6, 61#6, 0#6⟩).wf = false := by decide
theorem smoke_exchange_pair : (Instr.xchgg ⟨0#3, 0#6, 0#6, 1#6⟩).wf = false := by decide
theorem smoke_cas_range : (Instr.casg ⟨0#3, false, 1#3, 63#6, 0#6, 0#6⟩).wf = false := by decide
theorem smoke_cas_pad_f : (Instr.casp ⟨0#3, false, 1#3, 0#6, 0#6, 0#6⟩).wf = false := by decide
theorem smoke_pair_d : (Instr.sadd64 ⟨1#6, 0#6, 0#6⟩).wf = false := by decide
theorem smoke_pair_move : (Instr.smov64 ⟨0#6, 1#6⟩).wf = false := by decide
theorem smoke_pair_shift : (Instr.sshl64 ⟨0#6, 1#6, 0#6⟩).wf = false := by decide
theorem smoke_pair_compare : (Instr.scmp64 ⟨0#6, 1#6⟩).wf = false := by decide
theorem smoke_mask_k0 : (Instr.kand ⟨0#3, 1#3, 1#3⟩).wf = false := by decide
theorem smoke_mask_not_k0 : (Instr.knot 0#3 1#3).wf = false := by decide
theorem smoke_kill_range : (Instr.kill 60#6 0x10#16).wf = false := by decide
theorem smoke_window_length : (Instr.win 0#2 0#6 65#12).wf = false := by decide
theorem smoke_part : (Instr.setpart 3#12).wf = false := by decide
theorem smoke_special_number : (Instr.srd 0#6 15#12).wf = false := by decide
theorem smoke_special_pair : (Instr.srd 1#6 7#12).wf = false := by decide
theorem smoke_special_write : (Instr.swr 0#6 5#12).wf = false := by decide
theorem smoke_uniform_store_la : (Instr.sst ⟨1#4, 0#6, 0#5, 0#9, none⟩).wf = false := by decide
theorem smoke_freeze_pair : (Instr.frz 0#6 1#6 0#6 false false).wf = false := by decide
theorem smoke_copy_ring : (Instr.cpy ⟨false, 0#5, 0#6, 0#6, 1#3⟩).wf = false := by decide
theorem smoke_copy_range : (Instr.cpy2d ⟨false, 0#5, 0#6, 62#6, 0#3⟩).wf = false := by decide
theorem smoke_request_pair : (Instr.rafg 0#5 1#6 0#6 0#3).wf = false := by decide
theorem smoke_pass_group : (Instr.mpass 32#12).wf = false := by decide
theorem smoke_shape_slot : (Instr.mshape ⟨0#4, 8#6, 0#5, 0#9, none⟩).wf = false := by decide
theorem smoke_loop_steps : (Instr.mloop ⟨0#3, 0#6, 0#4, 0#8, none⟩).wf = false := by decide
theorem smoke_zero_tile : (Instr.mzero 4#12).wf = false := by decide
theorem smoke_row_range : (Instr.mrd 61#6 0#6 0#2).wf = false := by decide
theorem smoke_task_pair : (Instr.tsub 1#6).wf = false := by decide

/-! ## Words of the spec's encodings (R76 to R88, the words it prints) -/

theorem decode_iadd : decode none 0x00206084#32 = .ok (.iadd ⟨0#3, true, 6#6, 2#6, 4#6, none⟩) := by decide
theorem decode_idiv : decode none 0x2A0C5187#32 = .ok (.idiv ⟨0#3, 3#4, 5#6, 6#6, 7#6⟩) := by decide
theorem decode_ldg : decode none 0x34004046#32 = .ok (.ldg ⟨0#3, 0#4, 4#6, 1#6, 1#4, 2#2, none⟩) := by decide
theorem decode_stg : decode (some 0x800000#24) 0x38007052#32 = .ok (.stg ⟨0#3, 7#6, 1#6, 4#4, 2#2, some ⟨true, 0#23⟩⟩) := by decide
theorem decode_pdot : decode none 0x5418A209#32 = .ok (.pdot ⟨0#2, false, .e4m3, 10#6, 8#6, 9#6⟩) := by decide
theorem decode_pcvt : decode none 0x5619440D#32 = .ok (.pcvt ⟨0#2, false, .e4m3, 20#6, 16#6, false, .f32⟩) := by decide
theorem decode_xshfl : decode none 0x60649103#32 = .ok (.xshfl ⟨1#3, true, 1#3, 9#6, 4#6, 3#6⟩) := by decide
theorem decode_xgather : decode none 0x6200E340#32 = .ok (.xgather ⟨0#3, false, 0#3, 14#6, 13#6, 0#6⟩) := by decide
theorem decode_xvote : decode none 0x64206100#32 = .ok (.xvote ⟨0#3, true, 0#3, 6#6, 4#6, 0#6⟩) := by decide
theorem decode_xred : decode none 0x66405100#32 = .ok (.xred ⟨1#3, false, 0#3, 5#6, 4#6, 0#6⟩) := by decide
theorem decode_xisect : decode none 0x7000C28B#32 = .ok (.xisect ⟨0#3, 12#6, 10#6, 11#6⟩) := by decide
theorem decode_qpop : decode none 0x7284A180#32 = .ok (.qpop ⟨2#3, 10#6, 6#6, 0#6⟩) := by decide
theorem decode_emit : decode none 0x7440050E#32 = .ok (.emit ⟨1#3, 0#6, 20#6, 14#6⟩) := by decide
theorem decode_atomg : decode none 0x5C0050C4#32 = .ok (.atomg ⟨0#3, false, 0#3, 5#6, 3#6, 4#6⟩) := by decide
theorem decode_casg : decode none 0x782460C4#32 = .ok (.casg ⟨0#3, true, 1#3, 6#6, 3#6, 4#6⟩) := by decide
theorem decode_sadd64 : decode none 0x81106200#32 = .ok (.sadd64 ⟨4#6, 6#6, 8#6⟩) := by decide
theorem decode_saddi : decode none 0x821C7001#32 = .ok (.saddi ⟨7#6, 7#6, 1#12, none⟩) := by decide
theorem decode_bc : decode none 0x90E00010#32 = .ok (.bc ⟨14#4, 16#20⟩) := by decide
theorem decode_bmz : decode none 0x91A00003#32 = .ok (.bmz ⟨true, 2#3, 3#20⟩) := by decide
theorem decode_call : decode none 0x93F00003#32 = .ok (.call ⟨15#4, 3#20⟩) := by decide
theorem decode_ret : decode none 0x94000000#32 = .ok .ret := by decide
theorem decode_trap : decode none 0x99000042#32 = .ok (.trap 0x42#8) := by decide
theorem decode_rte_skip : decode none 0x9A000001#32 = .ok .rteSkip := by decide
theorem decode_kmov : decode none 0xA0805300#32 = .ok (.kmov 4#3 12#6) := by decide
theorem decode_kset : decode none 0xA0441021#32 = .ok (.kset 2#3 1#3 1#3) := by decide
theorem decode_kill : decode none 0xA1000003#32 = .ok (.kill 0#6 3#16) := by decide
theorem decode_win : decode none 0xA2008004#32 = .ok (.win 0#2 8#6 4#12) := by decide
theorem decode_setpart : decode none 0xA3000008#32 = .ok (.setpart 8#12) := by decide
theorem decode_srd : decode none 0xA4280007#32 = .ok (.srd 10#6 7#12) := by decide
theorem decode_fence : decode none 0xB0000003#32 = .ok (.fence .pkg) := by decide
theorem decode_acqr : decode none 0xB3350600#32 = .ok (.acqr ⟨.pkg, 20#6, 3#5, 0#9, none⟩) := by decide
theorem decode_bar : decode none 0xB5000000#32 = .ok .bar := by decide
theorem decode_frz : decode none 0xB6508283#32 = .ok (.frz 20#6 8#6 10#6 true true) := by decide
theorem decode_publish : decode none 0xB9010003#32 = .ok (.publish 16#6 .pkg) := by decide
theorem decode_cpy : decode none 0xC0011458#32 = .ok (.cpy ⟨false, 2#5, 10#6, 11#6, 0#3⟩) := by decide
theorem decode_cpyo : decode none 0xC3021458#32 = .ok (.cpyo 4#5 10#6 11#6) := by decide
theorem decode_closeb : decode none 0xC4001800#32 = .ok (.closeb 12#6) := by decide
theorem decode_rafg : decode none 0xC7010CD3#32 = .ok (.rafg 2#5 6#6 26#6 3#3) := by decide
theorem decode_swait : decode none 0xC9101A01#32 = .ok (.swait true 13#6 1#3) := by decide
theorem decode_mshape : decode none 0xD3000A00#32 = .ok (.mshape ⟨0#4, 0#6, 5#5, 0#9, none⟩) := by decide
theorem decode_mloop : decode none 0xD40A0040#32 = .ok (.mloop ⟨0#3, 20#6, 0#4, 0x40#8, none⟩) := by decide
theorem decode_midx : decode none 0xD800A000#32 = .ok (.midx 10#6) := by decide
theorem decode_tsub : decode none 0xE0008000#32 = .ok (.tsub 8#6) := by decide
theorem decode_end_word : decode none 0x0E000000#32 = .error 0x00#8 := by decide
theorem decode_prefix_twice : decode (some 0#24) 0xFF000000#32 = .error 0x02#8 := by decide
/-! ## Small states -/

/-- Page tables at 0x900000 that map the 64 KiB page at 0x10000 to 0x20000 and the one at 0x20000 to 0x30000: read, write, execute, core
access. -/
def tables : List Host.Cell :=
  [(0x900002, 0x91#8), (0x900007, 0x80#8), (0x910002, 0x92#8), (0x910007, 0x80#8), (0x920002, 0x93#8), (0x920007, 0x80#8),
    (0x93000A, 0x02#8), (0x93000F, 0xFA#8), (0x930012, 0x03#8), (0x930017, 0xFA#8)]

/-- One team of one combined group, about to run what stands at 0x10000. -/
def world : State :=
  { withRunning { State.reset with mem := tables } 1 0x900000 0xA00000 with agenda := [], cur := some ⟨0, 0, 0⟩ }

/-- The fragment that stands at the issue. -/
def at0 (s : State) : Here :=
  (s.here?).getD ⟨⟨0, 0, 0⟩, firstGroup 0 0 0 none 0 .combined 0 0 (firstFrag 0#64 (firstView [] 0#32 32#32)) 0#32,
    firstFrag 0#64 (firstView [] 0#32 32#32)⟩

/-- A state with something of it changed: its first group, that group's first fragment, its view, its context, core 0, its team. -/
def onGroup (s : State) (f : Group → Group) : State := s.setGroup 0 0 ((s.group? 0 0).map f)
def onFrag (s : State) (f : Frag → Frag) : State := onGroup s (fun g => { g with frags := g.frags.set 0 ((g.frags[(0 : Fin 8)]).map f) })
def onView (s : State) (f : View → View) : State := onFrag s (fun x => { x with view := f x.view })
def onCtx (s : State) (f : Context → Context) : State := { s with contexts := s.contexts.map f }
def onCore (s : State) (f : Core → Core) : State := s.setCore 0 (f (s.core 0))
def onTeam (s : State) (f : Team → Team) : State := { s with teams := s.teams.map f }
def sreg (s : State) (n : Reg) (w : Word) : State := onView s (fun v => { v with s := regSet v.s n w })
def kreg (s : State) (n : KReg) (w : Word) : State := onView s (fun v => { v with k := kSet v.k n w })
def vreg (s : State) (n : Reg) (f : Fin 32 → Word) : State := onGroup s (fun g => { g with v := regSet g.v n (some ⟨Lanes.make f, 0#32, none⟩) })
/-- A lane of a register poisoned. -/
def bad (s : State) (n : Reg) (m : LaneMask) : State := onGroup s (fun g => { g with v := regSet g.v n (some ⟨Lanes.all 0#32, m, none⟩) })

/-- The context of those states. -/
def ctx0 (s : State) : Context := (s.ctx? 1).getD (fetchContext 1 0 0)
def team0 (s : State) : Team := (teamOf s (at0 s)).getD ⟨0, 0, 0#32, 0, 0, [], [], 0, [], 0#32, Vector.replicate 32 0#32, 0#8, 0#8, 0#8, 0#64, none⟩

/-! ## What the statements ask, as tests -/

theorem here_eq {s : State} (e : (s.here?).isSome = true) : s.here? = some (at0 s) := by
  unfold at0; obtain ⟨h, q⟩ := Option.isSome_iff_exists.mp e; simp [q]
theorem ctx_eq {s : State} (e : (s.ctx? 1).isSome = true) : s.ctx? 1 = some (ctx0 s) := by
  unfold ctx0; obtain ⟨h, q⟩ := Option.isSome_iff_exists.mp e; simp [q]
theorem team_eq {s : State} (e : (teamOf s (at0 s)).isSome = true) : teamOf s (at0 s) = some (team0 s) := by
  unfold team0; obtain ⟨h, q⟩ := Option.isSome_iff_exists.mp e; simp [q]

/-- What `Issues` asks of a team's group. -/
def issuesB (s : State) (cl : RoleClass) : Bool := (s.here?).isSome && roleAllows (at0 s).g.role cl && (at0 s).g.team.isSome
theorem issues_of {s : State} {cl : RoleClass} (e : issuesB s cl = true) (i : Instr) : Issues s (at0 s) i cl := by
  simp only [issuesB, Bool.and_eq_true] at e
  exact ⟨here_eq e.1.1, e.1.2, .inl e.2⟩

def srcB' (h : Here) (ex : LaneMask) : Src → Bool
  | .reg _ => true
  | .win w x => decide ((h.w w).base.toNat + (h.w w).len.toNat ≤ 64) &&
      (List.finRange 32).all (fun l => !ex.getLsbD l.val || decide ((h.x x)[l].toNat < (h.w w).len.toNat))
theorem src_of {h : Here} {ex : LaneMask} {x : Src} (e : srcB' h ex x = true) : x.inRange h ex := by
  cases x with
  | reg _ => trivial
  | win w i =>
    simp only [srcB', Bool.and_eq_true, decide_eq_true_eq, List.all_eq_true, List.mem_finRange, forall_true_left, Bool.or_eq_true,
      Bool.not_eq_true'] at e
    exact ⟨e.1, fun l hl => (e.2 l).resolve_left (by simp [hl])⟩

/-- What `LaneReady` asks. -/
def laneB (cl : RoleClass) (s : State) (k : KReg) (d : Dst) (a b : Option Src) (reads : List Src) (late : Bool) : Bool :=
  let h := at0 s
  let ex := h.exec k
  issuesB s cl && ex != 0#32 && decide (h.raises ex d late = 0 ∨ h.group.charge + h.raises ex d late ≤ h.g.budget) &&
    srcB' h ex d.asSrc && a.all (srcB' h ex) && b.all (srcB' h ex) && reads.all (fun x => ex &&& h.poisonOf x == 0#32)
theorem lane_of {cl : RoleClass} {s : State} {k : KReg} {d : Dst} {a b : Option Src} {reads : List Src} {late : Bool}
    (e : laneB cl s k d a b reads late = true) (i : Instr) : LaneReady cl s (at0 s) i k d a b reads late := by
  simp only [laneB, Bool.and_eq_true, bne_iff_ne, decide_eq_true_eq, List.all_eq_true, beq_iff_eq] at e
  obtain ⟨⟨⟨⟨⟨⟨e1, e2⟩, e3⟩, e4⟩, e5⟩, e6⟩, e7⟩ := e
  refine ⟨issues_of e1 i, e2, e3, ?_, ?_, ?_, e7⟩
  · cases d with
    | win w x => exact src_of e4
    | none | regs _ _ | index _ => trivial
  · rintro x rfl; exact src_of (by simpa using e5)
  · rintro x rfl; exact src_of (by simpa using e6)

/-- With no class enabled none traps. -/
theorem quiet_of {h : Here} (e : h.f.view.en = 0#4) (ex : LaneMask) (out : Fin 32 → LaneOut) : quiet h ex out := by
  intro l _; simp [e]

/-- What `State.memOk` asks where no byte is open. -/
def memB (s : State) : Bool :=
  Memory.wf s.mem && s.freeAt.isEmpty && tableSortedFrom 0 s.registered && (List.finRange 256).all (fun c => tableSortedFrom 0 (s.core c).l1) &&
    (List.finRange 5).all (fun d => tableSortedFrom 0 s.sliceCopies[d]) && s.teams.all (fun t => Memory.wf t.scratch) &&
    s.kept.isEmpty
theorem mem_of {s : State} (e : memB s = true) : s.memOk := by
  simp only [memB, Bool.and_eq_true, List.all_eq_true, List.mem_finRange, forall_true_left, List.isEmpty_iff] at e
  obtain ⟨⟨⟨⟨⟨⟨e1, e2⟩, e3⟩, e4⟩, e5⟩, e6⟩, e7⟩ := e
  exact ⟨e1, by rw [e2]; rfl, by rw [e2]; intro a h; simp [tableFind] at h, e3, e4, e5, e6, by rw [e7]; rfl⟩

def okB : Check → Bool
  | .ok _ => true
  | _ => false
def okPlace : Check → Place
  | .ok p => p
  | _ => ⟨0, ⟨0, 1, false, false, false, false, false, false, false, false, 0#2, 0#8⟩⟩
theorem ok_eq {c : Check} (e : okB c = true) : c = .ok (okPlace c) := by cases c <;> simp_all [okB, okPlace]
theorem passes_of {s : State} {ex : LaneMask} {acc : Access} {fr : FreezeRule} {n : Nat} {addr : Fin 32 → DWord}
    (e : ((List.finRange 32).all fun l => !ex.getLsbD l.val || okB (check1 s (at0 s) acc fr n n (addr l))) = true) :
    Passes s (at0 s) ex acc fr n addr (fun l => okPlace (check1 s (at0 s) acc fr n n (addr l))) := by
  simp only [List.all_eq_true, List.mem_finRange, forall_true_left, Bool.or_eq_true, Bool.not_eq_true'] at e
  exact fun l hl => ok_eq ((e l).resolve_left (by simp [hl]))

/-- What holds of the content of a place that may be empty. -/
theorem opt_all {α : Type} {o : Option α} {p : α → Bool} (e : o.all p = true) (x : α) (h : o = some x) : p x = true := by
  simpa [h] using e

/-- What the group's and the core's `Released` asks where nothing at all is outstanding. -/
theorem released_of {s : State} {h : Here} (e : s.grants = [] ∧ s.writes = [] ∧ s.copies = [] ∧ s.redgs = [] ∧ (s.core h.r.core).engine.runs = []) :
    Released s h := by
  obtain ⟨a, b, c, d, f⟩ := e
  constructor <;> simp [*]
theorem groupReleased_of {s : State} {h : Here} (e : s.writes = [] ∧ s.copies = [] ∧ s.redgs = [] ∧ (s.core h.r.core).engine.runs = []) :
    GroupReleased s h := by
  obtain ⟨b, c, d, f⟩ := e
  constructor <;> simp [*]
/-- A write of an applied `REDG` of the first group is outstanding. -/
def owingRedg (s : State) : State := { s with writes := [⟨4, 0, 3, 1, 0x600, 0, 0, true⟩] }
/-- A `CPYO` of the first group has not written its bytes. -/
def owingCopy (s : State) : State := { s with copies := [⟨9, 0, 3, 2, 1, 1, true, [⟨0, 0x30000, 4⟩], some 1#32, none, none, none, none⟩] }

/-! ## States that meet the hypotheses: encoding and the step -/

theorem witness_EncodeDecode : (Instr.kill 0#6 0xFFFF#16).wf = true ∧ encode (.kill 0#6 0xFFFF#16) = some (none, 0xA100FFFF#32) ∧
    (Instr.stg ⟨0#3, 7#6, 1#6, 4#4, 2#2, some ⟨true, 0#23⟩⟩).wf = true ∧
    encode (.stg ⟨0#3, 7#6, 1#6, 4#4, 2#2, some ⟨true, 0#23⟩⟩) = some (some 0x800000#24, 0x38007052#32) := by decide
theorem witness_DecodeEncode : decode none 0x94000000#32 = .ok .ret ∧
    decode (some 0x800000#24) 0x38007052#32 = .ok (.stg ⟨0#3, 7#6, 1#6, 4#4, 2#2, some ⟨true, 0#23⟩⟩) := by decide

/-- Words at the PC, and a turn that issues the group. -/
def fetching (ws : List Word) : State :=
  let code : List Host.Cell := ws.zipIdx.flatMap (fun p => (List.range 4).filterMap (fun j =>
    let b : Byte := p.1.extractLsb' (8 * j) 8
    if b = 0#8 then none else some (0x20000 + 4 * p.2 + j, b)))
  { world with mem := code ++ tables, agenda := [⟨7, .issue ⟨0, 0, 0⟩ []⟩, ⟨0, .event .nop⟩] }

/-- The states that `StepRunsDecoded` names on the way to the instruction. -/
def issued (s : State) (r : FragRef) (skipped : List FragRef) : Option (State × Here) :=
  let s0 := advanceTime { s with agenda := s.agenda.tail } 7
  match s0.at? r with
  | none => none
  | some h0 => if h0.f.issued.isSome || fetchHeld s0 h0 then none else match taking s0 h0 skipped with
    | none => none
    | some k =>
      let s1 := noteIssue s0 h0 skipped k
      match s1.at? r with
      | none => none
      | some h1 =>
        let q := settleDue s1 h1
        some ({ q.1.put q.2 with cur := some r }, { q.2 with g := q.2.group })
def isWord (f : Fetched) (w : Word) : Bool := match f with
  | .word x => x == w
  | _ => false
def isNext {F R : Type} (o : Host.Outcome State F R) : Bool := match o with
  | .next _ => true
  | _ => false
def isError {E A : Type} (o : Except E A) : Bool := match o with
  | .error _ => true
  | .ok _ => false
/-- The first fragment is at an instruction that it has issued. -/
def carrying : State := onFrag (fetching [0x97000000#32]) (fun f => { f with issued := some .nop })
def decodes (p : Option Payload) (w : Word) (i : Instr) : Bool := match decode p w with
  | .ok j => j == i
  | .error _ => false

theorem witness_StepRunsDecoded :
    ((issued (fetching [0x97000000#32]) ⟨0, 0, 0⟩ []).any fun p => isWord (fetchWord p.1 p.2 p.2.f.pc) 0x97000000#32 &&
      decodes none 0x97000000#32 .nop && isNext (exec .nop p.1) && p.2.g.team.isSome && okB (checkAccess p.1 (ctx0 p.1) false .fetch .none 4 4 p.2.f.pc) &&
      !p.1.poisoned 0x20000 4) = true ∧
    ((issued (fetching [0xFF800000#32, 0x38007052#32]) ⟨0, 0, 0⟩ []).any fun p => isWord (fetchWord p.1 p.2 p.2.f.pc) 0xFF800000#32 &&
      isWord (fetchWord p.1 p.2 (p.2.f.pc + 4#64)) 0x38007052#32 &&
      decodes (some 0x800000#24) 0x38007052#32 (.stg ⟨0#3, 7#6, 1#6, 4#4, 2#2, some ⟨true, 0#23⟩⟩) &&
      isNext (exec (.stg ⟨0#3, 7#6, 1#6, 4#4, 2#2, some ⟨true, 0#23⟩⟩) p.1)) = true ∧
    ((issued (fetching [0x0E000000#32]) ⟨0, 0, 0⟩ []).any fun p => isWord (fetchWord p.1 p.2 p.2.f.pc) 0x0E000000#32 &&
      isError (decode none 0x0E000000#32)) = true ∧
    ((issued (fetching [0xFF800000#32, 0x97000000#32]) ⟨0, 0, 0⟩ []).any fun p => isWord (fetchWord p.1 p.2 p.2.f.pc) 0xFF800000#32 &&
      isWord (fetchWord p.1 p.2 (p.2.f.pc + 4#64)) 0x97000000#32 && isError (decode (some 0x800000#24) 0x97000000#32)) = true ∧
    (let s := onFrag (fetching [0x97000000#32]) (fun f => { f with halted := true });
      fetchHeld s (at0 s) = false ∧ (taking s (at0 s) []).isNone = true) ∧
    ((at0 carrying).f.issued = some .nop ∧ mayIssue carrying (at0 carrying) = true ∧ isNext (exec .nop carrying) = true ∧
      (let s := onFrag carrying (fun f => { f with halted := true });
        (at0 s).f.issued = some .nop ∧ mayIssue s (at0 s) = false)) ∧
    encode (.unsupportedPacket 3) = none ∧ isNext (exec (.unsupportedPacket 3) world) = true := by decide +kernel
theorem witness_StepKeepsForm : world.memOk := mem_of (by decide +kernel)

/-! ## Lane instructions -/

/-- Lane words at the ends of their range; window 0 is v1 to v3, index register 1 names its last register. -/
def lanes : State :=
  onView (onGroup (vreg (vreg (vreg world 1 (fun l => BitVec.ofNat 32 l.val)) 2 (fun l => if l.val < 16 then 0x80000000#32 else 0xFFFFFFFF#32)) 3
    (fun l => if l.val % 2 = 0 then 0#32 else 0xFFFFFFFF#32)) (fun g => { g with x := g.x.set 1 (Lanes.all 2#8) }))
    (fun v => { v with w := v.w.set 0 ⟨1#6, 3#7⟩ })

/-- Every operand through window 0. -/
def ixAll : Option Ix := some ⟨true, true, true, 0#2, 1#3, 0#2, 1#3, 0#2, 1#3, false⟩

/-- An instruction of three registers, plain and indexed, passes its checks. -/
abbrev lane3 (i : Instr) : Prop :=
  LaneReady .lane lanes (at0 lanes) i 0#3 (dstD none 4#6) (some (srcA none 2#6)) (some (srcB none 3#6)) [srcA none 2#6, srcB none 3#6] false ∧
  LaneReady .lane lanes (at0 lanes) i 0#3 (dstD ixAll 0#6) (some (srcA ixAll 0#6)) (some (srcB ixAll 0#6))
    [srcA ixAll 0#6, srcB ixAll 0#6, srcD ixAll 0#6] false
theorem lane3_of (i : Instr) : lane3 i := ⟨lane_of (by decide +kernel) i, lane_of (by decide +kernel) i⟩
/-- One of two registers, late or not, and one that only writes. -/
abbrev lane2 (i : Instr) : Prop := ∀ late, LaneReady .lane lanes (at0 lanes) i 0#3 (.regs 4#6 1) none none [.reg 2#6, .reg 3#6] late
theorem lane2_of (i : Instr) : lane2 i := fun late => lane_of (by cases late <;> decide +kernel) i
/-- No active lane. -/
abbrev noLane (i : Instr) : Prop := Issues lanes (at0 lanes) i .lane ∧ (at0 lanes).exec 1#3 = 0#32
theorem noLane_of (i : Instr) : noLane i := ⟨issues_of (by decide +kernel) i, by decide +kernel⟩
theorem quiet_lanes (ex : LaneMask) (out : Fin 32 → LaneOut) : quiet (at0 lanes) ex out := quiet_of (by decide +kernel) ex out

theorem witness_IntegerArithmetic (i : Instr) : lane3 i ∧ noLane i ∧ ∀ ex out, quiet (at0 lanes) ex out :=
  ⟨lane3_of i, noLane_of i, quiet_lanes⟩
theorem witness_IntegerShiftsAndFields (i : Instr) : lane3 i ∧ noLane i ∧ ∀ ex out, quiet (at0 lanes) ex out :=
  ⟨lane3_of i, noLane_of i, quiet_lanes⟩
theorem witness_IntegerComparesAndImmediates (i : Instr) : lane3 i ∧ lane2 i ∧ noLane i ∧ ∀ ex out, quiet (at0 lanes) ex out :=
  ⟨lane3_of i, lane2_of i, noLane_of i, quiet_lanes⟩
theorem witness_IntegerProductsAndDivision (i : Instr) : lane3 i ∧ lane2 i ∧ noLane i ∧
    (∀ l : Fin 32, ((at0 lanes).exec 0#3).getLsbD l.val = true → ((at0 lanes).v 2#6)[l] ≠ 0#32) ∧
    (at0 lanes).exec 0#3 &&& maskOf (fun l => ((at0 lanes).v 3#6)[l] == 0#32) ≠ 0#32 :=
  ⟨lane3_of i, lane2_of i, noLane_of i, by decide +kernel, by decide +kernel⟩
theorem witness_FloatArithmetic (i : Instr) : lane3 i ∧ noLane i ∧ ∀ ex out, quiet (at0 lanes) ex out :=
  ⟨lane3_of i, noLane_of i, quiet_lanes⟩
theorem witness_FloatArithmetic_values : fmtF32 ∈ floatFormats ∧ fmtE2m1 ∈ floatFormats ∧
    [FVal.fin false 1 0, .nan true (2 ^ 23 - 1)] = [.fin false 1 0] ++ FVal.nan true (2 ^ 23 - 1) :: [] ∧ 2 ^ 23 - 1 < 2 ^ 23 ∧
    (∀ x ∈ [FVal.fin false 1 0], x.isNan = false) ∧ fmtF32.kind ≠ .finite ∧ fmtF32.kind = .ieee ∧
    (∀ x ∈ [FVal.fin false 0 0, .inf true, .fin true 1 (-149)], x.isNan = false) ∧ zeroTimesInf (.fin false 0 0) (.inf true) = true ∧
    zeroTimesInf (.fin true 3 0) (.inf true) = false ∧ exactMul (.fin true 3 0) (.inf true) = .inf false ∧
    exactMul (.fin true 3 0) (.fin false 5 (-149)) = .fin true 15 (-149) ∧ (-149 : Int) ≤ fmtF32.lowest ∧
    (FVal.inf true = .inf true ∧ FVal.inf false = .inf (!true)) ∧ (FVal.inf true = .inf true ∧ FVal.fin true 0 0 ≠ .inf (!true)) ∧
    (0xFFFFFFFF < 2 ^ (fmtF32.magBits + 1)) ∧ FVal.decode fmtF32 0x7F800001 = .nan false 1 ∧ (FVal.decode fmtF32 0xFFFFFFFF).isNan = true ∧
    (f32 0x80000000#32).isNan = false ∧ (f32 0x7F800000#32).isNan = false := by decide
theorem witness_ScalingAndConversions (i : Instr) : lane2 i ∧ noLane i ∧
    LaneReady .lane lanes (at0 lanes) i 0#3 (.regs 4#6 1) none none [.reg 2#6, .reg 3#6, .reg 4#6, .reg 1#6] false ∧
    (∀ ex out, quiet (at0 lanes) ex out) ∧ 0xFE#8 ≠ 0xFF#8 ∧ (2 ^ 23 - 1 < 2 ^ 23 ∧ fmtE4m3.kind = .nanOnly ∧ fmtE2m1.kind = .finite) ∧
    (-149 : Int) ≤ fmtF32.lowest ∧ (-2 ^ 31 : Int) ≤ 2 ^ 31 - 1 ∧ f32 0x00000001#32 = .fin false 1 (-149) ∧ fmtF16 ∈ [fmtF16, fmtBf16] ∧
    0xFFFF < 2 ^ 16 := ⟨lane2_of i, noLane_of i, lane_of (by decide +kernel) i, quiet_lanes, by decide⟩
theorem witness_DivisionAndSpecialFunctions (i : Instr) : lane2 i ∧ noLane i ∧ noLookahead 0#4 (at0 lanes) ∧
    noLookahead 15#4 (at0 (onView lanes (fun v => { v with en := 1#4 }))) ∧
    ((1 : Nat) ≠ 0 ∧ (-149 : Int) ≤ 0 - 149 ∧ (-149 : Int) ≤ fmtF32.lowest ∧ 2 * (-149 : Int) ≤ -298 ∧ 2 ^ 64 - 1 < 2 ^ 64 ∧ (0 : Int) + 2 * -149 ≤ 0) ∧
    (127 * 2 ^ (0 : Int).toNat = 127 * 2 ^ (-0 : Int).toNat ∧ 127 ≤ 149 ∧ 149 < 150 ∧ 128 * 2 ^ (-0 : Int).toNat ≤ 128 * 2 ^ (0 : Int).toNat ∧
      (0 + 2 ^ 24 : Int).natAbs ≤ 2 ^ 24 ∧ 16 * 2 ^ (-4 : Int).toNat ≤ 1 * 2 ^ (4 : Int).toNat ∧ 32 * 2 ^ (-5 : Int).toNat ≤ 1 * 2 ^ (5 : Int).toNat) :=
  ⟨lane2_of i, noLane_of i, .inl rfl, .inr (by decide +kernel), by decide, by decide⟩
theorem witness_PackedArithmetic (i : Instr) : lane2 i ∧ noLane i ∧ pfmt .n4 = none ∧ (∀ ex out, quiet (at0 lanes) ex out) ∧
    (7 < 32 / PType.n4.width ∧ (⟨15, 0#5, 0#4⟩ : ElemOut).bits < 2 ^ PType.n4.width) :=
  ⟨lane2_of i, noLane_of i, rfl, quiet_lanes, by decide⟩
theorem witness_PackedChains (i : Instr) : lane2 i ∧ noLane i ∧ (∀ ex out, quiet (at0 lanes) ex out) ∧ pfmt .f16 = some fmtF16 ∧
    pfmt .n4 = none := ⟨lane2_of i, noLane_of i, quiet_lanes, rfl, rfl⟩

/-! ## Checks at issue -/

/-- A group of 2 registers' budget that has mapped three; one with a result in flight; an index at its window's length; a window past
v63; a poisoned lane. -/
def poor : State := onGroup lanes (fun g => { g with budget := 2 })
def inFlight : Pending := ⟨1, [⟨5#6, Lanes.all 7#32, 1#32, 0#32, false, false, false, true⟩], [], 0#32, 0#32, none, 0#5⟩
def poorWaiting : State := onFrag poor (fun f => { f with pending := [inFlight] })
def indexPast : State := onGroup lanes (fun g => { g with x := g.x.set 1 (Lanes.all 3#8) })
def windowPast : State := onView lanes (fun v => { v with w := v.w.set 0 ⟨62#6, 3#7⟩ })
def poisoned2 : State := bad lanes 2#6 0x80000000#32

theorem witness_LaneChecks (i : Instr) :
    (Issues poor (at0 poor) i .lane ∧ (at0 poor).exec 0#3 ≠ 0#32 ∧ (at0 poor).raises ((at0 poor).exec 0#3) (.regs 4#6 1) false ≠ 0 ∧
      (at0 poor).g.budget < (at0 poor).group.charge + (at0 poor).raises ((at0 poor).exec 0#3) (.regs 4#6 1) false ∧
      (at0 poor).group.inFlight = false) ∧
    (Issues poorWaiting (at0 poorWaiting) i .lane ∧
      (at0 poorWaiting).g.budget < (at0 poorWaiting).group.charge + (at0 poorWaiting).raises ((at0 poorWaiting).exec 0#3) (.regs 4#6 1) false ∧
      (at0 poorWaiting).group.inFlight = true) ∧
    (Issues indexPast (at0 indexPast) i .lane ∧ (srcA ixAll 0#6).faults (at0 indexPast) ((at0 indexPast).exec 0#3) ≠ 0#32) ∧
    (Issues windowPast (at0 windowPast) i .lane ∧ (srcA ixAll 0#6).past (at0 windowPast) = true) ∧
    (Issues poisoned2 (at0 poisoned2) i .lane ∧ (at0 poisoned2).exec 0#3 &&& (at0 poisoned2).poisonOf (.reg 2#6) = 0x80000000#32) :=
  ⟨⟨issues_of (by decide +kernel) i, by decide +kernel⟩, ⟨issues_of (by decide +kernel) i, by decide +kernel⟩,
    ⟨issues_of (by decide +kernel) i, by decide +kernel⟩, ⟨issues_of (by decide +kernel) i, by decide +kernel⟩,
    issues_of (by decide +kernel) i, by decide +kernel⟩

/-- Class enables 1 to 3, with an infinity in lane 31 alone: the highest class. -/
def classes : State := onView (vreg (vreg world 2 (fun l => if l.val = 31 then 0x7F800000#32 else 0#32)) 3 (fun _ => 0#32))
  (fun v => { v with en := 0xE#4 })
theorem witness_ClassTraps (i : Instr) :
    LaneReady .lane classes (at0 classes) i 0#3 (dstD none 4#6) (some (srcA none 2#6)) (some (srcB none 3#6)) [srcA none 2#6, srcB none 3#6] false ∧
    (at0 classes).f.view.en.getLsbD 3 = true ∧
    (classOf (addRes fmtF32 0#2 false (f32 0x7F800000#32) (f32 0#32)) [f32 0x7F800000#32, f32 0#32]).getLsbD 3 = true ∧
    (∀ b : Fin 4, b < 3 → (classOf (addRes fmtF32 0#2 false (f32 0x7F800000#32) (f32 0#32)) [f32 0x7F800000#32, f32 0#32]).getLsbD b.val = false) ∧
    ((at0 classes).v 2#6)[(31 : Fin 32)] = 0x7F800000#32 ∧ (at0 classes).f.view.rm = 0#2 :=
  ⟨lane_of (by decide +kernel) i, by decide +kernel⟩
/-- Lane 31 alone, all four classes enabled, a NaN besides. -/
def classes1 : State := vreg (kreg (onView classes (fun v => { v with en := 0xF#4 })) 1#3 0x80000000#32) 5#6 (fun _ => 0x7FC00000#32)
/-- The lowest class that is enabled and met. -/
abbrev meets (s : State) (out : Here → Fin 32 → LaneOut) : Prop := ∃ c : Fin 4,
  let hit (c : Fin 4) : LaneMask := (at0 s).exec 1#3 &&& maskOf (fun l => (out (at0 s) l).cls.getLsbD c.val)
  (at0 s).f.view.en.getLsbD c.val = true ∧ hit c ≠ 0#32 ∧ ∀ b : Fin 4, b < c → (at0 s).f.view.en.getLsbD b.val = true → hit b = 0#32
abbrev fA (h : Here) (l : Fin 32) : FVal := f32 (h.v 2#6)[l]
abbrev fB (h : Here) (l : Fin 32) : FVal := f32 (h.v 3#6)[l]
/-- What several forms deliver in a lane with an infinity, or with a NaN among its f16 elements. -/
def classForms : List (Here → Fin 32 → LaneOut) :=
  [fun h l => floatOut (mulRes fmtF32 0#2 false (fA h l) (fB h l)) [fA h l, fB h l],
    fun h l => floatOut (minMaxRes fmtF32 true (h.v 5#6)[l].toNat (h.v 5#6)[l].toNat) [f32 (h.v 5#6)[l], f32 (h.v 5#6)[l]],
    fun h l => floatOut (fmaRes fmtF32 0#2 false [fA h l, fB h l, fA h l] (fA h l) (fB h l) (fA h l)) [fA h l, fB h l, fA h l],
    fun h l => floatOut (rndRes 0#2 (fA h l)) [fA h l], fun h l => narrowOut fmtF16 (cvtRes fmtF16 0#2 false (fA h l)) [fA h l],
    fun h l => floatOut (divRes fmtF32 0#2 (fA h l) (fB h l)) [fA h l, fB h l], fun h l => floatOut (sqrtRes 0#2 (fA h l)) [fA h l],
    fun h l => floatOut (exp2Res (fA h l)) [fA h l], fun h l => floatOut (sinRes (fA h l)) [fA h l],
    fun h l => elems .f16 (fun _ => ⟨0, 0#5, 0#4⟩) (fun g e => floatElem (addRes g 0#2 false (e (h.v 2#6)[l]) (e (h.v 3#6)[l])) [e (h.v 2#6)[l], e (h.v 3#6)[l]]),
    fun h l => chainOut 0#2 (h.v 3#6)[l] ((List.range 2).map (fun j => (FVal.decode fmtF16 (elemAt 16 (h.v 2#6)[l] j), FVal.decode fmtF16 (elemAt 16 (h.v 3#6)[l] j)))),
    fun h l => unionOf 2 (fun k => cvtElem (.packed .f16) .f32 0#2 false (elemAt 16 (h.v 2#6)[l] k)),
    fun h l => redLane .red 1#3 0#2 (fun m => (h.v 2#6)[m]) (h.tile (h.exec 1#3) l) l]
theorem witness_ClassTraps_forms (i : Instr) :
    (∀ late, LaneReady .lane classes1 (at0 classes1) i 1#3 (.regs 4#6 1) none none [.reg 2#6, .reg 3#6] late) ∧
    (∀ out ∈ classForms, meets classes1 out) ∧ (at0 classes1).tiled :=
  ⟨fun late => lane_of (by cases late <;> decide +kernel) i, by decide +kernel, by unfold Here.tiled; decide +kernel⟩

theorem witness_Lookahead (i : Instr) : lane2 i ∧ 15#4 ≠ 0#4 ∧ (at0 lanes).f.view.en = 0#4 ∧
    (∀ l : Fin 32, ((at0 lanes).exec 0#3).getLsbD l.val = true → ((at0 lanes).v 2#6)[l] ≠ 0#32) ∧
    (at0 (onFrag lanes (fun f => { f with pending := [{ inFlight with left := 0 }] }))).f.pending = [{ inFlight with left := 0 }] :=
  ⟨lane2_of i, by decide, by decide +kernel, by decide +kernel, by decide +kernel⟩

/-! ## Lane memory -/

/-- The reads `s10:11 + 16·lane` end with the last byte of the page at 0x20000. -/
def far : State := sreg lanes 10#6 0x2FE00#32
def ldWide : LmLd := ⟨0#3, 0#4, 4#6, 1#6, 5#4, 3#2, some ⟨true, 0#23⟩⟩
/-- Lane 31 alone, and a reuse entry for its load. -/
def one : State := kreg far 1#3 0x80000000#32
def ldOne : LmLd := ⟨1#3, 0#4, 4#6, 9#6, 5#4, 2#2, none⟩
abbrev loadPlaces (s : State) (fr : FreezeRule) (o : LmLd) (l : Fin 32) : Place :=
  okPlace (check1 s (at0 s) .load fr (szBytes o.sz) (szBytes o.sz) (lmAddr (at0 s) o.a o.p o.sz o.px l))
abbrev loadKey (s : State) (i : Instr) (o : LmLd) (fr : FreezeRule) : Option ReuseKey :=
  (at0 s).reuseKey (loadShape i o [pairReg o.p.toNat, pairReg o.p.toNat + 1#6]) ((at0 s).exec o.k) ((at0 s).exec o.k != 0xFFFFFFFF#32)
    (some (memKeyOf s (at0 s) ((lanesIn ((at0 s).exec o.k)).map (fun l => (loadPlaces s fr o l).pa))))
def entryOne : ReuseEntry :=
  ⟨⟨.ldg ldOne, 1, [.zero], [0x2FE00#32, 0#32], 0x80000000#32, 32#32, 0#2, 0#4, [.zero], some ⟨[], some (3, 0), [], false⟩⟩, [(.zero, Lanes.all 7#32)], none, 0#5⟩
def known : State := onCore one (fun k => { k with reuse := [entryOne] })
/-- A freeze entry over the 64 KiB at 0x30000, which the page at 0x20000 maps. -/
def frozenBy (st : FreezeState) (count : Nat) : FreezeEntry :=
  ⟨st, 0x20000, 16, count, 5#32, false, false, (List.range 16).map (fun i => 0x30000 + 4096 * i), []⟩
def frozen (s : State) : State := onCtx s (fun x => { x with regions := [(3, frozenBy .active 1)] })

theorem witness_GlobalLoads (i : Instr) :
    LaneReady .lane far (at0 far) i 0#3 (.regs 4#6 4) none none [.reg 1#6] true ∧
    Passes far (at0 far) ((at0 far).exec 0#3) .load .none 16 (lmAddr (at0 far) 1#6 5#4 3#2 (some ⟨true, 0#23⟩)) (loadPlaces far .none ldWide) ∧
    (loadPlaces far .none ldWide 31).pa + 15 = 0x3FFFF ∧ (far.core 0).reuse = [] ∧
    (∀ l : Fin 32, far.poisoned (loadPlaces far .none ldWide l).pa 16 = false) ∧
    Passes (frozen far) (at0 (frozen far)) ((at0 (frozen far)).exec 0#3) .load .mustFreeze 16
      (lmAddr (at0 (frozen far)) 1#6 5#4 3#2 (some ⟨true, 0#23⟩)) (loadPlaces (frozen far) .mustFreeze ldWide) :=
  ⟨lane_of (by decide +kernel) i, passes_of (by decide +kernel), by decide +kernel, by decide +kernel, by decide +kernel, passes_of (by decide +kernel)⟩
theorem known_key : loadKey known (.ldg ldOne) ldOne .none = some entryOne.key := by decide +kernel
theorem witness_GlobalLoads_known (i : Instr) :
    LaneReady .lane known (at0 known) i 1#3 (.regs 4#6 1) none none [.reg 9#6] true ∧
    Passes known (at0 known) ((at0 known).exec 1#3) .load .none 4 (lmAddr (at0 known) 9#6 5#4 2#2 none) (loadPlaces known .none ldOne) ∧
    known.reuseFind 0 (loadKey known (.ldg ldOne) ldOne .none) = some entryOne ∧ entryOne.results.length = szRegs 2#2 :=
  ⟨lane_of (by decide +kernel) i, passes_of (by decide +kernel),
    by rw [known_key]; simp [State.reuseFind, MemKey.latest, entryOne, known, onCore, State.core, State.setCore], rfl⟩

/-- An entry of a group serves only while the group has read nothing else of its bytes since (R321). -/
def seenBy (b : Byte) : State := onCore one (fun k => { k with
  reuse := [{ entryOne with key := { entryOne.key with mem := some ⟨[], some (3, 0), [(0x3FE00, 7#8)], false⟩ } }], seen := [⟨3, 0, [(0x3FE00, b)], []⟩] })
theorem test_reuse_latest : [7#8, 8#8].map (fun b => ((seenBy b).reuseFind 0 (some entryOne.key)).isSome) = [true, false] := by decide +kernel

/-- Lanes 16 to 31 read past the page's end. -/
def half : State := sreg lanes 10#6 0x2FFF0#32
def ldByte : LmLd := ⟨0#3, 0#4, 4#6, 1#6, 5#4, 0#2, none⟩
theorem okB_iff {c : Check} : (∃ x, c = .ok x) ↔ okB c = true := by cases c <;> simp [okB]
theorem half_checks : (∀ m : Fin 32, okB (check1 half (at0 half) .load .none 1 1 (lmAddr (at0 half) 1#6 5#4 0#2 none m)) = decide (m.val < 16)) ∧
    (at0 half).exec 0#3 = 0xFFFFFFFF#32 := by decide +kernel
theorem witness_FirstFaultLoad (i : Instr) :
    LaneReady .lane half (at0 half) i 0#3 (.regs 4#6 1) none none [.reg 1#6] true ∧
    (∀ l : Fin 32, (0xFFFF#32).getLsbD l.val = true ↔ ((at0 half).exec 0#3).getLsbD l.val = true ∧
      ∀ m : Fin 32, m ≤ l → ((at0 half).exec 0#3).getLsbD m.val = true →
        ∃ x, check1 half (at0 half) .load .none 1 1 (lmAddr (at0 half) 1#6 5#4 0#2 none m) = .ok x) ∧
    Passes half (at0 half) 0xFFFF#32 .load .none 1 (lmAddr (at0 half) 1#6 5#4 0#2 none) (loadPlaces half .none ldByte) ∧
    (∀ l : Fin 32, (0xFFFF#32).getLsbD l.val = true → half.poisoned (loadPlaces half .none ldByte l).pa 1 = false) :=
  ⟨lane_of (by decide +kernel) i, by simp only [okB_iff, half_checks.1, half_checks.2]; decide, passes_of (by decide +kernel), by decide +kernel⟩

theorem witness_GlobalStores (i : Instr) : far.memOk ∧
    LaneReady .lane far (at0 far) i 0#3 .none none none (.reg 1#6 :: (regsFrom 4#6 4).map Src.reg) false ∧
    Passes far (at0 far) ((at0 far).exec 0#3) .store .mustThaw 16 (lmAddr (at0 far) 1#6 5#4 3#2 (some ⟨true, 0#23⟩))
      (fun l => okPlace (check1 far (at0 far) .store .mustThaw 16 16 (lmAddr (at0 far) 1#6 5#4 3#2 (some ⟨true, 0#23⟩) l))) :=
  ⟨mem_of (by decide +kernel), lane_of (by decide +kernel) i, passes_of (by decide +kernel)⟩

/-- In the scratchpad lanes 0 to 3 are inside, the others past its 65,536 bytes; and all inside. -/
def padEdge : State := sreg lanes 10#6 0xFFF0#32
def padIn : State := sreg lanes 10#6 0xFF80#32
def ldWord : LmLd := ⟨0#3, 0#4, 4#6, 1#6, 5#4, 2#2, some ⟨true, 0#23⟩⟩
abbrev padWords (s : State) (l : Fin 32) : Nat := (lmAddr (at0 s) 1#6 5#4 2#2 (some ⟨true, 0#23⟩) l).toNat
theorem witness_ScratchpadMoves (i : Instr) : ∀ s ∈ [padEdge, padIn], s.memOk ∧
    LaneReady .padMove s (at0 s) i 0#3 (.regs 4#6 1) none none [.reg 1#6] true ∧
    LaneReady .padMove s (at0 s) i 0#3 .none none none (.reg 1#6 :: (regsFrom 4#6 1).map Src.reg) false ∧
    teamOf s (at0 s) = some (team0 s) ∧ (∀ l : Fin 32, padWords s l % 4 = 0 ∧ padPoisoned (team0 s) (padWords s l) 4 = false) ∧
    (s.reuseFind 0 ((at0 s).reuseKey (loadShape (.ldp ldWord) ldWord [10#6, 11#6]) ((at0 s).exec 0#3) false
      (some { gens := [], epoch := some ((at0 s).g.uid, (at0 s).g.epoch), read := [], pad := false }))).isNone = true ∧
    ((team0 padEdge).scratchSize < padWords padEdge 4 + 4 ∧ padWords padEdge 3 + 4 = (team0 padEdge).scratchSize ∧
      padWords padIn 31 + 4 = (team0 padIn).scratchSize) := by
  simp only [List.mem_cons, List.not_mem_nil, or_false, forall_eq_or_imp, forall_eq]
  exact ⟨⟨mem_of (by decide +kernel), lane_of (by decide +kernel) i, lane_of (by decide +kernel) i, team_eq (by decide +kernel), by decide +kernel⟩,
    mem_of (by decide +kernel), lane_of (by decide +kernel) i, lane_of (by decide +kernel) i, team_eq (by decide +kernel), by decide +kernel⟩

/-- The loads of `ldOne` and in the scratchpad with lookahead, and the reuse entry of the first. -/
def entryAhead : ReuseEntry := { entryOne with key := { entryOne.key with instr := .ldg { ldOne with la := 15#4 } } }
def knownAhead : State := onCore one (fun k => { k with reuse := [entryAhead] })
theorem known_ahead : loadKey knownAhead (.ldg { ldOne with la := 15#4 }) { ldOne with la := 15#4 } .none = some entryAhead.key := by decide +kernel
theorem witness_Lookahead_loads (i : Instr) :
    LaneReady .lane far (at0 far) i 0#3 (.regs 4#6 4) none none [.reg 1#6] true ∧
    Passes far (at0 far) ((at0 far).exec 0#3) .load .none 16 (lmAddr (at0 far) 1#6 5#4 3#2 (some ⟨true, 0#23⟩)) (loadPlaces far .none ldWide) ∧
    far.reuseFind 0 (loadKey far (.ldg { ldWide with la := 1#4 }) { ldWide with la := 1#4 } .none) = none ∧
    LaneReady .lane knownAhead (at0 knownAhead) i 1#3 (.regs 4#6 1) none none [.reg 9#6] true ∧
    Passes knownAhead (at0 knownAhead) ((at0 knownAhead).exec 1#3) .load .none 4 (lmAddr (at0 knownAhead) 9#6 5#4 2#2 none)
      (loadPlaces knownAhead .none ldOne) ∧
    knownAhead.reuseFind 0 (loadKey knownAhead (.ldg { ldOne with la := 15#4 }) { ldOne with la := 15#4 } .none) = some entryAhead ∧
    entryAhead.results.length = szRegs 2#2 :=
  ⟨lane_of (by decide +kernel) i, passes_of (by decide +kernel), by decide +kernel, lane_of (by decide +kernel) i, passes_of (by decide +kernel),
    by rw [known_ahead]; simp [State.reuseFind, MemKey.latest, entryAhead, entryOne, knownAhead, onCore, State.core, State.setCore], rfl⟩
theorem witness_Lookahead_pads (i : Instr) : ∀ s ∈ [padEdge, padIn],
    LaneReady .padMove s (at0 s) i 0#3 (.regs 4#6 1) none none [.reg 1#6] true ∧ teamOf s (at0 s) = some (team0 s) ∧
    (∀ l : Fin 32, padWords s l % 4 = 0) ∧ s.reuseFind 0 ((at0 s).reuseKey (loadShape (.ldp { ldWord with la := 1#4 }) { ldWord with la := 1#4 } [10#6, 11#6])
      ((at0 s).exec 0#3) false (some { gens := [], epoch := some ((at0 s).g.uid, (at0 s).g.epoch), read := [], pad := false })) = none := by
  simp only [List.mem_cons, List.not_mem_nil, or_false, forall_eq_or_imp, forall_eq]
  exact ⟨⟨lane_of (by decide +kernel) i, team_eq (by decide +kernel), by decide +kernel⟩, lane_of (by decide +kernel) i, team_eq (by decide +kernel),
    by decide +kernel⟩

/-- The lanes of a first-fault load that load, of a state that loads bytes. -/
theorem half_good : FirstGood half (at0 half) ldByte 0xFFFF#32 := by
  unfold FirstGood
  simp only [ldByte, show szBytes 0#2 = 1 from rfl, okB_iff, half_checks.1, half_checks.2]
  decide
/-- Every lane past the page; every lane in a page in transition. -/
def nowhere : State := sreg lanes 10#6 0x30000#32
def turning : State := { half with
  mem := tables.filter (fun c => decide (c.1 < 0x930017)) ++ [(0x930016, 0x40#8), (0x930017, 0xFA#8)]
  contexts := half.contexts.map (fun x => { x with bias := [⟨0x20000, 65536⟩] }) }
def badB : Check → Bool
  | .bad _ _ _ _ _ => true
  | _ => false
def waitB : Check → Bool
  | .wait _ _ => true
  | _ => false
theorem witness_FirstFaultLoad_none (i : Instr) :
    (∀ s ∈ [nowhere, turning], LaneReady .lane s (at0 s) i 0#3 (.regs 4#6 1) none none [.reg 1#6] true ∧ ((at0 s).exec 0#3).getLsbD 0 = true) ∧
    badB (check1 nowhere (at0 nowhere) .load .none 1 1 (lmAddr (at0 nowhere) 1#6 5#4 0#2 none 0)) = true ∧
    waitB (check1 turning (at0 turning) .load .none 1 1 (lmAddr (at0 turning) 1#6 5#4 0#2 none 0)) = true := by
  refine ⟨?_, by decide +kernel, by decide +kernel⟩
  simp only [List.mem_cons, List.not_mem_nil, or_false, forall_eq_or_imp, forall_eq]
  exact ⟨⟨lane_of (by decide +kernel) i, by decide +kernel⟩, lane_of (by decide +kernel) i, by decide +kernel⟩

/-- A gather through a window past v63, with indexes past the window, and from a poisoned register. -/
theorem witness_ShufflesAndVotes_gather (i : Instr) :
    (∀ s ∈ [windowPast, lanes, poisoned2], Issues s (at0 s) i .lane ∧ (at0 s).exec 0#3 ≠ 0#32 ∧
      (at0 s).group.charge + (at0 s).raises ((at0 s).exec 0#3) (.regs 4#6 1) false ≤ (at0 s).g.budget) ∧
    64 < ((at0 windowPast).w 0#2).base.toNat + ((at0 windowPast).w 0#2).len.toNat ∧
    (at0 lanes).exec 0#3 &&& maskOf (fun l => decide (32 * ((at0 lanes).w 0#2).len.toNat ≤ ((at0 lanes).v 2#6)[l].toNat)) ≠ 0#32 ∧
    (at0 poisoned2).exec 0#3 &&& maskOf (fun l => decide (32 * ((at0 poisoned2).w 0#2).len.toNat ≤ ((at0 poisoned2).v 2#6)[l].toNat)) = 0#32 ∧
    (at0 poisoned2).exec 0#3 &&& maskOf (fun l => ((at0 poisoned2).vreg 2#6).poison.getLsbD l.val) ≠ 0#32 := by
  refine ⟨?_, by decide +kernel⟩
  simp only [List.mem_cons, List.not_mem_nil, or_false, forall_eq_or_imp, forall_eq]
  exact ⟨⟨issues_of (by decide +kernel) i, by decide +kernel⟩, ⟨issues_of (by decide +kernel) i, by decide +kernel⟩, issues_of (by decide +kernel) i, by decide +kernel⟩

/-- Atomics on the words 0x20000 + 4·(lane mod 4), lane 3 performed ahead. -/
def atoms : State := onFrag (vreg (sreg lanes 10#6 0x20000#32) 5#6 (fun l => BitVec.ofNat 32 (4 * (l.val % 4)))) (fun f => { f with ahead := [(3, 9#32, false)] })
theorem witness_GlobalAtomics (i : Instr) : atoms.memOk ∧
    LaneReady .lane atoms (at0 atoms) i 0#3 (.regs 4#6 1) none none [.reg 5#6, .reg 2#6, .reg 3#6] false ∧
    Passes atoms (at0 atoms) ((at0 atoms).exec 0#3) .atomic .mustThaw 4 (fun l => (at0 atoms).sp 10#6 + ((at0 atoms).v 5#6)[l].setWidth 64)
      (fun l => okPlace (check1 atoms (at0 atoms) .atomic .mustThaw 4 4 ((at0 atoms).sp 10#6 + ((at0 atoms).v 5#6)[l].setWidth 64))) ∧
    (∀ l : Fin 32, let p := okPlace (check1 atoms (at0 atoms) .atomic .mustThaw 4 4 ((at0 atoms).sp 10#6 + ((at0 atoms).v 5#6)[l].setWidth 64))
      p.pa % 4 = 0 ∧ atoms.poisoned p.pa 4 = false ∧ (aheadOf (at0 atoms) l).all (fun d => !d.2) = true) ∧ atoms.redgs = [] :=
  ⟨mem_of (by decide +kernel), lane_of (by decide +kernel) i, passes_of (by decide +kernel), by decide +kernel, by decide +kernel⟩
/-- In the scratchpad the words 4·lane below 65,536, the last one past it. -/
def padAtom : State := onFrag (vreg lanes 5#6 (fun l => BitVec.ofNat 32 (65536 - 4 * 31 + 4 * l.val))) (fun f => { f with ahead := [(3, 9#32, false)] })
theorem witness_ScratchpadAtomics (i : Instr) : padAtom.memOk ∧
    LaneReady .lane padAtom (at0 padAtom) i 0#3 (.regs 4#6 1) none none [.reg 5#6, .reg 2#6, .reg 3#6] false ∧
    teamOf padAtom (at0 padAtom) = some (team0 padAtom) ∧
    (∀ l : Fin 32, let pa := ((at0 padAtom).v 5#6)[l].toNat
      pa % 4 = 0 ∧ padPoisoned (team0 padAtom) pa 4 = false ∧ (aheadOf (at0 padAtom) l).all (fun d => !d.2) = true ∧
        (65536 < pa + 4 ↔ l = 31)) :=
  ⟨mem_of (by decide +kernel), lane_of (by decide +kernel) i, team_eq (by decide +kernel), by decide +kernel⟩
def sent : State := { onCore atoms (fun k => { k with l1 := [(0x30000, .dirty 9#8)] }) with redgs := [⟨9, 0, 3, 1, 0x30000, 7#3, 1#32, false⟩, ⟨8, 0, 3, 1, 0x30004, 7#3, 1#32, false⟩] }
theorem witness_SentReductions (i : Instr) : atoms.memOk ∧
    LaneReady .lane atoms (at0 atoms) i 0#3 .none none none [.reg 5#6, .reg 2#6] false ∧
    Passes atoms (at0 atoms) ((at0 atoms).exec 0#3) .atomic .mustThaw 4 (fun l => (at0 atoms).sp 10#6 + ((at0 atoms).v 5#6)[l].setWidth 64)
      (fun l => okPlace (check1 atoms (at0 atoms) .atomic .mustThaw 4 4 ((at0 atoms).sp 10#6 + ((at0 atoms).v 5#6)[l].setWidth 64))) ∧
    sent.memOk ∧ let r : Redg := ⟨9, 0, 3, 1, 0x30000, 7#3, 1#32, false⟩
    sent.redgs.find? (fun x => x.id == r.id) = some r ∧ r.addr % 4 = 0 ∧
      (tableFind sent.registered 0x30000 = none ∧ tableFind (sent.core r.core).l1 0x30000 = some (.dirty 9#8)) ∧ ∀ x ∈ sent.redgs, x.group = r.group → x.addr = r.addr → r.id ≤ x.id :=
  ⟨mem_of (by decide +kernel), lane_of (by decide +kernel) i, passes_of (by decide +kernel), mem_of (by decide +kernel), by decide +kernel⟩

/-! ## Cross-lane instructions and queues -/

theorem witness_ShufflesAndVotes (i : Instr) : lane2 i ∧ noLane i ∧ (at0 lanes).tiled ∧ (at0 (onView lanes (fun v => { v with part := 2#32 }))).tiled ∧
    ((at0 lanes).w 0#2).base.toNat + ((at0 lanes).w 0#2).len.toNat ≤ 64 ∧
    (∀ l : Fin 32, ((at0 lanes).v 1#6)[l].toNat < 32 * ((at0 lanes).w 0#2).len.toNat ∧ ((at0 lanes).vregAt 1).poison = 0#32) ∧
    ∀ ex out, quiet (at0 lanes) ex out :=
  ⟨lane2_of i, noLane_of i, by unfold Here.tiled; decide +kernel, by unfold Here.tiled; decide +kernel, by decide +kernel, by decide +kernel, quiet_lanes⟩
theorem witness_ReductionsAndScans (i : Instr) : lane2 i ∧ noLane i ∧ (at0 lanes).tiled ∧ (∀ ex out, quiet (at0 lanes) ex out) ∧
    ([0#32, 1#32, 0xFFFFFFFF#32].Pairwise (· < ·) ∧ [1#32].Pairwise (· < ·)) :=
  ⟨lane2_of i, noLane_of i, by unfold Here.tiled; decide +kernel, quiet_lanes, by decide⟩

/-- A queue's descriptor at 0x40: head 2^32 − 1, tail 1, four elements at 0x100, two of them taken; or at 0xFFFC, the last three outside. -/
def queueAt (base : List Host.Cell) : State :=
  onTeam (sreg lanes 5#6 0x40#32) (fun t => { t with scratch := [(0x40, 0xFF#8), (0x41, 0xFF#8), (0x42, 0xFF#8), (0x43, 0xFF#8), (0x44, 1#8), (0x48, 2#8)] ++ base })
def queue : State := queueAt [(0x4D, 1#8)]
def queueEnd : State := queueAt [(0x4C, 0xFC#8), (0x4D, 0xFF#8)]
theorem witness_Queues (i : Instr) :
    (∀ n ∈ [0x41#32, 0xFFF4#32], let s := sreg lanes 5#6 n
      LaneReady .lane s (at0 s) i 0#3 .none none none [.reg 3#6] false ∧ LaneReady .lane s (at0 s) i 0#3 (.regs 4#6 1) none none [] false ∧
      teamOf s (at0 s) = some (team0 s) ∧ (at0 s).s 5#6 = n ∧ (team0 s).scratchSize = 65536) ∧
    ∀ s ∈ [queue, queueEnd], s.memOk ∧ LaneReady .lane s (at0 s) i 0#3 .none none none [.reg 3#6] false ∧
      LaneReady .lane s (at0 s) i 0#3 (.regs 4#6 1) none none [] false ∧ teamOf s (at0 s) = some (team0 s) ∧
      ((at0 s).s 5#6).toNat % 16 = 0 ∧ ((at0 s).s 5#6).toNat + 16 ≤ (team0 s).scratchSize ∧ (team0 s).scratchPoison = [] ∧
      (let base := (scratchWord (team0 s) 0x4C).toNat / 4 * 4
      let cap := 2 ^ ((scratchWord (team0 s) 0x48).toNat % 16)
      cap = 4 ∧ (base = 0x100 ∨ base = 0xFFFC) ∧ ∀ j, j < cap → base + 4 * j + 4 ≤ 0x40 ∨ 0x50 ≤ base + 4 * j) := by
  simp only [List.mem_cons, List.not_mem_nil, or_false, forall_eq_or_imp, forall_eq]
  exact ⟨⟨⟨lane_of (by decide +kernel) i, lane_of (by decide +kernel) i, team_eq (by decide +kernel), by decide +kernel⟩,
      lane_of (by decide +kernel) i, lane_of (by decide +kernel) i, team_eq (by decide +kernel), by decide +kernel⟩,
    ⟨mem_of (by decide +kernel), lane_of (by decide +kernel) i, lane_of (by decide +kernel) i, team_eq (by decide +kernel), by decide +kernel⟩,
    mem_of (by decide +kernel), lane_of (by decide +kernel) i, lane_of (by decide +kernel) i, team_eq (by decide +kernel), by decide +kernel⟩

/-- One node in the launch's module. -/
def noded : State := onCtx lanes (fun x => { x with nodes := [⟨1, 0, 2, 0, 0, none, [], none, [], 0#64⟩] })
theorem witness_Emission (i : Instr) : noded.ctx? (at0 noded).g.ctx = some (ctx0 noded) ∧ (at0 noded).exec 0#3 ≠ 0#32 ∧
    (moduleNodes (ctx0 noded) (moduleOf noded (at0 noded).g.launch)).length = 1 ∧ ((at0 noded).s 5#6).toNat < 1 ∧
    LaneReady .lane noded (at0 noded) i 0#3 .none none none ((regsFrom 0#6 4).map Src.reg) false ∧ isSpeculative noded (at0 noded) = false ∧
    (noded.redgs = [] ∧ (noded.core 0).engine.runs = [] ∧ unregistered noded 0 = []) ∧
    (Issues (sreg noded 5#6 1#32) (at0 (sreg noded 5#6 1#32)) i .lane ∧ 1 ≤ ((at0 (sreg noded 5#6 1#32)).s 5#6).toNat) :=
  ⟨ctx_eq (by decide +kernel), by decide +kernel, by decide +kernel, by decide +kernel, lane_of (by decide +kernel) i, by decide +kernel, by decide +kernel,
    issues_of (by decide +kernel) i, by decide +kernel⟩

/-! ## Uniform instructions and control -/

theorem issues_world (i : Instr) : Issues world (at0 world) i .control := issues_of (by decide +kernel) i
theorem witness_UniformArithmetic (i : Instr) : Issues world (at0 world) i .control := issues_world i
theorem witness_MaskFunctions (i : Instr) : Issues world (at0 world) i .control := issues_world i
theorem witness_Branches (i : Instr) : Issues world (at0 world) i .control := issues_world i

/-- Another fragment with slices 4 to 7 and this status and PC, the first with slices 0 to 3. -/
def splitAt (s : State) (st : Status) (pc : DWord) (held : Hold) : State :=
  let low (f : Frag) : Frag := { f with slices := 0x0F#8 }
  let high : Frag := { firstFrag pc (firstView [] 0#32 32#32) with slices := 0xF0#8, status := st, held := held }
  onGroup s (fun g => { g with frags := (g.frags.set 0 ((g.frags[(0 : Fin 8)]).map low)).set 1 (some high) })
def split : State := splitAt world .ready 0x10008#64 .no
/-- In its own handler; in another fragment's. -/
def saved (n : Fin 8) : Handler := ⟨n, 0x10004#64, true, 1#2, 0xF#4, 5, 0x40#8⟩
def handling (s : State) (n : Fin 8) : State := onGroup s (fun g => { g with handler := some (saved n) })
/-- The instruction answers a next state in which its fragment stands. -/
def runs (i : Instr) (s : State) : Bool := match exec i s with
  | .next t => (t.at? (at0 s).r).isSome
  | _ => false
theorem runs_of {i : Instr} {s : State} (e : runs i s = true) : ∃ t h', exec i s = .next t ∧ t.at? (at0 s).r = some h' := by
  unfold runs at e
  split at e
  · next t q => exact ⟨t, _, q, (Option.isSome_iff_exists.mp e).choose_spec⟩
  · cases e

theorem witness_WrittenSets :
    (∀ s ∈ [world, split], ∀ i ∈ [Instr.smovi ⟨63#6, 0#12, none⟩, .scmp ⟨0#6, 1#6⟩, .kand ⟨7#3, 1#3, 2#3⟩, .win 3#2 0#6 1#12,
      .sadd64 ⟨62#6, 0#6, 0#6⟩, .swr 0#6 6#12, .setpart 2#12], Issues s (at0 s) i .control ∧ ∃ t h', exec i s = .next t ∧ t.at? (at0 s).r = some h') ∧
    (at0 world).g.single = true ∧ (at0 split).g.single = false ∧ (at0 split).trapReg 63#6 = false := by
  refine ⟨fun s hs i hi => ⟨?_, runs_of ?_⟩, by decide +kernel⟩
  · simp only [List.mem_cons, List.not_mem_nil, or_false] at hs
    rcases hs with rfl | rfl <;> exact issues_of (by decide +kernel) i
  · have e : ([world, split].all fun s => [Instr.smovi ⟨63#6, 0#12, none⟩, .scmp ⟨0#6, 1#6⟩, .kand ⟨7#3, 1#3, 2#3⟩, .win 3#2 0#6 1#12,
      .sadd64 ⟨62#6, 0#6, 0#6⟩, .swr 0#6 6#12, .setpart 2#12].all fun i => runs i s) = true := by decide +kernel
    exact List.all_eq_true.mp (List.all_eq_true.mp e s hs) i hi

/-- The slices that take a mask branch. -/
def taken (s : State) (m : KReg) (nz : Bool) : BitVec 8 :=
  let h1 := (at0 s).settled s
  let set : BitVec 8 := BitVec.ofFnLE (fun i : Fin 8 => h1.f.slices.getLsbD i.val && ((h1.lanes &&& h1.mask m).extractLsb' (4 * i.val) 4 != 0#4))
  if nz then set else h1.f.slices &&& ~~~set
theorem witness_MaskBranches (i : Instr) :
    (∀ s ∈ [world, handling world 0, kreg world 2#3 0x80000000#32], Issues s (at0 s) i .control) ∧ (at0 (handling world 0)).inHandler = true ∧
    (at0 world).inHandler = false ∧ taken world 2#3 true = 0#8 ∧ taken world 2#3 false = ((at0 world).settled world).f.slices ∧
    (at0 world).f.pc + (1#20).signExtend 64 * 4#64 = (at0 world).f.pc + 4#64 ∧
    (let s := kreg world 2#3 0x80000000#32
    (at0 s).inHandler = false ∧ taken s 2#3 true = 0x80#8 ∧ taken s 2#3 false = 0x7F#8 ∧ ((at0 s).settled s).f.slices = 0xFF#8 ∧
      (at0 s).f.pc + (2#20).signExtend 64 * 4#64 ≠ (at0 s).f.pc + 4#64 ∧ ∃ j : Fin 8, (at0 s).g.frags[j].isNone = true) := by
  refine ⟨?_, by decide +kernel⟩
  simp only [List.mem_cons, List.not_mem_nil, or_false, forall_eq_or_imp, forall_eq]
  exact ⟨issues_of (by decide +kernel) i, issues_of (by decide +kernel) i, issues_of (by decide +kernel) i⟩

/-- Every fragment of the first group meets a test. -/
def fragsB (h : Here) (p : Fin 8 → Frag → Bool) : Bool := (List.finRange 8).all (fun j => (h.g.frags[j]).all (p j))
theorem frags_of {h : Here} {p : Fin 8 → Frag → Bool} (e : fragsB h p = true) (j : Fin 8) (f : Frag) (q : h.g.frags[j] = some f) : p j f = true :=
  opt_all (List.all_eq_true.mp e j (List.mem_finRange j)) f q
def met : State := splitAt world (.waiting .regang) 0x10000#64 .no
def apartR : State := splitAt world (.waiting .regang) 0x10008#64 .no
theorem witness_Regang :
    (∀ s ∈ [world, handling split 0, split, met, apartR], Issues s (at0 s) .regang .control) ∧
    ((at0 world).inHandler = false ∧ (at0 world).g.single = true) ∧ (at0 (handling split 0)).inHandler = true ∧
    ((at0 split).inHandler = false ∧ (1 : Fin 8) ≠ (at0 split).r.frag ∧ ((at0 split).g.frags[(1 : Fin 8)]).any (fun f => f.status == .ready && f.slices == 0xF0#8) = true ∧
      fragsB (at0 split) (fun i g => i == 1 || 0xF0#8 &&& g.slices == 0#8) = true) ∧
    (∀ s ∈ [met, apartR], (at0 s).inHandler = false ∧ (at0 s).g.single = false ∧
      (at0 s).g.live.all (fun j => j == (at0 s).r.frag || ((at0 s).g.frags[j]).any (fun f => f.status == .waiting .regang)) = true ∧
      fragsB (at0 s) (fun j f => f.slices != 0#8 && fragsB (at0 s) (fun i g => i == j || f.slices &&& g.slices == 0#8)) = true) ∧
    fragsB (at0 met) (fun _ f => f.pc == (at0 met).f.pc) = true ∧ fragsB (at0 apartR) (fun _ f => f.pc == (at0 apartR).f.pc) = false := by
  refine ⟨?_, by decide +kernel, by decide +kernel, by decide +kernel, ?_, by decide +kernel⟩
  · simp only [List.mem_cons, List.not_mem_nil, or_false, forall_eq_or_imp, forall_eq]
    exact ⟨issues_of (by decide +kernel) _, issues_of (by decide +kernel) _, issues_of (by decide +kernel) _, issues_of (by decide +kernel) _,
      issues_of (by decide +kernel) _⟩
  · simp only [List.mem_cons, List.not_mem_nil, or_false, forall_eq_or_imp, forall_eq]
    decide +kernel

/-- A second group of the team in slot 63. -/
def two (st : Status) : State :=
  world.setGroup 0 63 (some (firstGroup 4 1 1 (some 2) 1 .combined 8 0 { (firstFrag 0x10000#64 (firstView [] 0#32 32#32)) with status := st } 0#32))
/-- Every group of the core but the first meets a test. -/
def othersB (s : State) (p : Group → Bool) : Bool := (List.finRange 64).all (fun j => j == 0 || (s.group? 0 j).all p)
theorem others_of {s : State} {p : Group → Bool} (e : othersB s p = true) (j : Fin 64) (g : Group) (n : j ≠ 0) (q : s.group? 0 j = some g) : p g = true := by
  have x := List.all_eq_true.mp e j (List.mem_finRange j)
  simp [n] at x
  exact opt_all x g q
theorem witness_Exit : (∀ s ∈ [two .ready, two .exited], Issues s (at0 s) .exit .control ∧ (at0 s).g.team = some 2 ∧ (s.team? 2).isSome = true ∧
      (at0 s).g.live = [(at0 s).r.frag] ∧ fragsB (at0 s) (fun j f => j == (at0 s).r.frag || f.held == .no) = true) ∧
    (((two .ready).group? 0 63).any fun g => g.team == some 2 && g.live != []) = true ∧
    othersB (two .exited) (fun g => g.team != some 2 || g.live == []) = true := by
  refine ⟨?_, by decide +kernel⟩
  simp only [List.mem_cons, List.not_mem_nil, or_false, forall_eq_or_imp, forall_eq]
  exact ⟨⟨issues_of (by decide +kernel) _, by decide +kernel⟩, issues_of (by decide +kernel) _, by decide +kernel⟩

/-- With the end of the first fragment its group arrives at a barrier. -/
def lastAtBar : State := splitAt world (.waiting .bar) 0x10008#64 .no
theorem witness_Exit_arrives : (∀ s ∈ [lastAtBar, owingRedg lastAtBar, owingCopy lastAtBar], Issues s (at0 s) .exit .control ∧
      1 ∈ (at0 s).g.live ∧ (1 : Fin 8) ≠ (at0 s).r.frag ∧
      (at0 s).g.live.all (fun j => j == (at0 s).r.frag || ((at0 s).g.frags[j]).any (fun f => f.status == .waiting .bar)) = true) ∧
    GroupReleased lastAtBar (at0 lastAtBar) ∧ GroupWaits (owingRedg lastAtBar) (at0 (owingRedg lastAtBar)) ∧
    GroupWaits (owingCopy lastAtBar) (at0 (owingCopy lastAtBar)) := by
  refine ⟨?_, groupReleased_of (by decide +kernel), .inl (by decide +kernel), .inr (by decide +kernel)⟩
  simp only [List.mem_cons, List.not_mem_nil, or_false, forall_eq_or_imp, forall_eq]
  exact ⟨⟨issues_of (by decide +kernel) _, by decide +kernel⟩, ⟨issues_of (by decide +kernel) _, by decide +kernel⟩, issues_of (by decide +kernel) _, by decide +kernel⟩

/-- A third fragment, with slices 6 and 7, beside one with slices 4 and 5. -/
def threeAt (st st2 : Status) : State :=
  let s := splitAt world st 0x10008#64 .no
  onGroup s (fun g => { g with
    frags := (g.frags.set 1 ((g.frags[(1 : Fin 8)]).map (fun f => { f with slices := 0x30#8 }))).set 2
      (some { firstFrag 0x10000#64 (firstView [] 0#32 32#32) with slices := 0xC0#8, status := st2 }) })
/-- The live fragments but the first. -/
def rest (s : State) : List (Fin 8) := (at0 s).g.live.filter (fun j => j != (at0 s).r.frag)
def runsB (s : State) (j : Fin 8) : Bool := ((at0 s).g.frags[j]).any (fun f => f.status != .waiting .regang && f.status != .waiting .bar)
theorem witness_Exit_more :
    (∀ s ∈ [threeAt .ready (.waiting .regang), split, met, apartR, threeAt (.waiting .regang) (.waiting .regang)], Issues s (at0 s) .exit .control ∧
      (at0 s).inHandler = false ∧ fragsB (at0 s) (fun j f => f.slices != 0#8 && fragsB (at0 s) (fun i g => i == j || f.slices &&& g.slices == 0#8)) = true) ∧
    ((rest (threeAt .ready (.waiting .regang))).length = 2 ∧ runsB (threeAt .ready (.waiting .regang)) 1 = true) ∧
    (rest split = [1] ∧ runsB split 1 = true) ∧
    (∀ s ∈ [met, apartR, threeAt (.waiting .regang) (.waiting .regang)], rest s ≠ [] ∧
      (rest s).all (fun j => ((at0 s).g.frags[j]).any (fun f => f.status == .waiting .regang)) = true) := by
  refine ⟨?_, by decide +kernel, by decide +kernel, ?_⟩
  all_goals simp only [List.mem_cons, List.not_mem_nil, or_false, forall_eq_or_imp, forall_eq]
  · exact ⟨⟨issues_of (by decide +kernel) _, by decide +kernel⟩, ⟨issues_of (by decide +kernel) _, by decide +kernel⟩,
      ⟨issues_of (by decide +kernel) _, by decide +kernel⟩, ⟨issues_of (by decide +kernel) _, by decide +kernel⟩, issues_of (by decide +kernel) _, by decide +kernel⟩
  · decide +kernel

/-- A kernel with a trap entry; a group of a leap program. -/
def withEntry (s : State) : State := { s with modules := [⟨1, 1, true, [{ fetchBlock with trapEntry := some 0x10010#64 }]⟩] }
def leaping : State := onGroup world (fun g => { g with team := none, grpid := 0xFF, role := .copy })
theorem at_eq {s : State} (e : (s.here?).isSome = true) (q : s.cur = some (at0 s).r) : s.at? (at0 s).r = some (at0 s) := by
  have := here_eq e; rwa [State.here?, q] at this
theorem witness_TakingATrap :
    (∀ s ∈ [leaping, handling split 1, handling world 0, world, withEntry world], s.at? (at0 s).r = some (at0 s)) ∧ (at0 leaping).g.team = none ∧
    (∀ s ∈ [handling split 1, handling world 0, world, withEntry world], (at0 s).g.team = some 2 ∧ (s.team? 2).isSome = true) ∧
    (at0 (handling split 1)).g.handler = some (saved 1) ∧ (saved 1).frag ≠ (at0 (handling split 1)).r.frag ∧
    (at0 (handling world 0)).g.handler = some (saved 0) ∧ (saved 0).frag = (at0 (handling world 0)).r.frag ∧
    (at0 world).g.handler = none ∧ trapEntry world (at0 world).g = none ∧ trapEntry (withEntry world) (at0 (withEntry world)).g = some 0x10010#64 ∧
    (withEntry world).ctx? 1 = some (ctx0 (withEntry world)) ∧ (withEntry world).memOk ∧ GroupReleased (withEntry world) (at0 (withEntry world)) ∧
    (∀ s ∈ [owingRedg (withEntry world), owingCopy (withEntry world)], s.at? (at0 s).r = some (at0 s) ∧ (at0 s).g.handler = none ∧
      trapEntry s (at0 s).g = some 0x10010#64 ∧ GroupWaits s (at0 s)) := by
  refine ⟨?_, by decide +kernel, ?_, by decide +kernel, by decide +kernel, by decide +kernel, by decide +kernel, by decide +kernel, by decide +kernel,
    by decide +kernel, ctx_eq (by decide +kernel), mem_of (by decide +kernel), groupReleased_of (by decide +kernel), ?_⟩
  all_goals simp only [List.mem_cons, List.not_mem_nil, or_false, forall_eq_or_imp, forall_eq]
  · exact ⟨at_eq (by decide +kernel) (by decide +kernel), at_eq (by decide +kernel) (by decide +kernel), at_eq (by decide +kernel) (by decide +kernel),
      at_eq (by decide +kernel) (by decide +kernel), at_eq (by decide +kernel) (by decide +kernel)⟩
  · decide +kernel
  · exact ⟨⟨at_eq (by decide +kernel) (by decide +kernel), by decide +kernel, by decide +kernel, .inl (by decide +kernel)⟩,
      at_eq (by decide +kernel) (by decide +kernel), by decide +kernel, by decide +kernel, .inr (by decide +kernel)⟩

/-- A group of each role. -/
def ofRole (r : Role) : State := onGroup world (fun g => { g with role := r })
theorem witness_TrapInstructions (i : Instr) : Issues (withEntry world) (at0 (withEntry world)) i .control ∧ (at0 (withEntry world)).g.handler = none ∧
    trapEntry (withEntry world) (at0 (withEntry world)).g = some 0x10010#64 ∧ (withEntry world).memOk ∧
    GroupReleased (withEntry world) (at0 (withEntry world)) ∧ (ofRole .copy).here? = some (at0 (ofRole .copy)) ∧ (at0 (ofRole .copy)).g.team.isSome = true ∧
    encode (.iadd ⟨0#3, true, 6#6, 2#6, 4#6, none⟩) = some (none, 0x00206084#32) ∧ roleAllows (at0 (ofRole .copy)).g.role (wordClass 0x00206084#32) = false ∧
    (ofRole .vector).here? = some (at0 (ofRole .vector)) ∧ (at0 (ofRole .vector)).g.team.isSome = true ∧ encode .mown = some (none, 0xD0000000#32) ∧
    roleAllows (at0 (ofRole .vector)).g.role (wordClass 0xD0000000#32) = false :=
  ⟨issues_of (by decide +kernel) i, by decide +kernel, by decide +kernel, mem_of (by decide +kernel), groupReleased_of (by decide +kernel),
    here_eq (by decide +kernel), by decide +kernel, by decide, by decide +kernel, here_eq (by decide +kernel), by decide +kernel, by decide, by decide +kernel⟩
def stopped : State := handling (splitAt world .ready 0x10008#64 .stopped) 0
def reissuing : State := onGroup stopped (fun g => { g with reissue := some 1 })
theorem witness_ReturnFromHandler (i : Instr) : (∀ s ∈ [world, handling world 0, stopped, reissuing], Issues s (at0 s) i .control) ∧
    (at0 world).inHandler = false ∧ (∀ s ∈ [handling world 0, stopped, reissuing], (at0 s).g.handler = some (saved 0) ∧ (at0 s).f.held = .no) ∧
    (saved 0).frag = 0 ∧
    (((at0 stopped).settled stopped).g.reissue = none ∧ ((at0 stopped).settled stopped).g.bySlice (fun f => f.held == .stopped || f.held == .due) = [1]) ∧
    ((at0 reissuing).settled reissuing).g.reissue.isSome = true ∧
    ((at0 (handling world 0)).settled (handling world 0)).g.bySlice (fun f => f.held == .stopped || f.held == .due) = [] := by
  refine ⟨?_, by decide +kernel, ?_, by decide +kernel⟩
  all_goals simp only [List.mem_cons, List.not_mem_nil, or_false, forall_eq_or_imp, forall_eq]
  · exact ⟨issues_of (by decide +kernel) i, issues_of (by decide +kernel) i, issues_of (by decide +kernel) i, issues_of (by decide +kernel) i⟩
  · decide +kernel
theorem witness_KillsAndWindows (i : Instr) : Issues world (at0 world) i .control ∧ (at0 world).g.single = true ∧
    Issues split (at0 split) i .control ∧ (at0 split).g.single = false :=
  ⟨issues_world i, by decide +kernel, issues_of (by decide +kernel) i, by decide +kernel⟩
/-- A result in flight into a register that a `KILL` names. -/
theorem witness_KillsAndWindows_flight (i : Instr) :
    let s := onFrag world (fun f => { f with pending := [inFlight] })
    Issues s (at0 s) i .control ∧ (at0 s).g.single = true ∧ (at0 s).f.pending = [inFlight] :=
  ⟨issues_of (by decide +kernel) i, by decide +kernel⟩

theorem witness_SpecialRegisters (i : Instr) : Issues world (at0 world) i .control ∧ (at0 world).lanes ≠ 0#32 ∧
    (at0 world).raises (at0 world).lanes (.regs 63#6 1) false = 1 ∧
    (at0 world).group.charge + (at0 world).raises (at0 world).lanes (.regs 63#6 1) false ≤ (at0 world).g.budget :=
  ⟨issues_world i, by decide +kernel⟩
theorem witness_Rounding : fmtE4m3 ∈ floatFormats ∧ 0x7E ≤ fmtE4m3.maxEnc ∧ fmtE4m3.lowest ≤ fmtE4m3.lowest ∧ fmtF32.lowest = -149 := by decide

/-! ## `MVT`, uniform memory, fences, barriers -/

/-- Two rows of eight inputs over frozen memory at 0x20000. -/
def matrix : State := frozen (sreg lanes 10#6 0x20000#32)
def mvtOp : MvtOp := ⟨0#3, 0#4, 20#6, 1#6, 10#6, 1#3, 1#3, 0x8#18⟩
abbrev matrixPlace (s : State) (w : Nat) : Place :=
  okPlace (check1 s (at0 s) .load .mustFreeze 4 4 ((at0 s).sp 10#6 + BitVec.ofNat 64 (4 * 0x8) + BitVec.ofNat 64 (4 * w)))
abbrev mvtKey (s : State) (o : MvtOp) : Option ReuseKey :=
  (at0 s).reuseKey ⟨.mvt o, o.k, .regs o.d 2, none, none, (regsFrom o.a 2).map Src.reg, [o.b, o.b + 1#6], some 0⟩ ((at0 s).exec o.k)
    ((at0 s).exec o.k != 0xFFFFFFFF#32) (some (memKeyOf s (at0 s) ((List.range 6).map (fun w => (matrixPlace s w).pa))))
def mvtOne : MvtOp := { mvtOp with a := 30#6 }
def mvtEntry : ReuseEntry :=
  ⟨⟨.mvt mvtOne, 1, [.zero, .zero], [0x20000#32, 0#32], 0xFFFFFFFF#32, 32#32, 0#2, 0#4, [], some ⟨[(1027, 5)], none, [], false⟩⟩,
    [(.zero, Lanes.all 7#32), (.zero, Lanes.all 8#32)], none, 1#5⟩
def mvtKnown : State := onCore matrix (fun k => { k with reuse := [mvtEntry] })
theorem mvt_key : mvtKey mvtKnown mvtOne = some mvtEntry.key := by decide +kernel
theorem witness_VectorTransform (i : Instr) :
    LaneReady .lane matrix (at0 matrix) i 0#3 (.regs 20#6 2) none none ((regsFrom 1#6 2).map Src.reg) true ∧ noLookahead mvtOp.la (at0 matrix) ∧
    (∀ w, w < 6 → check1 matrix (at0 matrix) .load .mustFreeze 4 4 ((at0 matrix).sp 10#6 + BitVec.ofNat 64 (4 * mvtOp.off.toNat) + BitVec.ofNat 64 (4 * w)) =
      .ok (matrixPlace matrix w)) ∧ (matrix.core 0).reuse = [] ∧ (∀ ex out, quiet (at0 matrix) ex out) ∧
    (∀ w, w < 6 → matrix.poisoned (matrixPlace matrix w).pa 4 = false) ∧ { matrix with poison := [0x30024 / 32] }.poisoned (matrixPlace matrix 1).pa 4 = true ∧
    LaneReady .lane mvtKnown (at0 mvtKnown) i 0#3 (.regs 20#6 2) none none ((regsFrom 30#6 2).map Src.reg) true ∧
    mvtKnown.reuseFind 0 (mvtKey mvtKnown mvtOne) = some mvtEntry ∧ mvtEntry.results.length = 2 ∧ noLane i := by
  refine ⟨lane_of (by decide +kernel) i, .inl rfl, fun w hw => ok_eq ?_, by decide +kernel, quiet_of (by decide +kernel), by decide +kernel, by decide +kernel,
    lane_of (by decide +kernel) i, by rw [mvt_key]; simp [State.reuseFind, MemKey.latest, mvtEntry, mvtKnown, onCore, State.core, State.setCore], rfl, noLane_of i⟩
  revert w; decide +kernel

/-- `MVT` with lookahead and its reuse entry; every class enabled, and an input that is infinite. -/
def mvtAhead : MvtOp := { mvtOne with la := 15#4 }
def mvtEntryAhead : ReuseEntry := { mvtEntry with key := { mvtEntry.key with instr := .mvt mvtAhead } }
def mvtKnownAhead : State := onCore matrix (fun k => { k with reuse := [mvtEntryAhead] })
theorem mvt_key_ahead : mvtKey mvtKnownAhead mvtAhead = some mvtEntryAhead.key := by decide +kernel
def mvtClass : State := onView (vreg matrix 1#6 (fun l => if l.val = 31 then 0x7F800000#32 else 0#32)) (fun v => { v with en := 0xF#4 })
abbrev mvtWord (s : State) (w : Nat) : Word :=
  homeByte s ((matrixPlace s w).pa + 3) ++ homeByte s ((matrixPlace s w).pa + 2) ++ homeByte s ((matrixPlace s w).pa + 1) ++ homeByte s (matrixPlace s w).pa
abbrev mvtClasses (s : State) (l : Fin 32) : BitVec 4 := (List.range 2).foldl (fun c i => c ||| (chainOut 0#2 (mvtWord s (i * 3 + 2))
  ((List.range 2).map (fun j => (f32 (mvtWord s (i * 3 + j)), f32 ((at0 s).v (1#6 + BitVec.ofNat 6 j))[l])))).cls) 0#4
theorem mvtClass_hit : mvtClasses mvtClass 31 = 2#4 ∧ (at0 mvtClass).f.view.en = 0xF#4 ∧ ∀ l : Fin 32, (mvtClasses mvtClass l).getLsbD 0 = false := by
  decide +kernel
theorem witness_VectorTransform_ahead (i : Instr) :
    LaneReady .lane matrix (at0 matrix) i 0#3 (.regs 20#6 2) none none ((regsFrom 1#6 2).map Src.reg) true ∧ (matrix.core 0).reuse = [] ∧
    (at0 matrix).f.view.en = 0#4 ∧ mvtAhead.la ≠ 0#4 ∧
    LaneReady .lane mvtKnownAhead (at0 mvtKnownAhead) i 0#3 (.regs 20#6 2) none none ((regsFrom 30#6 2).map Src.reg) true ∧
    (∀ w, w < 6 → okB (check1 mvtKnownAhead (at0 mvtKnownAhead) .load .mustFreeze 4 4 ((at0 mvtKnownAhead).sp 10#6 + BitVec.ofNat 64 (4 * mvtAhead.off.toNat) +
      BitVec.ofNat 64 (4 * w))) = true) ∧ (at0 mvtKnownAhead).f.view.en = 0#4 ∧
    mvtKnownAhead.reuseFind 0 (mvtKey mvtKnownAhead mvtAhead) = some mvtEntryAhead ∧ mvtEntryAhead.results.length = 2 ∧
    LaneReady .lane mvtClass (at0 mvtClass) i 0#3 (.regs 20#6 2) none none ((regsFrom 1#6 2).map Src.reg) true ∧ (mvtClass.core 0).reuse = [] ∧
    (∀ w, w < 6 → okB (check1 mvtClass (at0 mvtClass) .load .mustFreeze 4 4 ((at0 mvtClass).sp 10#6 + BitVec.ofNat 64 (4 * mvtOp.off.toNat) + BitVec.ofNat 64 (4 * w))) = true) :=
  ⟨lane_of (by decide +kernel) i, by decide +kernel, by decide +kernel, by decide, lane_of (by decide +kernel) i, by decide +kernel, by decide +kernel,
    by rw [mvt_key_ahead]; simp [State.reuseFind, MemKey.latest, mvtEntryAhead, mvtEntry, mvtKnownAhead, onCore, State.core, State.setCore], rfl, lane_of (by decide +kernel) i, by decide +kernel, by decide +kernel⟩

def addr : State := sreg world 10#6 0x2FFF8#32
theorem witness_UniformMemory (i : Instr) : addr.memOk ∧ Issues addr (at0 addr) i .control ∧
    (∀ p ∈ [(Access.load, FreezeRule.none), (.store, .mustThaw)], okB (check1 addr (at0 addr) p.1 p.2 4 4 (glAddr (at0 addr) 5#5 1#9 none)) = true) ∧
    (okPlace (check1 addr (at0 addr) .load .none 4 4 (glAddr (at0 addr) 5#5 1#9 none))).pa = 0x3FFFC ∧ addr.poisoned 0x3FFFC 4 = false ∧
    (frozen addr).memOk ∧ Issues (frozen addr) (at0 (frozen addr)) i .control ∧
    okB (check1 (frozen addr) (at0 (frozen addr)) .load .mustFreeze 4 4 (glAddr (at0 (frozen addr)) 5#5 1#9 none)) = true ∧
    (frozen addr).poisoned 0x3FFFC 4 = false ∧ 15#4 ≠ 0#4 :=
  ⟨mem_of (by decide +kernel), issues_of (by decide +kernel) i, by decide +kernel, by decide +kernel, by decide +kernel, mem_of (by decide +kernel),
    issues_of (by decide +kernel) i, by decide +kernel⟩

/-- A write of core 0 in flight; core 255 in the writer hints of the line. -/
def writing : State := { addr with writes := [⟨9, 0, 3, 1, 2047, 0, 0, false⟩] }
def hinted : State := { addr with hints := [(2047, 255)] }
theorem witness_AcquireAndRelease (i : Instr) : addr.memOk ∧ Issues addr (at0 addr) i .control ∧ Released addr (at0 addr) ∧
    (wideScope .die ∧ ¬wideScope .core) ∧ writing.memOk ∧ Issues writing (at0 writing) i .control ∧ (∃ w ∈ writing.writes, w.core = (at0 writing).r.core) ∧
    okB (check1 addr (at0 addr) .store .mustThaw 4 4 (glAddr (at0 addr) 5#5 1#9 none)) = true ∧
    okB (check1 addr (at0 addr) .load .none 4 4 (glAddr (at0 addr) 5#5 1#9 none)) = true ∧ addr.poisoned 0x3FFFC 4 = false ∧
    hintTargets addr 0 (0x3FFFC / 128) = [] ∧ hinted.memOk ∧ Issues hinted (at0 hinted) i .control ∧
    okB (check1 hinted (at0 hinted) .load .none 4 4 (glAddr (at0 hinted) 5#5 1#9 none)) = true ∧ hintTargets hinted 0 (0x3FFFC / 128) = [255] :=
  ⟨mem_of (by decide +kernel), issues_of (by decide +kernel) i, released_of (by decide +kernel), ⟨by simp [wideScope], by simp [wideScope]⟩, mem_of (by decide +kernel),
    issues_of (by decide +kernel) i, by decide +kernel, by decide +kernel, by decide +kernel, by decide +kernel, by decide +kernel, mem_of (by decide +kernel),
    issues_of (by decide +kernel) i, by decide +kernel, by decide +kernel⟩

/-- A `RELS` whose core has a write outstanding; a core in the line's hints that owes older writes. -/
def owing : State := { addr with owing := [(2047, 255)] }
theorem witness_AcquireAndRelease_waits (i : Instr) :
    Issues writing (at0 writing) i .control ∧ writing.memOk ∧ okB (check1 writing (at0 writing) .store .mustThaw 4 4 (glAddr (at0 writing) 5#5 1#9 none)) = true ∧
    (∃ w ∈ writing.writes, w.core = (at0 writing).r.core) ∧ (at0 writing).f.passed = [] ∧
    owing.memOk ∧ Issues owing (at0 owing) i .control ∧ okB (check1 owing (at0 owing) .load .none 4 4 (glAddr (at0 owing) 5#5 1#9 none)) = true ∧
    owing.poisoned 0x3FFFC 4 = false ∧ hintTargets owing 0 (0x3FFFC / 128) = [255] :=
  ⟨issues_of (by decide +kernel) i, mem_of (by decide +kernel), by decide +kernel, by decide +kernel, by decide +kernel, mem_of (by decide +kernel),
    issues_of (by decide +kernel) i, by decide +kernel, by decide +kernel, by decide +kernel⟩

theorem witness_TeamBarrier : (∀ s ∈ [handling world 0, two .ready, two (.waiting .bar), two .exited], Issues s (at0 s) .bar .control ∧ (at0 s).g.team = some 2) ∧
    (at0 (handling world 0)).inHandler = true ∧
    (∀ s ∈ [two .ready, two (.waiting .bar), two .exited], (at0 s).inHandler = false ∧ Released s (at0 s)) ∧
    (((two .ready).group? 0 63).any fun g => g.team == some 2 && (g.frags[(0 : Fin 8)]).any (fun f => f.status == .ready)) = true ∧
    (∀ s ∈ [two (.waiting .bar), two .exited], othersB s (fun g => g.team != some 2 || (List.finRange 8).all (fun f => (g.frags[f]).all (fun x =>
      x.status == .exited || x.status == .waiting .bar))) = true ∧ fragsB (at0 s) (fun f x => f == (at0 s).r.frag || x.status == .exited) = true) := by
  refine ⟨?_, by decide +kernel, ?_, by decide +kernel, ?_⟩
  all_goals simp only [List.mem_cons, List.not_mem_nil, or_false, forall_eq_or_imp, forall_eq]
  · exact ⟨⟨issues_of (by decide +kernel) _, by decide +kernel⟩, ⟨issues_of (by decide +kernel) _, by decide +kernel⟩,
      ⟨issues_of (by decide +kernel) _, by decide +kernel⟩, issues_of (by decide +kernel) _, by decide +kernel⟩
  · exact ⟨⟨by decide +kernel, released_of (by decide +kernel)⟩, ⟨by decide +kernel, released_of (by decide +kernel)⟩, by decide +kernel,
      released_of (by decide +kernel)⟩
  · decide +kernel

/-! ## Freezing, publishing, tasks -/

/-- `FRZ` of the range [0x20000, 0x30000): base in s10:11, length in s12, handle 5·1024 + 3 in s14. -/
def range : State := sreg (sreg (sreg world 10#6 0x20000#32) 12#6 0x10000#32) 14#6 5123#32
def frz : Instr := .frz 20#6 10#6 12#6 true true
def withEntries (es : List (Nat × FreezeEntry)) : State := onCtx range (fun x => { x with regions := es })
def sysEntry (st : FreezeState) (count : Nat) : FreezeEntry := { frozenBy st count with sys := true }
/-- All 1,024 entries taken, none for the range. -/
def fullEntries (n k : Nat) : List (Nat × FreezeEntry) := (List.range' n k).map (fun i => (i, ⟨.active, 0x10000, 1, 1, 0#32, false, false, [0x21000], []⟩))
theorem find_full (k : Nat) : ∀ n i, n ≤ i → i < n + k → (tableFind (fullEntries n k) i).map (fun e => e.state) = some .active := by
  induction k with
  | zero => omega
  | succ k ih =>
    intro n i h1 h2
    simp only [fullEntries, List.range'_succ, List.map_cons, tableFind]
    by_cases h : i = n
    · simp [h]
    · simp only [h, if_false, if_neg (show ¬i < n by omega)]
      exact ih (n + 1) i (by omega) (by omega)
theorem find_none (k : Nat) (p : FreezeState → Bool) : ∀ n, (fullEntries n k).find? (fun e => p e.2.state && e.2.base == 0x20000 && e.2.length == 16 && e.2.sys == true) = none := by
  induction k with
  | zero => intro n; rfl
  | succ k _ => intro n; simp [fullEntries, List.range'_succ]
def lo (s : State) : Nat := ((at0 s).sp 10#6).toNat / 4096 * 4096
def hi (s : State) : Nat := (((at0 s).sp 10#6).toNat + ((at0 s).s 12#6).toNat + 0xFFF) / 4096 * 4096
/-- What the checks of `FRZ` ask. -/
def rangeB (s : State) : Bool :=
  issuesB s .control && (at0 s).f.resume == 0 && (at0 s).s 12#6 != 0#32 && decide ((hi s - lo s) / 4096 ≤ 2 ^ 20) &&
    (rangeParts 65536 (lo s) (hi s)).all (fun p => okB (check1 s (at0 s) .freeze .none 1 1 (BitVec.ofNat 64 p.1))) &&
    (ctx0 s).buffers.all (fun y => y.2.pending == 0) && (s.ctx? 1).isSome && lo s == 0x20000 && (hi s - lo s) / 4096 == 16
def found (s : State) (st : FreezeState) (count : Nat) : Bool := ((ctx0 s).findEntry (lo s) ((hi s - lo s) / 4096) true isFrozenState).any
  (fun p => p.2.state == st && p.2.count == count)
theorem witness_Freezing_frz :
    (let s := sreg range 12#6 0#32;
      Issues s (at0 s) frz .control ∧ (at0 s).f.resume = 0 ∧ (at0 s).s 12#6 = 0#32) ∧
    (let s := sreg (sreg range 12#6 0xFFFFFFFF#32) 10#6 0x20FFF#32;
      Issues s (at0 s) frz .control ∧ (hi s - lo s) / 4096 = 2 ^ 20 + 1) ∧
    (let s := withEntries [(3, sysEntry .active 65534)];
      rangeB s = true ∧ found s .active 65534 = true) ∧
    (let s := withEntries [(3, sysEntry .installing 65534)];
      rangeB s = true ∧ found s .installing 65534 = true) ∧
    (let s := withEntries [(3, sysEntry .active 65535)];
      rangeB s = true ∧ found s .active 65535 = true) ∧
    (let s := withEntries [(3, sysEntry .thawing 0)];
      rangeB s = true ∧ ((ctx0 s).findEntry 0x20000 16 true isFrozenState).isNone = true ∧
        ((ctx0 s).findEntry 0x20000 16 true (fun st => st == .thawing)).isSome = true) ∧
    (let s := withEntries [(0, sysEntry .active 1)];
      let f : Instr := .frz 20#6 10#6 12#6 false false;
      rangeB s = true ∧ Issues s (at0 s) f .control ∧ ((ctx0 s).findEntry 0x20000 16 false isFrozenState).isNone = true ∧
        ((ctx0 s).findEntry 0x20000 16 false (fun st => st == .thawing)).isNone = true ∧ ((ctx0 s).entry 0).state = .active ∧ ((ctx0 s).entry 1).state = .free) ∧
    (let s := onFrag range (fun f => { f with resume := 1024 });
      Issues s (at0 s) frz .control ∧ (at0 s).f.resume = 1023 + 1) :=
  ⟨⟨issues_of (by decide +kernel) _, by decide +kernel⟩, ⟨issues_of (by decide +kernel) _, by decide +kernel⟩, by decide +kernel, by decide +kernel, by decide +kernel,
    by decide +kernel, ⟨by decide +kernel, issues_of (by decide +kernel) _, by decide +kernel⟩, issues_of (by decide +kernel) _, by decide +kernel⟩
/-- A publish pending in the range; the freeze point reached, with a pin to apply. -/
theorem witness_Freezing_waits :
    (let s := onCtx range (fun x => { x with buffers := [(7, ⟨0x2F000, 0x10000, 0x30000, 0x60000, 0#32, false, 1, false⟩)] });
      issuesB s .control && (at0 s).f.resume == 0 && (at0 s).s 12#6 != 0#32 && decide ((hi s - lo s) / 4096 ≤ 2 ^ 20) &&
        (rangeParts 65536 (lo s) (hi s)).all (fun p => okB (check1 s (at0 s) .freeze .none 1 1 (BitVec.ofNat 64 p.1))) && (s.ctx? 1).isSome &&
        (ctx0 s).buffers.any (fun y => decide (0 < y.2.pending) && decide (y.2.base < hi s) && decide (lo s < y.2.base + y.2.size))) = true ∧
    (let s := onFrag (withEntries [(3, sysEntry .active 1)]) (fun f => { f with resume := 4 });
      issuesB s .control && (at0 s).f.resume == 4 && (s.ctx? 1).isSome && ((ctx0 s).entry 3).state == .active) = true := by decide +kernel
theorem full_none (x : Context) (k : Nat) (e : x.regions = fullEntries 0 k) (p : FreezeState → Bool) : x.findEntry 0x20000 16 true p = none := by
  unfold Context.findEntry; rw [e]; exact find_none k p 0
theorem full_taken (x : Context) (k n : Nat) (e : x.regions = fullEntries 0 k) (h : n < k) : (x.entry n).state ≠ .free := by
  obtain ⟨y, q1, q2⟩ := Option.map_eq_some_iff.mp (find_full k 0 n (by omega) (by omega))
  unfold Context.entry
  rw [e, q1]
  simp [q2]
theorem witness_Freezing_full (x : Context) (e : x.regions = fullEntries 0 1024) :
    x.findEntry 0x20000 16 true isFrozenState = none ∧ x.findEntry 0x20000 16 true (fun st => st == .thawing) = none ∧
    ∀ n, n < 1024 → (x.entry n).state ≠ .free := ⟨full_none x _ e _, full_none x _ e _, fun n h => full_taken x _ n e h⟩
theorem witness_Freezing_full_state : rangeB range = true ∧ ∃ x : Context, x.regions = fullEntries 0 1024 :=
  ⟨by decide +kernel, { ctx0 range with regions := fullEntries 0 1024 }, rfl⟩

/-- `THW`, `FWAIT` of entry 3 in a state; another fragment's store that waits on it. -/
def entry3 (st : FreezeState) (count : Nat) : State := withEntries [(3, frozenBy st count)]
def speculative (s : State) : State := { s with launches := s.launches.map (fun l => { l with kind := .task 0x30000 true }) }
def storing : State := splitAt (entry3 .free 0) (.waiting (.thaw [(1, 3, 5)])) 0x10008#64 .no
theorem witness_Freezing_thw (i : Instr) :
    (∀ s ∈ [speculative range, entry3 .active 2, entry3 .active 1, entry3 .thawing 0, storing, entry3 .free 0, entry3 .installing 1],
      Issues s (at0 s) i .control ∧ s.ctx? 1 = some (ctx0 s) ∧ (at0 s).g.ctx = 1 ∧ ((at0 s).s 14#6).toNat % 1024 = 3) ∧
    isSpeculative (speculative range) (at0 (speculative range)) = true ∧
    (∀ s ∈ [entry3 .active 2, entry3 .active 1, entry3 .thawing 0, storing, entry3 .free 0, entry3 .installing 1], isSpeculative s (at0 s) = false ∧
      ((ctx0 s).entry 3).gen.toNat % 2 ^ 22 = ((at0 s).s 14#6).toNat / 1024) ∧
    ((ctx0 (entry3 .active 2)).entry 3).count = 2 ∧ ((ctx0 (entry3 .active 1)).entry 3).count = 1 ∧ ((ctx0 (entry3 .thawing 0)).entry 3).state = .thawing ∧
    ((ctx0 (entry3 .installing 1)).entry 3).state = .installing ∧ ((ctx0 (entry3 .free 0)).entry 3).state = .free ∧
    ((ctx0 storing).entry 3).state = .free ∧ ((storing.group? 0 0).any fun g => (g.frags[(1 : Fin 8)]).any fun f => f.status == .waiting (.thaw [(1, 3, 5)])) = true := by
  refine ⟨?_, by decide +kernel, ?_, by decide +kernel⟩
  all_goals simp only [List.mem_cons, List.not_mem_nil, or_false, forall_eq_or_imp, forall_eq]
  · exact ⟨⟨issues_of (by decide +kernel) i, ctx_eq (by decide +kernel), by decide +kernel⟩, ⟨issues_of (by decide +kernel) i, ctx_eq (by decide +kernel), by decide +kernel⟩,
      ⟨issues_of (by decide +kernel) i, ctx_eq (by decide +kernel), by decide +kernel⟩, ⟨issues_of (by decide +kernel) i, ctx_eq (by decide +kernel), by decide +kernel⟩,
      ⟨issues_of (by decide +kernel) i, ctx_eq (by decide +kernel), by decide +kernel⟩, ⟨issues_of (by decide +kernel) i, ctx_eq (by decide +kernel), by decide +kernel⟩,
      issues_of (by decide +kernel) i, ctx_eq (by decide +kernel), by decide +kernel⟩
  · decide +kernel

/-- A publish buffer of number 4095 over the page at 0x20000; the page's leaf with these bits 55:48. -/
def buffer (b : PublishBuffer → PublishBuffer) (s : State) : State :=
  onCtx (sreg s 14#6 4095#32) (fun x => { x with buffers := [(4095, b ⟨0x20000, 0x10000, 0x30000, 0x980000, 0#32, false, 0, false⟩)] })
def biased (b : Byte) (s : State) : State := { s with mem := tablePut s.mem 0x930016 b }
theorem witness_PublishingAndTasks_publish (i : Instr) :
    (∀ s ∈ [sreg (buffer id world) 14#6 4096#32, buffer id (speculative world), biased 0x80#8 (buffer id world), biased 0x40#8 (buffer id world), frozen (buffer id world),
      buffer id world], Issues s (at0 s) i .control ∧ (s.ctx? 1).isSome = true) ∧
    ((at0 (sreg (buffer id world) 14#6 4096#32)).s 14#6).toNat = 4096 ∧ ((at0 (buffer id world)).s 14#6).toNat = 4095 ∧
    (tableFind (ctx0 (buffer id world)).buffers 4095).isSome = true ∧ (tableFind (ctx0 world).buffers 0).isNone = true ∧
    isSpeculative (buffer id (speculative world)) (at0 (buffer id (speculative world))) = true ∧ isSpeculative (buffer id world) (at0 (buffer id world)) = false ∧
    rangeParts 65536 0x20000 0x30000 = [(0x20000, 65536)] ∧
    ((match walk (biased 0x80#8 (buffer id world)) (ctx0 (buffer id world)) 0x20000 with | .leaf l => l.bh | _ => false) = true) ∧
    ((match walk (biased 0x40#8 (buffer id world)) (ctx0 (buffer id world)) 0x20000 with | .leaf l => l.bt | _ => false) = true) ∧
    ((match walk (buffer id world) (ctx0 (buffer id world)) 0x20000 with | .leaf l => !l.bh && !l.bt | _ => false) = true) ∧
    (((frozen (buffer id world)).frozenBy (0x30000 + 0)).isSome = true ∧ (rangeParts 4096 0 0x10000).head? = some (0, 4096)) ∧
    (rangeParts 4096 0 0x10000).all (fun p => !(buffer id world).isFrozen (0x30000 + p.1)) = true := by
  refine ⟨?_, by decide +kernel⟩
  simp only [List.mem_cons, List.not_mem_nil, or_false, forall_eq_or_imp, forall_eq]
  exact ⟨⟨issues_of (by decide +kernel) i, by decide +kernel⟩, ⟨issues_of (by decide +kernel) i, by decide +kernel⟩,
    ⟨issues_of (by decide +kernel) i, by decide +kernel⟩, ⟨issues_of (by decide +kernel) i, by decide +kernel⟩,
    ⟨issues_of (by decide +kernel) i, by decide +kernel⟩, issues_of (by decide +kernel) i, by decide +kernel⟩

/-- A task block at 0x20000: module 1, block 0, 3 teams, with predecessors, a state, flags and one buffer read (R372). -/
def tasked (preds state flags reads : Byte) : State :=
  let s := buffer id (sreg world 10#6 0x20000#32)
  let cells : List Host.Cell := [(0x30000, 1#8), (0x30004, preds), (0x30008, 3#8), (0x3000C, state), (0x3000D, flags), (0x30010, reads), (0x30020, 0xFF#8), (0x30021, 0x0F#8)]
  { s with mem := cells.filter (fun c => c.2 != 0#8) ++ tables }
theorem witness_PublishingAndTasks_tsub (i : Instr) :
    (∀ s ∈ [tasked 0#8 1#8 0#8 0#8, tasked 2#8 0#8 0#8 1#8, tasked 0#8 0#8 0#8 0#8, tasked 2#8 0#8 1#8 1#8], s.memOk ∧ Issues s (at0 s) i .control ∧
      s.ctx? 1 = some (ctx0 s) ∧ Released s (at0 s) ∧
      (okB (check1 s (at0 s) .task .mustThaw 256 256 ((at0 s).sp 10#6)) && unregistered s 0 == [] &&
        (okPlace (check1 s (at0 s) .task .mustThaw 256 256 ((at0 s).sp 10#6))).pa == 0x30000) = true) ∧
    fwRead (tasked 0#8 1#8 0#8 0#8) 0x3000C 1 = 1 ∧
    (∀ s ∈ [tasked 2#8 0#8 0#8 1#8, tasked 0#8 0#8 0#8 0#8, tasked 2#8 0#8 1#8 1#8], fwRead s 0x3000C 1 = 0 ∧ taskMalformed s (ctx0 s) 0x30000 = false ∧
      0x30000 + 256 ≤ (ctx0 s).journalAt + 64 * (ctx0 s).journal.nextSlot) ∧
    (fwRead (tasked 2#8 0#8 0#8 1#8) 0x30004 4 = 2 ∧ fwRead (tasked 2#8 0#8 0#8 1#8) 0x3000D 1 = 0) ∧ fwRead (tasked 0#8 0#8 0#8 0#8) 0x30004 4 = 0 ∧
    (fwRead (tasked 2#8 0#8 1#8 1#8) 0x3000D 1 = 1 ∧ fwRead (tasked 2#8 0#8 1#8 1#8) 0x30010 1 = 1 ∧
      (tableFind (ctx0 (tasked 2#8 0#8 1#8 1#8)).buffers (fwRead (tasked 2#8 0#8 1#8 1#8) 0x30020 2)).isSome = true) := by
  refine ⟨?_, by decide +kernel, ?_, by decide +kernel⟩
  all_goals simp only [List.mem_cons, List.not_mem_nil, or_false, forall_eq_or_imp, forall_eq]
  · exact ⟨⟨mem_of (by decide +kernel), issues_of (by decide +kernel) i, ctx_eq (by decide +kernel), released_of (by decide +kernel), by decide +kernel⟩,
      ⟨mem_of (by decide +kernel), issues_of (by decide +kernel) i, ctx_eq (by decide +kernel), released_of (by decide +kernel), by decide +kernel⟩,
      ⟨mem_of (by decide +kernel), issues_of (by decide +kernel) i, ctx_eq (by decide +kernel), released_of (by decide +kernel), by decide +kernel⟩,
      mem_of (by decide +kernel), issues_of (by decide +kernel) i, ctx_eq (by decide +kernel), released_of (by decide +kernel), by decide +kernel⟩
  · decide +kernel

/-- The instruction goes on in its own code. -/
def notesB (i : Instr) (s : State) : Bool := match exec i s with
  | .next t => (t.at? (at0 s).r).any (fun h => h.f.pc == (at0 s).after i && h.g.handler == (at0 s).g.handler)
  | _ => false
theorem notes_of {i : Instr} {s : State} (e : notesB i s = true) : ∃ t h', exec i s = .next t ∧ t.at? (at0 s).r = some h' ∧
    h'.f.pc = (at0 s).after i ∧ h'.g.handler = (at0 s).g.handler := by
  unfold notesB at e
  split at e
  · next t q =>
    cases p : t.at? (at0 s).r with
    | none => simp [p] at e
    | some h =>
      simp only [p, Option.any_some, Bool.and_eq_true, beq_iff_eq] at e
      exact ⟨t, h, q, p, e.1, e.2⟩
  · cases e

/-- One of each form that writes uniform state and asks nothing of memory. -/
def writersB (b : GrB) : List Instr :=
  [.sadd b, .ssub b, .sand b, .sor b, .sxor b, .sandn b, .sshl b, .sshr b, .ssra b, .smul b, .smulh b, .smulhu b, .smin b, .smax b,
    .sminu b, .smaxu b, .ssel b, .saddc b, .ssubb b, .sadd64 b, .ssub64 b, .sshl64 b]
def writersU (u : GrU) (c : GrC) (o : GiOp) (h : GiSh) (n : GiOne) : List Instr :=
  [.sclz u, .spopc u, .smov u, .smov64 u, .scmp c, .scmpu c, .scmp64 c, .saddi o, .sandi o, .sori o, .sxori o, .sshli h, .sshri h, .smovi n, .scmpi n]
def writersK (m : GmB) (d a : KReg) (x : Reg) (j : GjC) : List Instr :=
  [.kand m, .kor m, .kxor m, .kandn m, .knot d a, .kmov d x, .kset d a 0#3, .ktos a x, .kpop a x, .kffs a x, .win 3#2 x 1#12, .setpart 2#12,
    .swr x 6#12, .srd x 2#12, .loop x 1#12, .call j, .thw x, .fwait x, .closeb x]
def writersX (f g : LrF) (n : LrN) : List Instr :=
  [.xshfl f, .xvote g, .xred g, .xscan g, .xscane g, .xsegred f, .xsegscan f, .xisect n, .xgather { g with a := 30#6 }]
def writers : List Instr :=
  writersB ⟨62#6, 0#6, 0#6⟩ ++ writersU ⟨62#6, 0#6⟩ ⟨0#6, 1#6⟩ ⟨63#6, 0#6, 0#12, none⟩ ⟨63#6, 0#6, 31#5⟩ ⟨63#6, 0#12, none⟩ ++
  writersK ⟨7#3, 1#3, 2#3⟩ 7#3 1#3 63#6 ⟨15#4, 1#20⟩ ++
  writersX ⟨0#3, false, 0#3, 60#6, 2#6, 3#6⟩ ⟨0#3, true, 0#3, 60#6, 2#6, 0#6⟩ ⟨0#3, 60#6, 2#6, 3#6⟩
/-- A state whose group is split. -/
def halved (s : State) : State := splitAt s .ready 0x10008#64 .no
theorem witness_WrittenSets_forms :
    (∀ i ∈ writers, Issues (halved lanes) (at0 (halved lanes)) i .control ∧ ∃ t h', exec i (halved lanes) = .next t ∧
      t.at? (at0 (halved lanes)).r = some h' ∧ h'.f.pc = (at0 (halved lanes)).after i ∧ h'.g.handler = (at0 (halved lanes)).g.handler) ∧
    (∀ p ∈ [(Instr.sld ⟨0#4, 62#6, 5#5, 1#9, none⟩, addr), (.acqr ⟨.pkg, 62#6, 5#5, 1#9, none⟩, addr), (.sldc ⟨0#4, 62#6, 5#5, 1#9, none⟩, frozen addr),
      (.frz 20#6 10#6 12#6 false false, withEntries [(3, frozenBy .active 1)]), (.tsub 10#6, tasked 0#8 1#8 0#8 0#8)], notesB p.1 (halved p.2) = true) ∧
    (at0 (halved lanes)).g.single = false := by
  refine ⟨fun i hi => ⟨issues_of (by decide +kernel) i, notes_of ?_⟩, by decide +kernel, by decide +kernel⟩
  have e : (writers.all fun i => notesB i (halved lanes)) = true := by decide +kernel
  exact List.all_eq_true.mp e i hi

/-! ## Copies, batches, rings, run-ahead -/

/-- Source in s10:11, destination in s12, length, rows and stride in s16 to s18. -/
def copying (src dst n rows third : Word) : State :=
  sreg (sreg (sreg (sreg (sreg world 10#6 src) 12#6 dst) 16#6 n) 17#6 rows) 18#6 third
def fine : State := copying 0x20000#32 0xF000#32 0x1000#32 2#32 0x1000#32
def rowsOf (s : State) : List (DWord × Nat × Nat) :=
  (List.range 2).map (fun r => ((at0 s).sp 10#6 + BitVec.ofNat 64 r * ((at0 s).s 18#6).signExtend 64, ((at0 s).s 12#6).toNat + r * 0x1000, 0x1000))
theorem witness_BulkCopies (i : Instr) :
    (2 ^ 64 - 1 - 1 + 1 < 2 ^ 64 ∧ 2 ^ 28 ≤ (0x10000000#32).toNat ∧ 2 ^ 20 < (0x100001#32).toNat ∧ ¬(4 ≤ 3) ∧ ¬(65536 ≤ 65535) ∧ ¬(2 * 0x80004 ≤ 2 ^ 20)) ∧
    (∀ s ∈ [fine, copying 0x20001#32 0xF000#32 0x1000#32 2#32 0x1000#32, copying 0x20000#32 0xF000#32 0x1001#32 2#32 0x1000#32,
        copying 0x20000#32 0xF004#32 0x1000#32 2#32 0x1000#32, onCtx fine (fun x => { x with buffers := [(3, ⟨0x20000, 0x10000, 0x30000, 0x980000, 0#32, true, 1, false⟩)] })],
      Issues s (at0 s) i .copy ∧ s.ctx? 1 = some (ctx0 s) ∧ teamOf s (at0 s) = some (team0 s)) ∧
    (4 ≤ 0x1000 ∧ 0x1000 ≤ 2 ^ 20 ∧ 2 * 0x1000 ≤ 2 ^ 20 ∧ ((at0 fine).s 16#6).toNat < 2 ^ 28) ∧
    ([((at0 (copying 0x20001#32 0xF000#32 0x1000#32 2#32 0x1000#32)).sp 10#6, 0xF000)].find? (fun b => b.1.toNat % 4 != 0)).isSome = true ∧
    0x1001 % 4 ≠ 0 ∧ (team0 fine).scratchSize < 0xF004 + 0x1000 ∧ 0xF000 + 0x1000 ≤ (team0 fine).scratchSize ∧
    ((rowsOf fine).all fun r => (rowParts r).all fun p => okB (checkPart fine (at0 fine) (ctx0 fine) false p.1) && okB (checkPart fine (at0 fine) (ctx0 fine) true p.1)) = true ∧
    (fine.copies.filter (fun c => c.core == (at0 fine).r.core)).length < Config.copiesPerCore ∧
    ((List.replicate 1024 (⟨9, 0, 3, 2, 1, 1, false, [], none, none, none, none, none⟩ : Copy)).filter (fun c => c.core == (0 : Fin 256))).length = Config.copiesPerCore ∧
    (let b : PublishBuffer := ⟨0x20000, 0x10000, 0x30000, 0x980000, 0#32, true, 1, false⟩;
      b.publishing = true ∧ b.base ≤ 0x20000 ∧ 0x20000 + 0x1000 ≤ b.base + b.size ∧ b.base < 0x2F004 + 0x1000 ∧ 0x2F004 < b.base + b.size ∧ ¬(0x2F004 + 0x1000 ≤ b.base + b.size)) := by
  refine ⟨by decide, ?_, by decide +kernel⟩
  simp only [List.mem_cons, List.not_mem_nil, or_false, forall_eq_or_imp, forall_eq]
  exact ⟨⟨issues_of (by decide +kernel) i, ctx_eq (by decide +kernel), team_eq (by decide +kernel)⟩, ⟨issues_of (by decide +kernel) i, ctx_eq (by decide +kernel), team_eq (by decide +kernel)⟩,
    ⟨issues_of (by decide +kernel) i, ctx_eq (by decide +kernel), team_eq (by decide +kernel)⟩, ⟨issues_of (by decide +kernel) i, ctx_eq (by decide +kernel), team_eq (by decide +kernel)⟩,
    issues_of (by decide +kernel) i, ctx_eq (by decide +kernel), team_eq (by decide +kernel)⟩

/-- Rows whose second starts at an odd address. -/
theorem witness_BulkCopies_odd (i : Instr) : let s := copying 0x20000#32 0xF000#32 0x1000#32 2#32 0x1001#32
    Issues s (at0 s) i .copy ∧ s.ctx? 1 = some (ctx0 s) ∧ teamOf s (at0 s) = some (team0 s) ∧ ((at0 s).sp 10#6 + ((at0 s).s 18#6).signExtend 64).toNat % 4 = 1 :=
  ⟨issues_of (by decide +kernel) i, ctx_eq (by decide +kernel), team_eq (by decide +kernel), by decide +kernel⟩

/-- A copy of the group's batch 1; batch 2 is open, and 1 is waited for. -/
def batched : State := { onGroup (sreg world 14#6 1#32) (fun g => { g with batch := 2#32 }) with copies := [⟨9, 0, 3, 2, 1, 1, false, [⟨0x30000, 0, 4⟩], some 1#32, none, none, none, none⟩] }
def closing : State := { onGroup batched (fun g => { g with batch := 0xFFFFFFFF#32 }) with copies := [⟨9, 0, 3, 2, 1, 1, false, [⟨0x30000, 0, 4⟩], some 0xFFFFFFFF#32, none, none, none, none⟩] }
/-- The last stage word inside the scratchpad, its phase bit set; the first outside. -/
def staged : State := onTeam (sreg world 14#6 15#32) (fun t => { t with scratchSize := 512, scratch := [(511, 0x80#8)] })
def unstaged : State := onTeam staged (fun t => { t with scratchSize := 508, scratch := [] })
def leapImage : LeapImage := ⟨0, 31#8, 0x0#64, 0x1000#64, 256, []⟩
def imaged : State := { sreg (sreg (sreg world 10#6 0x2007F#32) 12#6 0x100000#32) 16#6 4097#32 with
  launches := world.launches.map (fun l => { l with image := some leapImage }) }
theorem witness_BatchesAndRings (i : Instr) :
    (∀ s ∈ [batched, closing, sreg batched 14#6 0#32, imaged, world], Issues s (at0 s) i .copy) ∧
    ((at0 closing).g.batch = 0xFFFFFFFF#32 ∧ ∃ c ∈ closing.copies, c.group = (at0 closing).g.uid ∧ c.batch = some (at0 closing).g.batch) ∧
    (∀ c ∈ batched.copies, c.batch ≠ some (at0 batched).g.batch) ∧
    (((at0 batched).settled batched).s 14#6 = 1#32 ∧ ∃ c ∈ batched.copies, c.group = (at0 batched).g.uid ∧ c.batch = some 1#32 ∧ 1#32 ≠ (at0 batched).g.batch ∧ (1#32 - 1#32).toNat < 2 ^ 31) ∧
    ((at0 (sreg batched 14#6 0#32)).settled (sreg batched 14#6 0#32)).s 14#6 = 0#32 ∧
    (∀ s ∈ [staged, unstaged], teamOf s (at0 s) = some (team0 s) ∧ Issues s (at0 s) i .control ∧ Released s (at0 s)) ∧
    (let w := 64 * 7 + 4 * (((at0 staged).s 14#6).toNat % 16);
      w + 4 = (team0 staged).scratchSize ∧ Memory.wf (team0 staged).scratch = true ∧ (scratchWord (team0 staged) w).getLsbD 31 = true ∧ (team0 unstaged).scratchSize < w + 4) ∧
    ((imaged.launch? 1).any fun l => l.image.isSome) = true ∧ ((at0 imaged).s 12#6).toNat = 2 ^ 20 ∧ ((at0 imaged).s 16#6).toNat = 4097 := by
  refine ⟨?_, by decide +kernel, by decide +kernel, by decide +kernel, by decide +kernel, ?_, by decide +kernel⟩
  all_goals simp only [List.mem_cons, List.not_mem_nil, or_false, forall_eq_or_imp, forall_eq]
  · exact ⟨issues_of (by decide +kernel) i, issues_of (by decide +kernel) i, issues_of (by decide +kernel) i, issues_of (by decide +kernel) i, issues_of (by decide +kernel) i⟩
  · exact ⟨⟨team_eq (by decide +kernel), issues_of (by decide +kernel) i, released_of (by decide +kernel)⟩, team_eq (by decide +kernel), issues_of (by decide +kernel) i,
      released_of (by decide +kernel)⟩

/-! ## The matrix engine -/

def withEngine (s : State) (f : Engine → Engine) : State := onCore s (fun k => { k with engine := f k.engine })
/-- The engine owned, and queued and held for, by groups of these numbers. -/
def owned (s : State) (u : Option Nat) (queue held : List Nat) : State := withEngine s (fun e => { e with owner := u, ownerTeam := some 2, queue := queue, held := held })
/-- The second group waits at its `MOWN`. -/
def waiter : State := two (.waiting (.owner false))
def engB (s : State) : Bool := decide ((s.engineOf (at0 s)).owner = some (at0 s).g.uid) && (s.engineOf (at0 s)).runs.isEmpty
theorem owns_of {s : State} (e : engB s = true) : Owns s (at0 s) := by
  simp [engB] at e; exact e
theorem witness_EngineOwnership (i : Instr) :
    (∀ s ∈ [owned world (some 3) [] [], owned world none [] [], owned world (some 9) [11, 12, 13, 14, 15, 16, 17] [], owned world (some 9) [11, 12, 13, 14, 15, 16, 17, 18] [19],
        owned world (some 9) [3] [], owned world (some 9) [11, 12, 13, 14, 15, 16, 17, 18] [3], owned waiter (some 3) [] [], owned waiter (some 3) [4] [5], owned world (some 9) [] []],
      Issues s (at0 s) i .matrix) ∧
    ((Engine.reset.ownerTeam = none) ∧ ({ Engine.reset with ownerTeam := some 2 } : Engine).ownerTeam ≠ none ∧ (some 2 : Option Nat) ≠ some 3) ∧
    ((owned world (some 3) [] []).engineOf (at0 world)).owner = some (at0 world).g.uid ∧
    (let s := owned world none [] [];
      let e := s.engineOf (at0 s);
      e.owner = none ∧ e.queue = [] ∧ e.held = [] ∧ e.runs = [] ∧ othersB s (fun g => g.uid != (at0 s).g.uid) = true ∧
        fragsB (at0 s) (fun _ f => f.status != .waiting (.owner true) && f.status != .waiting (.owner false)) = true) ∧
    (let e := (owned world (some 9) [11, 12, 13, 14, 15, 16, 17] []).engineOf (at0 world);
      e.owner ≠ some 3 ∧ e.owner ≠ none ∧ 3 ∉ e.queue ∧ 3 ∉ e.held ∧ e.queue.length = 7) ∧
    (let e := (owned world (some 9) [11, 12, 13, 14, 15, 16, 17, 18] [19]).engineOf (at0 world);
      3 ∉ e.queue ∧ 3 ∉ e.held ∧ e.queue.length = 8) ∧
    3 ∈ ((owned world (some 9) [3] []).engineOf (at0 world)).queue ∧ 3 ∈ ((owned world (some 9) [11, 12, 13, 14, 15, 16, 17, 18] [3]).engineOf (at0 world)).held ∧
    (∀ s ∈ [owned waiter (some 3) [] [], owned waiter (some 3) [4] [5]], Owns s (at0 s) ∧ (at0 s).g.team.isSome = true ∧ (s.engineOf (at0 s)).queue.length ≤ 8 ∧
      teamOf s (at0 s) = some (team0 s) ∧ fragsB (at0 s) (fun _ f => f.status != .waiting (.owner true) && f.status != .waiting (.owner false)) = true ∧
      ((s.core 0).memberOf (team0 s).uid 5).isNone = true ∧ ((s.core 0).memberOf (team0 s).uid 0).any (fun g => g.uid == 3) = true ∧
      ((s.core 0).memberOf (team0 s).uid 1).any (fun g => g.role == .combined && g.uid == 4 && g.live != []) = true ∧
      ((s.group? 0 63).any fun g => g.uid == 4 && (g.frags[(0 : Fin 8)]).any (fun f => f.status == .waiting (.owner false))) = true ∧
      (List.finRange 64).all (fun k => k == 63 || (s.group? 0 k).all (fun g => g.uid != 4)) = true) ∧
    (let e := (owned waiter (some 3) [4] [5]).engineOf (at0 waiter);
      e.queue ++ e.held = 4 :: [5] ∧ 4 ≠ (at0 waiter).g.uid ∧ 4 ∉ [5]) ∧
    (((two .exited).core 0).memberOf 2 1).any (fun g => g.live == []) = true ∧
    (((waiter.setGroup 0 63 ((waiter.group? 0 63).map (fun g => { g with role := .vector }))).core 0).memberOf 2 1).any (fun g => g.role == .vector) = true ∧
    ((owned world (some 9) [] []).engineOf (at0 world)).owner ≠ some (at0 world).g.uid := by
  refine ⟨?_, by decide +kernel, by decide +kernel, by decide +kernel, by decide +kernel, by decide +kernel, by decide +kernel, by decide +kernel, ?_, by decide +kernel⟩
  all_goals simp only [List.mem_cons, List.not_mem_nil, or_false, forall_eq_or_imp, forall_eq]
  · exact ⟨issues_of (by decide +kernel) i, issues_of (by decide +kernel) i, issues_of (by decide +kernel) i, issues_of (by decide +kernel) i, issues_of (by decide +kernel) i,
      issues_of (by decide +kernel) i, issues_of (by decide +kernel) i, issues_of (by decide +kernel) i, issues_of (by decide +kernel) i⟩
  · exact ⟨⟨owns_of (by decide +kernel), by decide +kernel, by decide +kernel, team_eq (by decide +kernel), by decide +kernel⟩, owns_of (by decide +kernel), by decide +kernel,
      by decide +kernel, team_eq (by decide +kernel), by decide +kernel⟩

/-- The owner, with a row number in s14 and a record's address in s10:11. -/
def owner (row : Word) : State := owned (sreg (sreg lanes 14#6 row) 10#6 0x20000#32) (some 3) [] []
theorem witness_EngineRegisters (i : Instr) :
    (∀ s ∈ [owner 0#32, owner 127#32, owner 128#32, owner 135#32, owner 136#32], Issues s (at0 s) i .matrix ∧ Owns s (at0 s)) ∧
    okB (check1 (owner 0#32) (at0 (owner 0#32)) .load .none 32 32 ((at0 (owner 0#32)).sp 10#6 + 1#64 * 32#64)) = true ∧ (3#12).toNat < 4 ∧
    ([127, 128, 135, 136].map (fun n => ((at0 (owner (BitVec.ofNat 32 n))).s 14#6).toNat)) = [127, 128, 135, 136] ∧
    (let s := owner 127#32;
      (at0 s).lanes ≠ 0#32 ∧ (at0 s).group.charge + (at0 s).raises (at0 s).lanes (.regs 60#6 4) false ≤ (at0 s).g.budget ∧ (s.engineOf (at0 s)).accPoison[(0 : Fin 4)] = [] ∧
      (∀ x ∈ regsFrom 60#6 4, ((at0 s).vreg x).poison = 0#32) ∧ tableSortedFrom 0 (s.engineOf (at0 s)).acc[(0 : Fin 4)] = true) := by
  refine ⟨?_, by decide +kernel⟩
  simp only [List.mem_cons, List.not_mem_nil, or_false, forall_eq_or_imp, forall_eq]
  exact ⟨⟨issues_of (by decide +kernel) i, owns_of (by decide +kernel)⟩, ⟨issues_of (by decide +kernel) i, owns_of (by decide +kernel)⟩,
    ⟨issues_of (by decide +kernel) i, owns_of (by decide +kernel)⟩, ⟨issues_of (by decide +kernel) i, owns_of (by decide +kernel)⟩,
    issues_of (by decide +kernel) i, owns_of (by decide +kernel)⟩

/-- A shape record: M, N, KSTEP, formats, planes, accumulator, and A at 0, B at 0x100 with these strides (R336). -/
def record (m ks af bf : Byte) (as bs : Byte) : Vector Byte 32 :=
  #v[m, 2#8, ks, af, bf, 0#8, 0#8, 0#8, 0#8, 0#8, 0#8, 0#8, as, 0#8, 0#8, 0#8, 0#8, 1#8, 0#8, 0#8, bs, 0#8, 0#8, 0#8, 0#8, 0#8, 0#8, 0#8, 0#8, 0#8, 0#8, 0#8]
def shaped (r : Option (Vector Byte 32)) : State := withEngine (owner 0#32) (fun e => { e with shapes := e.shapes.set 7 ⟨r, 0#32⟩ })
def loop (n : Byte) : MloopOp := ⟨7#3, 8#6, 0#4, n, none⟩
def running : State := withEngine (shaped (some (record 128#8 4#8 0#8 0#8 16#8 16#8))) (fun e => { e with runs := [⟨7#3, record 128#8 4#8 0#8 0#8 16#8 16#8, 2, 3, [], [], 1, 2⟩] })
theorem witness_MatrixLoops (i : Instr) :
    (∀ s ∈ [shaped none, shaped (some (record 129#8 4#8 0#8 0#8 16#8 16#8)), shaped (some (record 3#8 4#8 0#8 1#8 16#8 16#8)), shaped (some (record 3#8 4#8 0#8 0#8 16#8 20#8)),
        shaped (some (record 1#8 4#8 0#8 0#8 16#8 16#8))], Issues s (at0 s) i .matrix ∧ engB s = true) ∧
    (kGet ((shaped none).engineOf (at0 (shaped none))).shapes 7#3).record.isNone = true ∧ shapeInvalid (record 129#8 4#8 0#8 0#8 16#8 16#8) = true ∧
    ([record 3#8 4#8 0#8 1#8 16#8 16#8, record 3#8 4#8 0#8 0#8 16#8 20#8, record 1#8 4#8 0#8 0#8 16#8 16#8].all fun r => !shapeInvalid r &&
      loopPoison (at0 (shaped (some r))) ((shaped (some r)).engineOf (at0 (shaped (some r)))) (loop 1#8) (shapeOf r) == 0#32) = true ∧
    shapeInvalid (record 128#8 4#8 0#8 0#8 16#8 16#8) = false ∧
    shapePair (shapeOf (record 3#8 4#8 0#8 1#8 16#8 16#8)) = false ∧ shapePair (shapeOf (record 3#8 4#8 0#8 0#8 16#8 20#8)) = true ∧
    innerK 0 0 16 ≠ innerK 0 0 20 ∧ (innerK 0 0 16 = 8 ∧ 8 < (3#8).toNat * 4 ∧ ¬(8 < (2#8).toNat * 4)) ∧
    (let s := shaped (some (record 1#8 4#8 0#8 0#8 16#8 16#8));
      (loopCheck (s.engineOf (at0 s)) (loop 1#8)).isNone = true ∧ (teamOf s (at0 s)).isSome = true ∧ (at0 s).f.resume = 0 ∧
        (loopFault (team0 s) (shapeOf (record 1#8 4#8 0#8 0#8 16#8 16#8)) (loopRows (at0 s) (s.engineOf (at0 s)) (shapeOf (record 1#8 4#8 0#8 0#8 16#8 16#8))) 0 1).isNone = true) ∧
    ((running.core 0).engine.runs.length = 1 ∧ (shapeOf (record 128#8 4#8 0#8 0#8 16#8 16#8)).m = 128 ∧ (shapeOf (record 128#8 4#8 0#8 0#8 16#8 16#8)).n ≤ 128 ∧
      tableSortedFrom 0 (running.core 0).engine.acc[(0 : Fin 4)] = true) ∧
    (shapeOf (record 3#8 4#8 0#8 0#8 16#8 16#8)).i32 = false ∧
    (shapeOf #v[1#8, 1#8, 1#8, 8#8, 7#8, 0x22#8, 0x10#8, 0#8, 0#8, 0#8, 0#8, 0#8, 1#8, 0#8, 0#8, 0#8, 0#8, 1#8, 0#8, 0#8, 1#8, 0#8, 0#8, 0#8, 0#8, 0#8, 0#8, 0#8, 0#8, 0#8, 0#8,
      0#8]).i32 = true := by
  refine ⟨?_, by decide +kernel⟩
  simp only [List.mem_cons, List.not_mem_nil, or_false, forall_eq_or_imp, forall_eq]
  exact ⟨⟨issues_of (by decide +kernel) i, by decide +kernel⟩, ⟨issues_of (by decide +kernel) i, by decide +kernel⟩, ⟨issues_of (by decide +kernel) i, by decide +kernel⟩,
    ⟨issues_of (by decide +kernel) i, by decide +kernel⟩, issues_of (by decide +kernel) i, by decide +kernel⟩

/-- An index base whose second register would be v64; a scratchpad that ends in step 1's bytes; one with a poisoned granule there; a loop
that resumes at step 1; a poisoned index register. -/
def loopRecord : Vector Byte 32 := record 1#8 4#8 0#8 0#8 16#8 16#8
def loopFar : State := withEngine (shaped (some (record 33#8 4#8 0#8 0#8 16#8 16#8))) (fun e => { e with index := some 63#6 })
def loopOut : State := onTeam (shaped (some loopRecord)) (fun t => { t with scratchSize := 0x118 })
def loopBad : State := onTeam (shaped (some loopRecord)) (fun t => { t with scratchPoison := [0x104 / 32] })
def loopResumed : State := onFrag (shaped (some loopRecord)) (fun f => { f with resume := 1 })
def loopPoisoned : State := bad (withEngine (shaped (some loopRecord)) (fun e => { e with index := some 4#6 })) 4#6 1#32
abbrev loopFaultOf (s : State) (start stop : Nat) : Option (Nat × Byte × Byte × Nat) :=
  loopFault (team0 s) (shapeOf loopRecord) (loopRows (at0 s) (s.engineOf (at0 s)) (shapeOf loopRecord)) start stop
theorem witness_MatrixLoops_faults (i : Instr) :
    (∀ s ∈ [loopFar, loopOut, loopBad, loopResumed, loopPoisoned], Issues s (at0 s) i .matrix ∧ engB s = true) ∧
    (let r := record 33#8 4#8 0#8 0#8 16#8 16#8;
      shapeInvalid r = false ∧ loopPoison (at0 loopFar) (loopFar.engineOf (at0 loopFar)) (loop 1#8) (shapeOf r) = 0#32 ∧ shapePair (shapeOf r) = true ∧
        (loopFar.engineOf (at0 loopFar)).index = some 63#6 ∧ 63 < (63#6).toNat + ((shapeOf r).m - 1) / 32) ∧
    loopPoison (at0 loopPoisoned) (loopPoisoned.engineOf (at0 loopPoisoned)) (loop 1#8) (shapeOf loopRecord) ≠ 0#32 ∧
    (∀ s ∈ [loopOut, loopBad, loopResumed], (teamOf s (at0 s)).isSome = true ∧
      loopPoison (at0 s) (s.engineOf (at0 s)) (loop 2#8) (shapeOf loopRecord) = 0#32) ∧
    ((at0 loopOut).f.resume = 0 ∧ loopFaultOf loopOut 0 2 = some (1, 0x21#8, 0x10#8, 0x118)) ∧
    loopFaultOf loopBad 0 2 = some (0, cEcc, 0x04#8, 0x100) ∧
    ((at0 loopResumed).f.resume = 1 ∧ loopFaultOf loopResumed 1 2 = none) := by
  refine ⟨?_, by decide +kernel⟩
  simp only [List.mem_cons, List.not_mem_nil, or_false, forall_eq_or_imp, forall_eq]
  exact ⟨⟨issues_of (by decide +kernel) i, by decide +kernel⟩, ⟨issues_of (by decide +kernel) i, by decide +kernel⟩,
    ⟨issues_of (by decide +kernel) i, by decide +kernel⟩, ⟨issues_of (by decide +kernel) i, by decide +kernel⟩, issues_of (by decide +kernel) i, by decide +kernel⟩

/-! ## Checks of an access -/

/-- The pages at 0x30000 to 0x70000 besides: without permissions, firmware's, in host bias, in transition, malformed. -/
def pages : State := { world with mem := tables ++
  [(0x93001A, 4#8), (0x93001F, 0xC2#8), (0x930022, 5#8), (0x930027, 0xFE#8), (0x93002A, 6#8), (0x93002E, 0x80#8), (0x93002F, 0xFA#8),
   (0x930032, 7#8), (0x930036, 0x40#8), (0x930037, 0xFA#8), (0x93003A, 8#8), (0x93003E, 0x30#8), (0x93003F, 0xFA#8)] }
def leafB (n : Nat) (f : Leaf → Bool) : Walk → Bool
  | .leaf l => f l && decide (l.base + l.size ≤ n) && decide (0 < l.size)
  | _ => false
theorem leaf_of {n : Nat} {f : Leaf → Bool} {w : Walk} (e : leafB n f w = true) : ∃ l, w = .leaf l ∧ f l = true ∧ l.base + l.size ≤ n ∧ 0 < l.size := by
  cases w with
  | leaf l => simp only [leafB, Bool.and_eq_true, decide_eq_true_eq] at e; exact ⟨l, rfl, e.1.1, e.1.2, e.2⟩
  | _ => exact absurd e (by simp [leafB])
def placeB (f : Place → Bool) : Place ⊕ Bool → Bool
  | .inl p => f p
  | .inr _ => false
theorem place_of {f : Place → Bool} {x : Place ⊕ Bool} (e : placeB f x = true) : ∃ p, x = .inl p ∧ f p = true := by
  cases x with
  | inl p => exact ⟨p, rfl, e⟩
  | inr _ => exact absurd e (by simp [placeB])
/-- What the permissions of a place come to for a kind of access: privilege, protection, host bias, transition. -/
def permits (spec : Bool) (acc : Access) (p : Place) : List Bool :=
  [(acc.writes && p.leaf.fw) || (spec && (acc.writes || acc == .freeze)),
   (acc.reads && !p.leaf.rp) || (acc.writes && !p.leaf.wp) || (acc == .fetch && !p.leaf.xp), p.leaf.bh, p.leaf.bt]
/-- A place whose permissions come to these, and more of it. -/
abbrev At (s : State) (va : DWord) (spec : Bool) (acc : Access) (want : List Bool) (f : Place → Bool) : Prop :=
  ∃ p, place s (ctx0 s) va = .inl p ∧ (permits spec acc p == want && f p) = true
abbrev thawing (s : State) : State := onCtx s (fun x => { x with regions := [(3, frozenBy .thawing 0)] })
/-- The bytes of a place before the j-th are frozen or not, and the j-th is the other. -/
def turns (s : State) (n j : Nat) (b : Bool) (p : Place) : Bool := (List.range j).all (fun i => s.isFrozen (p.pa + i) == b) && decide (j ≤ n) &&
  (j == n || s.isFrozen (p.pa + j) == !b)

theorem witness_AccessChecks_walk :
    (let e : DWord := 0xFA0000FFFFFF0000#64;
      e.toNat / 256 % 2 ^ 44 * 256 < 2 ^ 40 ∧ e.toNat / 256 % 2 ^ 44 * 256 % 65536 = 0 ∧ e.extractLsb' 52 2 ≠ 3#2) ∧
    (∀ va ∈ [0x10000, 0x2FFFF], ∃ l, walk world (ctx0 world) va = .leaf l ∧ (ctx0 world).bufferAt va = none ∧ l.base + l.size ≤ 2 ^ 51 ∧ 0 < l.size) ∧
    walk pages (ctx0 pages) (2 ^ 56 - 1) = .absent ∧ walk pages (ctx0 pages) 0x70000 = .malformed := by
  refine ⟨by decide +kernel, ?_, by decide +kernel⟩
  intro va hva
  have e : leafB (2 ^ 51) (fun _ => ((ctx0 world).bufferAt va).isNone) (walk world (ctx0 world) va) = true :=
    List.all_eq_true.mp (by decide +kernel : ([0x10000, 0x2FFFF].all fun va =>
      leafB (2 ^ 51) (fun _ => ((ctx0 world).bufferAt va).isNone) (walk world (ctx0 world) va)) = true) va hva
  obtain ⟨l, h1, h2, h3⟩ := leaf_of e
  exact ⟨l, h1, by simpa using h2, h3⟩
theorem witness_AccessChecks_permissions :
    At pages 0x40000#64 false .store [true, false, false, false] (fun _ => true) ∧ At pages 0x20000#64 true .freeze [true, false, false, false] (fun _ => true) ∧
    At pages 0x30000#64 false .load [false, true, false, false] (fun _ => true) ∧ At pages 0x50000#64 false .load [false, false, true, false] (fun _ => true) ∧
    At pages 0x60000#64 false .load [false, false, false, true] (fun _ => true) ∧ At pages 0x1FFFF#64 false .load [false, false, false, false] (fun _ => true) :=
  ⟨place_of (by decide +kernel), place_of (by decide +kernel), place_of (by decide +kernel), place_of (by decide +kernel), place_of (by decide +kernel),
    place_of (by decide +kernel)⟩
theorem witness_AccessChecks_frozen :
    At (frozen world) 0x2FFFC#64 false .load [false, false, false, false] (turns (frozen world) 4 4 true) ∧
    At (frozen world) 0x2FFFE#64 false .load [false, false, false, false] (turns (frozen world) 4 2 true) ∧
    At (frozen world) 0x1FFFE#64 false .store [false, false, false, false] (turns (frozen world) 4 2 false) ∧
    (((frozen world).frozenBy 0x30000).map fun e => (e.1, e.2.1)) = some (1, 3) ∧
    At (frozen world) 0x1FFFC#64 false .store [false, false, false, false] (fun p => turns (frozen world) 4 4 false p &&
      (List.range 4).all (fun j => (frozen world).thawsOver (p.pa + j) == [])) ∧
    At (thawing world) 0x2FFFF#64 false .store [false, false, false, false] (fun p => turns (thawing world) 1 1 false p &&
      (thawing world).thawsOver p.pa != []) :=
  ⟨place_of (by decide +kernel), place_of (by decide +kernel), place_of (by decide +kernel), by decide +kernel, place_of (by decide +kernel),
    place_of (by decide +kernel)⟩

/-- Lanes 16 to 31 of `half` lie past the page's end: 16 is the lane that reports. -/
theorem witness_AccessChecks_lane (i : Instr) :
    LaneReady .lane half (at0 half) i 0#3 (.regs 4#6 1) none none [.reg 1#6] true ∧ ((at0 half).exec 0#3).getLsbD 16 = true ∧
    check1 half (at0 half) .load .none 1 1 (lmAddr (at0 half) 1#6 5#4 0#2 none 16) = .bad 10 0x10#8 0#8 0x30000#64 0#64 :=
  ⟨lane_of (by decide +kernel) i, by decide +kernel, by decide +kernel⟩

/-! ## The host -/

/-- The state after a command's journal entry, its number, and whether its queue admits it. -/
def entryOf (s : State) (i : Instr) (h : CmdHdr) (code : Nat) (c : Option Nat) : Option (State × Nat) :=
  (appendEntry s c h.queue code h.hseq (argDigest i)).map (fun r => ({ r.1 with accepted := tablePut r.1.accepted h.queue h.hseq }, r.2))
def afterEntry (s : State) (i : Instr) (h : CmdHdr) (code : Nat) (c : Option Nat) : State := ((entryOf s i h code c).getD (s, 0)).1
def seqOf (s : State) (i : Instr) (h : CmdHdr) (code : Nat) (c : Option Nat) : Nat := ((entryOf s i h code c).getD (s, 0)).2
def admitB (s : State) (i : Instr) (h : CmdHdr) (code : Nat) (c : Option Nat) : Bool :=
  decide (commandOf i = some (h, code)) && cmdFits i && s.phase == .ready && decide (h.queue ≤ 131071) && h.hseq != 0 && queueOwner s h code == some c &&
    h.hseq == acceptedMax s h.queue + 1 && (s.journal c).entries.all (fun e => !(e.queue == h.queue && e.hseq == h.hseq)) && s.heldCmds.isEmpty && (entryOf s i h code c).isSome
theorem admitted_of {s : State} {i : Instr} {h : CmdHdr} {code : Nat} {c : Option Nat} (e : admitB s i h code c = true) :
    Admitted s i h code c (afterEntry s i h code c) (seqOf s i h code c) := by
  simp only [admitB, Bool.and_eq_true, decide_eq_true_eq, beq_iff_eq, bne_iff_ne, List.all_eq_true, Bool.not_eq_true', Bool.and_eq_false_iff,
    List.isEmpty_iff] at e
  obtain ⟨⟨⟨⟨⟨⟨⟨⟨⟨e1, e2⟩, e3⟩, e4⟩, e5⟩, e6⟩, e7⟩, e8⟩, e9⟩, e10⟩ := e
  obtain ⟨p, q⟩ := Option.isSome_iff_exists.mp e10
  refine ⟨e1, e2, e3, ⟨e4, e5⟩, e6, e7, fun x hx hq => ?_, e9, ?_⟩
  · have := e8 x hx; simp [hq] at this; exact this
  · simp only [entryOf] at q; simp [afterEntry, seqOf, entryOf, q]
/-- The one context has no command before it. -/
def idleB (s : State) : Bool :=
  match s.contexts with
  | [x] => x.id == 1 && x.running.isNone && x.backlog.isEmpty
  | _ => false
abbrev after (s : State) (i : Instr) (h : CmdHdr) (code : Nat) : State := afterEntry s i h code (some 1)
abbrev seqIn (s : State) (i : Instr) (h : CmdHdr) (code : Nat) : Nat := seqOf s i h code (some 1)
theorem idle_of {s : State} (e : idleB s = true) : (ctx0 s).id = 1 ∧ s.ctx? 1 = some (ctx0 s) ∧ (∀ y ∈ s.contexts, y = ctx0 s) ∧
    (ctx0 s).running = none ∧ (ctx0 s).backlog = [] := by
  unfold idleB at e
  split at e
  · rename_i x hx
    simp only [Bool.and_eq_true, beq_iff_eq, Option.isNone_iff_eq_none, List.isEmpty_iff] at e
    have c : s.ctx? 1 = some x := by simp [State.ctx?, hx, e.1.1]
    have d : ctx0 s = x := by simp [ctx0, c]
    rw [d]; exact ⟨e.1.1, c, by simp [hx], e.1.2, e.2⟩
  · exact absurd e (by simp)
theorem admittedIn_of {s : State} {i : Instr} {h : CmdHdr} {code : Nat} (e : admitB s i h code (some 1) = true)
    (f : idleB (after s i h code) = true) :
    AdmittedIn s i h code (after s i h code) (seqIn s i h code) (ctx0 (after s i h code)) := by
  obtain ⟨d, c, o, r⟩ := idle_of f
  exact ⟨by rw [d]; exact admitted_of e, by rw [d]; exact c, fun y hy _ => o y hy, r⟩

/-- The context's queue, its first command; the administrative queue; a read of the last mapped byte. -/
abbrev hdr : CmdHdr := ⟨16, 1, 1⟩
abbrev admin : CmdHdr := ⟨15, 1, 0⟩
abbrev aRead : Instr := .read hdr 0x2FFFF 1
/-- The context's journal and the last number its queue has accepted. -/
def noted (cap : Nat) (es : List JEntry) (n : Nat) : State := { onCtx world (fun x => { x with journal := ⟨cap, 7, es⟩ }) with accepted := [(16, n)] }
def aJEntry (st : JState) (digest hseq : Nat) : JEntry := ⟨6, 16, 5, st, 0, digest, hseq, 0, 0, 0, 0⟩
def inPhase (p : Phase) : State := { world with phase := p }
def headedB (i : Instr) (h : CmdHdr) : Bool := cmdFits i && decide (h.queue ≤ 131071) && h.hseq != 0
/-- A queue's owner, and the entry of a command's numbers. -/
def ownedBy (s : State) (h : CmdHdr) (code : Nat) (c : Option Nat) : Bool := queueOwner s h code == some c
def foundIn (s : State) (c : Option Nat) (h : CmdHdr) : Option JEntry := (s.journal c).entries.find? (fun e => e.queue == h.queue && e.hseq == h.hseq)

theorem witness_HostAdmission :
    commandOf aRead = some (hdr, 5) ∧ headedB aRead hdr = true ∧ world.heldCmds = [] ∧
    (inPhase .off).phase = .off ∧ headedB (.read ⟨131071, 1, 1⟩ 0 1) ⟨131071, 1, 1⟩ = true ∧ headedB (.read ⟨131072, 1, 1⟩ 0 1) ⟨131072, 1, 1⟩ = false ∧
    headedB (.read ⟨16, 0, 1⟩ 0 1) ⟨16, 0, 1⟩ = false ∧ headedB (.read hdr (2 ^ 64) 1) hdr = false ∧
    (inPhase .booting).phase = .booting ∧ (inPhase .failed).phase = .failed ∧ queueOwner world ⟨17, 1, 1⟩ 5 = none ∧ queueOwner world hdr 5 = some (some 1) ∧
    foundIn (noted 16 [aJEntry .done (argDigest aRead) 1] 1) (some 1) hdr = some (aJEntry .done (argDigest aRead) 1) ∧
    foundIn (noted 16 [aJEntry .done (argDigest aRead + 1) 1] 1) (some 1) hdr = some (aJEntry .done (argDigest aRead + 1) 1) ∧
    foundIn (noted 16 [] 1) (some 1) hdr = none ∧ hdr.hseq ≤ acceptedMax (noted 16 [] 1) 16 ∧
    foundIn world (some 1) ⟨16, 2, 1⟩ = none ∧ acceptedMax world 16 + 1 < 2 ∧
    foundIn (noted 1 [aJEntry .running 0 1] 1) (some 1) ⟨16, 2, 1⟩ = none ∧ 2 = acceptedMax (noted 1 [aJEntry .running 0 1] 1) 16 + 1 ∧
    ((noted 1 [aJEntry .running 0 1] 1).journal (some 1)).entries.length ≥ ((noted 1 [aJEntry .running 0 1] 1).journal (some 1)).capacity ∧
    (((noted 1 [aJEntry .running 0 1] 1).journal (some 1)).entries.head?.map fun e => e.state.final) = some false := by decide +kernel
theorem witness_HostAdmission_places : world.memOk ∧ (noted 1 [aJEntry .done 0 1] 1).memOk := ⟨mem_of (by decide +kernel), mem_of (by decide +kernel)⟩
theorem witness_HostAdmission_queues :
    (16 ≤ 16 ∧ (world.contexts.find? (fun x => decide (x.firstQueue ≤ 16) && decide (16 < x.firstQueue + x.queueCount))).isSome = true) ∧
    (∀ x ∈ world.contexts, 17 < x.firstQueue ∨ x.firstQueue + x.queueCount ≤ 17) ∧ (world.ctx? 1).isSome = true ∧
    ((noted 2 [aJEntry .running 0 1] 1).journal (some 1)).entries.length < ((noted 2 [aJEntry .running 0 1] 1).journal (some 1)).capacity ∧
    ∀ e, ((noted 1 [aJEntry .done 0 1] 1).journal (some 1)).entries.head? = some e → e.state.final = true :=
  ⟨by decide +kernel, by decide +kernel, by decide +kernel, by decide +kernel, fun e h => opt_all (p := fun e => e.state.final) (by decide +kernel) e h⟩
/-- A message with one field out of its place at a time: length 31, 2²⁰ + 65, flags, argument bytes, reserved, codes 0 and 20. -/
def msgWith (code flags len reserved : Nat) : List Byte := toLe code 2 ++ toLe flags 2 ++ toLe 16 4 ++ toLe 1 8 ++ toLe 1 4 ++ toLe len 4 ++ toLe reserved 8
theorem witness_HostAdmission_messages : world.phase ≠ .off ∧ (List.replicate 31 (0#8 : Byte)).length < 32 ∧
    2 ^ 20 + 64 < (List.replicate (2 ^ 20 + 65) (0#8 : Byte)).length ∧
    (let f (m : List Byte) (off n : Nat) : Nat := leNat ((m.drop off).take n);
      f (msgWith 5 1 0 0) 2 2 ≠ 0 ∧ f (msgWith 5 0 1 0) 0x14 4 ≠ (msgWith 5 0 1 0).length - 32 ∧ f (msgWith 5 0 0 1) 0x18 8 ≠ 0 ∧ f (msgWith 0 0 0 0) 0 2 = 0 ∧
        0x14 ≤ f (msgWith 0x14 0 0 0) 0 2 ∧ (msgWith 5 0 0 0).length = 32) := by
  refine ⟨by decide +kernel, by simp, by rw [List.length_replicate]; decide, by decide +kernel⟩
/-- The message of a command, written out from R414's header and R416's arguments, is that command's. -/
theorem test_message : messageOf (.read ⟨16, 0x102, 1⟩ 0x20304 0x10) =
    [5#8, 0#8, 0#8, 0#8, 16#8, 0#8, 0#8, 0#8, 2#8, 1#8, 0#8, 0#8, 0#8, 0#8, 0#8, 0#8, 1#8, 0#8, 0#8, 0#8, 12#8, 0#8, 0#8, 0#8, 0#8, 0#8, 0#8, 0#8,
      0#8, 0#8, 0#8, 0#8, 4#8, 3#8, 2#8, 0#8, 0#8, 0#8, 0#8, 0#8, 0x10#8, 0#8, 0#8, 0#8] := by decide +kernel

/-! ## Contexts and mappings -/

/-- Admitted to the context's queue, or by the administrative one, with the state and number that its entry gives. -/
abbrev InCtx (s : State) (i : Instr) (h : CmdHdr) (code : Nat) : Prop := AdmittedIn s i h code (after s i h code) (seqIn s i h code) (ctx0 (after s i h code))
abbrev ByAdmin (s : State) (i : Instr) (h : CmdHdr) (code : Nat) : Prop := Admitted s i h code none (afterEntry s i h code none) (seqOf s i h code none)
def inCtxB (s : State) (i : Instr) (h : CmdHdr) (code : Nat) : Bool := admitB s i h code (some 1) && idleB (after s i h code)
theorem inCtx_of {s : State} {i : Instr} {h : CmdHdr} {code : Nat} (e : inCtxB s i h code = true) : InCtx s i h code := by
  simp only [inCtxB, Bool.and_eq_true] at e; exact admittedIn_of e.1 e.2
/-- What holds of what a step of a command computes, where it computes something. -/
theorem opt_some {α : Type} {o : Option α} {p : α → Bool} (e : o.any p = true) : ∃ x, o = some x ∧ p x = true := by
  cases o with
  | none => exact absurd e (by simp)
  | some x => exact ⟨x, rfl, by simpa using e⟩

def ctxArgs : CtxArgs := ⟨17, 1, 7, 0, 0, 0, 4, 0, 10⟩
abbrev creating (s : State) : State := afterEntry s (.ctxCreate admin ctxArgs) admin 0x01 none
def areasOf (s : State) : Option (State × List Nat) :=
  let id := (s.contexts.map (fun x => x.id)).foldl max 0 + 1
  let r := takeMem s 65536 65536 id
  takeAreas (newContext id r.2 ctxArgs) (ctxAreas ctxArgs) r.1
/-- All but the last 64 KiB of local memory above 0xF000000000 given out. -/
def fullMem : State := { world with fwBlocks := [(0xF000000000, 2 ^ 40 - 0xF000000000 - 65536, 1)] }
/-- An accepted `LAUNCH` behind a command that waits, and no launch. -/
def launchesBehind : State := onCtx { world with launches := [] } (fun x => { x with backlog := [⟨.launch hdr 1 0 1 [], 1, 0, [], true⟩] })
theorem witness_HostMappings_contexts :
    ByAdmin world (.ctxCreate admin ctxArgs) admin 0x01 ∧ ByAdmin fullMem (.ctxCreate admin ctxArgs) admin 0x01 ∧ ctxArgsOk ctxArgs = true ∧
    (∀ x ∈ (creating world).contexts, x.firstQueue + x.queueCount ≤ 17 ∨ 17 + 1 ≤ x.firstQueue) ∧
    (∃ q, areasOf (creating world) = some q ∧ memFits q.1 = true) ∧ (∃ q, areasOf (creating fullMem) = some q ∧ (!memFits q.1) = true) ∧
    ByAdmin world (.ctxDestroy admin 1) admin 0x02 ∧ ByAdmin { world with launches := [] } (.ctxDestroy admin 1) admin 0x02 ∧
    ((afterEntry world (.ctxDestroy admin 1) admin 0x02 none).ctx? 1).isSome = true ∧
    (afterEntry world (.ctxDestroy admin 1) admin 0x02 none).launches.map (fun l => l.ctx) = [1] ∧
    (afterEntry { world with launches := [] } (.ctxDestroy admin 1) admin 0x02 none).launches = [] ∧
    ByAdmin launchesBehind (.ctxDestroy admin 1) admin 0x02 ∧ (afterEntry launchesBehind (.ctxDestroy admin 1) admin 0x02 none).launches = [] ∧
    ((afterEntry launchesBehind (.ctxDestroy admin 1) admin 0x02 none).ctx? 1).any
      (fun y => (y.running.toList ++ y.backlog).any (fun r => r.cmd == .launch hdr 1 0 1 [])) = true :=
  ⟨admitted_of (by decide +kernel), admitted_of (by decide +kernel), by decide +kernel, by decide +kernel, opt_some (by decide +kernel), opt_some (by decide +kernel),
    admitted_of (by decide +kernel), admitted_of (by decide +kernel), by decide +kernel, by decide +kernel, by decide +kernel,
    admitted_of (by decide +kernel), by decide +kernel, by decide +kernel⟩

/-- 64 KiB at an address, over the 64 KiB at 0x50000. -/
def mapArgs (va : Nat) : MapArgs := ⟨va, 0x50000, 65536, 65536, true, true, false, true, false, 0#2, 0#8⟩
def mappedB (s : State) (i : Instr) (a : MapArgs) (f : State → Bool) : Bool :=
  let s1 := after s i hdr 3
  mapArgsOk a && !mapTouchesFrozen s1 (ctx0 s1) a &&
    (mapPages (ctx0 s1) (mapBits a) a.pageSize (a.size / a.pageSize) a.va a.pa s1).any f
/-- None left. -/
def noMem : State := { world with fwBlocks := [(0xF000000000, 2 ^ 40 - 0xF000000000, 1)] }
theorem witness_HostMappings_maps :
    (let f : LeafBits := ⟨true, true, true, false, true, false, 0#2, 0#8⟩;
      f.sm ≠ 3#2 ∧ 0xFFFFFF0000 < 2 ^ 40 ∧ 0xFFFFFF0000 % 65536 = 0 ∧ 2 ^ 16 ∈ [2 ^ 16, 2 ^ 21, 2 ^ 30] ∧ 0xFFFFFF0000 % 2 ^ 16 = 0) ∧
    InCtx world (.map hdr (mapArgs 0x30000)) hdr 3 ∧ InCtx (frozen world) (.map hdr (mapArgs 0x20000)) hdr 3 ∧
    mappedB world (.map hdr (mapArgs 0x30000)) (mapArgs 0x30000) (fun s2 => memFits s2 &&
      rangesQuiet s2 (pageRanges (after world (.map hdr (mapArgs 0x30000)) hdr 3) (ctx0 (after world (.map hdr (mapArgs 0x30000)) hdr 3))
        (pagesOf (after world (.map hdr (mapArgs 0x30000)) hdr 3) (ctx0 (after world (.map hdr (mapArgs 0x30000)) hdr 3)) 0x30000 65536))) = true ∧
    mapTouchesFrozen (after (frozen world) (.map hdr (mapArgs 0x20000)) hdr 3) (ctx0 (after (frozen world) (.map hdr (mapArgs 0x20000)) hdr 3)) (mapArgs 0x20000) = true ∧
    mappedB noMem (.map hdr (mapArgs (2 ^ 43))) (mapArgs (2 ^ 43)) (fun s2 => !memFits s2) = true ∧ InCtx noMem (.map hdr (mapArgs (2 ^ 43))) hdr 3 :=
  ⟨by decide +kernel, inCtx_of (by decide +kernel), inCtx_of (by decide +kernel), by decide +kernel, by decide +kernel, by decide +kernel, inCtx_of (by decide +kernel)⟩

/-- The page at 0x30000 lies behind remote window 2047, and the window's bytes are frozen. -/
def windowed : State := onCtx { world with mem := tables ++ [(0x93001A, 2#8), (0x93001D, 0xFF#8), (0x93001E, 0x0F#8), (0x93001F, 0xFA#8)] } (fun x =>
  { x with windows := [(2047, 5#22)], regions := [(3, { frozenBy .active 1 with blocks := [remoteKey 5#22 0x20000] })] })
/-- The last 64 KiB of the window, at an address. -/
def remoteArgs (va : Nat) : MapArgs := { mapArgs va with pa := 2 ^ 51 + 2048 * 2 ^ 40 - 65536 }
abbrev remote (va n : Nat) (dev : BitVec 22) : Instr := .mapRemoteWindow hdr (remoteArgs va) ⟨n, dev⟩
/-- With the entry of the window written, the pages may be, at rest. -/
def remoteB (s1 : State) (va : Nat) (dev : BitVec 22) : Bool :=
  let x := ctx0 s1
  let x1 := { x with windows := tablePut x.windows 2047 dev }
  let a := remoteArgs va
  mapArgsOk a && !mapTouchesFrozen (s1.setCtx x1) x1 a && (mapPages x1 (mapBits a) a.pageSize (a.size / a.pageSize) a.va a.pa (s1.setCtx x1)).any
    (fun s2 => memFits s2 && rangesQuiet s2 (pageRanges s1 x (pagesOf s1 x a.va a.size)))
def windowFrozen (s : State) (n : Nat) : Bool :=
  (pagesOf s (ctx0 s) 0 (2 ^ 56)).any (fun p => throughWindow s p n && pageFrozen s (ctx0 s) p)
abbrev shadowMap : Instr := .mapShadow hdr (mapArgs 0x30000) 4095 0xFFFFFF0000
/-- Buffer 7 over the page at 0x20000. -/
def buffered : State := onCtx world (fun x => { x with buffers := [(7, ⟨0x20000, 65536, 0x30000, 0x60000, 0#32, false, 0, false⟩)] })
/-- Whole pages, without a frozen byte, at rest once cleared. -/
def wholeB (s : State) (va size : Nat) : Bool :=
  let ps := pagesOf s (ctx0 s) va size
  decide (0 < size ∧ va % 65536 = 0 ∧ size % 65536 = 0 ∧ va + size ≤ 2 ^ 56) && ps.all (fun p => decide (va ≤ p.va) && decide (p.va + p.size ≤ va + size))
def clearB (s : State) (va size : Nat) : Bool :=
  let ps := pagesOf s (ctx0 s) va size
  ps.all (fun p => !pageFrozen s (ctx0 s) p) && rangesQuiet (clearLeaves s ps) (pageRanges s (ctx0 s) ps)
theorem witness_HostMappings_options :
    InCtx buffered shadowMap hdr 3 ∧ mappedB buffered shadowMap (mapArgs 0x30000) memFits = true ∧
    (let s1 := after buffered shadowMap hdr 3;
      tableFind (ctx0 s1).buffers 4095 = none ∧ (∀ b ∈ (ctx0 s1).buffers, b.2.base + b.2.size ≤ 0x30000 ∨ 0x30000 + 65536 ≤ b.2.base) ∧
        0xFFFFFF0000 % 65536 = 0 ∧ 0xFFFFFF0000 + 65536 ≤ 2 ^ 40) ∧
    InCtx windowed (remote 0x40000 2047 5#22) hdr 3 ∧ InCtx windowed (remote 0x30000 2047 5#22) hdr 3 ∧
    InCtx windowed (remote 0x40000 2047 6#22) hdr 3 ∧ InCtx windowed (remote 0x40000 2048 5#22) hdr 3 ∧
    windowFrozen (after windowed (remote 0x40000 2047 6#22) hdr 3) 2047 = true ∧
    (let s1 := after windowed (remote 0x40000 2047 5#22) hdr 3;
      tableFind (ctx0 s1).windows 2047 = some 5#22 ∧ remoteB s1 0x40000 5#22 = true ∧ mapTouchesFrozen s1 (ctx0 s1) (remoteArgs 0x30000) = true ∧
      (2 ^ 51 + 2047 * 2 ^ 40 ≤ (remoteArgs 0).pa ∧ (remoteArgs 0).pa + 65536 ≤ 2 ^ 51 + 2048 * 2 ^ 40)) ∧
    InCtx world (.unmap hdr 0x20000 65536) hdr 4 ∧ InCtx (frozen world) (.unmap hdr 0x20000 65536) hdr 4 ∧
    (let s1 := after world (.unmap hdr 0x20000 65536) hdr 4; wholeB s1 0x20000 65536 && clearB s1 0x20000 65536) = true ∧
    (let s1 := after (frozen world) (.unmap hdr 0x20000 65536) hdr 4;
      wholeB s1 0x20000 65536 && (pagesOf s1 (ctx0 s1) 0x20000 65536).any (pageFrozen s1 (ctx0 s1))) = true ∧
    InCtx buffered (.unmapShadow hdr 0x20000 65536) hdr 4 ∧
    (let s1 := after buffered (.unmapShadow hdr 0x20000 65536) hdr 4;
      wholeB s1 0x20000 65536 && clearB s1 0x20000 65536 && (ctx0 s1).buffers.all (fun b => b.2.pending == 0 && !b.2.publishing)) = true :=
  ⟨inCtx_of (by decide +kernel), by decide +kernel, by decide +kernel, inCtx_of (by decide +kernel), inCtx_of (by decide +kernel),
    inCtx_of (by decide +kernel), inCtx_of (by decide +kernel), by decide +kernel, by decide +kernel,
    inCtx_of (by decide +kernel), inCtx_of (by decide +kernel), by decide +kernel, by decide +kernel,
    inCtx_of (by decide +kernel), by decide +kernel⟩

/-! ## Commands that move bytes and start work -/

/-- A task block at 0x30000, which 0x20000 reaches: module 1, block 0, grid 1; and one more byte of it. -/
def hostTask (more : List Host.Cell) : State := { world with mem := (0x30000, 1#8) :: (more.filter (fun c => decide (c.1 < 0x30008)) ++
  (0x30008, 1#8) :: more.filter (fun c => decide (0x30008 < c.1))) ++ tables }
abbrev submit : Instr := .taskSubmit hdr 0x20000
abbrev onTask (more : List Host.Cell) : State := after (hostTask more) submit hdr 9
/-- The checks of a task block that may be taken. -/
def blockB (more : List Host.Cell) (f : State → Bool) : Bool :=
  let s1 := onTask more
  f s1 && placeB (fun p => p.pa == 0x30000 && p.leaf.rp && p.leaf.wp && !p.leaf.fw && !p.leaf.bh && !p.leaf.bt && !s1.isFrozen p.pa && !s1.isThawing p.pa)
    (place s1 (ctx0 s1) 0x20000#64)
/-- The block is taken or not, its predecessors and its flag. -/
def fieldsB (taken : Bool) (preds spec : Nat) (s1 : State) : Bool :=
  (fwRead s1 0x3000C 1 == 0 && !taskMalformed s1 (ctx0 s1) 0x30000) == taken && fwRead s1 0x30004 4 == preds && fwRead s1 0x3000D 1 % 2 == spec
abbrev aWrite (va : Nat) : Instr := .write hdr va [1#8, 2#8]
abbrev aLaunch : Instr := .launch hdr 1 0 (2 ^ 32 - 1) [5#64]

theorem witness_HostWork_bytes :
    InCtx world aRead hdr 5 ∧ InCtx world (.read hdr 0x2FFFF 2) hdr 5 ∧ hostMapped (after world aRead hdr 5) (ctx0 (after world aRead hdr 5)) 0x2FFFF 1 = true ∧
    hostMapped (after world (.read hdr 0x2FFFF 2) hdr 5) (ctx0 (after world (.read hdr 0x2FFFF 2) hdr 5)) 0x2FFFF 2 = false ∧
    InCtx world (aWrite 0x2FFFE) hdr 6 ∧ InCtx (frozen world) (aWrite 0x1FFFF) hdr 6 ∧ (after world (aWrite 0x2FFFE) hdr 6).memOk ∧
    (after (frozen world) (aWrite 0x1FFFF) hdr 6).memOk ∧
    (let s1 := after world (aWrite 0x2FFFE) hdr 6;
      hostMapped s1 (ctx0 s1) 0x2FFFE 2 = true ∧ (∀ a ∈ hostAddrs s1 (ctx0 s1) 0x2FFFE 2, s1.isFrozen a = false ∧ s1.isThawing a = false) ∧
        (hostAddrs s1 (ctx0 s1) 0x2FFFE 2).Nodup ∧ s1.grants.all (fun g => !s1.stands g) = true ∧ s1.writes.isEmpty = true) ∧
    (let s1 := after (frozen world) (aWrite 0x1FFFF) hdr 6;
      hostMapped s1 (ctx0 s1) 0x1FFFF 2 = true ∧ ∃ a ∈ hostAddrs s1 (ctx0 s1) 0x1FFFF 2, s1.isFrozen a = true) :=
  ⟨inCtx_of (by decide +kernel), inCtx_of (by decide +kernel), by decide +kernel, by decide +kernel, inCtx_of (by decide +kernel), inCtx_of (by decide +kernel),
    mem_of (by decide +kernel), mem_of (by decide +kernel), by decide +kernel, by decide +kernel⟩
theorem witness_HostWork_launch :
    InCtx world aLaunch hdr 8 ∧ (kernelOf (after world aLaunch hdr 8) (ctx0 (after world aLaunch hdr 8)).id 1 0).isSome = true ∧
    (List.replicate 16 0#64).length ≤ 16 ∧ InCtx world (.preemptRequest hdr) hdr 0x0A ∧ (ctx0 (after world (.preemptRequest hdr) hdr 0x0A)).preempt = false ∧
    InCtx world (.preemptHalt hdr) hdr 0x0A ∧ InCtx world (.preemptResumeHalt hdr) hdr 0x0A ∧ InCtx world (.preemptResumePark hdr) hdr 0x0A ∧
    ((after world (.preemptHalt hdr) hdr 0x0A).at? ⟨0, 0, 0⟩).any (fun g => g.g.ctx == 1 && g.f.status != .exited && g.f.slices != 0#8) = true :=
  ⟨inCtx_of (by decide +kernel), by decide +kernel, by decide, inCtx_of (by decide +kernel), by decide +kernel, inCtx_of (by decide +kernel), inCtx_of (by decide +kernel),
    inCtx_of (by decide +kernel), by decide +kernel⟩
theorem witness_HostWork_tasks :
    InCtx (hostTask []) submit hdr 9 ∧ InCtx (hostTask [(0x3000C, 1#8)]) submit hdr 9 ∧ InCtx (hostTask [(0x30004, 1#8)]) submit hdr 9 ∧
    InCtx (hostTask [(0x30004, 1#8), (0x3000D, 1#8)]) submit hdr 9 ∧ (onTask []).memOk ∧ (onTask [(0x30004, 1#8), (0x3000D, 1#8)]).memOk ∧
    blockB [] (fieldsB true 0 0) = true ∧ blockB [(0x3000C, 1#8)] (fieldsB false 0 0) = true ∧ blockB [(0x30004, 1#8)] (fieldsB true 1 0) = true ∧
    blockB [(0x30004, 1#8), (0x3000D, 1#8)] (fieldsB true 1 1) = true :=
  ⟨inCtx_of (by decide +kernel), inCtx_of (by decide +kernel), inCtx_of (by decide +kernel), inCtx_of (by decide +kernel), mem_of (by decide +kernel),
    mem_of (by decide +kernel), by decide +kernel, by decide +kernel, by decide +kernel, by decide +kernel⟩

/-- A module whose `.text` is one `NOP`, with its name "a" and no symbols, signed (R108 to R112). -/
def aModule : List Byte :=
  [68#8, 82#8, 86#8, 79#8, 1#8, 0#8, 64#8, 0#8, 1#8, 0#8, 0#8, 0#8, 3#8, 0#8, 32#8, 0#8, 64#8, 0#8, 0#8, 0#8, 0#8, 0#8, 0#8, 0#8, 0#8, 0#8, 0#8, 0#8,
    0#8, 0#8, 0#8, 0#8, 184#8, 0#8, 0#8, 0#8, 0#8, 0#8, 0#8, 0#8, 0#8, 0#8, 0#8, 0#8, 0#8, 0#8, 0#8, 0#8, 0#8, 0#8, 0#8, 0#8, 0#8, 0#8, 0#8, 0#8, 0#8,
    0#8, 0#8, 0#8, 0#8, 0#8, 0#8, 0#8] ++
  [1#8, 3#8, 2#8, 0#8, 0#8, 0#8, 0#8, 0#8, 160#8, 0#8, 0#8, 0#8, 0#8, 0#8, 0#8, 0#8, 4#8, 0#8, 0#8, 0#8, 0#8, 0#8, 0#8, 0#8, 0#8, 0#8, 0#8, 0#8, 0#8,
    0#8, 0#8, 0#8, 11#8, 0#8, 3#8, 0#8, 0#8, 0#8, 0#8, 0#8, 168#8, 0#8, 0#8, 0#8, 0#8, 0#8, 0#8, 0#8, 10#8, 0#8, 0#8, 0#8, 0#8, 0#8, 0#8, 0#8, 0#8,
    0#8, 0#8, 0#8, 0#8, 0#8, 0#8, 0#8, 12#8, 0#8, 3#8, 0#8, 0#8, 0#8, 0#8, 0#8, 184#8, 0#8, 0#8, 0#8, 0#8, 0#8, 0#8, 0#8, 160#8, 0#8, 0#8, 0#8, 0#8,
    0#8, 0#8, 0#8, 0#8, 0#8, 0#8, 0#8, 0#8, 0#8, 0#8, 0#8] ++
  [0#8, 0#8, 0#8, 151#8, 0#8, 0#8, 0#8, 0#8, 0#8, 0#8, 0#8, 0#8, 8#8, 0#8, 0#8, 0#8, 97#8, 0#8, 0#8, 0#8, 0#8, 0#8, 0#8, 0#8, 83#8, 73#8, 71#8, 49#8,
    1#8, 0#8, 0#8, 0#8, 77#8, 81#8, 163#8, 29#8, 244#8, 99#8, 81#8, 110#8, 219#8, 173#8, 213#8, 247#8, 85#8, 74#8, 107#8, 114#8, 0#8, 23#8, 207#8,
    100#8, 5#8, 160#8, 79#8, 136#8, 80#8, 73#8, 204#8, 32#8, 180#8, 30#8, 131#8, 39#8, 231#8, 154#8, 50#8, 233#8, 172#8, 85#8, 213#8, 81#8, 230#8,
    53#8, 103#8, 165#8, 171#8, 17#8, 137#8, 9#8, 254#8, 98#8, 113#8, 182#8, 189#8, 23#8, 200#8, 9#8] ++
  [250#8, 128#8, 112#8, 60#8, 164#8, 159#8, 49#8, 44#8, 188#8, 86#8, 183#8, 194#8, 212#8, 101#8, 136#8, 65#8, 227#8, 63#8, 163#8, 101#8, 191#8, 119#8,
    200#8, 159#8, 50#8, 214#8, 0#8, 140#8, 81#8, 103#8, 246#8, 188#8, 3#8, 40#8, 94#8, 147#8, 19#8, 1#8, 171#8, 126#8, 70#8, 184#8, 233#8, 118#8,
    179#8, 235#8, 93#8, 248#8, 248#8, 205#8, 147#8, 14#8, 125#8, 79#8, 64#8, 93#8, 28#8, 130#8, 180#8, 13#8, 141#8, 252#8, 79#8, 103#8, 134#8, 53#8,
    151#8, 106#8, 25#8, 162#8, 50#8, 156#8, 121#8, 171#8, 83#8, 17#8, 29#8, 120#8, 116#8, 186#8, 188#8, 91#8, 133#8, 228#8, 160#8, 214#8, 192#8,
    131#8, 86#8, 193#8, 142#8, 255#8, 0#8, 0#8, 0#8, 0#8]
/-- The file stands at 0x20000, and `.text` goes to 0x10000. -/
def filed : State := { world with mem := (aModule.zipIdx.filterMap (fun b => if b.1 = 0#8 then none else some (0x30000 + b.2, b.1))) ++ tables }
abbrev aLoad : Instr := .moduleLoad hdr 0x20000 344 [(1, 0x10000)]
abbrev loaded : State := after filed aLoad hdr 7
/-- Which keys the fuses hold is the package's (`Config.moduleKey`), so that the signature's check is a hypothesis here. -/
theorem aModule_parses (e : signatureOk aModule = true) (text : Nat) : parseModule aModule text = some ⟨[], [], [], [], []⟩ := by
  have h1 : headerOk aModule = true := by decide +kernel
  have h2 : (nameAt aModule (fileNat aModule 0x18 4)).isNone = false := by decide +kernel
  have h3 : leapsOf aModule = some [] := by decide +kernel
  have h4 : recordsOf aModule 5 128 = [] ∧ recordsOf aModule 6 16 = [] ∧ recordsOf aModule 8 32 = [] ∧ recordsOf aModule 9 80 = [] ∧ recordsOf aModule 10 16 = [] := by
    decide +kernel
  have h5 : stringsOk aModule = true ∧ symCount aModule = 0 ∧ globalsDistinct aModule = true := by decide +kernel
  simp [parseModule, e, h1, h2, h3, h4, h5, allSome]
theorem witness_HostWork_module (e : signatureOk aModule = true) :
    InCtx world (.moduleLoad hdr 0x20000 0 []) hdr 7 ∧ hostMapped (after world (.moduleLoad hdr 0x20000 0 []) hdr 7)
      (ctx0 (after world (.moduleLoad hdr 0x20000 0 []) hdr 7)) 0x20000 0 = true ∧ (parseModule [] 0).isNone = true ∧
    InCtx filed aLoad hdr 7 ∧ hostMapped loaded (ctx0 loaded) 0x20000 344 = true ∧ hostBytes loaded (ctx0 loaded) 0x20000 344 = aModule ∧
    parseModule aModule 0x10000 = some ⟨[], [], [], [], []⟩ ∧
    (∃ ps, allSome (placements aModule [(1, 0x10000)]) = some ps ∧ (ps.all (fun p => hostMapped loaded (ctx0 loaded) p.1 p.2.length &&
      (hostAddrs loaded (ctx0 loaded) p.1 p.2.length).all (fun a => !loaded.isFrozen a && !loaded.isThawing a))) = true) ∧
    (relocateAll aModule [(1, 0x10000)] (ctx0 loaded) (recordsOf aModule 10 16) loaded).2 = true ∧
    linesBusy loaded (placedLines loaded (ctx0 loaded) aModule [(1, 0x10000)]) = false ∧
    (∃ r, registerModule loaded 1 ⟨[], [], [], [], []⟩ = some r ∧ memFits r.1 = true) :=
  ⟨inCtx_of (by decide +kernel), by decide +kernel, by decide +kernel, inCtx_of (by decide +kernel), by decide +kernel, by decide +kernel, aModule_parses e _,
    opt_some (by decide +kernel), by decide +kernel, by decide +kernel, opt_some (by decide +kernel)⟩

/-! ## Commands that read and report -/

/-- Leap slot 255 holds identity 5. -/
def slotted : State := onCtx { world with mem := (0x100000, 5#8) :: tables } (fun x => { x with leapArea := 0x1000 })
abbrev aLeapWrite : Instr := .leapWrite hdr 5#128 ⟨3#8, 4#8, 0#8, 0x1000#64, 0x2000#64, 100#32, 1#32⟩ [7#8]
/-- The slot of an identity in the state of a command's entry. -/
def slotIn (s : State) (i : Instr) (code : Nat) (id : BitVec 128) : Option Nat :=
  let s1 := after s i hdr code
  findSlot s1 (ctx0 s1) id
/-- Buffer 7 with a publish pending. -/
def pendingBuf : State := onCtx buffered (fun x => { x with buffers := x.buffers.map (fun b => (b.1, { b.2 with pending := 1 })) })
abbrev aBias (host : Bool) : Instr := .biasSet hdr 0x20000 65536 host
/-- The range is mapped, to whole pages that hold a frozen byte or none, and a publish in it is pending or not. -/
def biasB (s : State) (host frozen pending : Bool) : Bool :=
  let s1 := after s (aBias host) hdr 0x11
  let ps := pagesOf s1 (ctx0 s1) 0x20000 65536
  hostMapped s1 (ctx0 s1) 0x20000 65536 && ps.all (fun p => decide (0x20000 ≤ p.va) && decide (p.va + p.size ≤ 0x20000 + 65536)) &&
    ps.any (pageFrozen s1 (ctx0 s1)) == frozen && publishPending (ctx0 s1) 0x20000 0x30000 == pending

/-- An entry over the page at 0x20000 that is not at its freeze point; a `FRZ` of the page that waits with its checks past. -/
def entryAt (st : FreezeState) : State := onCtx world (fun x => { x with regions := [(3, frozenBy st 1)] })
def freezeWaits : State := onFrag world (fun f => { f with
  status := .waiting .suspended, issued := some (.frz 20#6 10#6 12#6 false false), passed := [⟨0x20000#64, 1, ⟨0x30000, (⟨0x30000, 65536, true, true, true, false, true, false, false, false, 0#2, 0#8⟩ : Leaf)⟩⟩] })
theorem witness_HostReports_reads :
    InCtx world (.journalRead hdr 1 16384) hdr 0x0B ∧ InCtx slotted (.leapRead hdr 5#128) hdr 0x0C ∧ InCtx slotted (.leapRead hdr 6#128) hdr 0x0C ∧
    (after slotted (.leapRead hdr 5#128) hdr 0x0C).memOk ∧
    slotIn slotted (.leapRead hdr 5#128) 0x0C 5#128 = some 255 ∧ slotIn slotted (.leapRead hdr 6#128) 0x0C 6#128 = none ∧
    InCtx slotted aLeapWrite hdr 0x0D ∧ slotIn slotted aLeapWrite 0x0D 5#128 = some 255 ∧ (List.replicate 3008 (7#8 : Byte)).length ≤ 3008 :=
  ⟨inCtx_of (by decide +kernel), inCtx_of (by decide +kernel), inCtx_of (by decide +kernel), mem_of (by decide +kernel), by decide +kernel, by decide +kernel,
    inCtx_of (by decide +kernel), by decide +kernel, (List.length_replicate ..).le⟩
theorem witness_HostReports_slots :
    (∀ p : Bool, InCtx slotted (if p then .leapPin hdr 5#128 else .leapUnpin hdr 5#128) hdr 0x0E) ∧
    ([true, false].all fun p => slotIn slotted (if p then .leapPin hdr 5#128 else .leapUnpin hdr 5#128) 0x0E 5#128 == some 255) = true ∧
    InCtx slotted (.leapPin hdr 6#128) hdr 0x0E ∧ slotIn slotted (.leapPin hdr 6#128) 0x0E 6#128 = none ∧
    InCtx slotted (.leapDiscard hdr 5#128) hdr 0x0F ∧ slotIn slotted (.leapDiscard hdr 5#128) 0x0F 5#128 = some 255 ∧
    InCtx slotted (.leapDiscard hdr 6#128) hdr 0x0F ∧ slotIn slotted (.leapDiscard hdr 6#128) 0x0F 6#128 = none :=
  ⟨fun p => inCtx_of (by cases p <;> decide +kernel), by decide +kernel,
    inCtx_of (by decide +kernel), by decide +kernel, inCtx_of (by decide +kernel), by decide +kernel, inCtx_of (by decide +kernel), by decide +kernel⟩
theorem witness_HostReports_bias :
    InCtx world (aBias false) hdr 0x11 ∧ InCtx world (aBias true) hdr 0x11 ∧ InCtx (frozen world) (aBias true) hdr 0x11 ∧ InCtx pendingBuf (aBias true) hdr 0x11 ∧
    biasB world false false false = true ∧ biasB world true false false = true ∧ biasB (frozen world) true true false = true ∧
    biasB pendingBuf true false true = true ∧
    (let waits (s : State) : Bool := let s1 := after s (aBias true) hdr 0x11;
        (pagesOf s1 (ctx0 s1) 0x20000 65536).any (fun p => pageInstalling s1 (ctx0 s1) p || freezeChecked s1 (ctx0 s1) p);
      waits world = false ∧ biasB (entryAt .installing) true false false = true ∧ waits (entryAt .installing) = true ∧
        biasB freezeWaits true false false = true ∧ waits freezeWaits = true) ∧
    InCtx (entryAt .installing) (aBias true) hdr 0x11 ∧ InCtx freezeWaits (aBias true) hdr 0x11 ∧
    (let s1 := after world (aBias true) hdr 0x11; ((beginBias s1 1 (pagesOf s1 (ctx0 s1) 0x20000 65536)).ctx? 1).isSome = true) ∧
    InCtx world (.fwInfo ⟨hdr, 0⟩) hdr 0x13 ∧ InCtx world (.fwInfo ⟨hdr, 1⟩) hdr 0x13 ∧ InCtx world (.fwInfo ⟨hdr, 2⟩) hdr 0x13 ∧
    (ctx0 (after world (.fwInfo ⟨hdr, 1⟩) hdr 0x13)).id = 1 :=
  ⟨inCtx_of (by decide +kernel), inCtx_of (by decide +kernel), inCtx_of (by decide +kernel), inCtx_of (by decide +kernel), by decide +kernel, by decide +kernel,
    by decide +kernel, by decide +kernel, by decide +kernel, inCtx_of (by decide +kernel), inCtx_of (by decide +kernel), by decide +kernel,
    inCtx_of (by decide +kernel), inCtx_of (by decide +kernel), inCtx_of (by decide +kernel), by decide +kernel⟩
def leaseOk (v : DWord) : Bool :=
  decide (v.toNat / 2 ^ 32 % 2 ^ 20 ≤ 1000000) && decide (v.toNat % 2 ^ 20 ≤ 1000000) && decide (v.toNat / 2 ^ 20 % 2 ^ 12 = 0) && decide (v.toNat / 2 ^ 52 = 0)
theorem witness_HostReports_admin :
    ByAdmin world (.journalRead admin 0 16384) admin 0x0B ∧ ByAdmin world (.setLease admin (1000000 * 2 ^ 32 + 1000000)) admin 0x10 ∧
    ByAdmin world (.setLease admin 1000001) admin 0x10 ∧ leaseOk (1000000 * 2 ^ 32 + 1000000) = true ∧
    [(1000001 : DWord), 1000001 * 2 ^ 32, 2 ^ 20, 2 ^ 31, 2 ^ 52].all (fun v => !leaseOk v) = true ∧ ByAdmin world (.attest admin 7#256) admin 0x12 ∧
    ByAdmin world (.fwInfo ⟨admin, 0⟩) admin 0x13 ∧ ByAdmin world (.fwInfo ⟨admin, 1⟩) admin 0x13 ∧ ByAdmin world (.fwInfo ⟨admin, 2⟩) admin 0x13 ∧
    ((afterEntry world (.fwInfo ⟨admin, 1⟩) admin 0x13 none).ctx? 1).isSome = true ∧ (afterEntry world (.fwInfo ⟨admin, 2⟩) admin 0x13 none).ctx? 2 = none :=
  ⟨admitted_of (by decide +kernel), admitted_of (by decide +kernel), admitted_of (by decide +kernel), by decide +kernel, by decide +kernel, admitted_of (by decide +kernel),
    admitted_of (by decide +kernel), admitted_of (by decide +kernel), admitted_of (by decide +kernel), by decide +kernel, by decide +kernel⟩

/-! ## Events -/

def waiting (w : Wait) (s : State) : State := onFrag s (fun f => { f with status := .waiting w })
/-- Two results on their way to the first fragment, which waits for one. -/
def arriving : State := waiting .result (onFrag world (fun f => { f with pending := [⟨3, [⟨4#6, Lanes.all 7#32, 0xFFFFFFFF#32, 0#32, false, false, false, true⟩], [], 0#32, 0#32, none, 0#5⟩,
  ⟨2, [⟨5#6, Lanes.all 7#32, 0xFFFFFFFF#32, 0#32, false, false, false, true⟩], [], 0#32, 0#32, none, 0#5⟩] }))
theorem witness_MemoryEvents_results :
    (arriving.at? ⟨0, 0, 0⟩).any (fun h => h.f.status == .waiting .result && h.f.pending.length == 2) = true := by decide +kernel

/-- Copy 9 of the team: 4 bytes and the last byte of the page. -/
def copyOf (out : Bool) : Copy :=
  { id := 9, core := 0, group := 3, team := 2, ctx := 1, launch := 1, out := out, pieces := if out then [⟨0, 0x30000, 4⟩, ⟨0x100, 0x3FFFF, 1⟩] else [⟨0x30000, 0, 4⟩, ⟨0x3FFFF, 0xFFFF, 1⟩]
    batch := some 1#32, stage := none, buffer := none, written := none, captured := none }
def copyBy (out : Bool) (s : State) : State := { s with copies := [copyOf out] }
def copyB (out thaws : Bool) (s : State) : Bool :=
  (s.copies.find? (fun x => x.id == 9) == some (copyOf out)) && decide (((copyOf out).pieces.flatMap (fun p => (List.range p.len).map (fun j => p.dst + j))).Nodup) &&
  (copyOf out).pieces.any (fun p => (List.range p.len).any (fun j => s.isThawing (p.dst + j))) == thaws && s.grants.all (fun g => !s.stands g) && (s.team? 2).isSome
theorem witness_MemoryEvents_copies :
    (copyBy false world).memOk ∧ (copyBy true world).memOk ∧ (copyBy true (thawing world)).memOk ∧
    copyB false false (copyBy false world) = true ∧ copyB true false (copyBy true world) = true ∧ copyB true true (copyBy true (thawing world)) = true :=
  ⟨mem_of (by decide +kernel), mem_of (by decide +kernel), mem_of (by decide +kernel), by decide +kernel, by decide +kernel, by decide +kernel⟩

/-- A freeze entry's state and holders: entry 1,023, over the page at 0x20000. -/
def entry1023 (st : FreezeState) (holders : List (Nat × Nat)) (s : State) : State :=
  onCtx s (fun x => { x with regions := [(1023, { frozenBy st 1 with holders := holders, blocks := if st = .installing then [] else (frozenBy st 1).blocks })] })
def entryIs (st : FreezeState) (s : State) : Bool := decide (((ctx0 s).entry 1023).state = st) && (ctx0 s).id == 1 && (s.ctx? 1).isSome
/-- An expiry is over with its guard, or not. -/
def overAt (s : State) (agent e : Nat) : Bool := decide (e + Config.guardNs ≤ s.agentTime agent)
def at10000 : State := { world with now := 10000 }
theorem witness_MemoryEvents_freezing :
    entryIs .installing (entry1023 .installing [] pendingBuf) = true ∧
    publishPending (ctx0 (entry1023 .installing [] pendingBuf)) 0x20000 (0x20000 + 4096 * 16) = true ∧
    (let s := waiting (.freeze 1023) (entry1023 .installing [] world);
      entryIs .installing s = true ∧ publishPending (ctx0 s) 0x20000 0x30000 = false ∧ s.redgs = [] ∧ s.copies = [] ∧ s.grants = [] ∧ s.writes = [] ∧
        accessPending s (inBlocks (rangeBlocks s (ctx0 s) 0x20000 0x30000)) = false ∧ (at0 s).f.status = .waiting (.freeze 1023)) ∧
    (waiting (.freeze 1023) (entry1023 .installing [] world)).memOk ∧
    (entryIs .thawing (entry1023 .thawing [(511, 20000), (1024 * 256, 10000 - Config.guardNs)] at10000) &&
      overAt (entry1023 .thawing [] at10000) 0 (10000 - Config.guardNs) && decide (511 / 1024 < 256)) = true ∧
    (entryIs .thawing (entry1023 .thawing [(1024 * 256, 10001 - Config.guardNs)] at10000) && !overAt (entry1023 .thawing [] at10000) 0 (10001 - Config.guardNs)) = true :=
  ⟨by decide +kernel, by decide +kernel, by decide +kernel, mem_of (by decide +kernel), by decide +kernel, by decide +kernel⟩

/-- A write of line 0x600 outstanding until an expiry, with a grant on the line or none. -/
def written (emax : Nat) (grants : List Grant) : State := { at10000 with writes := [⟨4, 0, 3, 1, 0x600, emax, 0, false⟩], grants := grants }
def dueB (s : State) : Bool := s.writes.any (fun w => w.id == 4 && (overAt s w.home w.emax || s.grants.all (fun g => g.line != w.line)))
/-- The first fragment waits for its publish of buffer 7, begun or not; a promotion of line 0x600 from core 255 that it waits for. -/
def publishing (begun : Bool) : State := waiting (.publish 7 .die begun) (onCtx buffered (fun x => { x with buffers := x.buffers.map (fun b => (b.1, { b.2 with pending := 1, publishing := begun })) }))
def publishBusy : State := { publishing true with copies := [⟨9, 0, 3, 2, 1, 1, true, [⟨0, 0x980000, 4⟩], some 1#32, none, some 7, none, none⟩] }
theorem witness_MemoryEvents_publish : (publishBusy.at? ⟨0, 0, 0⟩).any (fun h => h.r == ⟨0, 0, 0⟩ && h.f.status == .waiting (.publish 7 .die true) && h.g.ctx == 1) = true ∧
    (tableFind (ctx0 publishBusy).buffers 7).any (fun b => !b.stopped) = true ∧ publishBusy.copies.any (fun c => c.ctx == 1 && c.buffer == some 7) = true ∧
    (publishBusy.ctx? 1).isSome = true := by decide +kernel
/-- The device writes over a frozen byte. -/
theorem test_kept : (let s := fwWrite (frozen world) 0x2FFFF [5#8, 6#8]; [0x2FFFF, 0x30000].map (fun a => (homeByte s a, rawByte s a))) =
    [(5#8, 5#8), (0#8, 6#8)] := by decide +kernel
def promoting : State := { waiting (.promote 5) world with promotions := [⟨5, 255, 0x600⟩] }
/-- Core 255 holds a dirty byte and a clean one of line 0x600. -/
def cached : State := world.setCore 255 { world.core 255 with l1 := [(0x30000, .dirty 9#8), (0x3007F, .clean 8#8 none)] }
theorem witness_MemoryEvents_writes :
    dueB (written (10000 - Config.guardNs) [⟨0x600, 0, 255, 20000⟩]) = true ∧ dueB (written 20000 []) = true ∧ dueB (written (10001 - Config.guardNs) [⟨0x600, 0, 255, 20000⟩]) = false ∧
    (∀ b : Bool, (publishing b).memOk) ∧
    ([true, false].all fun b => ((publishing b).at? ⟨0, 0, 0⟩).any (fun h => h.r == ⟨0, 0, 0⟩ && h.f.status == .waiting (.publish 7 .die b) && h.g.ctx == 1) &&
      (tableFind (ctx0 (publishing b)).buffers 7).any (fun x => x.publishing == b) && (publishing b).copies.isEmpty && (publishing b).grants.isEmpty &&
      (publishing b).writes.isEmpty && (publishing b).redgs.isEmpty && ((publishing b).core 0).engine.runs.isEmpty && !aheadPending (publishing b) (inRange 0x30000 65536)) = true ∧
    promoting.memOk ∧ (promoting.promotions.any (fun p => p.n == 5) && promoting.writes.isEmpty && promoting.grants.isEmpty &&
      ((promoting.at? ⟨0, 0, 0⟩).any (fun h => h.f.status == .waiting (.promote 5)))) = true ∧
    cached.memOk ∧ ((cached.core 255).l1.any (fun e => e.1 / 128 == 0x600 && e.2 == .dirty 9#8)) = true ∧ ((cached.core 0).l1.all (fun e => e.1 / 128 != 0x600)) = true :=
  ⟨by decide +kernel, by decide +kernel, by decide +kernel, fun b => mem_of (by cases b <;> decide +kernel), by decide +kernel, mem_of (by decide +kernel),
    by decide +kernel, mem_of (by decide +kernel), by decide +kernel, by decide +kernel⟩

/-- A race on the last byte of a page that a program can write, where none is mapped, and on a frozen byte; a core with a dirty byte of
the line and of another. -/
def cachedTwice : State := world.setCore 255 { world.core 255 with l1 := [(0x30000, .dirty 9#8), (0x3007F, .clean 8#8 none), (0x30080, .dirty 7#8)] }
theorem witness_MemoryEvents_races : world.memOk ∧ (frozen world).memOk ∧ racedByte world 1 0x2FFFF#64 false = some 0x3FFFF ∧
    racedByte world 1 0x30000#64 false = none ∧ racedByte (frozen world) 1 0x20000#64 false = none ∧ cachedTwice.memOk ∧
    ((cachedTwice.core 255).l1.any (fun e => e.1 / 128 == 0x600 && e.2 == .dirty 9#8)) = true ∧ unregistered cachedTwice 255 ≠ [] ∧
    ((cachedTwice.core 255).l1.all (fun e => e.1 / 128 != 0x602)) = true ∧
    (world.lease.toNat % 2 ^ 20 ≠ 0 ∧ world.lease.toNat / 2 ^ 32 % 2 ^ 20 ≠ 0 ∧ (∀ x ∈ world.contexts, x.regions = []) ∧ world.writing 0x600 = false ∧
      world.grantsStopped 0x600 = false) :=
  ⟨mem_of (by decide +kernel), mem_of (by decide +kernel), by decide +kernel, by decide +kernel, by decide +kernel, mem_of (by decide +kernel), by decide +kernel⟩

/-- The page at 0x20000 in transition to host bias. -/
def biasing : State := { world with
  mem := tables.filter (fun c => decide (c.1 < 0x930017)) ++ [(0x930016, 0x40#8), (0x930017, 0xFA#8)]
  contexts := world.contexts.map (fun x => { x with bias := [⟨0x20000, 65536⟩] }) }
/-- A line fetch, of a lane load or of the leap group of the launch, whose window ends with the line. -/
def windowImage : LeapImage := ⟨0, 0#8, 0#64, 0x80#64, 128, []⟩
def lineFetching (leap : Bool) : State :=
  { onCore world (fun k => { k with fetches := [⟨7, 3, 1, 1, leap, 0x20000#64, .line 0x20000 0x20080⟩] }) with launches := world.launches.map (fun l => { l with id := 1, image := some windowImage }) }
theorem witness_MemoryEvents_others :
    biasing.memOk ∧ (∃ p, biasPage biasing (ctx0 biasing) 0x20000 = some p ∧ ((pagePlace biasing (ctx0 biasing) p).isSome &&
      !accessPending biasing (inRange 0x30000 p.size) && biasing.writes.isEmpty && biasing.grants.isEmpty && biasing.copies.isEmpty && biasing.redgs.isEmpty) = true) ∧
    (∀ y ∈ biasing.contexts, ∀ e ∈ y.regions, e.2.holders = []) ∧ world.memOk ∧
    (world.isFrozen (0x600 * 128) = false ∧ world.sliceLease ≠ 0 ∧ world.writing 0x600 = false ∧ world.grantsStopped 0x600 = false) ∧
    (∀ j < 4, world.isFrozen (0x3FFFC + j) = false ∧ world.isThawing (0x3FFFC + j) = false) ∧
    ([true, false].all fun b => (((lineFetching b).core 0).fetches.find? (fun x => x.n == 7)).any (fun f => firstFetch ((lineFetching b).core 0) f && f.leap == b &&
      inWindow f windowImage 0x20000 0x20080 && (fetchPlace (lineFetching b) f.ctx 0x20000).isSome && ((lineFetching b).launch? f.launch).any (fun l => l.image == some windowImage) &&
      decide (budgetHeld ((lineFetching b).core 0) f.launch + 128 ≤ 128))) = true :=
  ⟨mem_of (by decide +kernel), opt_some (by decide +kernel), by decide +kernel, mem_of (by decide +kernel), by decide +kernel, by decide +kernel, by decide +kernel⟩

/-! ## The distributors and the package -/

def onLaunch (f : Launch → Launch) (s : State) : State := { s with launches := s.launches.map f }
/-- A second team to place; the team at its barrier; on its way from core 0 to core 5; the launch at its end, with its journal entry. -/
def toPlace : State := onLaunch (fun l => { l with grid := 2 }) world
def atBarrier : State := waiting .bar world
def arrivingTeam : State := onTeam world (fun t => { t with core := 5, moving := some 0 })
def ended : State := onLaunch (fun l => { l with nextTeam := 1, ended := 1 }) (onCtx world (fun x => { x with journal := ⟨16, 2, [{ aJEntry .running 0 1 with seq := 1 }]⟩ }))
def theTeam (s : State) : Team := (s.team? 2).getD (team0 world)
def theLaunch (s : State) : Launch := (s.launches.head?).getD ⟨0, 0, 0, 0, 0, 0, [], 0, .host, 0, 0, 0, false, false, false, none, [], 0, 0, 0, false, false⟩
theorem witness_PackageEvents_teams :
    placeOrder toPlace = [theLaunch toPlace] ∧ (∃ b, toPlace.block? (theLaunch toPlace) = some b ∧ ((chooseCore toPlace b).any fun d =>
      decide (b.members.length ≤ (toPlace.core d.2).freeSlots)) = true) ∧ (toPlace.ctx? (theLaunch toPlace).ctx).isSome = true ∧
    toPlace.launch? (theLaunch toPlace).id = some (theLaunch toPlace) ∧
    (atBarrier.team? (theTeam atBarrier).uid = some (theTeam atBarrier) ∧ atBarrier.launch? (theTeam atBarrier).launch = some (theLaunch atBarrier) ∧
      mayMove atBarrier (theTeam atBarrier) = true ∧ (255 : Fin 256) ≠ (theTeam atBarrier).core ∧
      (seatSame (atBarrier.core 255) (teamGroups atBarrier (theTeam atBarrier))).isSome = true) ∧
    (∃ b, atBarrier.block? (theLaunch atBarrier) = some b ∧ teamFits atBarrier b 255 = true) ∧
    (arrivingTeam.team? (theTeam arrivingTeam).uid = some (theTeam arrivingTeam) ∧ (theTeam arrivingTeam).moving = some 0 ∧
      (∀ w ∈ arrivingTeam.writes, w.core ≠ 0) ∧ ∀ c ∈ arrivingTeam.copies, c.team ≠ (theTeam arrivingTeam).uid) ∧
    (ended.launch? (theLaunch ended).id = some (theLaunch ended) ∧ launchQuiet ended (theLaunch ended) = true ∧ (theLaunch ended).kind = .host ∧
      (theLaunch ended).observed = false ∧ ended.writes = [] ∧ (∀ c ∈ (theLaunch ended).cores, unregistered ended (Fin.ofNat 256 c) = []) ∧
      (ended.ctx? (theLaunch ended).ctx).isSome = true ∧ (ctx0 ended).journal.entries.map (fun e => (e.seq, e.state.final)) = [((theLaunch ended).seq, false)]) :=
  ⟨by decide +kernel, opt_some (by decide +kernel), by decide +kernel, by decide +kernel, by decide +kernel, opt_some (by decide +kernel), by decide +kernel, by decide +kernel⟩

/-- A record for the first node of its module. -/
def aRecord : NodeRecord := ⟨0, 3, 31, 0#32, 0, 0, false, #v[1#32, 2#32, 3#32, 4#32]⟩
/-- A node of the module with this bin, timer and expiry; one record sent to it. -/
def nodeOf (coalesce timer : Nat) (bin : List NodeRecord) (expiry : Option Nat) : Node := ⟨1, 0, coalesce, timer, 0, none, bin, expiry, [], 0#64⟩
def nodeState (n : Node) : State := { onCtx at10000 (fun x => { x with nodes := [n] }) with emits := [⟨8, 8, 3, (theLaunch world).id, 1, aRecord⟩] }
def arrivalB (s : State) : Bool := (s.emits.find? (fun y => y.id == 8)).any (fun e => !recordHeld s e && e.ctx == 1 &&
  ((moduleNodes (ctx0 s) (moduleOf s e.launch))[e.record.node]? == some 0) && (ctx0 s).nodes.all (fun n => decide (n.bin.length + 1 < n.coalesce) && n.capacity == 0))
theorem witness_PackageEvents_nodes :
    arrivalB (nodeState (nodeOf 2 1000 [] none)) = true ∧ arrivalB (nodeState (nodeOf 2 0 [] none)) = true ∧ arrivalB (nodeState (nodeOf 3 1000 [aRecord] (some 10500))) = true ∧
    (let s := nodeState (nodeOf 3 1000 [aRecord] (some 10000)); (s.ctx? 1).isSome = true ∧ 10000 ≤ s.now ∧ (kernelOf s 1 1 0).isSome = true ∧ (ctx0 s).nodes.map (fun n => n.bin.length) = [1]) := by
  decide +kernel

/-- The first context's time slice, its deadline, and another context of equal class with a team to place. -/
def sliced (slice from' : Nat) : State := onCtx { at10000 with launches := at10000.launches ++ [{ theLaunch at10000 with id := 9, ctx := 2, nextTeam := 0 }] }
  (fun x => { x with sliceNs := slice, sliceFrom := from' })
def deadlined (left : Nat) : State := onCtx world (fun x => { x with preempt := true, deadlineLeft := left })
theorem witness_PackageEvents_times :
    ((sliced 0 0).ctx? 1).isSome = true ∧ (ctx0 (sliced 0 0)).sliceNs = 0 ∧ (sliced 5000 5001).now < 5001 + 5000 ∧ 5000 + 5000 ≤ (sliced 5000 5000).now ∧
    (∃ l ∈ (sliced 5000 5000).launches, l.ctx ≠ 1 ∧ l.nextTeam < l.grid ∧ contextClass (sliced 5000 5000) 1 ≤ l.prio) ∧
    (ctx0 (deadlined 1)).deadlineLeft ≠ 0 ∧ (ctx0 (deadlined 0)).deadlineLeft = 0 ∧ (ctx0 (deadlined 0)).preempt = true ∧ (contextTeams (deadlined 0) 1).length = 1 := by
  decide +kernel

/-- The sample ring at 0xB00000 with 4 free records of 4. -/
def sampling : State := onCtx { world with mem := tables ++ [(0xB00018, 4#8)] } (fun x => { x with samplePeriod := 64, sampleRing := 0xB00000 })
theorem witness_PackageEvents_samples : sampling.memOk ∧ (ctx0 sampling).samplePeriod ≠ 0 ∧
    (∀ d : Fin 256, (sampling.core d).groups.any (fun g => g.ctx == (ctx0 sampling).id) = decide (d = 0)) ∧
    (let w := fwRead sampling 0xB00000 8;
      let r := fwRead sampling 0xB00008 8;
      r ≤ w ∧ w + 4 ≤ r + fwRead sampling 0xB00018 8 ∧ w + 4 < 2 ^ 64) :=
  ⟨mem_of (by decide +kernel), by decide +kernel, by decide +kernel, by decide +kernel⟩

/-- Core 7 out of sync. -/
def unsynced : State := { world with cores := world.cores.set 7 { world.core 7 with inSync := false } }
theorem witness_PackageEvents_states :
    0 < (known.core 0).reuse.length ∧ (world.group? 0 0).isSome = true ∧ (world.team? 2).any (fun u => decide (32 * 2047 < u.scratchSize)) = true ∧
    ((vreg world 63#6 (fun _ => 1#32)).group? 0 0).any (fun x => (regGet x.v 63#6).isSome) = true ∧
    (unsynced.agent 7).inSync = false ∧ (Config.guardNs : Int).natAbs ≤ Config.guardNs ∧
    ((List.finRange 512).all fun b => !(unsynced.agent b.val).inSync || decide (((unsynced.agent b.val).skew - (Config.guardNs : Int)).natAbs ≤ Config.guardNs)) = true ∧
    (Config.guardNs + 1 : Int).natAbs > Config.guardNs ∧ (inPhase .booting).phase = .booting ∧ world.phase = .ready ∧
    unsynced.phase = .ready ∧ (inPhase .off).phase = .off ∧ (inPhase .failed).phase = .failed := by decide +kernel

/-! ## Worked examples of the spec -/

/-- The state after an instruction on a state; the first lane of a register, and its condition codes: N, Z, C, V. -/
def ran (i : Instr) (s : State) : State := match exec i s with
  | .next t => t
  | _ => State.reset
def lane0 (s : State) (n : Reg) : Option Word := ((at0 s).g.v[n.toNat]).map (fun r => r.lanes[(0 : Fin 32)])
def codes0 (s : State) : List Bool := let c := (at0 s).g.cc; [c.n, c.z, c.c, c.v].map (fun m => m.getLsbD 0)
def filled (l : List (Reg × Word)) (s : State) : State := l.foldl (fun s p => vreg s p.1 (fun _ => p.2)) s

/-- The example after R158. -/
def sum64 : State := filled [(2#6, 0xFFFFFFFF#32), (3#6, 1#32), (4#6, 1#32), (5#6, 2#32)] world
theorem test_iadd : (let t := ran (.iadd ⟨0#3, true, 6#6, 2#6, 4#6, none⟩) sum64; (lane0 t 6#6, codes0 t)) = (some 0#32, [false, true, true, false]) := by decide +kernel
theorem test_iaddc : (let t := ran (.iaddc ⟨0#3, false, 7#6, 3#6, 5#6, none⟩) (ran (.iadd ⟨0#3, true, 6#6, 2#6, 4#6, none⟩) sum64); (lane0 t 7#6, codes0 t)) =
    (some 4#32, [false, true, true, false]) := by decide +kernel
/-- The example at `CVTFI`: -7.75, rounded toward zero. -/
theorem test_cvtfi : (let t := ran (.cvtfi ⟨0#3, true, 6#6, 2#6, false, .rtz, none⟩) (filled [(2#6, 0xC0F80000#32)] world); (lane0 t 6#6, codes0 t)) =
    (some 0xFFFFFFF9#32, [true, false, true, false]) := by decide +kernel
/-- The example at `PCVT`: 1.0625, 460, −∞ and 2^-10. -/
def quarters : State := filled [(16#6, 0x3F880000#32), (17#6, 0x43E60000#32), (18#6, 0xFF800000#32), (19#6, 0x3A800000#32)] world
theorem test_pcvt : [false, true].map (fun s => lane0 (ran (.pcvt ⟨0#2, s, .e4m3, 20#6, 16#6, false, .f32⟩) quarters) 20#6) = [some 0x00FF7E38#32, some 0x00FE7E38#32] := by
  decide +kernel
/-- The example at `XISECT`: lanes 0 to 3 take 2, 3, 5 and 7, and lanes 4 to 7 keep `D` and take Z = 1. -/
def lists : State := vreg (vreg (kreg (onView world (fun v => { v with part := 8#32 })) 1#3 0xFF#32) 10#6 (fun l => BitVec.ofNat 32 ([2, 3, 5, 7, 11, 13, 17, 19].getD l.val 0)))
  11#6 (fun l => BitVec.ofNat 32 (l.val + 1))
theorem test_xisect : (let t := ran (.xisect ⟨1#3, 12#6, 10#6, 11#6⟩) (filled [(12#6, 99#32)] lists);
    (((at0 t).g.v[12]).map fun r => (List.finRange 8).map fun i => r.lanes[(i.castLE (by decide) : Fin 32)], (at0 t).g.cc.z &&& 0xFF#32)) =
    (some [2#32, 3#32, 5#32, 7#32, 99#32, 99#32, 99#32, 99#32], 0xF0#32) := by decide +kernel
/-- The first step after reset runs the word placed there: a `NOP`. -/
theorem test_withFetchWord : (match step (State.reset.withFetchWord 32 0x97000000) with
    | .next t => (t.here?).map (fun h => (h.f.pc, h.f.status == .ready))
    | _ => none) = some (0x10004#64, true) := by decide +kernel

end Sys2Proof.Tests
end

section
/-! SUPPORT. That every operation keeps the canonical form of the byte tables (R4, R262, R264, R427), one lemma for each operation in the
order of the model's files: what changes none of the tables, then registers, memory, teams, traps and the running of a lane instruction.
-/

namespace Sys2Proof.Machine

/-! ## Updates of single fields -/

/-- All that the form speaks of. -/
def State.tables (s : State) : List Host.Cell × List (Nat × Nat) × List (Nat × Fin 256) × Vector Core 256 ×
    Vector (List (Nat × SliceByte)) 5 × List Team × List (Nat × Byte) :=
  (s.mem, s.freeAt, s.registered, s.cores, s.sliceCopies, s.teams, s.kept)

/-- A state with the same tables is in form as well. -/
theorem State.memOk.of_tables {s t : State} (hs : s.memOk) (e : t.tables = s.tables) : t.memOk := by
  simp only [State.tables, Prod.mk.injEq] at e
  obtain ⟨hm, hf, hr, hc, hd, hp, hk⟩ := e
  exact memOk_same hs hm hf hr hc hd hp hk

/-- New cores, every L1 sorted. -/
theorem memOk_withCores {s : State} (hs : s.memOk) (ks : Vector Core 256) (hk : ∀ c : Fin 256, tableSortedFrom 0 ks[c].l1 = true) :
    ({ s with cores := ks } : State).memOk :=
  { mem := hs.mem, free := hs.free, apart := hs.apart, registered := hs.registered, l1 := hk, slices := hs.slices, pads := hs.pads, kept := hs.kept }

/-- Every core built anew with the L1 it had. -/
theorem memOk_ofFnCores {s : State} (hs : s.memOk) (f : Fin 256 → Core) (hf : ∀ c, (f c).l1 = (s.core c).l1) :
    ({ s with cores := Vector.ofFn f } : State).memOk := by
  refine memOk_withCores hs _ fun c => ?_
  simp [hf, hs.l1]

/-- Every core changed outside its L1. -/
theorem memOk_mapCores {s : State} (hs : s.memOk) (f : Core → Core) (hf : ∀ k, (f k).l1 = k.l1) :
    ({ s with cores := s.cores.map f } : State).memOk := by
  refine memOk_withCores hs _ fun c => ?_
  simpa [hf, State.core] using hs.l1 c

/-- A core changed outside its L1. -/
theorem memOk_setCore_l1 {s : State} (hs : s.memOk) (c : Fin 256) {k : Core} (e : k.l1 = (s.core c).l1) : (s.setCore c k).memOk :=
  memOk_setCore hs c k (e ▸ hs.l1 c)

/-- New copies in the slices, each table sorted. -/
theorem memOk_withSlices {s : State} (hs : s.memOk) (ts : Vector (List (Nat × SliceByte)) 5)
    (ht : ∀ d : Fin 5, tableSortedFrom 0 ts[d] = true) : ({ s with sliceCopies := ts } : State).memOk :=
  { mem := hs.mem, free := hs.free, apart := hs.apart, registered := hs.registered, l1 := hs.l1, slices := ht, pads := hs.pads, kept := hs.kept }

/-- New teams, every scratchpad in form. -/
theorem memOk_withTeams {s : State} (hs : s.memOk) (ts : List Team) (ht : ∀ t ∈ ts, Memory.wf t.scratch = true) :
    ({ s with teams := ts } : State).memOk :=
  { mem := hs.mem, free := hs.free, apart := hs.apart, registered := hs.registered, l1 := hs.l1, slices := hs.slices, pads := ht, kept := hs.kept }

theorem memOk_setTeam {s : State} (hs : s.memOk) (t : Team) (ht : Memory.wf t.scratch = true) : (s.setTeam t).memOk := by
  refine memOk_withTeams hs _ fun x hx => ?_
  obtain ⟨y, hy, rfl⟩ := List.mem_map.mp hx
  split
  · exact ht
  · exact hs.pads y hy

theorem memOk_setCtx {s : State} (hs : s.memOk) (x : Context) : (s.setCtx x).memOk := hs.of_tables rfl
theorem memOk_setLaunch {s : State} (hs : s.memOk) (l : Launch) : (s.setLaunch l).memOk := hs.of_tables rfl
theorem memOk_setEngine {s : State} (hs : s.memOk) (c : Fin 256) (e : Engine) : (s.setEngine c e).memOk := memOk_setCore_l1 hs _ rfl
theorem memOk_evictNames {s : State} (hs : s.memOk) (c : Fin 256) : (s.evictNames c).memOk := memOk_setCore_l1 hs _ rfl
theorem memOk_clearSlot {s : State} (hs : s.memOk) (c : Fin 256) (i : Fin 64) : (s.clearSlot c i).memOk :=
  memOk_evictNames (memOk_setGroup hs _ _ _) _

/-- A team's scratchpad is in form. -/
theorem wf_team {s : State} (hs : s.memOk) {u : Nat} {t : Team} (e : s.team? u = some t) : Memory.wf t.scratch = true :=
  hs.pads t (List.mem_of_find?_eq_some e)

theorem wf_teamOf {s : State} (hs : s.memOk) {h : Here} {t : Team} (e : teamOf s h = some t) : Memory.wf t.scratch = true := by
  obtain ⟨u, -, hu⟩ := Option.bind_eq_some_iff.mp e
  exact wf_team hs hu

/-- A team put back with the scratchpad it had. -/
theorem memOk_setTeam_same {s : State} (hs : s.memOk) {u : Nat} {t t1 : Team} (e : s.team? u = some t) (h : t1.scratch = t.scratch) :
    (s.setTeam t1).memOk := memOk_setTeam hs _ (h ▸ wf_team hs e)

/-- A fold that carries a second value beside the state. -/
theorem memOk_foldl_fst {α β : Type} (f : State × β → α → State × β) (hf : ∀ p x, p.1.memOk → (f p x).1.memOk) (l : List α) (p : State × β)
    (hp : p.1.memOk) : (l.foldl f p).1.memOk :=
  List.foldlRecOn l f hp fun q hq x _ => hf q x hq

/-! ## Registers -/

theorem memOk_commitV {s : State} (hs : s.memOk) (h : Here) (n : Reg) (x : Lanes Word) (m p : LaneMask) : (commitV s h n x m p).1.memOk := by
  fun_cases commitV
  · exact hs
  · exact hs
  · exact memOk_setCore_l1 hs _ rfl

theorem memOk_addEntry {s : State} (hs : s.memOk) (c : Fin 256) (key : ReuseKey) (rs : List (Option RName × Lanes Word)) (cc : Option LaneCC)
    (fl : BitVec 5) : (addEntry s c key rs cc fl).memOk := by
  fun_cases addEntry
  · exact hs
  · exact memOk_setCore_l1 hs _ rfl
  · exact .of_tables (memOk_setCore_l1 hs c (by rfl)) rfl

theorem memOk_settleOne {s : State} (hs : s.memOk) (h : Here) (p : Pending) : (settleOne s h p).1.memOk := by
  have hr : (p.regs.foldl (fun (a : State × Here) r =>
      if r.dropped then a else commitV a.1 a.2 r.reg r.lanes r.mask r.poison) (s, h)).1.memOk := by
    refine memOk_foldl_fst _ (fun a r ha => ?_) _ _ hs
    split
    · exact ha
    · exact memOk_commitV ha _ _ _ _ _
  fun_cases settleOne
  · exact hr
  · exact memOk_addEntry (memOk_put hr _) _ _ _ _ _
  · exact hr

theorem memOk_settleList {s : State} (hs : s.memOk) (h : Here) (ps left : List Pending) : (settleList s h ps left).1.memOk := by
  fun_cases settleList
  · exact hs
  · exact memOk_evictNames (memOk_put (memOk_foldl_fst _ (fun a p ha => memOk_settleOne ha a.2 p) _ _ hs) _) _

theorem memOk_settleAll {s : State} (hs : s.memOk) (h : Here) : (settleAll s h).1.memOk := memOk_settleList hs _ _ _
theorem memOk_settleDue {s : State} (hs : s.memOk) (h : Here) : (settleDue s h).1.memOk := memOk_settleList hs _ _ _

/-! ## Memory -/

theorem memOk_afterLoad {s : State} (hs : s.memOk) (c : Fin 256) (p : Place) (n : Nat) : (afterLoad s c p n).memOk := by
  fun_cases afterLoad
  · exact memOk_fillLine hs c p
  · exact hs

theorem memOk_registerAll {s : State} (hs : s.memOk) (w : Writer) : (registerAll s w).memOk := memOk_registerBytes hs _ _

theorem memOk_uniformWord {s : State} (hs : s.memOk) (w : Writer) (p : Place) : (uniformWord s w p).1.memOk := by
  refine memOk_forgetWord ?_ _ _
  split
  · exact memOk_registerBytes hs _ _
  · exact hs

theorem memOk_dropBytes {s : State} (hs : s.memOk) (c : Fin 256) (a n : Nat) : (dropBytes s c a n).memOk :=
  memOk_foldl _ (fun _ _ h => memOk_dropL1 h _ _) _ _ hs

theorem memOk_freeBytes {s : State} (hs : s.memOk) (a n : Nat) : (freeBytes s a n).memOk :=
  memOk_foldl _ (fun _ _ h => memOk_fwFreeByte h _) _ _ hs

theorem memOk_applyRedg {s : State} (hs : s.memOk) (r : Redg) : (applyRedg s r).memOk := by
  refine memOk_settlePoison (memOk_atomicHome ?_ _ _ _) _ _
  exact hs.of_tables rfl

theorem memOk_drainRedgs {s : State} (hs : s.memOk) (g : Nat) : (drainRedgs s g).memOk :=
  memOk_foldl _ (fun _ _ h => memOk_applyRedg h _) _ _ hs

theorem memOk_drainRedgsOn {s : State} (hs : s.memOk) (g a : Nat) : (drainRedgsOn s g a).memOk :=
  memOk_foldl _ (fun _ _ h => memOk_applyRedg h _) _ _ hs

theorem memOk_acquireWork {s : State} (hs : s.memOk) (h : Here) (sc : Scope) : (acquireWork s h sc).memOk := by
  fun_cases acquireWork
  · exact hs
  · exact memOk_selfInvalidate hs _

/-! ## Journals -/

theorem memOk_setJournal {s : State} (hs : s.memOk) (c : Option Nat) (j : Journal) : (s.setJournal c j).memOk := by
  fun_cases State.setJournal
  · exact hs.of_tables rfl
  · exact memOk_setCtx hs _
  · exact hs

theorem memOk_mirrorEntry {s : State} (hs : s.memOk) (c : Option Nat) (e : JEntry) : (mirrorEntry s c e).memOk := by
  fun_cases mirrorEntry
  · exact hs
  · exact memOk_fwWrite hs _ _

theorem memOk_appendEntry {s : State} (hs : s.memOk) (c : Option Nat) (q code hseq d : Nat) :
    ∀ r, appendEntry s c q code hseq d = some r → r.1.memOk := by
  fun_cases appendEntry
  · rintro _ ⟨⟩; exact memOk_mirrorEntry (memOk_setJournal hs _ _) _ _
  · rintro _ ⟨⟩

theorem memOk_changeEntry {s : State} (hs : s.memOk) (c : Option Nat) (n : Nat) (f : JEntry → JEntry) : (changeEntry s c n f).memOk := by
  fun_cases changeEntry
  · exact hs
  · exact memOk_mirrorEntry (memOk_setJournal hs _ _) _ _

theorem memOk_runEntry {s : State} (hs : s.memOk) (c : Option Nat) (n : Nat) : (runEntry s c n).memOk := memOk_changeEntry hs _ _ _
theorem memOk_endEntry {s : State} (hs : s.memOk) (c : Option Nat) (n : Nat) (st : JState) (r : Nat) : (endEntry s c n st r).memOk :=
  memOk_changeEntry hs _ _ _
theorem memOk_countExits {s : State} (hs : s.memOk) (c : Option Nat) (n k : Nat) : (countExits s c n k).memOk := memOk_changeEntry hs _ _ _

theorem memOk_respond {s : State} (hs : s.memOk) (h : CmdHdr) (code st r n : Nat) (bs : List Byte) : (respond s h code st r n bs).memOk := by
  fun_cases respond
  · exact hs.of_tables rfl
  · exact hs.of_tables rfl

/-! ## The matrix engine -/

theorem memOk_engineStep {s : State} (hs : s.memOk) (c : Fin 256) : (engineStep s c).memOk := by
  fun_cases engineStep
  · exact hs
  · exact memOk_setCore_l1 hs _ rfl

theorem memOk_engineSteps (c : Fin 256) : ∀ (n : Nat) {s : State}, s.memOk → (engineSteps s c n).memOk
  | 0, _, hs => hs
  | n + 1, _, hs => memOk_engineSteps c n (memOk_engineStep hs c)

theorem memOk_drainEngine {s : State} (hs : s.memOk) (c : Fin 256) : (drainEngine s c).memOk := memOk_engineSteps c _ hs

theorem memOk_grantEngine {s : State} (hs : s.memOk) (c : Fin 256) (u : Nat) : (grantEngine s c u).memOk := by
  have hd := memOk_drainEngine hs c
  fun_cases grantEngine
  · exact memOk_setCore_l1 hd _ rfl
  · exact memOk_setCore_l1 hd _ rfl
  · exact memOk_setCore_l1 hd _ rfl

@[simp] theorem markQueued_l1 (k : Core) : k.markQueued.l1 = k.l1 := by simp only [Core.markQueued]

theorem memOk_requeue {s : State} (hs : s.memOk) (c : Fin 256) (e : Engine) : (s.requeue c e).memOk :=
  memOk_setCore_l1 hs c (markQueued_l1 _)

theorem memOk_releaseEngine {s : State} (hs : s.memOk) (c : Fin 256) : (releaseEngine s c).memOk := by
  fun_cases releaseEngine
  · exact memOk_setEngine hs _ _
  · exact memOk_grantEngine (memOk_requeue hs _ _) _ _

/-! ## Scratchpads -/

theorem wf_padWrite {t : Team} (ht : Memory.wf t.scratch = true) (a : Nat) (bs : List Byte) : Memory.wf (padWrite t a bs).scratch = true :=
  wf_bytesWrite bs a ht

theorem wf_padSetWord {t : Team} (ht : Memory.wf t.scratch = true) (a : Nat) (w : Word) : Memory.wf (padSetWord t a w).scratch = true :=
  wf_padWrite ht _ _

theorem wf_padPoison {t : Team} (ht : Memory.wf t.scratch = true) (l bad : List Nat) : Memory.wf (padPoison t l bad).scratch = true := by
  fun_cases padPoison
  · exact ht
  · exact ht

theorem wf_arrive {t : Team} (ht : Memory.wf t.scratch = true) (r n : Nat) : Memory.wf (arrive t r n).scratch = true := by
  fun_cases arrive
  · exact wf_padSetWord ht _ _
  · exact ht

/-- A fold of changes that each keep a scratchpad's form. -/
theorem wf_foldlPad {α : Type} (f : Team → α → Team) (hf : ∀ t x, Memory.wf t.scratch = true → Memory.wf (f t x).scratch = true) (l : List α)
    {t : Team} (ht : Memory.wf t.scratch = true) : Memory.wf (l.foldl f t).scratch = true :=
  List.foldlRecOn (motive := fun t => Memory.wf t.scratch = true) l f ht fun t ht x _ => hf t x ht

/-! ## Copies -/

theorem memOk_moveIn {s : State} (hs : s.memOk) (cp : Copy) : (moveIn s cp).memOk := by
  fun_cases moveIn
  case case1 => exact hs
  case case2 t ht _ _ _ =>
    refine memOk_setTeam hs _ (wf_padPoison ?_ _ _)
    exact wf_foldlPad _ (fun _ _ h => wf_foldlPad _ (fun _ _ h => wf_padWrite h _ _) _ h) _ (wf_team hs ht)

theorem memOk_moveOut {s : State} (hs : s.memOk) (cp : Copy) : (moveOut s cp).memOk := by
  fun_cases moveOut
  case case1 => exact hs
  case case2 =>
    refine memOk_settlePoison (memOk_foldl _ (fun _ _ h => memOk_noteWrite (memOk_hint h _ _) _ _) _ _ ?_) _ _
    exact memOk_foldl _ (fun _ _ h => memOk_foldl _ (fun _ _ h => memOk_homeSetByte h _ _ _) _ _ h) _ _ hs

theorem memOk_completeCopy {s : State} (hs : s.memOk) (cp : Copy) : (completeCopy s cp).memOk := by
  have h2 : (match cp.stage, ({ s with copies := s.copies.filter (fun x => x.id != cp.id) } : State).team? cp.team with
      | some st, some t => ({ s with copies := s.copies.filter (fun x => x.id != cp.id) } : State).setTeam (arrive t st.1 st.2)
      | _, _ => ({ s with copies := s.copies.filter (fun x => x.id != cp.id) } : State)).memOk := by
    have h1 : ({ s with copies := s.copies.filter (fun x => x.id != cp.id) } : State).memOk := hs.of_tables rfl
    split
    · next ht => exact memOk_setTeam h1 _ (wf_arrive (wf_team h1 ht) _ _)
    · exact h1
  fun_cases completeCopy
  · exact memOk_setGroup h2 _ _ _
  · exact h2
  · exact h2
  · exact h2

theorem memOk_finishCopy {s : State} (hs : s.memOk) (cp : Copy) : (finishCopy s cp).memOk := by
  fun_cases finishCopy
  · exact hs
  · exact memOk_completeCopy hs _
  · exact hs
  · exact (memOk_moveOut hs cp).of_tables rfl
  · exact memOk_completeCopy (memOk_moveOut hs cp) _
  · exact memOk_completeCopy (memOk_moveIn hs cp) _

theorem memOk_flushCopies {s : State} (hs : s.memOk) (u : Nat) : (flushCopies s u).memOk := hs.of_tables rfl

end Sys2Proof.Machine
end

section
/-! SUPPORT. That the operations on teams, traps, lane instructions and freezes keep the canonical form of the byte tables (R4).
-/

namespace Sys2Proof.Machine

/-! ## Teams and groups -/

theorem memOk_ringPut {s : State} (hs : s.memOk) (a n : Nat) (bs : List Byte) : (ringPut s a n bs).1.memOk := by
  fun_cases ringPut
  · exact memOk_fwWrite hs _ _
  · exact memOk_fwWrite (memOk_fwWrite hs _ _) _ _

theorem memOk_barrier {s : State} (hs : s.memOk) (c : Fin 256) (u : Nat) : (barrier s c u).memOk := by
  fun_cases barrier
  · exact hs
  · refine memOk_setCore_l1 hs c ?_
    dsimp only

theorem memOk_endLeap {s : State} (hs : s.memOk) (c : Fin 256) (l : Nat) : (endLeap s c l).memOk := by
  refine memOk_evictNames (memOk_setCore_l1 hs c ?_) _
  dsimp only

theorem memOk_settleDraining {s : State} (hs : s.memOk) (c : Fin 256) : (settleDraining s c).memOk := by
  fun_cases settleDraining
  · exact hs
  · exact hs
  · exact memOk_setCore_l1 hs _ rfl

theorem memOk_settlePark {s : State} (hs : s.memOk) (x : Nat) : (settlePark s x).memOk := by
  fun_cases settlePark
  · exact memOk_setCtx hs _
  · exact hs
  · exact hs

theorem memOk_dropPublishes {s : State} (hs : s.memOk) (g : Group) : (dropPublishes s g).memOk := by
  refine memOk_foldl _ (fun s o hs => ?_) _ _ hs
  split
  · exact hs
  · split
    · split
      · exact memOk_setCtx hs _
      · exact hs
    · exact hs

theorem memOk_noteExit {s : State} (hs : s.memOk) (l : Launch) : (noteExit s l).memOk := by
  fun_cases noteExit
  · exact hs
  · exact memOk_countExits hs _ _ _
  · exact memOk_countExits hs _ _ _

/-- The exit record of a team that ends, where there is one to write (R379). -/
theorem memOk_exitRing {s : State} (hs : s.memOk) (record : Bool) (l? : Option Launch) (bs : Launch → List Byte) :
    (match record, l? with
      | true, some l => match s.ctx? l.ctx with
        | some x => ringPut s x.exitRing 160 (bs l)
        | none => (s, false)
      | _, _ => (s, false)).1.memOk := by
  split
  · split
    · exact memOk_ringPut hs _ _ _
    · exact hs
  · exact hs

theorem memOk_endTeam {s : State} (hs : s.memOk) (u : Nat) (trapped discarded : Bool) : (endTeam s u trapped discarded).memOk := by
  unfold endTeam
  split
  · exact hs
  · next t0 ht =>
    extract_lets c k0 t gids s1 e s2 s3 s4 s5 record l? p6 p7 s7
    have h1 : s1.memOk := memOk_drainEngine hs c
    have h2 : s2.memOk := memOk_requeue h1 _ _
    have h3 : s3.memOk := by
      dsimp only [s3]
      split
      · split
        · exact memOk_releaseEngine h2 c
        · exact h2
      · exact h2
    have ht0 : Memory.wf t.scratch = true := wf_team (t := t0) hs ht
    have h4 : s4.memOk := memOk_flushCopies (memOk_setTeam h3 t ht0) _
    have h5 : s5.memOk := by
      refine memOk_foldl _ (fun s i hs => ?_) _ _ h4
      split
      · exact memOk_clearSlot (memOk_dropPublishes hs _) _ _
      · exact hs
    have h6 : p6.1.memOk := by
      exact memOk_exitRing h5 record l? _
    have h7 : s7.memOk := by
      refine memOk_withTeams h6 _ fun x hx => h6.pads x ?_
      exact List.mem_of_mem_filter hx
    clear_value p6 l?
    split
    · exact memOk_settleDraining h7 c
    · next l _ =>
      extract_lets s8 s9
      have h8 : s8.memOk := memOk_setLaunch h7 _
      have h9 : s9.memOk := by
        dsimp only [s9]
        split
        · exact h8
        · exact memOk_endLeap h8 _ _
      refine memOk_settlePark (memOk_settleDraining ?_ _) _
      split
      · exact memOk_noteExit h9 _
      · exact h9

theorem memOk_groupExit {s : State} (hs : s.memOk) (c : Fin 256) (i : Fin 64) : (groupExit s c i).memOk := by
  have h1 (g : Group) : (match (s.core c).engine.owner with
      | some o => if o = g.uid then releaseEngine s c else s
      | none => s).memOk := by
    split
    · split
      · exact memOk_releaseEngine hs c
      · exact hs
    · exact hs
  have h2 (g : Group) (x : Option Group) := memOk_evictNames (memOk_setGroup (h1 g) c i x) c
  fun_cases groupExit
  · exact hs
  · exact memOk_clearSlot (h1 _) _ _
  · exact h2 _ _
  · next ht s3 _ _ =>
    have h3 : s3.memOk := memOk_setTeam_same (h2 _ _) ht rfl
    exact memOk_barrier h3 _ _
  · next ht s3 _ _ =>
    have h3 : s3.memOk := memOk_setTeam_same (h2 _ _) ht rfl
    exact memOk_endTeam h3 _ _ _

theorem memOk_settleGroup {s : State} (hs : s.memOk) (c : Fin 256) (i : Fin 64) : (settleGroup s c i).memOk := by
  have h1 (g : Group) : ((s.setGroup c i (some g)).evictNames c).memOk := memOk_evictNames (memOk_setGroup hs _ _ _) _
  fun_cases settleGroup
  · exact hs
  · exact memOk_groupExit hs c i
  · exact memOk_barrier (h1 _) _ _
  · exact h1 _

theorem memOk_exitFrag {s : State} (hs : s.memOk) (h : Here) : (exitFrag s h).memOk :=
  memOk_settleGroup (memOk_setGroup (memOk_settleAll hs h) _ _ _) _ _

theorem memOk_stopLeap {s : State} (hs : s.memOk) (h : Here) : (stopLeap s h).memOk := by
  have h1 : (match s.launch? h.g.launch with
      | some l => s.setLaunch { l with stopped := true }
      | none => s).memOk := by
    split
    · exact memOk_setLaunch hs _
    · exact hs
  exact memOk_clearSlot (memOk_setCore_l1 h1 h.r.core (by rfl)) _ _

/-! ## Releases and traps -/

theorem memOk_releaseWork {s : State} (hs : s.memOk) (h : Here) (sc : Scope) : (releaseWork s h sc).1.memOk := by
  unfold releaseWork
  extract_lets wide s1 s2 s3
  have h1 : s1.memOk := memOk_drainRedgs hs _
  have h2 : s2.memOk := by
    dsimp only [s2]
    split
    · exact memOk_drainEngine h1 _
    · exact h1
  show s3.memOk
  dsimp only [s3]
  split
  · exact memOk_registerAll h2 _
  · exact h2

theorem memOk_writeFrame {s : State} (hs : s.memOk) (h : Here) (w : Words) (t : TrapInfo) : (writeFrame s h w t).memOk := by
  fun_cases writeFrame
  · exact hs
  · exact memOk_settlePoison (memOk_freeBytes (memOk_dropBytes (memOk_fwWrite hs _ _) _ _ _) _ _) _ _

theorem memOk_endByTrap {s : State} (hs : s.memOk) (h : Here) (a b : Byte) : (endByTrap s h a b).memOk := by
  fun_cases endByTrap
  case case1 => exact hs
  case case2 => exact hs
  case case3 u _ t ht _ =>
    refine memOk_endTeam (memOk_setTeam_same hs ht ?_) _ _ _
    rfl

theorem memOk_enterHandler {s : State} (hs : s.memOk) (h : Here) (w : Words) (t : TrapInfo) (e : DWord) : (enterHandler s h w t e).memOk :=
  memOk_put (memOk_writeFrame hs _ _ _) _

theorem memOk_takeTrap {s : State} (hs : s.memOk) (h : Here) (w : Words) (t : TrapInfo) : (takeTrap s h w t).memOk := by
  have hr : (releaseWork s h .grp).1.memOk := memOk_releaseWork hs _ _
  have ha : (settleAll (releaseWork s h .grp).1 h).1.memOk := memOk_settleAll hr _
  fun_cases takeTrap
  · exact memOk_stopLeap hs h
  · exact memOk_endByTrap hs _ _ _
  · exact memOk_put hs _
  · exact memOk_enterHandler ha _ _ _ _
  · exact memOk_put hr _
  · exact memOk_endByTrap (memOk_writeFrame (memOk_put ha _) _ _ _) _ _ _

theorem memOk_leaveHandler {s : State} (hs : s.memOk) (h : Here) (d : Handler) (skip : Bool) : (leaveHandler s h d skip).memOk :=
  memOk_setGroup (memOk_settleAll hs h) _ _ _

/-! ## Issue of an instruction -/

theorem memOk_trapOf {s : State} (hs : s.memOk) (h : Here) (i : Instr) (t : TrapInfo) : (trapOf s h i t).memOk := memOk_takeTrap hs _ _ _
theorem memOk_plainTrap {s : State} (hs : s.memOk) (h : Here) (i : Instr) (c sub : Byte) : (plainTrap s h i c sub).memOk := memOk_trapOf hs _ _ _
theorem memOk_next {s : State} (hs : s.memOk) (h : Here) (i : Instr) : (next s h i).memOk := memOk_put hs _

theorem memOk_budgetGate {s : State} (hs : s.memOk) (h : Here) (i : Instr) (n : Nat) : ∀ t, budgetGate s h i n = some t → t.memOk := by
  fun_cases budgetGate
  · rintro _ ⟨⟩
  · rintro _ ⟨⟩; exact memOk_put hs _
  · rintro _ ⟨⟩; exact memOk_plainTrap hs _ _ _ _

theorem memOk_issueGates {s : State} (hs : s.memOk) (h : Here) (sh : LaneShape) (ex : LaneMask) :
    ∀ t, issueGates s h sh ex = some t → t.memOk := by
  fun_cases issueGates
  · next hb => rintro _ ⟨⟩; exact memOk_budgetGate hs _ _ _ _ hb
  · rintro _ ⟨⟩; exact memOk_trapOf hs _ _ _
  · rintro _ ⟨⟩; exact memOk_trapOf hs _ _ _
  · rintro _ ⟨⟩

theorem memOk_noteRead {s : State} (hs : s.memOk) (h : Here) (pad : Bool) (bs : List (Nat × Byte)) : (noteRead s h pad bs).memOk :=
  memOk_setCore_l1 hs _ rfl

theorem memOk_countLookup {s : State} (hs : s.memOk) (c : Fin 256) (key : Option ReuseKey) (hit : Bool) : (s.countLookup c key hit).memOk := by
  fun_cases State.countLookup
  · exact hs
  · refine memOk_setCore_l1 hs _ ?_
    split
    · rfl
    · rfl

theorem memOk_writeV {p : State × Here} (hp : p.1.memOk) (r : Reg) (o : Lanes Word × LaneMask) (m : LaneMask) : (writeV p r o m).1.memOk :=
  memOk_commitV hp _ _ _ _ _

theorem memOk_writeDst {s : State} (hs : s.memOk) (h : Here) (d : Dst) (r : LaneResult) : (writeDst s h d r).1.memOk := by
  fun_cases writeDst
  · exact hs
  · exact memOk_foldl_fst _ (fun _ _ hp => memOk_writeV hp _ _ _) _ _ hs
  · exact memOk_foldl_fst _ (fun _ _ hp => memOk_writeV hp _ _ _) _ _ hs
  · exact hs

theorem memOk_commitLane {s : State} (hs : s.memOk) (h : Here) (sh : LaneShape) (ex : LaneMask) (r : LaneResult) (key : Option ReuseKey) :
    (commitLane s h sh ex r key).memOk := by
  unfold commitLane
  extract_lets pick h1 h2 done
  have hd (a : State × Here) (ha : a.1.memOk) : (done a).memOk := by
    refine memOk_evictNames (memOk_next ?_ _ _) _
    split
    · exact memOk_addEntry (memOk_put ha _) _ _ _ _ _
    · exact ha
  split
  · exact memOk_put hs _
  · exact hd _ (memOk_writeDst hs _ _ _)

theorem memOk_finishLane {s : State} (hs : s.memOk) (h : Here) (sh : LaneShape) (ex : LaneMask) (old : Bool) (mem : Option MemKey)
    (r : LaneResult) : (finishLane s h sh ex old mem r).memOk := by
  fun_cases finishLane
  · exact memOk_trapOf hs _ _ _
  · exact memOk_trapOf (memOk_countLookup hs _ _ _) _ _ _
  · exact memOk_commitLane (memOk_countLookup hs _ _ _) _ _ _ _ _

theorem memOk_runLane {s : State} (hs : s.memOk) (h : Here) (sh : LaneShape) (f : LaneMask → LaneResult) : (runLane s h sh f).memOk := by
  fun_cases runLane
  · exact memOk_next hs _ _
  · next hg => exact memOk_issueGates hs _ _ _ _ hg
  · exact memOk_finishLane hs _ _ _ _ _ _

/-! ## Accesses -/

theorem memOk_issueOnce {s : State} (hs : s.memOk) (h : Here) (sh : LaneShape) (ex : LaneMask) :
    ∀ t, issueOnce s h sh ex = some t → t.memOk := by
  fun_cases issueOnce
  · exact memOk_issueGates hs _ _ _
  · rintro _ ⟨⟩

theorem memOk_stopOn {s : State} (hs : s.memOk) (h : Here) (i : Instr) (ps : List Passed) (c : Checked) :
    ∀ t, stopOn s h i ps c = some t → t.memOk := by
  fun_cases stopOn
  · rintro _ ⟨⟩
  · rintro _ ⟨⟩; exact memOk_trapOf hs _ _ _
  · rintro _ ⟨⟩; exact memOk_put hs _

theorem memOk_holdReplica {s : State} (hs : s.memOk) (c : Fin 256) (p : Place) : (holdReplica s c p).memOk := by
  fun_cases holdReplica
  · exact hs
  · exact hs.of_tables rfl

theorem memOk_holdReplicas {s : State} (hs : s.memOk) (c : Fin 256) (ps : List Place) : (holdReplicas s c ps).memOk :=
  memOk_foldl _ (fun _ _ h => memOk_holdReplica h _ _) _ _ hs

theorem memOk_isObserved {s : State} (hs : s.memOk) (c : Fin 256) (l : Nat) (p : Place) : (isObserved s c l p).1.memOk := hs.of_tables rfl

theorem memOk_recordSeen {s : State} (hs : s.memOk) (h : Here) (x : Seen) : (recordSeen s h x).memOk := by
  fun_cases recordSeen
  · exact memOk_setCore_l1 hs _ rfl
  · exact memOk_setCore_l1 hs _ rfl

theorem memOk_observedLines {s : State} (hs : s.memOk) (h : Here) (ps : List Place) : (observedLines s h ps).1.memOk := by
  refine memOk_foldl_fst _ (fun a p ha => ?_) _ _ hs
  split
  · exact ha
  · exact memOk_isObserved ha h.r.core h.g.launch p

theorem memOk_observe {s : State} (hs : s.memOk) (h : Here) (xs : List Seen) (ps : List Place) : (observe s h xs ps).memOk := by
  fun_cases observe
  · exact hs
  · exact memOk_foldl _ (fun _ _ h => memOk_recordSeen h _ _) _ _ (memOk_observedLines hs _ _)

theorem memOk_noteLoaded {s : State} (hs : s.memOk) (h : Here) (ws : List (DWord × Word)) : (noteLoaded s h ws).memOk := by
  fun_cases noteLoaded
  · exact hs
  · exact memOk_setCore_l1 hs _ rfl

/-! ## Atomics -/

theorem memOk_globalAtoms {s : State} (hs : s.memOk) (h : Here) (ex bad : LaneMask) (pl : Fin 32 → Place) (f : WordOp) :
    (globalAtoms s h ex bad pl f).1.memOk := by
  refine memOk_foldl_fst _ (fun a l ha => ?_) _ _ hs
  split
  · exact ha
  · have hw := memOk_atomicWord (memOk_drainRedgsOn ha h.g.uid (pl l).pa) h.writer (pl l).pa (f l)
    dsimp only
    split
    · exact memOk_settlePoison hw _ _
    · exact hw

theorem wf_padAtoms (h : Here) {t : Team} (ht : Memory.wf t.scratch = true) (m bad : LaneMask) (addr : Fin 32 → DWord) (f : WordOp) :
    Memory.wf (padAtoms h t m bad addr f).1.scratch = true := by
  refine List.foldlRecOn (motive := fun a : Team × OldWords => Memory.wf a.1.scratch = true) _ _ ht fun a ha l _ => ?_
  split
  · exact ha
  · dsimp only
    split
    · split
      · exact wf_padPoison (wf_padSetWord ha _ _) _ _
      · exact wf_padSetWord ha _ _
    · exact ha

theorem memOk_globalAhead {s : State} (hs : s.memOk) (h : Here) (f : AtomForm) (ls : LaneMask) : (globalAhead s h f ls).memOk := by
  fun_cases globalAhead
  · exact hs
  · exact memOk_put (memOk_globalAtoms hs _ _ _ _ _) _

theorem memOk_padAhead {s : State} (hs : s.memOk) (h : Here) (f : AtomForm) (ls : LaneMask) : (padAhead s h f ls).memOk := by
  fun_cases padAhead
  case case1 => exact hs
  case case2 => exact hs
  case case3 t ht _ _ _ => exact memOk_put (memOk_setTeam hs _ (wf_padAtoms _ (wf_teamOf hs ht) _ _ _ _)) _

theorem memOk_atomAhead {s : State} (hs : s.memOk) (h : Here) (ls : LaneMask) (i : Instr) : (atomAhead s h ls i).memOk := by
  fun_cases atomAhead
  · exact hs
  · exact memOk_globalAhead hs _ _ _
  · exact memOk_globalAhead hs _ _ _
  · exact memOk_globalAhead hs _ _ _
  · exact memOk_padAhead hs _ _ _
  · exact memOk_padAhead hs _ _ _
  · exact memOk_padAhead hs _ _ _
  · exact hs

theorem memOk_sendRedg {s : State} (hs : s.memOk) (h : Here) (op : BitVec 3) (a : Nat) (x : Word) (bad : Bool) :
    (sendRedg s h op a x bad).memOk := .of_tables (memOk_registerBytes hs _ _) rfl

/-! ## Uniform accesses, fences, releases -/

theorem memOk_uniAccess {s : State} (hs : s.memOk) (h : Here) (i : Instr) (acc : Access) (fr : FreezeRule) (va : DWord) {f : Place → State}
    (hf : ∀ p, (f p).memOk) : (uniAccess s h i acc fr va f).memOk := by
  fun_cases uniAccess
  · exact memOk_trapOf hs _ _ _
  · exact memOk_put hs _
  · exact hf _

theorem memOk_uniPoison {s : State} (hs : s.memOk) (h : Here) (i : Instr) (va : DWord) (p : Place) {f : State} (hf : f.memOk) :
    (uniPoison s h i va p f).memOk := by
  fun_cases uniPoison
  · exact memOk_trapOf hs _ _ _
  · exact hf

theorem memOk_uniResult {s : State} (hs : s.memOk) (h : Here) (i : Instr) (d : Reg) (w : Word) (la : Nat) : (uniResult s h i d w la).memOk := by
  fun_cases uniResult
  · exact memOk_next hs _ _
  · exact memOk_put hs _

theorem memOk_uniStore {s : State} (hs : s.memOk) (h : Here) (p : Place) (w : Word) : (uniStore s h p w).memOk :=
  memOk_settlePoison (memOk_storeBytes hs _ _ _) _ _

theorem memOk_afterRelease {s : State} (hs : s.memOk) (h : Here) (sc : Scope) (ps : List Passed) {f : State → State}
    (hf : ∀ s, s.memOk → (f s).memOk) : (afterRelease s h sc ps f).memOk := by
  have hr := memOk_releaseWork hs h sc
  fun_cases afterRelease
  · exact hf _ hr
  · exact memOk_put hr _

theorem memOk_sendPromotions {s : State} (hs : s.memOk) (h : Here) (line : Nat) (ps : List Passed) (ts : List (Fin 256)) :
    (sendPromotions s h line ps ts).memOk := by
  refine memOk_put ?_ _
  exact hs.of_tables rfl

/-! ## Branches -/

theorem memOk_splitFrag {s : State} (hs : s.memOk) (h : Here) (go : BitVec 8) (pc : DWord) : (splitFrag s h go pc).memOk := by
  fun_cases splitFrag
  · exact hs
  · refine memOk_put (memOk_setCore_l1 hs _ ?_) _
    rfl

/-! ## Freezing and thawing -/

theorem memOk_applyPin {s : State} (hs : s.memOk) (x : Context) (i : Nat) : (applyPin s x i).memOk := by
  fun_cases applyPin
  · exact hs
  · exact hs
  · exact memOk_ofFnCores (memOk_setCtx hs _) _ fun _ => rfl

theorem memOk_frozenDone {s : State} (hs : s.memOk) (h : Here) (i : Instr) (d : Reg) (n : Nat) (g : Word) : (frozenDone s h i d n g).memOk :=
  memOk_next hs _ _

theorem memOk_freezeRange {s : State} (hs : s.memOk) (h : Here) (i : Instr) (d : Reg) (x : Context) (lo hi : Nat) (sys pin : Bool)
    (ps : List Passed) : (freezeRange s h i d x lo hi sys pin ps).memOk := by
  fun_cases freezeRange
  · exact memOk_put (memOk_setCtx hs _) _
  · refine memOk_frozenDone ?_ _ _ _ _ _
    split
    · exact memOk_applyPin (memOk_setCtx hs _) _ _
    · exact memOk_setCtx hs _
  · exact memOk_next hs _ _
  · exact memOk_put hs _
  · exact memOk_next hs _ _
  · exact memOk_put (memOk_setCtx hs _) _

theorem memOk_evictGen {s : State} (hs : s.memOk) (key : Nat × Nat) : (evictGen s key).memOk := memOk_ofFnCores hs _ fun _ => rfl

theorem memOk_thaw {s : State} (hs : s.memOk) (x : Context) (i : Nat) (e : FreezeEntry) : (thaw s x i e).memOk := by
  fun_cases thaw
  · exact memOk_dropKept (memOk_evictGen (memOk_setCtx hs _) _)
  · exact memOk_setCtx hs _

/-! ## Copies, batches and run-ahead -/

theorem memOk_switchOff {s : State} (hs : s.memOk) (h : Here) (i : Instr) : (switchOff s h i).memOk := memOk_next hs _ _

theorem memOk_observeCopy {s : State} (hs : s.memOk) (h : Here) (x : Context) (rows : List (DWord × Nat × Nat)) :
    (observeCopy s h x rows).memOk := by
  unfold observeCopy
  split
  · exact hs
  · refine memOk_foldl_fst _ (fun a p ha => ?_) _ _ hs
    dsimp only
    split
    · exact memOk_recordSeen (memOk_isObserved ha _ _ _) _ _
    · exact memOk_isObserved ha h.r.core h.g.launch p.2

theorem memOk_issueCopy {s : State} (hs : s.memOk) (h : Here) (i : Instr) (x : Context) (t : Team) (q : CopyReq) (odd : Option (DWord × Nat))
    (b : Option Nat) : (issueCopy s h i x t q odd b).memOk := by
  unfold issueCopy
  split
  · exact memOk_trapOf hs _ _ _
  · extract_lets ranges parts cs busy held cp s1
    split
    · exact memOk_switchOff hs _ _
    · split
      · exact memOk_trapOf hs _ _ _
      · exact memOk_put hs _
      · split
        · exact memOk_put hs _
        · have h1 : s1.memOk := by
            dsimp only [s1]
            split
            · exact hs
            · exact memOk_observeCopy hs _ _ _
          refine memOk_next ?_ _ _
          exact h1.of_tables rfl

theorem memOk_addFetches {s : State} (hs : s.memOk) (h : Here) (qs : List FetchReq) : (addFetches s h qs).memOk :=
  .of_tables (memOk_setCore_l1 hs h.r.core (by rfl)) rfl

end Sys2Proof.Machine
end

section
/-! SUPPORT. That every instruction word ends in a next state in form wherever a fragment issues (R4), by the form each word belongs to.
-/

namespace Sys2Proof.Machine

/-! ## Page tables, journals' tasks, leap slots -/

theorem memOk_setPte {s : State} (hs : s.memOk) (a : Nat) (e : DWord) : (setPte s a e).memOk := memOk_fwWrite hs _ _

theorem memOk_takeMem {s : State} (hs : s.memOk) (al n o : Nat) : (takeMem s al n o).1.memOk := .of_tables (memOk_zeroRange hs _ _) rfl

theorem memOk_putLeaf (o va level : Nat) (e : DWord) : ∀ (fuel at' table : Nat) {s : State}, s.memOk →
    ∀ t, putLeaf o va level e fuel at' table s = some t → t.memOk
  | 0, _, _, _, _ => by rintro _ ⟨⟩
  | fuel + 1, at', table, s, hs => by
    unfold putLeaf
    dsimp only
    split
    · rintro _ ⟨⟩; exact memOk_setPte hs _ _
    · split
      · split
        · rintro _ ⟨⟩
        · exact memOk_putLeaf o va level e fuel _ _ hs
      · exact memOk_putLeaf o va level e fuel _ _ (memOk_setPte (memOk_takeMem hs _ _ _) _ _)

theorem memOk_mapPages (x : Context) (f : LeafBits) (page : Nat) : ∀ (n va pa : Nat) {s : State}, s.memOk →
    ∀ t, mapPages x f page n va pa s = some t → t.memOk
  | 0, _, _, _, hs => by rintro _ ⟨⟩; exact hs
  | n + 1, va, pa, s, hs => by
    unfold mapPages
    split
    · rintro _ ⟨⟩
    · next h1 => exact memOk_mapPages x f page n _ _ (memOk_putLeaf _ _ _ _ _ _ _ hs _ h1)

theorem memOk_setLeafBit {s : State} (hs : s.memOk) (p : PageAt) (n : Nat) (v : Bool) : (setLeafBit s p n v).memOk := by
  unfold setLeafBit
  exact memOk_setPte hs p.entry _

theorem memOk_clearLeaves {s : State} (hs : s.memOk) (ps : List PageAt) : (clearLeaves s ps).memOk :=
  memOk_foldl _ (fun _ _ h => memOk_setPte h _ _) _ _ hs

theorem memOk_writeHeader {s : State} (hs : s.memOk) (x : Context) (n : Nat) (h : SlotHeader) : (writeHeader s x n h).memOk := by
  unfold writeHeader
  exact memOk_fwWrite hs _ _

/-- The definition is opened away from its arguments, so that nothing evaluates the 4,096 bytes. -/
theorem memOk_clearSlotAt {s : State} (hs : s.memOk) (x : Context) (n : Nat) : (clearSlotAt s x n).memOk := by
  have key (g : State → Context → Nat → State) (hg : g = clearSlotAt) : (g s x n).memOk := by
    delta clearSlotAt at hg
    rw [hg]
    have h1 := memOk_fwWrite hs (slotAddr x n) (List.replicate 4096 0#8)
    beta_reduce
    generalize fwWrite s (slotAddr x n) (List.replicate 4096 0#8) = s1 at h1 ⊢
    dsimp only
    split
    · exact memOk_setCtx h1 _
    · exact h1
  exact key _ rfl

theorem memOk_setObs {s : State} (hs : s.memOk) (c n : Nat) (o : Option LeapObs) : (setObs s c n o).memOk := by
  unfold setObs
  split
  · exact hs
  · refine memOk_noteDevice (memOk_foldl _ (fun _ _ h => ?_) _ _ ?_) _
    · exact memOk_fwFreeByte h _
    · exact memOk_setCtx hs _

theorem memOk_takeSlot {s : State} (hs : s.memOk) (x : Context) (id : BitVec 128) : ∀ r, takeSlot s x id = some r → r.1.memOk := by
  intro r e
  obtain ⟨i, -, h⟩ := Option.map_eq_some_iff.mp e
  have h1 := memOk_clearSlotAt hs x i
  generalize clearSlotAt s x i = s1 at h h1
  subst h
  dsimp only
  exact memOk_fwWrite h1 _ _

/-! ## Tasks and launches -/

theorem memOk_acceptLaunch {s : State} (hs : s.memOk) (x : Context) (m b g : Nat) (args : List DWord) (k : LaunchKind) (n : Nat) (bl : LaunchBlock) :
    (acceptLaunch s x m b g args k n bl).memOk := hs.of_tables rfl

theorem memOk_setTaskField {s : State} (hs : s.memOk) (a off n v : Nat) : (setTaskField s a off n v).memOk := memOk_fwWrite hs _ _
theorem memOk_setTaskState {s : State} (hs : s.memOk) (a v : Nat) : (setTaskState s a v).memOk := memOk_setTaskField hs _ _ _ _

theorem memOk_taskEntry {s : State} (hs : s.memOk) (x : Context) : (taskEntry s x).1.memOk := by
  fun_cases taskEntry
  · next e => exact memOk_appendEntry hs _ _ _ _ _ _ e
  · dsimp only
    exact memOk_setJournal hs _ _

theorem memOk_launchTask {s : State} (hs : s.memOk) (x : Context) (a : Nat) (sp : Bool) (n : Option Nat) : (launchTask s x a sp n).memOk := by
  unfold launchTask
  dsimp only
  split
  · exact hs
  · refine memOk_acceptLaunch (memOk_setTaskField ?_ _ _ _ _) _ _ _ _ _ _ _ _
    split
    · exact hs
    · exact memOk_setCtx hs _
    · exact memOk_taskEntry hs _

theorem memOk_recordVersions {s : State} (hs : s.memOk) (x : Context) (a : Nat) : (recordVersions s x a).memOk :=
  memOk_foldl _ (fun _ _ h => memOk_setTaskField h _ _ _ _) _ _ hs

theorem memOk_submitTask {s : State} (hs : s.memOk) (x : Context) (a : Nat) (n : Option Nat) : (submitTask s x a n).1.memOk := by
  fun_cases submitTask
  · exact hs
  · exact memOk_launchTask (memOk_setTaskState hs _ _) _ _ _ _
  · exact memOk_launchTask (memOk_setTaskState (memOk_recordVersions hs _ _) _ _) _ _ _ _
  · dsimp only
    split
    · exact memOk_setCtx (memOk_setTaskState hs _ _) _
    · exact memOk_setTaskState hs _ _

/-! ## Lane memory -/

theorem memOk_noteWords {s : State} (hs : s.memOk) (h : Here) (m : LaneMask) (n : Nat) (addr : Fin 32 → DWord) (w : Fin 32 → Nat → Word) :
    (noteWords s h m n addr w).memOk := by
  fun_cases noteWords
  · exact memOk_noteLoaded hs _ _
  · exact hs

theorem memOk_readLanes {s : State} (hs : s.memOk) (h : Here) (m : LaneMask) (n : Nat) (addr : Fin 32 → DWord) (pl : Fin 32 → Place) :
    (readLanes s h m n addr pl).1.memOk := by
  refine memOk_foldl _ (fun s l hs => ?_) _ _ (memOk_holdReplicas (memOk_noteWords (memOk_observe hs _ _ _) _ _ _ _ _) _ _)
  split
  · exact hs
  · exact memOk_afterLoad hs _ _ _

theorem memOk_commitFirstFault {s : State} (hs : s.memOk) (h : Here) (i : Instr) (o : LmLd) (ex : LaneMask) (outs : List (Lanes Word × LaneMask))
    (m : LaneMask) : (commitFirstFault s h i o ex outs m).memOk := by
  fun_cases commitFirstFault
  · exact memOk_evictNames (memOk_next (memOk_writeDst hs _ _ _) _ _) _
  · exact memOk_put hs _

theorem memOk_storeLanes {s : State} (hs : s.memOk) (h : Here) (ex : LaneMask) (d : Reg) (sz : BitVec 2) (pl : Fin 32 → Place) :
    (storeLanes s h ex d sz pl).memOk := memOk_settlePoison (memOk_foldl _ (fun _ _ h => memOk_storeBytes h _ _ _) _ _ hs) _ _

theorem wf_padStoreLanes {t : Team} (ht : Memory.wf t.scratch = true) (h : Here) (m : LaneMask) (d : Reg) (sz : BitVec 2) (addr : Fin 32 → DWord) :
    Memory.wf (padStoreLanes t h m d sz addr).scratch = true :=
  wf_padPoison (wf_foldlPad _ (fun _ _ h => wf_padWrite h _ _) _ ht) _ _

/-! ## The matrix engine's instructions and records -/

theorem memOk_passEngine {s : State} (hs : s.memOk) (c : Fin 256) (u : Nat) : (passEngine s c u).memOk :=
  memOk_setCore_l1 (memOk_grantEngine hs c u) c (markQueued_l1 _)

theorem memOk_startLoop {s : State} (hs : s.memOk) (h : Here) (o : MloopOp) (e : Engine) (t : Team) (r : Vector Byte 32) :
    (startLoop s h o e t r).memOk := by
  fun_cases startLoop
  · exact memOk_trapOf (memOk_drainEngine (memOk_setEngine hs _ _) _) _ _ _
  · exact memOk_next (memOk_setEngine hs _ _) _ _

theorem memOk_sendRecords {s : State} (hs : s.memOk) (h : Here) (a : Reg) (n : Nat) (ex : LaneMask) : (sendRecords s h a n ex).memOk := by
  have h1 := memOk_releaseWork hs h .pkg
  unfold sendRecords
  exact h1.of_tables rfl

/-! ## Every instruction word answers a next state in form -/

/-- An outcome that is a next state in form. -/
def Formed (o : Host.Outcome State Fault Refusal) : Prop := ∃ t, o = .next t ∧ t.memOk

theorem formed_next {s : State} (hs : s.memOk) : Formed (.next s) := ⟨s, rfl, hs⟩

/-- An instruction word, from its effect on the fragment that issues it. -/
theorem formed_onFragment {s : State} (hs : s.memOk) (hc : s.here?.isSome = true) (i : Instr) (cl : RoleClass) {f : Here → State}
    (hf : ∀ h, (f h).memOk) : Formed (onFragment s i cl f) := by
  obtain ⟨h, hh⟩ := Option.isSome_iff_exists.mp hc
  simp only [onFragment, hh]
  refine formed_next ?_
  split
  · exact memOk_stopLeap hs h
  · split
    · exact hf h
    · exact memOk_plainTrap hs _ _ _ _

section
variable {s : State} (hs : s.memOk) (hc : s.here?.isSome = true)
include hs hc

theorem formed_lrB (i : Instr) (o : LrB) (cs : CodeSet) (f : Here → Fin 32 → Word → Word → LaneOut) : Formed (lrB s i o cs f) :=
  formed_onFragment hs hc _ _ fun _ => memOk_runLane hs _ _ _
theorem formed_lrD (i : Instr) (o : LrB) (cs : CodeSet) (f : Here → Word → Word → Word → LaneOut) : Formed (lrD s i o cs f) :=
  formed_onFragment hs hc _ _ fun _ => memOk_runLane hs _ _ _
theorem formed_lrU (i : Instr) (o : LrU) (cs : CodeSet) (f : Word → LaneOut) : Formed (lrU s i o cs f) :=
  formed_onFragment hs hc _ _ fun _ => memOk_runLane hs _ _ _
theorem formed_lrC (i : Instr) (o : LrC) (f : Word → Word → LaneOut) : Formed (lrC s i o f) :=
  formed_onFragment hs hc _ _ fun _ => memOk_runLane hs _ _ _
theorem formed_lrCvt (i : Instr) (o : CvtOp) (f : BitVec 2 → Bool → Word → LaneOut) : Formed (lrCvt s i o f) :=
  formed_onFragment hs hc _ _ fun _ => memOk_runLane hs _ _ _
theorem formed_liRun (i : Instr) (k : KReg) (c : Bool) (d a : Reg) (cs : CodeSet) (f : Word → LaneOut) : Formed (liRun s i k c d a cs f) :=
  formed_onFragment hs hc _ _ fun _ => memOk_runLane hs _ _ _
theorem formed_llB (i : Instr) (o : LlB) (en dv : Bool) (f : Here → Word → Word → LaneOut) : Formed (llB s i o en dv f) :=
  formed_onFragment hs hc _ _ fun _ => memOk_runLane hs _ _ _
theorem formed_llU (i : Instr) (o : LlU) (f : BitVec 2 → Word → LaneOut) : Formed (llU s i o f) :=
  formed_onFragment hs hc _ _ fun _ => memOk_runLane hs _ _ _
theorem formed_lpRun (i : Instr) (o : LpB) (b d : Bool) (f : Here → Word → Word → Word → LaneOut) : Formed (lpRun s i o b d f) :=
  formed_onFragment hs hc _ _ fun _ => memOk_runLane hs _ _ _
theorem formed_uniRun (i : Instr) (f : Here → Here) : Formed (uniRun s i f) :=
  formed_onFragment hs hc _ _ fun _ => memOk_next hs _ _

theorem formed_crossRun (i : Instr) (sh : LaneShape) (old : Bool) (f : Here → LaneMask → LaneResult) : Formed (crossRun s i sh old f) := by
  refine formed_onFragment hs hc _ _ fun h => ?_
  dsimp only
  split
  · exact memOk_next hs _ _
  · split
    · next hg => exact memOk_issueGates hs _ _ _ _ hg
    · exact memOk_finishLane hs _ _ _ _ _ _

theorem formed_redForm (i : Instr) (o : LrF) (f : ScanForm) : Formed (redForm s i o f) := formed_crossRun hs hc _ _ _ _
theorem formed_segForm (i : Instr) (o : LrF) (f : ScanForm) : Formed (segForm s i o f) := formed_crossRun hs hc _ _ _ _

theorem formed_xgather (o : LrF) : Formed (execXgather o s) := by
  refine formed_onFragment hs hc _ _ fun h => ?_
  dsimp only
  split
  · exact memOk_next hs _ _
  · split
    · next hg => exact memOk_budgetGate hs _ _ _ _ hg
    · split
      · exact memOk_trapOf hs _ _ _
      · split
        · exact memOk_trapOf hs _ _ _
        · split
          · exact memOk_trapOf hs _ _ _
          · exact memOk_finishLane hs _ _ _ _ _ _

theorem formed_globalForm (f : AtomForm) : Formed (globalForm s f) := by
  refine formed_onFragment hs hc _ _ fun h => ?_
  dsimp only
  split
  · exact memOk_next hs _ _
  · split
    · next hg => exact memOk_issueOnce hs _ _ _ _ hg
    · split
      · next hg => exact memOk_stopOn hs _ _ _ _ _ hg
      · exact memOk_commitLane (memOk_globalAtoms hs _ _ _ _ _) _ _ _ _ _

theorem formed_padForm (f : AtomForm) : Formed (padForm s f) := by
  refine formed_onFragment hs hc _ _ fun h => ?_
  dsimp only
  split
  · exact memOk_next hs _ _
  · next t ht =>
    split
    · exact memOk_next hs _ _
    · split
      · next hg => exact memOk_issueOnce hs _ _ _ _ hg
      · split
        · next hg => exact memOk_stopOn hs _ _ _ _ _ hg
        · exact memOk_commitLane (memOk_setTeam hs _ (wf_padAtoms _ (wf_teamOf hs ht) _ _ _ _)) _ _ _ _ _

theorem formed_redg (o : LrF) : Formed (execRedg o s) := by
  refine formed_onFragment hs hc _ _ fun h => ?_
  dsimp only
  split
  · exact memOk_next hs _ _
  · split
    · next hg => exact memOk_issueOnce hs _ _ _ _ hg
    · split
      · next hg => exact memOk_stopOn hs _ _ _ _ _ hg
      · exact memOk_next (memOk_foldl _ (fun _ _ h => memOk_sendRedg h _ _ _ _ _) _ _ hs) _ _

theorem formed_queueForm (i : Instr) (k : KReg) (d : Dst) (a : Reg) (rs : List Src) {f : Here → LaneShape → LaneMask → Team → Nat → State}
    (hf : ∀ h sh ex t ad, teamOf s h = some t → (f h sh ex t ad).memOk) : Formed (queueForm s i k d a rs f) := by
  refine formed_onFragment hs hc _ _ fun h => ?_
  dsimp only
  split
  · exact memOk_next hs _ _
  · next t ht =>
    split
    · exact memOk_next hs _ _
    · split
      · next hg => exact memOk_issueGates hs _ _ _ _ hg
      · split
        · exact memOk_trapOf hs _ _ _
        · split
          · exact memOk_next hs _ _
          · exact hf _ _ _ _ _ ht

theorem formed_qpush (o : LrN) : Formed (execQpush o s) := by
  refine formed_queueForm hs hc _ _ _ _ _ fun h sh ex t ad ht => ?_
  refine memOk_commitLane (memOk_setTeam hs _ (wf_padSetWord (wf_foldlPad _ (fun t p h => ?_) _ (wf_teamOf hs ht)) _ _)) _ _ _ _ _
  dsimp only
  split
  · exact wf_padSetWord h _ _
  · exact h

theorem formed_qpop (o : LrN) : Formed (execQpop o s) :=
  formed_queueForm hs hc _ _ _ _ _ fun _ _ _ _ _ ht =>
    memOk_commitLane (memOk_setTeam hs _ (wf_padSetWord (wf_teamOf hs ht) _ _)) _ _ _ _ _

theorem formed_qlen (o : LrN) : Formed (execQlen o s) :=
  formed_queueForm hs hc _ _ _ _ _ fun _ _ _ _ _ _ => memOk_noteRead (memOk_commitLane hs _ _ _ _ _) _ _ _

theorem formed_globalLoad (i : Instr) (o : LmLd) (sg : Bool) (fr : FreezeRule) : Formed (globalLoad s i o sg fr) := by
  refine formed_onFragment hs hc _ _ fun h => ?_
  dsimp only
  split
  · exact memOk_next hs _ _
  · split
    · next hg => exact memOk_issueGates hs _ _ _ _ hg
    · split
      · next hg => exact memOk_stopOn hs _ _ _ _ _ hg
      · split
        · exact memOk_finishLane (memOk_noteWords hs _ _ _ _ _) _ _ _ _ _ _
        · exact memOk_noteRead (memOk_finishLane (memOk_readLanes hs _ _ _ _ _) _ _ _ _ _ _) _ _ _

theorem formed_ldff (o : LmLd) : Formed (execLdff o s) := by
  refine formed_onFragment hs hc _ _ fun h => ?_
  dsimp only
  split
  · exact memOk_next hs _ _
  · split
    · next hg => exact memOk_issueGates hs _ _ _ _ hg
    · split
      · next hg => exact memOk_stopOn hs _ _ _ _ _ hg
      · exact memOk_noteRead (memOk_commitFirstFault (memOk_readLanes hs _ _ _ _ _) _ _ _ _ _ _) _ _ _

theorem formed_ldp (o : LmLd) : Formed (execLdp o s) := by
  refine formed_onFragment hs hc _ _ fun h => ?_
  dsimp only
  split
  · exact memOk_next hs _ _
  · split
    · exact memOk_next hs _ _
    · split
      · next hg => exact memOk_issueGates hs _ _ _ _ hg
      · split
        · next hg => exact memOk_stopOn hs _ _ _ _ _ hg
        · split
          · split
            · exact memOk_finishLane hs _ _ _ _ _ _
            · exact memOk_noteRead (memOk_finishLane hs _ _ _ _ _ _) _ _ _
          · exact memOk_noteRead (memOk_commitLane (memOk_countLookup hs _ _ _) _ _ _ _ _) _ _ _

theorem formed_stg (o : LmSt) : Formed (execStg o s) := by
  refine formed_onFragment hs hc _ _ fun h => ?_
  dsimp only
  split
  · exact memOk_next hs _ _
  · split
    · next hg => exact memOk_issueOnce hs _ _ _ _ hg
    · split
      · next hg => exact memOk_stopOn hs _ _ _ _ _ hg
      · exact memOk_next (memOk_storeLanes hs _ _ _ _ _) _ _

theorem formed_stp (o : LmSt) : Formed (execStp o s) := by
  refine formed_onFragment hs hc _ _ fun h => ?_
  dsimp only
  split
  · exact memOk_next hs _ _
  · next t ht =>
    split
    · exact memOk_next hs _ _
    · split
      · next hg => exact memOk_issueGates hs _ _ _ _ hg
      · split
        · next hg => exact memOk_stopOn hs _ _ _ _ _ hg
        · exact memOk_next (memOk_setTeam hs _ (wf_padStoreLanes (wf_teamOf hs ht) _ _ _ _ _)) _ _

theorem formed_mvt (o : MvtOp) : Formed (execMvt o s) := by
  refine formed_onFragment hs hc _ _ fun h => ?_
  dsimp only
  split
  · exact memOk_next hs _ _
  · split
    · next hg => exact memOk_issueGates hs _ _ _ _ hg
    · split
      · exact memOk_trapOf hs _ _ _
      · exact memOk_put hs _
      · split
        · exact memOk_finishLane hs _ _ _ _ _ _
        · exact memOk_finishLane (memOk_holdReplicas hs _ _) _ _ _ _ _ _

theorem formed_sld (o : GlOp) : Formed (execSld o s) :=
  formed_onFragment hs hc _ _ fun _ => memOk_uniAccess hs _ _ _ _ _ fun _ => memOk_uniPoison hs _ _ _ _
    (memOk_noteRead (memOk_uniResult (memOk_noteLoaded (memOk_uniformWord hs _ _) _ _) _ _ _ _ _) _ _ _)

theorem formed_sldc (o : GlOp) : Formed (execSldc o s) :=
  formed_onFragment hs hc _ _ fun _ => memOk_uniAccess hs _ _ _ _ _ fun _ => memOk_uniPoison hs _ _ _ _
    (memOk_noteRead (memOk_uniResult (memOk_noteLoaded (memOk_holdReplicas hs _ _) _ _) _ _ _ _ _) _ _ _)

theorem formed_sst (o : GlOp) : Formed (execSst o s) :=
  formed_onFragment hs hc _ _ fun _ => memOk_uniAccess hs _ _ _ _ _ fun _ => memOk_next (memOk_uniStore hs _ _ _) _ _

theorem formed_fence (sc : Scope) : Formed (execFence sc s) :=
  formed_onFragment hs hc _ _ fun _ => memOk_afterRelease hs _ _ _ fun _ h => memOk_next (memOk_acquireWork h _ _) _ _

theorem formed_acq (sc : Scope) : Formed (execAcq sc s) :=
  formed_onFragment hs hc _ _ fun _ => memOk_next (memOk_acquireWork hs _ _) _ _

theorem formed_rel (sc : Scope) : Formed (execRel sc s) :=
  formed_onFragment hs hc _ _ fun _ => memOk_afterRelease hs _ _ _ fun _ h => memOk_next h _ _

theorem formed_rels (o : GlS) : Formed (execRels o s) := by
  refine formed_onFragment hs hc _ _ fun h => memOk_uniAccess hs _ _ _ _ _ fun p => ?_
  have hr := memOk_releaseWork hs h o.scope
  dsimp only
  split
  · exact memOk_next (memOk_uniStore hr _ _ _) _ _
  · exact memOk_put hr _

theorem formed_acqr (o : GlS) : Formed (execAcqr o s) := by
  refine formed_onFragment hs hc _ _ fun h => memOk_uniAccess hs _ _ _ _ _ fun p => memOk_uniPoison hs _ _ _ _ ?_
  extract_lets ts r
  split
  · exact memOk_sendPromotions hs _ _ _ _
  · exact memOk_next (memOk_acquireWork (memOk_noteLoaded (memOk_uniformWord hs _ _) _ _) _ _) _ _

theorem formed_bar : Formed (execBar s) := by
  refine formed_onFragment hs hc _ _ fun h => ?_
  dsimp only
  split
  · exact memOk_plainTrap hs _ _ _ _
  · exact memOk_afterRelease (memOk_settleAll hs _) _ _ _ fun _ h => memOk_settleGroup (memOk_put h _) _ _

theorem formed_bc (o : GjC) : Formed (execBc o s) := by
  refine formed_onFragment hs hc _ _ fun h => ?_
  split
  · exact memOk_put hs _
  · exact memOk_next hs _ _

theorem formed_call (o : GjC) : Formed (execCall o s) := by
  refine formed_onFragment hs hc _ _ fun h => ?_
  split
  · exact memOk_put hs _
  · exact memOk_next hs _ _

theorem formed_ret : Formed (execRet s) := formed_onFragment hs hc _ _ fun _ => memOk_put hs _

theorem formed_loop (d : Reg) (off : BitVec 12) : Formed (execLoop d off s) := by
  refine formed_onFragment hs hc _ _ fun h => ?_
  dsimp only
  split
  · exact memOk_put hs _
  · exact memOk_next hs _ _

theorem formed_maskBranch (i : Instr) (o : GjM) (nz : Bool) : Formed (maskBranch s i o nz) := by
  refine formed_onFragment hs hc _ _ fun h0 => ?_
  extract_lets sh h m target set go
  have h1 : sh.1.memOk := by
    dsimp only [sh]
    split
    · exact memOk_settleAll hs _
    · exact hs
  split
  · split
    · exact memOk_next h1 _ _
    · split
      · exact memOk_put h1 _
      · exact memOk_splitFrag h1 _ _ _
  · split
    · exact memOk_put h1 _
    · exact memOk_next h1 _ _

theorem formed_regang : Formed (execRegang s) := by
  refine formed_onFragment hs hc _ _ fun h => ?_
  have h1 := memOk_settleAll hs h
  dsimp only
  split
  · exact memOk_next h1 _ _
  · exact memOk_settleGroup (memOk_put h1 _) _ _

theorem formed_exit : Formed (execExit s) := by
  refine formed_onFragment hs hc _ _ fun h => ?_
  split
  · exact memOk_afterRelease hs _ _ _ fun _ hs => memOk_exitFrag hs _
  · exact memOk_exitFrag hs _

theorem formed_returnFrom (i : Instr) (skip : Bool) : Formed (returnFrom s i skip) := by
  refine formed_onFragment hs hc _ _ fun h => ?_
  split
  · exact memOk_leaveHandler hs _ _ _
  · exact memOk_plainTrap hs _ _ _ _

theorem formed_frz (d a b : Reg) (sys pin : Bool) : Formed (execFrz d a b sys pin s) := by
  refine formed_onFragment hs hc _ _ fun h => ?_
  dsimp only
  split
  · exact memOk_plainTrap hs _ _ _ _
  · split
    · refine memOk_frozenDone ?_ _ _ _ _ _
      split
      · exact memOk_applyPin hs _ _
      · exact hs
    · split
      · exact memOk_plainTrap hs _ _ _ _
      · split
        · exact memOk_trapOf hs _ _ _
        · exact memOk_put hs _
        · split
          · exact memOk_put hs _
          · exact memOk_freezeRange hs _ _ _ _ _ _ _ _ _

theorem formed_thw (a : Reg) : Formed (execThw a s) := by
  refine formed_onFragment hs hc _ _ fun h => ?_
  dsimp only
  split
  · exact memOk_plainTrap hs _ _ _ _
  · split
    · exact memOk_next hs _ _
    · split
      · exact memOk_next (memOk_thaw hs _ _ _) _ _
      · exact memOk_next hs _ _

theorem formed_fwait (a : Reg) : Formed (execFwait a s) := by
  refine formed_onFragment hs hc _ _ fun h => ?_
  dsimp only
  split
  · exact memOk_next hs _ _
  · split
    · exact memOk_next hs _ _
    · split
      · exact memOk_put hs _
      · exact memOk_next hs _ _

theorem formed_publish (a : Reg) (sc : Scope) : Formed (execPublish a sc s) := by
  refine formed_onFragment hs hc _ _ fun h => ?_
  dsimp only
  split
  · exact memOk_plainTrap hs _ _ _ _
  · split
    · exact memOk_plainTrap hs _ _ _ _
    · split
      · exact memOk_trapOf hs _ _ _
      · split
        · exact memOk_trapOf hs _ _ _
        · split
          · exact memOk_trapOf hs _ _ _
          · exact memOk_put (memOk_setCtx hs _) _

theorem formed_copyForm (i : Instr) {f : Here → Context → Team → State} (hf : ∀ h x t, (f h x t).memOk) : Formed (copyForm s i f) := by
  refine formed_onFragment hs hc _ _ fun h => ?_
  split
  · exact hf _ _ _
  · exact memOk_next hs _ _

/-- A copy form whose operands are checked first (R302). -/
theorem formed_copyChecked (i : Instr) {bad : Here → Context → Team → Prop} [∀ h x t, Decidable (bad h x t)] {q : Here → Context → Team → CopyReq}
    {odd : Here → Context → Team → Option (DWord × Nat)} {b : Here → Context → Team → Option Nat} :
    Formed (copyForm s i fun h x t =>
      if bad h x t then plainTrap s h i cIllegal 0x03#8 else issueCopy s h i x t (q h x t) (odd h x t) (b h x t)) := by
  refine formed_copyForm hs hc _ fun h x t => ?_
  split
  · exact memOk_plainTrap hs _ _ _ _
  · exact memOk_issueCopy hs _ _ _ _ _ _ _

theorem formed_cpy (o : GaC) : Formed (execCpy o s) := formed_copyChecked hs hc _
theorem formed_cpy2d (o : GaC) : Formed (execCpy2d o s) := formed_copyChecked hs hc _
theorem formed_cpyg (o : GaC) : Formed (execCpyg o s) := formed_copyChecked hs hc _
theorem formed_cpyo (p : BitVec 5) (a b : Reg) : Formed (execCpyo p a b s) := formed_copyChecked hs hc _

theorem formed_closeb (a : Reg) : Formed (execCloseb a s) := formed_onFragment hs hc _ _ fun _ => memOk_next hs _ _

theorem formed_waitb (a : Reg) : Formed (execWaitb a s) := by
  refine formed_onFragment hs hc _ _ fun h => ?_
  have h1 := memOk_settleAll hs h
  dsimp only
  split
  · exact memOk_put h1 _
  · exact memOk_next h1 _ _

theorem formed_sarrive (a : Reg) (r : BitVec 3) : Formed (execSarrive a r s) := by
  refine formed_onFragment hs hc _ _ fun h => ?_
  dsimp only
  split
  · exact memOk_next hs _ _
  · split
    · exact memOk_switchOff hs _ _
    · refine memOk_afterRelease hs _ _ _ fun s hs => ?_
      split
      · next ht => exact memOk_next (memOk_setTeam hs _ (wf_arrive (wf_teamOf hs ht) _ _)) _ _
      · exact memOk_next hs _ _

theorem formed_swait (ph : Bool) (a : Reg) (r : BitVec 3) : Formed (execSwait ph a r s) := by
  refine formed_onFragment hs hc _ _ fun h => ?_
  have h1 := memOk_settleAll hs h
  dsimp only
  split
  · exact memOk_next h1 _ _
  · split
    · exact memOk_switchOff h1 _ _
    · split
      · exact memOk_next h1 _ _
      · exact memOk_put h1 _

theorem formed_raf (p : BitVec 5) (a : Reg) : Formed (execRaf p a s) :=
  formed_onFragment hs hc _ _ fun _ => memOk_next (memOk_addFetches hs _ _) _ _

theorem formed_rafg (p : BitVec 5) (a b : Reg) (z : BitVec 3) : Formed (execRafg p a b z s) :=
  formed_onFragment hs hc _ _ fun _ => memOk_next (memOk_addFetches hs _ _) _ _

theorem formed_onOwner (i : Instr) {f : Here → Engine → State} (hf : ∀ h e, (f h e).memOk) : Formed (onOwner s i f) := by
  refine formed_onFragment hs hc _ _ fun h => ?_
  dsimp only
  split
  · exact hf _ _
  · exact memOk_plainTrap hs _ _ _ _

theorem formed_mown : Formed (execMown s) := by
  refine formed_onFragment hs hc _ _ fun h => ?_
  have hq (e : Engine) (w : Wait) : ((s.setEngine h.r.core e).put (h.wait w)).memOk := memOk_put (memOk_setEngine hs _ _) _
  dsimp only
  split
  · exact memOk_next hs _ _
  · split
    · exact hq _ _
    · split
      · exact hq _ _
      · split
        · exact memOk_grantEngine (memOk_next hs _ _) _ _
        · split
          · exact hq _ _
          · exact hq _ _

theorem formed_mrel : Formed (execMrel s) := formed_onOwner hs hc _ fun _ _ => memOk_releaseEngine (memOk_next hs _ _) _

theorem formed_mpass (g : BitVec 12) : Formed (execMpass g s) := by
  refine formed_onOwner hs hc _ fun h _ => ?_
  dsimp only
  split
  · exact memOk_plainTrap hs _ _ _ _
  · split
    · exact memOk_plainTrap hs _ _ _ _
    · split
      · exact memOk_next hs _ _
      · split
        · exact memOk_releaseEngine (memOk_next hs _ _) _
        · exact memOk_passEngine (memOk_next hs _ _) _ _

theorem formed_mshape (o : GlOp) : Formed (execMshape o s) := by
  refine formed_onOwner hs hc _ fun h _ => ?_
  dsimp only
  split
  · exact memOk_trapOf hs _ _ _
  · exact memOk_put hs _
  · refine memOk_next (memOk_setEngine (memOk_drainEngine ?_ _) _ _) _ _
    split
    · exact memOk_holdReplicas hs _ _
    · exact memOk_afterLoad hs _ _ _

theorem formed_midx (a : Reg) : Formed (execMidx a s) := formed_onOwner hs hc _ fun _ _ => memOk_next (memOk_setEngine hs _ _) _ _
theorem formed_midxOff : Formed (execMidxOff s) := formed_onOwner hs hc _ fun _ _ => memOk_next (memOk_setEngine hs _ _) _ _

theorem formed_mloop (o : MloopOp) : Formed (execMloop o s) := by
  refine formed_onOwner hs hc _ fun h e => ?_
  dsimp only
  split
  · exact memOk_trapOf hs _ _ _
  · split
    · exact memOk_trapOf hs _ _ _
    · split
      · exact memOk_startLoop hs _ _ _ _ _
      · exact memOk_next hs _ _

theorem formed_mzero (t : BitVec 12) : Formed (execMzero t s) :=
  formed_onOwner hs hc _ fun _ _ => memOk_next (memOk_setEngine (memOk_drainEngine hs _) _ _) _ _

theorem formed_mrd (d a : Reg) (t : BitVec 2) : Formed (execMrd d a t s) := by
  refine formed_onOwner hs hc _ fun h _ => ?_
  dsimp only
  split
  · exact memOk_plainTrap hs _ _ _ _
  · split
    · next hg => exact memOk_budgetGate hs _ _ _ _ hg
    · exact memOk_evictNames (memOk_next (memOk_foldl_fst _ (fun _ _ hp => memOk_writeV hp _ _ _) _ _ (memOk_drainEngine hs _)) _ _) _

theorem formed_mwr (d a : Reg) (t : BitVec 2) : Formed (execMwr d a t s) := by
  refine formed_onOwner hs hc _ fun h _ => ?_
  dsimp only
  split
  · exact memOk_plainTrap hs _ _ _ _
  · split
    · exact memOk_trapOf hs _ _ _
    · exact memOk_next (memOk_setEngine (memOk_drainEngine hs _) _ _) _ _

theorem formed_emit (o : LrN) : Formed (execEmit o s) := by
  refine formed_onFragment hs hc _ _ fun h => ?_
  dsimp only
  split
  · exact memOk_next hs _ _
  · split
    · exact memOk_next hs _ _
    · split
      · exact memOk_plainTrap hs _ _ _ _
      · split
        · next hg => exact memOk_issueGates hs _ _ _ _ hg
        · split
          · exact memOk_trapOf hs _ _ _
          · exact memOk_next (memOk_sendRecords hs _ _ _ _) _ _

theorem formed_tsub (a : Reg) : Formed (execTsub a s) := by
  refine formed_onFragment hs hc _ _ fun h => ?_
  dsimp only
  split
  · exact memOk_trapOf hs _ _ _
  · exact memOk_put hs _
  · refine memOk_afterRelease hs _ _ _ fun s hs => ?_
    split
    · exact memOk_next (memOk_submitTask hs _ _ _) _ _
    · exact memOk_next hs _ _

theorem formed_kill (b : Reg) (m : BitVec 16) : Formed (execKill b m s) := by
  refine formed_onFragment hs hc _ _ fun h => ?_
  dsimp only
  split
  · exact memOk_evictNames (memOk_next hs _ _) _
  · exact memOk_next hs _ _

theorem formed_srd (d : Reg) (n : BitVec 12) : Formed (execSrd d n s) := by
  refine formed_onFragment hs hc _ _ fun h => ?_
  dsimp only
  split
  · split
    · exact memOk_next hs _ _
    · split
      · next hg => exact memOk_budgetGate hs _ _ _ _ hg
      · exact memOk_evictNames (memOk_next (memOk_writeV hs _ _ _) _ _) _
  · split
    · exact memOk_next hs _ _
    · exact memOk_next hs _ _

end

end Sys2Proof.Machine
end

section
/-! SUPPORT. That the events of the memory system, of the package, of line fetches, teams, tasks, launches and nodes keep the form (R4).
-/

namespace Sys2Proof.Machine

/-! ## Publishing (R310) -/

theorem memOk_flushCore {s : State} (hs : s.memOk) (c : Fin 256) (p : Nat → Bool) : (flushCore s c p).memOk := by
  have h1 := memOk_writeBack hs c (dirtyWhere s c p)
  exact memOk_setCore h1 c _ (sorted_filter _ (h1.l1 c))

theorem memOk_flushWhere {s : State} (hs : s.memOk) (p : Nat → Bool) : (flushWhere s p).memOk := by
  unfold flushWhere
  extract_lets s1
  have h1 : s1.memOk := by
    refine memOk_foldl _ (fun s c hs => ?_) _ _ hs
    split
    · exact memOk_flushCore hs _ _
    · exact hs
  refine memOk_withSlices h1 _ fun d => ?_
  simpa using sorted_filter _ (h1.slices d)

theorem memOk_takePublish {s : State} (hs : s.memOk) (c n : Nat) : ∀ t, takePublish s c n = some t → t.memOk := by
  intro t e
  obtain ⟨x, -, e⟩ := Option.bind_eq_some_iff.mp e
  obtain ⟨b, -, e⟩ := Option.bind_eq_some_iff.mp e
  split at e
  · cases e
  · cases e; exact memOk_setCtx hs _

theorem memOk_repoint {s : State} (hs : s.memOk) (b : PublishBuffer) : (repoint s b).memOk :=
  .of_tables (memOk_mapCores hs (fun k => { k with slots := k.slots.map (fun o => o.map (fun g =>
      g.mapFrags (fun _ f => { f with passed := f.passed.map (fun a => a.move
        (fun a => if inRange b.live b.size a then b.shadow + (a - b.live) else a)) }))) }) fun _ => rfl) rfl

theorem memOk_forgetReads {s : State} (hs : s.memOk) (p : Nat → Bool) : (forgetReads s p).memOk := memOk_mapCores hs _ fun _ => rfl

theorem memOk_stopGrants {s : State} (hs : s.memOk) (c n : Nat) : (stopGrants s c n).memOk := by
  fun_cases stopGrants
  · exact hs
  · exact memOk_setCtx hs _
  · exact hs

theorem memOk_publishPoint? {s : State} (hs : s.memOk) (c n k : Nat) : ∀ t, publishPoint? s c n k = some t → t.memOk := by
  intro t e
  obtain ⟨x, -, e⟩ := Option.bind_eq_some_iff.mp e
  obtain ⟨b, -, e⟩ := Option.bind_eq_some_iff.mp e
  split at e
  · cases e
  · obtain ⟨y, -, rfl⟩ := Option.map_eq_some_iff.mp e
    exact memOk_setCtx (memOk_forgetReads (memOk_repoint (memOk_flushWhere hs _) _) _) _

/-! ## The memory system's events -/

theorem memOk_mapFrags {s : State} (hs : s.memOk) (f : Group → Frag → Frag) : (mapFrags s f).memOk :=
  memOk_ofFnCores hs _ fun _ => by dsimp only; rfl

theorem memOk_applyRedgsIn {s : State} (hs : s.memOk) (p : Nat → Bool) : (applyRedgsIn s p).memOk :=
  memOk_foldl _ (fun _ _ h => memOk_applyRedg h _) _ _ hs

theorem memOk_activate {s : State} (hs : s.memOk) (c i : Nat) : (activate s c i).memOk := by
  fun_cases activate
  · exact hs
  · exact memOk_mapFrags (memOk_setCtx hs _) _

theorem formed_resultArrival {s : State} (hs : s.memOk) (r : FragRef) (n : Nat) : Formed (execResultArrival r n s) := by
  refine formed_next ?_
  split
  · exact hs
  · exact memOk_setGroup hs _ _ _

theorem formed_copyComplete {s : State} (hs : s.memOk) (n : Nat) : Formed (execCopyComplete n s) := by
  refine formed_next ?_
  split
  · exact memOk_finishCopy hs _
  · exact hs

theorem formed_freezePoint {s : State} (hs : s.memOk) (c : Nat) (n : Fin 1024) : Formed (execFreezePoint c n s) := by
  refine formed_next ?_
  split
  · exact hs
  · dsimp only
    split
    · exact hs
    · split
      · exact memOk_flushWhere (memOk_applyRedgsIn hs _) _
      · exact memOk_activate (memOk_flushWhere (memOk_applyRedgsIn hs _) _) _ _

theorem formed_thawComplete {s : State} (hs : s.memOk) (c : Nat) (n : Fin 1024) : Formed (execThawComplete c n s) := by
  refine formed_next ?_
  split
  · exact hs
  · dsimp only
    split
    · exact hs
    · exact memOk_ofFnCores (memOk_setCtx hs _) _ fun _ => rfl

theorem formed_writeComplete {s : State} (hs : s.memOk) (n : Nat) : Formed (execWriteComplete n s) := by
  refine formed_next ?_
  split
  · split
    · exact hs.of_tables rfl
    · exact hs
  · exact hs

theorem memOk_passPublish {s : State} (hs : s.memOk) (h : Here) (n : Nat) : (passPublish s h n).memOk := by
  fun_cases passPublish
  · exact hs
  · next e _ => exact memOk_publishPoint? hs _ _ _ _ e
  · next e _ _ _ => exact memOk_setGroup (memOk_publishPoint? hs _ _ _ _ e) _ _ _

theorem memOk_finishPublish {s : State} (hs : s.memOk) (h : Here) (n : Nat) (sc : Scope) : (finishPublish s h n sc).memOk := by
  have hr := memOk_releaseWork hs h sc
  fun_cases finishPublish
  · exact memOk_passPublish hs _ _
  · exact hs
  · exact memOk_passPublish (memOk_stopGrants hr _ _) _ _
  · exact hr

theorem formed_publishPoint {s : State} (hs : s.memOk) (r : FragRef) : Formed (execPublishPoint r s) := by
  refine formed_next ?_
  split
  · exact hs
  · split
    · exact memOk_finishPublish hs _ _ _
    · split
      · next e => exact memOk_finishPublish (memOk_put (memOk_takePublish hs _ _ _ e) _) _ _ _
      · exact hs
    · exact hs

theorem formed_redgApply {s : State} (hs : s.memOk) (n : Nat) : Formed (execRedgApply n s) := by
  refine formed_next ?_
  split
  · split
    · exact hs
    · exact memOk_applyRedg hs _
  · exact hs

theorem formed_promotionRequest {s : State} (hs : s.memOk) (n : Nat) : Formed (execPromotionRequest n s) := by
  refine formed_next ?_
  extract_lets mine s1 done s2
  split
  · exact hs
  · have h1 : s1.memOk := memOk_foldl _ (fun _ _ h => memOk_registerAll h _) _ _ hs
    have h2 : s2.memOk := h1.of_tables rfl
    split
    · exact h2
    · exact memOk_mapFrags h2 _

theorem formed_biasTransitionEnd {s : State} (hs : s.memOk) (c va : Nat) : Formed (execBiasTransitionEnd c va s) := by
  refine formed_next ?_
  split
  · exact hs
  · split
    · exact hs
    · split
      · exact hs
      · next p _ _ pa _ =>
        have h1 := memOk_flushWhere (memOk_applyRedgsIn hs (inRange pa p.size)) (inRange pa p.size)
        have h2 := memOk_setLeafBit (memOk_setLeafBit h1 p 55 true) p 54 false
        dsimp only
        split
        · exact h1
        · split
          · exact memOk_setCtx h2 _
          · exact h2

theorem memOk_remoteWrite {s : State} (hs : s.memOk) (a : Nat) (bs : List Byte) : (remoteWrite s a bs).memOk := by
  fun_cases remoteWrite
  · exact hs
  · exact memOk_settlePoison (memOk_noteDevice (memOk_foldl _ (fun _ _ h => memOk_memSet (memOk_recallByte h _) _ _) _ _ hs) _) _ _

theorem formed_remoteAccessArrival {s : State} (hs : s.memOk) (q : RemoteReq) : Formed (execRemoteAccessArrival q s) := by
  refine formed_next ?_
  split
  · extract_lets home len
    clear_value len
    split
    · exact hs.of_tables rfl
    · split
      · exact hs
      · exact hs.of_tables rfl
  · exact memOk_remoteWrite hs _ _
  · split
    · exact hs
    · exact memOk_remoteWrite (memOk_foldl _ (fun _ _ h => memOk_recallByte h _) _ _ hs) _ _
  · exact hs.of_tables rfl

/-! ## The package -/

theorem memOk_poisonLane {s : State} (hs : s.memOk) (c : Fin 256) (i : Fin 64) (r : Reg) (l : Fin 32) : (poisonLane s c i r l).memOk := by
  fun_cases poisonLane
  · exact hs
  · exact hs
  · exact memOk_evictNames (memOk_setGroup hs _ _ _) _

theorem memOk_poisonTrapLane {s : State} (hs : s.memOk) (c : Fin 256) (i : Fin 64) (r : BitVec 3) (l : Fin 32) :
    (poisonTrapLane s c i r l).memOk := by
  fun_cases poisonTrapLane
  · exact hs
  · exact memOk_setGroup hs _ _ _

theorem formed_eccError {s : State} (hs : s.memOk) (t : EccTarget) : Formed (execEccError t s) := by
  refine formed_next ?_
  cases t with
  | refetched b => exact hs.of_tables rfl
  | register c i r l => exact memOk_poisonLane hs c i r l
  | trapRegister c i r l => exact memOk_poisonTrapLane hs c i r l
  | memory g => exact hs.of_tables rfl
  | scratchpad u g =>
    dsimp only
    split
    · next ht =>
      split
      · exact memOk_setTeam_same hs ht rfl
      · exact hs
    · exact hs
  | accumulator c tile row col => exact memOk_setEngine hs _ _
  | reuse c i =>
    dsimp only
    split
    · exact .of_tables (memOk_setCore_l1 hs c (k := { s.core c with reuse := (s.core c).reuse.eraseIdx i }) rfl) rfl
    · exact hs

theorem memOk_setAgent {s : State} (hs : s.memOk) (a : Fin 512) (x : Slice) : (setAgent s a x).memOk := by
  fun_cases setAgent
  · exact memOk_setCore_l1 hs _ rfl
  · exact hs.of_tables rfl

theorem memOk_dropLeased {s : State} (hs : s.memOk) (a : Fin 512) : (dropLeased s a).memOk := by
  fun_cases dropLeased
  · exact memOk_setCore hs _ _ (sorted_filter _ (hs.l1 _))
  · refine memOk_withSlices hs _ fun d => ?_
    simp only [Fin.getElem_fin, Vector.getElem_ofFn]
    split
    · rfl
    · split
      · exact sorted_filter _ (hs.slices d)
      · exact hs.slices d

theorem memOk_reset : State.reset.memOk where
  mem := rfl
  free := rfl
  apart := fun _ _ => rfl
  registered := rfl
  l1 := fun c => by simp [State.reset, State.core, Core.reset, tableSortedFrom]
  slices := fun d => by simp [State.reset, tableSortedFrom]
  pads := fun _ h => by simp [State.reset] at h
  kept := rfl

theorem formed_powerOn {s : State} (hs : s.memOk) (f : BitVec 256) (o : Bool) : Formed (execPowerOn f o s) := by
  refine formed_next ?_
  have hr := memOk_reset
  have h1 : ({ s with mem := [], freeAt := [], kept := [] } : State).memOk :=
    ⟨hr.mem, hr.free, hr.apart, hs.registered, hs.l1, hs.slices, hs.pads, hr.kept⟩
  have h2 := memOk_withCores h1 (Vector.ofFn fun c : Fin 256 => { Core.reset with fenced := f.getLsbD c.val }) fun c => by
    simp [Core.reset, tableSortedFrom]
  split
  · exact hs
  · exact hs
  · exact h2.of_tables rfl
  · exact h2.of_tables rfl

theorem formed_powerLoss (s : State) : Formed (execPowerLoss s) := formed_next (memOk_reset.of_tables rfl)

/-! ## Leap slots and the observer -/

theorem memOk_distil {s : State} (hs : s.memOk) (x : Context) (l : Launch) (n : Nat) (h : SlotHeader) (ps : List Pattern) (run : Nat) :
    (distil s x l n h ps run).memOk := memOk_fwWrite (memOk_writeHeader hs _ _ _) _ _

theorem memOk_emptySlot {s : State} (hs : s.memOk) (x : Context) (n id : Nat) : (emptySlot s x n id).memOk :=
  memOk_fwWrite (memOk_setObs (memOk_clearSlotAt hs _ _) _ _ _) _ _

theorem memOk_rateSlot {s : State} (hs : s.memOk) (x : Context) (n : Nat) (h : SlotHeader) (o : LeapObs) (ps : Nat × List Pattern) :
    (rateSlot s x n h o ps).memOk := by
  unfold rateSlot
  extract_lets agrees conf
  split
  · exact memOk_setObs (memOk_writeHeader hs _ _ _) _ _ _
  · split
    · exact memOk_emptySlot hs _ _ _
    · exact memOk_writeHeader hs _ _ _

theorem memOk_learnSlot {s : State} (hs : s.memOk) (x : Context) (l : Launch) (n : Nat) (h : SlotHeader) (o : LeapObs) (ps : Nat × List Pattern) :
    (learnSlot s x l n h o ps).memOk := by
  unfold learnSlot
  extract_lets agrees run s1 h1
  have hs1 : s1.memOk := memOk_setObs hs _ _ _
  split
  · exact memOk_distil hs1 _ _ _ _ _ _
  · exact memOk_writeHeader hs1 _ _ _

theorem memOk_updateSlot {s : State} (hs : s.memOk) (x : Context) (id : BitVec 128) (seen : Bool) :
    ∀ r, updateSlot s x id seen = some r → r.1.memOk := by
  fun_cases updateSlot
  · rintro _ ⟨⟩; exact hs
  · exact memOk_takeSlot hs _ _
  · rintro _ ⟨⟩

theorem memOk_updateLeap {s : State} (hs : s.memOk) (x : Context) (l : Launch) (b : LaunchBlock) : (updateLeap s x l b).memOk := by
  unfold updateLeap
  split
  · exact hs
  · dsimp only
    split
    · exact hs
    · next r e =>
      have h1 := memOk_updateSlot hs _ _ _ _ e
      split
      · split
        · exact memOk_learnSlot h1 _ _ _ _ _ _
        · exact memOk_rateSlot h1 _ _ _ _ _
      · exact memOk_writeHeader h1 _ _ _

theorem memOk_forgetLaunch {s : State} (hs : s.memOk) (l : Launch) : (forgetLaunch s l).memOk := by
  refine memOk_foldl _ (fun s c hs => ?_) _ _ hs
  exact memOk_setCore_l1 hs _ rfl

/-! ## Run-ahead fetches -/

theorem memOk_countFetch {s : State} (hs : s.memOk) (f : Fetch) (g : Launch → Launch) : (countFetch s f g).memOk := by
  fun_cases countFetch
  · exact memOk_setLaunch hs _
  · exact hs
  · exact hs

theorem memOk_dropFetch {s : State} (hs : s.memOk) (c : Fin 256) (n : Nat) : (dropFetch s c n).memOk := memOk_setCore_l1 hs _ rfl

theorem memOk_evictHeld {s : State} (hs : s.memOk) (c : Fin 256) (l : Nat) : (evictHeld s c l).memOk := by
  have h1 : ({ s with choices := s.choices + 1 } : State).memOk := hs.of_tables rfl
  fun_cases evictHeld
  · exact h1
  · exact memOk_setCore_l1 h1 _ rfl
  · exact h1

theorem memOk_fetchLine {s : State} (hs : s.memOk) (c : Fin 256) (f : Fetch) (lo hi : Nat) : (fetchLine s c f lo hi).memOk := by
  have h1 (g : Launch → Launch) := memOk_dropFetch (memOk_countFetch hs f g) c f.n
  fun_cases fetchLine
  · exact h1 _
  · exact h1 _
  · exact memOk_evictHeld hs _ _
  · exact h1 _
  · exact memOk_setCore_l1 (h1 _) _ rfl

theorem memOk_fetchElement {s : State} (hs : s.memOk) (c : Fin 256) (f : Fetch) (i b : DWord) (n : Nat) (r : Option Word) :
    (fetchElement s c f i b n r).memOk := by
  unfold fetchElement
  split
  · exact memOk_dropFetch (memOk_countFetch hs _ _) _ _
  · extract_lets idx t qs k
    exact .of_tables (memOk_setCore_l1 hs c (k := { k with fetches := k.fetches.flatMap (fun x => if x.n = f.n then qs else [x]) }) rfl) rfl

theorem formed_lineFetch {s : State} (hs : s.memOk) (c : Fin 256) (n : Nat) : Formed (execLineFetch c n s) := by
  refine formed_next ?_
  split
  · exact hs
  · split
    · exact memOk_fetchLine hs _ _ _ _
    · exact memOk_fetchElement hs _ _ _ _ _ _

/-! ## Placing teams -/

theorem seat_l1 (k : Core) (g : Group) : (k.seat g).l1 = k.l1 := by
  unfold Core.seat
  split
  · exact setSlot_l1 _ _ _
  · rfl

theorem memOk_startLeap {s : State} (hs : s.memOk) (x : Context) (l : Launch) (c : Fin 256) (t : Word) : (startLeap s x l c t).memOk := by
  unfold startLeap
  split
  · exact hs
  · extract_lets k regs v v1 pc g
    split
    · exact hs
    · have h1 := memOk_setCore_l1 hs c (seat_l1 k g)
      clear_value g
      exact h1.of_tables rfl

theorem memOk_beginSlice {s : State} (hs : s.memOk) (c : Nat) : (beginSlice s c).memOk := by
  fun_cases beginSlice
  · exact hs
  · exact memOk_setCtx hs _
  · exact hs

theorem wf_firstPad (l : Launch) : Memory.wf (firstPad l) = true := by
  fun_cases firstPad
  · exact wf_bytesWrite _ _ rfl
  · rfl
  · rfl

theorem memOk_placeTeam {s0 : State} (hs : s0.memOk) (x : Context) (l : Launch) (b : LaunchBlock) (d : Nat) (c : Fin 256) :
    (placeTeam s0 x l b d c).memOk := by
  unfold placeTeam
  extract_lets s tid u ms team k0 k first l1 s' s1 s2
  have h0 : s.memOk := memOk_selfInvalidate (memOk_beginSlice hs _) _
  have hk : k.l1 = (s.core c).l1 := by
    refine List.foldlRecOn (motive := fun k : Core => k.l1 = (s.core c).l1) _ _ ?_ fun k hk m _ => ?_
    · rfl
    · exact (seat_l1 k _).trans hk
  have h1 : s1.memOk := by
    refine .of_tables (memOk_withTeams (memOk_setLaunch (memOk_setCore_l1 h0 c hk) l1) (s.teams ++ [team]) fun t ht => ?_) rfl
    rcases List.mem_append.mp ht with ht | ht
    · exact h0.pads t ht
    · rw [List.mem_singleton.mp ht]; exact wf_firstPad l
  have h2 : s2.memOk := by
    dsimp only [s2]
    split
    · exact memOk_startLeap h1 _ _ _ _
    · exact h1
  clear_value s2
  split
  · exact h2
  · split
    · exact memOk_runEntry h2 _ _
    · exact h2
  · split
    · exact memOk_runEntry h2 _ _
    · exact h2

theorem memOk_markDraining {s : State} (hs : s.memOk) (l : Launch) (b : LaunchBlock) : (markDraining s l b).memOk := by
  fun_cases markDraining
  · exact hs
  · exact hs
  · refine memOk_settleDraining (memOk_setCore_l1 hs _ ?_) _
    rfl

theorem memOk_placeFirst : ∀ (ls : List Launch) {s : State}, s.memOk → (placeFirst ls s).memOk
  | [], _, hs => hs
  | l :: rest, s, hs => by
    unfold placeFirst
    split
    · split
      · exact memOk_placeTeam hs _ _ _ _ _
      · exact memOk_placeFirst rest (memOk_markDraining hs _ _)
    · exact memOk_placeFirst rest hs

theorem memOk_placeNext {s : State} (hs : s.memOk) : (placeNext s).memOk := memOk_placeFirst _ hs

/-! ## Moving teams -/

theorem memOk_releaseTeam {s : State} (hs : s.memOk) (t : Team) : (releaseTeam s t).memOk := by
  refine memOk_foldl _ (fun _ _ h => memOk_registerAll (memOk_drainRedgs h _) _) _ _ ?_
  split
  · exact memOk_drainEngine hs _
  · exact hs

theorem memOk_firstTeam {s : State} (hs : s.memOk) (t : Team) (c : Fin 256) : (firstTeam s t c).memOk := by
  fun_cases firstTeam
  · exact hs
  · exact hs
  · exact memOk_startLeap (memOk_setLaunch hs _) _ _ _ _
  · exact memOk_setLaunch hs _

theorem seatSame_l1 : ∀ (gs : List (Fin 64 × Group)) (k : Core), ∀ k1, seatSame k gs = some k1 → k1.l1 = k.l1
  | [], _ => by rintro _ ⟨⟩; rfl
  | (i, g) :: rest, k => by
    unfold seatSame
    split
    · exact seatSame_l1 rest _
    · rintro _ ⟨⟩

theorem memOk_beginMove {s : State} (hs : s.memOk) (t : Team) (ht : Memory.wf t.scratch = true) (b : LaunchBlock) (c : Fin 256) :
    (beginMove s t b c).memOk := by
  unfold beginMove
  extract_lets s1 gs
  have h1 : s1.memOk := memOk_releaseTeam hs t
  clear_value s1
  split
  · exact hs
  · next k e =>
    have h2 : (gs.foldl (fun s g => s.clearSlot t.core g.1) s1).memOk := memOk_foldl _ (fun _ _ h => memOk_clearSlot h _ _) _ _ h1
    have hk : tableSortedFrom 0 k.l1 = true := by rw [seatSame_l1 _ _ _ e]; exact h1.l1 c
    refine memOk_settleDraining (memOk_firstTeam (memOk_setTeam (memOk_setCore h2 c k hk) _ ?_) _ _) _
    exact ht

theorem formed_teamMigration {s : State} (hs : s.memOk) (u : Nat) (c : Fin 256) : Formed (execTeamMigration u c s) := by
  refine formed_next ?_
  split
  · exact hs
  · next t ht =>
    split
    · exact hs
    · split
      · exact memOk_beginMove hs t (wf_team hs ht) _ _
      · exact hs

theorem formed_teamMoveArrival {s : State} (hs : s.memOk) (u : Nat) : Formed (execTeamMoveArrival u s) := by
  refine formed_next ?_
  split
  · exact hs
  · next t ht =>
    split
    · exact hs
    · split
      · exact hs
      · refine memOk_selfInvalidate (memOk_setTeam_same hs ht ?_) _
        rfl

/-! ## Tasks -/

theorem memOk_addJob {s : State} (hs : s.memOk) (c : Nat) (j : TaskJob) : (addJob s c j).memOk := by
  fun_cases addJob
  · exact memOk_setCtx hs _
  · exact hs

theorem memOk_decrementPreds {s : State} (hs : s.memOk) (c a : Nat) : (decrementPreds s c a).memOk := by
  have h1 (n : Nat) := memOk_setTaskField hs a 4 4 n
  fun_cases decrementPreds
  · exact hs
  · exact h1 _
  · exact memOk_launchTask (memOk_setTaskState (h1 _) _ _) _ _ _ _
  · exact memOk_addJob (h1 _) _ _
  · exact h1 _

theorem memOk_retireTask {s : State} (hs : s.memOk) (c a : Nat) : (retireTask s c a).memOk := by
  refine memOk_foldl _ (fun s i hs => ?_) _ _ (memOk_setTaskState hs _ _)
  split
  · exact memOk_decrementPreds hs _ _
  · exact hs

theorem memOk_restoreShadow {s : State} (hs : s.memOk) (b : PublishBuffer) : (restoreShadow s b).memOk :=
  memOk_settlePoison (memOk_noteDevice (memOk_foldl _ (fun _ _ h => memOk_fwSetByte h _ _) _ _ hs) _) _ _

theorem memOk_relaunchTask {s : State} (hs : s.memOk) (c a : Nat) : (relaunchTask s c a).memOk := by
  unfold relaunchTask
  split
  · exact hs
  · next x _ =>
    extract_lets s1 s2
    have h1 : s1.memOk := by
      refine memOk_foldl _ (fun s n hs => ?_) _ _ hs
      split
      · exact memOk_restoreShadow hs _
      · exact hs
    have h2 : s2.memOk := memOk_setTaskState (memOk_setTaskField h1 _ _ _ _) _ _
    clear_value s2
    split
    · exact memOk_launchTask (memOk_setCtx h2 _) _ _ _ _
    · exact h2

theorem memOk_jobStep {s : State} (hs : s.memOk) (c : Nat) (j : TaskJob) : (jobStep s c j).1.memOk := by
  have h1 (n : Nat) := memOk_stopGrants hs c n
  fun_cases jobStep
  · exact hs
  · exact hs
  · exact hs
  · exact memOk_relaunchTask hs _ _
  · exact memOk_retireTask hs _ _
  · next e => exact memOk_takePublish hs _ _ _ e
  · exact hs
  · exact hs
  · next e => exact memOk_publishPoint? (h1 _) _ _ _ _ e
  · exact h1 _

theorem memOk_runJob (c : Nat) : ∀ (fuel : Nat) {s : State} (j : TaskJob), s.memOk → (runJob c fuel s j).1.memOk
  | 0, _, _, hs => hs
  | fuel + 1, s, j, hs => by
    have h1 := memOk_jobStep hs c j
    unfold runJob
    split
    · next e => rw [e] at h1; exact h1
    · next e =>
      rw [e] at h1
      split
      · exact h1
      · exact memOk_runJob c fuel _ h1

theorem memOk_pumpJobs {s : State} (hs : s.memOk) (c : Nat) : (pumpJobs s c).memOk := by
  unfold pumpJobs
  split
  · exact hs
  · refine memOk_foldl _ (fun s j hs => ?_) _ _ (memOk_setCtx hs _)
    have h1 := memOk_runJob c 40 j hs
    dsimp only
    split
    · exact memOk_addJob h1 _ _
    · exact h1

theorem memOk_endTask {s : State} (hs : s.memOk) (c a : Nat) (sp bad : Bool) : (endTask s c a sp bad).memOk := by
  unfold endTask
  split
  · exact memOk_addJob hs _ _
  · exact memOk_setTaskState hs _ _
  · extract_lets s1 s2
    have h1 : s1.memOk := memOk_setTaskState hs _ _
    have h2 : s2.memOk := by
      dsimp only [s2]
      clear_value s1
      split
      · split
        · exact memOk_setCtx h1 _
        · exact h1
      · exact h1
    split
    · exact memOk_addJob h2 _ _
    · exact h2

/-! ## The end of a launch, pre-emption and samples -/

theorem memOk_endLeapOn {s : State} (hs : s.memOk) (l : Launch) : (l.cores.foldl (fun s c => endLeap s (Fin.ofNat 256 c) l.id) s).memOk :=
  memOk_foldl _ (fun _ _ h => memOk_endLeap h _ _) _ _ hs

theorem memOk_finishLaunch {s : State} (hs : s.memOk) (l : Launch) : (finishLaunch s l).memOk := by
  unfold finishLaunch
  extract_lets s1 s2 s3
  have h1 : s1.memOk := by
    dsimp only [s1]
    split
    · exact memOk_updateLeap hs _ _ _
    · exact hs
  have h2 : s2.memOk := memOk_forgetLaunch (memOk_endLeapOn h1 l) _
  have h3 : s3.memOk := h2.of_tables rfl
  clear_value s3
  split
  · exact memOk_endEntry h3 _ _ _ _
  · exact h3
  · exact memOk_endTask (memOk_endEntry h3 _ _ _ _) _ _ _ _

theorem formed_launchDone {s : State} (hs : s.memOk) (n : Nat) : Formed (execLaunchDone n s) := by
  refine formed_next ?_
  split
  · exact hs
  · next l _ =>
    have h1 : (l.cores.foldl (fun s c => registerAll s ⟨Fin.ofNat 256 c, 0, l.id, false⟩) s).memOk :=
      memOk_foldl _ (fun _ _ h => memOk_registerAll h _) _ _ hs
    dsimp only
    split
    · exact hs
    · split
      · exact h1
      · exact memOk_finishLaunch h1 _

theorem memOk_requestPreempt {s : State} (hs : s.memOk) (c : Nat) : (requestPreempt s c).memOk := by
  unfold requestPreempt
  split
  · exact hs
  · refine memOk_settlePark ?_ _
    split
    · exact hs
    · exact memOk_setCtx hs _

theorem memOk_resumePark {s : State} (hs : s.memOk) (c : Nat) : (resumePark s c).memOk := by
  fun_cases resumePark
  · exact hs
  · exact memOk_setCtx hs _

theorem formed_timeSliceExpiry {s : State} (hs : s.memOk) (c : Nat) : Formed (execTimeSliceExpiry c s) := by
  refine formed_next ?_
  split
  · exact hs
  · split
    · exact hs
    · extract_lets s0 parked s1
      have h1 : s1.memOk := memOk_foldl _ (fun _ _ h => memOk_resumePark h _) _ _ (memOk_setCtx hs _)
      split
      · exact memOk_requestPreempt h1 _
      · exact h1

theorem memOk_endLeaps {s : State} (hs : s.memOk) (c : Nat) : (endLeaps s c).memOk :=
  memOk_foldl _ (fun _ l h => memOk_endLeapOn h l) _ _ hs

theorem formed_deadlineExpiry {s : State} (hs : s.memOk) (c : Nat) : Formed (execDeadlineExpiry c s) := by
  refine formed_next ?_
  split
  · exact hs
  · dsimp only
    split
    · exact memOk_settlePark (memOk_foldl _ (fun _ _ h => memOk_endTeam h _ _ _) _ _ (memOk_endLeaps hs _)) _
    · exact hs

theorem memOk_withChoices {s : State} (hs : s.memOk) (n : Nat) : ({ s with choices := n } : State).memOk := hs.of_tables rfl

theorem memOk_sampleQuarter {s : State} (hs : s.memOk) (x : Nat) (c : Fin 256) (q : Nat) : (sampleQuarter s x c q).memOk := by
  have key (g) (hg : g = sampleQuarter) : (g s x c q).memOk := by
    delta sampleQuarter at hg
    rw [hg]
    beta_reduce
    split
    · exact hs
    · extract_lets fs i n o s1 s2
      have h1 : s1.memOk := memOk_ringPut hs _ _ _
      clear_value s1
      have h2 : s2.memOk := memOk_setCtx h1 _
      clear_value s2
      exact memOk_withChoices h2 _
  exact key _ rfl

theorem formed_stallSample {s : State} (hs : s.memOk) (c : Nat) : Formed (execStallSample c s) := by
  refine formed_next ?_
  split
  · exact hs
  · split
    · exact hs
    · exact memOk_foldl _ (fun _ _ h => memOk_foldl _ (fun _ _ h => memOk_sampleQuarter h _ _ _) _ _ h) _ _ hs

/-! ## Work graphs -/

theorem memOk_launchNode {s : State} (hs : s.memOk) (c i k : Nat) : (launchNode s c i k).memOk := by
  unfold launchNode
  split
  · exact hs
  · split
    · exact hs
    · dsimp only
      split
      · exact memOk_setCtx hs _
      · exact memOk_acceptLaunch (memOk_setCtx hs _) _ _ _ _ _ _ _ _

theorem memOk_enterBin {s : State} (hs : s.memOk) (c i : Nat) (r : NodeRecord) : (enterBin s c i r).memOk := by
  unfold enterBin
  split
  · exact hs
  · split
    · exact hs
    · extract_lets expiry n1 s1
      have h1 : s1.memOk := memOk_setCtx hs _
      split
      · exact memOk_launchNode h1 _ _ _
      · exact h1

theorem memOk_dropRecord {s : State} (hs : s.memOk) (c i : Nat) : (dropRecord s c i).memOk := by
  fun_cases dropRecord
  · exact hs
  · exact hs
  · exact memOk_setCtx hs _

theorem memOk_arriveRecord {s : State} (hs : s.memOk) (c i : Nat) (r : NodeRecord) : (arriveRecord s c i r).memOk := by
  fun_cases arriveRecord
  · exact hs
  · exact memOk_enterBin hs _ _ _
  · exact memOk_enterBin hs _ _ _
  · exact memOk_dropRecord hs _ _

theorem formed_emitRecordArrival {s : State} (hs : s.memOk) (n : Nat) : Formed (execEmitRecordArrival n s) := by
  refine formed_next ?_
  have h1 : ({ s with emits := s.emits.filter (fun x => x.id != n) } : State).memOk := hs.of_tables rfl
  split
  · exact hs
  · dsimp only
    split
    · exact hs
    · split
      · split
        · exact memOk_arriveRecord h1 _ _ _
        · exact h1
      · exact h1

theorem formed_nodeTimerExpiry {s : State} (hs : s.memOk) (c n : Nat) : Formed (execNodeTimerExpiry c n s) := by
  refine formed_next ?_
  split
  · exact hs
  · split
    · split
      · exact memOk_launchNode hs _ _ _
      · exact hs
    · exact hs

end Sys2Proof.Machine
end

section
/-! SUPPORT. That the loading of modules and the host's commands keep the canonical form of the byte tables (R118, R416).
-/

namespace Sys2Proof.Machine

/-! ## Loading a module -/

theorem memOk_loaderFreeze {s : State} (hs : s.memOk) (x : Context) (lo hi : Nat) (sys : Bool) :
    ∀ t i, loaderFreeze s x lo hi sys = .begun t i → t.memOk := by
  fun_cases loaderFreeze <;> rintro t i ⟨⟩
  · exact memOk_setCtx hs _
  · exact memOk_setCtx hs _

theorem memOk_hostWrite {s : State} (hs : s.memOk) (x : Context) (va : Nat) (bs : List Byte) : (hostWrite s x va bs).memOk :=
  memOk_settlePoison (memOk_noteDevice (memOk_foldl _ (fun _ _ h => memOk_memSet (memOk_recallByte h _) _ _) _ _ hs) _) _ _

theorem memOk_patchWord {s : State} (hs : s.memOk) (x : Context) (va : Nat) (w : Word) : (patchWord s x va w).memOk :=
  memOk_hostWrite hs _ _ _

theorem memOk_relocate {s : State} (hs : s.memOk) (f : List Byte) (addrs : List (Nat × Nat)) (x : Context) (r : List Byte) :
    ∀ t, relocate f addrs x s r = some t → t.memOk := by
  unfold relocate
  extract_lets e base sv sa p d jump w0 w1 wide
  have hj (n : Nat) : ∀ t, jump n = some t → t.memOk := by
    intro t ht
    dsimp only [jump] at ht
    split at ht
    · cases ht
      exact memOk_patchWord hs _ _ _
    · cases ht
  have hw (n : Nat) : ∀ t, wide n = some t → t.memOk := by
    intro t ht
    dsimp only [wide] at ht
    split at ht
    · cases ht
      exact memOk_patchWord (memOk_patchWord hs _ _ _) _ _ _
    · cases ht
  split
  · rintro _ ⟨⟩
    exact memOk_hostWrite hs _ _ _
  · exact hj 20
  · exact hj 12
  · exact hw 0
  · exact hw 1
  · nofun

theorem memOk_relocateAll (f : List Byte) (addrs : List (Nat × Nat)) (x : Context) : ∀ (rs : List (List Byte)) {s : State}, s.memOk →
    (relocateAll f addrs x rs s).1.memOk
  | [], _, hs => hs
  | r :: rs, s, hs => by
    rw [relocateAll]
    split
    · exact hs
    · next t ht => exact memOk_relocateAll f addrs x rs (memOk_relocate hs f addrs x r t ht)

theorem memOk_pinBegun {s : State} (hs : s.memOk) (c : Nat) (is : List Nat) : (pinBegun s c is).memOk := by
  refine memOk_foldl _ (fun _ _ h => ?_) _ _ hs
  split
  · exact memOk_applyPin h _ _
  · exact h

theorem memOk_undoFreeze {s : State} (hs : s.memOk) (c : Nat) (is : List Nat) : (undoFreeze s c is).memOk := by
  refine memOk_foldl _ (fun _ _ h => ?_) _ _ hs
  split
  · exact memOk_thaw h _ _ _
  · exact h

theorem memOk_installLeap {s : State} (hs : s.memOk) (c : Nat) (id : BitVec 128) (body : List Byte) :
    ∀ t, installLeap s c id body = some t → t.memOk := by
  unfold installLeap
  split
  · nofun
  · next x _ =>
    intro t ht
    obtain ⟨p, hp, rfl⟩ := Option.map_eq_some_iff.mp ht
    have h1 : p.1.memOk := by
      split at hp
      · cases hp
        exact hs
      · exact memOk_takeSlot hs x id p hp
    dsimp only
    split
    · exact h1
    · exact memOk_setObs (memOk_writeHeader (memOk_fwWrite (memOk_clearSlotAt h1 _ _) _ _) _ _ _) _ _ _

theorem memOk_installLeaps (c : Nat) (ks : List LaunchBlock) : ∀ (ls : List (Nat × List Byte)) {s : State}, s.memOk →
    ∀ t, installLeaps c ks ls s = some t → t.memOk
  | [], _, hs, _, ht => by
    cases ht
    exact hs
  | (k, body) :: ls, s, hs, t, ht => by
    rw [installLeaps] at ht
    split at ht
    · cases ht
    · split at ht
      · cases ht
      · next s1 h1 => exact memOk_installLeaps c ks ls (memOk_installLeap hs _ _ _ s1 h1) t ht

theorem memOk_takeArea {s : State} (hs : s.memOk) (x : Context) (f : LeafBits) (n : Nat) : ∀ r, takeArea s x f n = some r → r.1.memOk := by
  intro r hr
  obtain ⟨t, ht, rfl⟩ := Option.map_eq_some_iff.mp hr
  exact memOk_mapPages _ _ _ _ _ _ (memOk_takeMem hs _ _ _) t ht

theorem memOk_takeAreaIf {s : State} (hs : s.memOk) (b : Bool) (x : Context) (f : LeafBits) (n : Nat) :
    ∀ r, (if b then some (s, 0) else takeArea s x f n) = some r → r.1.memOk := by
  intro r hr
  split at hr
  · cases hr
    exact hs
  · exact memOk_takeArea hs _ _ _ r hr

theorem memOk_registerModule {s : State} (hs : s.memOk) (c : Nat) (m : ModFile) : ∀ r, registerModule s c m = some r → r.1.memOk := by
  unfold registerModule
  extract_lets handle
  split
  · nofun
  · split
    · nofun
    · next s1 hi =>
      have h1 := memOk_installLeaps _ _ _ hs s1 hi
      split
      · nofun
      · intro r hr
        obtain ⟨p, hp, rfl⟩ := Option.map_eq_some_iff.mp hr
        have h2 := memOk_takeAreaIf (memOk_setCtx h1 _) _ _ _ _ p hp
        exact State.memOk.of_tables (memOk_foldl _ (fun _ _ h => memOk_fwWrite h _ _) _ _ h2) rfl

/-! ## The effects of the commands -/

theorem memOk_takeAreas (x : Context) : ∀ (fs : List (Nat × LeafBits)) {s : State}, s.memOk → ∀ r, takeAreas x fs s = some r → r.1.memOk
  | [], _, hs, _, hr => by
    cases hr
    exact hs
  | (n, f) :: fs, s, hs, r, hr => by
    rw [takeAreas] at hr
    split at hr
    · cases hr
    · next p hp =>
      obtain ⟨q, hq, rfl⟩ := Option.map_eq_some_iff.mp hr
      exact memOk_takeAreas x fs (memOk_takeArea hs _ _ _ p hp) q hq

theorem memOk_doCtxCreate {s : State} (hs : s.memOk) (a : CtxArgs) : (doCtxCreate s a).1.memOk := by
  unfold doCtxCreate
  split
  · exact hs
  · split
    · exact hs
    · extract_lets id r x
      split
      · exact hs
      · next q hq =>
        have hq : q.1.memOk := memOk_takeAreas _ _ (memOk_takeMem hs _ _ _) q hq
        split
        · exact hs
        · extract_lets at' x1 s1
          have h1 : s1.memOk := memOk_fwWrite (memOk_fwWrite hq _ _) _ _
          clear_value s1
          exact h1.of_tables rfl

theorem memOk_failLeft {s : State} (hs : s.memOk) (x : Context) : (failLeft s x).memOk := by
  refine memOk_foldl _ (fun _ _ h => ?_) _ _ hs
  split
  · split
    · exact h
    · exact memOk_respond h _ _ _ _ _ _
  · exact h

theorem memOk_doCtxDestroy {s : State} (hs : s.memOk) (c : Nat) : (doCtxDestroy s c).1.memOk := by
  unfold doCtxDestroy
  split
  · exact hs
  · split
    · exact hs
    · extract_lets mine s1 s2
      have h1 : s1.memOk := memOk_failLeft hs _
      refine memOk_dropKept (State.memOk.of_tables (memOk_withCores h1 _ fun c => ?_) rfl)
      simpa [State.core] using hs.l1 c

theorem memOk_beginMap {s : State} (hs : s.memOk) (x : Context) (r : CmdRun) (a : MapArgs) (old : List Nat) : (beginMap s x r a old).1.memOk := by
  fun_cases beginMap
  · exact hs
  · exact hs
  · exact hs
  · next h _ => exact memOk_mapPages _ _ _ _ _ _ hs _ h
  · exact hs

theorem memOk_doMap {s : State} (hs : s.memOk) (x : Context) (r : CmdRun) (a : MapArgs) : (doMap s x r a).1.memOk := by
  fun_cases doMap
  · exact memOk_beginMap hs _ _ _ _
  · exact hs

theorem memOk_doMapShadow {s : State} (hs : s.memOk) (x : Context) (r : CmdRun) (a : MapArgs) (n pa : Nat) :
    (doMapShadow s x r a n pa).1.memOk := by
  fun_cases doMapShadow
  case case5 => exact hs
  case case6 => exact memOk_beginMap hs _ _ _ _
  case case7 => exact memOk_setCtx (memOk_beginMap hs _ _ _ _) _
  all_goals exact hs

theorem memOk_doMapRemote {s : State} (hs : s.memOk) (x : Context) (r : CmdRun) (a : MapArgs) (w : WindowArgs) :
    (doMapRemote s x r a w).1.memOk := by
  fun_cases doMapRemote
  case case5 => exact memOk_beginMap (memOk_setCtx hs _) _ _ _ _
  all_goals exact hs

theorem memOk_doUnmap {s : State} (hs : s.memOk) (x : Context) (r : CmdRun) (va size : Nat) (b : Bool) : (doUnmap s x r va size b).1.memOk := by
  fun_cases doUnmap
  case case6 => exact memOk_setCtx (memOk_clearLeaves hs _) _
  all_goals exact hs

theorem memOk_doRead {s : State} (hs : s.memOk) (x : Context) (va n : Nat) : (doRead s x va n).1.memOk := by
  fun_cases doRead <;> exact hs

theorem memOk_doWrite {s : State} (hs : s.memOk) (x : Context) (r : CmdRun) (va : Nat) (bs : List Byte) : (doWrite s x r va bs).1.memOk := by
  fun_cases doWrite
  case case6 => exact memOk_hostWrite hs _ _ _
  all_goals exact hs

theorem memOk_beginLoad {s : State} (hs : s.memOk) (x : Context) (r : CmdRun) (va n : Nat) (ps : List (Nat × Nat)) :
    (beginLoad s x r va n ps).1.memOk := by
  fun_cases beginLoad
  case case7 => exact memOk_relocateAll _ _ _ _ (memOk_foldl _ (fun _ _ h => memOk_hostWrite h _ _ _) _ _ hs)
  all_goals exact hs

theorem memOk_loadFrom {s : State} (hs : s.memOk) (x : Context) (r : CmdRun) (ps : List (Nat × Nat)) (ts : List Nat) (f : List Byte) :
    (loadFrom s x r ps ts f).1.memOk := by
  unfold loadFrom
  split
  · exact memOk_undoFreeze hs _ _
  · split
    · extract_lets lo lo4 hi4
      split
      · next h => exact memOk_loaderFreeze hs _ _ _ _ _ _ h
      · exact hs
      · exact memOk_undoFreeze hs _ _
      · exact memOk_undoFreeze hs _ _
    · split
      · exact hs
      · split
        · exact memOk_undoFreeze hs _ _
        · next q hq =>
          have hq : q.1.memOk := memOk_registerModule hs _ _ q hq
          split
          · exact memOk_undoFreeze hs _ _
          · exact hq

theorem memOk_goOnLoad {s : State} (hs : s.memOk) (x : Context) (r : CmdRun) (ps : List (Nat × Nat)) : (goOnLoad s x r ps).1.memOk := by
  fun_cases goOnLoad
  · exact hs
  · exact memOk_loadFrom (memOk_pinBegun hs _ _) _ _ _ _ _
  · exact memOk_pinBegun hs _ _

theorem memOk_doModuleLoad {s : State} (hs : s.memOk) (x : Context) (r : CmdRun) (va n : Nat) (ps : List (Nat × Nat)) :
    (doModuleLoad s x r va n ps).1.memOk := by
  fun_cases doModuleLoad
  · exact memOk_beginLoad hs _ _ _ _ _
  · exact memOk_goOnLoad hs _ _ _

theorem memOk_doLaunch {s : State} (hs : s.memOk) (x : Context) (r : CmdRun) (m b g : Nat) (as : List DWord) :
    (doLaunch s x r m b g as).1.memOk := by
  fun_cases doLaunch
  · exact hs
  · exact hs
  · exact memOk_acceptLaunch hs _ _ _ _ _ _ _ _

theorem memOk_doTaskSubmit {s : State} (hs : s.memOk) (x : Context) (r : CmdRun) (va : Nat) : (doTaskSubmit s x r va).1.memOk := by
  fun_cases doTaskSubmit
  case case7 => exact memOk_submitTask hs _ _ _
  all_goals exact hs

theorem memOk_haltFrag {s : State} (hs : s.memOk) (r : FragRef) : (haltFrag s r).memOk := by
  fun_cases haltFrag
  · exact hs
  · exact memOk_put (memOk_settleAll hs _) _

theorem memOk_haltFrame {s : State} (hs : s.memOk) (r : FragRef) : (haltFrame s r).memOk := by
  unfold haltFrame
  split
  · exact hs
  · split
    · exact hs
    · extract_lets a s1 bits
      have h1 : s1.memOk := by
        dsimp only [s1]
        split
        · exact hs
        · exact memOk_writeFrame hs _ _ _
      exact memOk_dropBytes (memOk_fwWrite h1 _ _) _ _ _

theorem memOk_haltGroup {s : State} (hs : s.memOk) (c : Fin 256) (i : Fin 64) : (haltGroup s c i).memOk := by
  unfold haltGroup
  split
  · exact hs
  · extract_lets fs
    clear_value fs
    split
    · exact hs
    · next s1 s2 =>
      have h1 : s1.memOk := memOk_foldl _ (fun _ _ h => memOk_haltFrag h _) _ _ hs
      refine memOk_haltFrame ?_ _
      dsimp only [s2]
      split
      · exact memOk_setGroup h1 _ _ _
      · exact h1

theorem memOk_haltContext {s : State} (hs : s.memOk) (c : Nat) : (haltContext s c).memOk :=
  memOk_foldl _ (fun _ _ h => memOk_haltGroup h _ _) _ _ hs

theorem memOk_resumeHalt {s : State} (hs : s.memOk) (c : Nat) : (resumeHalt s c).memOk := by
  refine memOk_foldl _ (fun _ _ h => ?_) _ _ hs
  split
  · exact memOk_setGroup h _ _ _
  · exact h

theorem memOk_doJournalRead {s : State} (hs : s.memOk) (c : Option Nat) (n k : Nat) : (doJournalRead s c n k).1.memOk := by
  fun_cases doJournalRead <;> exact hs

theorem memOk_voidLaunches {s : State} (hs : s.memOk) (c : Nat) (id : BitVec 128) : (voidLaunches s c id).memOk := hs.of_tables rfl

theorem memOk_doLeapRead {s : State} (hs : s.memOk) (x : Context) (id : BitVec 128) : (doLeapRead s x id).1.memOk := by
  fun_cases doLeapRead <;> exact hs

theorem memOk_doLeapWrite {s : State} (hs : s.memOk) (x : Context) (id : BitVec 128) (a : LeapHdrArgs) (body : List Byte) :
    (doLeapWrite s x id a body).1.memOk := by
  unfold doLeapWrite
  split
  · exact hs
  · split
    · exact hs
    · next s1 i hr =>
      have h1 : s1.memOk := by
        split at hr
        · cases hr
          exact hs
        · exact memOk_takeSlot hs x id (s1, i) hr
      dsimp only
      exact memOk_voidLaunches (memOk_setObs (memOk_fwWrite (memOk_writeHeader h1 _ _ _) _ _) _ _ _) _ _

theorem memOk_setPin {s : State} (hs : s.memOk) (x : Context) (id : BitVec 128) (b : Bool) : (setPin s x id b).1.memOk := by
  fun_cases setPin
  · exact hs
  · exact hs
  · dsimp only
    exact memOk_voidLaunches (memOk_writeHeader hs _ _ _) _ _

theorem memOk_doLeapDiscard {s : State} (hs : s.memOk) (x : Context) (id : BitVec 128) : (doLeapDiscard s x id).1.memOk := by
  fun_cases doLeapDiscard
  · exact hs
  · dsimp only
    exact memOk_voidLaunches (memOk_clearSlotAt hs _ _) _ _

theorem memOk_doSetLease {s : State} (hs : s.memOk) (v : DWord) : (doSetLease s v).1.memOk := by
  fun_cases doSetLease
  · exact hs
  · exact hs.of_tables rfl

theorem memOk_beginBias {s : State} (hs : s.memOk) (c : Nat) (ps : List PageAt) : (beginBias s c ps).memOk := by
  refine memOk_foldl _ (fun _ _ h => ?_) _ _ hs
  dsimp only
  split
  · exact h
  · split
    · exact memOk_setCtx (memOk_setLeafBit h _ _ _) _
    · exact memOk_setLeafBit h _ _ _

theorem memOk_doBiasSet {s : State} (hs : s.memOk) (x : Context) (r : CmdRun) (va size : Nat) (b : Bool) :
    (doBiasSet s x r va size b).1.memOk := by
  fun_cases doBiasSet
  case case4 => exact memOk_foldl _ (fun _ _ h => memOk_setLeafBit h _ _ _) _ _ hs
  case case7 => exact memOk_beginBias hs _ _
  all_goals exact hs

theorem memOk_ctxEffect {s : State} (hs : s.memOk) (x : Context) (r : CmdRun) : (ctxEffect s x r).1.memOk := by
  unfold ctxEffect
  split
  · exact memOk_doMap hs _ _ _
  · exact memOk_doMapShadow hs _ _ _ _ _
  · exact memOk_doMapRemote hs _ _ _ _
  · exact memOk_doUnmap hs _ _ _ _ _
  · exact memOk_doUnmap hs _ _ _ _ _
  · exact memOk_doRead hs _ _ _
  · exact memOk_doWrite hs _ _ _ _
  · exact memOk_doModuleLoad hs _ _ _ _ _
  · exact memOk_doLaunch hs _ _ _ _ _ _
  · exact memOk_doTaskSubmit hs _ _ _
  · exact memOk_requestPreempt hs _
  · exact memOk_haltContext hs _
  · exact memOk_resumeHalt hs _
  · exact memOk_resumePark hs _
  · exact memOk_doJournalRead hs _ _ _
  · exact memOk_doLeapRead hs _ _
  · exact memOk_doLeapWrite hs _ _ _ _
  · exact memOk_setPin hs _ _ _
  · exact memOk_setPin hs _ _ _
  · exact memOk_doLeapDiscard hs _ _
  · exact memOk_doBiasSet hs _ _ _ _ _
  · split
    · exact hs
    · split <;> exact hs
  · exact hs

theorem memOk_adminEffect {s : State} (hs : s.memOk) (r : CmdRun) : (adminEffect s r).1.memOk := by
  unfold adminEffect
  split
  · exact memOk_doCtxCreate hs _
  · exact memOk_doCtxDestroy hs _
  · exact memOk_doJournalRead hs _ _ _
  · exact memOk_doSetLease hs _
  · exact hs
  · split
    · exact hs
    · split <;> exact hs
  · exact hs

/-! ## From a message to an answer -/

theorem memOk_conclude {s : State} (hs : s.memOk) (c : Option Nat) (r : CmdRun) (o : Done) : (conclude s c r o).memOk := by
  unfold conclude
  split
  · exact hs
  · split
    · exact memOk_respond (memOk_endEntry hs _ _ _ _) _ _ _ _ _ _
    · dsimp only
      split
      · exact memOk_endEntry hs _ _ _ _
      · exact memOk_respond (memOk_endEntry hs _ _ _ _) _ _ _ _ _ _
    · extract_lets s1
      have h1 : s1.memOk := by
        dsimp only [s1]
        split
        · exact memOk_endEntry hs _ _ _ _
        · exact hs
      split
      · exact h1
      · exact memOk_respond h1 _ _ _ _ _ _
    · split
      · exact memOk_setCtx hs _
      · exact hs

theorem memOk_tryCmd {s : State} (hs : s.memOk) (c : Nat) (r : CmdRun) : (tryCmd s c r).memOk := by
  unfold tryCmd
  split
  · exact hs
  · exact memOk_conclude (memOk_ctxEffect (memOk_setCtx hs _) _ _) _ _ _

theorem memOk_pumpCmds (c : Nat) : ∀ (n : Nat) {s : State}, s.memOk → (pumpCmds c n s).memOk
  | 0, _, hs => hs
  | n + 1, s, hs => by
    rw [pumpCmds]
    split
    · exact hs
    · split
      · dsimp only
        split
        · exact memOk_tryCmd hs _ _
        · exact memOk_pumpCmds c n (memOk_tryCmd hs _ _)
      · split
        · exact hs
        · exact memOk_pumpCmds c n (memOk_setCtx hs _)

theorem memOk_pumpHost {s : State} (hs : s.memOk) : (pumpHost s).memOk :=
  memOk_foldl _ (fun _ _ h => memOk_pumpJobs (memOk_pumpCmds _ _ h) _) _ _ hs

theorem memOk_answerNow {s : State} (hs : s.memOk) (c n : Nat) (i : Instr) : (answerNow s c n i).memOk := by
  fun_cases answerNow
  · exact memOk_respond (memOk_setCtx hs _) _ _ _ _ _ _
  · exact hs
  · exact hs

theorem memOk_startCmd {s : State} (hs : s.memOk) (c : Option Nat) (i : Instr) (n : Nat) : (startCmd s c i n).memOk := by
  unfold startCmd
  extract_lets r
  split
  · exact memOk_conclude (memOk_adminEffect hs _) _ _ _
  · split
    · exact hs
    · split
      · exact memOk_conclude (memOk_ctxEffect hs _ _) _ _ _
      · exact memOk_answerNow (memOk_pumpCmds _ _ (memOk_setCtx hs _)) _ _ _

theorem memOk_acceptCmd {s : State} (hs : s.memOk) (c : Option Nat) (i : Instr) (h : CmdHdr) (code : Nat) : (acceptCmd s c i h code).memOk := by
  unfold acceptCmd
  split
  · exact memOk_respond hs _ _ _ _ _ _
  · next r hr =>
    have h1 := memOk_appendEntry hs _ _ _ _ _ r hr
    refine memOk_startCmd ?_ _ _ _
    exact h1.of_tables rfl

theorem memOk_screenCmd {s : State} (hs : s.memOk) (c : Option Nat) (i : Instr) (h : CmdHdr) (code : Nat) : (screenCmd s c i h code).memOk := by
  fun_cases screenCmd
  · exact memOk_respond hs _ _ _ _ _ _
  · exact memOk_respond hs _ _ _ _ _ _
  · exact memOk_respond hs _ _ _ _ _ _
  · exact hs.of_tables rfl
  · exact memOk_acceptCmd hs _ _ _ _

theorem memOk_receive {s : State} (hs : s.memOk) (i : Instr) (h : CmdHdr) (code : Nat) : (receive s i h code).memOk := by
  fun_cases receive
  · exact memOk_respond hs _ _ _ _ _ _
  · exact memOk_respond hs _ _ _ _ _ _
  · exact memOk_respond hs _ _ _ _ _ _
  · exact memOk_screenCmd hs _ _ _ _

theorem memOk_releaseHeldCmds (q : Nat) : ∀ (n : Nat) {s : State}, s.memOk → (releaseHeldCmds q n s).memOk
  | 0, _, hs => hs
  | n + 1, s, hs => by
    rw [releaseHeldCmds]
    split
    · exact hs
    · refine memOk_releaseHeldCmds q n (memOk_receive ?_ _ _ _)
      exact hs.of_tables rfl

theorem memOk_deliver {s : State} (hs : s.memOk) (i : Instr) (h : CmdHdr) (code : Nat) : (deliver s i h code).memOk := by
  fun_cases deliver
  · exact hs
  · exact memOk_releaseHeldCmds _ _ (memOk_receive hs _ _ _)

theorem formed_deliver {s : State} (hs : s.memOk) (i : Instr) (h : CmdHdr) (code : Nat) : Formed (.next (deliver s i h code)) :=
  formed_next (memOk_deliver hs i h code)

theorem memOk_receiveMessage {s : State} (hs : s.memOk) (m : List Byte) : (receiveMessage s m).memOk := by
  fun_cases receiveMessage
  · exact hs
  · exact memOk_respond hs _ _ _ _ _ _
  · exact memOk_deliver hs _ _ _
  · exact memOk_respond hs _ _ _ _ _ _

end Sys2Proof.Machine
end

section
/-! SUPPORT. That every instruction and every event of the model's dispatch ends in a next state in form (R4): the words by the form each
belongs to, the commands and events by the lemma of each.
-/

namespace Sys2Proof.Machine

/-! ## Events of the package that only note something -/

theorem formed_unsupportedPacket {s : State} (hs : s.memOk) (p : Fin 8) : Formed (execUnsupportedPacket p s) := by
  refine formed_next ?_
  split
  · exact hs.of_tables rfl
  · exact hs

theorem formed_syncLoss {s : State} (hs : s.memOk) (a : Fin 512) : Formed (execSyncLoss a s) := by
  refine formed_next ?_
  split
  · exact memOk_setAgent (memOk_dropLeased hs _) _ _
  · exact hs

theorem formed_syncRestored {s : State} (hs : s.memOk) (a : Fin 512) (k : Int) : Formed (execSyncRestored a k s) := by
  refine formed_next ?_
  split
  · exact memOk_setAgent hs _ _
  · exact hs

theorem formed_droopSlowdown {s : State} (hs : s.memOk) (d : Fin 4) : Formed (execDroopSlowdown d s) := formed_next (hs.of_tables rfl)
theorem formed_droopRecovery {s : State} (hs : s.memOk) (d : Fin 4) : Formed (execDroopRecovery d s) := formed_next (hs.of_tables rfl)
theorem formed_teamPlacement {s : State} (hs : s.memOk) : Formed (execTeamPlacement s) := formed_next (memOk_placeNext hs)
theorem formed_l1Eviction {s : State} (hs : s.memOk) (c : Fin 256) (l : Nat) : Formed (execL1Eviction c l s) := formed_next (memOk_evictLine hs c l)
theorem formed_mloopStep {s : State} (hs : s.memOk) (c : Fin 256) : Formed (execMloopStep c s) := formed_next (memOk_engineStep hs c)

/-! ## The dispatch -/

/-- An instruction word needs a fragment to run on; a command or an event has no code and needs none. -/
theorem formed_exec {s : State} (hs : s.memOk) (i : Instr) (hc : (encode i).isSome = true → s.here?.isSome = true) : Formed (exec i s) := by
  delta exec
  cases i with
  | iadd | iaddc | isub | isubb | imin | imax | iminu | imaxu | iand | ior | ixor | iandn | ishl | ishr | isra | irot | ibyte | imul | imulh
  | imulhu | isel | ibfe | ibfeu | fadd | fsub | fmul | fmin | fmax | fsel | fcpys => exact formed_lrB hs (hc rfl) _ _ _ _
  | iabs | ineg | inot | imov | iclz | ipopc | ibrev | fabs | fneg | fclass => exact formed_lrU hs (hc rfl) _ _ _ _
  | imad | ibfi | fma | fms | fnma => exact formed_lrD hs (hc rfl) _ _ _ _
  | icmp | icmpu | fcmp => exact formed_lrC hs (hc rfl) _ _ _
  | iaddi | iandi | iori | ixori | ishli | ishri | israi => exact formed_liRun hs (hc rfl) _ _ _ _ _ _ _
  | frnd | cvtfi | cvtfn | cvtif | cvtnf | cvtfh | cvthf | cvtfb | cvtbf => exact formed_lrCvt hs (hc rfl) _ _ _
  | fdiv | idiv | idivu | irem | iremu => exact formed_llB hs (hc rfl) _ _ _ _ _
  | fsqrt | frcp | frsq | fexp2 | flog2 | fsin | fcos | ftanh | fsigm => exact formed_llU hs (hc rfl) _ _ _
  | padd | psub | pmul | pfma | pmin | pmax | pabs | pavg | pcmpeq | pcmplt | pdot | psad | pmov => exact formed_lpRun hs (hc rfl) _ _ _ _ _
  | imovi | fmas | pcvt => exact formed_onFragment hs (hc rfl) _ _ fun _ => memOk_runLane hs _ _ _
  | xshfl | xvote | xisect => exact formed_crossRun hs (hc rfl) _ _ _ _
  | xred | xscan | xscane => exact formed_redForm hs (hc rfl) _ _ _
  | xsegred | xsegscan => exact formed_segForm hs (hc rfl) _ _ _
  | sadd | ssub | sand | sor | sxor | sandn | sshl | sshr | ssra | smul | smulh | smulhu | smin | smax | sminu | smaxu | sclz | spopc | smov
  | saddc | ssubb | scmp | scmpu | ssel | sadd64 | ssub64 | smov64 | sshl64 | scmp64 | saddi | sandi | sori | sxori | sshli | sshri | smovi | scmpi
  | kand | kor | kxor | kandn | knot | kmov | ktos | kpop | kffs | kset | win | setpart | swr => exact formed_uniRun hs (hc rfl) _ _
  | ldg | ldgs | ldc => exact formed_globalLoad hs (hc rfl) _ _ _ _
  | atomg | xchgg | casg => exact formed_globalForm hs (hc rfl) _
  | atomp | xchgp | casp => exact formed_padForm hs (hc rfl) _
  | bmz | bmnz => exact formed_maskBranch hs (hc rfl) _ _ _
  | rteRetry | rteSkip => exact formed_returnFrom hs (hc rfl) _ _
  | nop => exact formed_onFragment hs (hc rfl) _ _ fun _ => memOk_next hs _ _
  | trap | brk => exact formed_onFragment hs (hc rfl) _ _ fun _ => memOk_plainTrap hs _ _ _ _
  | mvt o => exact formed_mvt hs (hc rfl) o
  | stg o => exact formed_stg hs (hc rfl) o
  | ldff o => exact formed_ldff hs (hc rfl) o
  | ldp o => exact formed_ldp hs (hc rfl) o
  | stp o => exact formed_stp hs (hc rfl) o
  | xgather o => exact formed_xgather hs (hc rfl) o
  | emit o => exact formed_emit hs (hc rfl) o
  | redg o => exact formed_redg hs (hc rfl) o
  | qpush o => exact formed_qpush hs (hc rfl) o
  | qpop o => exact formed_qpop hs (hc rfl) o
  | qlen o => exact formed_qlen hs (hc rfl) o
  | bc o => exact formed_bc hs (hc rfl) o
  | call o => exact formed_call hs (hc rfl) o
  | ret => exact formed_ret hs (hc rfl)
  | regang => exact formed_regang hs (hc rfl)
  | exit => exact formed_exit hs (hc rfl)
  | loop d o => exact formed_loop hs (hc rfl) d o
  | kill b m => exact formed_kill hs (hc rfl) b m
  | srd d n => exact formed_srd hs (hc rfl) d n
  | sld o => exact formed_sld hs (hc rfl) o
  | sst o => exact formed_sst hs (hc rfl) o
  | sldc o => exact formed_sldc hs (hc rfl) o
  | fence c => exact formed_fence hs (hc rfl) c
  | acq c => exact formed_acq hs (hc rfl) c
  | rel c => exact formed_rel hs (hc rfl) c
  | acqr o => exact formed_acqr hs (hc rfl) o
  | rels o => exact formed_rels hs (hc rfl) o
  | bar => exact formed_bar hs (hc rfl)
  | frz d a b y p => exact formed_frz hs (hc rfl) d a b y p
  | thw a => exact formed_thw hs (hc rfl) a
  | fwait a => exact formed_fwait hs (hc rfl) a
  | publish a c => exact formed_publish hs (hc rfl) a c
  | cpy o => exact formed_cpy hs (hc rfl) o
  | cpy2d o => exact formed_cpy2d hs (hc rfl) o
  | cpyg o => exact formed_cpyg hs (hc rfl) o
  | cpyo p a b => exact formed_cpyo hs (hc rfl) p a b
  | closeb a => exact formed_closeb hs (hc rfl) a
  | waitb a => exact formed_waitb hs (hc rfl) a
  | raf p a => exact formed_raf hs (hc rfl) p a
  | rafg p a b z => exact formed_rafg hs (hc rfl) p a b z
  | sarrive a r => exact formed_sarrive hs (hc rfl) a r
  | swait p a r => exact formed_swait hs (hc rfl) p a r
  | mown => exact formed_mown hs (hc rfl)
  | mrel => exact formed_mrel hs (hc rfl)
  | mpass g => exact formed_mpass hs (hc rfl) g
  | mshape o => exact formed_mshape hs (hc rfl) o
  | mloop o => exact formed_mloop hs (hc rfl) o
  | mzero t => exact formed_mzero hs (hc rfl) t
  | mrd d a t => exact formed_mrd hs (hc rfl) d a t
  | mwr d a t => exact formed_mwr hs (hc rfl) d a t
  | midx a => exact formed_midx hs (hc rfl) a
  | midxOff => exact formed_midxOff hs (hc rfl)
  | tsub a => exact formed_tsub hs (hc rfl) a
  | ctxCreate | ctxDestroy | map | mapShadow | mapRemoteWindow | unmap | unmapShadow | read | write | moduleLoad | launch | taskSubmit
  | preemptRequest | preemptHalt | preemptResumeHalt | preemptResumePark | journalRead | leapRead | leapWrite | leapPin | leapUnpin
  | leapDiscard | setLease | biasSet | attest | fwInfo => exact formed_deliver hs _ _ _
  | unsupportedPacket p => exact formed_unsupportedPacket hs p
  | resultArrival r n => exact formed_resultArrival hs r n
  | teamPlacement => exact formed_teamPlacement hs
  | teamMigration u c => exact formed_teamMigration hs u c
  | launchDone n => exact formed_launchDone hs n
  | emitRecordArrival n => exact formed_emitRecordArrival hs n
  | nodeTimerExpiry c n => exact formed_nodeTimerExpiry hs c n
  | timeSliceExpiry c => exact formed_timeSliceExpiry hs c
  | deadlineExpiry c => exact formed_deadlineExpiry hs c
  | copyComplete n => exact formed_copyComplete hs n
  | freezePoint c n => exact formed_freezePoint hs c n
  | thawComplete c n => exact formed_thawComplete hs c n
  | writeComplete n => exact formed_writeComplete hs n
  | publishPoint r => exact formed_publishPoint hs r
  | redgApply n => exact formed_redgApply hs n
  | promotionRequest n => exact formed_promotionRequest hs n
  | l1Eviction c l => exact formed_l1Eviction hs c l
  | mloopStep c => exact formed_mloopStep hs c
  | lineFetch c n => exact formed_lineFetch hs c n
  | stallSample c => exact formed_stallSample hs c
  | eccError t => exact formed_eccError hs t
  | syncLoss a => exact formed_syncLoss hs a
  | syncRestored a k => exact formed_syncRestored hs a k
  | droopSlowdown d => exact formed_droopSlowdown hs d
  | droopRecovery d => exact formed_droopRecovery hs d
  | powerOn f o => exact formed_powerOn hs f o
  | powerLoss => exact formed_powerLoss s
  | biasTransitionEnd c va => exact formed_biasTransitionEnd hs c va
  | teamMoveArrival u => exact formed_teamMoveArrival hs u
  | remoteAccessArrival q => exact formed_remoteAccessArrival hs q

end Sys2Proof.Machine
end

section
/-! SUPPORT. That a turn keeps the canonical form of the byte tables (R4): what issues stands at its place, so every word has a fragment to
run on; races, time and the device's own turns change no table's addresses.
-/

namespace Sys2Proof.Machine

/-! ## Settling keeps the fragment at its place -/

/-- The same fragment, live as before. -/
def Here.Stands (a b : Here) : Prop := b.r = a.r ∧ b.f.status = a.f.status

theorem stands_refl (h : Here) : h.Stands h := ⟨rfl, rfl⟩
theorem stands_trans {a b c : Here} (x : a.Stands b) (y : b.Stands c) : a.Stands c := ⟨y.1.trans x.1, y.2.trans x.2⟩

theorem stands_writeLanes (h : Here) (n : Reg) (x : Lanes Word) (m p : LaneMask) (k : Option Nat) : h.Stands (h.writeLanes n x m p k) :=
  ⟨writeLanes_r h n x m p k, congrArg Frag.status (writeLanes_f h n x m p k)⟩

theorem stands_commitV (s : State) (h : Here) (n : Reg) (x : Lanes Word) (m p : LaneMask) : h.Stands (commitV s h n x m p).2 := by
  fun_cases commitV
  · exact stands_refl h
  · exact stands_writeLanes ..
  · exact stands_writeLanes ..

theorem stands_note (h : Here) (w : Written) : h.Stands (h.note w) := by
  fun_cases Here.note <;> exact ⟨rfl, rfl⟩

theorem stands_setS (h : Here) (n : Reg) (x : Word) : h.Stands (h.setS n x) := by
  fun_cases Here.setS
  · exact ⟨rfl, rfl⟩
  · exact stands_trans (stands_note h _) ⟨rfl, rfl⟩

theorem stands_foldl {α β : Type} (p : β → Here) (f : β → α → β) (hf : ∀ b x, (p b).Stands (p (f b x))) : ∀ (l : List α) (b : β),
    (p b).Stands (p (l.foldl f b))
  | [], _ => stands_refl _
  | x :: l, b => stands_trans (hf b x) (stands_foldl p f hf l (f b x))

theorem stands_settleOne (s : State) (h : Here) (p : Pending) : h.Stands (settleOne s h p).2 := by
  unfold settleOne
  extract_lets sh h1 g k h2
  have hr : h.Stands sh.2 := stands_foldl Prod.snd _ (fun a r => by
    split
    · exact stands_refl _
    · exact stands_commitV ..) p.regs (s, h)
  have hu : h.Stands h2 := stands_trans hr (stands_trans (stands_foldl id _ (fun a u => stands_setS a _ _) p.uni sh.2) ⟨rfl, rfl⟩)
  split
  · split <;> exact hu
  · exact hu

theorem stands_settleList (s : State) (h : Here) (ps left : List Pending) : h.Stands (settleList s h ps left).2 := by
  fun_cases settleList
  · exact stands_refl h
  · exact stands_trans ⟨rfl, rfl⟩ (stands_foldl Prod.snd _ (fun a p => stands_settleOne ..) ps _)

theorem at?_live {s : State} {r : FragRef} {h : Here} (e : s.at? r = some h) : h.r = r ∧ h.f.status ≠ .exited := by
  unfold State.at? at e
  split at e
  · cases e
  · split at e
    · cases e
    · split at e
      · cases e
      · next hx =>
        cases e
        exact ⟨rfl, hx⟩

theorem here?_put {s : State} (h : Here) (e : h.f.status ≠ .exited) {t : State} (ht : t.cores = (s.put h).cores) (hr : t.cur = some h.r) :
    t.here?.isSome = true := by
  have h1 : t.at? h.r = (s.put h).at? h.r := by simp only [State.at?, State.group?, State.core, ht]
  simp [State.here?, hr, h1, at?_put s h e]

/-! ## Issuing -/

theorem memOk_afterIssue {s : State} (hs : s.memOk) (r : FragRef) (u : Nat) (i : Option Instr) (en : BitVec 4) : (afterIssue s r u i en).memOk := by
  fun_cases afterIssue
  · exact hs
  · exact hs
  · exact memOk_setGroup hs _ _ _

theorem formed_runInstr {s : State} (hs : s.memOk) (hc : s.here?.isSome = true) (h : Here) (i : Instr) : Formed (runInstr s h i) := by
  obtain ⟨t, e, ht⟩ := formed_exec hs i fun _ => hc
  simp only [runInstr, e]
  exact formed_next (memOk_afterIssue ht _ _ _ _)

theorem formed_runWords {s : State} (hs : s.memOk) (hc : s.here?.isSome = true) (h : Here) (p : Option Payload) (w : Word) :
    Formed (runWords s h p w) := by
  unfold runWords
  split
  · exact formed_next (memOk_afterIssue (memOk_takeTrap hs _ _ _) _ _ _ _)
  · exact formed_runInstr hs hc h _

theorem formed_runAt {s : State} (hs : s.memOk) (hc : s.here?.isSome = true) (h : Here) : Formed (runAt s h) := by
  unfold runAt
  split
  · exact formed_runInstr hs hc h _
  · split
    · exact formed_next (memOk_put hs _)
    · exact formed_next (memOk_takeTrap hs _ _ _)
    · split
      · exact formed_runWords hs hc h _ _
      · split
        · exact formed_next (memOk_put hs _)
        · exact formed_next (memOk_takeTrap hs _ _ _)
        · exact formed_runWords hs hc h _ _

theorem formed_issueHere {s : State} (hs : s.memOk) (h : Here) (hl : h.f.status ≠ .exited) : Formed (issueHere s h) := by
  obtain ⟨er, ef⟩ := stands_settleList s h (h.f.pending.filter (fun p => p.left == 0)) (h.f.pending.filter (fun p => p.left != 0))
  unfold issueHere
  refine formed_runAt (State.memOk.of_tables (memOk_put (memOk_settleDue hs h) (settleDue s h).2) ?_) ?_ _
  · rfl
  · exact here?_put (s := (settleDue s h).1) (settleDue s h).2 (fun e => hl (ef ▸ e)) rfl (congrArg some er.symm)

theorem memOk_noteIssue {s : State} (hs : s.memOk) (h : Here) (rs : List FragRef) (t : Taken) : (noteIssue s h rs t).memOk := by
  unfold noteIssue
  extract_lets q uniform s1 k me both pair
  have h1 : s1.memOk := by
    refine memOk_foldl _ (fun _ _ h => ?_) _ _ hs
    split
    · exact memOk_put h _
    · exact h
  clear_value s1
  exact memOk_setCore_l1 h1 _ rfl

theorem formed_issue {s : State} (hs : s.memOk) (r : FragRef) (rs : List FragRef) : Formed (issue s r rs) := by
  unfold issue
  split
  · exact formed_next hs
  · next h hh =>
    split
    · split
      · exact formed_issueHere hs h (at?_live hh).2
      · exact formed_next hs
    · split
      · exact formed_next hs
      · dsimp only
        split
        · exact formed_next (memOk_noteIssue hs _ _ _)
        · next h1 hh1 => exact formed_issueHere (memOk_noteIssue hs _ _ _) h1 (at?_live hh1).2

theorem memOk_laneAhead {s : State} (hs : s.memOk) (h : Here) (ls : LaneMask) : (laneAhead s h ls).memOk := by
  unfold laneAhead
  extract_lets sh h i
  clear_value i
  split
  · exact memOk_atomAhead (memOk_put (memOk_settleDue hs _) _) _ _ _
  · exact hs

theorem memOk_runAhead {s : State} (hs : s.memOk) (r : FragRef) (ls : LaneMask) (rs : List FragRef) : (runAhead s r ls rs).memOk := by
  unfold runAhead
  split
  · exact hs
  · next h _ =>
    split
    · exact hs
    · extract_lets s1
      have h1 : ∀ t, s1 = some t → t.memOk := by
        intro t ht
        dsimp only [s1] at ht
        split at ht
        · cases ht
          exact hs
        · obtain ⟨k, -, rfl⟩ := Option.map_eq_some_iff.mp ht
          exact memOk_noteIssue hs _ _ _
      clear_value s1
      split
      · next t ht =>
        obtain ⟨u, hu, ht⟩ := Option.bind_eq_some_iff.mp ht
        obtain ⟨y, -, rfl⟩ := Option.map_eq_some_iff.mp ht
        split
        · exact memOk_laneAhead (h1 u hu) _ _
        · exact hs
      · exact hs

/-! ## Races and time -/

/-- New values under the same addresses. -/
theorem sorted_map {α : Type} (f : Nat × α → Nat × α) (hf : ∀ e, (f e).1 = e.1) : ∀ {t : List (Nat × α)} {lo : Nat}, tableSortedFrom lo t = true →
    tableSortedFrom lo (t.map f) = true
  | [], _, h => h
  | (k, v) :: t, lo, h => by
    simp only [tableSortedFrom, Bool.and_eq_true] at h
    have hk : (f (k, v)).1 = k := hf (k, v)
    rw [List.map_cons, ← Prod.mk.eta (p := f (k, v)), tableSortedFrom, hk, h.1, sorted_map f hf h.2]
    rfl

/-- New tables of the L1s and of the slices, each sorted. -/
theorem memOk_withCopies {s : State} (hs : s.memOk) (ks : Vector Core 256) (ts : Vector (List (Nat × SliceByte)) 5)
    (hk : ∀ c : Fin 256, tableSortedFrom 0 ks[c].l1 = true) (ht : ∀ d : Fin 5, tableSortedFrom 0 ts[d] = true) :
    ({ s with cores := ks, sliceCopies := ts } : State).memOk :=
  memOk_withSlices (memOk_withCores hs ks hk) ts ht

theorem memOk_raceByte {s : State} (hs : s.memOk) (a : Nat) : (raceByte s a).memOk := by
  unfold raceByte
  extract_lets v
  clear_value v
  refine memOk_withCopies (memOk_memFree hs a) _ _ (fun c => ?_) fun d => ?_
  · simp only [Fin.getElem_fin, Vector.getElem_ofFn]
    refine sorted_map _ (fun e => ?_) (hs.l1 c)
    split
    · next h => exact h.symm
    · rfl
  · simp only [Fin.getElem_fin, Vector.getElem_ofFn]
    refine sorted_map _ (fun e => ?_) (hs.slices d)
    split
    · next h => exact h.symm
    · rfl

theorem memOk_racePad {s : State} (hs : s.memOk) (u a : Nat) : (racePad s u a).memOk := by
  unfold racePad
  split
  · exact hs
  · next t ht =>
    split
    · exact memOk_withChoices (memOk_setTeam hs _ (wf_padWrite (wf_team hs ht) _ _)) _
    · exact hs

theorem memOk_race {s : State} (hs : s.memOk) (r : Raced) : (race s r).memOk := by
  cases r with
  | byte c va shadow =>
    rw [race]
    split
    · exact memOk_raceByte hs _
    · exact hs
  | pad u a => exact memOk_racePad hs u a
  | element c t i j => exact memOk_withChoices (memOk_setEngine hs _ _) _
  | status c i => exact memOk_withChoices (memOk_setEngine hs _ _) _
  | index c n =>
    rw [race]
    split
    · split
      · exact memOk_withChoices (memOk_fetchElement hs _ _ _ _ _ _) _
      · exact hs
    · exact hs

theorem memOk_advanceTime {s : State} (hs : s.memOk) (dt : Nat) : (advanceTime s dt).memOk := hs.of_tables rfl

/-! ## A turn -/

theorem formed_runAuto {s : State} (hs : s.memOk) (a : Auto) : Formed (runAuto a s) := by
  cases a with
  | time dt => exact formed_next (memOk_advanceTime hs dt)
  | bringUp => exact formed_powerOn hs _ _
  | issue c q u =>
    rw [runAuto]
    split
    · exact formed_issue (memOk_withChoices hs _) _ _
    · exact formed_next hs
  | retry r => exact formed_issue hs r []
  | place => exact formed_teamPlacement hs
  | launchDone l => exact formed_launchDone hs l
  | move t => exact formed_teamMoveArrival hs t
  | copy n => exact formed_copyComplete hs n
  | redg n => exact formed_redgApply hs n
  | write n => exact formed_writeComplete hs n
  | emit n => exact formed_emitRecordArrival hs n
  | promotion n => exact formed_promotionRequest hs n
  | engine c => exact formed_mloopStep hs c
  | fetch c n => exact formed_lineFetch hs c n
  | freeze x e => exact formed_freezePoint hs x e
  | thaw x e => exact formed_thawComplete hs x e
  | bias x va => exact formed_biasTransitionEnd hs x va
  | timer x n => exact formed_nodeTimerExpiry hs x n
  | slice x => exact formed_timeSliceExpiry hs x
  | deadline x => exact formed_deadlineExpiry hs x
  | sample x => exact formed_stallSample hs x
  | publish r => exact formed_publishPoint hs r
  | result r n => exact formed_resultArrival hs r n
  | race => exact formed_next (memOk_race (memOk_withChoices hs _) _)

theorem formed_runAct {s : State} (hs : s.memOk) (a : Act) : Formed (runAct a s) := by
  cases a with
  | issue r rs => exact formed_issue hs r rs
  | ahead r ls rs => exact formed_next (memOk_runAhead hs r ls rs)
  | race r => exact formed_next (memOk_race hs r)
  | message m => exact formed_next (memOk_receiveMessage hs m)
  | event i =>
    rw [runAct]
    split
    · exact formed_next hs
    · next hi => exact formed_exec hs i fun he => absurd he hi

theorem formed_step {s : State} (hs : s.memOk) : Formed (step s) := by
  unfold step takeTurn
  extract_lets o
  have ho : Formed o := by
    dsimp only [o]
    split
    · exact formed_runAuto (memOk_withChoices hs _) _
    · refine formed_runAct (memOk_advanceTime ?_ _) _
      exact hs.of_tables rfl
  obtain ⟨t, e, ht⟩ := ho
  rw [e]
  exact formed_next (memOk_pumpHost ht)

/-- Settles O6: every operation of the turn keeps the tables in form, and a word runs only where a fragment stands. -/
theorem stepKeepsForm : Obligations.StepKeepsForm := fun _ hs => formed_step hs

end Sys2Proof.Machine
end

section
/-! SUPPORT. A state in form in which a freeze point brings home a store onto the page table that maps its own range: the entry covers what
the range maps to after the store (R271), not what it mapped to before (O59).
-/

namespace Sys2Proof.Machine

/-- Context 1, its root table at address 0 and its entry 0 installing a freeze of the 4 KiB at 2^30. -/
def ownTableCtx : Context :=
  { newContext 1 0 ⟨0, 1, 0, 0, 0, 0, 0, 0, 0⟩ with
    regions := [(0, { FreezeEntry.free with state := .installing, base := 2 ^ 30, length := 1, count := 1 })] }

/-- Before core 0 stores: the root's word 0 leads to a table at address 0 again, whose word 1 is a valid leaf of 1 GiB at address 0. So the
range maps to the block that holds the tables. -/
def ownTableMapped : State := { State.reset with contexts := [ownTableCtx], mem := [(7, 0x80#8), (15, 0xC0#8)] }

/-- Core 0 holds a store of 0, dirty and not registered, to the leaf's top byte. -/
def ownTableState : State := ownTableMapped.setCore 0 { ownTableMapped.core 0 with l1 := [(15, .dirty 0#8)] }

theorem memOk_ownTableMapped : ownTableMapped.memOk where
  mem := rfl
  free := rfl
  apart := nofun
  registered := rfl
  l1 := memOk_reset.l1
  slices := memOk_reset.slices
  pads := memOk_reset.pads
  kept := rfl

theorem memOk_ownTableState : ownTableState.memOk := memOk_setCore memOk_ownTableMapped 0 _ rfl

/-- The blocks that entry 0 of context 1 covers after an event. -/
def blocksAfter : Host.Outcome State Fault Refusal → Option (List Nat)
  | .next t => (t.ctx? 1).map (fun y => (y.entry 0).blocks)
  | _ => none

/-- The range maps to block 0 until the store comes home. -/
theorem rangeBlocks_ownTableState : rangeBlocks ownTableState ownTableCtx (2 ^ 30) (2 ^ 30 + 4096) = [0] := by decide +kernel

/-- The freeze point brings the store home, and the range maps to nothing. -/
theorem blocksAfter_ownTableState : blocksAfter (exec (.freezePoint 1 0) ownTableState) = some [] := by decide +kernel

theorem accessPending_ownTableState : accessPending ownTableState (inBlocks [0]) = false := by decide +kernel

/-- Refutes O59: its clause on the freeze point claims the blocks that the range mapped to before the event. In `ownTableState` the event
writes back a store onto the leaf that maps the range, so the blocks that the entry covers are those of the changed table. -/
theorem not_memoryEvents : ¬ Obligations.MemoryEvents := by
  unfold Obligations.MemoryEvents
  rintro ⟨-, -, hfreeze, -⟩
  obtain ⟨-, hpoint, -⟩ := hfreeze ownTableState ownTableCtx 0 rfl
  have hblocks : rangeBlocks ownTableState ownTableCtx (ownTableCtx.entry 0).base ((ownTableCtx.entry 0).base + 4096 * (ownTableCtx.entry 0).length) =
      [0] := rangeBlocks_ownTableState
  obtain ⟨t, y, ht, hy, hentry, -⟩ := hpoint rfl rfl memOk_ownTableState rfl rfl rfl rfl (hblocks ▸ accessPending_ownTableState)
  have hzero : (y.entry 0).blocks = [0] := (congrArg FreezeEntry.blocks hentry).trans hblocks
  have hafter : blocksAfter (.next t) = some [] := ht ▸ blocksAfter_ownTableState
  have hnext : blocksAfter (.next t) = some [0] := (congrArg (Option.map _) hy).trans (congrArg some hzero)
  exact absurd (hafter.symm.trans hnext) (by decide)

end Sys2Proof.Machine
end

section

/-! SUPPORT. The refutation of O60 (R270, R329): the acquire at a team's arrival drops clean bytes of an L1. Where the L1's table is out of
its form, a dropped key can stand before a dirty byte and hide it, and the byte reads otherwise afterwards. -/

namespace Sys2Proof.Machine

/-- Team 1 on core 0, at the end of a move from core 1. -/
def arrivingTeam : Team :=
  { uid := 1, launch := 0, teamid := 0#32, core := 0, groups := 1, roles := [], scratch := [], scratchSize := 0, scratchPoison := []
    exited := 0#32, masks := Vector.replicate 32 0#32, cause := 0#8, causeGroup := 0xFF#8, second := 0#8, frame := 0#64, moving := some 1 }

/-- Core 0's L1 lists a clean byte at address 1 before its registered dirty byte at address 0. -/
def unorderedL1State : State :=
  ({ State.reset with teams := [arrivingTeam], registered := [(0, 0)] }).setCore 0
    { Core.reset with l1 := [(1, .clean 0#8 none), (0, .dirty 1#8)] }

/-- A table is read up to the first key that is greater: the dirty byte is not found, and address 0 reads as memory does. -/
theorem homeByte_unorderedL1State : homeByte unorderedL1State 0 = 0#8 := by decide +kernel

/-- What a byte reads as after an event. -/
def byteAfter (a : Nat) : Host.Outcome State Fault Refusal → Option Byte
  | .next t => some (homeByte t a)
  | _ => none

/-- The acquire at the arrival drops the clean byte, and the dirty byte is found. -/
theorem byteAfter_unorderedL1State : byteAfter 0 (exec (.teamMoveArrival 1) unorderedL1State) = some 1#8 := by decide +kernel

/-- Refutes O60: its clause on a team's arrival says of every state, also of one whose tables are out of form, that each byte reads as it
did. In `unorderedL1State` the arrival drops the clean byte that stood before a dirty one, and address 0 then reads as the dirty byte. -/
theorem not_packageEvents : ¬ Obligations.PackageEvents := by
  unfold Obligations.PackageEvents
  rintro ⟨-, -, -, harrival, -⟩
  obtain ⟨t, ht, -, -, hbytes⟩ := harrival unorderedL1State arrivingTeam 1 rfl rfl nofun nofun
  have hafter : byteAfter 0 (.next t) = some 1#8 := ht ▸ byteAfter_unorderedL1State
  have hkept : byteAfter 0 (.next t) = some 0#8 := congrArg some ((hbytes 0).trans homeByte_unorderedL1State)
  exact absurd (hafter.symm.trans hkept) (by decide)

end Sys2Proof.Machine
end

section

/-! SUPPORT. What settling a fragment's results does (R94 to R96): registers, codes and uniform results are written, nothing is in flight
afterwards, and all else of the fragment, its group and the package stays as it was.
-/

namespace Sys2Proof.Machine

/-- From `h` on only what results are written into has changed. -/
structure Here.WrittenFrom (h h1 : Here) : Prop where
  ref : h1.r = h.r
  group : { h1.g with v := h.g.v, cc := h.g.cc, hv := h.g.hv, hs := h.g.hs, killSet := h.g.killSet } = h.g
  frag : { h1.f with view := { h1.f.view with s := h.f.view.s }, written := h.f.written, pending := h.f.pending } = h.f

theorem Here.WrittenFrom.refl (h : Here) : h.WrittenFrom h := ⟨rfl, rfl, rfl⟩

theorem Here.WrittenFrom.trans {a b c : Here} (x : a.WrittenFrom b) (y : b.WrittenFrom c) : a.WrittenFrom c where
  ref := y.ref.trans x.ref
  group := by rw [← x.group, ← y.group]
  frag := by rw [← x.frag, ← y.frag]

/-- Writes of lane words are such changes. -/
theorem Wrote.writtenFrom {s0 s : State} {h0 h : Here} {P : Edits} (w : Wrote s0 s h0 h P) : h0.WrittenFrom h where
  ref := w.ref
  group := by rw [← w.group]
  frag := by rw [← w.frag]

theorem writtenFrom_note (h : Here) (w : Written) : h.WrittenFrom (h.note w) := by
  fun_cases Here.note
  · exact .refl h
  · exact ⟨rfl, rfl, rfl⟩

theorem note_pending (h : Here) (w : Written) : (h.note w).f.pending = h.f.pending := by
  fun_cases Here.note
  · rfl
  · rfl

theorem writtenFrom_setS (h : Here) (n : Reg) (x : Word) : h.WrittenFrom (h.setS n x) := by
  fun_cases Here.setS
  · exact ⟨rfl, rfl, rfl⟩
  · exact (writtenFrom_note h _).trans ⟨rfl, rfl, rfl⟩

/-- A uniform write leaves nothing in flight where nothing was. -/
theorem setS_pending_nil {h : Here} (n : Reg) (x : Word) (hp : h.f.pending = []) : (h.setS n x).f.pending = [] := by
  fun_cases Here.setS
  · simp [dropUniform, hp]
  · exact (congrArg (dropUniform · n) ((note_pending h _).trans hp)).trans rfl

/-- A state in which only one core's slots and reuse table have changed, beside a fragment to which results were written. -/
structure SettledFrom (s : State) (h : Here) (a : State × Here) : Prop where
  near : ∃ o, Near s a.1 h.r.core ((s.core h.r.core).slots.set h.r.slot o)
  here : h.WrittenFrom a.2
  pending : h.f.pending = [] → a.2.f.pending = []

theorem near_refl_slot (s : State) (c : Fin 256) (i : Fin 64) : Near s s c ((s.core c).slots.set i ((s.core c).slots[i])) := by
  simpa using Near.refl s c

theorem SettledFrom.refl (s : State) (h : Here) : SettledFrom s h (s, h) := ⟨⟨_, near_refl_slot s _ _⟩, .refl h, id⟩

/-- Putting the fragment back changes its slot alone. -/
theorem SettledFrom.put {s : State} {h : Here} {a : State × Here} (w : SettledFrom s h a) :
    Near s (a.1.put a.2) h.r.core ((s.core h.r.core).slots.set h.r.slot (some a.2.group)) := by
  obtain ⟨o, n⟩ := w.near
  have := n.put_at w.here.ref
  simpa [w.here.ref] using this

/-- As `wrote`, where the core is known by another name. -/
theorem Near.wrote_at {s t t' : State} {c : Fin 256} {h0 h : Here} {P : Edits} {sl : Vector (Option Group) 64} (e : h0.r.core = c)
    (n : Near s t c sl) (w : Wrote t t' h0 h P) : Near s t' c sl := by subst e; exact n.wrote w

theorem settledFrom_commitV {s : State} {h : Here} {a : State × Here} (w : SettledFrom s h a) (n : Reg) (x : Lanes Word) (m p : LaneMask) :
    SettledFrom s h (commitV a.1 a.2 n x m p) := by
  have wrote := commitV_wrote (Wrote.refl a.1 a.2) n x m p
  obtain ⟨o, near⟩ := w.near
  refine ⟨⟨o, ?_⟩, w.here.trans wrote.writtenFrom, fun e => ?_⟩
  · exact near.wrote_at (congrArg FragRef.core w.here.ref) wrote
  · have hf := congrArg Frag.pending (show _ = _ from wrote.frag)
    fun_cases commitV
    · exact w.pending e
    · simp [writeLanes_f, w.pending e]
    · simp [writeLanes_f, w.pending e]

theorem settledFrom_foldl {α : Type} {s : State} {h : Here} (f : State × Here → α → State × Here)
    (hf : ∀ a x, SettledFrom s h a → SettledFrom s h (f a x)) (l : List α) (a : State × Here) (w : SettledFrom s h a) :
    SettledFrom s h (l.foldl f a) := List.foldlRecOn l f w fun a w x _ => hf a x w

theorem settledFrom_setS {s : State} {h : Here} {a : State × Here} (w : SettledFrom s h a) (n : Reg) (x : Word) :
    SettledFrom s h (a.1, a.2.setS n x) := ⟨w.near, w.here.trans (writtenFrom_setS _ _ _), fun e => setS_pending_nil _ _ (w.pending e)⟩

theorem settledFrom_settleOne {s : State} {h : Here} {a : State × Here} (w : SettledFrom s h a) (p : Pending) :
    SettledFrom s h (settleOne a.1 a.2 p) := by
  unfold settleOne
  extract_lets sh h1 g k h2
  have hv : SettledFrom s h sh := settledFrom_foldl _ (fun a r w => by
    split
    · exact w
    · exact settledFrom_commitV w ..) p.regs _ w
  have hu : SettledFrom s h (sh.1, h1) := by
    refine List.foldlRecOn (motive := fun x => SettledFrom s h (sh.1, x)) p.uni _ hv fun x w u _ => ?_
    exact settledFrom_setS w u.1 u.2
  have h2' : SettledFrom s h (sh.1, h2) := ⟨hu.near, hu.here.trans ⟨rfl, rfl, rfl⟩, hu.pending⟩
  split
  · split
    · exact h2'
    · have hn := h2'.put.addEntry (key := ‹_›) (rs := h2.results (p.regs.map (fun r => r.reg))) (cc := none) (fl := p.flags)
      exact ⟨⟨_, by rw [show h2.r = h.r from h2'.here.ref]; exact hn⟩, h2'.here, h2'.pending⟩
  · exact h2'

/-- Settling, said once. -/
theorem settleAll_spec (s : State) (h : Here) : SettledFrom s h (settleAll s h) ∧ (settleAll s h).2.f.pending = [] := by
  unfold settleAll
  fun_cases settleList
  · next hp => exact ⟨.refl s h, List.isEmpty_iff.mp hp⟩
  · next hp a =>
    let h0 : Here := { h with f := { h.f with pending := [] } }
    have h0w : h.WrittenFrom h0 := ⟨rfl, rfl, rfl⟩
    have hw : SettledFrom s h0 a := settledFrom_foldl _ (fun a p w => settledFrom_settleOne w p) _ _ (.refl s h0)
    have hn : Near s ((a.1.put a.2).evictNames h.r.core) h.r.core ((s.core h.r.core).slots.set h.r.slot (some a.2.group)) := hw.put.evictNames
    exact ⟨⟨⟨_, hn⟩, h0w.trans hw.here, fun _ => hw.pending rfl⟩, hw.pending rfl⟩

end Sys2Proof.Machine
end

section

/-! SUPPORT. What the device's own writes leave of a byte they do not name, and what a frame holds once it is written (R199, R200, R265).
-/

namespace Sys2Proof.Machine

/-! ## One byte -/

/-- A byte reads in `t` as it does in `s`, from every place that can answer for it. -/
structure SameByte (s t : State) (x : Nat) : Prop where
  held : t.heldByte x = s.heldByte x
  kept : t.keptByte x = s.keptByte x
  mem : t.memGet x = s.memGet x

theorem SameByte.refl (s : State) (x : Nat) : SameByte s s x := ⟨rfl, rfl, rfl⟩

theorem SameByte.trans {s t u : State} {x : Nat} (a : SameByte s t x) (b : SameByte t u x) : SameByte s u x :=
  ⟨b.held.trans a.held, b.kept.trans a.kept, b.mem.trans a.mem⟩

theorem SameByte.home {s t : State} {x : Nat} (a : SameByte s t x) : homeByte t x = homeByte s x := by
  simp only [homeByte, a.held, a.kept, a.mem]

theorem SameByte.raw {s t : State} {x : Nat} (a : SameByte s t x) : rawByte t x = rawByte s x := by
  simp only [rawByte, a.held, a.mem]

/-- Steps that keep the form and a byte keep it over a fold. -/
theorem sameByte_foldl {α : Type} {x : Nat} (f : State → α → State) (l : List α) (hm : ∀ s y, s.memOk → (f s y).memOk)
    (hf : ∀ s y, y ∈ l → s.memOk → SameByte s (f s y) x) {s : State} (hs : s.memOk) : SameByte s (l.foldl f s) x := by
  induction l generalizing s with
  | nil => exact .refl s x
  | cons y l ih =>
    exact (hf s y List.mem_cons_self hs).trans (ih (fun s z hz => hf s z (List.mem_cons_of_mem _ hz)) (hm s y hs))

theorem sameByte_memSet {s : State} (hs : s.memOk) {a x : Nat} (b : Byte) (e : x ≠ a) : SameByte s (s.memSet a b) x where
  held := rfl
  kept := by
    have hk : tableFind (s.memSet a b).kept x = tableFind s.kept x := (find_del a x hs.kept).trans (if_neg e)
    unfold State.keptByte
    rw [hk]
    rfl
  mem := (memGet_memSet hs a x b).trans (if_neg e)

theorem sameByte_memFree {s : State} (hs : s.memOk) {a x : Nat} (e : x ≠ a) : SameByte s (s.memFree a) x where
  held := rfl
  kept := by
    have hk : tableFind (s.memFree a).kept x = tableFind s.kept x := (find_del a x hs.kept).trans (if_neg e)
    unfold State.keptByte
    rw [hk]
    rfl
  mem := by
    have hf : tableFind (s.memFree a).freeAt x = tableFind s.freeAt x := (find_put s.freeAt a x _).trans (if_neg e)
    have hm : tableFind (s.memFree a).mem x = tableFind s.mem x := (find_del a x ((wf_iff _).mp hs.mem).1).trans (if_neg e)
    unfold State.memGet bytesGet
    rw [hf, hm]

/-- What a sorted table lists at a key after entries are dropped: what it listed there, where that stays. -/
theorem find_filter_iff {α : Type} (p : Nat × α → Bool) : ∀ {t : List (Nat × α)} {lo : Nat} (m : Nat) (v : α), tableSortedFrom lo t = true →
    (tableFind (t.filter p) m = some v ↔ tableFind t m = some v ∧ p (m, v) = true)
  | [], _, m, v, _ => by simp [tableFind]
  | (k, w) :: t, lo, m, v, h => by
    simp only [tableSortedFrom, Bool.and_eq_true, decide_eq_true_eq] at h
    have ih := find_filter_iff p m v h.2
    rw [List.filter_cons]
    by_cases hk : m ≤ k
    · have hnone : tableFind (t.filter p) m = none := find_below (sorted_filter _ h.2) (by omega)
      by_cases e : m = k
      · subst e
        split
        · next hp =>
          simp only [tableFind, if_true, Option.some.injEq]
          exact ⟨fun e => ⟨e, e ▸ hp⟩, And.left⟩
        · next hp =>
          simp only [hnone, tableFind, if_true, Option.some.injEq, reduceCtorEq, false_iff, not_and]
          exact fun e => e ▸ hp
      · have hl : m < k := by omega
        split
        · simp [tableFind, e, hl]
        · simp [tableFind, e, hl, hnone]
    · have e : m ≠ k := by omega
      have hl : ¬m < k := by omega
      split
      · simp only [tableFind, e, hl, if_false, ih]
      · simp only [tableFind, e, hl, if_false, ih]

/-- Of a byte that the L1 does not let go by name, what it holds dirty stays. -/
theorem letGo_dirty {t : List (Nat × CacheByte)} {lo a x : Nat} (ht : tableSortedFrom lo t = true) (e : x ≠ a) (v : Byte) :
    tableFind (letGo t a) x = some (.dirty v) ↔ tableFind t x = some (.dirty v) := by
  unfold letGo
  rw [find_filter_iff _ x (.dirty v) ht]
  simp [e]

/-- What a core holds registered of a byte stays where another byte is dropped from an L1. -/
theorem sameByte_dropL1 {s : State} (hs : s.memOk) (c : Fin 256) {a x : Nat} (e : x ≠ a) : SameByte s (s.dropL1 c a) x where
  held := by
    unfold State.heldByte
    rw [show (s.dropL1 c a).registered = s.registered from rfl]
    split
    · rfl
    · next d _ =>
      by_cases hd : d = c
      · subst hd
        rw [show ((s.dropL1 d a).core d).l1 = letGo (s.core d).l1 a from congrArg Core.l1 (core_setCore_same ..)]
        have hv := letGo_dirty (hs.l1 d) e
        split
        · next v h => rw [(hv v).mp h]
        · next h =>
          split
          · next v h' => exact absurd ((hv v).mpr h') (h v)
          · rfl
      · rw [show (s.dropL1 c a).core d = s.core d from core_setCore_ne _ _ _ _ hd]
  kept := rfl
  mem := rfl

/-- A recall of another byte. -/
theorem sameByte_recallByte {s : State} (hs : s.memOk) {a x : Nat} (e : x ≠ a) : SameByte s (recallByte s a) x := by
  unfold recallByte
  split
  · exact .refl s x
  · next c _ =>
    extract_lets s1
    have h1 : SameByte s s1 x ∧ s1.memOk := by
      dsimp only [s1]
      split
      · exact ⟨sameByte_memSet hs _ e, memOk_memSet hs _ _⟩
      · exact ⟨.refl s x, hs⟩
    clear_value s1
    obtain ⟨h1, m1⟩ := h1
    have m2 : ({ s1 with registered := tableDel s1.registered a } : State).memOk :=
      ⟨m1.mem, m1.free, m1.apart, sorted_del a m1.registered, m1.l1, m1.slices, m1.pads, m1.kept⟩
    have h2 : SameByte s1 { s1 with registered := tableDel s1.registered a } x := by
      refine ⟨?_, rfl, rfl⟩
      unfold State.heldByte
      rw [show tableFind (tableDel s1.registered a) x = tableFind s1.registered x from (find_del a x m1.registered).trans (if_neg e)]
      rfl
    exact (h1.trans h2).trans (sameByte_dropL1 m2 c e)

/-- A change of what is kept, after a change that leaves a byte, where the byte's own entry is as before. -/
theorem sameByte_keep {s : State} {x : Nat} {r : State} (hr : SameByte r s x) (k : List (Nat × Byte))
    (hk : tableFind k x = tableFind r.kept x) (hf : s.isFrozen x = r.isFrozen x) : SameByte r { s with kept := k } x where
  held := hr.held
  kept := by
    unfold State.keptByte
    rw [show ({ s with kept := k } : State).isFrozen x = r.isFrozen x from hf, show ({ s with kept := k } : State).kept = k from rfl, hk]
  mem := hr.mem

/-- What is kept of another byte does not change. -/
theorem find_keep (s : State) {a x : Nat} (e : x ≠ a) : tableFind (s.keep a) x = tableFind s.kept x := by
  unfold State.keep
  split
  · exact (find_put s.kept a x _).trans (if_neg e)
  · rfl

theorem sameByte_fwSetByte {s : State} (hs : s.memOk) {a x : Nat} (b : Byte) (e : x ≠ a) : SameByte s (fwSetByte s a b) x := by
  have h1 := sameByte_recallByte hs e
  refine h1.trans (sameByte_keep (sameByte_memSet (memOk_recallByte hs a) b e) _ (find_keep _ e) rfl)

theorem sameByte_fwFreeByte {s : State} (hs : s.memOk) {a x : Nat} (e : x ≠ a) : SameByte s (fwFreeByte s a) x :=
  sameByte_keep (sameByte_memFree hs e) _ (find_keep _ e) rfl

/-! ## Changes of nothing that a byte is read from -/

/-- All that a byte is read from. -/
def State.sources (s : State) : List Host.Cell × List (Nat × Nat) × List (Nat × Byte) × List (Nat × Fin 256) × Vector Core 256 × List Context :=
  (s.mem, s.freeAt, s.kept, s.registered, s.cores, s.contexts)

theorem SameByte.of_sources {s t : State} (e : t.sources = s.sources) (x : Nat) : SameByte s t x := by
  simp only [State.sources, Prod.mk.injEq] at e
  obtain ⟨hm, hf, hk, hr, hc, hx⟩ := e
  constructor
  · simp only [State.heldByte, State.core, hr, hc]
  · have hz : t.isFrozen x = s.isFrozen x := by simp only [State.isFrozen, State.frozenBy, hx]
    simp only [State.keptByte, hk, hz]
  · simp only [State.memGet, hm, hf]

theorem noteWrite_sources (s : State) (w : Writer) (l : Nat) : (noteWrite s w l).sources = s.sources := by
  fun_cases noteWrite
  · rfl
  · rfl

theorem noteDevice_sources (s : State) (l : List Nat) : (noteDevice s l).sources = s.sources :=
  List.foldlRecOn (motive := fun t => State.sources t = s.sources) _ _ rfl fun t e a _ => (noteWrite_sources t _ a).trans e

theorem settlePoison_sources (s : State) (x y : List Nat) : (settlePoison s x y).sources = s.sources := by
  fun_cases settlePoison
  · rfl
  · rfl

/-! ## Runs of bytes -/

/-- A byte outside a run that the device writes. -/
theorem sameByte_fwWrite {s : State} (hs : s.memOk) (a : Nat) (bs : List Byte) {x : Nat} (hx : ¬(a ≤ x ∧ x < a + bs.length)) :
    SameByte s (fwWrite s a bs) x := by
  have e : (fwWrite s a bs).sources = ((List.range bs.length).foldl (fun s i => fwSetByte s (a + i) (bs.getD i 0#8)) s).sources :=
    (settlePoison_sources _ _ _).trans (noteDevice_sources _ _)
  refine SameByte.trans ?_ (.of_sources e x)
  exact sameByte_foldl _ _ (fun _ _ h => memOk_fwSetByte h _ _) (fun _ i hi h => sameByte_fwSetByte h _ (by have := List.mem_range.mp hi; omega)) hs

theorem sameByte_dropBytes {s : State} (hs : s.memOk) (c : Fin 256) (a n : Nat) {x : Nat} (hx : ¬(a ≤ x ∧ x < a + n)) :
    SameByte s (dropBytes s c a n) x :=
  sameByte_foldl _ _ (fun _ _ h => memOk_dropL1 h _ _) (fun _ i hi h => sameByte_dropL1 h c (by have := List.mem_range.mp hi; omega)) hs

theorem sameByte_freeBytes {s : State} (hs : s.memOk) (a n : Nat) {x : Nat} (hx : ¬(a ≤ x ∧ x < a + n)) : SameByte s (freeBytes s a n) x :=
  sameByte_foldl _ _ (fun _ _ h => memOk_fwFreeByte h _) (fun _ i hi h => sameByte_fwFreeByte h (by have := List.mem_range.mp hi; omega)) hs

end Sys2Proof.Machine
end

section

/-! SUPPORT. What the memory, the engine and a release leave of the work in hand: teams, contexts, launches, copies, and every group slot.
-/

namespace Sys2Proof.Machine

/-- The work in hand: what no operation on memory changes. -/
def State.work (s : State) : List Team × List Context × List Launch × List Module × List Copy × (Fin 256 → Vector (Option Group) 64) :=
  (s.teams, s.contexts, s.launches, s.modules, s.copies, fun c => (s.core c).slots)

theorem work_teams {s t : State} (e : t.work = s.work) : t.teams = s.teams := congrArg Prod.fst e
theorem work_contexts {s t : State} (e : t.work = s.work) : t.contexts = s.contexts := congrArg (·.2.1) e
theorem work_copies {s t : State} (e : t.work = s.work) : t.copies = s.copies := congrArg (·.2.2.2.2.1) e
theorem work_slots {s t : State} (e : t.work = s.work) (c : Fin 256) : (t.core c).slots = (s.core c).slots := congrFun (congrArg (·.2.2.2.2.2) e) c
theorem work_group? {s t : State} (e : t.work = s.work) (c : Fin 256) (i : Fin 64) : t.group? c i = s.group? c i := by
  unfold State.group?
  rw [work_slots e c]

theorem work_foldl {α : Type} (f : State → α → State) (hf : ∀ s x, (f s x).work = s.work) (l : List α) (s : State) : (l.foldl f s).work = s.work :=
  List.foldlRecOn (motive := fun t => State.work t = s.work) l f rfl fun t e x _ => (hf t x).trans e

/-- A core changed outside its slots. -/
theorem setCore_work (s : State) (c : Fin 256) {k : Core} (e : k.slots = (s.core c).slots) : (s.setCore c k).work = s.work := by
  have hs : (fun d => ((s.setCore c k).core d).slots) = fun d => (s.core d).slots := by
    funext d
    by_cases h : d = c
    · subst h; simpa using e
    · simp only [core_setCore_ne _ _ _ _ h]
  show (_, _, _, _, _, fun d => ((s.setCore c k).core d).slots) = _
  rw [hs]
  rfl

theorem dropL1_work (s : State) (c : Fin 256) (a : Nat) : (s.dropL1 c a).work = s.work := setCore_work s c rfl

theorem recallByte_work (s : State) (a : Nat) : (recallByte s a).work = s.work := by
  unfold recallByte
  split
  · rfl
  · refine (dropL1_work _ _ _).trans ?_
    split
    · rfl
    · rfl

theorem noteWrite_work (s : State) (w : Writer) (l : Nat) : (noteWrite s w l).work = s.work := by
  fun_cases noteWrite
  · rfl
  · rfl

theorem noteDevice_work (s : State) (l : List Nat) : (noteDevice s l).work = s.work := work_foldl _ (fun _ _ => noteWrite_work _ _ _) _ _

theorem settlePoison_work (s : State) (x y : List Nat) : (settlePoison s x y).work = s.work := by
  fun_cases settlePoison
  · rfl
  · rfl

theorem hint_work (s : State) (c : Fin 256) (l : Nat) : (s.hint c l).work = s.work := by
  fun_cases State.hint
  · rfl
  · rfl

theorem fwSetByte_work (s : State) (a : Nat) (b : Byte) : (fwSetByte s a b).work = s.work := recallByte_work s a

theorem fwWrite_work (s : State) (a : Nat) (bs : List Byte) : (fwWrite s a bs).work = s.work :=
  (settlePoison_work _ _ _).trans ((noteDevice_work _ _).trans (work_foldl _ (fun _ _ => fwSetByte_work _ _ _) _ _))

theorem dropBytes_work (s : State) (c : Fin 256) (a n : Nat) : (dropBytes s c a n).work = s.work := work_foldl _ (fun _ _ => dropL1_work _ _ _) _ _

theorem freeBytes_work (s : State) (a n : Nat) : (freeBytes s a n).work = s.work := work_foldl (fun s i => fwFreeByte s (a + i)) (fun _ _ => rfl) _ _

theorem writeFrame_work (s : State) (h : Here) (w : Words) (t : TrapInfo) : (writeFrame s h w t).work = s.work := by
  fun_cases writeFrame
  · rfl
  · exact (settlePoison_work _ _ _).trans ((freeBytes_work _ _ _).trans ((dropBytes_work _ _ _ _).trans (fwWrite_work _ _ _)))

theorem forgetWord_work (s : State) (c : Fin 256) (a : Nat) : (forgetWord s c a).work = s.work := by
  refine work_foldl _ (fun t x => ?_) _ _
  dsimp only
  split
  · exact dropL1_work t c x
  · rfl

theorem atomicHome_work (s : State) (w : Writer) (a : Nat) (f : Word → Word) : (atomicHome s w a f).work = s.work := by
  refine (forgetWord_work _ _ _).trans ((noteWrite_work _ _ _).trans ((hint_work _ _ _).trans ((work_foldl _ (fun _ _ => ?_) _ _).trans ?_)))
  · rfl
  · exact work_foldl _ (fun _ _ => recallByte_work _ _) _ _

theorem applyRedg_work (s : State) (r : Redg) : (applyRedg s r).work = s.work := (settlePoison_work _ _ _).trans (atomicHome_work _ _ _ _)
theorem drainRedgs_work (s : State) (g : Nat) : (drainRedgs s g).work = s.work := work_foldl _ applyRedg_work _ _

theorem engineStep_work (s : State) (c : Fin 256) : (engineStep s c).work = s.work := by
  fun_cases engineStep
  · rfl
  · exact setCore_work s c rfl

theorem engineSteps_work (c : Fin 256) : ∀ (n : Nat) (s : State), (engineSteps s c n).work = s.work
  | 0, _ => rfl
  | n + 1, s => (engineSteps_work c n _).trans (engineStep_work s c)

theorem drainEngine_work (s : State) (c : Fin 256) : (drainEngine s c).work = s.work := engineSteps_work c _ s

/-! ## Writes that are outstanding stay so -/

theorem recallByte_writes (s : State) (a : Nat) : (recallByte s a).writes = s.writes := by
  unfold recallByte
  split
  · rfl
  · dsimp only
    split
    · rfl
    · rfl

theorem noteWrite_writes {s : State} {w : OutWrite} (hw : w ∈ s.writes) (x : Writer) (l : Nat) : w ∈ (noteWrite s x l).writes := by
  fun_cases noteWrite
  · exact hw
  · exact List.mem_cons_of_mem _ hw

theorem forgetWord_writes (s : State) (c : Fin 256) (a : Nat) : (forgetWord s c a).writes = s.writes := by
  refine List.foldlRecOn (motive := fun t => State.writes t = s.writes) _ _ rfl fun t e x _ => ?_
  dsimp only
  split
  · exact e
  · exact e

theorem applyRedg_writes {s : State} {w : OutWrite} (hw : w ∈ s.writes) (r : Redg) : w ∈ (applyRedg s r).writes := by
  have hrecall (s : State) (a : Nat) : (recallWord s a).1.writes = s.writes :=
    List.foldlRecOn (motive := fun t => State.writes t = s.writes) _ _ rfl fun t e x _ => (recallByte_writes t x).trans e
  have hhint (s : State) (c : Fin 256) (l : Nat) : (s.hint c l).writes = s.writes := by
    fun_cases State.hint
    · rfl
    · rfl
  have hset (s : State) (b : Nat → Byte) (a : Nat) : ((List.range 4).foldl (fun s i => s.memSet (a + i) (b i)) s).writes = s.writes :=
    List.foldlRecOn (motive := fun t => State.writes t = s.writes) _ _ rfl fun t e x _ => e
  have hpoison (s : State) (x y : List Nat) : (settlePoison s x y).writes = s.writes := by
    fun_cases settlePoison
    · rfl
    · rfl
  unfold applyRedg atomicHome
  rw [hpoison, forgetWord_writes]
  refine noteWrite_writes ?_ _ _
  rw [hhint, hset, hrecall]
  exact hw

theorem drainRedgs_writes {s : State} {w : OutWrite} (hw : w ∈ s.writes) (g : Nat) : w ∈ (drainRedgs s g).writes :=
  List.foldlRecOn (motive := fun t => w ∈ State.writes t) _ _ hw fun _ h r _ => applyRedg_writes h r

theorem drainEngine_writes (s : State) (c : Fin 256) : (drainEngine s c).writes = s.writes := by
  have hstep (s : State) : (engineStep s c).writes = s.writes := by
    fun_cases engineStep
    · rfl
    · rfl
  have hsteps (n : Nat) : ∀ s : State, (engineSteps s c n).writes = s.writes := by
    induction n with
    | zero => exact fun _ => rfl
    | succ n ih => exact fun s => (ih _).trans (hstep s)
  exact hsteps _ s

/-! ## A release within the core -/

/-- A scope within the core. -/
def narrow (sc : Scope) : Prop := sc = .grp ∨ sc = .core

theorem not_wide {sc : Scope} (h : narrow sc) : (sc != .grp && sc != .core) = false := by
  rcases h with rfl | rfl
  · rfl
  · rfl

/-- What of `releaseWork` stands at such a scope. -/
theorem releaseWork_narrow (s : State) (h : Here) {sc : Scope} (hn : narrow sc) :
    ∃ t, (releaseWork s h sc).1 = t ∧
      (t = drainRedgs s h.g.uid ∨ t = drainEngine (drainRedgs s h.g.uid) h.r.core) ∧
      ((s.redgs.filter (fun r => r.group == h.g.uid)) = [] → (∀ r ∈ (s.core h.r.core).engine.runs, r.group ≠ h.g.uid) → t = s) ∧
      ((releaseWork s h sc).2 = true ↔ (∀ w ∈ t.writes, w.redg = true → w.group ≠ h.g.uid) ∧
        ∀ c ∈ t.copies, c.group = h.g.uid → c.out = true → c.written.isSome = true) := by
  refine ⟨_, rfl, ?_, ?_, ?_⟩
  · simp only [releaseWork, not_wide hn, Bool.false_eq_true, if_false]
    split
    · exact .inr rfl
    · exact .inl rfl
  · intro hr he
    have hd : drainRedgs s h.g.uid = s := by simp [drainRedgs, hr]
    have hx : ((s.core h.r.core).engine.runs.any fun r => r.group == h.g.uid) = false := by simpa using he
    simp only [releaseWork, not_wide hn, Bool.false_eq_true, if_false, hd, hx]
  · simp only [releaseWork, not_wide hn, Bool.false_eq_true, if_false, Bool.false_and, Bool.false_or, Bool.and_eq_true, Bool.not_eq_true',
      List.any_eq_false, beq_iff_eq, not_and, Option.isNone_iff_eq_none, Option.isSome_iff_ne_none, ne_eq]
    exact ⟨fun h => ⟨h.1, fun c hc a b => h.2 c hc ⟨a, b⟩⟩, fun h => ⟨h.1, fun c hc a => h.2 c hc a.1 a.2⟩⟩

/-- Where nothing of the group's is outstanding, a release within the core has nothing to do. -/
theorem releaseWork_done {s : State} {h : Here} {sc : Scope} (hn : narrow sc) (hr : GroupReleased s h) : releaseWork s h sc = (s, true) := by
  obtain ⟨t, h1, -, hid, hdone⟩ := releaseWork_narrow s h hn
  have ht : t = s := hid (by simpa using hr.redgs) hr.runs
  subst ht
  exact Prod.ext h1 (hdone.mpr ⟨hr.writes, hr.copies⟩)

theorem releaseWork_work (s : State) (h : Here) {sc : Scope} (hn : narrow sc) : (releaseWork s h sc).1.work = s.work := by
  obtain ⟨t, h1, ht, -, -⟩ := releaseWork_narrow s h hn
  rw [h1]
  rcases ht with rfl | rfl
  · exact drainRedgs_work s _
  · exact (drainEngine_work _ _).trans (drainRedgs_work s _)

/-- Where something of the group's is outstanding, the release is not complete. -/
theorem releaseWork_waits {s : State} {h : Here} {sc : Scope} (hn : narrow sc) (hw : GroupWaits s h) : (releaseWork s h sc).2 = false := by
  have hwork := releaseWork_work s h hn
  obtain ⟨t, h1, ht, -, hdone⟩ := releaseWork_narrow s h hn
  rw [h1] at hwork
  refine Bool.eq_false_iff.mpr fun e => ?_
  obtain ⟨hwrites, hcopies⟩ := hdone.mp e
  rcases hw with ⟨w, hw, hredg, hg⟩ | ⟨c, hc, hg, hout, hnone⟩
  · refine hwrites w ?_ hredg hg
    rcases ht with rfl | rfl
    · exact drainRedgs_writes hw _
    · rw [drainEngine_writes]; exact drainRedgs_writes hw _
  · have := hcopies c (work_copies hwork ▸ hc) hg hout
    simp [hnone] at this

/-- A release of all outstanding work is one of the group's. -/
theorem Released.group {s : State} {h : Here} (r : Released s h) : GroupReleased s h where
  redgs := r.redgs
  runs := r.runs
  writes := fun w hw _ => (r.writes w hw).2
  copies := fun c hc hg ho => by simp [r.copies c hc hg] at ho

end Sys2Proof.Machine
end

section

/-! SUPPORT. The fragments of a group: who is live, in which order they stand, what a single fragment's settling and a fusion at `REGANG` leave
of each entry (R30 to R32, R56).
-/

namespace Sys2Proof.Machine

/-! ## Live entries -/

theorem mem_live {g : Group} {i : Fin 8} : i ∈ g.live ↔ ∃ f, g.frags[i] = some f ∧ f.status ≠ .exited := by
  unfold Group.live
  rw [List.mem_filter]
  cases hf : g.frags[i] with
  | none => simp
  | some f => simp

theorem live_congr {g g' : Group} (e : ∀ i : Fin 8, (g'.frags[i]).map (fun f => f.status != .exited) = (g.frags[i]).map (fun f => f.status != .exited)) :
    g'.live = g.live := by
  unfold Group.live
  refine List.filter_congr fun i _ => ?_
  have := e i
  cases h1 : g.frags[i] <;> cases h2 : g'.frags[i] <;> simp_all

@[simp] theorem setFrag_same (g : Group) (i : Fin 8) (f : Option Frag) : (g.setFrag i f).frags[i] = f := by simp [Group.setFrag]

theorem setFrag_ne (g : Group) {i j : Fin 8} (f : Option Frag) (h : j ≠ i) : (g.setFrag i f).frags[j] = g.frags[j] := by
  have : i.val ≠ j.val := fun e => h (Fin.ext e.symm)
  simp [Group.setFrag, this]

/-! ## A single fragment -/

/-- A group whose one live fragment has settled. -/
def Group.singled (g : Group) (i : Fin 8) (f : Frag) : Group :=
  { (g.setFrag i (some { f with written := Written.empty })).unmap g.killSet with killSet := 0#64 }

/-- One fragment is live and settles, or nothing happens. -/
theorem settleSingle_cases (g : Group) :
    (∃ i f, g.live = [i] ∧ g.frags[i] = some f ∧ g.settleSingle = g.singled i f) ∨ (g.live.length ≠ 1 ∧ g.settleSingle = g) := by
  unfold Group.settleSingle
  split
  · next i hl =>
    obtain ⟨f, hf, -⟩ := mem_live.mp (hl ▸ List.mem_singleton_self i : i ∈ g.live)
    exact .inl ⟨i, f, hl, hf, by simp only [hf]; rfl⟩
  · next hl =>
    refine .inr ⟨fun h => ?_, rfl⟩
    obtain ⟨i, hi⟩ := List.length_eq_one_iff.mp h
    exact hl i hi

theorem singled_frags (g : Group) (i : Fin 8) (f : Frag) :
    (g.singled i f).frags = (g.setFrag i (some { f with written := Written.empty })).frags := rfl

theorem singled_v (g : Group) (i : Fin 8) (f : Frag) : (g.singled i f).v = (g.unmap g.killSet).v := rfl
theorem singled_killSet (g : Group) (i : Fin 8) (f : Frag) : (g.singled i f).killSet = 0#64 := rfl

theorem singled_same (g : Group) (i : Fin 8) (f : Frag) : (g.singled i f).frags[i] = some { f with written := Written.empty } :=
  by rw [singled_frags, setFrag_same]

theorem singled_ne (g : Group) {i j : Fin 8} (f : Frag) (h : j ≠ i) : (g.singled i f).frags[j] = g.frags[j] := by
  rw [singled_frags, setFrag_ne g _ h]

/-- What settling a single fragment leaves of each entry: of the one that is live alone the written set is empty. -/
theorem settleSingle_frags (g : Group) (i : Fin 8) :
    g.settleSingle.frags[i] = (g.frags[i]).map (fun f => if g.live = [i] then { f with written := Written.empty } else f) := by
  rcases settleSingle_cases g with ⟨j, f, hl, hf, e⟩ | ⟨hl, e⟩
  · rw [e]
    by_cases h : i = j
    · subst h; rw [singled_same, hf, Option.map_some, if_pos hl]
    · have hne : ¬ g.live = [i] := by simpa [hl] using Ne.symm h
      simp only [singled_ne g f h, if_neg hne, Option.map_id']
  · have hne : ¬ g.live = [i] := fun h => hl (by rw [h]; rfl)
    simp only [e, if_neg hne, Option.map_id']

theorem settleSingle_rest (g : Group) : { g.settleSingle with frags := g.frags, v := g.v, killSet := g.killSet } = g := by
  rcases settleSingle_cases g with ⟨j, f, -, -, e⟩ | ⟨-, e⟩
  · rw [e]; rfl
  · rw [e]

/-- Where more or fewer than one are live nothing happens. -/
theorem settleSingle_of_ne_one {g : Group} (h : g.live.length ≠ 1) : g.settleSingle = g := by
  rcases settleSingle_cases g with ⟨j, f, hl, -, -⟩ | ⟨-, e⟩
  · exact absurd (congrArg List.length hl) h
  · exact e

theorem regGet_unmap (g : Group) (set : BitVec 64) (n : Reg) : regGet (g.unmap set).v n = if set.getLsbD n.toNat then none else regGet g.v n := by
  simp [Group.unmap, regGet, BitVec.getLsbD_eq_getElem n.isLt]

/-- Where one is live the pending kills take effect. -/
theorem settleSingle_kills {g : Group} (h : g.live.length = 1) : g.settleSingle.killSet = 0#64 ∧
    ∀ n : Reg, regGet g.settleSingle.v n = if g.killSet.getLsbD n.toNat then none else regGet g.v n := by
  rcases settleSingle_cases g with ⟨j, f, -, -, e⟩ | ⟨hl, -⟩
  · rw [e, singled_killSet, singled_v]; exact ⟨rfl, regGet_unmap _ _⟩
  · exact absurd h hl

theorem settleSingle_live (g : Group) : g.settleSingle.live = g.live := by
  refine live_congr fun i => ?_
  rw [settleSingle_frags, Option.map_map]
  congr 1
  funext f
  simp only [Function.comp]
  split
  · rfl
  · rfl

/-! ## The order of the entries -/

/-- No entry is without slices, and no slice is in two (R24). -/
structure Group.Apart (g : Group) : Prop where
  nonempty : ∀ (i : Fin 8) (f : Frag), g.frags[i] = some f → f.slices ≠ 0#8
  disjoint : ∀ (i j : Fin 8) (f f' : Frag), i ≠ j → g.frags[i] = some f → g.frags[j] = some f' → f.slices &&& f'.slices = 0#8

/-- All entries, lowest slice first. -/
def Group.order (g : Group) : List (Fin 8) := g.bySlice (fun _ => true)

theorem bySlice_frag {g : Group} {p : Frag → Bool} {i : Fin 8} (h : i ∈ g.bySlice p) : ∃ f, g.frags[i] = some f ∧ p f = true := by
  obtain ⟨sl, -, hf⟩ := List.mem_filterMap.mp h
  have hp := List.find?_some hf
  cases hi : g.frags[i] with
  | none => simp [hi] at hp
  | some f =>
    simp only [hi, Bool.and_eq_true] at hp
    exact ⟨f, rfl, hp.1⟩

theorem bySlice_congr {g g' : Group} {p p' : Frag → Bool}
    (e : ∀ i : Fin 8, (g'.frags[i]).map (fun f => (p' f, f.slices)) = (g.frags[i]).map (fun f => (p f, f.slices))) : g'.bySlice p' = g.bySlice p := by
  unfold Group.bySlice
  refine List.filterMap_congr fun sl _ => ?_
  congr 1
  funext i
  have := e i
  cases h1 : g.frags[i] <;> cases h2 : g'.frags[i] <;> simp_all

theorem order_nodup (g : Group) (p : Frag → Bool) : (g.bySlice p).Nodup := by
  refine List.nodup_range.filterMap fun a b i ha hb => ?_
  have h1 := List.find?_some ha
  have h2 := List.find?_some hb
  cases hi : g.frags[i] with
  | none => simp [hi] at h1
  | some f =>
    simp only [hi, Bool.and_eq_true, beq_iff_eq] at h1 h2
    exact h1.2.symm.trans h2.2

/-- A set of slices that is not empty holds its lowest one. -/
theorem lowestSlice_mem : ∀ x : BitVec 8, x ≠ 0#8 → lowestSlice x < 8 ∧ x.getLsbD (lowestSlice x) = true := by decide

/-- Sets of slices that are apart have lowest slices apart. -/
theorem lowestSlice_ne {x y : BitVec 8} (hx : x ≠ 0#8) (hd : x &&& y = 0#8) : lowestSlice y ≠ lowestSlice x := by
  intro e
  obtain ⟨hlt, hbit⟩ := lowestSlice_mem x hx
  by_cases hy : y = 0#8
  · subst hy
    have : lowestSlice 0#8 = 8 := rfl
    omega
  · have hboth := congrArg (BitVec.getLsbD · (lowestSlice x)) hd
    simp only [BitVec.getLsbD_and, hbit, Bool.true_and] at hboth
    rw [← e, (lowestSlice_mem y hy).2] at hboth
    simp at hboth

/-- Entries apart have lowest slices apart. -/
theorem Group.Apart.lowest {g : Group} (a : g.Apart) {i j : Fin 8} {f f' : Frag} (hi : g.frags[i] = some f) (hj : g.frags[j] = some f')
    (e : lowestSlice f.slices = lowestSlice f'.slices) : i = j :=
  Decidable.byContradiction fun hne => lowestSlice_ne (a.nonempty i f hi) (a.disjoint i j f f' hne hi hj) e.symm

/-- An entry that no other shares its lowest slice with stands in its order. -/
theorem mem_bySlice {g : Group} {p : Frag → Bool} {i : Fin 8} {f : Frag} (hi : g.frags[i] = some f) (hp : p f = true) (h0 : f.slices ≠ 0#8)
    (hu : ∀ (j : Fin 8) (f' : Frag), g.frags[j] = some f' → lowestSlice f'.slices = lowestSlice f.slices → j = i) : i ∈ g.bySlice p := by
  refine List.mem_filterMap.mpr ⟨lowestSlice f.slices, List.mem_range.mpr (lowestSlice_mem _ h0).1, ?_⟩
  cases hf : (List.finRange 8).find? (fun j => match g.frags[j] with
      | some f' => p f' && lowestSlice f'.slices == lowestSlice f.slices
      | none => false) with
  | none =>
    have := List.find?_eq_none.mp hf i (List.mem_finRange i)
    simp [hi, hp] at this
  | some j =>
    have h1 := List.find?_some hf
    cases hj : g.frags[j] with
    | none => simp [hj] at h1
    | some f' =>
      simp only [hj, Bool.and_eq_true, beq_iff_eq] at h1
      rw [hu j f' hj h1.2]

theorem Group.Apart.mem_bySlice {g : Group} (a : g.Apart) {p : Frag → Bool} {i : Fin 8} :
    i ∈ g.bySlice p ↔ ∃ f, g.frags[i] = some f ∧ p f = true := by
  refine ⟨bySlice_frag, fun ⟨f, hi, hp⟩ => ?_⟩
  exact Machine.mem_bySlice hi hp (a.nonempty i f hi) fun j f' hj e => a.lowest hj hi e

/-- The entries that meet a test stand in the order of all. -/
theorem Group.Apart.bySlice_eq {g : Group} (a : g.Apart) (p : Frag → Bool) : g.bySlice p = g.order.filter (fun i => (g.frags[i]).any p) := by
  unfold Group.order Group.bySlice
  rw [List.filter_filterMap]
  refine List.filterMap_congr fun sl _ => ?_
  have hone (i j : Fin 8) (hi : (match g.frags[i] with
      | some f => lowestSlice f.slices == sl
      | none => false) = true) (hj : (match g.frags[j] with
      | some f => lowestSlice f.slices == sl
      | none => false) = true) : i = j := by
    cases h1 : g.frags[i] with
    | none => simp [h1] at hi
    | some f =>
      cases h2 : g.frags[j] with
      | none => simp [h2] at hj
      | some f' =>
        simp only [h1, h2, beq_iff_eq] at hi hj
        exact a.lowest h1 h2 (hi.trans hj.symm)
  cases hf : (List.finRange 8).find? (fun i => match g.frags[i] with
      | some f => true && lowestSlice f.slices == sl
      | none => false) with
  | none =>
    refine List.find?_eq_none.mpr fun i hi => ?_
    have := List.find?_eq_none.mp hf i hi
    cases h1 : g.frags[i] with
    | none => simp
    | some f =>
      simp only [h1, Bool.true_and] at this
      simp [this]
  | some j =>
    have h1 := List.find?_some hf
    cases hj : g.frags[j] with
    | none => simp [hj] at h1
    | some f =>
      simp only [hj, Bool.true_and, beq_iff_eq] at h1
      have hown (i : Fin 8) (f' : Frag) (hi : g.frags[i] = some f') (e : lowestSlice f'.slices = sl) : i = j :=
        a.lowest hi hj (e.trans h1.symm)
      cases hp : p f with
      | true =>
        rw [Option.filter_some, hj]
        simp only [Option.any_some, hp, if_true]
        refine List.find?_eq_some_iff_append.mpr ?_
        obtain ⟨-, as, bs, hl, has⟩ := List.find?_eq_some_iff_append.mp hf
        refine ⟨by simp [hj, hp, h1], as, bs, hl, fun i hi => ?_⟩
        have := has i hi
        cases h2 : g.frags[i] with
        | none => rfl
        | some f' =>
          simp only [h2, Bool.true_and, Bool.not_eq_true', beq_eq_false_iff_ne] at this
          simp [this]
      | false =>
        rw [Option.filter_some, hj]
        simp only [Option.any_some, hp, Bool.false_eq_true, if_false]
        refine List.find?_eq_none.mpr fun i _ => ?_
        cases h2 : g.frags[i] with
        | none => simp
        | some f' =>
          by_cases e : lowestSlice f'.slices = sl
          · obtain rfl := hown i f' h2 e
            rw [hj] at h2
            cases h2
            simp [hp]
          · simp [e]

end Sys2Proof.Machine
end

section

/-! SUPPORT. Fusion at `REGANG` (R30, R31): what the fused fragment holds, and what becomes of each entry of the group.
-/

namespace Sys2Proof.Machine

/-! ## The fused fragment -/

/-- The fragment that several fuse to, `f` the first of them. -/
def fusion (fs : List Frag) (f : Frag) : Frag :=
  { slices := fs.foldl (fun a x => a ||| x.slices) 0#8, pc := f.pc + 4#64, status := .ready
    view := fuseView fs f.view, written := fs.foldl (fun a x => a.union x.written) Written.empty
    pending := [], held := .no, halted := fs.any (fun x => x.halted), resume := 0, waited := 0, overdue := none
    issued := none, passed := [], ahead := [], behind := false, late := false }

theorem fusion_slices (fs : List Frag) (f : Frag) (k : Nat) : (fusion fs f).slices.getLsbD k = fs.any (fun x => x.slices.getLsbD k) := by
  have h (fs : List Frag) : ∀ a : BitVec 8, (fs.foldl (fun a x => a ||| x.slices) a).getLsbD k = (a.getLsbD k || fs.any (fun x => x.slices.getLsbD k)) := by
    induction fs with
    | nil => simp
    | cons x xs ih => intro a; simp [ih, Bool.or_assoc]
  exact (h fs 0#8).trans (by simp)

theorem fusion_written_s (fs : List Frag) (f : Frag) (k : Nat) :
    (fusion fs f).written.s.getLsbD k = fs.any (fun x => x.written.s.getLsbD k) := by
  have h (fs : List Frag) : ∀ a : Written,
      (fs.foldl (fun a x => a.union x.written) a).s.getLsbD k = (a.s.getLsbD k || fs.any (fun x => x.written.s.getLsbD k)) := by
    induction fs with
    | nil => simp
    | cons x xs ih => intro a; rw [List.foldl_cons, ih]; simp [Written.union, Bool.or_assoc]
  exact (h fs Written.empty).trans (by simp [Written.empty])

/-- The pick of the model is that of R31. -/
theorem pickView_fusedBy {α : Type} {fs : List Frag} (hfs : fs ≠ []) (v0 : View) (wrote : Frag → Bool) (val : View → α) :
    some (val ((pickView fs wrote).getD v0)) = fusedBy fs wrote val := by
  unfold pickView fusedBy
  cases hf : fs.find? wrote with
  | some f => rfl
  | none =>
    cases fs with
    | nil => exact absurd rfl hfs
    | cons f fs => rfl

theorem fusedView_fuseView {fs : List Frag} (hfs : fs ≠ []) (v0 : View) : FusedView fs (fuseView fs v0) where
  s := fun n => by rw [← pickView_fusedBy hfs v0 _ (fun v => v.s[n])]; simp [fuseView]
  k := fun n => by rw [← pickView_fusedBy hfs v0 _ (fun v => v.k[n])]; simp [fuseView]
  w := fun n => by rw [← pickView_fusedBy hfs v0 _ (fun v => v.w[n])]; simp [fuseView]
  scc := by rw [← pickView_fusedBy hfs v0]; simp [fuseView]
  fp := by rw [← pickView_fusedBy hfs v0]; simp [fuseView]
  part := by rw [← pickView_fusedBy hfs v0]; simp [fuseView]

/-- What a fragment brings to a fusion. -/
def Frag.share (f : Frag) : BitVec 8 × Written × View := (f.slices, f.written, f.view)

theorem fusedBy_share {α : Type} {fs fs' : List Frag} (e : fs'.map Frag.share = fs.map Frag.share) (wrote : Written → Bool) (val : View → α) :
    fusedBy fs' (fun f => wrote f.written) val = fusedBy fs (fun f => wrote f.written) val := by
  have h (l : List Frag) : fusedBy l (fun f => wrote f.written) val =
      (((l.map Frag.share).find? (fun x => wrote x.2.1)).orElse (fun _ => (l.map Frag.share).head?)).map (fun x => val x.2.2) := by
    unfold fusedBy
    rw [List.find?_map]
    change _ = Option.map _ (((l.find? (fun f => wrote f.written)).map Frag.share).orElse _)
    cases l.find? (fun f => wrote f.written) with
    | some f => rfl
    | none =>
      cases l with
      | nil => rfl
      | cons f l => rfl
  rw [h, h, e]

/-- A fusion's view depends on what the fragments bring alone. -/
theorem FusedView.share {fs fs' : List Frag} {v : View} (e : fs'.map Frag.share = fs.map Frag.share) (h : FusedView fs v) : FusedView fs' v where
  s := fun n => (h.s n).trans (fusedBy_share e (fun w => w.s.getLsbD n.val) _).symm
  k := fun n => (h.k n).trans (fusedBy_share e (fun w => w.k.getLsbD n.val) _).symm
  w := fun n => (h.w n).trans (fusedBy_share e (fun w => w.w.getLsbD n.val) _).symm
  scc := h.scc.trans (fusedBy_share e (fun w => w.scc) _).symm
  fp := h.fp.trans (fusedBy_share e (fun w => w.fp) _).symm
  part := h.part.trans (fusedBy_share e (fun w => w.part) _).symm

/-- One fragment alone fuses to its own view, whatever it wrote. -/
theorem fusedBy_single {α : Type} (f : Frag) (wrote : Frag → Bool) (val : View → α) : fusedBy [f] wrote val = some (val f.view) := by
  unfold fusedBy
  rw [List.find?_singleton]
  split
  · rfl
  · rfl

theorem FusedView.single {f f' : Frag} {v : View} (e : f'.view = f.view) (h : FusedView [f] v) : FusedView [f'] v where
  s := fun n => by rw [h.s, fusedBy_single, fusedBy_single, e]
  k := fun n => by rw [h.k, fusedBy_single, fusedBy_single, e]
  w := fun n => by rw [h.w, fusedBy_single, fusedBy_single, e]
  scc := by rw [h.scc, fusedBy_single, fusedBy_single, e]
  fp := by rw [h.fp, fusedBy_single, fusedBy_single, e]
  part := by rw [h.part, fusedBy_single, fusedBy_single, e]

/-! ## One fusion -/

theorem clearFrags_frags (l : List (Fin 8)) (j : Fin 8) : ∀ g : Group,
    (l.foldl (fun g i => g.setFrag i none) g).frags[j] = if j ∈ l then none else g.frags[j] := by
  induction l with
  | nil => simp
  | cons i l ih =>
    intro g
    rw [List.foldl_cons, ih]
    by_cases e : j = i
    · subst e; rw [setFrag_same, ite_self, if_pos List.mem_cons_self]
    · rw [setFrag_ne g none e]; simp [e]

/-- Of a group nothing but its entries has changed. -/
def Group.BesidesFrags (g g' : Group) : Prop := { g' with frags := g.frags } = g

theorem Group.BesidesFrags.refl (g : Group) : g.BesidesFrags g := rfl

theorem Group.BesidesFrags.trans {a b c : Group} (x : a.BesidesFrags b) (y : b.BesidesFrags c) : a.BesidesFrags c := by
  unfold Group.BesidesFrags at *
  rw [← x, ← y]

theorem Group.BesidesFrags.foldl {α : Type} (f : Group → α → Group) (hf : ∀ (g : Group) (x : α), g.BesidesFrags (f g x)) (l : List α) (g : Group) :
    g.BesidesFrags (l.foldl f g) := List.foldlRecOn (motive := fun x => g.BesidesFrags x) l f (.refl g) fun _ e x _ => e.trans (hf _ x)

theorem besidesFrags_setFrag (g : Group) (i : Fin 8) (f : Option Frag) : g.BesidesFrags (g.setFrag i f) := rfl

/-- The first of some entries holds what they fuse to, the others are free, and nothing else changes. -/
theorem fuse_frags {g : Group} {i : Fin 8} {rest : List (Fin 8)} {f : Frag} (hi : g.frags[i] = some f) (hd : i ∉ rest) (j : Fin 8) :
    (g.fuse (i :: rest)).frags[j] =
      if j = i then some (fusion ((i :: rest).filterMap (fun i => g.frags[i])) f) else if j ∈ rest then none else g.frags[j] := by
  have hl : (i :: rest).filterMap (fun i => g.frags[i]) = f :: rest.filterMap (fun i => g.frags[i]) := List.filterMap_cons_some hi
  unfold Group.fuse
  simp only [hl]
  rw [clearFrags_frags]
  by_cases e : j = i
  · subst e; rw [if_neg hd, setFrag_same, if_pos rfl]; rfl
  · rw [setFrag_ne g _ e, if_neg e]

theorem fuse_rest (g : Group) (is : List (Fin 8)) : g.BesidesFrags (g.fuse is) := by
  unfold Group.fuse
  dsimp only
  split
  · exact Group.BesidesFrags.trans (besidesFrags_setFrag g _ _) (.foldl _ (fun g j => besidesFrags_setFrag g j none) _ _)
  · exact .refl g

/-! ## All fusions of a group -/

/-- The entry waits at the `REGANG` at an address. -/
def Group.standsAt (g : Group) (p : DWord) (i : Fin 8) : Bool := match g.frags[i] with
  | some f => f.status == .waiting .regang && f.pc == p
  | none => false

theorem standsAt_iff {g : Group} {p : DWord} {i : Fin 8} :
    g.standsAt p i = true ↔ ∃ f, g.frags[i] = some f ∧ f.status = .waiting .regang ∧ f.pc = p := by
  unfold Group.standsAt
  cases g.frags[i] with
  | none => simp
  | some f => simp

/-- The entries of a list that stand at an address fuse. -/
def Group.fuseAt (l : List (Fin 8)) (g : Group) (p : DWord) : Group := g.fuse (l.filter (g.standsAt p))

/-- What each entry holds after those of a list that stand at some addresses have fused. -/
def Group.fusedEntry (g : Group) (l : List (Fin 8)) (ps : List DWord) (i : Fin 8) : Option Frag := match g.frags[i] with
  | none => none
  | some f =>
    let here := l.filter (g.standsAt f.pc)
    if i ∈ l ∧ f.status = .waiting .regang ∧ f.pc ∈ ps then
      (if here.head? = some i then some (fusion (here.filterMap (fun i => g.frags[i])) f) else none)
    else some f

/-- An entry that stands at another address than those fused is as it was; one that was fused stands at none. -/
theorem standsAt_fusedEntry {g g' : Group} {l : List (Fin 8)} {ps : List DWord} (e : ∀ i : Fin 8, g'.frags[i] = g.fusedEntry l ps i) {p : DWord}
    (hp : p ∉ ps) (i : Fin 8) : g'.standsAt p i = g.standsAt p i ∧ (g.standsAt p i = true → g'.frags[i] = g.frags[i]) := by
  have he := e i
  unfold Group.standsAt
  unfold Group.fusedEntry at he
  cases hf : g.frags[i] with
  | none => simp_all
  | some f =>
    simp only [hf] at he
    by_cases hc : i ∈ l ∧ f.status = .waiting .regang ∧ f.pc ∈ ps
    · have hne : (f.pc == p) = false := by
        refine beq_eq_false_iff_ne.mpr fun h => hp (h ▸ hc.2.2)
      rw [if_pos hc] at he
      split at he
      · simp [he, hne, fusion]
      · simp [he, hne]
    · rw [if_neg hc] at he
      simp [he]

/-- A fusion at one address more. -/
theorem fusedEntry_step {g g' : Group} {l : List (Fin 8)} {ps : List DWord} (hl : l.Nodup) (e : ∀ i : Fin 8, g'.frags[i] = g.fusedEntry l ps i)
    {p : DWord} (hp : p ∉ ps) (i : Fin 8) : (g'.fuseAt l p).frags[i] = g.fusedEntry l (ps ++ [p]) i := by
  have hfil : l.filter (g'.standsAt p) = l.filter (g.standsAt p) := List.filter_congr fun i _ => (standsAt_fusedEntry e hp i).1
  have hsame (j : Fin 8) (hj : j ∈ l.filter (g.standsAt p)) : g'.frags[j] = g.frags[j] := by
    obtain ⟨hjl, hjp⟩ := List.mem_filter.mp hj
    exact (standsAt_fusedEntry e hp j).2 hjp
  have hmap : (l.filter (g.standsAt p)).filterMap (fun i => g'.frags[i]) = (l.filter (g.standsAt p)).filterMap (fun i => g.frags[i]) :=
    List.filterMap_congr hsame
  -- an entry that does not stand at `p` keeps what it holds
  have hout (hi : i ∉ l.filter (g.standsAt p)) : g.fusedEntry l (ps ++ [p]) i = g.fusedEntry l ps i := by
    unfold Group.fusedEntry
    cases hf : g.frags[i] with
    | none => rfl
    | some f =>
      have hiff : (i ∈ l ∧ f.status = .waiting .regang ∧ f.pc ∈ ps ++ [p]) ↔ (i ∈ l ∧ f.status = .waiting .regang ∧ f.pc ∈ ps) := by
        simp only [List.mem_append, List.mem_singleton]
        refine ⟨fun ⟨a, b, c⟩ => ⟨a, b, c.resolve_right fun hpc => hi ?_⟩, fun ⟨a, b, c⟩ => ⟨a, b, .inl c⟩⟩
        exact List.mem_filter.mpr ⟨a, standsAt_iff.mpr ⟨f, hf, b, hpc⟩⟩
      simp only [hiff]
  unfold Group.fuseAt
  rw [hfil]
  cases hL : l.filter (g.standsAt p) with
  | nil =>
    rw [hout (by rw [hL]; simp), ← e i]
    rfl
  | cons j rest =>
    have hnd : (j :: rest).Nodup := hL ▸ hl.filter _
    obtain ⟨hj, hrest⟩ := List.nodup_cons.mp hnd
    have hmem (k : Fin 8) : k ∈ j :: rest ↔ k ∈ l ∧ g.standsAt p k = true := by rw [← hL, List.mem_filter]
    obtain ⟨f, hf, -, hpc⟩ := standsAt_iff.mp ((hmem j).mp List.mem_cons_self).2
    rw [fuse_frags ((hsame j (hL ▸ List.mem_cons_self)).trans hf) hj, ← hL, hmap]
    by_cases hi : i ∈ j :: rest
    · obtain ⟨fi, hfi, hst, hpci⟩ := standsAt_iff.mp ((hmem i).mp hi).2
      have hcond : i ∈ l ∧ fi.status = .waiting .regang ∧ fi.pc ∈ ps ++ [p] := ⟨((hmem i).mp hi).1, hst, by simp [hpci]⟩
      have hentry : g.fusedEntry l (ps ++ [p]) i =
          if j = i then some (fusion ((j :: rest).filterMap (fun i => g.frags[i])) fi) else none := by
        unfold Group.fusedEntry
        simp only [hfi]
        rw [if_pos hcond, hpci, hL]
        simp only [List.head?_cons, Option.some.injEq]
      rw [hentry, hL]
      by_cases hij : i = j
      · subst hij
        rw [hf] at hfi
        cases hfi
        rw [if_pos rfl, if_pos rfl]
      · have : i ∈ rest := (List.mem_cons.mp hi).resolve_left hij
        rw [if_neg hij, if_pos this, if_neg (Ne.symm hij)]
    · have hij : i ≠ j := fun h => hi (h ▸ List.mem_cons_self)
      have hir : i ∉ rest := fun h => hi (List.mem_cons_of_mem _ h)
      rw [if_neg hij, if_neg hir, e i, hout (by rw [hL]; exact hi)]

theorem fuseAll_frags {g : Group} {l : List (Fin 8)} (hl : l.Nodup) (qs : List DWord) : ∀ (ps : List DWord) (g' : Group),
    (∀ i : Fin 8, g'.frags[i] = g.fusedEntry l ps i) → (ps ++ qs).Nodup →
    ∀ i : Fin 8, (qs.foldl (Group.fuseAt l) g').frags[i] = g.fusedEntry l (ps ++ qs) i := by
  induction qs with
  | nil => intro ps g' e _ i; simpa using e i
  | cons q qs ih =>
    intro ps g' e hnd i
    have hq : q ∉ ps := fun h => (List.nodup_append.mp hnd).2.2 q h q List.mem_cons_self rfl
    have := ih (ps ++ [q]) (g'.fuseAt l q) (fusedEntry_step hl e hq) (by simpa using hnd) i
    simpa using this

theorem fuseAll_rest (l : List (Fin 8)) (qs : List DWord) (g : Group) : g.BesidesFrags (qs.foldl (Group.fuseAt l) g) :=
  .foldl _ (fun g p => fuse_rest g (l.filter (g.standsAt p))) _ _

/-! ## `REGANG` of a group -/

theorem nodup_eraseDups {α : Type} [BEq α] [LawfulBEq α] : ∀ l : List α, l.eraseDups.Nodup
  | [] => by simp
  | a :: l => by
    rw [List.eraseDups_cons]
    refine List.nodup_cons.mpr ⟨?_, nodup_eraseDups _⟩
    simp [List.mem_eraseDups]
  termination_by l => l.length
  decreasing_by simp only [List.length_cons]; exact Nat.lt_succ_of_le (List.length_filter_le _ _)

/-- The live entries, lowest slice first. -/
def Group.liveOrder (g : Group) : List (Fin 8) := g.bySlice (fun f => f.status != .exited)

/-- Each live entry waits at a `REGANG`. -/
def Group.allRegang (g : Group) : Prop := ∀ i ∈ g.liveOrder, ∃ f, g.frags[i] = some f ∧ f.status = .waiting .regang

theorem regangs_eq (g : Group) : g.regangs =
    if !(g.liveOrder.all (fun i => match g.frags[i] with
      | some f => f.status == .waiting .regang
      | none => false)) || g.liveOrder.isEmpty then g
    else (g.liveOrder.filterMap (fun i => (g.frags[i]).map (fun f => f.pc))).eraseDups.foldl (Group.fuseAt g.liveOrder) g := rfl

theorem allRegang_iff (g : Group) : g.liveOrder.all (fun i => match g.frags[i] with
      | some f => f.status == .waiting .regang
      | none => false) = true ↔ g.allRegang := by
  rw [List.all_eq_true]
  refine forall₂_congr fun i _ => ?_
  cases g.frags[i] with
  | none => simp
  | some f => simp

/-- Where a live entry waits at no `REGANG`, nothing fuses. -/
theorem regangs_none {g : Group} (h : ¬ g.allRegang) : g.regangs = g := by
  rw [regangs_eq, if_pos]
  rw [Bool.or_eq_true, Bool.not_eq_true']
  exact .inl (Bool.eq_false_iff.mpr fun e => h ((allRegang_iff g).mp e))

theorem regangs_rest (g : Group) : g.BesidesFrags g.regangs := by
  rw [regangs_eq]
  split
  · exact .refl g
  · exact fuseAll_rest _ _ _

/-- Where all wait at `REGANG`, each entry is the fused one of its address, or free. -/
theorem regangs_frags {g : Group} (h : g.allRegang) (i : Fin 8) : g.regangs.frags[i] = (g.frags[i]).bind (fun f =>
    let here := g.liveOrder.filter (g.standsAt f.pc)
    if i ∈ g.liveOrder then (if here.head? = some i then some (fusion (here.filterMap (fun i => g.frags[i])) f) else none) else some f) := by
  have hstart (j : Fin 8) : g.frags[j] = g.fusedEntry g.liveOrder [] j := by
    unfold Group.fusedEntry
    cases g.frags[j] with
    | none => rfl
    | some f => simp
  rw [regangs_eq]
  split
  · next hc =>
    have hempty : g.liveOrder = [] := by
      rw [Bool.or_eq_true, (allRegang_iff g).mpr h] at hc
      simpa using hc
    simp [hempty]
  · rw [fuseAll_frags (l := g.liveOrder) (order_nodup g _) _ [] g hstart (by simpa using nodup_eraseDups _)]
    unfold Group.fusedEntry
    cases hf : g.frags[i] with
    | none => rfl
    | some f =>
      have hiff : (i ∈ g.liveOrder ∧ f.status = .waiting .regang ∧
          f.pc ∈ [] ++ (g.liveOrder.filterMap (fun i => (g.frags[i]).map (fun f => f.pc))).eraseDups) ↔ i ∈ g.liveOrder := by
        refine ⟨And.left, fun hi => ⟨hi, ?_, ?_⟩⟩
        · obtain ⟨f', hf', hst⟩ := h i hi
          rw [hf] at hf'
          cases hf'
          exact hst
        · simp only [List.nil_append, List.mem_eraseDups, List.mem_filterMap]
          exact ⟨i, hi, by simp [hf]⟩
      simp only [hiff]
      rfl

/-- An entry that does not wait at `REGANG` is not touched. -/
theorem regangs_other {g : Group} {i : Fin 8} (hi : ∀ f, g.frags[i] = some f → f.status ≠ .waiting .regang) : g.regangs.frags[i] = g.frags[i] := by
  by_cases h : g.allRegang
  · have hn : i ∉ g.liveOrder := fun hm => by
      obtain ⟨f, hf, hst⟩ := h i hm
      exact hi f hf hst
    rw [regangs_frags h]
    simp [hn]
  · rw [regangs_none h]

end Sys2Proof.Machine
end

section

/-! SUPPORT. What a change of a group's fragments leads to (R30 to R35): releases from a wait, the team's barrier, and the settling of a group
in which some fragment is still live.
-/

namespace Sys2Proof.Machine

/-! ## Releases -/

theorem mapFrags_frags (g : Group) (f : Fin 8 → Frag → Frag) (i : Fin 8) : (g.mapFrags f).frags[i] = (g.frags[i]).map (f i) := by
  simp [Group.mapFrags]

/-- Of a release in turn an entry is either not meant, or ready. -/
theorem releaseNext_frag {g : Group} {i : Fin 8} {f : Frag} (hf : g.frags[i] = some f) :
    g.releaseNext.frags[i] = some f ∨ g.releaseNext.frags[i] = some { f with held := .no, status := .ready } := by
  unfold Group.releaseNext
  split
  · exact .inl hf
  · next j _ _ =>
    change (g.mapFrags _).frags[i] = _ ∨ (g.mapFrags _).frags[i] = _
    rw [mapFrags_frags, hf, Option.map_some]
    split
    · exact .inr rfl
    · exact .inl rfl

theorem releaseNext_ready {g : Group} {i : Fin 8} {f : Frag} (hf : g.frags[i] = some f) (hr : f.status = .ready) :
    ∃ y, g.releaseNext.frags[i] = some y ∧ y.status = .ready ∧ y.pc = f.pc := by
  rcases releaseNext_frag hf with e | e
  · exact ⟨_, e, hr, rfl⟩
  · exact ⟨_, e, rfl, rfl⟩

/-- A fragment that is not due is not released in its turn. -/
theorem releaseNext_notDue {g : Group} {i : Fin 8} {f : Frag} (hf : g.frags[i] = some f) (hd : f.held ≠ .due) : g.releaseNext.frags[i] = some f := by
  unfold Group.releaseNext
  split
  · exact hf
  · next j rest hj =>
    show (g.mapFrags _).frags[i] = _
    rw [mapFrags_frags, hf, Option.map_some, if_neg]
    rintro rfl
    obtain ⟨f', hf', hdue⟩ := bySlice_frag (hj ▸ List.mem_cons_self : i ∈ g.bySlice (fun f => f.held == .due))
    rw [hf] at hf'
    cases hf'
    exact hd (by simpa using hdue)

theorem releaseNext_kept {g : Group} {i : Fin 8} (h : ∀ f, g.frags[i] = some f → f.held ≠ .due) : g.releaseNext.frags[i] = g.frags[i] := by
  cases hf : g.frags[i] with
  | some f => exact releaseNext_notDue hf (h f hf)
  | none =>
    unfold Group.releaseNext
    split
    · exact hf
    · change (g.mapFrags _).frags[i] = _
      rw [mapFrags_frags, hf, Option.map_none]

/-- `release` is the change of those that wait, after which the next one that is due may go. -/
theorem release_cases (g : Group) (p : Wait → Bool) :
    let g1 := g.mapFrags (fun _ f => if f.waits p then f.goOn else f)
    g.release p = g1 ∨ g.release p = g1.releaseNext := by
  unfold Group.release
  dsimp only
  split
  · split
    · unfold Group.afterReissue
      split
      · exact .inr rfl
      · exact .inl rfl
    · exact .inl rfl
  · exact .inl rfl

/-- A fragment that waits as asked goes on past its instruction. -/
theorem release_waits {g : Group} {p : Wait → Bool} {i : Fin 8} {f : Frag} (hf : g.frags[i] = some f) (hw : f.waits p = true) :
    ∃ y, (g.release p).frags[i] = some y ∧ y.status = .ready ∧ y.pc = f.pc + 4#64 := by
  have h1 : (g.mapFrags (fun _ f => if f.waits p then f.goOn else f)).frags[i] = some f.goOn := by rw [mapFrags_frags, hf, Option.map_some, if_pos hw]
  rcases release_cases g p with e | e
  · rw [e]; exact ⟨_, h1, rfl, rfl⟩
  · rw [e]; exact releaseNext_ready h1 rfl

/-- An entry that has exited and is not due stays. -/
theorem release_exited {g : Group} {p : Wait → Bool} {i : Fin 8} {f : Frag} (hf : g.frags[i] = some f) (hx : f.status = .exited)
    (hd : f.held ≠ .due) : (g.release p).frags[i] = some f := by
  have hw : f.waits p = false := by simp [Frag.waits, hx]
  have h1 : (g.mapFrags (fun _ f => if f.waits p then f.goOn else f)).frags[i] = some f := by
    rw [mapFrags_frags, hf, Option.map_some, if_neg (by simp [hw])]
  rcases release_cases g p with e | e
  · rw [e]; exact h1
  · rw [e]; exact releaseNext_notDue h1 hd

/-! ## Where a group has changed -/

/-- Of a group nothing but its entries, its registers and the pending kills has changed. -/
def Group.BesidesRegs (g g' : Group) : Prop := { g' with frags := g.frags, v := g.v, killSet := g.killSet } = g

theorem Group.BesidesRegs.trans {a b c : Group} (x : a.BesidesRegs b) (y : b.BesidesRegs c) : a.BesidesRegs c := by
  unfold Group.BesidesRegs at *
  rw [← x, ← y]

theorem Group.BesidesFrags.regs {g g' : Group} (e : g.BesidesFrags g') : g.BesidesRegs g' := by
  unfold Group.BesidesRegs
  rw [← e]

theorem afterChange_rest (g : Group) : g.BesidesRegs g.afterChange :=
  ((show g.BesidesRegs _ from settleSingle_rest g).trans (regangs_rest _).regs).trans (settleSingle_rest _)

theorem Group.BesidesRegs.team {g g' : Group} (e : g.BesidesRegs g') : g'.team = g.team := by
  have h := congrArg Group.team e
  exact h
theorem Group.BesidesRegs.epoch {g g' : Group} (e : g.BesidesRegs g') : g'.epoch = g.epoch := by
  have h := congrArg Group.epoch e
  exact h

/-- An entry that waits at no `REGANG` keeps all but its written set. -/
theorem afterChange_other {g : Group} {i : Fin 8} {f : Frag} (hf : g.frags[i] = some f) (hw : f.status ≠ .waiting .regang) :
    ∃ w, g.afterChange.frags[i] = some { f with written := w } := by
  have hstep (g : Group) (f : Frag) (hf : g.frags[i] = some f) : ∃ w, g.settleSingle.frags[i] = some { f with written := w } := by
    rw [settleSingle_frags, hf, Option.map_some]
    split
    · exact ⟨_, rfl⟩
    · exact ⟨f.written, rfl⟩
  obtain ⟨w1, h1⟩ := hstep g f hf
  have h2 : g.settleSingle.regangs.frags[i] = some { f with written := w1 } := by
    rw [regangs_other, h1]
    intro f' hf'
    rw [h1] at hf'
    cases hf'
    exact hw
  obtain ⟨w2, h3⟩ := hstep _ _ h2
  exact ⟨w2, h3⟩

/-- A settled group in which a live fragment waits at no `REGANG` is not fused. -/
theorem afterChange_of_not_allRegang {g : Group} (h : ¬ g.allRegang) : g.afterChange = g.settleSingle.settleSingle := by
  unfold Group.afterChange
  rw [regangs_none]
  refine fun h' => h fun i hi => ?_
  have hlive : g.settleSingle.liveOrder = g.liveOrder := bySlice_congr fun i => by
    rw [settleSingle_frags, Option.map_map]
    congr 1
    funext f
    simp only [Function.comp]
    split
    · rfl
    · rfl
  obtain ⟨f', hf', hst⟩ := h' i (hlive ▸ hi)
  rw [settleSingle_frags] at hf'
  cases hf : g.frags[i] with
  | none => simp [hf] at hf'
  | some f =>
    rw [hf, Option.map_some] at hf'
    refine ⟨f, rfl, ?_⟩
    split at hf'
    · cases hf'; exact hst
    · cases hf'; exact hst

/-! ## The barrier -/

theorem arrived_iff (g : Group) : g.arrived = true ↔ ∀ i ∈ g.live, ∃ f, g.frags[i] = some f ∧ f.status = .waiting .bar := by
  unfold Group.arrived
  rw [List.all_eq_true]
  refine forall₂_congr fun i _ => ?_
  cases g.frags[i] with
  | none => simp
  | some f => simp

/-- A live fragment that does not wait at `BAR` keeps its group from arriving. -/
theorem not_arrived {g : Group} {i : Fin 8} {f : Frag} (hf : g.frags[i] = some f) (hx : f.status ≠ .exited) (hb : f.status ≠ .waiting .bar) :
    g.arrived = false := by
  refine Bool.eq_false_iff.mpr fun h => ?_
  obtain ⟨f', hf', hst⟩ := (arrived_iff g).mp h i (mem_live.mpr ⟨f, hf, hx⟩)
  rw [hf] at hf'
  cases hf'
  exact hb hst

theorem mem_groupsOf {k : Core} {u : Nat} {i : Fin 64} : i ∈ k.groupsOf u ↔ ∃ g, k.slots[i] = some g ∧ g.team = some u := by
  unfold Core.groupsOf
  rw [List.mem_filter]
  cases k.slots[i] with
  | none => simp
  | some g => simp

/-- What a group of the team becomes when its barrier is complete. -/
def Group.passBar (g : Group) : Group := { g.release (· == .bar) with epoch := g.epoch + 1 }

/-- A slot after the barrier of a team is complete. -/
def barSlot (u : Nat) (o : Option Group) : Option Group := match o with
  | some g => if g.team = some u && !g.live.isEmpty then some g.passBar else some g
  | none => none

/-- The groups of the team have all arrived. -/
def AllArrived (s : State) (c : Fin 256) (u : Nat) : Prop :=
  ∀ (i : Fin 64) (g : Group), s.group? c i = some g → g.team = some u → g.arrived = true

theorem barrier_eq (s : State) (c : Fin 256) (u : Nat) : (AllArrived s c u ∧
    barrier s c u = s.setCore c { s.core c with slots := Vector.ofFn (fun i : Fin 64 => barSlot u (s.core c).slots[i]) }) ∨
    (¬ AllArrived s c u ∧ barrier s c u = s) := by
  have hall : ((s.core c).groupsOf u).all (fun i => match (s.core c).slots[i] with
      | some g => g.arrived
      | none => true) = true ↔ AllArrived s c u := by
    rw [List.all_eq_true]
    refine ⟨fun h i g hg ht => ?_, fun h i hi => ?_⟩
    · have hg' : (s.core c).slots[i] = some g := hg
      simpa [hg'] using h i (mem_groupsOf.mpr ⟨g, hg, ht⟩)
    · obtain ⟨g, hg, ht⟩ := mem_groupsOf.mp hi
      simpa [hg] using h i g hg ht
  unfold barrier
  dsimp only
  split
  · next h =>
    rw [Bool.not_eq_true'] at h
    exact .inr ⟨fun a => Bool.false_ne_true (h.symm.trans (hall.mpr a)), rfl⟩
  · next h =>
    rw [Bool.not_eq_true', Bool.not_eq_false] at h
    exact .inl ⟨hall.mp h, rfl⟩

/-- A group of the team that has not arrived holds the barrier back. -/
theorem barrier_stays {s : State} {c : Fin 256} {u : Nat} {i : Fin 64} {g : Group} (hg : s.group? c i = some g) (ht : g.team = some u)
    (ha : g.arrived = false) : barrier s c u = s := by
  rcases barrier_eq s c u with ⟨h, -⟩ | ⟨-, e⟩
  · simp [h i g hg ht] at ha
  · exact e

/-- A slot of the core after the barrier: as it was, or past the `BAR`. -/
theorem barrier_group? (s : State) (c : Fin 256) (u : Nat) (i : Fin 64) :
    (AllArrived s c u ∧ (barrier s c u).group? c i = barSlot u (s.group? c i)) ∨ (barrier s c u).group? c i = s.group? c i := by
  rcases barrier_eq s c u with ⟨h, e⟩ | ⟨-, e⟩
  · refine .inl ⟨h, ?_⟩
    rw [e]
    unfold State.group?
    simp
  · exact .inr (by rw [e])

theorem barrier_passes {s : State} {c : Fin 256} {u : Nat} (h : AllArrived s c u) (i : Fin 64) :
    (barrier s c u).group? c i = barSlot u (s.group? c i) := by
  rcases barrier_eq s c u with ⟨-, e⟩ | ⟨hn, -⟩
  · rw [e]
    unfold State.group?
    simp
  · exact absurd h hn

/-! ## Settling a group with a live fragment -/

theorem evictNames_group? (s : State) (c d : Fin 256) (i : Fin 64) : (s.evictNames c).group? d i = s.group? d i := by
  unfold State.group? State.evictNames
  by_cases h : d = c
  · subst h; rw [core_setCore_same]; rfl
  · rw [core_setCore_ne _ _ _ _ h]

/-- The state before the barrier is looked at. -/
def changedAt (s : State) (c : Fin 256) (i : Fin 64) (g : Group) : State := (s.setGroup c i (some g.afterChange)).evictNames c

theorem changedAt_same (s : State) (c : Fin 256) (i : Fin 64) (g : Group) : (changedAt s c i g).group? c i = some g.afterChange :=
  (evictNames_group? _ _ _ _).trans (group?_setGroup_same _ _ _ _)

theorem changedAt_ne (s : State) (c : Fin 256) {i j : Fin 64} (g : Group) (h : j ≠ i) : (changedAt s c i g).group? c j = s.group? c j :=
  (evictNames_group? _ _ _ _).trans (group?_setGroup_ne _ _ _ _ _ _ (.inr h))

theorem settleGroup_live {s : State} {c : Fin 256} {i : Fin 64} {g : Group} (hg : s.group? c i = some g) (hl : g.live ≠ []) :
    settleGroup s c i = match g.team with
      | some u => barrier (changedAt s c i g) c u
      | none => changedAt s c i g := by
  unfold settleGroup
  simp only [hg]
  rw [if_neg (by simpa using hl)]
  rfl

/-- A settled group that has not arrived at a barrier is as its change leaves it, and so is every other group. -/
theorem settleGroup_stays {s : State} {c : Fin 256} {i : Fin 64} {g : Group} (hg : s.group? c i = some g) (hl : g.live ≠ [])
    (ha : g.afterChange.arrived = false) : settleGroup s c i = changedAt s c i g := by
  rw [settleGroup_live hg hl]
  split
  · next u ht => exact barrier_stays (changedAt_same s c i g) ((afterChange_rest g).team.trans ht) ha
  · rfl

end Sys2Proof.Machine
end

section

/-! SUPPORT. A fragment whose results have been settled, in its place: what of the package stands as before, and `BAR` (R297).
-/

namespace Sys2Proof.Machine

/-! ## A settled fragment -/

theorem Here.WrittenFrom.frags {h h1 : Here} (w : h.WrittenFrom h1) : h1.g.frags = h.g.frags := by
  have e := congrArg Group.frags w.group; exact e
theorem Here.WrittenFrom.team {h h1 : Here} (w : h.WrittenFrom h1) : h1.g.team = h.g.team := by
  have e := congrArg Group.team w.group; exact e
theorem Here.WrittenFrom.uid {h h1 : Here} (w : h.WrittenFrom h1) : h1.g.uid = h.g.uid := by
  have e := congrArg Group.uid w.group; exact e
theorem Here.WrittenFrom.epoch {h h1 : Here} (w : h.WrittenFrom h1) : h1.g.epoch = h.g.epoch := by
  have e := congrArg Group.epoch w.group; exact e
theorem Here.WrittenFrom.handler {h h1 : Here} (w : h.WrittenFrom h1) : h1.g.handler = h.g.handler := by
  have e := congrArg Group.handler w.group; exact e
theorem Here.WrittenFrom.pc {h h1 : Here} (w : h.WrittenFrom h1) : h1.f.pc = h.f.pc := by
  have e := congrArg Frag.pc w.frag; exact e
theorem Here.WrittenFrom.status {h h1 : Here} (w : h.WrittenFrom h1) : h1.f.status = h.f.status := by
  have e := congrArg Frag.status w.frag; exact e
theorem Here.WrittenFrom.slices {h h1 : Here} (w : h.WrittenFrom h1) : h1.f.slices = h.f.slices := by
  have e := congrArg Frag.slices w.frag; exact e
theorem Here.WrittenFrom.inHandler {h h1 : Here} (w : h.WrittenFrom h1) : h1.inHandler = h.inHandler := by
  simp only [Here.inHandler, w.handler, w.ref]

/-- The group of a settled fragment: its own entry, and the others as they were. -/
theorem Here.WrittenFrom.group_self {h h1 : Here} (w : h.WrittenFrom h1) (f : Frag) :
    ({ h1 with f := f } : Here).group.frags[h.r.frag] = some f := by
  have := group_frags_self { h1 with f := f }
  simpa [w.ref] using this

theorem Here.WrittenFrom.group_ne {h h1 : Here} (w : h.WrittenFrom h1) (f : Frag) {j : Fin 8} (hj : j ≠ h.r.frag) :
    ({ h1 with f := f } : Here).group.frags[j] = h.g.frags[j] := by
  rw [group_frags_ne { h1 with f := f } j (by rw [show ({ h1 with f := f } : Here).r = h.r from w.ref]; exact hj)]
  simp only [w.frags]

theorem put_group?_same {k : Here} {r : FragRef} (e : k.r = r) (t : State) : (t.put k).group? r.core r.slot = some k.group := by
  subst e; exact group?_setGroup_same _ _ _ _

theorem put_group?_ne {k : Here} {r : FragRef} (e : k.r = r) (t : State) (d : Fin 256) (j : Fin 64) (h : d ≠ r.core ∨ j ≠ r.slot) :
    (t.put k).group? d j = t.group? d j := by subst e; exact group?_setGroup_ne _ _ _ _ _ _ h

theorem SettledFrom.package {s : State} {h : Here} {a : State × Here} (w : SettledFrom s h a) :
    { a.1 with cores := s.cores, choices := s.choices } = s := by
  obtain ⟨o, n⟩ := w.near
  exact n.only.package

/-- Every other group stands where it did. -/
theorem SettledFrom.group? {s : State} {h : Here} {a : State × Here} (w : SettledFrom s h a) (d : Fin 256) (j : Fin 64)
    (hj : d ≠ h.r.core ∨ j ≠ h.r.slot) : a.1.group? d j = s.group? d j := by
  obtain ⟨o, n⟩ := w.near
  by_cases hd : d = h.r.core
  · subst hd
    exact n.only.slots j (hj.resolve_left (fun h => h rfl))
  · unfold State.group?
    rw [n.only.cores d hd]

theorem SettledFrom.engine {s : State} {h : Here} {a : State × Here} (w : SettledFrom s h a) :
    (a.1.core h.r.core).engine = (s.core h.r.core).engine := by
  obtain ⟨o, n⟩ := w.near
  have e := congrArg Core.engine n.only.core
  exact e

/-- What of the group's is outstanding is so after results have settled. -/
theorem GroupReleased.settled {s : State} {h : Here} {a : State × Here} (r : GroupReleased s h) (w : SettledFrom s h a) :
    GroupReleased a.1 a.2 := by
  have hp := w.package
  have hredgs : a.1.redgs = s.redgs := by have e := congrArg State.redgs hp; exact e
  have hwrites : a.1.writes = s.writes := by have e := congrArg State.writes hp; exact e
  have hcopies : a.1.copies = s.copies := by have e := congrArg State.copies hp; exact e
  constructor
  · rw [hredgs, w.here.uid]; exact r.redgs
  · rw [w.here.ref, w.engine, w.here.uid]; exact r.runs
  · rw [hwrites, w.here.uid]; exact r.writes
  · rw [hcopies, w.here.uid]; exact r.copies

/-! ## Arriving -/

/-- The fragment's group with the fragment in a wait. -/
def Here.groupAt (h : Here) (w : Wait) : Group := (h.wait w).group

/-- The state in which the fragment, its results settled, has arrived where it waits for others. -/
def arriveState (s : State) (h : Here) (w : Wait) : State := (settleAll s h).1.put ((h.settled s).wait w)

section
variable {s : State} {h : Here} {w : Wait}

theorem settled_spec (s : State) (h : Here) : h.WrittenFrom (h.settled s) := (settleAll_spec s h).1.here

theorem arriveState_same : (arriveState s h w).group? h.r.core h.r.slot = some ((h.settled s).groupAt w) := by
  have e : ((h.settled s).wait w).r = h.r := (settled_spec s h).ref
  exact put_group?_same e _

theorem arriveState_ne {j : Fin 64} (hj : j ≠ h.r.slot) : (arriveState s h w).group? h.r.core j = s.group? h.r.core j := by
  have e : ((h.settled s).wait w).r = h.r := (settled_spec s h).ref
  exact (put_group?_ne e _ _ _ (.inr hj)).trans ((settleAll_spec s h).1.group? _ _ (.inr hj))

theorem groupAt_self : ((h.settled s).groupAt w).frags[h.r.frag] = some { (h.settled s).f with status := .waiting w } :=
  (settled_spec s h).group_self _

theorem groupAt_ne {j : Fin 8} (hj : j ≠ h.r.frag) : ((h.settled s).groupAt w).frags[j] = h.g.frags[j] := (settled_spec s h).group_ne _ hj

theorem groupAt_team : ((h.settled s).groupAt w).team = h.g.team := (settled_spec s h).team

theorem groupAt_live : ((h.settled s).groupAt w).live ≠ [] := List.ne_nil_of_mem (mem_live.mpr ⟨_, groupAt_self, by nofun⟩)

end

/-! ## `BAR` -/

theorem exec_bar_released {s : State} {h : Here} (q : Issues s h .bar .control) (hh : h.inHandler = false) (hr : Released s h) :
    exec .bar s = .next (settleGroup (arriveState s h .bar) h.r.core h.r.slot) := by
  refine (onFragment_issues q _).trans ?_
  have hdone := releaseWork_done (sc := .core) (.inr rfl) (hr.group.settled (settleAll_spec s h).1)
  simp only [hh, Bool.false_eq_true, if_false, afterRelease, hdone, if_true]
  rfl

/-- An entry that is free stays free. -/
theorem afterChange_free {g : Group} {i : Fin 8} (hf : g.frags[i] = none) : g.afterChange.frags[i] = none := by
  have h1 : g.settleSingle.frags[i] = none := by rw [settleSingle_frags, hf, Option.map_none]
  have h2 : g.settleSingle.regangs.frags[i] = none := by
    rw [regangs_other (fun f hf => by simp [h1] at hf), h1]
  show g.settleSingle.regangs.settleSingle.frags[i] = none
  rw [settleSingle_frags, h2, Option.map_none]

/-- A group whose live fragments all wait at `BAR` still does so after its change. -/
theorem afterChange_arrived {g : Group} (h : ∀ (i : Fin 8) (f : Frag), g.frags[i] = some f → f.status = .exited ∨ f.status = .waiting .bar) :
    g.afterChange.arrived = true := by
  refine (arrived_iff _).mpr fun i hi => ?_
  obtain ⟨f', hf', hx⟩ := mem_live.mp hi
  refine ⟨f', hf', ?_⟩
  cases hf : g.frags[i] with
  | none => rw [afterChange_free hf] at hf'; cases hf'
  | some f =>
    have hst := h i f hf
    obtain ⟨w, hw⟩ := afterChange_other hf (by rcases hst with e | e <;> rw [e] <;> nofun)
    rw [hf'] at hw
    cases hw
    exact hst.resolve_left hx

/-- A fragment that waits at `BAR` goes on when its group passes it. -/
theorem passBar_frag {g : Group} {i : Fin 8} {f : Frag} (hf : g.frags[i] = some f) (hb : f.status = .waiting .bar) :
    ∃ y, g.passBar.frags[i] = some y ∧ y.status = .ready ∧ y.pc = f.pc + 4#64 :=
  release_waits hf (by simp [Frag.waits, hb])

theorem barSlot_live {g : Group} {u : Nat} (ht : g.team = some u) (hl : g.live ≠ []) : barSlot u (some g) = some g.passBar := by
  simp [barSlot, ht, hl]

section
variable {s : State} {h : Here} {u : Nat}

/-- Where another group has not arrived, the fragment waits at `BAR`. -/
theorem bar_waits (ht : h.g.team = some u) {j : Fin 64} {g : Group} (hj : j ≠ h.r.slot) (hg : s.group? h.r.core j = some g) (hgt : g.team = some u)
    (ha : g.arrived = false) : ∃ h', (settleGroup (arriveState s h .bar) h.r.core h.r.slot).at? h.r = some h' ∧ h'.f.status = .waiting .bar ∧
      h'.f.pc = h.f.pc ∧ h'.g.epoch = h.g.epoch := by
  rw [settleGroup_live arriveState_same groupAt_live, groupAt_team, ht]
  dsimp only
  rw [barrier_stays ((changedAt_ne _ _ _ hj).trans ((arriveState_ne hj).trans hg)) hgt ha]
  obtain ⟨w, hw⟩ := afterChange_other (groupAt_self (s := s) (h := h) (w := .bar)) (by nofun)
  refine ⟨⟨h.r, ((h.settled s).groupAt .bar).afterChange, { (h.settled s).f with status := .waiting .bar, written := w }⟩, ?_, rfl, ?_, ?_⟩
  · unfold State.at?
    simp only [changedAt_same, hw]
    rfl
  · exact (settled_spec s h).pc
  · exact (afterChange_rest _).epoch.trans (settled_spec s h).epoch

/-- Where all others of the team have arrived, every group has once the fragment has. -/
theorem bar_allArrived (hall : ∀ (j : Fin 64) (g : Group) (f : Fin 8) (x : Frag), s.group? h.r.core j = some g → g.team = some u →
      g.frags[f] = some x → (j ≠ h.r.slot ∨ f ≠ h.r.frag) → x.status = .exited ∨ x.status = .waiting .bar)
    (hg : s.group? h.r.core h.r.slot = some h.g) (ht : h.g.team = some u) :
    AllArrived (changedAt (arriveState s h .bar) h.r.core h.r.slot ((h.settled s).groupAt .bar)) h.r.core u := by
  intro j g hj hgt
  by_cases e : j = h.r.slot
  · subst e
    rw [changedAt_same] at hj
    cases hj
    refine afterChange_arrived fun i f hf => ?_
    by_cases hi : i = h.r.frag
    · subst hi
      rw [groupAt_self] at hf
      cases hf
      exact .inr rfl
    · rw [groupAt_ne hi] at hf
      exact hall _ _ i f hg ht hf (.inr hi)
  · rw [changedAt_ne _ _ _ e, arriveState_ne e] at hj
    refine (arrived_iff g).mpr fun i hi => ?_
    obtain ⟨f, hf, hx⟩ := mem_live.mp hi
    exact ⟨f, hf, (hall j g i f hj hgt hf (.inl e)).resolve_left hx⟩

/-- Then every fragment that waits at `BAR` goes on, and its group's epoch ends. -/
theorem bar_passes (hall : ∀ (j : Fin 64) (g : Group) (f : Fin 8) (x : Frag), s.group? h.r.core j = some g → g.team = some u →
      g.frags[f] = some x → (j ≠ h.r.slot ∨ f ≠ h.r.frag) → x.status = .exited ∨ x.status = .waiting .bar)
    (hg : s.group? h.r.core h.r.slot = some h.g) (hf : h.g.frags[h.r.frag] = some h.f) (ht : h.g.team = some u)
    {j : Fin 64} {g : Group} {i : Fin 8} {x : Frag} (hj : s.group? h.r.core j = some g) (hgt : g.team = some u) (hx : g.frags[i] = some x)
    (hlive : x.status ≠ .exited ∨ (j = h.r.slot ∧ i = h.r.frag)) :
    ∃ g' y, (settleGroup (arriveState s h .bar) h.r.core h.r.slot).group? h.r.core j = some g' ∧ g'.epoch = g.epoch + 1 ∧ g'.frags[i] = some y ∧
      y.status = .ready ∧ y.pc = x.pc + 4#64 := by
  rw [settleGroup_live arriveState_same groupAt_live, groupAt_team, ht]
  dsimp only
  rw [barrier_passes (bar_allArrived hall hg ht)]
  by_cases e : j = h.r.slot
  · subst e
    rw [hg] at hj
    cases hj
    -- the entry, waiting at `BAR` in the fragment's own group
    have hentry : ∃ f, ((h.settled s).groupAt .bar).frags[i] = some f ∧ f.status = .waiting .bar ∧ f.pc = x.pc := by
      by_cases hi : i = h.r.frag
      · subst hi
        rw [hf] at hx
        cases hx
        exact ⟨_, groupAt_self, rfl, (settled_spec s h).pc⟩
      · exact ⟨x, (groupAt_ne hi).trans hx, (hall _ _ i x hg ht hx (.inr hi)).resolve_left (hlive.resolve_right fun c => hi c.2), rfl⟩
    obtain ⟨f, hfi, hst, hpc⟩ := hentry
    obtain ⟨w, hw⟩ := afterChange_other hfi (by rw [hst]; nofun)
    have hl : ((h.settled s).groupAt .bar).afterChange.live ≠ [] := List.ne_nil_of_mem (mem_live.mpr ⟨_, hw, by simp [hst]⟩)
    rw [changedAt_same, barSlot_live ((afterChange_rest _).team.trans ((groupAt_team.trans ht))) hl]
    obtain ⟨y, hy, hready, hypc⟩ := passBar_frag hw hst
    exact ⟨_, y, rfl, congrArg (· + 1) ((afterChange_rest _).epoch.trans (settled_spec s h).epoch), hy, hready, hypc.trans (congrArg (· + 4#64) hpc)⟩
  · have hxl : x.status ≠ .exited := hlive.resolve_right fun c => e c.1
    have hst := (hall j g i x hj hgt hx (.inl e)).resolve_left hxl
    rw [changedAt_ne _ _ _ e, arriveState_ne e, hj, barSlot_live hgt (List.ne_nil_of_mem (mem_live.mpr ⟨x, hx, hxl⟩))]
    obtain ⟨y, hy, hready, hypc⟩ := passBar_frag hx hst
    exact ⟨_, y, rfl, rfl, hy, hready, hypc⟩

end

/-- Settles O46: the release before the arrival has nothing left to do, so the fragment arrives; the team's barrier then completes exactly
where every other live fragment of the team waits at `BAR` too. -/
theorem teamBarrier : Obligations.TeamBarrier := by
  unfold Obligations.TeamBarrier
  intro s h u q ht
  obtain ⟨-, hg, hf, -⟩ := here?_spec q.here
  refine ⟨fun hh => ?_, fun hh hr => ⟨?_, fun hall => ?_⟩⟩
  · refine (onFragment_issues q _).trans ?_
    simp only [hh, if_true]
    rfl
  · rintro ⟨j, g, i, x, hj, hgj, hgt, hx, hlive, hnot⟩
    obtain ⟨h', hat, hst, hpc, hep⟩ := bar_waits ht hj hgj hgt (not_arrived hx hlive hnot)
    exact ⟨_, h', exec_bar_released q hh hr, hat, hst, hpc, hep⟩
  · refine ⟨_, exec_bar_released q hh hr, fun j g i x hj hgt hx hlive => ?_⟩
    exact bar_passes hall hg hf ht hj hgt hx hlive

end Sys2Proof.Machine
end

section

/-! SUPPORT. A group whose entries are apart and whose live fragments all wait at `REGANG` (R30, R31): those at each address are one
fragment afterwards, and each fragment that is live then is one of these.
-/

namespace Sys2Proof.Machine

/-- The fragments of a group at an address, lowest slice first. -/
def Group.thereAt (g : Group) (p : DWord) : List Frag :=
  (g.bySlice (fun f => f.status != .exited && f.pc == p)).filterMap (fun i => g.frags[i])

section
variable {g : Group} (a : g.Apart)
include a

theorem mem_liveOrder {i : Fin 8} : i ∈ g.liveOrder ↔ i ∈ g.live := by
  unfold Group.liveOrder
  rw [a.mem_bySlice, mem_live]
  simp

theorem allRegang_of_live (h : ∀ i ∈ g.live, ∃ f, g.frags[i] = some f ∧ f.status = .waiting .regang) : g.allRegang :=
  fun i hi => h i ((mem_liveOrder a).mp hi)

theorem not_allRegang {i : Fin 8} {f : Frag} (hf : g.frags[i] = some f) (hx : f.status ≠ .exited) (hw : f.status ≠ .waiting .regang) :
    ¬ g.allRegang := fun h => by
  obtain ⟨f', hf', hst⟩ := h i ((mem_liveOrder a).mpr (mem_live.mpr ⟨f, hf, hx⟩))
  rw [hf] at hf'
  cases hf'
  exact hw hst

variable (hr : g.allRegang)
include hr

/-- Of a group whose live fragments all wait, those at an address are those that stand there. -/
theorem thereAt_eq (p : DWord) : g.thereAt p = (g.liveOrder.filter (g.standsAt p)).filterMap (fun i => g.frags[i]) := by
  unfold Group.thereAt
  congr 1
  unfold Group.liveOrder
  rw [a.bySlice_eq, a.bySlice_eq, List.filter_filter]
  refine List.filter_congr fun i _ => ?_
  unfold Group.standsAt
  cases hf : g.frags[i] with
  | none => rfl
  | some f =>
    by_cases hx : f.status = .exited
    · simp [hx]
    · obtain ⟨f', hf', hst⟩ := hr i ((mem_liveOrder a).mpr (mem_live.mpr ⟨f, hf, hx⟩))
      rw [hf] at hf'
      cases hf'
      simp [hst, Bool.and_comm]

/-- Where some stand at an address, the first of them holds what they fuse to. -/
theorem regangs_at {p : DWord} (hp : g.thereAt p ≠ []) : ∃ (j : Fin 8) (f : Frag), (g.liveOrder.filter (g.standsAt p)).head? = some j ∧ f.pc = p ∧
    g.regangs.frags[j] = some (fusion (g.thereAt p) f) := by
  rw [thereAt_eq a hr] at hp ⊢
  cases hl : g.liveOrder.filter (g.standsAt p) with
  | nil => simp [hl] at hp
  | cons j rest =>
    obtain ⟨hj, hst⟩ := List.mem_filter.mp (hl ▸ List.mem_cons_self : j ∈ g.liveOrder.filter (g.standsAt p))
    obtain ⟨f, hf, -, hpc⟩ := standsAt_iff.mp hst
    refine ⟨j, f, rfl, hpc, ?_⟩
    rw [regangs_frags hr, hf, Option.bind_some]
    subst hpc
    simp only [hl, if_pos hj, List.head?_cons, if_true]

/-- A fragment that is live afterwards is the fused one of an address at which some stood, and stands first among them. -/
theorem regangs_live {j : Fin 8} (hj : j ∈ g.regangs.live) : ∃ (p : DWord) (f : Frag), g.thereAt p ≠ [] ∧ f.pc = p ∧
    (g.liveOrder.filter (g.standsAt p)).head? = some j ∧ g.regangs.frags[j] = some (fusion (g.thereAt p) f) := by
  obtain ⟨f', hf', hx⟩ := mem_live.mp hj
  have he := regangs_frags hr j
  rw [hf'] at he
  cases hf : g.frags[j] with
  | none => simp [hf] at he
  | some f =>
    rw [hf, Option.bind_some] at he
    by_cases hl : j ∈ g.liveOrder
    · simp only [if_pos hl] at he
      by_cases hh : (g.liveOrder.filter (g.standsAt f.pc)).head? = some j
      · rw [if_pos hh] at he
        have hmem : j ∈ g.liveOrder.filter (g.standsAt f.pc) := List.mem_of_head? hh
        refine ⟨f.pc, f, ?_, rfl, hh, ?_⟩
        · rw [thereAt_eq a hr]
          exact List.ne_nil_of_mem (List.mem_filterMap.mpr ⟨j, hmem, hf⟩)
        · rw [hf', he, thereAt_eq a hr]
      · rw [if_neg hh] at he
        cases he
    · simp only [if_neg hl, Option.some.injEq] at he
      subst he
      exact absurd ((mem_liveOrder a).mpr (mem_live.mpr ⟨_, hf, hx⟩)) hl

/-- Where a fragment stands, some fused one is live afterwards. -/
theorem thereAt_ne_nil {i : Fin 8} {f : Frag} (hf : g.frags[i] = some f) (hx : f.status ≠ .exited) : g.thereAt f.pc ≠ [] := by
  have hi := (mem_liveOrder a).mpr (mem_live.mpr ⟨f, hf, hx⟩)
  obtain ⟨f', hf', hst⟩ := hr i hi
  rw [hf] at hf'
  cases hf'
  rw [thereAt_eq a hr]
  exact List.ne_nil_of_mem (List.mem_filterMap.mpr ⟨i, List.mem_filter.mpr ⟨hi, standsAt_iff.mpr ⟨f, hf, hst, rfl⟩⟩, hf⟩)

/-- Where all stand at one address, one fragment is left. -/
theorem regangs_one {p : DWord} (hone : ∀ i ∈ g.live, ∃ f, g.frags[i] = some f ∧ f.pc = p) (hne : g.live ≠ []) : ∃ j, g.regangs.live = [j] := by
  obtain ⟨i, hi⟩ := List.exists_mem_of_ne_nil _ hne
  obtain ⟨f, hf, hx⟩ := mem_live.mp hi
  have hp : ∀ (q : DWord), g.thereAt q ≠ [] → q = p := by
    intro q hq
    rw [thereAt_eq a hr] at hq
    obtain ⟨f', hf'⟩ := List.exists_mem_of_ne_nil _ hq
    obtain ⟨k, hk, hkf⟩ := List.mem_filterMap.mp hf'
    obtain ⟨hkl, hks⟩ := List.mem_filter.mp hk
    obtain ⟨x, hx, -, hpc⟩ := standsAt_iff.mp hks
    obtain ⟨y, hy, hyp⟩ := hone k ((mem_liveOrder a).mp hkl)
    rw [hx] at hy
    cases hy
    exact hpc.symm.trans hyp
  obtain ⟨j, fj, hj, -, hfused⟩ := regangs_at a hr (thereAt_ne_nil a hr hf hx)
  have hjl : j ∈ g.regangs.live := mem_live.mpr ⟨_, hfused, by nofun⟩
  have hall : ∀ k ∈ g.regangs.live, k = j := by
    intro k hk
    obtain ⟨q, -, hq, -, hhead, -⟩ := regangs_live a hr hk
    rw [hp q hq, ← hp _ (thereAt_ne_nil a hr hf hx), hj] at hhead
    exact (Option.some.inj hhead).symm
  have hnd : g.regangs.live.Nodup := (List.nodup_finRange 8).filter _
  exact ⟨j, (List.eq_replicate_of_mem hall).trans (by
    have : g.regangs.live.length = 1 := by
      have hle : g.regangs.live.length ≤ 1 := by
        rw [List.eq_replicate_of_mem hall] at hnd
        exact List.nodup_replicate.mp hnd
      have := List.length_pos_of_mem hjl
      omega
    rw [this]; rfl)⟩

/-- Where some stand at different addresses, more than one is left. -/
theorem regangs_more {i k : Fin 8} {f f' : Frag} (hi : g.frags[i] = some f) (hix : f.status ≠ .exited) (hk : g.frags[k] = some f')
    (hkx : f'.status ≠ .exited) (hpc : f.pc ≠ f'.pc) : g.regangs.live.length ≠ 1 := by
  intro h
  obtain ⟨j, hj⟩ := List.length_eq_one_iff.mp h
  obtain ⟨j1, f1, hh1, -, hf1⟩ := regangs_at a hr (thereAt_ne_nil a hr hi hix)
  obtain ⟨j2, f2, hh2, -, hf2⟩ := regangs_at a hr (thereAt_ne_nil a hr hk hkx)
  have h1 : j1 ∈ g.regangs.live := mem_live.mpr ⟨_, hf1, by nofun⟩
  have h2 : j2 ∈ g.regangs.live := mem_live.mpr ⟨_, hf2, by nofun⟩
  rw [hj, List.mem_singleton] at h1 h2
  subst h1 h2
  obtain ⟨x1, hx1, -, hp1⟩ := standsAt_iff.mp (List.mem_filter.mp (List.mem_of_head? hh1)).2
  obtain ⟨x2, hx2, -, hp2⟩ := standsAt_iff.mp (List.mem_filter.mp (List.mem_of_head? hh2)).2
  rw [hx1] at hx2
  cases hx2
  exact hpc (hp1.symm.trans hp2)

end

end Sys2Proof.Machine
end

section

/-! SUPPORT. `REGANG` (R30 to R32): what is left of a group whose fragments have fused, and the three ways in which `REGANG` goes.
-/

namespace Sys2Proof.Machine

/-! ## Groups that differ in a fragment's status alone -/

/-- What a fragment is to a fusion: live or not, where it stands, and what it brings. -/
def Frag.stand (f : Frag) : Bool × DWord × (BitVec 8 × Written × View) := (f.status != .exited, f.pc, f.share)

/-- Entry by entry two groups have the same to fuse. -/
def Group.SameStand (g g' : Group) : Prop := ∀ i : Fin 8, (g'.frags[i]).map Frag.stand = (g.frags[i]).map Frag.stand

theorem Group.SameStand.get {g g' : Group} (e : g.SameStand g') {i : Fin 8} {f' : Frag} (h : g'.frags[i] = some f') :
    ∃ f, g.frags[i] = some f ∧ f'.stand = f.stand := by
  have he := e i
  rw [h, Option.map_some] at he
  cases hf : g.frags[i] with
  | none => simp [hf] at he
  | some f =>
    rw [hf, Option.map_some] at he
    exact ⟨f, rfl, Option.some.inj he⟩

theorem Group.SameStand.apart {g g' : Group} (e : g.SameStand g') (a : g.Apart) : g'.Apart := by
  have hs {f f' : Frag} (h : f'.stand = f.stand) : f'.slices = f.slices := congrArg (·.2.2.1) h
  constructor
  · intro i f' h
    obtain ⟨f, hf, hst⟩ := e.get h
    rw [hs hst]
    exact a.nonempty i f hf
  · intro i j f' k' hij h h'
    obtain ⟨f, hf, hst⟩ := e.get h
    obtain ⟨k, hk, hst'⟩ := e.get h'
    rw [hs hst, hs hst']
    exact a.disjoint i j f k hij hf hk

theorem Group.SameStand.live {g g' : Group} (e : g.SameStand g') : g'.live = g.live := by
  unfold Group.live
  refine List.filter_congr fun i _ => ?_
  have he := congrArg (Option.map Prod.fst) (e i)
  cases h1 : g.frags[i] <;> cases h2 : g'.frags[i] <;> simp_all [Frag.stand]

theorem Group.SameStand.thereAt {g g' : Group} (e : g.SameStand g') (p : DWord) : (g'.thereAt p).map Frag.share = (g.thereAt p).map Frag.share := by
  have hidx : g'.bySlice (fun f => f.status != .exited && f.pc == p) = g.bySlice (fun f => f.status != .exited && f.pc == p) :=
    bySlice_congr fun i => by
      have he := congrArg (Option.map (fun x : Bool × DWord × (BitVec 8 × Written × View) => (x.1 && x.2.1 == p, x.2.2.1))) (e i)
      rw [Option.map_map, Option.map_map] at he
      exact he
  unfold Group.thereAt
  rw [hidx, List.map_filterMap, List.map_filterMap]
  refine List.filterMap_congr fun i _ => ?_
  have he := congrArg (Option.map (fun x : Bool × DWord × (BitVec 8 × Written × View) => x.2.2)) (e i)
  rw [Option.map_map, Option.map_map] at he
  exact he

theorem any_share {fs fs' : List Frag} (e : fs'.map Frag.share = fs.map Frag.share) (q : BitVec 8 × Written × View → Bool) :
    fs'.any (fun f => q f.share) = fs.any (fun f => q f.share) := by
  have h (l : List Frag) : l.any (fun f => q f.share) = (l.map Frag.share).any q := by rw [List.any_map]; rfl
  rw [h, h, e]

theorem share_ne_nil {fs fs' : List Frag} (e : fs'.map Frag.share = fs.map Frag.share) : fs' ≠ [] ↔ fs ≠ [] := by
  have he : fs' = [] ↔ fs = [] := by rw [← List.map_eq_nil_iff (f := Frag.share), e, List.map_eq_nil_iff]
  exact not_congr he

/-! ## A group that has fused -/

/-- Each address at which fragments stood has one fragment, of which `q` says what it is, and each live fragment is one of these. -/
structure FusedGroup (there : DWord → List Frag) (q : List Frag → Fin 8 → Frag → Prop) (g' : Group) : Prop where
  fused : ∀ p, there p ≠ [] → ∃ (j : Fin 8) (f : Frag), g'.frags[j] = some f ∧ f.pc = p + 4#64 ∧ f.status = .ready ∧ f.pending = [] ∧
    (∀ k, f.slices.getLsbD k = (there p).any (fun x => x.slices.getLsbD k)) ∧ FusedView (there p) f.view ∧ q (there p) j f
  live : ∀ j ∈ g'.live, ∃ f p, g'.frags[j] = some f ∧ f.pc = p + 4#64 ∧ there p ≠ []

/-- The fused fragment has written what those that fused have, or nothing where it is alone (R31, R32). -/
def WroteTogether (g' : Group) (fs : List Frag) (j : Fin 8) (f : Frag) : Prop :=
  (g'.live ≠ [j] → ∀ k, f.written.s.getLsbD k = fs.any (fun x => x.written.s.getLsbD k)) ∧ (g'.live = [j] → f.written = Written.empty)

theorem regangs_fused {g : Group} (a : g.Apart) (hr : g.allRegang) :
    FusedGroup g.thereAt (WroteTogether g.regangs.settleSingle) g.regangs.settleSingle where
  fused := fun p hp => by
    obtain ⟨j, f, -, hpc, hf⟩ := regangs_at a hr hp
    subst hpc
    have hx := settleSingle_frags g.regangs j
    rw [hf, Option.map_some] at hx
    unfold WroteTogether
    rw [settleSingle_live]
    refine ⟨j, _, hx, ?_⟩
    split
    · next h =>
      exact ⟨rfl, rfl, rfl, fusion_slices _ f, fusedView_fuseView hp _, fun hn => absurd h hn, fun _ => rfl⟩
    · next h =>
      exact ⟨rfl, rfl, rfl, fusion_slices _ f, fusedView_fuseView hp _, fun _ => fusion_written_s _ f, fun hy => absurd hy h⟩
  live := fun j hj => by
    rw [settleSingle_live] at hj
    obtain ⟨p, f, hp, hpc, -, hf⟩ := regangs_live a hr hj
    subst hpc
    have hx := settleSingle_frags g.regangs j
    rw [hf, Option.map_some] at hx
    refine ⟨_, f.pc, hx, ?_, hp⟩
    split
    · rfl
    · rfl

/-- A fused group has a live fragment that waits at no `BAR`. -/
theorem regangs_not_arrived {g : Group} (a : g.Apart) (hr : g.allRegang) (hl : g.live ≠ []) : g.regangs.settleSingle.arrived = false := by
  obtain ⟨i, hi⟩ := List.exists_mem_of_ne_nil _ hl
  obtain ⟨f, hf, hx⟩ := mem_live.mp hi
  obtain ⟨j, x, hj, -, hready, -⟩ := (regangs_fused a hr).fused f.pc (thereAt_ne_nil a hr hf hx)
  exact not_arrived hj (by rw [hready]; nofun) (by rw [hready]; nofun)

theorem FusedGroup.share {there there' : DWord → List Frag} {q q' : List Frag → Fin 8 → Frag → Prop} {g' : Group} (w : FusedGroup there' q g')
    (e : ∀ p, (there p).map Frag.share = (there' p).map Frag.share) (hq : ∀ p j f, q (there' p) j f → q' (there p) j f) :
    FusedGroup there q' g' where
  fused := fun p hp => by
    obtain ⟨j, f, hf, hpc, hst, hpend, hsl, hview, hw⟩ := w.fused p ((share_ne_nil (e p)).mp hp)
    exact ⟨j, f, hf, hpc, hst, hpend, fun k => (hsl k).trans (any_share (e p) (fun x => x.1.getLsbD k)).symm, hview.share (e p), hq p j f hw⟩
  live := fun j hj => by
    obtain ⟨f, p, hf, hpc, hp⟩ := w.live j hj
    exact ⟨f, p, hf, hpc, (share_ne_nil (e p)).mpr hp⟩

/-! ## The cases of `REGANG` -/

section
variable {s : State} {h : Here}

/-- A fragment that waits is to a fusion what it was. -/
theorem groupAt_sameStand (hx : h.f.status ≠ .exited) (w : Wait) : (h.settled s).group.SameStand ((h.settled s).groupAt w) := by
  intro i
  by_cases e : i = h.r.frag
  · subst e
    have h1 : (h.settled s).group.frags[h.r.frag] = some (h.settled s).f := (settled_spec s h).group_self _
    rw [groupAt_self, h1]
    have hlive : (h.settled s).f.status ≠ .exited := by rw [(settled_spec s h).status]; exact hx
    simp only [Option.map_some, Frag.stand, Frag.share, bne_iff_ne.mpr hlive]
    rfl
  · have h1 : (h.settled s).group.frags[i] = h.g.frags[i] := (settled_spec s h).group_ne _ e
    rw [groupAt_ne e, h1]

/-- The settled fragment's group has the entries it had, the fragment's own as it is settled. -/
theorem settled_group_live (hf : h.g.frags[h.r.frag] = some h.f) : (h.settled s).group.live = h.g.live := by
  refine live_congr fun i => ?_
  by_cases e : i = h.r.frag
  · subst e
    rw [(settled_spec s h).group_self (h.settled s).f, hf, Option.map_some, Option.map_some, (settled_spec s h).status]
  · rw [(settled_spec s h).group_ne (h.settled s).f e]

/-- Where entries are apart they are so in the settled fragment's group. -/
theorem settled_apart (hf : h.g.frags[h.r.frag] = some h.f) (a : h.g.Apart) : (h.settled s).group.Apart := by
  have hget (i : Fin 8) (f : Frag) (hi : (h.settled s).group.frags[i] = some f) : ∃ f', h.g.frags[i] = some f' ∧ f'.slices = f.slices := by
    by_cases e : i = h.r.frag
    · subst e
      rw [(settled_spec s h).group_self (h.settled s).f] at hi
      cases hi
      exact ⟨h.f, hf, (settled_spec s h).slices.symm⟩
    · rw [(settled_spec s h).group_ne (h.settled s).f e] at hi
      exact ⟨f, hi, rfl⟩
  constructor
  · intro i f hi
    obtain ⟨f', hf', e⟩ := hget i f hi
    rw [← e]
    exact a.nonempty i f' hf'
  · intro i j f k hij hi hj
    obtain ⟨f', hf', e⟩ := hget i f hi
    obtain ⟨k', hk', e'⟩ := hget j k hj
    rw [← e, ← e']
    exact a.disjoint i j f' k' hij hf' hk'

theorem settled_single : (h.settled s).g.single = h.g.single := by
  unfold Group.single Group.live
  rw [(settled_spec s h).frags]

theorem exec_regang_waits (q : Issues s h .regang .control) (hh : h.inHandler = false) (hs : h.g.single = false) :
    exec .regang s = .next (settleGroup (arriveState s h .regang) h.r.core h.r.slot) := by
  refine (onFragment_issues q _).trans ?_
  have h1 : (settleAll s h).2.inHandler = false := (settled_spec s h).inHandler.trans hh
  have h2 : (settleAll s h).2.g.single = false := settled_single.trans hs
  have h3 : (settleAll s h).2.r = h.r := (settled_spec s h).ref
  simp only [h1, h2, h3, Bool.or_false, Bool.false_eq_true, if_false]
  rfl

/-- `REGANG` alone, or in a handler. -/
theorem regang_settles (q : Issues s h .regang .control) (hc : h.inHandler = true ∨ h.g.single = true) :
    ∃ t h', exec .regang s = .next t ∧ SettledOn s t (h.settled s) h' (h.f.pc + 4#64) (h.settled s).f.view := by
  have hcond : ((settleAll s h).2.inHandler || (settleAll s h).2.g.single) = true := by
    rw [show (settleAll s h).2.inHandler = h.inHandler from (settled_spec s h).inHandler, show (settleAll s h).2.g.single = h.g.single from settled_single]
    rcases hc with hc | hc
    · rw [hc]; rfl
    · rw [hc]; exact Bool.or_true _
  let h1 := ((h.settled s).advance Instr.regang.bytes)
  have hexec : exec .regang s = .next ((settleAll s h).1.put h1) := by
    refine (onFragment_issues q _).trans ?_
    simp only [hcond, if_true]
    rfl
  have hr : h1.r = h.r := (settled_spec s h).ref
  obtain ⟨o, near⟩ := (settleAll_spec s h).1.near
  have hput := near.put_at (h := h1) hr
  rw [Vector.set_set] at hput
  refine ⟨_, ⟨h.r, h1.group, h1.f⟩, hexec, ?_, ?_, ?_, rfl, rfl, ?_⟩
  · rw [(settled_spec s h).ref]
    unfold State.at?
    rw [put_group?_same hr]
    have := group_frags_self h1
    simp only [hr] at this
    simp only [this]
    rfl
  · rw [(settled_spec s h).ref]
    exact hput.only
  · exact congrArg (· + 4#64) (settled_spec s h).pc
  · have hp : (h.settled s).f.pending = [] := (settleAll_spec s h).2
    show (h.settled s).f.pending.map _ = []
    rw [hp, List.map_nil]

variable (hh : h.inHandler = false) (hf : h.g.frags[h.r.frag] = some h.f) (hx : h.f.status ≠ .exited)
include hf hx

/-- A group with another live fragment is split. -/
theorem not_single {j : Fin 8} {f : Frag} (hj : j ≠ h.r.frag) (hfj : h.g.frags[j] = some f) (hfx : f.status ≠ .exited) : h.g.single = false := by
  have h1 : h.r.frag ∈ h.g.live := mem_live.mpr ⟨_, hf, hx⟩
  have h2 : j ∈ h.g.live := mem_live.mpr ⟨_, hfj, hfx⟩
  unfold Group.single
  rw [decide_eq_false_iff_not]
  intro hle
  obtain ⟨k, hk⟩ := List.length_eq_one_iff.mp (by have := List.length_pos_of_mem h1; omega : h.g.live.length = 1)
  rw [hk, List.mem_singleton] at h1 h2
  exact hj (h2.trans h1.symm)

theorem groupAt_live_eq (w : Wait) : ((h.settled s).groupAt w).live = h.g.live := (groupAt_sameStand hx w).live.trans (settled_group_live hf)

/-- Of a split group nothing changes while some fragment waits at no `REGANG`. -/
theorem afterChange_split (hs : h.g.single = false) (w : Wait) (hn : ¬ ((h.settled s).groupAt w).allRegang) :
    ((h.settled s).groupAt w).afterChange = (h.settled s).groupAt w := by
  have hlen : ((h.settled s).groupAt w).live.length ≠ 1 := by
    rw [groupAt_live_eq hf hx]
    simp only [Group.single, decide_eq_false_iff_not] at hs
    omega
  rw [afterChange_of_not_allRegang hn, settleSingle_of_ne_one hlen, settleSingle_of_ne_one hlen]

/-- `REGANG` while another fragment waits at none: the fragment waits. -/
theorem regang_waits {j : Fin 8} {f : Frag} (hj : j ≠ h.r.frag) (hfj : h.g.frags[j] = some f) (hfx : f.status ≠ .exited)
    (hfw : f.status ≠ .waiting .regang) (h0 : f.slices ≠ 0#8)
    (hd : ∀ (i : Fin 8) (g : Frag), i ≠ j → h.g.frags[i] = some g → f.slices &&& g.slices = 0#8) :
    ∃ h', (settleGroup (arriveState s h .regang) h.r.core h.r.slot).at? h.r = some h' ∧ h'.f.status = .waiting .regang ∧ h'.f.pc = h.f.pc ∧
      ∀ i : Fin 8, i ≠ h.r.frag → h'.g.frags[i] = h.g.frags[i] := by
  have hnot : ¬ ((h.settled s).groupAt .regang).allRegang := fun hall => by
    have hjf : ((h.settled s).groupAt .regang).frags[j] = some f := (groupAt_ne hj).trans hfj
    have hmem : j ∈ ((h.settled s).groupAt .regang).liveOrder := mem_bySlice hjf (by simpa using hfx) h0 fun i f' hi e => by
      by_contra hij
      have hne : f.slices &&& f'.slices = 0#8 := by
        by_cases hir : i = h.r.frag
        · subst hir
          rw [groupAt_self] at hi
          cases hi
          rw [show ({ (h.settled s).f with status := .waiting .regang } : Frag).slices = h.f.slices from (settled_spec s h).slices]
          exact hd _ _ hij hf
        · rw [groupAt_ne hir] at hi
          exact hd _ _ hij hi
      exact lowestSlice_ne h0 hne e
    obtain ⟨f', hf', hst⟩ := hall j hmem
    rw [hjf] at hf'
    cases hf'
    exact hfw hst
  have hsame := afterChange_split hf hx (not_single hf hx hj hfj hfx) .regang hnot
  rw [settleGroup_stays arriveState_same groupAt_live (by rw [hsame]; exact not_arrived groupAt_self nofun nofun)]
  refine ⟨⟨h.r, (h.settled s).groupAt .regang, { (h.settled s).f with status := .waiting .regang }⟩, ?_, rfl, (settled_spec s h).pc,
    fun i hi => groupAt_ne hi⟩
  unfold State.at?
  simp only [changedAt_same, hsame, groupAt_self]
  rfl

/-- `REGANG` where all others wait at one: those at each address fuse. -/
theorem regang_fuses (hs : h.g.single = false) (hall : ∀ j ∈ h.g.live, j ≠ h.r.frag → ∃ f, h.g.frags[j] = some f ∧ f.status = .waiting .regang)
    (a : h.g.Apart) :
    let g1 := (h.settled s).group
    let g' := ((h.settled s).groupAt .regang).regangs.settleSingle
    (settleGroup (arriveState s h .regang) h.r.core h.r.slot).group? h.r.core h.r.slot = some g' ∧
    FusedGroup g1.thereAt (WroteTogether g') g' ∧
    ((∀ j ∈ g1.live, ∃ f, g1.frags[j] = some f ∧ f.pc = h.f.pc) → g'.live.length = 1 ∧ g'.killSet = 0#64 ∧
      ∀ n : Reg, regGet g'.v n = if (h.settled s).g.killSet.getLsbD n.toNat then none else regGet (h.settled s).g.v n) ∧
    ((∃ j ∈ g1.live, ∃ f, g1.frags[j] = some f ∧ f.pc ≠ h.f.pc) → g'.killSet = (h.settled s).g.killSet ∧ g'.v = (h.settled s).g.v) := by
  intro g1 g'
  have hstand := groupAt_sameStand (s := s) hx .regang
  have ha := hstand.apart (settled_apart hf a)
  have hr : ((h.settled s).groupAt .regang).allRegang := allRegang_of_live ha fun i hi => by
    by_cases e : i = h.r.frag
    · subst e; exact ⟨_, groupAt_self, rfl⟩
    · rw [groupAt_live_eq hf hx] at hi
      rw [groupAt_ne e]
      exact hall i hi e
  have hlen : ((h.settled s).groupAt .regang).live.length ≠ 1 := by
    rw [groupAt_live_eq hf hx]
    simp only [Group.single, decide_eq_false_iff_not] at hs
    omega
  have hg' : ((h.settled s).groupAt .regang).afterChange = g' := by
    unfold Group.afterChange
    rw [settleSingle_of_ne_one hlen]
  have hrest := regangs_rest ((h.settled s).groupAt .regang)
  have hkill : ((h.settled s).groupAt .regang).regangs.killSet = (h.settled s).g.killSet := by
    have e := congrArg Group.killSet hrest; exact e
  have hv : ((h.settled s).groupAt .regang).regangs.v = (h.settled s).g.v := by
    have e := congrArg Group.v hrest; exact e
  refine ⟨?_, ?_, fun hone => ?_, ?_⟩
  · rw [settleGroup_stays arriveState_same groupAt_live (by rw [hg']; exact regangs_not_arrived ha hr groupAt_live), changedAt_same, hg']
  · have e (p : DWord) := (hstand.thereAt p).symm
    exact (regangs_fused ha hr).share e fun p j f hw =>
      ⟨fun hn k => (hw.1 hn k).trans (any_share (e p) (fun x => x.2.1.s.getLsbD k)).symm, hw.2⟩
  · obtain ⟨j, hj⟩ := regangs_one ha hr (p := h.f.pc) (fun i hi => by
      rw [hstand.live] at hi
      obtain ⟨f, hfi, hpc⟩ := hone i hi
      have hm : i ∈ ((h.settled s).groupAt .regang).live := by rw [hstand.live]; exact hi
      obtain ⟨x, hxi, -⟩ := mem_live.mp hm
      obtain ⟨y, hy, hst⟩ := hstand.get hxi
      rw [hfi] at hy
      cases hy
      have hp : x.pc = f.pc := congrArg (·.2.1) hst
      exact ⟨x, hxi, hp.trans hpc⟩) groupAt_live
    have hlen1 : ((h.settled s).groupAt .regang).regangs.live.length = 1 := by rw [hj]; rfl
    obtain ⟨hk, hregs⟩ := settleSingle_kills hlen1
    rw [hkill, hv] at hregs
    exact ⟨by rw [settleSingle_live]; exact hlen1, hk, hregs⟩
  · rintro ⟨j, hj, f, hfj, hpc⟩
    have hjr : j ≠ h.r.frag := fun e => by
      subst e
      rw [(settled_spec s h).group_self (h.settled s).f] at hfj
      cases hfj
      exact hpc (settled_spec s h).pc
    have hfj' : h.g.frags[j] = some f := ((settled_spec s h).group_ne (h.settled s).f hjr).symm.trans hfj
    obtain ⟨x, hxj, hxx⟩ := mem_live.mp hj
    rw [hfj] at hxj
    cases hxj
    have hmore := regangs_more ha hr groupAt_self (by nofun) ((groupAt_ne hjr).trans hfj') hxx
      (fun e => hpc (e.symm.trans (settled_spec s h).pc))
    have hsame : g' = ((h.settled s).groupAt .regang).regangs := settleSingle_of_ne_one hmore
    rw [hsame]
    exact ⟨hkill, hv⟩

end

/-- Settles O35: a group that is not split, or a handler, goes on; a split one is looked at once the fragment waits, and the list of the live
entries by lowest slice tells who fuses with whom. -/
theorem regang : Obligations.Regang := by
  unfold Obligations.Regang
  intro s h q
  obtain ⟨-, -, hf, hx⟩ := here?_spec q.here
  refine ⟨regang_settles q, fun hh => ?_, fun hh hs hall h0 hd => ?_⟩
  · rintro ⟨j, f, hj, hfj, hfx, hfw, h0, hd⟩
    obtain ⟨h', hat, hst, hpc, hsib⟩ := regang_waits (s := s) hf hx hj hfj hfx hfw h0 hd
    exact ⟨_, h', exec_regang_waits q hh (not_single hf hx hj hfj hfx), hat, hst, hpc, hsib⟩
  · obtain ⟨hg, hfused, hone, hmore⟩ := regang_fuses (s := s) hf hx hs hall ⟨h0, hd⟩
    exact ⟨_, _, exec_regang_waits q hh hs, hg, hfused.fused, hfused.live, hone, hmore⟩

end Sys2Proof.Machine
end

section

/-! SUPPORT. What the end of a group and of a team leaves of the group slots and the teams (R33, R53, R342, R360): slots are given up, none is
taken, and the team is no more.
-/

namespace Sys2Proof.Machine

/-! ## Slots and teams -/

/-- Who is there: the teams, and the groups in their slots. -/
def State.seats (s : State) : List Team × (Fin 256 → Vector (Option Group) 64) := (s.teams, fun c => (s.core c).slots)

theorem seats_of_work {s t : State} (e : t.work = s.work) : t.seats = s.seats := by
  unfold State.seats
  rw [work_teams e, funext (work_slots e)]

/-- From s to t the core's slots are only given up, and other cores' stay. -/
structure Vacates (c : Fin 256) (s t : State) : Prop where
  others : ∀ (d : Fin 256) (i : Fin 64), d ≠ c → t.group? d i = s.group? d i
  free : ∀ i : Fin 64, s.group? c i = none → t.group? c i = none

theorem Vacates.refl (c : Fin 256) (s : State) : Vacates c s s := ⟨fun _ _ _ => rfl, fun _ => id⟩

theorem Vacates.trans {c : Fin 256} {s t u : State} (a : Vacates c s t) (b : Vacates c t u) : Vacates c s u :=
  ⟨fun d i h => (b.others d i h).trans (a.others d i h), fun i h => b.free i (a.free i h)⟩

theorem seats_group? {s t : State} (e : t.seats = s.seats) (d : Fin 256) (i : Fin 64) : t.group? d i = s.group? d i :=
  congrArg (fun v : Vector (Option Group) 64 => v[i]) (congrFun (congrArg Prod.snd e) d)

theorem Vacates.of_seats {c : Fin 256} {s t : State} (e : t.seats = s.seats) : Vacates c s t :=
  ⟨fun d i _ => seats_group? e d i, fun i h => (seats_group? e c i).trans h⟩

theorem Vacates.setCore {c : Fin 256} {s : State} {k : Core} (h : ∀ i : Fin 64, s.group? c i = none → k.slots[i] = none) :
    Vacates c s (s.setCore c k) where
  others := fun d i hd => by unfold State.group?; rw [core_setCore_ne _ _ _ _ hd]
  free := fun i hi => by unfold State.group?; rw [core_setCore_same]; exact h i hi

theorem Vacates.foldl {α : Type} {c : Fin 256} (f : State → α → State) (hf : ∀ (s : State) (x : α), Vacates c s (f s x)) (l : List α)
    (s : State) : Vacates c s (l.foldl f s) :=
  List.foldlRecOn (motive := fun t => Vacates c s t) l f (.refl c s) fun t h x _ => h.trans (hf t x)

theorem Vacates.of_cores {c : Fin 256} {s t : State} (e : t.cores = s.cores) : Vacates c s t := by
  have hg (d : Fin 256) (i : Fin 64) : t.group? d i = s.group? d i := by unfold State.group? State.core; rw [e]
  exact ⟨fun d i _ => hg d i, fun i h => (hg c i).trans h⟩

theorem vacates_setTeam (c : Fin 256) (s : State) (t : Team) : Vacates c s (s.setTeam t) := .of_cores rfl
theorem vacates_setLaunch (c : Fin 256) (s : State) (l : Launch) : Vacates c s (s.setLaunch l) := .of_cores rfl
theorem vacates_flushCopies (c : Fin 256) (s : State) (u : Nat) : Vacates c s (flushCopies s u) := .of_cores rfl

theorem vacates_evictNames (c : Fin 256) (s : State) : Vacates c s (s.evictNames c) := .setCore fun _ h => h

theorem vacates_clearSlot (c : Fin 256) (i : Fin 64) (s : State) : Vacates c s (s.clearSlot c i) := by
  refine Vacates.trans (.setCore fun j hj => ?_) (vacates_evictNames c _)
  by_cases e : j = i
  · subst e; exact setSlot_same _ _ _
  · exact (setSlot_ne _ _ _ _ e).trans hj

theorem clearSlot_group? (s : State) (c : Fin 256) (i : Fin 64) : (s.clearSlot c i).group? c i = none :=
  (evictNames_group? _ _ _ _).trans (group?_setGroup_same _ _ _ _)

/-! ## The engine -/

/-- A group whose fragments held at `MOWN` wait in the queue. -/
def Group.queued (g : Group) : Group :=
  { g with frags := Vector.ofFn (fun j : Fin 8 => (g.frags[j]).map (fun f =>
      if f.status = .waiting (.owner true) then { f with status := .waiting (.owner false) } else f)) }

theorem markQueued_slot (k : Core) (i : Fin 64) :
    k.markQueued.slots[i] = (k.slots[i]).map (fun g => if k.engine.queue.contains g.uid then g.queued else g) := by
  simp only [Core.markQueued, Fin.getElem_fin, Vector.getElem_ofFn]
  cases k.slots[i.val] with
  | none => rfl
  | some g =>
    rw [Option.map_some]
    dsimp only
    split
    · unfold Group.queued
      congr 3
      funext j
      cases g.frags[j] with
      | none => rfl
      | some f => rw [Option.map_some]; exact (apply_ite some _ _ _).symm
    · rfl

theorem vacates_requeue (s : State) (c : Fin 256) (e : Engine) : Vacates c s (s.requeue c e) :=
  .setCore fun i h => by rw [markQueued_slot]; exact congrArg (Option.map _) h

theorem vacates_grantEngine (s : State) (c : Fin 256) (u : Nat) : Vacates c s (grantEngine s c u) := by
  have hd : Vacates c s (drainEngine s c) := .of_seats (seats_of_work (drainEngine_work s c))
  fun_cases grantEngine
  · exact hd.trans (.setCore fun _ h => h)
  · exact hd.trans (.setCore fun _ h => h)
  · next i _ g hg =>
    refine hd.trans (.setCore fun j hj => ?_)
    have hij : j ≠ i := fun e => by
      subst e
      have hnone : ((drainEngine s c).core c).slots[j] = none := hj
      rw [hnone] at hg
      cases hg
    exact (setSlot_ne _ _ _ _ hij).trans hj

theorem vacates_releaseEngine (s : State) (c : Fin 256) : Vacates c s (releaseEngine s c) := by
  fun_cases releaseEngine
  · exact .setCore fun _ h => h
  · exact (vacates_requeue _ _ _).trans (vacates_grantEngine _ _ _)

theorem grantEngine_teams (s : State) (c : Fin 256) (u : Nat) : (grantEngine s c u).teams = s.teams := by
  have hd := work_teams (drainEngine_work s c)
  fun_cases grantEngine
  · exact hd
  · exact hd
  · exact hd

theorem releaseEngine_teams (s : State) (c : Fin 256) : (releaseEngine s c).teams = s.teams := by
  fun_cases releaseEngine
  · rfl
  · exact grantEngine_teams _ _ _

/-! ## Journals, rings, contexts -/

theorem setJournal_seats (s : State) (c : Option Nat) (j : Journal) : (s.setJournal c j).seats = s.seats := by
  fun_cases State.setJournal
  · rfl
  · rfl
  · rfl

theorem mirrorEntry_seats (s : State) (c : Option Nat) (e : JEntry) : (mirrorEntry s c e).seats = s.seats := by
  fun_cases mirrorEntry
  · rfl
  · exact seats_of_work (fwWrite_work _ _ _)

theorem countExits_seats (s : State) (c : Option Nat) (seq n : Nat) : (countExits s c seq n).seats = s.seats := by
  unfold countExits
  fun_cases changeEntry
  · rfl
  · exact (mirrorEntry_seats _ _ _).trans (setJournal_seats _ _ _)

theorem noteExit_seats (s : State) (l : Launch) : (noteExit s l).seats = s.seats := by
  fun_cases noteExit
  · rfl
  · exact countExits_seats _ _ _ _
  · exact countExits_seats _ _ _ _

theorem ringPut_seats (s : State) (a n : Nat) (bs : List Byte) : (ringPut s a n bs).1.seats = s.seats := by
  fun_cases ringPut
  · exact seats_of_work (fwWrite_work _ _ _)
  · exact (seats_of_work (fwWrite_work _ _ _)).trans (seats_of_work (fwWrite_work _ _ _))

theorem settleDraining_seats (s : State) (c : Fin 256) : (settleDraining s c).seats = s.seats := by
  fun_cases settleDraining
  · rfl
  · rfl
  · exact seats_of_work (setCore_work s c rfl)

theorem settlePark_seats (s : State) (x : Nat) : (settlePark s x).seats = s.seats := by
  fun_cases settlePark
  · rfl
  · rfl
  · rfl

theorem dropPublishes_seats (s : State) (g : Group) : (dropPublishes s g).seats = s.seats := by
  refine List.foldlRecOn (motive := fun t => State.seats t = s.seats) _ _ rfl fun t e o _ => ?_
  split
  · exact e
  · split
    · split
      · exact e
      · exact e
    · exact e

/-- The exit record of a team that ends, where there is one to write (R379). -/
theorem exitRing_seats (s : State) (record : Bool) (l? : Option Launch) (bs : Launch → List Byte) :
    (match record, l? with
      | true, some l => match s.ctx? l.ctx with
        | some x => ringPut s x.exitRing 160 (bs l)
        | none => (s, false)
      | _, _ => (s, false)).1.seats = s.seats := by
  split
  · split
    · exact ringPut_seats _ _ _ _
    · rfl
  · rfl

theorem vacates_endLeap (s : State) (c : Fin 256) (l : Nat) : Vacates c s (endLeap s c l) := by
  refine Vacates.trans (.setCore fun i hi => ?_) (vacates_evictNames c _)
  have hi' : (s.core c).slots[i.val] = none := hi
  simp only [Fin.getElem_fin, Vector.getElem_ofFn, hi']

/-! ## The end of a team -/

/-- The groups of the team on its core are cleared away. -/
theorem clearGroups_free (c : Fin 256) {l : List (Fin 64)} {i : Fin 64} (hi : i ∈ l) (s : State) :
    (l.foldl (fun s i => match s.group? c i with
      | some g => (dropPublishes s g).clearSlot c i
      | none => s) s).group? c i = none := by
  have hstep (s : State) (j : Fin 64) : Vacates c s (match s.group? c j with
      | some g => (dropPublishes s g).clearSlot c j
      | none => s) := by
    split
    · exact (Vacates.of_seats (dropPublishes_seats _ _)).trans (vacates_clearSlot c j _)
    · exact .refl c s
  induction l generalizing s with
  | nil => cases hi
  | cons j l ih =>
    rw [List.foldl_cons]
    rcases List.mem_cons.mp hi with rfl | hi
    · refine (Vacates.foldl (c := c) _ (fun s j => hstep s j) l _).free i ?_
      split
      · exact clearSlot_group? _ _ _
      · assumption
    · exact ih hi _

/-- What the end of a team leaves: its groups' slots are free or, on a core that is not the team's, untouched, and the team is gone. -/
theorem endTeam_spec (s : State) (u : Nat) (trapped discarded : Bool) : (endTeam s u trapped discarded).team? u = none ∧
    ∀ (c : Fin 256) (i : Fin 64) (g : Group), s.group? c i = some g → g.team = some u →
      (endTeam s u trapped discarded).group? c i = none ∨ (endTeam s u trapped discarded).group? c i = some g := by
  unfold endTeam
  split
  · next ht => exact ⟨ht, fun c i g hg _ => .inr hg⟩
  · next t0 ht =>
    extract_lets c k0 t gids s1 e s2 s3 s4 s5 record l? p6 p7 s7
    have h3 : Vacates c s s3 := by
      have h2 : Vacates c s s2 := (Vacates.of_seats (seats_of_work (drainEngine_work s c))).trans (vacates_requeue s1 c _)
      dsimp only [s3]
      split
      · split
        · exact h2.trans (vacates_releaseEngine s2 c)
        · exact h2
      · exact h2
    have h4 : Vacates c s s4 := (h3.trans (vacates_setTeam c s3 t)).trans (vacates_flushCopies c _ u)
    have hfold : Vacates c s4 s5 := .foldl _ (fun s i => by
      split
      · exact (Vacates.of_seats (dropPublishes_seats _ _)).trans (vacates_clearSlot c i _)
      · exact .refl c s) _ _
    have h5 (i : Fin 64) (g : Group) (hg : s.group? c i = some g) (hgt : g.team = some u) : s5.group? c i = none :=
      clearGroups_free c (mem_groupsOf.mpr ⟨g, hg, hgt⟩) s4
    have h6 : p6.1.seats = s5.seats := exitRing_seats s5 record l? _
    have h7 : Vacates c s5 s7 := (Vacates.of_seats h6).trans (.of_cores rfl)
    have hgone : s7.team? u = none := by
      refine List.find?_eq_none.mpr fun x hx => ?_
      have := (List.mem_filter.mp hx).2
      simpa using this
    -- whatever follows keeps the teams and takes no slot
    have hend (t : State) (hv : Vacates c s7 t) (hteams : t.teams = s7.teams) : t.team? u = none ∧
        ∀ (d : Fin 256) (i : Fin 64) (g : Group), s.group? d i = some g → g.team = some u → t.group? d i = none ∨ t.group? d i = some g := by
      refine ⟨by rw [State.team?, hteams]; exact hgone, fun d i g hg hgt => ?_⟩
      by_cases hd : d = c
      · subst hd
        exact .inl ((h7.trans hv).free i (h5 i g hg hgt))
      · exact .inr ((((h4.trans hfold).trans (h7.trans hv)).others d i hd).trans hg)
    clear_value p6 l?
    split
    · exact hend _ (.of_seats (settleDraining_seats _ _)) (congrArg Prod.fst (settleDraining_seats s7 c))
    · next l =>
      extract_lets s8 s9
      have h9 : Vacates c s7 s9 ∧ s9.teams = s7.teams := by
        dsimp only [s9]
        split
        · exact ⟨vacates_setLaunch c s7 _, rfl⟩
        · exact ⟨(vacates_setLaunch c s7 _).trans (vacates_endLeap s8 c l.id), rfl⟩
      have h10 (x : State) (hx : x.seats = s9.seats) : (settlePark (settleDraining x c) l.ctx).seats = s9.seats :=
        (settlePark_seats _ _).trans ((settleDraining_seats _ _).trans hx)
      have hx : (if p6.2 then noteExit s9 l else s9).seats = s9.seats := by
        split
        · exact noteExit_seats _ _
        · rfl
      exact hend _ (h9.1.trans (.of_seats (h10 _ hx))) ((congrArg Prod.fst (h10 _ hx)).trans h9.2)

end Sys2Proof.Machine
end

section

/-! SUPPORT. The exit of a fragment and of its group (R33, R53): an entry that has exited is found no more, and a team ends exactly when no
group of it has a live fragment.
-/

namespace Sys2Proof.Machine

/-! ## Who is still there -/

/-- A group's team, and whether no fragment of it is live. -/
def Group.presence (g : Group) : Option Nat × Bool := (g.team, g.live.isEmpty)

/-- Slot by slot the same groups of the same teams are live. -/
def SamePresence (c : Fin 256) (s t : State) : Prop :=
  ∀ i : Fin 64, (t.group? c i).map Group.presence = (s.group? c i).map Group.presence

theorem SamePresence.trans {c : Fin 256} {s t u : State} (a : SamePresence c s t) (b : SamePresence c t u) : SamePresence c s u :=
  fun i => (b i).trans (a i)

theorem SamePresence.of_group? {c : Fin 256} {s t : State} (e : ∀ i : Fin 64, t.group? c i = s.group? c i) : SamePresence c s t :=
  fun i => congrArg _ (e i)

/-- An update that makes of one slot a group of the same presence. -/
theorem SamePresence.setSlot {c : Fin 256} {s : State} {k : Core} (hk : k.slots = (s.core c).slots) {i : Fin 64} {g g' : Group}
    (hg : s.group? c i = some g) (e : g'.presence = g.presence) : SamePresence c s (s.setCore c (k.setSlot i (some g'))) := by
  intro j
  unfold State.group? at hg ⊢
  rw [core_setCore_same]
  by_cases h : j = i
  · subst h; rw [setSlot_same, hg, Option.map_some, Option.map_some, e]
  · rw [setSlot_ne _ _ _ _ h, hk]

theorem releaseNext_live {g : Group} (h : g.live ≠ []) : g.releaseNext.live ≠ [] := by
  obtain ⟨i, hi⟩ := List.exists_mem_of_ne_nil _ h
  obtain ⟨f, hf, hx⟩ := mem_live.mp hi
  rcases releaseNext_frag hf with e | e
  · exact List.ne_nil_of_mem (mem_live.mpr ⟨_, e, hx⟩)
  · exact List.ne_nil_of_mem (mem_live.mpr ⟨_, e, nofun⟩)

theorem releaseNext_team (g : Group) : g.releaseNext.team = g.team := by
  unfold Group.releaseNext
  split
  · rfl
  · rfl

/-- A release takes nobody away, and brings nobody back where none is left. -/
theorem release_presence (g : Group) (p : Wait → Bool) : (g.release p).presence = g.presence := by
  have hmap : (g.mapFrags (fun _ f => if f.waits p then f.goOn else f)).live = g.live := by
    unfold Group.live
    refine List.filter_congr fun i _ => ?_
    rw [mapFrags_frags]
    cases g.frags[i] with
    | none => rfl
    | some f =>
      rw [Option.map_some]
      dsimp only
      split
      · next hw =>
        have hx : f.status ≠ .exited := fun h => by simp [Frag.waits, h] at hw
        rw [bne_iff_ne.mpr hx]
        rfl
      · rfl
  by_cases hl : g.live = []
  · have hnone (i : Fin 8) : (g.frags[i]).any (fun f => f.waits p) = false := by
      cases hf : g.frags[i] with
      | none => rfl
      | some f =>
        have hx : f.status = .exited := Decidable.byContradiction fun hx => by
          have := mem_live.mpr ⟨f, hf, hx⟩
          simp [hl] at this
        simp [Frag.waits, hx]
    have hrel : g.release p = g.mapFrags (fun _ f => if f.waits p then f.goOn else f) := by
      unfold Group.release
      dsimp only
      split
      · next i _ => rw [if_neg (by rw [hnone i]; nofun)]
      · rfl
    unfold Group.presence
    rw [hrel, hmap]
    rfl
  · have hne (x : Group) (h : x.live ≠ []) : x.live.isEmpty = false := by simpa using h
    unfold Group.presence
    rcases release_cases g p with e | e
    · rw [e, hmap]; rfl
    · rw [e, releaseNext_team, hne _ (releaseNext_live (hmap ▸ hl)), hne _ hl]; rfl

theorem queued_live (g : Group) : g.queued.live = g.live := by
  refine live_congr fun i => ?_
  simp only [Group.queued, Fin.getElem_fin, Vector.getElem_ofFn, Option.map_map]
  congr 1
  funext f
  simp only [Function.comp]
  split
  · next h => rw [h]; rfl
  · rfl

theorem samePresence_requeue (s : State) (c : Fin 256) (e : Engine) : SamePresence c s (s.requeue c e) := by
  intro i
  unfold State.group? State.requeue
  rw [core_setCore_same, markQueued_slot, Option.map_map]
  refine congrFun (congrArg _ (funext fun g => ?_)) _
  simp only [Function.comp]
  split
  · unfold Group.presence
    rw [queued_live]
    rfl
  · rfl

theorem samePresence_setCore (s : State) (c : Fin 256) {k : Core} (e : k.slots = (s.core c).slots) : SamePresence c s (s.setCore c k) :=
  .of_group? fun i => seats_group? (seats_of_work (setCore_work s c e)) c i

theorem samePresence_grantEngine (s : State) (c : Fin 256) (u : Nat) : SamePresence c s (grantEngine s c u) := by
  have hd : SamePresence c s (drainEngine s c) := .of_group? fun i => seats_group? (seats_of_work (drainEngine_work s c)) c i
  unfold grantEngine
  extract_lets s1 k e0 e k1
  have hk1 : k1.slots = (s1.core c).slots := rfl
  have hs1 : SamePresence c s s1 := hd
  split
  · exact hs1.trans (samePresence_setCore s1 c hk1)
  · next i _ =>
    split
    · exact hs1.trans (samePresence_setCore s1 c hk1)
    · next g hg =>
      have hg' : s1.group? c i = some g := hg
      clear_value s1 k1
      exact hs1.trans (SamePresence.setSlot hk1 hg' (release_presence g _))

theorem samePresence_releaseEngine (s : State) (c : Fin 256) : SamePresence c s (releaseEngine s c) := by
  unfold releaseEngine
  extract_lets e
  split
  · exact samePresence_setCore s c rfl
  · exact (samePresence_requeue _ _ _).trans (samePresence_grantEngine _ _ _)

end Sys2Proof.Machine
end

section

/-! SUPPORT. `EXIT` (R33, R297): the group that a fragment has left, what settling it leads to while others are live, and the end of a group
and of its team where none is.
-/

namespace Sys2Proof.Machine

/-! ## The group without the fragment -/

/-- The settled fragment's group once its slices have ended. -/
def Here.left (h : Here) : Group := ({ h with f := { h.f with status := .exited, held := .no } } : Here).group

/-- The same, with the handler's end where the fragment ran it (R203). -/
def Here.exited (h : Here) : Group := if h.inHandler then { h.left with handler := none }.handlerEnded else h.left

/-- The state in which the fragment has ended, before its group is settled. -/
def exitState (s : State) (h : Here) : State := (settleAll s h).1.setGroup h.r.core h.r.slot (some (h.settled s).exited)

theorem exitFrag_eq (s : State) (h : Here) : exitFrag s h = settleGroup (exitState s h) h.r.core h.r.slot := rfl

/-- An entry that is not held is as it was when a handler has ended. -/
theorem handlerEnded_kept {g : Group} {i : Fin 8} (h : ∀ f, g.frags[i] = some f → f.held = .no) : g.handlerEnded.frags[i] = g.frags[i] := by
  have hmap : (g.mapFrags (fun _ f => if f.held = .stopped then { f with held := .due } else f)).frags[i] = g.frags[i] := by
    rw [mapFrags_frags]
    cases hf : g.frags[i] with
    | none => rfl
    | some f => rw [Option.map_some, if_neg (by rw [h f hf]; nofun)]
  unfold Group.handlerEnded
  dsimp only
  split
  · exact hmap
  · rw [releaseNext_kept, hmap]
    exact fun f hf => by rw [h f (hmap.symm.trans hf)]; nofun

theorem handlerEnded_team (g : Group) : g.handlerEnded.team = g.team ∧ g.handlerEnded.grpid = g.grpid := by
  unfold Group.handlerEnded Group.releaseNext
  dsimp only
  split
  · exact ⟨rfl, rfl⟩
  · split
    · exact ⟨rfl, rfl⟩
    · exact ⟨rfl, rfl⟩

section
variable {s : State} {h : Here}

theorem left_self : (h.settled s).left.frags[h.r.frag] = some { (h.settled s).f with status := .exited, held := .no } :=
  (settled_spec s h).group_self _

theorem left_ne {j : Fin 8} (hj : j ≠ h.r.frag) : (h.settled s).left.frags[j] = h.g.frags[j] := (settled_spec s h).group_ne _ hj

/-- The fragment has ended and is not to be released. -/
theorem exited_self : (h.settled s).exited.frags[h.r.frag] = some { (h.settled s).f with status := .exited, held := .no } := by
  unfold Here.exited
  split
  · rw [handlerEnded_kept]
    · exact left_self
    · intro f hf
      have := left_self (s := s) (h := h)
      rw [show ({ (h.settled s).left with handler := none } : Group).frags[h.r.frag] = (h.settled s).left.frags[h.r.frag] from rfl, this] at hf
      cases hf
      rfl
  · exact left_self

theorem exited_team : (h.settled s).exited.team = h.g.team ∧ (h.settled s).exited.grpid = h.g.grpid := by
  have ht : (h.settled s).left.team = h.g.team := (settled_spec s h).team
  have hgr : (h.settled s).left.grpid = h.g.grpid := by have e := congrArg Group.grpid (settled_spec s h).group; exact e
  unfold Here.exited
  split
  · exact ⟨(handlerEnded_team _).1.trans ht, (handlerEnded_team _).2.trans hgr⟩
  · exact ⟨ht, hgr⟩

theorem exited_eq (hh : h.inHandler = false) : (h.settled s).exited = (h.settled s).left := by
  unfold Here.exited
  rw [(settled_spec s h).inHandler, hh]
  rfl

/-- Where it was the last live fragment and no other entry is held, none is live. -/
theorem exited_live (hl : h.g.live = [h.r.frag]) (hheld : ∀ (j : Fin 8) (f : Frag), j ≠ h.r.frag → h.g.frags[j] = some f → f.held = .no) :
    (h.settled s).exited.live = [] := by
  refine List.eq_nil_iff_forall_not_mem.mpr fun i hi => ?_
  obtain ⟨f, hf, hx⟩ := mem_live.mp hi
  by_cases e : i = h.r.frag
  · subst e
    rw [exited_self] at hf
    cases hf
    exact hx rfl
  · have hleft : (h.settled s).left.frags[i] = h.g.frags[i] := left_ne e
    have hkept : (h.settled s).exited.frags[i] = h.g.frags[i] := by
      unfold Here.exited
      split
      · rw [handlerEnded_kept]
        · exact hleft
        · exact fun f hf => hheld i f e (hleft.symm.trans hf)
      · exact hleft
    have := mem_live.mpr ⟨f, hkept.symm.trans hf, hx⟩
    rw [hl, List.mem_singleton] at this
    exact e this

theorem exitState_same : (exitState s h).group? h.r.core h.r.slot = some (h.settled s).exited := group?_setGroup_same _ _ _ _

theorem exitState_ne {j : Fin 64} (hj : j ≠ h.r.slot) : (exitState s h).group? h.r.core j = s.group? h.r.core j :=
  (group?_setGroup_ne _ _ _ _ _ _ (.inr hj)).trans ((settleAll_spec s h).1.group? _ _ (.inr hj))

theorem exitState_teams : (exitState s h).teams = s.teams := by
  have e := congrArg State.teams (settleAll_spec s h).1.package
  exact e

end

/-! ## The fragment is found no more -/

theorem at?_exited {t : State} {r : FragRef} {g : Group} {f : Frag} (hg : t.group? r.core r.slot = some g) (hf : g.frags[r.frag] = some f)
    (hx : f.status = .exited) : t.at? r = none := by
  unfold State.at?
  simp only [hg, hf, hx, if_true]

theorem at?_noGroup {t : State} {r : FragRef} (hg : t.group? r.core r.slot = none) : t.at? r = none := by
  unfold State.at?
  simp only [hg]

/-- Of an entry that has exited and is not due, a barrier makes none that lives. -/
theorem barrier_exited {s : State} {r : FragRef} {u : Nat} {g : Group} {f : Frag} (hg : s.group? r.core r.slot = some g)
    (hf : g.frags[r.frag] = some f) (hx : f.status = .exited) (hd : f.held ≠ .due) : (barrier s r.core u).at? r = none := by
  rcases barrier_group? s r.core u r.slot with ⟨-, e⟩ | e
  · rw [hg] at e
    unfold barSlot at e
    dsimp only at e
    split at e
    · exact at?_exited e (f := f) (release_exited hf hx hd) hx
    · exact at?_exited e hf hx
  · exact at?_exited (e.trans hg) hf hx

/-- A group without a live fragment, as it stands when it has exited. -/
def Group.over (g : Group) : Group := { g.unmap (BitVec.allOnes 64) with killSet := 0#64, handler := none, reissue := none }

theorem over_frags (g : Group) : g.over.frags = g.frags := by simp only [Group.over, Group.unmap]
theorem over_team (g : Group) : g.over.team = g.team := by simp only [Group.over, Group.unmap]
theorem over_live (g : Group) : g.over.live = g.live := live_congr fun i => by rw [over_frags]
theorem over_v (g : Group) (n : Reg) : regGet g.over.v n = none := by
  have h := regGet_unmap g (BitVec.allOnes 64) n
  rw [BitVec.getLsbD_allOnes, if_pos (decide_eq_true n.isLt)] at h
  exact h

/-- The group's ownership of the engine, if it has it, ends. -/
def disowned (s : State) (c : Fin 256) (uid : Nat) : State := if (s.core c).engine.owner = some uid then releaseEngine s c else s

/-- The state in which a group of a team has exited, before it is seen whether the team has others. -/
def overState (s : State) (c : Fin 256) (i : Fin 64) (g : Group) : State := ((disowned s c g.uid).setGroup c i (some g.over)).evictNames c

theorem overState_same (s : State) (c : Fin 256) (i : Fin 64) (g : Group) : (overState s c i g).group? c i = some g.over :=
  (evictNames_group? _ _ _ _).trans (group?_setGroup_same _ _ _ _)

theorem overState_presence (s : State) (c : Fin 256) {i j : Fin 64} (g : Group) (hj : j ≠ i) :
    ((overState s c i g).group? c j).map Group.presence = (s.group? c j).map Group.presence := by
  unfold overState disowned
  rw [evictNames_group?, group?_setGroup_ne _ _ _ _ _ _ (.inr hj)]
  split
  · exact samePresence_releaseEngine s c j
  · rfl

theorem overState_teams (s : State) (c : Fin 256) (i : Fin 64) (g : Group) : (overState s c i g).teams = s.teams := by
  show (disowned s c g.uid).teams = _
  unfold disowned
  split
  · exact releaseEngine_teams s c
  · rfl

/-- The last group of the team is gone with this one. -/
def LastOf (s : State) (c : Fin 256) (u : Nat) : Prop := ∀ (i : Fin 64) (g : Group), s.group? c i = some g → g.team = some u → g.live = []

/-- The state in which the team has noted the exit of one group more. -/
def notedState (s : State) (c : Fin 256) (i : Fin 64) (g : Group) (x : Team) : State :=
  (overState s c i g).setTeam { x with exited := x.exited ||| (1#32 <<< g.grpid) }

theorem groupExit_team {s : State} {c : Fin 256} {i : Fin 64} {g : Group} {u : Nat} (hg : s.group? c i = some g) (hu : g.team = some u) :
    groupExit s c i = match (overState s c i g).team? u with
      | none => overState s c i g
      | some x => if ((notedState s c i g x).core c).groupsOf u |>.any (fun j => match ((notedState s c i g x).core c).slots[j] with
          | some x => !x.live.isEmpty
          | none => false) then barrier (notedState s c i g x) c u else endTeam (notedState s c i g x) u false false := by
  unfold groupExit notedState overState disowned
  cases ho : (s.core c).engine.owner with
  | none =>
    simp only [hg, hu, reduceCtorEq, if_false]
    rfl
  | some o =>
    simp only [hg, hu, Option.some.injEq]
    rfl

theorem any_live_iff (t : State) (c : Fin 256) (u : Nat) : ((t.core c).groupsOf u).any (fun i => match (t.core c).slots[i] with
    | some x => !x.live.isEmpty
    | none => false) = true ↔ ¬ LastOf t c u := by
  rw [List.any_eq_true]
  constructor
  · rintro ⟨j, hj, hlive⟩ hlast
    obtain ⟨g', hg', ht⟩ := mem_groupsOf.mp hj
    simp [hg', hlast j g' hg' ht] at hlive
  · intro hn
    unfold LastOf at hn
    push Not at hn
    obtain ⟨j, g', hg', ht, hlive⟩ := hn
    have hg'' : (t.core c).slots[j] = some g' := hg'
    exact ⟨j, mem_groupsOf.mpr ⟨g', hg', ht⟩, by simp only [hg'']; simpa using hlive⟩

/-- What becomes of a group without a live fragment. -/
theorem groupExit_cases {s : State} {c : Fin 256} {i : Fin 64} {g : Group} (hg : s.group? c i = some g) :
    (groupExit s c i).group? c i = none ∨
    ∃ u, g.team = some u ∧ (((overState s c i g).team? u = none ∧ groupExit s c i = overState s c i g) ∨
      ∃ x, (overState s c i g).team? u = some x ∧
        ((¬ LastOf (notedState s c i g x) c u ∧ groupExit s c i = barrier (notedState s c i g x) c u) ∨
          (LastOf (notedState s c i g x) c u ∧ groupExit s c i = endTeam (notedState s c i g x) u false false))) := by
  cases hu : g.team with
  | none =>
    left
    unfold groupExit
    simp only [hg, hu]
    exact clearSlot_group? _ _ _
  | some u =>
    refine .inr ⟨u, rfl, ?_⟩
    rw [groupExit_team hg hu]
    cases hx : (overState s c i g).team? u with
    | none => exact .inl ⟨rfl, rfl⟩
    | some x =>
      refine .inr ⟨x, rfl, ?_⟩
      dsimp only
      split
      · next h => exact .inl ⟨(any_live_iff _ c u).mp h, rfl⟩
      · next h => exact .inr ⟨Classical.not_not.mp fun hn => h ((any_live_iff _ c u).mpr hn), rfl⟩

theorem setTeam_group? (s : State) (t : Team) (c : Fin 256) (i : Fin 64) : (s.setTeam t).group? c i = s.group? c i := rfl

theorem team?_setTeam {s : State} {u : Nat} {x y : Team} (h : s.team? u = some x) (e : y.uid = x.uid) : (s.setTeam y).team? u = some y := by
  have hu : x.uid = u := by simpa using List.find?_some h
  unfold State.team? State.setTeam at *
  dsimp only
  rw [List.find?_map]
  have hp : ((fun t : Team => t.uid == u) ∘ fun z => if z.uid = y.uid then y else z) = fun t => t.uid == u := by
    funext z
    simp only [Function.comp]
    split
    · next hz => rw [hz]
    · rfl
  rw [hp, h, Option.map_some, if_pos e.symm]

/-- An entry of a group without a live fragment is found no more once the group has exited. -/
theorem groupExit_exited {s : State} {r : FragRef} {g : Group} {f : Frag} (hg : s.group? r.core r.slot = some g) (hf : g.frags[r.frag] = some f)
    (hx : f.status = .exited) (hd : f.held ≠ .due) : (groupExit s r.core r.slot).at? r = none := by
  have hsame := overState_same s r.core r.slot g
  have hof : g.over.frags[r.frag] = some f := by rw [over_frags]; exact hf
  rcases groupExit_cases hg with e | ⟨u, hu, ⟨-, e⟩ | ⟨x, -, ⟨-, e⟩ | ⟨-, e⟩⟩⟩
  · exact at?_noGroup e
  · rw [e]; exact at?_exited hsame hof hx
  · rw [e]; exact barrier_exited ((setTeam_group? _ _ _ _).trans hsame) hof hx hd
  · rw [e]
    rcases (endTeam_spec _ u false false).2 r.core r.slot g.over ((setTeam_group? _ _ _ _).trans hsame) ((over_team g).trans hu) with h | h
    · exact at?_noGroup h
    · exact at?_exited h hof hx

/-- A fragment that has ended is found no more once its group is settled. -/
theorem settleGroup_exited {s : State} {r : FragRef} {g : Group} {f : Frag} (hg : s.group? r.core r.slot = some g) (hf : g.frags[r.frag] = some f)
    (hx : f.status = .exited) (hd : f.held ≠ .due) : (settleGroup s r.core r.slot).at? r = none := by
  by_cases hl : g.live = []
  · have e : settleGroup s r.core r.slot = groupExit s r.core r.slot := by
      unfold settleGroup
      simp only [hg, hl, List.isEmpty_nil, if_true]
    rw [e]
    exact groupExit_exited hg hf hx hd
  · rw [settleGroup_live hg hl]
    obtain ⟨w, hw⟩ := afterChange_other hf (by rw [hx]; nofun)
    split
    · exact barrier_exited (changedAt_same _ _ _ _) hw hx hd
    · exact at?_exited (changedAt_same _ _ _ _) hw hx

theorem exitFrag_gone (s : State) (h : Here) : (exitFrag s h).at? h.r = none := by
  rw [exitFrag_eq]
  exact settleGroup_exited exitState_same exited_self rfl nofun

end Sys2Proof.Machine
end

section

/-! SUPPORT. The outcomes of `EXIT` (R30 to R33, R53, R297), from the settled group that the fragment has left.
-/

namespace Sys2Proof.Machine

/-! ## Waiting where it stands -/

/-- A fragment put back in a wait waits where it stands. -/
theorem waitsAt_put (t : State) (h : Here) (w : Wait) (ps : List Passed) :
    WaitsAt (t.put (h.waitWith w ps)) h ⟨h.r, (h.waitWith w ps).group, (h.waitWith w ps).f⟩ w ps where
  found := at?_put t (h.waitWith w ps) nofun
  frag := rfl
  group := rfl
  siblings := fun j hj => group_frags_ne (h.waitWith w ps) j hj

/-! ## Whether the group arrives with this end -/

theorem lastBeforeBar_iff (h : Here) : h.lastBeforeBar = true ↔ (∃ j, j ∈ h.g.live ∧ j ≠ h.r.frag) ∧
    ∀ j ∈ h.g.live, j ≠ h.r.frag → ∃ f, h.g.frags[j] = some f ∧ f.status = .waiting .bar := by
  have hmem (j : Fin 8) : j ∈ h.g.live.filter (fun j => j != h.r.frag) ↔ j ∈ h.g.live ∧ j ≠ h.r.frag := by simp
  have hbar (j : Fin 8) : (h.g.frags[j]).any (fun f => f.status == .waiting .bar) = true ↔ ∃ f, h.g.frags[j] = some f ∧ f.status = .waiting .bar := by
    cases h.g.frags[j] with
    | none => simp
    | some f => simp
  unfold Here.lastBeforeBar
  rw [Bool.and_eq_true, List.all_eq_true, Bool.not_eq_true', List.isEmpty_eq_false_iff_exists_mem]
  refine and_congr (exists_congr fun j => hmem j) ⟨fun a j hj hne => (hbar j).mp (a j ((hmem j).mpr ⟨hj, hne⟩)), fun a j hj => ?_⟩
  exact (hbar j).mpr (a j ((hmem j).mp hj).1 ((hmem j).mp hj).2)

section
variable {s : State} {h : Here}

theorem exec_exit_ends (q : Issues s h .exit .control) (hc : h.lastBeforeBar = false ∨ GroupReleased s h) : exec .exit s = .next (exitFrag s h) := by
  refine (onFragment_issues q _).trans ?_
  split
  · next hl =>
    have hr : GroupReleased s h := hc.resolve_left (by rw [hl]; nofun)
    simp only [afterRelease, releaseWork_done (sc := .core) (.inr rfl) hr, if_true]
  · rfl

theorem exec_exit_waits (q : Issues s h .exit .control) (hl : h.lastBeforeBar = true) (hw : GroupWaits s h) :
    exec .exit s = .next ((releaseWork s h .core).1.put (h.waitWith .suspended [])) := by
  refine (onFragment_issues q _).trans ?_
  have hr : (releaseWork s h .core).2 = false := releaseWork_waits (.inr rfl) hw
  simp only [hl, if_true, afterRelease, hr, Bool.false_eq_true, if_false]

/-! ## While others are live -/

/-- The live fragments of the group that the fragment has left. -/
theorem left_live : (h.settled s).left.live = h.g.live.filter (fun j => j != h.r.frag) := by
  unfold Group.live
  rw [List.filter_filter]
  refine List.filter_congr fun i _ => ?_
  by_cases e : i = h.r.frag
  · have hs := left_self (s := s) (h := h)
    subst e
    simp only [hs]
    simp
  · have hs := left_ne (s := s) e
    simp only [hs]
    simp [e]

section
variable (hf : h.g.frags[h.r.frag] = some h.f) (a : h.g.Apart)
include hf

theorem left_slices (i : Fin 8) : ((h.settled s).left.frags[i]).map (fun f => (true, f.slices)) = (h.g.frags[i]).map (fun f => (true, f.slices)) := by
  by_cases e : i = h.r.frag
  · subst e
    rw [left_self, hf, Option.map_some, Option.map_some, (settled_spec s h).slices]
  · rw [left_ne e]

include a

theorem left_apart : (h.settled s).left.Apart := by
  have hget (i : Fin 8) (f : Frag) (hi : (h.settled s).left.frags[i] = some f) : ∃ f', h.g.frags[i] = some f' ∧ f'.slices = f.slices := by
    have he := left_slices (s := s) hf i
    rw [hi, Option.map_some] at he
    cases hf' : h.g.frags[i] with
    | none => simp [hf'] at he
    | some f' =>
      rw [hf', Option.map_some] at he
      exact ⟨f', rfl, (congrArg Prod.snd (Option.some.inj he)).symm⟩
  constructor
  · intro i f hi
    obtain ⟨f', hf', e⟩ := hget i f hi
    rw [← e]
    exact a.nonempty i f' hf'
  · intro i j f k hij hi hj
    obtain ⟨f', hf', e⟩ := hget i f hi
    obtain ⟨k', hk', e'⟩ := hget j k hj
    rw [← e, ← e']
    exact a.disjoint i j f' k' hij hf' hk'

/-- Those who stand at an address once the fragment has left: the others that stood there. -/
theorem left_thereAt (p : DWord) : (h.settled s).left.thereAt p =
    (h.g.bySlice (fun f => f.status != .exited && f.pc == p)).filterMap (fun i => if i = h.r.frag then none else h.g.frags[i]) := by
  unfold Group.thereAt
  have horder : (h.settled s).left.order = h.g.order := bySlice_congr (left_slices hf)
  rw [(left_apart hf a).bySlice_eq, a.bySlice_eq, horder, List.filterMap_filter, List.filterMap_filter]
  refine List.filterMap_congr fun i _ => ?_
  by_cases e : i = h.r.frag
  · subst e
    rw [left_self]
    simp
  · rw [left_ne e, if_neg e]

end

/-- What is left of the group where it has others that are live and it does not arrive at a barrier. -/
theorem exitFrag_group (hh : h.inHandler = false) (hl : h.g.live.filter (fun j => j != h.r.frag) ≠ [])
    (ha : (h.settled s).left.afterChange.arrived = false) :
    (exitFrag s h).group? h.r.core h.r.slot = some (h.settled s).left.afterChange := by
  have hg : (exitState s h).group? h.r.core h.r.slot = some (h.settled s).left := by rw [exitState_same, exited_eq hh]
  rw [exitFrag_eq, settleGroup_stays hg (by rw [left_live]; exact hl) ha, changedAt_same]

section
variable (hh : h.inHandler = false) (hf : h.g.frags[h.r.frag] = some h.f) (a : h.g.Apart)
include hh hf a

/-- Several others, one of them at neither `REGANG` nor `BAR`. -/
theorem exit_goOn {j : Fin 8} {f : Frag} (hlen : 2 ≤ (h.g.live.filter (fun j => j != h.r.frag)).length)
    (hj : j ∈ h.g.live.filter (fun j => j != h.r.frag)) (hfj : h.g.frags[j] = some f) (hw : f.status ≠ .waiting .regang)
    (hb : f.status ≠ .waiting .bar) : ∃ g', (exitFrag s h).group? h.r.core h.r.slot = some g' ∧ g'.killSet = (h.settled s).g.killSet ∧
      g'.v = (h.settled s).g.v ∧ ∀ i : Fin 8, i ≠ h.r.frag → g'.frags[i] = h.g.frags[i] := by
  obtain ⟨hjl, hjr⟩ := List.mem_filter.mp hj
  have hjr : j ≠ h.r.frag := by simpa using hjr
  obtain ⟨f', hf', hx⟩ := mem_live.mp hjl
  rw [hfj] at hf'
  cases hf'
  have hlj : (h.settled s).left.frags[j] = some f := (left_ne hjr).trans hfj
  have hlen' : (h.settled s).left.live.length ≠ 1 := by rw [left_live]; omega
  have hsame : (h.settled s).left.afterChange = (h.settled s).left := by
    rw [afterChange_of_not_allRegang (not_allRegang (left_apart hf a) hlj hx hw), settleSingle_of_ne_one hlen', settleSingle_of_ne_one hlen']
  refine ⟨_, exitFrag_group hh (List.ne_nil_of_mem hj) (by rw [hsame]; exact not_arrived hlj hx hb), ?_⟩
  rw [hsame]
  exact ⟨rfl, rfl, fun i hi => left_ne hi⟩

/-- One other alone, at neither `REGANG` nor `BAR`. -/
theorem exit_single {j : Fin 8} {f : Frag} (hone : h.g.live.filter (fun j => j != h.r.frag) = [j]) (hfj : h.g.frags[j] = some f)
    (hw : f.status ≠ .waiting .regang) (hb : f.status ≠ .waiting .bar) : ∃ g', (exitFrag s h).group? h.r.core h.r.slot = some g' ∧
      g'.killSet = 0#64 ∧
      (∀ n : Reg, regGet g'.v n = if (h.settled s).g.killSet.getLsbD n.toNat then none else regGet (h.settled s).g.v n) ∧
      g'.frags[j] = (h.g.frags[j]).map (fun f => { f with written := Written.empty }) := by
  obtain ⟨hjl, hjr⟩ := List.mem_filter.mp (hone ▸ List.mem_singleton_self j : j ∈ h.g.live.filter (fun j => j != h.r.frag))
  have hjr : j ≠ h.r.frag := by simpa using hjr
  obtain ⟨f', hf', hx⟩ := mem_live.mp hjl
  rw [hfj] at hf'
  cases hf'
  have hlj : (h.settled s).left.frags[j] = some f := (left_ne hjr).trans hfj
  have hlive : (h.settled s).left.live = [j] := left_live.trans hone
  have hlive' : (h.settled s).left.settleSingle.live = [j] := (settleSingle_live _).trans hlive
  have hsame := afterChange_of_not_allRegang (not_allRegang (left_apart (s := s) hf a) hlj hx hw)
  have hfrag : (h.settled s).left.afterChange.frags[j] = some { f with written := Written.empty } := by
    rw [hsame, settleSingle_frags, settleSingle_frags, hlj, Option.map_some, Option.map_some, if_pos hlive, if_pos hlive']
  obtain ⟨hk1, hv1⟩ := settleSingle_kills (g := (h.settled s).left) (by rw [hlive]; rfl)
  obtain ⟨hk2, hv2⟩ := settleSingle_kills (g := (h.settled s).left.settleSingle) (by rw [hlive']; rfl)
  refine ⟨_, exitFrag_group hh (by rw [hone]; nofun) (not_arrived hfrag hx hb), ?_, fun n => ?_, ?_⟩
  · rw [hsame]; exact hk2
  · rw [hsame, hv2, hk1]
    rw [BitVec.getLsbD_zero, if_neg Bool.false_ne_true, hv1]
    rfl
  · rw [hfrag, hfj, Option.map_some]

end

/-! ## Where all others wait at `REGANG` -/

/-- A fragment with nothing written. -/
def Frag.cleared (f : Frag) : Frag := { f with written := Written.empty }

theorem fusedView_cleared {fs : List Frag} {v : View} (hlen : fs.length ≤ 1) (w : FusedView (fs.map Frag.cleared) v) : FusedView fs v := by
  obtain rfl | ⟨f, rfl⟩ : fs = [] ∨ ∃ f, fs = [f] := by
    rcases Nat.le_one_iff_eq_zero_or_eq_one.mp hlen with h | h
    · exact .inl (List.length_eq_zero_iff.mp h)
    · exact .inr (List.length_eq_one_iff.mp h)
  · exact w
  · exact FusedView.single (f := f.cleared) rfl w

/-- Of a group with one live fragment, what stands at an address is that fragment or nothing; once it has settled it has written nothing. -/
theorem singled_thereAt {g : Group} (hone : g.live.length = 1) (p : DWord) :
    g.settleSingle.thereAt p = (g.thereAt p).map Frag.cleared ∧ (g.thereAt p).length ≤ 1 := by
  obtain ⟨j, hj⟩ := List.length_eq_one_iff.mp hone
  have hidx : g.settleSingle.bySlice (fun f => f.status != .exited && f.pc == p) = g.bySlice (fun f => f.status != .exited && f.pc == p) :=
    bySlice_congr fun i => by
      rw [settleSingle_frags, Option.map_map]
      congr 1
      funext f
      simp only [Function.comp]
      split
      · rfl
      · rfl
  have hmem (i : Fin 8) (hi : i ∈ g.bySlice (fun f => f.status != .exited && f.pc == p)) : i = j := by
    obtain ⟨f, hf, hq⟩ := bySlice_frag hi
    rw [Bool.and_eq_true, bne_iff_ne] at hq
    have := mem_live.mpr ⟨f, hf, hq.1⟩
    rwa [hj, List.mem_singleton] at this
  constructor
  · unfold Group.thereAt
    rw [hidx, List.map_filterMap]
    refine List.filterMap_congr fun i hi => ?_
    rw [settleSingle_frags, hmem i hi]
    simp only [hj, if_true]
    rfl
  · refine (List.length_filterMap_le _ _).trans ?_
    have hnd := order_nodup g (fun f => f.status != .exited && f.pc == p)
    rw [List.eq_replicate_of_mem hmem] at hnd
    exact List.nodup_replicate.mp hnd

/-- Where all live fragments wait at `REGANG` the change fuses them, one alone as well. -/
theorem afterChange_fused {g : Group} (a : g.Apart) (hr : ∀ i ∈ g.live, ∃ f, g.frags[i] = some f ∧ f.status = .waiting .regang) :
    FusedGroup g.thereAt (fun _ _ _ => True) g.afterChange ∧ (g.live ≠ [] → g.afterChange.arrived = false) := by
  by_cases hone : g.live.length = 1
  · have hsl (i : Fin 8) : (g.settleSingle.frags[i]).map (fun f => (f.slices, f.status)) = (g.frags[i]).map (fun f => (f.slices, f.status)) := by
      rw [settleSingle_frags, Option.map_map]
      congr 1
      funext f
      simp only [Function.comp]
      split
      · rfl
      · rfl
    have hget (i : Fin 8) (f : Frag) (hi : g.settleSingle.frags[i] = some f) : ∃ f', g.frags[i] = some f' ∧ f'.slices = f.slices ∧ f'.status = f.status := by
      have he := hsl i
      rw [hi, Option.map_some] at he
      cases hf : g.frags[i] with
      | none => simp [hf] at he
      | some f' =>
        rw [hf, Option.map_some] at he
        have he := Option.some.inj he
        exact ⟨f', rfl, (congrArg Prod.fst he).symm, (congrArg Prod.snd he).symm⟩
    have a' : g.settleSingle.Apart := by
      constructor
      · intro i f hi
        obtain ⟨f', hf', e, -⟩ := hget i f hi
        rw [← e]
        exact a.nonempty i f' hf'
      · intro i j f k hij hi hj
        obtain ⟨f', hf', e, -⟩ := hget i f hi
        obtain ⟨k', hk', e', -⟩ := hget j k hj
        rw [← e, ← e']
        exact a.disjoint i j f' k' hij hf' hk'
    have hr' : g.settleSingle.allRegang := allRegang_of_live a' fun i hi => by
      obtain ⟨f, hf, -⟩ := mem_live.mp hi
      obtain ⟨f', hf', -, est⟩ := hget i f hf
      rw [settleSingle_live] at hi
      obtain ⟨x, hx, hst⟩ := hr i hi
      rw [hf'] at hx
      cases hx
      exact ⟨f, hf, est.symm.trans hst⟩
    have hfused := regangs_fused a' hr'
    have hthere (p : DWord) := singled_thereAt hone p
    have hnil (p : DWord) : g.settleSingle.thereAt p ≠ [] ↔ g.thereAt p ≠ [] := by rw [(hthere p).1]; exact not_congr List.map_eq_nil_iff
    refine ⟨⟨fun p hp => ?_, fun j hj => ?_⟩, fun hl => regangs_not_arrived a' hr' (by rw [settleSingle_live]; exact hl)⟩
    · obtain ⟨j, f, hf, hpc, hst, hpend, hslices, hview, -⟩ := hfused.fused p ((hnil p).mpr hp)
      rw [(hthere p).1] at hslices hview
      refine ⟨j, f, hf, hpc, hst, hpend, fun k => (hslices k).trans ?_, fusedView_cleared (hthere p).2 hview, trivial⟩
      rw [List.any_map]
      rfl
    · obtain ⟨f, p, hf, hpc, hp⟩ := hfused.live j hj
      exact ⟨f, p, hf, hpc, (hnil p).mp hp⟩
  · have hall := allRegang_of_live a hr
    unfold Group.afterChange
    rw [settleSingle_of_ne_one hone]
    have hfused := regangs_fused a hall
    exact ⟨⟨fun p hp => by
      obtain ⟨j, f, hf, hpc, hst, hpend, hslices, hview, -⟩ := hfused.fused p hp
      exact ⟨j, f, hf, hpc, hst, hpend, hslices, hview, trivial⟩, hfused.live⟩, regangs_not_arrived a hall⟩

/-! ## The end of the group -/

theorem barrier_teams (s : State) (c : Fin 256) (u : Nat) : (barrier s c u).teams = s.teams := by
  rcases barrier_eq s c u with ⟨-, e⟩ | ⟨-, e⟩
  · rw [e]; rfl
  · rw [e]

section
variable {u : Nat} {x : Team} (ht : h.g.team = some u) (hx : s.team? u = some x) (hl : h.g.live = [h.r.frag])
  (hheld : ∀ (j : Fin 8) (f : Frag), j ≠ h.r.frag → h.g.frags[j] = some f → f.held = .no)
include ht hx hl hheld

/-- The last fragment of a group has ended: the team goes on with its other groups, or ends. -/
theorem exitFrag_last : let t := notedState (exitState s h) h.r.core h.r.slot (h.settled s).exited x
    (¬ LastOf t h.r.core u → exitFrag s h = barrier t h.r.core u) ∧ (LastOf t h.r.core u → exitFrag s h = endTeam t u false false) := by
  intro t
  have hlive := exited_live (s := s) hl hheld
  have he : exitFrag s h = groupExit (exitState s h) h.r.core h.r.slot := by
    rw [exitFrag_eq]
    unfold settleGroup
    simp only [exitState_same, hlive, List.isEmpty_nil, if_true]
  have hteam : (overState (exitState s h) h.r.core h.r.slot (h.settled s).exited).team? u = some x := by
    unfold State.team?
    rw [overState_teams, exitState_teams]
    exact hx
  rw [he, groupExit_team exitState_same (exited_team.1.trans ht), hteam]
  have hany := any_live_iff t h.r.core u
  exact ⟨fun hn => if_pos (hany.mpr hn), fun hlast => if_neg fun hc => (hany.mp hc) hlast⟩

omit ht hx hl hheld in
/-- A group beside the one that has exited is there as it was. -/
theorem noted_presence {j : Fin 64} (hj : j ≠ h.r.slot) :
    ((notedState (exitState s h) h.r.core h.r.slot (h.settled s).exited x).group? h.r.core j).map Group.presence =
      (s.group? h.r.core j).map Group.presence :=
  (overState_presence _ _ _ hj).trans (congrArg _ (exitState_ne hj))

omit ht hx hl hheld in
theorem noted_lastOf (hlive : (h.settled s).exited.live = []) :
    LastOf (notedState (exitState s h) h.r.core h.r.slot (h.settled s).exited x) h.r.core u ↔
      ∀ (j : Fin 64) (g : Group), j ≠ h.r.slot → s.group? h.r.core j = some g → g.team = some u → g.live = [] := by
  have hpres (j : Fin 64) (hj : j ≠ h.r.slot) (a b : State)
      (e : (a.group? h.r.core j).map Group.presence = (b.group? h.r.core j).map Group.presence) (g : Group) (hg : a.group? h.r.core j = some g) :
      ∃ g', b.group? h.r.core j = some g' ∧ g'.team = g.team ∧ (g'.live = [] ↔ g.live = []) := by
    rw [hg, Option.map_some] at e
    cases hb : b.group? h.r.core j with
    | none => simp [hb] at e
    | some g' =>
      rw [hb, Option.map_some] at e
      have e := Option.some.inj e
      have hteam : g.team = g'.team := congrArg Prod.fst e
      have hempty : g.live.isEmpty = g'.live.isEmpty := congrArg Prod.snd e
      exact ⟨g', rfl, hteam.symm, by rw [← List.isEmpty_iff, ← List.isEmpty_iff, hempty]⟩
  constructor
  · intro hlast j g hj hg ht
    obtain ⟨g', hg', ht', hiff⟩ := hpres j hj _ _ (noted_presence (x := x) hj).symm g hg
    exact hiff.mp (hlast j g' hg' (ht'.trans ht))
  · intro hall j g hg ht
    by_cases hj : j = h.r.slot
    · subst hj
      have hsame : (notedState (exitState s h) h.r.core h.r.slot (h.settled s).exited x).group? h.r.core h.r.slot =
          some (h.settled s).exited.over := (setTeam_group? _ _ _ _).trans (overState_same _ _ _ _)
      rw [hsame] at hg
      cases hg
      rw [over_live, hlive]
    · obtain ⟨g', hg', ht', hiff⟩ := hpres j hj _ _ (noted_presence (x := x) hj) g hg
      exact hiff.mp (hall j g' hj hg' (ht'.trans ht))

/-- With another group of the team live, the group's registers are unmapped and the team notes that it has exited. -/
theorem exit_group (hother : ∃ (j : Fin 64) (g : Group), j ≠ h.r.slot ∧ s.group? h.r.core j = some g ∧ g.team = some u ∧ g.live ≠ []) :
    ∃ g y, (exitFrag s h).group? h.r.core h.r.slot = some g ∧ (∀ n, regGet g.v n = none) ∧ (exitFrag s h).team? u = some y ∧
      y.exited = x.exited ||| (1#32 <<< h.g.grpid) := by
  have hlive := exited_live (s := s) hl hheld
  obtain ⟨j, g, hj, hg, hgt, hgl⟩ := hother
  rw [(exitFrag_last ht hx hl hheld).1 fun hlast => hgl ((noted_lastOf hlive).mp hlast j g hj hg hgt)]
  have hsame : (notedState (exitState s h) h.r.core h.r.slot (h.settled s).exited x).group? h.r.core h.r.slot =
      some (h.settled s).exited.over := (setTeam_group? _ _ _ _).trans (overState_same _ _ _ _)
  have hteam : (overState (exitState s h) h.r.core h.r.slot (h.settled s).exited).team? u = some x := by
    unfold State.team?
    rw [overState_teams, exitState_teams]
    exact hx
  refine ⟨(h.settled s).exited.over, { x with exited := x.exited ||| (1#32 <<< (h.settled s).exited.grpid) }, ?_, over_v _, ?_, ?_⟩
  · rcases barrier_group? (notedState (exitState s h) h.r.core h.r.slot (h.settled s).exited x) h.r.core u h.r.slot with ⟨-, e⟩ | e
    · rw [e, hsame]
      unfold barSlot
      dsimp only
      rw [if_neg]
      rw [over_live, hlive]
      simp
    · exact e.trans hsame
  · rw [State.team?, barrier_teams]
    exact team?_setTeam hteam rfl
  · rw [exited_team.2]

/-- With no other group of the team live, the team ends. -/
theorem exit_team (hlast : ∀ (j : Fin 64) (g : Group), j ≠ h.r.slot → s.group? h.r.core j = some g → g.team = some u → g.live = []) :
    (exitFrag s h).team? u = none := by
  rw [(exitFrag_last ht hx hl hheld).2 ((noted_lastOf (exited_live hl hheld)).mpr hlast)]
  exact (endTeam_spec _ u false false).1

end
end

/-- Settles O36: the fragment's entry has exited whatever its group then becomes; the group is looked at without it, and goes on, fuses, or
exits with its team's others or alone. -/
theorem exit : Obligations.Exit := by
  unfold Obligations.Exit
  refine ⟨fun s h q => ?_, fun s h q => ⟨fun harr hw => ?_, fun hc => ?_⟩⟩
  · obtain ⟨-, -, hf, -⟩ := here?_spec q.here
    intro h1 others there runs hh h0 hd
    have hmem (j : Fin 8) (hj : j ∈ others) : j ∈ h.g.live ∧ j ≠ h.r.frag := by simpa [others] using hj
    -- with a live fragment that is not at `BAR` the group does not arrive
    have hends (j : Fin 8) (hj : j ∈ others) (f : Frag) (hfj : h.g.frags[j] = some f) (hb : f.status ≠ .waiting .bar) :
        exec .exit s = .next (exitFrag s h) := exec_exit_ends q (.inl (Bool.eq_false_iff.mpr fun hl => by
      obtain ⟨f', hf', hst⟩ := ((lastBeforeBar_iff h).mp hl).2 j (hmem j hj).1 (hmem j hj).2
      rw [hfj] at hf'
      cases hf'
      exact hb hst))
    refine ⟨?_, ?_, ?_⟩
    · rintro hlen ⟨j, hj, f, hfj, hw, hb⟩
      obtain ⟨g', hg, hrest⟩ := exit_goOn (s := s) hh hf ⟨h0, hd⟩ hlen hj hfj hw hb
      exact ⟨_, g', hends j hj f hfj hb, exitFrag_gone s h, hg, hrest⟩
    · rintro j hone ⟨f, hfj, hw, hb⟩
      obtain ⟨g', hg, hrest⟩ := exit_single (s := s) hh hf ⟨h0, hd⟩ hone hfj hw hb
      exact ⟨_, g', hends j (by rw [hone]; exact List.mem_singleton_self j) f hfj hb, exitFrag_gone s h, hg, hrest⟩
    · intro hne hall
      obtain ⟨j, hj⟩ := List.exists_mem_of_ne_nil _ hne
      obtain ⟨f, hfj, hst⟩ := hall j hj
      obtain ⟨hfused, harr⟩ := afterChange_fused (left_apart (s := s) hf ⟨h0, hd⟩) fun i hi => by
        rw [left_live] at hi
        obtain ⟨y, hy, hys⟩ := hall i hi
        exact ⟨y, (left_ne (hmem i hi).2).trans hy, hys⟩
      have hthere (p : DWord) : (h.settled s).left.thereAt p = there p := left_thereAt hf ⟨h0, hd⟩ p
      refine ⟨_, _, hends j hj f hfj (by rw [hst]; nofun), exitFrag_group hh hne (harr (by rw [left_live]; exact hne)), fun p hp => ?_, fun i hi => ?_⟩
      · obtain ⟨k, y, hy, hpc, hr, hpend, hsl, hview, -⟩ := hfused.fused p (by rw [hthere]; exact hp)
        rw [hthere] at hsl hview
        exact ⟨k, y, hy, hpc, hr, hpend, hsl, hview⟩
      · obtain ⟨y, p, hy, hpc, hp⟩ := hfused.live i hi
        exact ⟨y, p, hy, hpc, by rw [hthere] at hp; exact hp⟩
  · exact ⟨_, _, exec_exit_waits q ((lastBeforeBar_iff h).mpr harr) hw, waitsAt_put _ h .suspended []⟩
  · refine ⟨_, exec_exit_ends q (hc.imp_left fun hn => Bool.eq_false_iff.mpr fun hl => hn ((lastBeforeBar_iff h).mp hl)), exitFrag_gone s h, ?_⟩
    intro u x ht hx hl hheld
    exact ⟨exit_group ht hx hl hheld, exit_team ht hx hl hheld⟩

end Sys2Proof.Machine
end

section

/-! SUPPORT. Taking a trap (R194 to R203): the frame as it stands in memory, and the cases of a trap.
-/

namespace Sys2Proof.Machine

/-! ## Numbers in memory -/

@[simp] theorem toLe_length (x n : Nat) : (toLe x n).length = n := by
  induction n generalizing x with
  | zero => rfl
  | succ n ih => rw [toLe, List.length_cons, ih]

@[simp] theorem drop_toLe (x : Nat) {n k : Nat} (h : n ≤ k) : (toLe x n).drop k = [] := List.drop_eq_nil_of_le (by rw [toLe_length]; exact h)
@[simp] theorem take_toLe (x : Nat) {n k : Nat} (h : n ≤ k) : (toLe x n).take k = toLe x n := List.take_of_length_le (by rw [toLe_length]; exact h)

theorem leNat_toLe (x n : Nat) : leNat (toLe x n) = x % 256 ^ n := by
  induction n generalizing x with
  | zero => rw [Nat.pow_zero, Nat.mod_one]; rfl
  | succ n ih =>
    have hm : x % (256 * 256 ^ n) = x % 256 + 256 * (x / 256 % 256 ^ n) := Nat.mod_mul
    rw [toLe, leNat, ih, BitVec.toNat_ofNat, Nat.pow_succ' (m := 256), hm]

theorem leNat_append (a b : List Byte) : leNat (a ++ b) = leNat a + 256 ^ a.length * leNat b := by
  induction a with
  | nil => simp [leNat]
  | cons x a ih => rw [List.cons_append, leNat, ih, leNat, List.length_cons, Nat.pow_succ']; ring

/-- The bytes at an address read as a list. -/
def BytesAt (t : State) (a : Nat) (bs : List Byte) : Prop := ∀ i, i < bs.length → rawByte t (a + i) = bs.getD i 0#8

/-- A number that the device reads within such bytes. -/
theorem BytesAt.read {t : State} {a : Nat} {bs : List Byte} (h : BytesAt t a bs) (off n : Nat) (hn : off + n ≤ bs.length) :
    fwRead t (a + off) n = leNat ((bs.drop off).take n) := by
  refine congrArg leNat (List.ext_getElem (by simp [rawBytes]; omega) fun i h1 h2 => ?_)
  have hi : i < n := by simpa [rawBytes] using h1
  have hl : (rawBytes t (a + off) n)[i] = rawByte t (a + off + i) := by simp [rawBytes]
  rw [hl, Nat.add_assoc, h _ (by omega), List.getElem_take, List.getElem_drop, List.getD_eq_getElem _ _ (by omega)]

/-! ## Bytes that stand at their homes -/

/-- No core holds the byte, and it stands in memory. -/
structure StandsHome (t : State) (x : Nat) (b : Byte) : Prop where
  unregistered : tableFind t.registered x = none
  mem : t.memGet x = b

theorem StandsHome.raw {t : State} {x : Nat} {b : Byte} (h : StandsHome t x b) : rawByte t x = b := by
  simp [rawByte, State.heldByte, h.unregistered, h.mem]

theorem StandsHome.of_sources {s t : State} {x : Nat} {b : Byte} (h : StandsHome s x b) (e : t.sources = s.sources) : StandsHome t x b where
  unregistered := by have hr : t.registered = s.registered := congrArg (·.2.2.2.1) e
                     rw [hr]; exact h.unregistered
  mem := (SameByte.of_sources e x).mem.trans h.mem

theorem recallByte_unregisters {s : State} (hs : s.memOk) (a : Nat) : tableFind (recallByte s a).registered a = none := by
  unfold recallByte
  split
  · assumption
  · dsimp only
    rw [show ∀ (t : State) (c : Fin 256), (t.dropL1 c a).registered = t.registered from fun _ _ => rfl]
    split
    · exact (find_del a a hs.registered).trans (if_pos rfl)
    · exact (find_del a a hs.registered).trans (if_pos rfl)

theorem recallByte_keeps_unregistered {s : State} (hs : s.memOk) {a x : Nat} (hx : tableFind s.registered x = none) :
    tableFind (recallByte s a).registered x = none := by
  have hdel : tableFind (tableDel s.registered a) x = none := by rw [find_del a x hs.registered, hx, ite_self]
  unfold recallByte
  split
  · exact hx
  · dsimp only
    rw [show ∀ (t : State) (c : Fin 256), (t.dropL1 c a).registered = t.registered from fun _ _ => rfl]
    split
    · exact hdel
    · exact hdel

theorem standsHome_fwSetByte {s : State} (hs : s.memOk) (a : Nat) (b : Byte) : StandsHome (fwSetByte s a b) a b where
  unregistered := recallByte_unregisters hs a
  mem := (memGet_memSet (memOk_recallByte hs a) a a b).trans (if_pos rfl)

theorem StandsHome.fwSetByte {s : State} (hs : s.memOk) {a x : Nat} {b : Byte} (c : Byte) (h : StandsHome s x b) (e : x ≠ a) :
    StandsHome (fwSetByte s a c) x b where
  unregistered := recallByte_keeps_unregistered hs h.unregistered
  mem := (sameByte_fwSetByte hs c e).mem.trans h.mem

theorem standsHome_fwSetBytes {s : State} (hs : s.memOk) (a : Nat) (b : Nat → Byte) : ∀ (n i : Nat), i < n →
    StandsHome ((List.range n).foldl (fun s i => fwSetByte s (a + i) (b i)) s) (a + i) (b i)
  | n + 1, i, hi => by
    have hm : ((List.range n).foldl (fun s i => fwSetByte s (a + i) (b i)) s).memOk := memOk_foldl _ (fun _ _ h => memOk_fwSetByte h _ _) _ _ hs
    rw [List.range_succ, List.foldl_append, List.foldl_cons, List.foldl_nil]
    by_cases e : i = n
    · subst e; exact standsHome_fwSetByte hm _ _
    · exact (standsHome_fwSetBytes hs a b n i (by omega)).fwSetByte hm _ (by omega)

theorem standsHome_fwWrite {s : State} (hs : s.memOk) (a : Nat) (bs : List Byte) {i : Nat} (hi : i < bs.length) :
    StandsHome (fwWrite s a bs) (a + i) (bs.getD i 0#8) :=
  (standsHome_fwSetBytes hs a (fun i => bs.getD i 0#8) _ i hi).of_sources ((settlePoison_sources _ _ _).trans (noteDevice_sources _ _))

theorem StandsHome.dropBytes {s : State} {x : Nat} {b : Byte} (h : StandsHome s x b) (c : Fin 256) (a n : Nat) : StandsHome (dropBytes s c a n) x b :=
  List.foldlRecOn (motive := fun t => StandsHome t x b) _ _ h fun _ h _ _ => ⟨h.unregistered, h.mem⟩

theorem StandsHome.freeBytes {s : State} (hs : s.memOk) {x : Nat} {b : Byte} (h : StandsHome s x b) {a n : Nat} (hx : ¬(a ≤ x ∧ x < a + n)) :
    StandsHome (freeBytes s a n) x b where
  unregistered := List.foldlRecOn (motive := fun t : State => tableFind t.registered x = none) _ (fun s i => fwFreeByte s (a + i)) h.unregistered
    fun _ h _ _ => h
  mem := (sameByte_freeBytes hs a n hx).mem.trans h.mem

/-! ## The frame -/

theorem frameBytes_length (s : State) (h : Here) (w : Words) (x : TrapInfo) (p : Bool) : (frameBytes s h w x p).length = 64 := by
  simp [frameBytes]

section
variable {s : State} {h : Here} {c : Context} (w : Words) (x : TrapInfo) (hs : s.memOk) (hc : s.ctx? h.g.ctx = some c)
include hs hc

/-- The frame's first 64 bytes stand where R199 puts them. -/
theorem writeFrame_bytes : BytesAt (writeFrame s h w x) (frameAddr c h.r.core h.r.slot) (frameBytes s h w x c.preempt) := by
  intro i hi
  rw [frameBytes_length] at hi
  unfold writeFrame
  simp only [hc]
  have h1 := standsHome_fwWrite hs (frameAddr c h.r.core h.r.slot) (frameBytes s h w x c.preempt) (i := i) (by rw [frameBytes_length]; exact hi)
  have h2 := (h1.dropBytes h.r.core (frameAddr c h.r.core h.r.slot) 128).freeBytes
    (memOk_dropBytes (memOk_fwWrite hs _ _) _ _ _) (a := frameAddr c h.r.core h.r.slot + 64) (n := 64) (by omega)
  exact (h2.of_sources (settlePoison_sources _ _ _)).raw

/-- Outside the frame every byte is as it was. -/
theorem writeFrame_sameByte {a : Nat} (ha : ¬(frameAddr c h.r.core h.r.slot ≤ a ∧ a < frameAddr c h.r.core h.r.slot + 128)) :
    SameByte s (writeFrame s h w x) a := by
  unfold writeFrame
  simp only [hc]
  have m1 := memOk_fwWrite hs (frameAddr c h.r.core h.r.slot) (frameBytes s h w x c.preempt)
  have h1 := sameByte_fwWrite hs (frameAddr c h.r.core h.r.slot) (frameBytes s h w x c.preempt) (x := a) (by rw [frameBytes_length]; omega)
  have h2 := h1.trans (sameByte_dropBytes m1 h.r.core _ 128 ha)
  exact (h2.trans (sameByte_freeBytes (memOk_dropBytes m1 _ _ _) (frameAddr c h.r.core h.r.slot + 64) 64 (by omega))).trans (.of_sources (settlePoison_sources _ _ _) a)

end

/-- The fields that R200 lays out in a frame's bytes. -/
theorem frameAt_of_bytes {s t : State} {a : Nat} {h : Here} {w : Words} {x : TrapInfo} {p : Bool} (hb : BytesAt t a (frameBytes s h w x p)) :
    FrameAt t a h w x p (groupTime s h) := by
  have field (off n : Nat) (bs : List Byte) (hn : off + n ≤ 64) (e : ((frameBytes s h w x p).drop off).take n = bs) : fwRead t (a + off) n = leNat bs := by
    rw [hb.read off n (by rw [frameBytes_length]; exact hn), e]
  have one (b : Byte) : leNat [b] = b.toNat := by simp [leNat]
  have word (off : Nat) (v : Word) (hn : off + 4 ≤ 64) (e : ((frameBytes s h w x p).drop off).take 4 = toLe v.toNat 4) : fwRead t (a + off) 4 = v.toNat :=
    (field off 4 _ hn e).trans ((leNat_toLe _ _).trans (Nat.mod_eq_of_lt v.isLt))
  have dword (off : Nat) (v : DWord) (hn : off + 8 ≤ 64) (e : ((frameBytes s h w x p).drop off).take 8 = toLe v.toNat 8) : fwRead t (a + off) 8 = v.toNat :=
    (field off 8 _ hn e).trans ((leNat_toLe _ _).trans (Nat.mod_eq_of_lt v.isLt))
  constructor
  · exact (field 0 1 [x.cause] (by decide) (by simp [frameBytes])).trans (one _)
  · exact (field 1 1 [x.sub] (by decide) (by simp [frameBytes])).trans (one _)
  · have hflags : (if w.pfx.isSome then 1 else 0) + (if p then 8 else 0) < 256 ^ 2 := by
      cases p
      · cases w.pfx.isSome <;> decide
      · cases w.pfx.isSome <;> decide
    rw [field 2 2 (toLe ((if w.pfx.isSome then 1 else 0) + (if p then 8 else 0)) 2) (by decide) (by simp [frameBytes, List.drop_append]),
      leNat_toLe, Nat.mod_eq_of_lt hflags]
  · exact word 4 _ (by decide) (by simp [frameBytes])
  · rw [field 8 8 (toLe (x.addr.toNat % 2 ^ 56) 7 ++ [0#8]) (by decide) (by simp [frameBytes, List.drop_append, List.take_append]),
      leNat_append, leNat_toLe, one]
    exact Nat.mod_eq_of_lt (Nat.mod_lt _ (by decide))
  · exact word 16 _ (by decide) (by simp [frameBytes, List.drop_append])
  · exact word 20 _ (by decide) (by simp [frameBytes, List.drop_append])
  · exact dword 24 _ (by decide) (by simp [frameBytes, List.drop_append])
  · exact (field 32 1 [h.f.slices] (by decide) (by simp [frameBytes, List.drop_append])).trans (one _)
  · exact (field 33 1 [BitVec.ofNat 8 x.step] (by decide) (by simp [frameBytes, List.drop_append])).trans ((one _).trans (BitVec.toNat_ofNat _ _))
  · exact word 36 _ (by decide) (by simp [frameBytes, List.drop_append])
  · exact (field 40 8 (toLe _ 8) (by decide) (by simp [frameBytes, List.drop_append])).trans (leNat_toLe _ _)
  · exact dword 48 _ (by decide) (by simp [frameBytes, List.drop_append])

/-! ## Entering the handler -/

/-- A fragment put back changes no byte. -/
theorem Near.l1 {s t : State} {c : Fin 256} {sl : Vector (Option Group) 64} (n : Near s t c sl) (d : Fin 256) : (t.core d).l1 = (s.core d).l1 := by
  by_cases hd : d = c
  · subst hd
    obtain ⟨reuse, x, y, z, e⟩ := n.core
    rw [e]
  · obtain ⟨reuse, x, y, z, k, rfl⟩ := n
    exact congrArg Core.l1 (core_setCore_ne _ _ _ _ hd)

theorem Near.sameByte {s t : State} {c : Fin 256} {sl : Vector (Option Group) 64} (n : Near s t c sl) (x : Nat) : SameByte s t x := by
  have hl := n.l1
  obtain ⟨reuse, b, d, e, k, rfl⟩ := n
  refine ⟨?_, rfl, rfl⟩
  unfold State.heldByte
  simp only [hl]
  rfl

theorem sameByte_put (s : State) (h : Here) (x : Nat) : SameByte s (s.put h) x := (Near.refl s h.r.core).put.sameByte x

/-- The fragment that has entered the handler (R201). -/
def Here.entered (h : Here) (w : Words) (x : TrapInfo) (e : DWord) : Here :=
  { h with
    g := { h.g with
      reissue := if h.g.reissue = some h.r.frag then none else h.g.reissue
      handler := some ⟨h.r.frag, h.f.pc, w.pfx.isSome, h.f.view.rm, h.f.view.en, if x.step = 0 then h.f.resume else x.step, x.cause⟩ }
    f := { h.f with pc := e, status := .ready, resume := 0, ahead := [], passed := [], view := { h.f.view with en := 0#4 } } }

/-- Of the group nothing else changes. -/
theorem entered_group (h : Here) (w : Words) (x : TrapInfo) (e : DWord) :
    { (h.endEpoch.entered w x e).group with frags := h.g.frags, handler := h.g.handler, reissue := h.g.reissue, epoch := h.g.epoch } = h.g := rfl

theorem settled_time {s : State} {h : Here} {a : State × Here} (w : SettledFrom s h a) : a.1.timeAt h.r.core = s.timeAt h.r.core := by
  obtain ⟨o, n⟩ := w.near
  have hnow : a.1.now = s.now := by have e := congrArg State.now w.package; exact e
  have hskew : (a.1.core h.r.core).skew = (s.core h.r.core).skew := by have e := congrArg Core.skew n.only.core; exact e
  rw [State.timeAt, State.timeAt, hnow, hskew]

section
variable {s : State} {h : Here} {w : Words} {x : TrapInfo} {e : DWord} {c : Context}

/-- A handler is entered from the settled fragment. -/
theorem entered_spec (hs : s.memOk) (hc : s.ctx? h.g.ctx = some c) :
    ∃ h', EnteredHandler s (enterHandler (settleAll s h).1 (h.settled s).endEpoch w x e) (h.settled s) h' w x c e := by
  obtain ⟨hsettled, -⟩ := settleAll_spec s h
  have hspec := settled_spec s h
  have hctx : (h.settled s).g.ctx = h.g.ctx := by have e := congrArg Group.ctx hspec.group; exact e
  have hc' : (settleAll s h).1.ctx? ((h.settled s).endEpoch).g.ctx = some c := by
    show (settleAll s h).1.ctx? (h.settled s).g.ctx = some c
    have hcs : (settleAll s h).1.contexts = s.contexts := by have e := congrArg State.contexts hsettled.package; exact e
    rw [hctx, State.ctx?, hcs]
    exact hc
  have hm := memOk_settleAll hs h
  let k := (h.settled s).endEpoch.entered w x e
  refine ⟨⟨k.r, k.group, k.f⟩, ?_⟩
  constructor
  · exact at?_put _ k nofun
  · rfl
  · rfl
  · rfl
  · exact entered_group _ w x e
  · exact fun j hj => group_frags_ne k j hj
  · have hb := writeFrame_bytes w x hm hc'
    have hput : BytesAt (enterHandler (settleAll s h).1 (h.settled s).endEpoch w x e) (frameAddr c (h.settled s).r.core (h.settled s).r.slot)
        (frameBytes (settleAll s h).1 (h.settled s).endEpoch w x c.preempt) := fun i hi => (sameByte_put _ k _).raw.trans (hb i hi)
    have htime : groupTime (settleAll s h).1 (h.settled s).endEpoch = max (s.timeAt (h.settled s).r.core) (h.settled s).g.timeFloor := by
      show max ((settleAll s h).1.timeAt (h.settled s).r.core) _ = _
      rw [hspec.ref, settled_time hsettled]
      rfl
    have hframe := frameAt_of_bytes hput
    rw [htime] at hframe
    exact ⟨hframe.cause, hframe.sub, hframe.flags, hframe.mask, hframe.addr, hframe.word, hframe.pfx, hframe.pc, hframe.slices, hframe.step,
      hframe.lanes, hframe.time, hframe.aux⟩
  · intro a ha
    obtain ⟨o, n⟩ := hsettled.near
    exact (((n.sameByte a).trans (writeFrame_sameByte w x hm hc' ha)).trans (sameByte_put _ k a)).home

/-- A fragment that may trap into its group's handler, with nothing of the group's outstanding, enters it. -/
theorem takeTrap_enters {u : Nat} (ht : h.g.team = some u) (hh : h.g.handler = none) (he : trapEntry s h.g = some e)
    (hc : s.ctx? h.g.ctx = some c) (hs : s.memOk) (hr : GroupReleased s h) :
    ∃ h', EnteredHandler s (takeTrap s h w x) (h.settled s) h' w x c e := by
  have hstate : takeTrap s h w x = enterHandler (settleAll s h).1 (h.settled s).endEpoch w x e := by
    simp only [takeTrap, ht, Option.isNone_some, Bool.false_eq_true, if_false, hh, he, releaseWork_done (sc := .grp) (.inl rfl) hr, if_true]
    rfl
  rw [hstate]
  exact entered_spec hs hc

/-- With something outstanding it waits. -/
theorem takeTrap_waits {u : Nat} (ht : h.g.team = some u) (hh : h.g.handler = none) (he : trapEntry s h.g = some e) (hw : GroupWaits s h) :
    takeTrap s h w x = (releaseWork s h .grp).1.put (h.wait .suspended) := by
  have hr : (releaseWork s h .grp).2 = false := releaseWork_waits (.inl rfl) hw
  simp only [takeTrap, ht, Option.isNone_some, Bool.false_eq_true, if_false, hh, he, hr]

/-! ## The other outcomes -/

theorem endByTrap_gone {u : Nat} (ht : h.g.team = some u) (hu : (s.team? u).isSome = true) (a b : Byte) : (endByTrap s h a b).team? u = none := by
  obtain ⟨y, hy⟩ := Option.isSome_iff_exists.mp hu
  simp only [endByTrap, ht, hy]
  exact (endTeam_spec _ u true false).1

theorem takeTrap_ends_own {u : Nat} {d : Handler} (ht : h.g.team = some u) (hd : h.g.handler = some d) (hf : d.frag = h.r.frag)
    (hu : (s.team? u).isSome = true) : (takeTrap s h w x).team? u = none := by
  simp only [takeTrap, ht, Option.isNone_some, Bool.false_eq_true, if_false, hd, hf, if_true]
  exact endByTrap_gone ht hu _ _

theorem takeTrap_ends_noEntry {u : Nat} (ht : h.g.team = some u) (hh : h.g.handler = none) (he : trapEntry s h.g = none)
    (hu : (s.team? u).isSome = true) : (takeTrap s h w x).team? u = none := by
  simp only [takeTrap, ht, Option.isNone_some, Bool.false_eq_true, if_false, hh, he]
  obtain ⟨hsettled, -⟩ := settleAll_spec (releaseWork s h .grp).1 h
  refine endByTrap_gone (hsettled.here.team.trans ht) ?_ _ _
  have hteams : (settleAll (releaseWork s h .grp).1 h).1.teams = (releaseWork s h .grp).1.teams := by
    have e := congrArg State.teams hsettled.package; exact e
  have hput : (writeFrame ((settleAll (releaseWork s h .grp).1 h).1.put (settleAll (releaseWork s h .grp).1 h).2.endEpoch)
      (settleAll (releaseWork s h .grp).1 h).2.endEpoch w x).teams = s.teams :=
    (work_teams (writeFrame_work _ _ _ _)).trans (hteams.trans (work_teams (releaseWork_work s h (.inl rfl))))
  rw [State.team?, hput]
  exact hu

/-- The fragment while another's handler runs. -/
def Here.stopped (h : Here) : Here :=
  { h with
    g := { h.g with reissue := if h.g.reissue = some h.r.frag then none else h.g.reissue }
    f := { h.f with held := .stopped, status := .ready, ahead := [], passed := [] } }

/-- Another fragment's handler holds the fragment. -/
theorem takeTrap_held {u : Nat} {d : Handler} (ht : h.g.team = some u) (hd : h.g.handler = some d) (hf : d.frag ≠ h.r.frag) :
    ∃ h', (takeTrap s h w x).at? h.r = some h' ∧ h'.f = { h.f with held := .stopped, status := .ready, ahead := [], passed := [] } ∧
      OnlyGroup s (takeTrap s h w x) h.r := by
  have hstate : takeTrap s h w x = s.put h.stopped := by
    unfold takeTrap
    rw [if_neg (by rw [ht]; nofun)]
    split
    · next d' hd' =>
      cases hd.symm.trans hd'
      exact if_neg hf
    · next hn => cases hd.symm.trans hn
  rw [hstate]
  exact ⟨_, at?_put s h.stopped nofun, rfl, ((Near.refl s h.r.core).put_at (h := h.stopped) rfl).only⟩

theorem launch?_setLaunch {i : Nat} {l y : Launch} (hl : s.launch? i = some l) (e : y.id = l.id) : (s.setLaunch y).launch? i = some y := by
  have hi : l.id = i := by simpa using List.find?_some hl
  unfold State.launch? State.setLaunch at *
  dsimp only
  rw [List.find?_map]
  have hp : ((fun l : Launch => l.id == i) ∘ fun z => if z.id = y.id then y else z) = fun l => l.id == i := by
    funext z
    simp only [Function.comp]
    split
    · next hz => rw [hz]
    · rfl
  rw [hp, hl, Option.map_some, if_pos e.symm]

/-- A leap-program group's slot is free and its launch has stopped. -/
theorem takeTrap_leap (ht : h.g.team = none) : (takeTrap s h w x).group? h.r.core h.r.slot = none ∧
    ∀ l, s.launch? h.g.launch = some l → ∃ y, (takeTrap s h w x).launch? h.g.launch = some y ∧ y.stopped = true := by
  simp only [takeTrap, ht, Option.isNone_none, if_true]
  refine ⟨clearSlot_group? _ _ _, fun l hl => ⟨{ l with stopped := true }, ?_, rfl⟩⟩
  simp only [stopLeap, hl]
  exact launch?_setLaunch hl rfl

end

/-- Settles O37, by the cases of taking a trap. -/
theorem takingATrap : Obligations.TakingATrap := by
  unfold Obligations.TakingATrap
  intro s h w x hat
  refine ⟨takeTrap_leap, fun u ht => ⟨fun d => takeTrap_held ht, fun d => takeTrap_ends_own ht, takeTrap_ends_noEntry ht, ?_, ?_⟩⟩
  · exact fun e c hh he hc hs hr => takeTrap_enters ht hh he hc hs hr
  · intro e hh he hw
    rw [takeTrap_waits ht hh he hw]
    exact ⟨_, waitsAt_put _ h .suspended h.f.passed⟩

end Sys2Proof.Machine
end

section

/-! SUPPORT. `TRAP` and `BRK` (R205), and the role check of every word (R21, R22): the class of an encoded word is the class that its
execution is checked against.
-/

namespace Sys2Proof.Machine

/-! ## The class of an encoded word -/

theorem toNat_append_add {n m : Nat} (x : BitVec n) (y : BitVec m) : (x ++ y).toNat = x.toNat * 2 ^ m + y.toNat := by
  rw [BitVec.toNat_append, ← Nat.shiftLeft_add_eq_or_of_lt y.isLt, Nat.shiftLeft_eq]

/-- The leading bits of a word are those of what it begins with. -/
theorem append_div {n m : Nat} (x : BitVec n) (y : BitVec m) (k : Nat) : (x ++ y).toNat / 2 ^ (m + k) = x.toNat / 2 ^ k := by
  rw [toNat_append_add, Nat.pow_add, ← Nat.div_div_eq_div_mul, Nat.add_comm, Nat.add_mul_div_right _ _ (Nat.two_pow_pos m),
    Nat.div_eq_of_lt y.isLt, Nat.zero_add]

/-- The class of a lane word, by its operation. -/
def laneClass (lop : Nat) : RoleClass := if lop = 30 ∨ lop = 31 then .padMove else .lane

/-- The class of a uniform word, by its operation. -/
def uniClass (gop : Nat) : RoleClass := if 64 ≤ gop ∧ gop ≤ 71 then .copy else if 80 ≤ gop ∧ gop ≤ 88 then .matrix else .control

theorem wordClass_of_lane {w : Word} {lop : BitVec 6} (h : w.toNat / 2 ^ 25 = lop.toNat) : wordClass w = laneClass lop.toNat := by
  have hm : w.msb = false := by
    rw [BitVec.msb_eq_decide]
    have := lop.isLt
    exact decide_eq_false (by omega)
  have hl : (w.extractLsb' 25 6).toNat = lop.toNat := by
    have := lop.isLt
    rw [BitVec.extractLsb'_toNat, Nat.shiftRight_eq_div_pow, h, Nat.mod_eq_of_lt this]
  simp only [wordClass, hm, hl, Bool.false_eq_true, if_false, laneClass]

theorem wordClass_of_uni {w : Word} {gop : BitVec 7} (h : w.toNat / 2 ^ 24 = 128 + gop.toNat) : wordClass w = uniClass gop.toNat := by
  have hm : w.msb = true := by
    rw [BitVec.msb_eq_decide]
    exact decide_eq_true (by omega)
  have hg : (w.extractLsb' 24 7).toNat = gop.toNat := by
    have := gop.isLt
    rw [BitVec.extractLsb'_toNat, Nat.shiftRight_eq_div_pow, h, Nat.add_mod_left (x := 128), Nat.mod_eq_of_lt this]
  simp only [wordClass, hm, hg, if_true, uniClass]

theorem lane_lead (lop : BitVec 6) : (0#1 ++ lop).toNat / 2 ^ 0 = lop.toNat := by
  rw [toNat_append_add]; simp

theorem uni_lead (gop : BitVec 7) : (1#1 ++ gop).toNat / 2 ^ 0 = 128 + gop.toNat := by
  rw [toNat_append_add]; simp

section
variable {p q : Option Payload} {w : Word} {lop : BitVec 6} {gop : BitVec 7}

theorem class_lr {k : KReg} {c : Bool} {f : BitVec 3} {d a b : Reg} (e : some (q, lrWord lop k c f d a b) = some (p, w)) :
    wordClass w = laneClass lop.toNat := by
  cases e
  exact wordClass_of_lane ((append_div _ b 19).trans ((append_div _ a 13).trans ((append_div _ d 7).trans ((append_div _ f 4).trans
    ((append_div _ (one c) 3).trans ((append_div _ k 0).trans (lane_lead lop)))))))

theorem class_li {k : KReg} {c : Bool} {d a : Reg} {imm : BitVec 9} (e : some (q, liWord lop k c d a imm) = some (p, w)) :
    wordClass w = laneClass lop.toNat := by
  cases e
  exact wordClass_of_lane ((append_div _ imm 16).trans ((append_div _ a 10).trans ((append_div _ d 4).trans ((append_div _ (one c) 3).trans
    ((append_div _ k 0).trans (lane_lead lop))))))

theorem class_ll {k : KReg} {la : BitVec 4} {d a b : Reg} (e : some (q, llWord lop k la d a b) = some (p, w)) :
    wordClass w = laneClass lop.toNat := by
  cases e
  exact wordClass_of_lane ((append_div _ b 19).trans ((append_div _ a 13).trans ((append_div _ d 7).trans ((append_div _ la 3).trans
    ((append_div _ k 0).trans (lane_lead lop))))))

theorem class_lp {k : BitVec 2} {s : Bool} {t : BitVec 4} {d a b : Reg} (e : some (q, lpWord lop k s t d a b) = some (p, w)) :
    wordClass w = laneClass lop.toNat := by
  cases e
  exact wordClass_of_lane ((append_div _ b 19).trans ((append_div _ a 13).trans ((append_div _ d 7).trans ((append_div _ t 3).trans
    ((append_div _ (one s) 2).trans ((append_div _ k 0).trans (lane_lead lop)))))))

theorem class_gr {d a b f : BitVec 6} (e : some (q, grWord gop d a b f) = some (p, w)) : wordClass w = uniClass gop.toNat := by
  cases e
  exact wordClass_of_uni ((append_div _ f 18).trans ((append_div _ b 12).trans ((append_div _ a 6).trans ((append_div _ d 0).trans (uni_lead gop)))))

theorem class_gi {d a : Reg} {imm : BitVec 12} (e : some (q, giWord gop d a imm) = some (p, w)) : wordClass w = uniClass gop.toNat := by
  cases e
  exact wordClass_of_uni ((append_div _ imm 12).trans ((append_div _ a 6).trans ((append_div _ d 0).trans (uni_lead gop))))

theorem class_gj {c : BitVec 4} {off : BitVec 20} (e : some (q, 1#1 ++ gop ++ c ++ off) = some (p, w)) : wordClass w = uniClass gop.toNat := by
  cases e
  exact wordClass_of_uni ((append_div _ off 4).trans ((append_div _ c 0).trans (uni_lead gop)))

theorem class_gm {kd ka kb : KReg} {f : BitVec 3} {x : Reg} {imm : BitVec 6} (e : some (q, 1#1 ++ gop ++ kd ++ ka ++ kb ++ f ++ x ++ imm) = some (p, w)) :
    wordClass w = uniClass gop.toNat := by
  cases e
  exact wordClass_of_uni ((append_div _ imm 18).trans ((append_div _ x 12).trans ((append_div _ f 9).trans ((append_div _ kb 6).trans
    ((append_div _ ka 3).trans ((append_div _ kd 0).trans (uni_lead gop)))))))

theorem class_gl {la : BitVec 4} {d : Reg} {r : BitVec 5} {imm : BitVec 9} (e : some (q, glWord gop la d r imm) = some (p, w)) :
    wordClass w = uniClass gop.toNat := by
  cases e
  exact wordClass_of_uni ((append_div _ imm 15).trans ((append_div _ r 10).trans ((append_div _ d 4).trans ((append_div _ la 0).trans (uni_lead gop)))))

theorem class_ga {f : BitVec 4} {r : BitVec 5} {a b : Reg} {imm : BitVec 3} (e : some (q, 1#1 ++ gop ++ f ++ r ++ a ++ b ++ imm) = some (p, w)) :
    wordClass w = uniClass gop.toNat := by
  cases e
  exact wordClass_of_uni ((append_div _ imm 21).trans ((append_div _ b 15).trans ((append_div _ a 9).trans ((append_div _ r 4).trans
    ((append_div _ f 0).trans (uni_lead gop))))))

theorem class_none (e : some (q, 1#1 ++ gop ++ 0#24) = some (p, w)) : wordClass w = uniClass gop.toNat := by
  cases e
  exact wordClass_of_uni ((append_div _ 0#24 0).trans (uni_lead gop))

theorem class_kill {b : Reg} {m : BitVec 16} (e : some (q, 1#1 ++ gop ++ b ++ 0#2 ++ m) = some (p, w)) : wordClass w = uniClass gop.toNat := by
  cases e
  exact wordClass_of_uni ((append_div _ m 8).trans ((append_div _ 0#2 6).trans ((append_div _ b 0).trans (uni_lead gop))))

theorem class_mloop {sl : BitVec 3} {vs : Reg} {sel : BitVec 4} {n : BitVec 8} (e : some (q, 1#1 ++ gop ++ sl ++ vs ++ 0#3 ++ sel ++ n) = some (p, w)) :
    wordClass w = uniClass gop.toNat := by
  cases e
  exact wordClass_of_uni ((append_div _ n 16).trans ((append_div _ sel 12).trans ((append_div _ 0#3 9).trans ((append_div _ vs 3).trans
    ((append_div _ sl 0).trans (uni_lead gop))))))

end

/-! ## The role check of every word -/

/-- An instruction runs on the issuing fragment, checked against a class. -/
def CheckedAs (i : Instr) (s : State) (cl : RoleClass) : Prop := ∃ f, exec i s = onFragment s i cl f

theorem checked_of {i : Instr} {s : State} {w : Word} {cl : RoleClass} (hw : wordClass w = cl) (c : CheckedAs i s cl) : CheckedAs i s (wordClass w) := by
  rw [hw]; exact c

/-- Every word's instruction is checked against the word's class. -/
theorem exec_checked {i : Instr} {p : Option Payload} {w : Word} (e : encode i = some (p, w)) (s : State) : CheckedAs i s (wordClass w) := by
  cases i with
  | iadd | iaddc | isub | isubb | iabs | ineg | imin | imax | iminu | imaxu | iand | ior | ixor | iandn | inot | imov | ishl | ishr | isra
  | irot | iclz | ipopc | ibrev | ibyte | imul | imulh | imulhu | imad | icmp | icmpu | isel | ibfe | ibfeu | ibfi | fadd | fsub | fmul
  | fma | fms | fnma | fmin | fmax | fabs | fneg | fcmp | fclass | fmas | frnd | fsel | fcpys | cvtfi | cvtfn | cvtif | cvtnf | cvtfh
  | cvthf | cvtfb | cvtbf | atomg | atomp | xshfl | xgather | xvote | xred | xscan | xscane | xsegred | xsegscan | xisect | qpush | qpop
  | qlen | emit | redg | xchgg | casg | xchgp | casp => exact checked_of (cl := .lane) (class_lr e) ⟨_, rfl⟩
  | iaddi | iandi | iori | ixori | ishli | ishri | israi | imovi => exact checked_of (cl := .lane) (class_li e) ⟨_, rfl⟩
  | fdiv | fsqrt | frcp | frsq | fexp2 | flog2 | fsin | fcos | ftanh | fsigm | idiv | idivu | irem | iremu | mvt | ldg | ldgs | stg | ldff
  | ldc => exact checked_of (cl := .lane) (class_ll e) ⟨_, rfl⟩
  | ldp | stp => exact checked_of (cl := .padMove) (class_ll e) ⟨_, rfl⟩
  | padd | psub | pmul | pfma | pmin | pmax | pabs | pavg | pcmpeq | pcmplt | pdot | pcvt | psad | pmov => exact checked_of (cl := .lane) (class_lp e) ⟨_, rfl⟩
  | sadd | saddc | ssub | ssubb | sand | sor | sxor | sandn | sshl | sshr | ssra | smul | smulh | smulhu | smin | smax | sminu | smaxu
  | sclz | spopc | smov | scmp | scmpu | ssel | sadd64 | ssub64 | smov64 | sshl64 | scmp64 | rteRetry | rteSkip | fence | acq | rel | frz
  | thw | fwait | publish | tsub => exact checked_of (cl := .control) (class_gr e) ⟨_, rfl⟩
  | saddi | sandi | sori | sxori | sshli | sshri | smovi | scmpi | loop | trap | brk | win | setpart | srd | swr => exact checked_of (cl := .control) (class_gi e) ⟨_, rfl⟩
  | mpass | mzero | mrd | mwr | midx | midxOff => exact checked_of (cl := .matrix) (class_gi e) ⟨_, rfl⟩
  | bc | bmz | bmnz | call => exact checked_of (cl := .control) (class_gj e) ⟨_, rfl⟩
  | ret | regang | exit | nop | bar => exact checked_of (cl := .control) (class_none e) ⟨_, rfl⟩
  | mown | mrel => exact checked_of (cl := .matrix) (class_none e) ⟨_, rfl⟩
  | kand | kor | kxor | kandn | knot | kmov | ktos | kpop | kffs | kset => exact checked_of (cl := .control) (class_gm e) ⟨_, rfl⟩
  | kill => exact checked_of (cl := .control) (class_kill e) ⟨_, rfl⟩
  | sld | sst | sldc | acqr | rels => exact checked_of (cl := .control) (class_gl e) ⟨_, rfl⟩
  | mshape => exact checked_of (cl := .matrix) (class_gl e) ⟨_, rfl⟩
  | cpy | cpy2d | cpyg | cpyo | closeb | waitb | raf | rafg => exact checked_of (cl := .copy) (class_ga e) ⟨_, rfl⟩
  | sarrive | swait => exact checked_of (cl := .control) (class_ga e) ⟨_, rfl⟩
  | mloop => exact checked_of (cl := .matrix) (class_mloop e) ⟨_, rfl⟩
  | ctxCreate | ctxDestroy | map | mapShadow | mapRemoteWindow | unmap | unmapShadow | read | write | moduleLoad | launch | taskSubmit
  | preemptRequest | preemptHalt | preemptResumeHalt | preemptResumePark | journalRead | leapRead | leapWrite | leapPin | leapUnpin
  | leapDiscard | setLease | biasSet | attest | fwInfo | unsupportedPacket | resultArrival | teamPlacement | teamMigration | launchDone
  | emitRecordArrival | nodeTimerExpiry | timeSliceExpiry | deadlineExpiry | copyComplete | freezePoint | thawComplete | writeComplete
  | publishPoint | redgApply | promotionRequest | l1Eviction | mloopStep | lineFetch | stallSample | eccError | syncLoss | syncRestored
  | droopSlowdown | droopRecovery | powerOn | powerLoss | biasTransitionEnd | teamMoveArrival | remoteAccessArrival => cases e

/-- A word that its group's role does not allow traps `ROLE`. -/
theorem exec_role {i : Instr} {s : State} {h : Here} {cl : RoleClass} (c : CheckedAs i s cl) (hh : s.here? = some h)
    (ht : h.g.team.isSome = true) (hr : roleAllows h.g.role cl = false) : exec i s = .next (plainTrap s h i cRole 0#8) := by
  obtain ⟨f, e⟩ := c
  rw [e, onFragment]
  have hn : h.g.team.isNone = false := by rw [← Option.not_isSome, ht]; rfl
  simp only [hh, hn, Bool.false_and, Bool.false_eq_true, if_false, hr]

/-- The words of a GI form without registers, whose immediate is one byte. -/
theorem giWord_byte (gop : BitVec 7) (code : Byte) : giWord gop 0#6 0#6 (0#4 ++ code) = 1#1 ++ gop ++ 0#16 ++ code := by
  refine BitVec.eq_of_toNat_eq ?_
  simp only [giWord, toNat_append_add, BitVec.toNat_ofNat]
  omega

theorem wordsOf_trap (code : Byte) : wordsOf (.trap code) = ⟨0x99#8 ++ 0#16 ++ code, none⟩ := by
  show Words.mk (giWord 0x19#7 0#6 0#6 (0#4 ++ code)) none = _
  rw [giWord_byte]
  rfl

theorem wordsOf_brk (code : Byte) : wordsOf (.brk code) = ⟨0x9B#8 ++ 0#16 ++ code, none⟩ := by
  show Words.mk (giWord 0x1B#7 0#6 0#6 (0#4 ++ code)) none = _
  rw [giWord_byte]
  rfl

theorem exec_trap {code : Byte} {s : State} {h : Here} (q : Issues s h (.trap code) .control) :
    exec (.trap code) s = .next (takeTrap s h ⟨0x99#8 ++ 0#16 ++ code, none⟩ ⟨0x40#8, code, h.lanes, 0#64, 0#64, 0⟩) := by
  rw [← wordsOf_trap]
  exact onFragment_issues q _

theorem exec_brk {code : Byte} {s : State} {h : Here} (q : Issues s h (.brk code) .control) :
    exec (.brk code) s = .next (takeTrap s h ⟨0x9B#8 ++ 0#16 ++ code, none⟩ ⟨0x41#8, code, h.lanes, 0#64, 0#64, 0⟩) := by
  rw [← wordsOf_brk]
  exact onFragment_issues q _

/-- Settles O38: the traps of `TRAP` and `BRK` are taken as O37 says, and every word is checked against its class. -/
theorem trapInstructions : Obligations.TrapInstructions := by
  unfold Obligations.TrapInstructions
  refine ⟨fun code s h q hq qi => ?_, by decide, fun i p w s h he hh ht hr => exec_role (exec_checked he s) hh ht hr⟩
  have hexec : exec q.1 s = .next (takeTrap s h ⟨q.2.1, none⟩ ⟨q.2.2, code, h.lanes, 0#64, 0#64, 0⟩) := by
    rcases List.mem_cons.mp hq with rfl | hq
    · exact exec_trap qi
    · cases List.mem_singleton.mp hq
      exact exec_brk qi
  refine ⟨hexec, fun u e c ht hh he hc hs hr => ?_⟩
  obtain ⟨h', hent⟩ := takeTrap_enters ht hh he hc hs hr
  exact ⟨_, h', hexec, hent⟩

end Sys2Proof.Machine
end

section

/-! SUPPORT. Cross-lane instructions that write some of their lanes (R37, R236): once its codes are written, an instruction's registers are
those of one that is active only in the lanes that it writes.
-/

namespace Sys2Proof.Machine

/-! ## Codes written twice -/

theorem Here.eq_of_parts {a b : Here} (hr : a.r = b.r) (hg : a.g = b.g) (hf : a.f = b.f) : a = b := by
  cases a; cases b; cases hr; cases hg; cases hf; rfl

theorem LaneCC.eq_of_parts {a b : LaneCC} (hc : a.c = b.c) (hz : a.z = b.z) (hn : a.n = b.n) (hv : a.v = b.v) : a = b := by
  cases a; cases b; cases hc; cases hz; cases hn; cases hv; rfl

theorem coded_pending (h : Here) (ex : LaneMask) (r : LaneResult) :
    (h.coded ex r).f.pending = if r.codes.z then dropZ h.f.pending ex else h.f.pending := by
  have hset : (h.setCC ex (if r.codes.c then some r.cc.c else none) (if r.codes.z then some r.cc.z else none)
      (if r.codes.n then some r.cc.n else none) (if r.codes.v then some r.cc.v else none)).f.pending =
      if r.codes.z then dropZ h.f.pending ex else h.f.pending := by
    unfold Here.setCC
    cases r.codes.z
    · rfl
    · rfl
  unfold Here.coded
  cases r.e with
  | none => exact hset
  | some e => exact (note_pending _ _).trans hset

theorem coded_written (h : Here) (ex : LaneMask) (r : LaneResult) : (h.coded ex r).f.written =
    if r.e.isSome then (h.note { Written.empty with scc := true }).f.written else h.f.written := by
  unfold Here.coded
  cases r.e with
  | none => rfl
  | some e =>
    show (Here.note _ _).f.written = _
    unfold Here.note
    rw [show ((h.setCC ex (if r.codes.c then some r.cc.c else none) (if r.codes.z then some r.cc.z else none)
      (if r.codes.n then some r.cc.n else none) (if r.codes.v then some r.cc.v else none)).raise r.flags).g.single = h.g.single from rfl]
    split
    · rfl
    · rfl

/-- What a fragment has noted twice it has noted. -/
theorem note_scc_again {h k : Here} (hs : k.g.single = h.g.single) (hw : k.f.written = (h.note { Written.empty with scc := true }).f.written) :
    (k.note { Written.empty with scc := true }).f.written = (h.note { Written.empty with scc := true }).f.written := by
  unfold Here.note at hw ⊢
  rw [hs]
  split
  · next h1 => rw [hw, if_pos h1]
  · next h1 =>
    rw [if_neg h1] at hw
    simp only [hw, Written.empty, Bool.or_true, Bool.or_false, BitVec.or_zero]

theorem dropZ_dropZ {ps : List Pending} {m ex : LaneMask} (hm : ∀ l : Fin 32, m.getLsbD l.val = true → ex.getLsbD l.val = true) :
    dropZ (dropZ ps ex) m = dropZ ps ex := by
  by_cases h0 : ex = 0#32
  · have : m = 0#32 := laneMask_ext fun l => by
      cases hl : m.getLsbD l.val with
      | false => simp
      | true => simpa [h0] using hm l hl
    rw [this]
    simp [dropZ]
  · simp [dropZ, h0]

section
variable {h : Here} {ex : LaneMask} {r : LaneResult} (hm : ∀ l : Fin 32, r.mask.getLsbD l.val = true → ex.getLsbD l.val = true)
include hm

/-- Codes written once more in some of the lanes are as they were. -/
theorem coded_coded : (h.coded ex r).coded r.mask r = h.coded ex r := by
  obtain ⟨lw, hg⟩ := coded_spec h ex r
  obtain ⟨lw', hg'⟩ := coded_spec (h.coded ex r) r.mask r
  have hscc : (h.coded ex r).sccAfter r = h.sccAfter r := by
    unfold Here.sccAfter
    rw [lw.view]
    unfold Here.sccAfter
    cases r.e with
    | none => rfl
    | some e => rfl
  have hcc : ((h.coded ex r).coded r.mask r).g.cc = (h.coded ex r).g.cc := by
    have hbit (l : Fin 32) (b : Bool) (x o : Bool) : (if b && r.mask.getLsbD l.val then x else if b && ex.getLsbD l.val then x else o) =
        if b && ex.getLsbD l.val then x else o := by
      cases hl : r.mask.getLsbD l.val with
      | false => simp
      | true =>
        rw [hm l hl]
        cases b
        · rfl
        · rfl
    have hbits (l : Fin 32) := And.intro (coded_cc (h.coded ex r) r.mask r l) (coded_cc h ex r l)
    refine LaneCC.eq_of_parts ?_ ?_ ?_ ?_
    · exact laneMask_ext fun l => by obtain ⟨⟨e, -, -, -⟩, e', -, -, -⟩ := hbits l; rw [e, e']; exact hbit l _ _ _
    · exact laneMask_ext fun l => by obtain ⟨⟨-, e, -, -⟩, -, e', -, -⟩ := hbits l; rw [e, e']; exact hbit l _ _ _
    · exact laneMask_ext fun l => by obtain ⟨⟨-, -, e, -⟩, -, -, e', -⟩ := hbits l; rw [e, e']; exact hbit l _ _ _
    · exact laneMask_ext fun l => by obtain ⟨⟨-, -, -, e⟩, -, -, -, e'⟩ := hbits l; rw [e, e']; exact hbit l _ _ _
  have hsticky : (h.coded ex r).g.sticky ||| r.flags = (h.coded ex r).g.sticky := by
    rw [hg]
    show h.g.sticky ||| r.flags ||| r.flags = _
    rw [BitVec.or_assoc, BitVec.or_self]
  have hgroup : ((h.coded ex r).coded r.mask r).g = (h.coded ex r).g := by rw [hg', hcc, hsticky]
  have hpend : ((h.coded ex r).coded r.mask r).f.pending = (h.coded ex r).f.pending := by
    rw [coded_pending, coded_pending h]
    split
    · exact dropZ_dropZ hm
    · rfl
  have hwritten : ((h.coded ex r).coded r.mask r).f.written = (h.coded ex r).f.written := by
    rw [coded_written]
    split
    · next he =>
      have hw := coded_written h ex r
      rw [if_pos he] at hw
      rw [note_scc_again (by rw [hg]; rfl) hw, hw]
    · rfl
  have hview : ((h.coded ex r).coded r.mask r).f.view = (h.coded ex r).f.view := by rw [lw'.view, hscc, lw.view]
  have hfrag : ((h.coded ex r).coded r.mask r).f = (h.coded ex r).f := by
    refine Eq.trans (b := { ((h.coded ex r).coded r.mask r).f with
      pending := (h.coded ex r).f.pending, view := (h.coded ex r).f.view, written := (h.coded ex r).f.written }) ?_ lw'.frag
    rw [← hpend, ← hview, ← hwritten]
  exact Here.eq_of_parts lw'.ref hgroup hfrag

end

/-- The commit of an instruction with registers as its destination and no window. -/
theorem commitLane_regs (t : State) (k : Here) (sh : LaneShape) (ex : LaneMask) (r : LaneResult) {d : Reg} {n : Nat} (hd : sh.d = .regs d n)
    (hla : sh.la = none) (key : Option ReuseKey) : commitLane t k sh ex r key =
      let a := writeDst t (k.coded ex r) (.regs d n) r
      (next (match key with
        | some key => addEntry (a.1.put a.2) k.r.core key (a.2.results (regsFrom d n)) (if r.codes = codesNone then none else some a.2.g.cc) r.flags
        | none => a.1) a.2 sh.i).evictNames k.r.core := by
  unfold commitLane
  simp only [hd, hla]
  rfl

/-- Once its codes are written, such a commit is that of an instruction active only in the lanes that it writes. -/
theorem commitLane_coded (t : State) {h : Here} (sh : LaneShape) {ex : LaneMask} {r : LaneResult} {d : Reg} {n : Nat} (hd : sh.d = .regs d n)
    (hla : sh.la = none) (hm : ∀ l : Fin 32, r.mask.getLsbD l.val = true → ex.getLsbD l.val = true) (key : Option ReuseKey) :
    commitLane t h sh ex r key = commitLane t (h.coded ex r) sh r.mask r key := by
  rw [commitLane_regs t h sh ex r hd hla, commitLane_regs t _ sh r.mask r hd hla, coded_coded hm, (coded_spec h ex r).1.ref]

/-! ## The run of a cross-lane instruction -/

/-- From where its codes are written, what a commit leaves is seen from where it issued. -/
theorem LaneDone.cross {s t : State} {h h' : Here} {i : Instr} {m ex : LaneMask} {d : Reg} {r : LaneResult} {val : Fin 32 → Word}
    {out : Fin 32 → LaneOut} {scc : ScalarCC} (q : LaneDone s t (h.coded ex r) h' i m (.regs d 1) r.codes (fun l _ => val l) out scc)
    (hm : ∀ l : Fin 32, m.getLsbD l.val = true → ex.getLsbD l.val = true) (hscc : scc = { h.f.view.scc with e := false })
    (hcc : ∀ l : Fin 32, ex.getLsbD l.val = true → r.cc.c.getLsbD l.val = (out l).c ∧ r.cc.z.getLsbD l.val = (out l).z ∧
      r.cc.n.getLsbD l.val = (out l).n ∧ r.cc.v.getLsbD l.val = (out l).v)
    (hflags : r.flags = 0#5) (hf : ∀ l, (out l).flags = 0#5) : LaneCross s t h h' i m ex (.regs d 1) r.codes val out := by
  obtain ⟨lw, hg⟩ := coded_spec h ex r
  have hvreg (n : Reg) : (h.coded ex r).vreg n = h.vreg n := by
    unfold Here.vreg
    rw [lw.trapReg, hg]
  have hbit (l : Fin 32) (b : Bool) (x o y : Bool) (e : ex.getLsbD l.val = true → y = x) :
      (if b && m.getLsbD l.val then x else if b && ex.getLsbD l.val then y else o) = if b && ex.getLsbD l.val then x else o := by
    cases hx : ex.getLsbD l.val with
    | false =>
      rw [Bool.eq_false_iff.mpr fun hl => Bool.false_ne_true (hx.symm.trans (hm l hl))]
      simp
    | true =>
      rw [e hx]
      cases b
      · simp
      · simp
  constructor
  · obtain ⟨found, pc, ready, kept, siblings⟩ := q.on
    rw [lw.ref] at found siblings
    refine ⟨found, ?_, ready, ?_, fun j hj => (siblings j hj).trans ?_⟩
    · have e := congrArg Frag.pc lw.frag
      rw [pc]
      exact congrArg (· + _) e
    · rw [← lw.frag, ← kept]
    · rw [hg]
  · have := q.only
    rwa [lw.ref] at this
  · exact q.value
  · exact q.whole
  · obtain ⟨regs, hidden, trapFile, index, rest⟩ := q.frame
    have hh : (h.coded ex r).inHandler = h.inHandler := by simp only [Here.inHandler, lw.handler, lw.ref]
    refine ⟨fun n l hn => ?_, fun n hn => ?_, fun hin => ?_, fun x l hx => ?_, ?_⟩
    · have := regs n l hn
      simp only [Here.v, hvreg] at this
      exact this
    · rw [hidden n (by rw [lw.trapReg]; exact hn), hg]
    · rw [trapFile (hh.trans hin), hg]
    · rw [index x l hx]
      show (kGet (h.coded ex r).g.x x)[l] = _
      rw [hg]
      rfl
    · have hrem : (h.coded ex r).g.removed = h.g.removed ∧ (h.coded ex r).g.epoch = h.g.epoch ∧ (h.coded ex r).g.frags = h.g.frags := by
        rw [hg]; exact ⟨rfl, rfl, rfl⟩
      obtain ⟨e1, e2, e3⟩ := hrem
      rw [e1, e2, e3] at rest
      have e := congrArg (fun g : Group => { g with
        v := h.g.v, hv := h.g.hv, x := h.g.x, killSet := h.g.killSet, cc := h.g.cc, sticky := h.g.sticky }) rest
      exact e.trans lw.group
  · have hk := coded_cc h ex r
    obtain ⟨qc, qz, qn, qv⟩ := q.codes
    constructor
    · intro l
      obtain ⟨e, -, -, -⟩ := hk l
      rw [qc, e]
      exact hbit l _ _ _ _ fun hx => (hcc l hx).1
    · intro l
      obtain ⟨-, e, -, -⟩ := hk l
      rw [qz, e]
      exact hbit l _ _ _ _ fun hx => (hcc l hx).2.1
    · intro l
      obtain ⟨-, -, e, -⟩ := hk l
      rw [qn, e]
      exact hbit l _ _ _ _ fun hx => (hcc l hx).2.2.1
    · intro l
      obtain ⟨-, -, -, e⟩ := hk l
      rw [qv, e]
      exact hbit l _ _ _ _ fun hx => (hcc l hx).2.2.2
  · intro b
    rw [q.flags, hg, hflags]
    simp [hf]
  · obtain ⟨hrem, hep⟩ := q.stays
    rw [hrem, hep, hg]
    exact ⟨rfl, rfl⟩
  · rw [q.view, lw.view, hscc]

section
variable {s : State} {h : Here} (i : Instr) (k : KReg) (d : Reg) (reads : List Src) (ex : LaneMask) (r : LaneResult) (val : Fin 32 → Word)
  (out : Fin 32 → LaneOut) (hr : ∃ o, r.outs = [(o, 0#32)] ∧ ∀ l : Fin 32, r.mask.getLsbD l.val = true → o[l] = val l)
  (hm : ∀ l : Fin 32, r.mask.getLsbD l.val = true → ex.getLsbD l.val = true) (he : r.e = some false) (hflags : r.flags = 0#5)
  (hf : ∀ l, (out l).flags = 0#5)
  (hcc : ∀ l : Fin 32, ex.getLsbD l.val = true → r.cc.c.getLsbD l.val = (out l).c ∧ r.cc.z.getLsbD l.val = (out l).z ∧
    r.cc.n.getLsbD l.val = (out l).n ∧ r.cc.v.getLsbD l.val = (out l).v)
include hr hm he hflags hf hcc

/-- The commit of a cross-lane instruction. -/
theorem commitLane_cross {t0 : State} (near : Near s t0 h.r.core (s.core h.r.core).slots) (key : Option ReuseKey) :
    ∃ h', LaneCross s (commitLane t0 h (crossShape i k d reads) ex r key) h h' i r.mask ex (.regs d 1) r.codes val out := by
  obtain ⟨o, ho, hval⟩ := hr
  obtain ⟨lw, -⟩ := coded_spec h ex r
  rw [commitLane_coded _ (crossShape i k d reads) (d := d) (n := 1) rfl rfl hm]
  obtain ⟨h', q⟩ := commitLane_done (s := s) (h := h.coded ex r) (crossShape i k d reads) r.mask r key (fun l _ => val l) out rfl
    ⟨by decide, fun j hj => ⟨(o, 0#32), by rw [ho, Nat.lt_one_iff.mp hj]; rfl, rfl, hval⟩⟩ trivial (.inl rfl) (fun l hl => hcc l (hm l hl))
    (fun b => by simp [hflags, hf]) (by rw [lw.ref]; exact near)
  refine ⟨h', q.cross hm ?_ hcc hflags hf⟩
  unfold Here.sccAfter
  rw [he, lw.view]
  unfold Here.sccAfter
  rw [he]

/-- From the results on, a cross-lane instruction of no class writes its lanes and its codes. -/
theorem finishLane_cross (old : Bool) (hz : r.divz = 0#32) (hcls : ∀ c : Fin 4, h.f.view.en.getLsbD c.val = true → r.cls c = 0#32) :
    ∃ h', LaneCross s (finishLane s h (crossShape i k d reads) ex old none r) h h' i r.mask ex (.regs d 1) r.codes val out := by
  unfold finishLane
  rw [if_neg (fun hn => hn hz)]
  dsimp only
  rw [trapClass_none hcls]
  exact commitLane_cross i k d reads ex r val out hr hm he hflags hf hcc ((Near.refl s h.r.core).countLookup _ _) _

end

/-! ## Without an active lane -/

/-- SCC.E is set and nothing else (R37). -/
theorem noLanes_goesOn (s : State) (h : Here) (i : Instr) :
    ∃ h', GoesOn s (noLanes s h i) h h' (h.after i) { h.f.view with scc := { h.f.view.scc with e := true } } := by
  let k := (h.setE true).advance i.bytes
  have hr : (h.setE true).r = h.r := note_r h _
  have hg : (h.setE true).g = h.g := note_g h _
  have hf : { (h.setE true).f with view := h.f.view, written := h.f.written } = h.f := by
    have e := congrArg (fun f : Frag => { f with view := h.f.view }) (note_frag h { Written.empty with scc := true } h.f.written)
    exact e
  have hv : (h.setE true).f.view = { h.f.view with scc := { h.f.view.scc with e := true } } :=
    congrArg (fun v : View => { v with scc := { h.f.view.scc with e := true } }) (note_view h { Written.empty with scc := true })
  have hk : k.r = h.r := hr
  have near : Near s (noLanes s h i) h.r.core ((s.core h.r.core).slots.set h.r.slot (some k.group)) :=
    Near.put_at (h := k) hk (Near.refl s h.r.core)
  refine ⟨⟨h.r, k.group, k.f⟩, ⟨?_, ?_, rfl, ?_, fun j hj => ?_⟩, near.only, ?_, hv⟩
  · have := at?_put s k nofun
    rw [hk] at this
    exact this
  · have e : (h.setE true).f.pc = h.f.pc := by have e := congrArg Frag.pc hf; exact e
    exact congrArg (· + _) e
  · have e := congrArg (fun f : Frag => { f with
      pc := h.f.pc, status := h.f.status, pending := h.f.pending, resume := h.f.resume, ahead := h.f.ahead, passed := h.f.passed }) hf
    exact e
  · have := group_frags_ne k j (by rw [hk]; exact hj)
    rw [this]
    exact congrArg (·.frags[j]) hg
  · show { k.g with frags := h.g.frags } = h.g
    rw [show k.g = h.g from hg]

/-- An instruction of `crossRun` does what its rule says where it is ready, and only sets SCC.E where no lane is active. -/
theorem crossRun_ready {i : Instr} {s : State} {h : Here} {k : KReg} {d : Reg} {reads : List Reg} {old : Bool} {F : Here → LaneMask → LaneResult}
    (q : LaneReady .lane s h i k (.regs d 1) none none (reads.map Src.reg) false) :
    crossRun s i (crossShape i k d (reads.map Src.reg)) old F = .next (finishLane s h (crossShape i k d (reads.map Src.reg)) (h.exec k)
      (old || h.exec k != 0xFFFFFFFF#32) none { F h (h.exec k) with e := some false }) := by
  unfold crossRun
  rw [onFragment_issues q.issues]
  have hgates : issueGates s h (crossShape i k d (reads.map Src.reg)) (h.exec k) = none :=
    issueGates_none (crossShape i k d (reads.map Src.reg)) rfl q
  have ha : ¬ h.exec (crossShape i k d (reads.map Src.reg)).k = 0#32 := q.active
  dsimp only
  rw [if_neg ha]
  exact congrArg _ (by rw [show (crossShape i k d (reads.map Src.reg)).k = k from rfl, hgates])

theorem crossRun_idle {i : Instr} {s : State} {h : Here} {sh : LaneShape} {old : Bool} {F : Here → LaneMask → LaneResult}
    (q : Issues s h i .lane) (he : h.exec sh.k = 0#32) : crossRun s i sh old F = .next (noLanes s h i) := by
  unfold crossRun
  rw [onFragment_issues q]
  dsimp only
  rw [if_pos he]

end Sys2Proof.Machine
end

section

/-! SUPPORT. Shuffles, gathers and votes (R237 to R239): the lane that a shuffle takes from, the window that a gather reads, and a tile's census.
-/

namespace Sys2Proof.Machine

/-! ## The source of a shuffle -/

/-- The modes of an operation. -/
theorem mode_cases : ∀ m : BitVec 3, m = 0#3 ∨ m = 1#3 ∨ m = 2#3 ∨ m = 3#3 ∨ m = 4#3 ∨ m = 5#3 ∨ m = 6#3 ∨ m = 7#3 := by decide

/-- The place in its tile that a lane names under a mode, which need not be one of the tile's. -/
def shflIndex (mode : BitVec 3) (p : Nat) (d : Word) (l : Fin 32) : Int := match mode with
  | 0#3 => Int.ofNat d.toNat
  | 1#3 => Int.ofNat (l.val % p) + d.toInt
  | 2#3 => Int.ofNat (l.val % p ^^^ d.toNat)
  | _ => Int.ofNat ((l.val % p + d.toNat) % p)

theorem shflTakes_iff {h : Here} {mode : BitVec 3} {d : Word} {l j : Fin 32} : shflTakes h mode d l j = true ↔
    l.val / h.tileSize = j.val / h.tileSize ∧ ((j.val % h.tileSize : Nat) : Int) = shflIndex mode h.tileSize d l := by
  unfold shflTakes shflIndex
  rw [Bool.and_eq_true, beq_iff_eq]
  refine and_congr Iff.rfl ?_
  rcases mode_cases mode with rfl | rfl | rfl | rfl | rfl | rfl | rfl | rfl
  · exact beq_iff_eq.trans Int.ofNat_inj.symm
  · exact beq_iff_eq
  · exact beq_iff_eq.trans Int.ofNat_inj.symm
  -- every other mode rotates
  all_goals exact beq_iff_eq.trans Int.ofNat_inj.symm

/-- The source is the lane of the tile that stands at that place, where it is active. -/
theorem shflSource_iff {mode : BitVec 3} {p : Nat} {ex : LaneMask} {d : Word} {l j : Fin 32} (hp : 0 < p) : shflSource mode p ex d l = some j ↔
    ex.getLsbD j.val = true ∧ l.val / p = j.val / p ∧ ((j.val % p : Nat) : Int) = shflIndex mode p d l := by
  have hsrc : shflSource mode p ex d l = some j ↔ (0 ≤ shflIndex mode p d l ∧ shflIndex mode p d l < p) ∧
      j.val = l.val / p * p + (shflIndex mode p d l).toNat ∧ ex.getLsbD j.val = true := by
    show (if 0 ≤ shflIndex mode p d l ∧ shflIndex mode p d l < p then
      (if h : l.val / p * p + (shflIndex mode p d l).toNat < 32 then
        (if ex.getLsbD (l.val / p * p + (shflIndex mode p d l).toNat) then some (⟨_, h⟩ : Fin 32) else none) else none) else none) = some j ↔ _
    by_cases hi : 0 ≤ shflIndex mode p d l ∧ shflIndex mode p d l < p
    · rw [if_pos hi]
      by_cases hn : l.val / p * p + (shflIndex mode p d l).toNat < 32
      · rw [dif_pos hn]
        by_cases hx : ex.getLsbD (l.val / p * p + (shflIndex mode p d l).toNat) = true
        · rw [if_pos hx, Option.some.injEq]
          exact ⟨fun e => ⟨hi, by rw [← e], by rw [← e]; exact hx⟩, fun e => Fin.ext e.2.1.symm⟩
        · rw [if_neg hx]
          exact ⟨fun e => (by cases e), fun e => absurd (e.2.1 ▸ e.2.2) hx⟩
      · rw [dif_neg hn]
        exact ⟨fun e => (by cases e), fun e => absurd (e.2.1 ▸ j.isLt) hn⟩
    · rw [if_neg hi]
      exact ⟨fun e => (by cases e), fun e => absurd e.1 hi⟩
  rw [hsrc]
  generalize shflIndex mode p d l = x
  constructor
  · rintro ⟨⟨h0, h1⟩, hj, hx⟩
    have hlt : x.toNat < p := by omega
    refine ⟨hx, ?_, ?_⟩
    · rw [hj, Nat.add_comm, Nat.add_mul_div_right _ _ hp, Nat.div_eq_of_lt hlt, Nat.zero_add]
    · rw [hj, Nat.mul_comm, Nat.mul_add_mod, Nat.mod_eq_of_lt hlt]
      omega
  · rintro ⟨hx, ht, hj⟩
    have hlt : j.val % p < p := Nat.mod_lt _ hp
    have hsplit : j.val / p * p + j.val % p = j.val := by rw [Nat.mul_comm]; exact Nat.div_add_mod _ _
    refine ⟨by omega, ?_, hx⟩
    rw [ht, ← hj, Int.toNat_natCast]
    exact hsplit.symm

/-- The lane that a lane takes from is its only one. -/
theorem find_takes {h : Here} {mode : BitVec 3} {ex : LaneMask} {d : Word} {l : Fin 32} (hp : 0 < h.tileSize) :
    (List.finRange 32).find? (fun j => ex.getLsbD j.val && shflTakes h mode d l j) = shflSource mode h.tileSize ex d l := by
  have hiff (j : Fin 32) : (ex.getLsbD j.val && shflTakes h mode d l j) = true ↔ shflSource mode h.tileSize ex d l = some j := by
    rw [Bool.and_eq_true, shflTakes_iff, shflSource_iff hp]
  cases hs : shflSource mode h.tileSize ex d l with
  | none =>
    refine List.find?_eq_none.mpr fun j _ hj => ?_
    rw [hiff, hs] at hj
    cases hj
  | some j =>
    cases hf : (List.finRange 32).find? (fun j => ex.getLsbD j.val && shflTakes h mode d l j) with
    | none => exact absurd ((hiff j).mpr hs) (List.find?_eq_none.mp hf j (List.mem_finRange j))
    | some k =>
      have := (hiff k).mp (by have e := List.find?_some hf; exact e)
      rw [hs] at this
      exact this.symm

theorem tiled_pos {h : Here} (t : h.tiled) : 0 < h.tileSize := by
  unfold Here.tiled at t
  unfold Here.tileSize
  simp only [List.mem_cons, List.not_mem_nil, or_false] at t
  omega

/-! ## Results of cross-lane rules -/

/-- A result that writes the values `val` in the lanes `m` and the codes `cs` of `out` in the lanes `ex`, with no flag, no class and no zero
divisor. -/
structure CrossResult (r : LaneResult) (m ex : LaneMask) (cs : CodeSet) (val : Fin 32 → Word) (out : Fin 32 → LaneOut) : Prop where
  outs : ∃ o, r.outs = [(o, 0#32)] ∧ ∀ l : Fin 32, m.getLsbD l.val = true → o[l] = val l
  mask : r.mask = m
  active : ∀ l : Fin 32, m.getLsbD l.val = true → ex.getLsbD l.val = true
  codes : r.codes = cs
  cc : ∀ l : Fin 32, ex.getLsbD l.val = true → r.cc.c.getLsbD l.val = (out l).c ∧ r.cc.z.getLsbD l.val = (out l).z ∧
    r.cc.n.getLsbD l.val = (out l).n ∧ r.cc.v.getLsbD l.val = (out l).v
  flags : r.flags = 0#5
  noFlags : ∀ l, (out l).flags = 0#5
  cls : ∀ c, r.cls c = 0#32
  divz : r.divz = 0#32

/-- Such a result, once it sets SCC.E to 0, is what the instruction leaves. -/
theorem CrossResult.finish {s : State} {h : Here} {i : Instr} {k : KReg} {d : Reg} {reads : List Src} {r : LaneResult} {m ex : LaneMask}
    {cs : CodeSet} {val : Fin 32 → Word} {out : Fin 32 → LaneOut} (c : CrossResult r m ex cs val out) (old : Bool) :
    ∃ h', LaneCross s (finishLane s h (crossShape i k d reads) ex old none { r with e := some false }) h h' i m ex (.regs d 1) cs val out := by
  obtain ⟨outs, rfl, active, rfl, cc, flags, noFlags, cls, divz⟩ := c
  exact finishLane_cross i k d reads ex { r with e := some false } val out outs active rfl flags noFlags cc old divz fun c _ => cls c

/-- What an instruction of `crossRun` does, from its rule. -/
theorem crossRun_does {i : Instr} {k : KReg} {d : Reg} {reads : List Reg} {old : Bool} {F : Here → LaneMask → LaneResult} {cs : CodeSet}
    {pre : Here → Prop} {m : Here → LaneMask} {val : Here → Fin 32 → Word} {out : Here → Fin 32 → LaneOut}
    (e : ∀ s, exec i s = crossRun s i (crossShape i k d (reads.map Src.reg)) old F)
    (c : ∀ h, pre h → CrossResult (F h (h.exec k)) (m h) (h.exec k) cs (val h) (out h)) : DoesCross i k d reads cs pre m val out := by
  refine fun s h => ⟨fun q hp _ => ?_, fun q he => ?_⟩
  · obtain ⟨h', hd⟩ := (c h hp).finish (s := s) (h := h) (i := i) (k := k) (d := d) (reads := reads.map Src.reg)
      (old || h.exec k != 0xFFFFFFFF#32)
    exact ⟨_, h', (e s).trans (crossRun_ready q), hd⟩
  · obtain ⟨h', hg⟩ := noLanes_goesOn s h i
    exact ⟨_, h', (e s).trans (crossRun_idle q he), hg⟩

/-! ## `XSHFL` -/

/-- `XSHFL` (R237). -/
theorem xshfl_does (o : LrF) :
    let takes (h : Here) (l j : Fin 32) : Bool := (h.exec o.k).getLsbD j.val && shflTakes h o.f ((h.v o.b)[l]) l j
    DoesCross (.xshfl o) o.k o.d [o.a, o.b] ⟨false, o.c, false, false⟩ Here.tiled
      (fun h => h.exec o.k &&& maskOf (fun l => (List.finRange 32).any (takes h l)))
      (fun h l => match (List.finRange 32).find? (takes h l) with
        | some j => (h.v o.a)[j]
        | none => 0#32)
      (fun h l => { LaneOut.idle with z := !(List.finRange 32).any (takes h l) }) := by
  intro takes
  refine crossRun_does (fun s => show execXshfl o s = _ from rfl) fun h t => ?_
  have hp := tiled_pos t
  dsimp only
  generalize hsrc : Lanes.make (fun l => if (h.exec o.k).getLsbD l.val = true then shflSource o.f h.tileSize (h.exec o.k) (h.v o.b)[l] l
    else none) = src
  have hfind (l : Fin 32) (hl : (h.exec o.k).getLsbD l.val = true) : src[l] = (List.finRange 32).find? (takes h l) := by
    rw [← hsrc, make_get, if_pos hl]
    exact (find_takes hp).symm
  have hmask (l : Fin 32) : (h.exec o.k &&& maskOf (fun l => (List.finRange 32).any (takes h l))).getLsbD l.val =
      ((h.exec o.k).getLsbD l.val && (List.finRange 32).any (takes h l)) := by rw [BitVec.getLsbD_and, maskOf_getLsbD]
  have hgot (l : Fin 32) : (maskOf fun l => src[l].isSome).getLsbD l.val =
      ((h.exec o.k).getLsbD l.val && (List.finRange 32).any (takes h l)) := by
    rw [maskOf_getLsbD]
    cases hl : (h.exec o.k).getLsbD l.val with
    | false => rw [← hsrc, make_get, hl]; rfl
    | true => rw [hfind l hl, Bool.true_and, Bool.eq_iff_iff, List.find?_isSome, List.any_eq_true]
  refine ⟨⟨_, rfl, fun l hl => ?_⟩, laneMask_ext fun l => (hgot l).trans (hmask l).symm, fun l hl => ?_, rfl, fun l hl => ⟨?_, ?_, ?_, ?_⟩, rfl,
    fun _ => rfl, fun _ => rfl, rfl⟩
  · rw [hmask, Bool.and_eq_true] at hl
    have e := hfind l hl.1
    rw [make_get]
    generalize (List.finRange 32).find? (takes h l) = x at e ⊢
    subst e
    rfl
  · rw [hmask, Bool.and_eq_true] at hl
    exact hl.1
  · exact BitVec.getLsbD_zero
  · show (~~~(maskOf fun l => src[l].isSome)).getLsbD l.val = !(List.finRange 32).any (takes h l)
    rw [BitVec.getLsbD_not, hgot, hl]
    simp
  · exact BitVec.getLsbD_zero
  · exact BitVec.getLsbD_zero

/-! ## `XVOTE` -/

theorem perLane_congr {ex : LaneMask} {cs : CodeSet} {f g : Fin 32 → LaneOut} (e : ∀ l : Fin 32, ex.getLsbD l.val = true → f l = g l) :
    perLane ex cs f = perLane ex cs g := by
  have h : (fun l : Fin 32 => if ex.getLsbD l.val then f l else LaneOut.idle) = fun l => if ex.getLsbD l.val then g l else LaneOut.idle := by
    funext l
    split
    · next hl => exact e l hl
    · rfl
  unfold perLane
  rw [h]

/-- A rule for each active lane without flags and classes, as a cross-lane result. -/
theorem perLane_cross (ex : LaneMask) (cs : CodeSet) {f : Fin 32 → LaneOut} (hf : ∀ l, (f l).flags = 0#5) (hc : ∀ l, (f l).cls = 0#4) :
    CrossResult (perLane ex cs f) ex ex cs (fun l => (f l).val) f where
  outs := ⟨_, rfl, fun l hl => perLane_first ex cs f l hl⟩
  mask := rfl
  active := fun _ hl => hl
  codes := rfl
  cc := perLane_cc ex cs f
  flags := BitVec.eq_of_getLsbD_eq fun b _ => by
    rw [perLane_flags]
    simp [hf]
  noFlags := hf
  cls := fun c => laneMask_ext fun l => by
    rw [perLane_cls]
    simp [hc]
  divz := rfl

theorem lanesIn_sorted (m : LaneMask) : (lanesIn m).Pairwise (· < ·) := (List.pairwise_lt_finRange 32).filter _

/-- The first of an ascending list that has a property is the one that no smaller one has. -/
theorem find?_first {l : List (Fin 32)} (hl : l.Pairwise (· < ·)) {q : Fin 32 → Bool} {m : Fin 32} (hm : m ∈ l) :
    l.find? q = some m ↔ q m = true ∧ ∀ x ∈ l, x < m → q x = false := by
  rw [List.find?_eq_some_iff_append]
  refine and_congr Iff.rfl ⟨?_, fun h => ?_⟩
  · rintro ⟨as, bs, rfl, has⟩ x hx hlt
    rcases List.mem_append.mp hx with hx | hx
    · simpa using has x hx
    · obtain ⟨-, hb, -⟩ := List.pairwise_append.mp hl
      rcases List.mem_cons.mp hx with rfl | hx
      · exact absurd hlt (lt_irrefl _)
      · exact absurd hlt (lt_asymm ((List.pairwise_cons.mp hb).1 x hx))
  · obtain ⟨as, bs, rfl⟩ := List.append_of_mem hm
    refine ⟨as, bs, rfl, fun x hx => ?_⟩
    obtain ⟨-, -, hab⟩ := List.pairwise_append.mp hl
    rw [h x (List.mem_append_left _ hx) (hab x hx m List.mem_cons_self)]
    rfl

/-- A set of lanes without repetition is one lane's bit exactly where it is that lane. -/
theorem maskOfLanes_single {ls : List (Fin 32)} (hn : ls.Nodup) (l : Fin 32) : (maskOfLanes ls == 1#32 <<< l.val) = (ls == [l]) := by
  have hbit (j : Fin 32) : (1#32 <<< l.val).getLsbD j.val = decide (j = l) := by
    rw [BitVec.getLsbD_shiftLeft, BitVec.getLsbD_one]
    have := j.isLt
    by_cases e : j = l
    · subst e; simp
    · have : j.val ≠ l.val := fun h => e (Fin.ext h)
      simp [e]
      omega
  rw [Bool.eq_iff_iff, beq_iff_eq, beq_iff_eq]
  constructor
  · intro e
    have hmem (j : Fin 32) : j ∈ ls ↔ j = l := by
      have := congrArg (fun m : LaneMask => m.getLsbD j.val) e
      simp only [maskOfLanes, maskOf_getLsbD, hbit] at this
      rw [← List.contains_iff_mem, this, decide_eq_true_iff]
    have hrep : ls = List.replicate ls.length l := List.eq_replicate_of_mem fun j hj => (hmem j).mp hj
    rw [hrep] at hn
    have hle := List.nodup_replicate.mp hn
    have hpos : 0 < ls.length := List.length_pos_of_mem ((hmem l).mpr rfl)
    rw [hrep, show ls.length = 1 by omega]
    rfl
  · rintro rfl
    refine laneMask_ext fun j => ?_
    rw [hbit, maskOfLanes, maskOf_getLsbD]
    simp

/-- A lane's outcome, where a list holds one outcome for it. -/
theorem outOf_eq {os : List (Fin 32 × LaneOut)} {l : Fin 32} {x : LaneOut} (hm : (l, x) ∈ os) (hu : ∀ y, (l, y) ∈ os → y = x) : outOf os l = x := by
  unfold outOf
  cases hf : os.find? (fun p => p.1 == l) with
  | none => exact absurd (List.find?_eq_none.mp hf (l, x) hm) (by simp)
  | some p =>
    obtain ⟨a, b⟩ := p
    have ha : a = l := by simpa using List.find?_some hf
    subst ha
    exact hu b (List.mem_of_find?_eq_some hf)

/-- In a list of tiles each active lane has the outcome of its own tile. -/
theorem outOf_tiles {h : Here} {ex : LaneMask} (f : List (Fin 32) → Fin 32 → LaneOut) {l : Fin 32} (hl : ex.getLsbD l.val = true) :
    outOf ((tilesIn h.tileSize ex).flatMap (fun t => t.map (fun l => (l, f t l)))) l = f (h.tile ex l) l := by
  have htile (t : Nat) (ht : l.val / h.tileSize = t) : (lanesIn ex).filter (fun l => tileOf h.tileSize l == t) = h.tile ex l := by subst ht; rfl
  have hself : l ∈ h.tile ex l := List.mem_filter.mpr ⟨mem_lanesIn.mpr hl, beq_self_eq_true _⟩
  refine outOf_eq ?_ fun y hy => ?_
  · refine List.mem_flatMap.mpr ⟨h.tile ex l, List.mem_filter.mpr ⟨List.mem_map.mpr ⟨l.val / h.tileSize, ?_, htile _ rfl⟩, ?_⟩, List.mem_map.mpr ⟨l, hself, rfl⟩⟩
    · exact List.mem_range.mpr (lt_of_le_of_lt (Nat.div_le_self _ _) l.isLt)
    · simpa using List.ne_nil_of_mem hself
  · obtain ⟨t, ht, hy⟩ := List.mem_flatMap.mp hy
    obtain ⟨m, hm, e⟩ := List.mem_map.mp hy
    obtain ⟨rfl, rfl⟩ := Prod.mk.inj e
    obtain ⟨n, -, rfl⟩ := List.mem_map.mp (List.mem_filter.mp ht).1
    have hn : m.val / h.tileSize = n := by simpa [tileOf] using (List.mem_filter.mp hm).2
    rw [htile n hn]

/-- `XVOTE` (R239). -/
theorem xvote_does (o : LrF) :
    let tile (h : Here) (l : Fin 32) : List (Fin 32) := h.tile (h.exec o.k) l
    let mask (ls : List (Fin 32)) : Word := maskOf (fun m => ls.contains m)
    let nz (h : Here) (l : Fin 32) : List (Fin 32) := (tile h l).filter (fun m => (h.v o.a)[m] != 0#32)
    let lead (h : Here) (l : Fin 32) : List (Fin 32) :=
      (tile h l).filter (fun m => (tile h l).all (fun x => !decide (x < m) || (h.v o.a)[x] != (h.v o.a)[m]))
    let same (h : Here) (l : Fin 32) : List (Fin 32) := (tile h l).filter (fun m => (h.v o.a)[m] == (h.v o.a)[l])
    let out (h : Here) (l : Fin 32) : LaneOut := match o.f with
      | 0#3 => ⟨BitVec.ofNat 32 (nz h l).length, false, (nz h l).isEmpty, (nz h l).length == (tile h l).length, false, 0#5, 0#4⟩
      | 1#3 => ⟨mask (lead h l), false, (lead h l).contains l, false, false, 0#5, 0#4⟩
      | 2#3 => ⟨mask (nz h l), false, (nz h l).isEmpty, (nz h l).length == (tile h l).length, false, 0#5, 0#4⟩
      | _ => ⟨mask (same h l), false, same h l == [l], false, false, 0#5, 0#4⟩
    DoesCross (.xvote o) o.k o.d [o.a] (codesIf o.c codesZN) Here.tiled (fun h => h.exec o.k) (fun h l => (out h l).val) out := by
  intro tile mask nz lead same out
  refine crossRun_does (fun s => show execXvote o s = _ from rfl) fun h _ => ?_
  dsimp only
  have hsorted (l : Fin 32) : (tile h l).Pairwise (· < ·) := (lanesIn_sorted _).filter _
  have hlead (l : Fin 32) : (tile h l).filter (fun m => ((tile h l).find? (fun x => (h.v o.a)[x] == (h.v o.a)[m])) == some m) = lead h l := by
    refine List.filter_congr fun m hm => ?_
    rw [Bool.eq_iff_iff, beq_iff_eq, find?_first (hsorted l) hm, List.all_eq_true]
    simp only [beq_self_eq_true, true_and, Bool.or_eq_true, Bool.not_eq_true', decide_eq_false_iff_not, bne_iff_ne, beq_eq_false_iff_ne]
    exact forall₂_congr fun x _ => imp_iff_not_or
  have hout (l : Fin 32) : voteLane o.f (h.v o.a) (tile h l) l = out h l := by
    unfold voteLane
    dsimp only [out]
    have hsame : (maskOfLanes (same h l) == 1#32 <<< l.val) = (same h l == [l]) := maskOfLanes_single ((hsorted l).filter _).nodup l
    have hfirst : (maskOfLanes (lead h l)).getLsbD l.val = (lead h l).contains l := maskOf_getLsbD _ l
    generalize o.f = mode
    rcases mode_cases mode with rfl | rfl | rfl | rfl | rfl | rfl | rfl | rfl
    · rfl
    · exact (congrArg (fun ls => (⟨maskOfLanes ls, false, (maskOfLanes ls).getLsbD l.val, false, false, 0#5, 0#4⟩ : LaneOut)) (hlead l)).trans
        (congrArg (fun z => (⟨maskOfLanes (lead h l), false, z, false, false, 0#5, 0#4⟩ : LaneOut)) hfirst)
    · rfl
    -- every other mode names the lanes of the same value
    all_goals exact congrArg (fun z => (⟨maskOfLanes (same h l), false, z, false, false, 0#5, 0#4⟩ : LaneOut)) hsame
  have hflags (l : Fin 32) : (out h l).flags = 0#5 ∧ (out h l).cls = 0#4 := by
    dsimp only [out]
    generalize o.f = mode
    rcases mode_cases mode with rfl | rfl | rfl | rfl | rfl | rfl | rfl | rfl
    all_goals exact ⟨rfl, rfl⟩
  rw [perLane_congr (g := out h) fun l hl => (outOf_tiles _ hl).trans (hout l)]
  exact perLane_cross _ _ (fun l => (hflags l).1) fun l => (hflags l).2

/-! ## `XGATHER` -/

theorem budgetGate_none {s : State} {h : Here} {i : Instr} {rise : Nat} (hb : rise = 0 ∨ h.group.charge + rise ≤ h.g.budget) :
    budgetGate s h i rise = none := by
  unfold budgetGate
  rw [if_pos]
  rcases hb with e | e
  · simp [e]
  · simp [e]

section
variable (h : Here) (o : LrF)

/-- The lanes that name a place past the window. -/
def gatherPast : LaneMask := h.exec o.k &&& maskOf (fun l => decide (32 * (h.w (o.f.setWidth 2)).len.toNat ≤ (h.v o.a)[l].toNat))

/-- The register that a lane names in the window. -/
def gatherReg (l : Fin 32) : VReg := h.vregAt ((h.w (o.f.setWidth 2)).base.toNat + (h.v o.a)[l].toNat / 32)

/-- The lane that a lane names in it. -/
def gatherLane (l : Fin 32) : Fin 32 := Fin.ofNat 32 (h.v o.a)[l].toNat

/-- The active lanes that name a lane of the fragment. -/
def gatherInside : LaneMask := maskOf (fun l => (h.exec o.k).getLsbD l.val && h.lanes.getLsbD (gatherLane h o l).val)

/-- The lanes that read poison. -/
def gatherPoison : LaneMask := (h.exec o.k &&& (h.vreg o.a).poison) |||
  maskOf (fun l => (gatherInside h o).getLsbD l.val && (gatherReg h o l).poison.getLsbD (gatherLane h o l).val)

/-- What the gather delivers. -/
def gatherResult : LaneResult :=
  { LaneResult.values (h.exec o.k) [Lanes.make (fun l => if (gatherInside h o).getLsbD l.val then (gatherReg h o l).lanes[gatherLane h o l] else 0#32)] with
    codes := ⟨false, o.c, false, false⟩, cc := { LaneCC.zero with z := ~~~(gatherInside h o) } }

/-- A gather with active lanes whose register fits the budget: the checks, then the result. -/
theorem exec_xgather {h : Here} {s : State} (q : Issues s h (.xgather o) .lane) (ha : h.exec o.k ≠ 0#32)
    (hb : h.raises (h.exec o.k) (.regs o.d 1) false = 0 ∨ h.group.charge + h.raises (h.exec o.k) (.regs o.d 1) false ≤ h.g.budget) :
    exec (.xgather o) s = .next (
      if 64 < (h.w (o.f.setWidth 2)).base.toNat + (h.w (o.f.setWidth 2)).len.toNat then trapOf s h (.xgather o) (.plain cIndexRange 0x08#8 (h.exec o.k))
      else if gatherPast h o ≠ 0#32 then trapOf s h (.xgather o) (.plain cIndexRange 0x02#8 (gatherPast h o))
      else if gatherPoison h o ≠ 0#32 then trapOf s h (.xgather o) (.plain cEcc 0x01#8 (gatherPoison h o))
      else finishLane s h (crossShape (.xgather o) o.k o.d [.reg o.a]) (h.exec o.k) true none { gatherResult h o with e := some false }) := by
  refine (onFragment_issues q _).trans ?_
  dsimp only
  rw [if_neg ha]
  have hn : budgetGate s h (.xgather o) (h.raises (h.exec o.k) (crossShape (.xgather o) o.k o.d [.reg o.a]).d false) = none := budgetGate_none hb
  rw [hn]
  rfl

variable {h o}

theorem gatherPoison_bit (l : Fin 32) : (gatherPoison h o).getLsbD l.val = ((h.exec o.k).getLsbD l.val && ((h.vreg o.a).poison.getLsbD l.val ||
    (h.lanes.getLsbD (gatherLane h o l).val && (gatherReg h o l).poison.getLsbD (gatherLane h o l).val))) := by
  rw [gatherPoison, BitVec.getLsbD_or, BitVec.getLsbD_and, maskOf_getLsbD, gatherInside, maskOf_getLsbD]
  cases (h.exec o.k).getLsbD l.val
  · rfl
  · rfl

theorem gatherPoison_eq : gatherPoison h o = h.exec o.k &&& maskOf (fun l => (h.vreg o.a).poison.getLsbD l.val ||
    (h.lanes.getLsbD (gatherLane h o l).val && (gatherReg h o l).poison.getLsbD (gatherLane h o l).val)) :=
  laneMask_ext fun l => by rw [gatherPoison_bit, BitVec.getLsbD_and, maskOf_getLsbD]

/-- What the gather delivers is what each active lane names, with Z where that is no lane of the fragment. -/
theorem gather_cross : CrossResult (gatherResult h o) (h.exec o.k) (h.exec o.k) ⟨false, o.c, false, false⟩
    (fun l => if h.lanes.getLsbD (gatherLane h o l).val then (gatherReg h o l).lanes[gatherLane h o l] else 0#32)
    (fun l => { LaneOut.idle with z := !h.lanes.getLsbD (gatherLane h o l).val }) := by
  have hin (l : Fin 32) (hl : (h.exec o.k).getLsbD l.val = true) : (gatherInside h o).getLsbD l.val = h.lanes.getLsbD (gatherLane h o l).val := by
    rw [gatherInside, maskOf_getLsbD, hl, Bool.true_and]
  refine ⟨⟨_, rfl, fun l hl => ?_⟩, rfl, fun _ hl => hl, rfl, fun l hl => ⟨BitVec.getLsbD_zero, ?_, BitVec.getLsbD_zero, BitVec.getLsbD_zero⟩, rfl,
    fun _ => rfl, fun _ => rfl, rfl⟩
  · rw [make_get, hin l hl]
  · show (~~~(gatherInside h o)).getLsbD l.val = !h.lanes.getLsbD (gatherLane h o l).val
    rw [BitVec.getLsbD_not, hin l hl]
    simp

end

/-- `XGATHER` where nothing traps (R238). -/
theorem xgather_does (o : LrF) :
    let w (h : Here) : Window := h.w (o.f.setWidth 2)
    let reg (h : Here) (l : Fin 32) : VReg := h.vregAt ((w h).base.toNat + (h.v o.a)[l].toNat / 32)
    let lane (h : Here) (l : Fin 32) : Fin 32 := Fin.ofNat 32 (h.v o.a)[l].toNat
    let inside (h : Here) (l : Fin 32) : Bool := h.lanes.getLsbD (lane h l).val
    DoesCross (.xgather o) o.k o.d [o.a] ⟨false, o.c, false, false⟩
      (fun h => (w h).base.toNat + (w h).len.toNat ≤ 64 ∧ ∀ l : Fin 32, (h.exec o.k).getLsbD l.val = true →
        (h.v o.a)[l].toNat < 32 * (w h).len.toNat ∧ (inside h l = true → (reg h l).poison.getLsbD (lane h l).val = false))
      (fun h => h.exec o.k) (fun h l => if inside h l then (reg h l).lanes[lane h l] else 0#32)
      (fun h l => { LaneOut.idle with z := !inside h l }) := by
  intro w reg lane inside s h
  refine ⟨fun q hp _ => ?_, fun q he => ?_⟩
  · obtain ⟨hw, hlanes⟩ := hp
    have hpast : gatherPast h o = 0#32 := laneMask_ext fun l => by
      rw [gatherPast, BitVec.getLsbD_and, maskOf_getLsbD, BitVec.getLsbD_zero]
      cases hl : (h.exec o.k).getLsbD l.val with
      | false => rfl
      | true => exact decide_eq_false (not_le.mpr (hlanes l hl).1)
    have hclean : gatherPoison h o = 0#32 := laneMask_ext fun l => by
      rw [gatherPoison_bit, BitVec.getLsbD_zero]
      cases hl : (h.exec o.k).getLsbD l.val with
      | false => rfl
      | true =>
        have hread : (h.vreg o.a).poison.getLsbD l.val = false := by
          have hc : h.exec o.k &&& (h.vreg o.a).poison = 0#32 := q.clean (.reg o.a) (List.mem_singleton_self _)
          have e := congrArg (fun m : LaneMask => m.getLsbD l.val) hc
          simpa only [BitVec.getLsbD_and, hl, Bool.true_and, BitVec.getLsbD_zero] using e
        rw [hread, Bool.true_and, Bool.false_or]
        cases hi : h.lanes.getLsbD (gatherLane h o l).val with
        | false => rfl
        | true => exact (hlanes l hl).2 hi
    obtain ⟨h', hd⟩ := (gather_cross (h := h) (o := o)).finish (s := s) (h := h) (i := .xgather o) (k := o.k) (d := o.d) (reads := [.reg o.a]) true
    refine ⟨_, h', (exec_xgather o q.issues q.active q.budget).trans ?_, hd⟩
    rw [if_neg (not_lt.mpr hw), if_neg (fun hn => hn hpast), if_neg (fun hn => hn hclean)]
  · obtain ⟨h', hg⟩ := noLanes_goesOn s h (.xgather o)
    refine ⟨_, h', (onFragment_issues q _).trans ?_, hg⟩
    dsimp only
    rw [if_pos he]

/-- Settles O26: a shuffle's source is its lane's only one, a gather reads the window once its checks pass, and each lane of a vote has its
own tile's census. -/
theorem shufflesAndVotes : Obligations.ShufflesAndVotes := by
  unfold Obligations.ShufflesAndVotes
  refine ⟨xshfl_does, fun o => ⟨xgather_does o, ?_⟩, xvote_does⟩
  intro s h q ha ex rise past bad hb
  have he := exec_xgather o q ha hb
  have hp : gatherPast h o = past := rfl
  have hbad : gatherPoison h o = bad := gatherPoison_eq
  rw [hp, hbad] at he
  refine ⟨fun hw => ?_, fun hw hpast => ?_, fun hw hpast hpoison => ?_⟩
  · rw [he, if_pos hw]
  · rw [he, if_neg (not_lt.mpr hw), if_pos hpast]
  · rw [he, if_neg (not_lt.mpr hw), if_neg (fun hn => hn hpast), if_pos hpoison]

end Sys2Proof.Machine
end

section

/-! SUPPORT. What an instruction notes as written (R28, R31, R64): a fragment that waits or traps stands where it stood, and one that has gone
on has noted what its writes name.
-/

namespace Sys2Proof.Machine

/-! ## Where a fragment stands -/

/-- The fragment's entry is in its place, with its PC. -/
def StandsAt (t : State) (h : Here) : Prop := ∃ (g : Group) (f : Frag), t.group? h.r.core h.r.slot = some g ∧ g.team = h.g.team ∧
  g.frags[h.r.frag] = some f ∧ f.pc = h.f.pc

/-- Where the fragment is found, outside a trap, its PC is as it was. -/
def PcStays (t : State) (h : Here) : Prop := ∀ h', t.at? h.r = some h' → h'.g.handler = h.g.handler → h'.f.pc = h.f.pc

/-- Where the fragment is found past an instruction, outside a trap, its written set is `w`. -/
def NotedAs (t : State) (h : Here) (i : Instr) (w : Written) : Prop :=
  ∀ h', t.at? h.r = some h' → h'.f.pc = h.after i → h'.g.handler = h.g.handler → h'.f.written = w

theorem after_ne (h : Here) (i : Instr) : h.after i ≠ h.f.pc := by
  have hb : i.bytes = 8 ∨ i.bytes = 4 := by
    unfold Instr.bytes
    split
    · exact .inl rfl
    · exact .inr rfl
  unfold Here.after
  rcases hb with e | e
  · rw [e]; bv_omega
  · rw [e]; bv_omega

theorem PcStays.noted {t : State} {h : Here} (p : PcStays t h) (i : Instr) (w : Written) : NotedAs t h i w :=
  fun h' hat hpc hh => absurd (hpc.symm.trans (p h' hat hh)) (after_ne h i)

theorem Issues.standsAt {s : State} {h : Here} {i : Instr} {cl : RoleClass} (q : Issues s h i cl) : StandsAt s h := by
  obtain ⟨-, hg, hf, -⟩ := here?_spec q.here
  exact ⟨h.g, h.f, hg, rfl, hf, rfl⟩

theorem StandsAt.of_group? {s t : State} {h : Here} (p : StandsAt s h) (e : t.group? h.r.core h.r.slot = s.group? h.r.core h.r.slot) : StandsAt t h := by
  obtain ⟨g, f, hg, ht, hf, hpc⟩ := p
  exact ⟨g, f, e.trans hg, ht, hf, hpc⟩

theorem at?_some {t : State} {r : FragRef} {h' : Here} (e : t.at? r = some h') :
    t.group? r.core r.slot = some h'.g ∧ h'.g.frags[r.frag] = some h'.f := by
  unfold State.at? at e
  split at e
  · cases e
  · next g hg =>
    split at e
    · cases e
    · next f hf =>
      split at e
      · cases e
      · cases e
        exact ⟨hg, hf⟩

/-- What stands in the fragment's slot decides where it is found. -/
theorem PcStays.of_group {t : State} {h : Here} {g : Group} {f : Frag} (hg : t.group? h.r.core h.r.slot = some g) (hf : g.frags[h.r.frag] = some f)
    (hpc : f.pc = h.f.pc) : PcStays t h := by
  intro h' hat _
  obtain ⟨hg', hf'⟩ := at?_some hat
  cases hg.symm.trans hg'
  cases hf.symm.trans hf'
  exact hpc

theorem group_self_at {k : Here} {r : FragRef} (e : k.r = r) : k.group.frags[r.frag] = some k.f := by
  subst e; exact group_frags_self k

/-- A fragment put back with its PC stands where it stood. -/
theorem put_stays (t : State) {h k : Here} (hr : k.r = h.r) (hpc : k.f.pc = h.f.pc) : PcStays (t.put k) h :=
  .of_group (put_group?_same hr t) (group_self_at hr) hpc

theorem gone_stays {t : State} {h : Here} (hg : t.group? h.r.core h.r.slot = none) : PcStays t h := fun h' hat _ => by
  obtain ⟨hg', -⟩ := at?_some hat
  cases hg.symm.trans hg'

/-- A fragment put back is found in its own group. -/
theorem put_found {t : State} {h k : Here} (hr : k.r = h.r) {h' : Here} (hat : (t.put k).at? h.r = some h') : h'.g = k.group ∧ h'.f = k.f := by
  obtain ⟨hg, hf⟩ := at?_some hat
  have hgroup : h'.g = k.group := Option.some.inj (hg.symm.trans (put_group?_same hr t))
  rw [hgroup, group_self_at hr] at hf
  exact ⟨hgroup, (Option.some.inj hf).symm⟩

/-- It has its own written set. -/
theorem put_written {t : State} {h k : Here} (hr : k.r = h.r) {h' : Here} (hat : (t.put k).at? h.r = some h') : h'.f.written = k.f.written :=
  congrArg Frag.written (put_found hr hat).2

theorem next_noted (t : State) {h k : Here} (i : Instr) (hr : k.r = h.r) {w : Written} (hw : k.f.written = w) : NotedAs (next t k i) h i w :=
  fun _ hat _ _ => (put_written (k := k.advance i.bytes) hr hat).trans hw

/-! ## Traps -/

theorem endByTrap_stays {s : State} {h k : Here} (p : StandsAt s h) (ht : k.g.team = h.g.team) (a b : Byte) :
    PcStays (endByTrap s k a b) h := by
  obtain ⟨g, f, hg, hgt, hf, hpc⟩ := p
  unfold endByTrap
  split
  · exact .of_group hg hf hpc
  · next u hu =>
    split
    · exact .of_group hg hf hpc
    · next x hx =>
      rcases (endTeam_spec (s.setTeam _) u true false).2 h.r.core h.r.slot g hg (hgt.trans (ht.symm.trans hu)) with e | e
      · exact gone_stays e
      · exact .of_group e hf hpc

/-- A trap leaves the fragment where it stood, or in the handler. -/
theorem takeTrap_stays {s : State} {h : Here} (p : StandsAt s h) (w : Words) (x : TrapInfo) : PcStays (takeTrap s h w x) h := by
  unfold takeTrap
  split
  · exact gone_stays (clearSlot_group? _ _ _)
  · split
    · next d hd =>
      split
      · exact endByTrap_stays p rfl _ _
      · exact put_stays s (k := h.stopped) rfl rfl
    · next hn =>
      obtain ⟨hsettled, -⟩ := settleAll_spec (releaseWork s h .grp).1 h
      have hr : (settleAll (releaseWork s h .grp).1 h).2.endEpoch.r = h.r := hsettled.here.ref
      dsimp only
      split
      · next e he =>
        split
        · -- the handler is entered: the group has one, which it had not
          intro h' hat hh
          obtain ⟨hg, -⟩ := put_found (k := (settleAll (releaseWork s h .grp).1 h).2.endEpoch.entered w x e) hr hat
          rw [hg, hn] at hh
          cases hh
        · exact put_stays _ rfl rfl
      · refine endByTrap_stays ?_ hsettled.here.team _ _
        refine StandsAt.of_group? (s := (settleAll (releaseWork s h .grp).1 h).1.put (settleAll (releaseWork s h .grp).1 h).2.endEpoch) ?_
          (work_group? (writeFrame_work _ _ _ _) _ _)
        exact ⟨_, _, put_group?_same hr _, hsettled.here.team, group_self_at hr, hsettled.here.pc⟩

theorem trapOf_stays {s : State} {h : Here} (p : StandsAt s h) (i : Instr) (x : TrapInfo) : PcStays (trapOf s h i x) h := takeTrap_stays p _ x

/-! ## What writes note -/

section
variable (h : Here)

theorem note_s_written (x : BitVec 64) : (h.note { Written.empty with s := x }).f.written =
    if h.g.single then h.f.written else { h.f.written with s := h.f.written.s ||| x } := by
  unfold Here.note
  split
  · rfl
  · simp [Written.empty]

theorem note_k_written (x : BitVec 8) : (h.note { Written.empty with k := x }).f.written =
    if h.g.single then h.f.written else { h.f.written with k := h.f.written.k ||| x } := by
  unfold Here.note
  split
  · rfl
  · simp [Written.empty]

theorem note_w_written (x : BitVec 4) : (h.note { Written.empty with w := x }).f.written =
    if h.g.single then h.f.written else { h.f.written with w := h.f.written.w ||| x } := by
  unfold Here.note
  split
  · rfl
  · simp [Written.empty]

theorem note_scc_written : (h.note { Written.empty with scc := true }).f.written =
    if h.g.single then h.f.written else { h.f.written with scc := true } := by
  unfold Here.note
  split
  · rfl
  · simp [Written.empty]

theorem note_fp_written : (h.note { Written.empty with fp := true }).f.written =
    if h.g.single then h.f.written else { h.f.written with fp := true } := by
  unfold Here.note
  split
  · rfl
  · simp [Written.empty]

theorem note_part_written : (h.note { Written.empty with part := true }).f.written =
    if h.g.single then h.f.written else { h.f.written with part := true } := by
  unfold Here.note
  split
  · rfl
  · simp [Written.empty]

variable {h}

theorem Uniformly.single {k : Here} (u : Uniformly h k) : k.g.single = h.g.single := by
  have e := congrArg Group.single u.group; exact e

variable (h)

theorem setS_written (d : Reg) (x : Word) : (h.setS d x).f.written = if h.g.single then h.f.written else h.noteS d h.f.written := by
  unfold Here.setS Here.noteS
  split
  · exact (ite_self _).symm
  · exact note_s_written h _

theorem setSP_written (d : Reg) (x : DWord) : (h.setSP d x).f.written = if h.g.single then h.f.written else h.noteSP d h.f.written := by
  unfold Here.setSP Here.noteSP
  have u := setS_uniformly h d (x.setWidth 32)
  have hnote (w : Written) : (h.setS d (x.setWidth 32)).noteS (d + 1#6) w = h.noteS (d + 1#6) w := by
    unfold Here.noteS
    rw [u.trapReg]
  rw [setS_written, setS_written, u.single, hnote]
  split
  · rfl
  · rfl

theorem setSCC_written (c : ScalarCC) : (h.setSCC c).f.written = if h.g.single then h.f.written else { h.f.written with scc := true } :=
  note_scc_written h

theorem setK_written (n : KReg) (x : Word) :
    (h.setK n x).f.written = if h.g.single then h.f.written else { h.f.written with k := h.f.written.k ||| 1#8 <<< n.toNat } := note_k_written h _

/-- A register and then the codes. -/
theorem setS_setSCC_written (d : Reg) (x : Word) (c : ScalarCC) : ((h.setS d x).setSCC c).f.written =
    if h.g.single then h.f.written else { h.noteS d h.f.written with scc := true } := by
  rw [setSCC_written, (setS_uniformly h d x).single, setS_written]
  split
  · rfl
  · rfl

theorem setSP_uniformly (d : Reg) (x : DWord) : Uniformly h (h.setSP d x) := (setS_uniformly _ _ _).trans (setS_uniformly _ _ _)

theorem setK_r (n : KReg) (x : Word) : (h.setK n x).r = h.r := note_r h _

end

/-! ## Uniform instructions -/

/-- What an instruction of one fragment notes, from what its rule leaves. -/
theorem notes_of {i : Instr} {cl : RoleClass} {w : Here → Written → Written} {F : State → Here → State}
    (e : ∀ s, exec i s = onFragment s i cl (F s))
    (hF : ∀ s h, Issues s h i cl → NotedAs (F s h) h i (if h.g.single then h.f.written else w h h.f.written)) : Notes i cl w := by
  intro s h t h' q ht hat hpc hh
  rw [e, onFragment_issues q] at ht
  cases ht
  exact hF s h q h' hat (hpc.resolve_left nofun) hh

/-- A uniform instruction notes what its writes note. -/
theorem notes_uniRun {i : Instr} {w : Here → Written → Written} {f : Here → Here} (e : ∀ s, exec i s = uniRun s i f) (hr : ∀ h, (f h).r = h.r)
    (hw : ∀ h, (f h).f.written = if h.g.single then h.f.written else w h h.f.written) : Notes i .control w :=
  notes_of e fun s h _ => next_noted s i (hr h) (hw h)

theorem notes_setS {i : Instr} {d : Reg} {x : Here → Word} (e : ∀ s, exec i s = uniRun s i (fun h => h.setS d (x h))) :
    Notes i .control (fun h => h.noteS d) := notes_uniRun e (fun h => (setS_uniformly h d _).ref) (fun h => setS_written h d _)

theorem notes_setSP {i : Instr} {d : Reg} {x : Here → DWord} (e : ∀ s, exec i s = uniRun s i (fun h => h.setSP d (x h))) :
    Notes i .control (fun h => h.noteSP d) := notes_uniRun e (fun h => (setSP_uniformly h d _).ref) (fun h => setSP_written h d _)

theorem notes_setSCC {i : Instr} {c : Here → ScalarCC} (e : ∀ s, exec i s = uniRun s i (fun h => h.setSCC (c h))) :
    Notes i .control (fun _ w => { w with scc := true }) := notes_uniRun e (fun h => (setSCC_uniformly h _).ref) (fun h => setSCC_written h _)

theorem notes_setS_setSCC {i : Instr} {d : Reg} {x : Here → Word} {c : Here → ScalarCC}
    (e : ∀ s, exec i s = uniRun s i (fun h => (h.setS d (x h)).setSCC (c h))) : Notes i .control (fun h w => { h.noteS d w with scc := true }) :=
  notes_uniRun e (fun h => ((setS_uniformly h d _).trans (setSCC_uniformly _ _)).ref) (fun h => setS_setSCC_written h d _ _)

theorem notes_setK {i : Instr} {d : KReg} {x : Here → Word} (e : ∀ s, exec i s = uniRun s i (fun h => h.setK d (x h))) :
    Notes i .control (fun _ w => { w with k := w.k ||| 1#8 <<< d.toNat }) := notes_uniRun e (fun h => setK_r h d _) (fun h => setK_written h d _)

end Sys2Proof.Machine
end

section

/-! SUPPORT. What the instructions note that may wait or trap: uniform loads, freezes, tasks, special registers, and the cross-lane forms.
-/

namespace Sys2Proof.Machine

/-! ## Memory and waits -/

section
variable {s : State} {h : Here} {i : Instr} {w : Written} (p : StandsAt s h)

theorem stay_put_stays (t : State) (h : Here) (x : Wait) (ps : List Passed) : PcStays (t.put (h.stay x ps)) h := by
  fun_cases Here.stay
  · exact put_stays t rfl rfl
  · exact put_stays t rfl rfl

theorem noteRead_noted {t : State} (pad : Bool) (bs : List (Nat × Byte)) (n : NotedAs t h i w) : NotedAs (noteRead t h pad bs) h i w :=
  fun h' hat => n h' ((at?_noteRead t h pad bs h.r).symm.trans hat)

theorem afterRelease_noted {sc : Scope} {ps : List Passed} {f : State → State} (hf : ∀ t, NotedAs (f t) h i w) :
    NotedAs (afterRelease s h sc ps f) h i w := by
  fun_cases afterRelease
  · exact hf _
  · exact (put_stays _ rfl rfl).noted i w

include p

/-- A uniform access notes what its continuation does. -/
theorem uniAccess_noted {acc : Access} {fr : FreezeRule} {va : DWord} {f : Place → State} (hf : ∀ x, NotedAs (f x) h i w) :
    NotedAs (uniAccess s h i acc fr va f) h i w := by
  fun_cases uniAccess
  · exact (trapOf_stays p i _).noted i w
  · exact (stay_put_stays s h _ _).noted i w
  · exact hf _

theorem uniPoison_noted {va : DWord} {x : Place} {f : State} (hf : NotedAs f h i w) : NotedAs (uniPoison s h i va x f) h i w := by
  fun_cases uniPoison
  · exact (trapOf_stays p i _).noted i w
  · exact hf

end

/-- A uniform result that is written at once. -/
theorem uniResult_noted (t : State) (h : Here) (i : Instr) (d : Reg) (x : Word) :
    NotedAs (uniResult t h i d x 0) h i (if h.g.single then h.f.written else h.noteS d h.f.written) :=
  next_noted t i (setS_uniformly h d x).ref (setS_written h d x)

theorem notes_sld {o : GlOp} (hla : o.la = 0#4) : Notes (.sld o) .control (fun h => h.noteS o.d) :=
  notes_of (fun s => (rfl : execSld o s = _)) fun s h q => uniAccess_noted q.standsAt fun x => uniPoison_noted q.standsAt (noteRead_noted _ _ (by
    rw [hla]
    exact uniResult_noted _ h _ _ _))

theorem notes_sldc {o : GlOp} (hla : o.la = 0#4) : Notes (.sldc o) .control (fun h => h.noteS o.d) :=
  notes_of (fun s => (rfl : execSldc o s = _)) fun s h q => uniAccess_noted q.standsAt fun x => uniPoison_noted q.standsAt (noteRead_noted _ _ (by
    rw [hla]
    exact uniResult_noted _ h _ _ _))

theorem notes_acqr (o : GlS) : Notes (.acqr o) .control (fun h => h.noteS o.d) := by
  refine notes_of (fun s => (rfl : execAcqr o s = _)) fun s h q => uniAccess_noted q.standsAt fun x => uniPoison_noted q.standsAt ?_
  dsimp only
  generalize (if o.scope = .grp ∨ o.scope = .core then [] else hintTargets s h.r.core (lineOf x.pa)) = ts
  split
  · exact (put_stays _ rfl rfl).noted _ _
  · exact next_noted _ _ (k := (h.setS o.d _).endEpoch) (setS_uniformly h o.d _).ref (setS_written h o.d _)

/-! ## Freezes and tasks -/

theorem setZ_noted {t : State} {h : Here} {i : Instr} {z : Bool} :
    NotedAs (next t (h.setZ z) i) h i (if h.g.single then h.f.written else { h.f.written with scc := true }) :=
  next_noted t i (setSCC_uniformly h _).ref (setSCC_written h _)

theorem setS_setZ_noted {t : State} {h : Here} {i : Instr} {d : Reg} {x : Word} {z : Bool} :
    NotedAs (next t ((h.setS d x).setZ z) i) h i (if h.g.single then h.f.written else { h.noteS d h.f.written with scc := true }) :=
  next_noted t i ((setS_uniformly h d x).trans (setSCC_uniformly _ _)).ref (setS_setSCC_written h d x _)

theorem freezeRange_noted {s : State} {h : Here} {i : Instr} {d : Reg} {x : Context} {lo hi : Nat} {sys pin : Bool} {ps : List Passed} :
    NotedAs (freezeRange s h i d x lo hi sys pin ps) h i (if h.g.single then h.f.written else { h.noteS d h.f.written with scc := true }) := by
  fun_cases freezeRange
  · exact (put_stays _ rfl rfl).noted _ _
  · exact setS_setZ_noted
  · exact setS_setZ_noted
  · exact (put_stays _ rfl rfl).noted _ _
  · exact setS_setZ_noted
  · exact (put_stays _ rfl rfl).noted _ _

theorem notes_frz (d a b : Reg) (sys pin : Bool) : Notes (.frz d a b sys pin) .control (fun h w => { h.noteS d w with scc := true }) := by
  refine notes_of (fun s => (rfl : execFrz d a b sys pin s = _)) fun s h q => ?_
  dsimp only
  split
  · exact (trapOf_stays q.standsAt _ _).noted _ _
  · split
    · exact setS_setZ_noted
    · split
      · exact (trapOf_stays q.standsAt _ _).noted _ _
      · split
        · exact (trapOf_stays q.standsAt _ _).noted _ _
        · exact (put_stays s rfl rfl).noted _ _
        · split
          · exact (put_stays s rfl rfl).noted _ _
          · exact freezeRange_noted

theorem notes_thw (a : Reg) : Notes (.thw a) .control (fun _ w => { w with scc := true }) := by
  refine notes_of (fun s => (rfl : execThw a s = _)) fun s h q => ?_
  dsimp only
  split
  · exact (trapOf_stays q.standsAt _ _).noted _ _
  · split
    · exact setZ_noted
    · split
      · exact setZ_noted
      · exact setZ_noted

theorem notes_fwait (a : Reg) : Notes (.fwait a) .control (fun _ w => { w with scc := true }) := by
  refine notes_of (fun s => (rfl : execFwait a s = _)) fun s h q => ?_
  dsimp only
  split
  · exact setZ_noted
  · split
    · exact setZ_noted
    · split
      · exact (put_stays s rfl rfl).noted _ _
      · exact setZ_noted

theorem notes_tsub (a : Reg) : Notes (.tsub a) .control (fun _ w => { w with scc := true }) := by
  refine notes_of (fun s => (rfl : execTsub a s = _)) fun s h q => ?_
  dsimp only
  split
  · exact (trapOf_stays q.standsAt _ _).noted _ _
  · exact (stay_put_stays s h _ _).noted _ _
  · refine afterRelease_noted fun t => ?_
    split
    · exact setZ_noted
    · exact setZ_noted

theorem notes_closeb (a : Reg) : Notes (.closeb a) .copy (fun h => h.noteS a) := by
  refine notes_of (fun s => (rfl : execCloseb a s = _)) fun s h q => next_noted s _ ?_ ?_
  · split
    · exact (setS_uniformly h a _).ref
    · exact (setS_uniformly h a _).ref
  · split
    · exact setS_written h a _
    · exact setS_written h a _

/-! ## Special registers and jumps -/

theorem notes_srd {d : Reg} {n : BitVec 12} (hn : ¬ n.toNat ≤ 1) (hw : srWide n = false) : Notes (.srd d n) .control (fun h => h.noteS d) := by
  refine notes_of (fun s => (rfl : execSrd d n s = _)) fun s h q => ?_
  rw [if_neg hn, if_neg (by rw [hw]; nofun)]
  exact next_noted s _ (setS_uniformly h d _).ref (setS_written h d _)

theorem notes_srd_wide {d : Reg} {n : BitVec 12} (hn : ¬ n.toNat ≤ 1) (hw : srWide n = true) : Notes (.srd d n) .control (fun h => h.noteSP d) := by
  refine notes_of (fun s => (rfl : execSrd d n s = _)) fun s h q => ?_
  rw [if_neg hn, if_pos hw]
  dsimp only
  split
  · exact next_noted s _ (setSP_uniformly _ d _).ref (setSP_written _ d _)
  · exact next_noted s _ (setSP_uniformly h d _).ref (setSP_written h d _)

theorem notes_loop (d : Reg) (off : BitVec 12) : Notes (.loop d off) .control (fun h => h.noteS d) (jumps := true) := by
  intro s h t h' q ht hat _ _
  have e := onFragment_issues q (fun h => if h.s d - 1#32 ≠ 0#32 then s.put ((h.setS d (h.s d - 1#32)).jump (h.target (off.signExtend 64)))
    else next s (h.setS d (h.s d - 1#32)) (.loop d off))
  cases (show exec (.loop d off) s = _ from e).symm.trans ht
  have hr := (setS_uniformly h d (h.s d - 1#32)).ref
  rw [← setS_written h d (h.s d - 1#32)]
  split at hat
  · exact put_written (k := (h.setS d (h.s d - 1#32)).jump _) hr hat
  · exact put_written (k := (h.setS d (h.s d - 1#32)).advance _) hr hat

theorem holds_eq (h : Here) (c : BitVec 4) : h.holds c = scalarHolds h c := rfl

theorem notes_call (o : GjC) : Notes (.call o) .control (fun h w => if scalarHolds h o.cond then h.noteSP 62#6 w else w) (jumps := true) := by
  intro s h t h' q ht hat _ _
  have e := onFragment_issues q (fun h => if h.holds o.cond then
    s.put ((h.setSP 62#6 (h.f.pc + 4#64)).jump (h.target (o.off.signExtend 64))) else next s h (.call o))
  cases (show exec (.call o) s = _ from e).symm.trans ht
  dsimp only at hat ⊢
  rw [holds_eq] at hat
  split at hat
  · next hc =>
    rw [if_pos hc, ← setSP_written h 62#6 (h.f.pc + 4#64)]
    exact put_written (k := (h.setSP 62#6 (h.f.pc + 4#64)).jump _) (setSP_uniformly h _ _).ref hat
  · next hc =>
    rw [if_neg hc, ite_self]
    exact put_written (k := h.advance _) rfl hat

/-! ## Cross-lane instructions -/

/-- A written set with the scalar codes, as a fragment of a split group notes them. -/
def Here.noteSCC (h : Here) : Written := if h.g.single then h.f.written else { h.f.written with scc := true }

theorem coded_noted {h : Here} {ex : LaneMask} {r : LaneResult} {b : Bool} (he : r.e = some b) : (h.coded ex r).f.written = h.noteSCC := by
  rw [coded_written, he, Option.isSome_some, if_pos rfl]
  exact note_scc_written h

/-- Registers written leave what is noted. -/
theorem writeDst_noted (t : State) (k : Here) (d : Reg) (n : Nat) (r : LaneResult) :
    (writeDst t k (.regs d n) r).2.r = k.r ∧ (writeDst t k (.regs d n) r).2.f.written = k.f.written := by
  rw [writeDst_eq _ _ _ _ (by nofun)]
  have w := writeAll_wrote (dstWrites k r (.regs d n)) (Wrote.refl t k)
  have e := congrArg Frag.written w.frag
  exact ⟨w.ref, e⟩

theorem evictNames_noted {t : State} {h : Here} {i : Instr} {w : Written} {c : Fin 256} (n : NotedAs t h i w) : NotedAs (t.evictNames c) h i w := by
  intro h' hat
  unfold State.at? at hat
  rw [evictNames_group?] at hat
  exact n h' hat

theorem StandsAt.countLookup {s : State} {h : Here} (p : StandsAt s h) (key : Option ReuseKey) (hit : Bool) :
    StandsAt (s.countLookup h.r.core key hit) h :=
  p.of_group? (by
    unfold State.group?
    rw [((Near.refl s h.r.core).countLookup key hit).slots])

section
variable {s : State} {h : Here} {i : Instr} {k : KReg} {d : Reg} {reads : List Src} (p : StandsAt s h)
include p

theorem finishLane_noted {ex : LaneMask} {old : Bool} {r : LaneResult} {b : Bool} (he : r.e = some b) :
    NotedAs (finishLane s h (crossShape i k d reads) ex old none r) h i h.noteSCC := by
  unfold finishLane
  split
  · exact (trapOf_stays p _ _).noted i _
  · dsimp only
    split
    · exact (trapOf_stays (p.countLookup _ _) _ _).noted i _
    · rw [commitLane_regs _ h (crossShape i k d reads) ex r (d := d) (n := 1) rfl rfl]
      obtain ⟨hr, hw⟩ := writeDst_noted (s.countLookup h.r.core (h.reuseKey (crossShape i k d reads) ex old none)
        (s.reuseFind h.r.core (h.reuseKey (crossShape i k d reads) ex old none)).isSome) (h.coded ex r) d 1 r
      exact evictNames_noted (next_noted _ i (hr.trans (coded_spec h ex r).1.ref) (hw.trans (coded_noted he)))

theorem budgetGate_stays {rise : Nat} {t : State} (e : budgetGate s h i rise = some t) : PcStays t h := by
  unfold budgetGate at e
  split at e
  · cases e
  · split at e
    · cases e
      exact put_stays s rfl rfl
    · cases e
      exact trapOf_stays p _ _

theorem issueGates_stays {sh : LaneShape} {ex : LaneMask} {t : State} (e : issueGates s h sh ex = some t) : PcStays t h := by
  unfold issueGates at e
  split at e
  · next hb =>
    cases e
    exact budgetGate_stays p hb
  · dsimp only at e
    split at e
    · cases e
      exact trapOf_stays p _ _
    · split at e
      · cases e
        exact trapOf_stays p _ _
      · cases e

omit p in
theorem noLanes_noted : NotedAs (noLanes s h i) h i h.noteSCC := next_noted s i (setSCC_uniformly h _).ref (setSCC_written h _)

end

/-- Every instruction of `crossRun` notes the scalar codes. -/
theorem notes_crossRun {i : Instr} {k : KReg} {d : Reg} {reads : List Src} {old : Bool} {F : Here → LaneMask → LaneResult}
    (e : ∀ s, exec i s = crossRun s i (crossShape i k d reads) old F) : Notes i .lane (fun _ w => { w with scc := true }) := by
  refine notes_of e fun s h q => ?_
  dsimp only
  split
  · exact noLanes_noted
  · split
    · next hg => exact (issueGates_stays q.standsAt hg).noted i _
    · exact finishLane_noted q.standsAt rfl

theorem notes_xgather (o : LrF) : Notes (.xgather o) .lane (fun _ w => { w with scc := true }) := by
  refine notes_of (fun s => (rfl : execXgather o s = _)) fun s h q => ?_
  dsimp only
  split
  · exact noLanes_noted
  · split
    · next hb => exact (budgetGate_stays q.standsAt hb).noted _ _
    · split
      · exact (trapOf_stays q.standsAt _ _).noted _ _
      · split
        · exact (trapOf_stays q.standsAt _ _).noted _ _
        · split
          · exact (trapOf_stays q.standsAt _ _).noted _ _
          · exact finishLane_noted q.standsAt rfl

/-- Settles O32: what each instruction notes is what its writes name, wherever it has gone on. -/
theorem writtenSets : Obligations.WrittenSets := by
  unfold Obligations.WrittenSets
  intro scc
  refine ⟨fun o => ⟨?_, ?_, ?_⟩, fun o => ⟨?_, notes_setSP fun s => (rfl : execSmov64 o s = _)⟩, fun o => ?_, fun o => ?_, fun o => ?_,
    fun o => ⟨notes_setS fun s => (rfl : execSmovi o s = _), notes_setSCC fun s => (rfl : execScmpi o s = _)⟩, ?_, fun ka x => ?_, fun d a n => ?_,
    fun n => ?_, fun a => ?_, fun d n => ⟨fun hn => ?_, fun hn => ?_⟩, notes_loop, notes_call, fun o hla => ?_, notes_acqr, notes_frz,
    fun a => ⟨?_, notes_closeb a⟩, fun o => ?_, fun o => notes_crossRun fun s => (rfl : execXisect o s = _)⟩
  · intro i hi
    simp only [List.mem_cons, List.not_mem_nil, or_false] at hi
    rcases hi with rfl | rfl | rfl | rfl | rfl | rfl | rfl | rfl | rfl | rfl | rfl | rfl | rfl | rfl | rfl | rfl | rfl <;> exact notes_setS fun s => rfl
  · intro i hi
    simp only [List.mem_cons, List.not_mem_nil, or_false] at hi
    rcases hi with rfl | rfl <;> exact notes_setS_setSCC fun s => rfl
  · intro i hi
    simp only [List.mem_cons, List.not_mem_nil, or_false] at hi
    rcases hi with rfl | rfl | rfl <;> exact notes_setSP fun s => rfl
  · intro i hi
    simp only [List.mem_cons, List.not_mem_nil, or_false] at hi
    rcases hi with rfl | rfl | rfl <;> exact notes_setS fun s => rfl
  · intro i hi
    simp only [List.mem_cons, List.not_mem_nil, or_false] at hi
    rcases hi with rfl | rfl | rfl <;> exact notes_setSCC fun s => rfl
  · intro i hi
    simp only [List.mem_cons, List.not_mem_nil, or_false] at hi
    rcases hi with rfl | rfl | rfl | rfl <;> exact notes_setS fun s => rfl
  · intro i hi
    simp only [List.mem_cons, List.not_mem_nil, or_false] at hi
    rcases hi with rfl | rfl <;> exact notes_setS fun s => rfl
  · rintro q (⟨o, hq⟩ | ⟨kd, ka, rfl⟩ | ⟨kd, x, rfl⟩ | ⟨kd, ka, c, rfl⟩)
    · simp only [List.mem_cons, List.not_mem_nil, or_false] at hq
      rcases hq with rfl | rfl | rfl | rfl <;> exact notes_setK fun s => rfl
    · exact notes_setK fun s => rfl
    · exact notes_setK fun s => rfl
    · exact notes_setK fun s => rfl
  · intro i hi
    simp only [List.mem_cons, List.not_mem_nil, or_false] at hi
    rcases hi with rfl | rfl | rfl <;> exact notes_setS fun s => rfl
  · exact notes_uniRun (fun s => (rfl : execWin d a n s = _)) (fun h => note_r h _) fun h => note_w_written h _
  · exact notes_uniRun (fun s => (rfl : execSetpart n s = _)) (fun h => note_r h _) fun h => note_part_written h
  · exact notes_uniRun (fun s => (rfl : execSwr a 6#12 s = _)) (fun h => note_r h _) fun h => note_fp_written h
  · simp only [List.mem_cons, List.not_mem_nil, or_false] at hn
    rcases hn with rfl | rfl | rfl | rfl | rfl | rfl | rfl | rfl <;> exact notes_srd (by decide) (by decide)
  · simp only [List.mem_cons, List.not_mem_nil, or_false] at hn
    rcases hn with rfl | rfl | rfl | rfl | rfl <;> exact notes_srd_wide (by decide) (by decide)
  · intro i hi
    simp only [List.mem_cons, List.not_mem_nil, or_false] at hi
    rcases hi with rfl | rfl
    · exact notes_sld hla
    · exact notes_sldc hla
  · intro i hi
    simp only [List.mem_cons, List.not_mem_nil, or_false] at hi
    rcases hi with rfl | rfl | rfl
    · exact notes_thw a
    · exact notes_fwait a
    · exact notes_tsub a
  · intro i hi
    simp only [List.mem_cons, List.not_mem_nil, or_false] at hi
    rcases hi with rfl | rfl | rfl | rfl | rfl | rfl | rfl | rfl
    · exact notes_crossRun fun s => (rfl : execXshfl o s = _)
    · exact notes_xgather o
    · exact notes_crossRun fun s => (rfl : execXvote o s = _)
    · exact notes_crossRun fun s => (rfl : redForm s (.xred o) o .red = _)
    · exact notes_crossRun fun s => (rfl : redForm s (.xscan o) o .scan = _)
    · exact notes_crossRun fun s => (rfl : redForm s (.xscane o) o .scane = _)
    · exact notes_crossRun fun s => (rfl : segForm s (.xsegred o) o .red = _)
    · exact notes_crossRun fun s => (rfl : segForm s (.xsegscan o) o .scan = _)

end Sys2Proof.Machine
end

section

/-! SUPPORT. The state after reset and its first step (R424, R427). -/

namespace Sys2Proof.Machine

/-- The firmware has nothing to go on with where there is no context. -/
theorem pumpHost_idle {s : State} (h : s.contexts = []) : pumpHost s = s := by
  unfold pumpHost
  rw [h]
  rfl

/-- With nothing on the agenda a booting package does its bring-up (logs 1 and 46). -/
theorem step_booting {s t : State} (ha : s.agenda = []) (hp : s.phase = .booting)
    (e : execPowerOn 0#256 false { s with choices := s.choices + 1 } = .next t) : step s = .next (pumpHost t) := by
  have hautos : autos s = [.bringUp] := by simp only [autos, hp]
  have hself : runSelf s = .next t := by
    simpa only [runSelf, hautos, List.length_singleton, Nat.mod_one, List.getD_cons_zero, runAuto] using e
  unfold step takeTurn
  split
  · simp only [hself]
  · next h => simp [ha] at h

theorem core_reset (c : Fin 256) : State.reset.core c = Core.reset := by
  simp [State.core, State.reset]

theorem group?_reset (c : Fin 256) (i : Fin 64) : State.reset.group? c i = none := by
  unfold State.group?
  rw [core_reset]
  simp [Core.reset]

/-- Settles O4: every field is what the reset state lists, and the first step is the bring-up. -/
theorem resetState : Obligations.ResetState := by
  unfold Obligations.ResetState
  refine ⟨rfl, memOk_reset, fun a => rfl, rfl, fun c => ⟨core_reset c, group?_reset c⟩, fun p => ?_, fun b => ?_, rfl, rfl, rfl, rfl, rfl, rfl, rfl, rfl, rfl, rfl,
    rfl, rfl, rfl, rfl, rfl, rfl, rfl, rfl, fun n => ?_, fun t => ?_, rfl, ?_⟩
  · simp [State.reset]
  · simp [State.reset]
  · simp [State.reset]
  · simp [State.reset]
  · exact ⟨_, (step_booting rfl rfl rfl).trans (congrArg Host.Outcome.next (pumpHost_idle rfl)), rfl⟩

end Sys2Proof.Machine
end

section

/-! SUPPORT. An instruction that goes on, by what it leaves of its fragment; and the instructions that write masks, windows and `PART`
(R46, R58, R233 to R235).
-/

namespace Sys2Proof.Machine

/-! ## Going on -/

/-- The fragment as it is found once it has been put back. -/
def Here.placed (k : Here) : Here := ⟨k.r, k.group, k.f⟩

@[simp] theorem placed_f (k : Here) : k.placed.f = k.f := rfl
@[simp] theorem placed_r (k : Here) : k.placed.r = k.r := rfl
@[simp] theorem placed_s (k : Here) (n : Reg) : k.placed.s n = k.s n := rfl
@[simp] theorem placed_vreg (k : Here) (n : Reg) : k.placed.vreg n = k.vreg n := rfl

/-- `k` is the fragment `h` gone on to `pc`, before it is put back: of itself only its view, its written set and its results in flight may
have changed. -/
structure Here.Landed (h k : Here) (pc : DWord) : Prop where
  ref : k.r = h.r
  frags : k.g.frags = h.g.frags
  pc : k.f.pc = pc
  ready : k.f.status = .ready
  kept : { k.f with
      pc := h.f.pc, status := h.f.status, view := h.f.view, written := h.f.written, pending := h.f.pending
      resume := h.f.resume, ahead := h.f.ahead, passed := h.f.passed } = h.f

/-- Once put back it has gone on. -/
theorem Here.Landed.went {s t : State} {h k : Here} {pc : DWord} (q : h.Landed k pc)
    (n : Near s t h.r.core ((s.core h.r.core).slots.set h.r.slot (some k.group))) : WentOn t h k.placed pc where
  found := by
    obtain ⟨kr, kg, kf⟩ := k
    obtain rfl := q.ref
    exact n.at? (by rw [q.ready]; nofun)
  pc := q.pc
  ready := q.ready
  kept := q.kept
  siblings := fun j hj => (group_frags_ne k j (by rw [q.ref]; exact hj)).trans (by rw [q.frags])

theorem Here.Landed.near {h k : Here} {pc : DWord} (q : h.Landed k pc) (s : State) :
    Near s (s.put k) h.r.core ((s.core h.r.core).slots.set h.r.slot (some k.group)) := Near.put_at q.ref (Near.refl s h.r.core)

/-- What an instruction does to its fragment before it goes on. -/
structure Here.Acted (h h1 : Here) : Prop where
  ref : h1.r = h.r
  frags : h1.g.frags = h.g.frags
  frag : { h1.f with view := h.f.view, written := h.f.written, pending := h.f.pending } = h.f

theorem Here.Acted.landed {h h1 : Here} (a : h.Acted h1) (n : Nat) : h.Landed (h1.advance n) (h.f.pc + BitVec.ofNat 64 n) where
  ref := a.ref
  frags := a.frags
  pc := by have e := congrArg Frag.pc a.frag; exact congrArg (· + BitVec.ofNat 64 n) e
  ready := rfl
  kept := by
    have e := congrArg (fun f : Frag => { f with
      pc := h.f.pc, status := h.f.status, resume := h.f.resume, ahead := h.f.ahead, passed := h.f.passed }) a.frag
    exact e

/-- A result in flight more. -/
theorem Here.Landed.pend {h k : Here} {pc : DWord} (q : h.Landed k pc) (p : Pending) : h.Landed (k.pend p) pc :=
  ⟨q.ref, q.frags, q.pc, q.ready, q.kept⟩

/-- An instruction that acts and goes on. -/
theorem next_went {s : State} {h h1 : Here} (a : h.Acted h1) (i : Instr) :
    OnlyGroup s (next s h1 i) h.r ∧ WentOn (next s h1 i) h (h1.advance i.bytes).placed (h.after i) :=
  ⟨((a.landed i.bytes).near s).only, (a.landed i.bytes).went ((a.landed i.bytes).near s)⟩

/-! ## Instructions that change the view -/

/-- A change of the view, noted. -/
theorem noted_uniformly (h : Here) (w : Written) (v : View) : Uniformly h ((h.note w).setView v) := by
  obtain ⟨x, e⟩ := note_written h w
  rw [e]
  exact ⟨rfl, rfl, rfl⟩

theorem noted_hs (h : Here) (w : Written) (v : View) : ((h.note w).setView v).g.hs = h.g.hs := by
  rw [show ((h.note w).setView v).g = h.g from note_g h w]

/-- A uniform instruction that changes the view alone. -/
theorem doesView_uniRun {i : Instr} {f : Here → Here} {v : Here → View} (e : ∀ s, exec i s = uniRun s i f) (hu : ∀ h, Uniformly h (f h))
    (hv : ∀ h, (f h).f.view = v h) (hg : ∀ h, (f h).g.hs = h.g.hs) : DoesView i v := by
  intro s h q
  obtain ⟨t, ht, only, went, frame⟩ := uniRun_done f q (hu h)
  exact ⟨t, _, (e s).trans ht, only, went, frame, hv h, hg h⟩

/-- A uniform instruction that writes one uniform register. -/
theorem doesS_setS {i : Instr} {d : Reg} {f x : Here → Word} (e : ∀ s, exec i s = uniRun s i (fun h => h.setS d (f h))) (fx : ∀ h, f h = x h) :
    DoesS i d x (fun h => h.f.view.scc) := by
  obtain rfl : f = x := funext fx
  intro s h q
  have u := setS_uniformly h d (f h)
  obtain ⟨t, ht, only, went, frame⟩ := uniRun_done (fun h => h.setS d (f h)) q u
  obtain ⟨hview, -⟩ := setS_files h d (f h)
  exact ⟨t, _, (e s).trans ht, only, went, frame, writesS_of _ d (f h) h.f.view.scc u (by rw [hview]) rfl⟩

/-! ## Mask functions -/

theorem setK_view (h : Here) (n : KReg) (x : Word) : (h.setK n x).f.view = { h.f.view with k := kSet h.f.view.k n x } := by
  show ({ (h.note _).f.view with k := kSet (h.note _).f.view.k n x } : View) = _
  rw [note_view]

theorem doesK_setK {i : Instr} {kd : KReg} {f x : Here → Word} (e : ∀ s, exec i s = uniRun s i (fun h => h.setK kd (f h)))
    (fx : ∀ h, f h = x h) : DoesK i kd x := by
  obtain rfl : f = x := funext fx
  exact doesView_uniRun e (fun h => noted_uniformly h _ _) (fun h => setK_view h kd (f h)) (fun h => noted_hs h _ _)

theorem mask_eq (h : Here) (k : KReg) : h.f.view.mask k = h.mask k := rfl

/-- The conditions that a lane's codes meet. -/
theorem condHolds_lane (h : Here) (cond : KReg) (l : Fin 32) : condHolds (0#1 ++ cond) (h.g.cc.c.getLsbD l.val) (h.g.cc.z.getLsbD l.val)
    (h.g.cc.n.getLsbD l.val) (h.g.cc.v.getLsbD l.val) false = laneHolds h cond l := by
  unfold laneHolds
  generalize h.g.cc.c.getLsbD l.val = c, h.g.cc.z.getLsbD l.val = z, h.g.cc.n.getLsbD l.val = n, h.g.cc.v.getLsbD l.val = v
  revert cond c z n v
  decide

/-- The lanes of a mask are as many as its bits. -/
theorem popc32_eq (a : Word) : BitVec.ofNat 32 (popc32 a) = oneBits a := by
  unfold popc32 laneCount lanesIn oneBits
  rw [List.countP_eq_length_filter, ← List.map_coe_finRange_eq_range, List.filter_map, List.length_map]
  rfl

/-- The lowest lane of a mask is the place of its lowest bit. -/
theorem lowestLane_eq (a : Word) : (match lowestLane a with
    | some l => BitVec.ofNat 32 l.val
    | none => 32#32) = BitVec.ofNat 32 (((List.range 32).find? (fun i => a.getLsbD i)).getD 32) := by
  unfold lowestLane lanesIn
  rw [List.head?_filter, ← List.map_coe_finRange_eq_range, List.find?_map, show (fun i => a.getLsbD i) ∘ Fin.val = fun l : Fin 32 => a.getLsbD l.val from rfl]
  cases (List.finRange 32).find? (fun l => a.getLsbD l.val) with
  | none => rfl
  | some l => rfl

/-- Settles O31: each writes its mask register, or its uniform register, with the function of what it reads. -/
theorem maskFunctions : Obligations.MaskFunctions := by
  unfold Obligations.MaskFunctions
  refine ⟨fun o q hq => ?_, fun kd ka cond x => ⟨doesK_setK (fun s => rfl) fun h => rfl, doesK_setK (fun s => rfl) fun h => rfl,
    doesK_setK (fun s => rfl) fun h => ?_, doesS_setS (fun s => rfl) fun h => rfl, doesS_setS (fun s => rfl) fun h => popc32_eq _,
    doesS_setS (fun s => rfl) fun h => lowestLane_eq _⟩⟩
  · simp only [List.mem_cons, List.not_mem_nil, or_false] at hq
    rcases hq with rfl | rfl | rfl | rfl <;> exact doesK_setK (fun s => rfl) fun h => rfl
  · simp only [condHolds_lane, mask_eq]

end Sys2Proof.Machine
end

section

/-! SUPPORT. `KILL`, `WIN` and `SETPART` (R54 to R58, R235): the registers that a `KILL` names, and results that are discarded. -/

namespace Sys2Proof.Machine

/-! ## Discarded results -/

/-- A result in flight into one of some registers is discarded, unless a younger write has discarded it before (R55, R95). -/
def PendReg.discard (L : List Reg) (own : Bool) (r : PendReg) : PendReg :=
  if r.reg ∈ L ∧ r.dropped = false then { r with dropped := true, charged := own } else r

theorem discard_nil (own : Bool) (r : PendReg) : r.discard [] own = r := by simp [PendReg.discard]

/-- To discard the results of one register and then those of others is to discard those of all. -/
theorem discard_discard (n : Reg) (L : List Reg) (own : Bool) (r : PendReg) :
    (r.discard [n] own).discard L own = r.discard (n :: L) own := by
  unfold PendReg.discard
  by_cases hn : r.reg = n
  · cases hd : r.dropped with
    | false => simp [hn]
    | true => simp [hd]
  · simp [hn]

/-- Results discarded for each register of a list. -/
theorem dropVectors_eq (own : Bool) (L : List Reg) : ∀ ps : List Pending,
    L.foldl (dropVector · own) ps = ps.map (fun p => { p with regs := p.regs.map (PendReg.discard L own) }) := by
  induction L with
  | nil =>
    intro ps
    simp only [List.foldl_nil]
    refine (List.map_id ps).symm.trans (List.map_congr_left fun p _ => ?_)
    rw [show PendReg.discard [] own = id from funext (discard_nil own), List.map_id]
    rfl
  | cons n L ih =>
    intro ps
    have hone : dropVector ps own n = ps.map (fun p => { p with regs := p.regs.map (PendReg.discard [n] own) }) := by
      unfold dropVector
      refine List.map_congr_left fun p _ => ?_
      congr 2
      funext r
      simp [PendReg.discard]
    rw [List.foldl_cons, ih, hone, List.map_map]
    refine List.map_congr_left fun p _ => ?_
    simp only [Function.comp_apply, List.map_map]
    congr 2
    funext r
    exact discard_discard n L own r

/-! ## `KILL` -/

/-- A `KILL` names a register (R54, R57). -/
def Here.kills (h : Here) (b : Reg) (m : BitVec 16) (n : Reg) : Bool :=
  decide (b.toNat ≤ n.toNat) && m.getLsbD (n.toNat - b.toNat) && !(h.inHandler && decide (56 ≤ n.toNat))

theorem below56 (n : Reg) : (0x00FFFFFFFFFFFFFF#64).getLsbD n.toNat = decide (n.toNat < 56) := by
  revert n
  decide

theorem killNames_bit (h : Here) (b : Reg) (m : BitVec 16) (n : Reg) : (killNames h b m).getLsbD n.toNat = h.kills b m n := by
  have hset : ((m.setWidth 64) <<< b.toNat).getLsbD n.toNat = (decide (b.toNat ≤ n.toNat) && m.getLsbD (n.toNat - b.toNat)) := by
    have hlt : n.toNat < 64 := n.isLt
    by_cases hb : b.toNat ≤ n.toNat
    · simp [hlt, hb]
    · simp [hlt, hb]
  unfold killNames Here.kills
  cases h.inHandler with
  | false => simp only [Bool.false_eq_true, if_false, Bool.false_and, Bool.not_false, Bool.and_true]; exact hset
  | true =>
    simp only [if_true, Bool.true_and, BitVec.getLsbD_and, hset, below56]
    by_cases hn : n.toNat < 56
    · simp [hn]
    · simp [hn, Nat.le_of_not_lt hn]

/-- The registers that a `KILL` names, by number. -/
theorem mem_killed (h : Here) (b : Reg) (m : BitVec 16) (n : Reg) :
    n ∈ ((List.range 64).filter (fun i => (killNames h b m).getLsbD i)).map (BitVec.ofNat 6) ↔ h.kills b m n = true := by
  rw [← killNames_bit]
  simp only [List.mem_map, List.mem_filter, List.mem_range]
  constructor
  · rintro ⟨i, ⟨hi, hs⟩, rfl⟩
    rwa [BitVec.toNat_ofNat, Nat.mod_eq_of_lt hi]
  · intro hs
    exact ⟨n.toNat, ⟨n.isLt, hs⟩, by simp⟩

/-- A fragment that has unmapped what its `KILL` names and discarded what is in flight into it. -/
def Here.killed (h : Here) (b : Reg) (m : BitVec 16) : Here :=
  { h with
    g := h.g.unmap (killNames h b m)
    f := { h.f with pending := h.f.pending.map (fun p => { p with
      regs := p.regs.map (fun r => if h.kills b m r.reg = true ∧ r.dropped = false then { r with dropped := true, charged := true } else r) }) } }

theorem exec_kill_single {s : State} {h : Here} {b : Reg} {m : BitVec 16} (q : Issues s h (.kill b m) .control) (hs : h.g.single = true) :
    exec (.kill b m) s = .next ((next s (h.killed b m) (.kill b m)).evictNames h.r.core) := by
  refine (show exec (.kill b m) s = _ from onFragment_issues q _).trans ?_
  dsimp only
  rw [if_pos hs, ← List.foldl_map, dropVectors_eq]
  unfold Here.killed PendReg.discard
  simp only [mem_killed]

theorem exec_kill_split {s : State} {h : Here} {b : Reg} {m : BitVec 16} (q : Issues s h (.kill b m) .control) (hs : h.g.single = false) :
    exec (.kill b m) s = .next (next s { h with g := { h.g with killSet := h.g.killSet ||| killNames h b m } } (.kill b m)) := by
  refine (show exec (.kill b m) s = _ from onFragment_issues q _).trans ?_
  dsimp only
  rw [if_neg (by rw [hs]; nofun)]

/-! ## Windows and `PART` -/

theorem win_view (d : BitVec 2) (a : Reg) (len : BitVec 12) :
    DoesView (.win d a len) (fun h => { h.f.view with w := h.f.view.w.set d.toNat ⟨a, len.setWidth 7⟩ d.isLt }) :=
  doesView_uniRun (fun s => (rfl : execWin d a len s = _)) (fun h => noted_uniformly h _ _)
    (fun h => congrArg (fun v : View => { v with w := v.w.set d.toNat ⟨a, len.setWidth 7⟩ d.isLt }) (note_view h _)) (fun h => noted_hs h _ _)

theorem setpart_view (n : BitVec 12) : DoesView (.setpart n) (fun h => { h.f.view with part := n.setWidth 32 }) :=
  doesView_uniRun (fun s => (rfl : execSetpart n s = _)) (fun h => noted_uniformly h _ _)
    (fun h => congrArg (fun v : View => { v with part := n.setWidth 32 }) (note_view h _)) (fun h => noted_hs h _ _)

theorem killed_acted (h : Here) (b : Reg) (m : BitVec 16) : h.Acted (h.killed b m) where
  ref := by simp only [Here.killed]
  frags := by simp only [Here.killed, Group.unmap]
  frag := by simp only [Here.killed]

/-- The group of the fragment that has gone on past its `KILL` has changed in its registers alone. -/
theorem killed_group (h : Here) (b : Reg) (m : BitVec 16) (n : Nat) :
    { ((h.killed b m).advance n).placed.g with frags := h.g.frags, v := h.g.v } = h.g := by
  simp only [Here.killed, Here.advance, Here.placed, Here.group, Group.unmap]

theorem killed_v (h : Here) (b : Reg) (m : BitVec 16) (k : Nat) (n : Reg) :
    regGet ((h.killed b m).advance k).placed.g.v n = if h.kills b m n then none else regGet h.g.v n := by
  have e : ((h.killed b m).advance k).placed.g.v = (h.g.unmap (killNames h b m)).v := by
    simp only [Here.killed, Here.advance, Here.placed, Here.group]
  rw [e, regGet_unmap, killNames_bit]

theorem killed_view (h : Here) (b : Reg) (m : BitVec 16) (k : Nat) : ((h.killed b m).advance k).placed.f.view = h.f.view := by
  simp only [Here.killed, Here.advance, placed_f]

theorem killed_pending (h : Here) (b : Reg) (m : BitVec 16) (k : Nat) : ((h.killed b m).advance k).placed.f.pending =
    h.f.pending.map (fun p => { p with
      left := p.left - 1
      regs := p.regs.map (fun r => if h.kills b m r.reg = true ∧ r.dropped = false then { r with dropped := true, charged := true } else r) }) := by
  simp only [Here.killed, Here.advance, placed_f, List.map_map, Function.comp_def]

/-- Settles O40: a `KILL` of a single fragment unmaps at once, that of a split group marks; `WIN` and `SETPART` change the view. -/
theorem killsAndWindows : Obligations.KillsAndWindows := by
  unfold Obligations.KillsAndWindows
  refine ⟨fun b m s h q => ?_, win_view, setpart_view⟩
  intro named
  have hnamed : named = h.kills b m := rfl
  rw [hnamed]
  cases hs : h.g.single with
  | true =>
    have a := (killed_acted h b m).landed (Instr.kill b m).bytes
    have near := (a.near s).evictNames
    exact ⟨_, _, exec_kill_single q hs, near.only, a.went near, killed_view h b m _,
      fun _ => ⟨killed_group h b m _, killed_v h b m _, killed_pending h b m _⟩, nofun⟩
  | false =>
    have a : h.Acted { h with g := { h.g with killSet := h.g.killSet ||| killNames h b m } } := ⟨rfl, rfl, rfl⟩
    obtain ⟨only, went⟩ := next_went (s := s) a (.kill b m)
    refine ⟨_, _, exec_kill_split q hs, only, went, rfl, nofun, fun _ => ⟨rfl, rfl, fun n => ?_⟩⟩
    rw [← killNames_bit]
    exact BitVec.getLsbD_or

end Sys2Proof.Machine
end

section

/-! SUPPORT. `SRD` and `SWR` (R65, R209 to R211): a pair of uniform registers written, the lane registers, and `FPC` in one word. -/

namespace Sys2Proof.Machine

/-! ## A pair of uniform registers -/

theorem halves_append (x : DWord) : ((x >>> 32).setWidth 32 : Word) ++ (x.setWidth 32 : Word) = x := by
  refine BitVec.eq_of_getLsbD_eq fun i hi => ?_
  rw [BitVec.getLsbD_append]
  split
  · next h => simp [h]
  · next h => simp [show i - 32 < 32 by omega, show 32 + (i - 32) = i by omega]

theorem reg_ne_succ (d : Reg) : d + 1#6 ≠ d := by
  revert d
  decide

/-- Reading after a write of a pair. -/
theorem setSP_s (h : Here) (d n : Reg) (x : DWord) : (h.setSP d x).s n =
    if n = d + 1#6 then (x >>> 32).setWidth 32 else if n = d then x.setWidth 32 else h.s n := by
  unfold Here.setSP
  rw [setS_s, setS_s]

/-- What a write of a pair does to the two files. -/
theorem setSP_files (h : Here) (d : Reg) (x : DWord) :
    (∀ n, (n ≠ d ∧ n ≠ d + 1#6) ∨ (h.trapReg d = true ∧ h.trapReg (d + 1#6) = true) →
      regGet (h.setSP d x).f.view.s n = regGet h.f.view.s n) ∧
    (h.trapReg d = false → h.trapReg (d + 1#6) = false → (h.setSP d x).g.hs = h.g.hs) ∧
    { (h.setSP d x).f.view with s := h.f.view.s } = h.f.view := by
  obtain ⟨fv, fh⟩ := setS_files h d (x.setWidth 32)
  obtain ⟨gv, gh⟩ := setS_files (h.setS d (x.setWidth 32)) (d + 1#6) ((x >>> 32).setWidth 32)
  rw [(setS_uniformly h d _).trapReg] at gv gh
  rw [fv] at gv
  rw [fh] at gh
  refine ⟨fun n hn => ?_, fun h0 h1 => ?_, ?_⟩
  · unfold Here.setSP
    rw [gv]
    dsimp only
    rcases hn with ⟨hd, hd1⟩ | ⟨ht, ht1⟩
    · cases h.trapReg d <;> cases h.trapReg (d + 1#6) <;> simp [regGet_regSet_ne _ _ _ _ hd, regGet_regSet_ne _ _ _ _ hd1]
    · simp [ht, ht1]
  · unfold Here.setSP
    rw [gh]
    simp [h0, h1]
  · unfold Here.setSP
    rw [gv]

/-- An instruction that writes a pair of uniform registers and goes on. -/
theorem writesSP_setSP (h : Here) (d : Reg) (x : DWord) (k : Nat) : WritesSP h ((h.setSP d x).advance k).placed d x h.f.view.scc := by
  obtain ⟨own, trap, view⟩ := setSP_files h d x
  have hs (n : Reg) : ((h.setSP d x).advance k).placed.s n = (h.setSP d x).s n := rfl
  constructor
  · unfold Here.sp
    rw [hs, hs, setSP_s, setSP_s, if_pos rfl, if_neg (reg_ne_succ d).symm, if_pos rfl, halves_append]
  · intro n hn hn1
    rw [hs, setSP_s, if_neg hn1, if_neg hn]
  · exact own
  · exact trap
  · exact view

theorem Uniformly.acted {h h1 : Here} (u : Uniformly h h1) : h.Acted h1 where
  ref := u.ref
  frags := by have e := congrArg Group.frags u.group; exact e
  frag := by rw [← u.frag]

/-! ## `SRD` -/

/-- The fragment once the group has taken a time as the last that it has read (R211). -/
def Here.withTime (h : Here) (t : Nat) : Here := { h with g := { h.g with timeFloor := t } }

theorem exec_srd_word {s : State} {h : Here} {d : Reg} {n : BitVec 12} (q : Issues s h (.srd d n) .control) (hn : ¬ n.toNat ≤ 1)
    (hw : srWide n = false) : exec (.srd d n) s = .next (next s (h.setS d (special32 s h n.toNat)) (.srd d n)) := by
  refine (show exec (.srd d n) s = _ from onFragment_issues q _).trans ?_
  dsimp only
  rw [if_neg hn, if_neg (by rw [hw]; nofun)]

theorem exec_srd_wide {s : State} {h : Here} {d : Reg} {n : BitVec 12} (q : Issues s h (.srd d n) .control) (hn : ¬ n.toNat ≤ 1)
    (hw : srWide n = true) : exec (.srd d n) s =
      .next (next s ((h.withTime (if n = 7#12 then groupTime s h else h.g.timeFloor)).setSP d (special64 s h n.toNat)) (.srd d n)) := by
  refine (show exec (.srd d n) s = _ from onFragment_issues q _).trans ?_
  dsimp only
  rw [if_neg hn, if_pos hw]
  split
  · rfl
  · rfl

theorem regsFrom_one (d : Reg) : regsFrom d 1 = [d] := by simp [regsFrom]

/-- A lane register that is written in every fragment lane (R209): the commit of those words, with no code and no key. -/
theorem exec_srd_lanes {s : State} {h : Here} {d : Reg} {n : BitVec 12} (q : Issues s h (.srd d n) .control) (hn : n.toNat ≤ 1)
    (hl : h.lanes ≠ 0#32) (hb : budgetGate s h (.srd d n) (h.raises h.lanes (.regs d 1) false) = none) :
    exec (.srd d n) s = .next (commitLane s h ⟨.srd d n, 0#3, .regs d 1, none, none, [], [], none⟩ h.lanes
      (LaneResult.values h.lanes [Lanes.make (fun l => BitVec.ofNat 32 (if n = 0#12 then l.val else l.val / 4))]) none) := by
  refine (show exec (.srd d n) s = _ from onFragment_issues q _).trans ?_
  have hcoded (r : LaneResult) (hc : r.codes = codesNone) (he : r.e = none) (hf : r.flags = 0#5) : h.coded h.lanes r = h := by
    unfold Here.coded
    rw [hc, he, hf]
    simp [codesNone, Here.setCC, Here.raise]
  rw [commitLane_regs _ _ _ _ _ (d := d) (n := 1) rfl rfl, hcoded _ rfl rfl rfl, writeDst, regsFrom_one]
  dsimp only
  rw [if_pos hn, if_neg hl, hb]
  rfl

/-- `FPC` in one word (R137). -/
theorem fpc_eq (h : Here) : h.fpc = h.f.view.rm.setWidth 32 ||| (h.f.view.en.setWidth 32 <<< 4) ||| (h.g.sticky.setWidth 32 <<< 8) := by
  unfold Here.fpc
  generalize h.g.sticky = f, h.f.view.en = e, h.f.view.rm = r
  ext i hi
  simp only [BitVec.getElem_append, BitVec.getElem_or, BitVec.getElem_setWidth, BitVec.getElem_shiftLeft]
  interval_cases i <;> simp

/-- What an `SRD` of one word leaves. -/
theorem srd_word {s : State} {h : Here} {d : Reg} {n : BitVec 12} {x : Word} (q : Issues s h (.srd d n) .control) (hn : ¬ n.toNat ≤ 1)
    (hw : srWide n = false) (hx : special32 s h n.toNat = x) : ∃ t h', exec (.srd d n) s = .next t ∧ OnlyGroup s t h.r ∧
      WentOn t h h' (h.f.pc + 4#64) ∧ UniformFrame h h' ∧ WritesS h h' d x h.f.view.scc := by
  subst hx
  have u := setS_uniformly h d (special32 s h n.toNat)
  obtain ⟨only, went⟩ := next_went (s := s) u.acted (.srd d n)
  obtain ⟨hview, -⟩ := setS_files h d (special32 s h n.toNat)
  refine ⟨_, ((h.setS d (special32 s h n.toNat)).advance (Instr.srd d n).bytes).placed, exec_srd_word q hn hw, only, went, ?_, ?_⟩
  · have e := congrArg (fun g : Group => { g with frags := h.g.frags }) u.group
    exact e
  · have w := writesS_of (Instr.srd d n).bytes d _ h.f.view.scc u (by rw [hview]) rfl
    rw [← u.ref] at w
    exact w

/-- What an `SRD` of a pair leaves: a read of the time is the last that the group has made. -/
theorem srd_wide {s : State} {h : Here} {d : Reg} {n : BitVec 12} {x : DWord} (q : Issues s h (.srd d n) .control) (hn : ¬ n.toNat ≤ 1)
    (hw : srWide n = true) (hx : special64 s h n.toNat = x) : ∃ t h', exec (.srd d n) s = .next t ∧ OnlyGroup s t h.r ∧
      WentOn t h h' (h.f.pc + 4#64) ∧ { h'.g with frags := h.g.frags, hs := h.g.hs, timeFloor := h.g.timeFloor } = h.g ∧
      h'.g.timeFloor = (if n = 7#12 then max (s.timeAt h.r.core) h.g.timeFloor else h.g.timeFloor) ∧ WritesSP h h' d x h.f.view.scc := by
  subst hx
  let k := h.withTime (if n = 7#12 then groupTime s h else h.g.timeFloor)
  have u := setSP_uniformly k d (special64 s h n.toNat)
  have a : h.Acted (k.setSP d (special64 s h n.toNat)) := ⟨u.acted.ref, u.acted.frags, u.acted.frag⟩
  obtain ⟨only, went⟩ := next_went (s := s) a (.srd d n)
  have e := congrArg (fun g : Group => { g with frags := h.g.frags, timeFloor := h.g.timeFloor }) u.group
  have ht := congrArg Group.timeFloor u.group
  obtain ⟨value, others, own, trap, view⟩ := writesSP_setSP k d (special64 s h n.toNat) (Instr.srd d n).bytes
  exact ⟨_, _, exec_srd_wide q hn hw, only, went, e, ht, value, others, own, trap, view⟩

theorem values_gives_one {ex : LaneMask} {o : Lanes Word} {f : Fin 32 → Word} (d : Reg) (hf : ∀ l : Fin 32, o[l] = f l) :
    (LaneResult.values ex [o]).gives (fun l _ => f l) (.regs d 1) :=
  ⟨by decide, fun j hj => ⟨(o, 0#32), by rw [Nat.lt_one_iff.mp hj]; rfl, rfl, fun l _ => hf l⟩⟩

/-- What an `SRD` of a lane register leaves (R209). -/
theorem srd_lanes {s : State} {h : Here} {d : Reg} {n : BitVec 12} {f : Fin 32 → Word} (q : Issues s h (.srd d n) .control) (hn : n.toNat ≤ 1)
    (hf : ∀ l : Fin 32, BitVec.ofNat 32 (if n = 0#12 then l.val else l.val / 4) = f l) (hl : h.lanes ≠ 0#32)
    (hb : h.raises h.lanes (.regs d 1) false = 0 ∨ h.group.charge + h.raises h.lanes (.regs d 1) false ≤ h.g.budget) :
    ∃ t h', exec (.srd d n) s = .next t ∧ LaneDone s t h h' (.srd d n) h.lanes (.regs d 1) codesNone (fun l _ => f l)
      (fun _ => LaneOut.idle) h.f.view.scc := by
  obtain ⟨h', done⟩ := commitLane_done (s := s) (t0 := s) (h := h) ⟨.srd d n, 0#3, .regs d 1, none, none, [], [], none⟩ h.lanes
    (LaneResult.values h.lanes [Lanes.make (fun l => BitVec.ofNat 32 (if n = 0#12 then l.val else l.val / 4))]) none (fun l _ => f l)
    (fun _ => LaneOut.idle) rfl (values_gives_one d fun l => by rw [make_get, hf]) trivial
    (.inl rfl) (fun l _ => by simp [LaneResult.values, LaneCC.zero, LaneOut.idle, LaneOut.plain])
    (fun b => by simp [LaneResult.values, LaneOut.idle, LaneOut.plain]) (Near.refl s h.r.core)
  exact ⟨_, h', exec_srd_lanes q hn hl (budgetGate_none hb), done⟩

/-! ## `SWR` -/

/-- A fragment that has written `FPC` (R138). -/
theorem swr_fpc {s : State} {h : Here} {a : Reg} (q : Issues s h (.swr a 6#12) .control) : ∃ t h', exec (.swr a 6#12) s = .next t ∧
    OnlyGroup s t h.r ∧ WentOn t h h' (h.f.pc + 4#64) ∧ { h'.g with frags := h.g.frags, sticky := h.g.sticky } = h.g ∧
    h'.g.sticky = (h.s a).extractLsb' 8 5 ∧ h'.f.view = { h.f.view with rm := (h.s a).extractLsb' 0 2, en := (h.s a).extractLsb' 4 4 } := by
  obtain ⟨x, e⟩ := note_written h { Written.empty with fp := true }
  have he := (show exec (.swr a 6#12) s = _ from onFragment_issues q _)
  dsimp only at he
  rw [e] at he
  have act : h.Acted { h with
      f := { h.f with written := x, view := { h.f.view with rm := (h.s a).extractLsb' 0 2, en := (h.s a).extractLsb' 4 4 } }
      g := { h.g with sticky := (h.s a).extractLsb' 8 5 } } := ⟨rfl, rfl, rfl⟩
  obtain ⟨only, went⟩ := next_went (s := s) act (.swr a 6#12)
  exact ⟨_, _, he, only, went, rfl, rfl, rfl⟩

/-- Settles O41: each special register by its number. -/
theorem specialRegisters : Obligations.SpecialRegisters := by
  unfold Obligations.SpecialRegisters
  refine ⟨fun d q hq s h i hl hb => ?_, fun d s h q hq i => ?_, fun d s h q hq i => ?_, fun a s h q => swr_fpc q⟩
  · simp only [List.mem_cons, List.not_mem_nil, or_false] at hq
    rcases hq with rfl | rfl
    · exact srd_lanes (n := 0#12) i (by decide) (fun l => rfl) hl hb
    · exact srd_lanes (n := 1#12) i (by decide) (fun l => rfl) hl hb
  · simp only [List.mem_cons, List.not_mem_nil, or_false] at hq
    rcases hq with rfl | rfl | rfl | rfl | rfl | rfl | rfl | rfl
    · exact srd_word (n := 2#12) i (by decide) (by decide) rfl
    · exact srd_word (n := 3#12) i (by decide) (by decide) rfl
    · exact srd_word (n := 4#12) i (by decide) (by decide) rfl
    · exact srd_word (n := 5#12) i (by decide) (by decide) rfl
    · exact srd_word (n := 6#12) i (by decide) (by decide) (fpc_eq h)
    · exact srd_word (n := 9#12) i (by decide) (by decide) rfl
    · exact srd_word (n := 10#12) i (by decide) (by decide) rfl
    · exact srd_word (n := 11#12) i (by decide) (by decide) rfl
  · simp only [List.mem_cons, List.not_mem_nil, or_false] at hq
    rcases hq with rfl | rfl | rfl | rfl | rfl
    · exact srd_wide (n := 7#12) i (by decide) (by decide) rfl
    · exact srd_wide (n := 8#12) i (by decide) (by decide) rfl
    · exact srd_wide (n := 12#12) i (by decide) (by decide) rfl
    · exact srd_wide (n := 13#12) i (by decide) (by decide) rfl
    · exact srd_wide (n := 14#12) i (by decide) (by decide) rfl

end Sys2Proof.Machine
end

section

/-! SUPPORT. The checks at issue of the lane instructions that touch no memory (R155): what each check finds, and that every form makes them.
-/

namespace Sys2Proof.Machine

/-! ## Index ranges (R59) -/

theorem indexBad_eq (h : Here) (ex : LaneMask) (w : BitVec 2) (x : BitVec 3) :
    h.indexBad ex w x = ((Src.win w x).faults h ex, (Src.win w x).past h) := by
  unfold Here.indexBad Src.faults Src.past
  dsimp only
  split
  · next hp => rw [decide_eq_true hp]
  · next hp => rw [decide_eq_false hp]

/-- What the check of one operand finds. -/
theorem indexed_eq (h : Here) (ex : LaneMask) (bit : Byte) (w : BitVec 2) (x : BitVec 3) :
    (if (h.indexBad ex w x).1 = 0#32 then ((0#8, 0#32) : Byte × LaneMask)
      else (bit ||| (if (h.indexBad ex w x).2 then 8#8 else 0#8), (h.indexBad ex w x).1)) =
    ((Src.win w x).subCause h ex bit, (Src.win w x).faults h ex) := by
  rw [indexBad_eq]
  unfold Src.subCause
  dsimp only
  split
  · next hf => rw [hf]
  · rfl

theorem subCause_reg (h : Here) (ex : LaneMask) (bit : Byte) (r : Reg) : (Src.reg r).subCause h ex bit = 0#8 := if_pos rfl

/-- The check of the three operands: the sub-cause of each, and all lanes at fault. -/
theorem indexCheck_eq (h : Here) (ex : LaneMask) (d : Dst) (a b : Option Src) : h.indexCheck ex d a b =
    (d.asSrc.subCause h ex 1#8 ||| (a.getD (.reg 0#6)).subCause h ex 2#8 ||| (b.getD (.reg 0#6)).subCause h ex 4#8,
      d.asSrc.faults h ex ||| (a.getD (.reg 0#6)).faults h ex ||| (b.getD (.reg 0#6)).faults h ex) := by
  have src (o : Option Src) (bit : Byte) : (match (match o with
        | some (.win w x) => some (w, x)
        | some (.reg _) => none
        | none => none : Option (BitVec 2 × BitVec 3)) with
      | none => (0#8, 0#32)
      | some p =>
        if (h.indexBad ex p.1 p.2).1 = 0#32 then (0#8, 0#32)
        else (bit ||| (if (h.indexBad ex p.1 p.2).2 then 8#8 else 0#8), (h.indexBad ex p.1 p.2).1) : Byte × LaneMask) =
      ((o.getD (.reg 0#6)).subCause h ex bit, (o.getD (.reg 0#6)).faults h ex) := by
    rcases o with - | (r | ⟨w, x⟩)
    · exact Prod.ext (subCause_reg h ex bit 0#6).symm rfl
    · exact Prod.ext (subCause_reg h ex bit r).symm rfl
    · exact indexed_eq h ex bit w x
  have dst (bit : Byte) : (match (match d with
        | .win w x => some (w, x)
        | .none | .regs _ _ | .index _ => none : Option (BitVec 2 × BitVec 3)) with
      | none => (0#8, 0#32)
      | some p =>
        if (h.indexBad ex p.1 p.2).1 = 0#32 then (0#8, 0#32)
        else (bit ||| (if (h.indexBad ex p.1 p.2).2 then 8#8 else 0#8), (h.indexBad ex p.1 p.2).1) : Byte × LaneMask) =
      (d.asSrc.subCause h ex bit, d.asSrc.faults h ex) := by
    cases d with
    | none => exact Prod.ext (subCause_reg h ex bit 0#6).symm rfl
    | regs r n => exact Prod.ext (subCause_reg h ex bit 0#6).symm rfl
    | win w x => exact indexed_eq h ex bit w x
    | index x => exact Prod.ext (subCause_reg h ex bit 0#6).symm rfl
  exact congrArg₂ (fun (x y : Byte × LaneMask) => (x.1 ||| y.1, x.2 ||| y.2))
    (congrArg₂ (fun (x y : Byte × LaneMask) => (x.1 ||| y.1, x.2 ||| y.2)) (dst 1#8) (src a 2#8)) (src b 4#8)

/-! ## Poison (R219) -/

theorem poisonRead_eq (h : Here) (ex : LaneMask) (rs : List Src) :
    h.poisonRead ex rs = ex &&& rs.foldl (fun m x => m ||| h.poisonOf x) 0#32 := by
  have go (rs : List Src) (m : LaneMask) : rs.foldl (fun m r => m ||| (ex &&& h.poisonOf r)) (ex &&& m) =
      ex &&& rs.foldl (fun m x => m ||| h.poisonOf x) m := by
    induction rs generalizing m with
    | nil => rfl
    | cons x t ih => rw [List.foldl_cons, List.foldl_cons, ← BitVec.and_or_distrib_left, ih]
  have := go rs 0#32
  rwa [BitVec.and_zero] at this

/-! ## The checks in order -/

theorem budgetGate_traps {s : State} {h : Here} {i : Instr} {rise : Nat} (hr : rise ≠ 0) (hb : h.g.budget < h.group.charge + rise)
    (hf : h.group.inFlight = false) : budgetGate s h i rise = some (trapOf s h i (.plain cIllegal 0x01#8 h.lanes)) := by
  unfold budgetGate
  rw [if_neg (by simp [hr, Nat.not_le.mpr hb]), hf]
  rfl

theorem budgetGate_waits {s : State} {h : Here} {i : Instr} {rise : Nat} (hr : rise ≠ 0) (hb : h.g.budget < h.group.charge + rise)
    (hf : h.group.inFlight = true) : budgetGate s h i rise = some (s.put (h.wait .result)) := by
  unfold budgetGate
  rw [if_neg (by simp [hr, Nat.not_le.mpr hb]), hf]
  rfl

/-- An instruction that stops where a check at issue does makes the checks. -/
theorem checks_of {i : Instr} {k : KReg} {d : Dst} {a b : Option Src} {reads : List Src} {late : Bool} (la : Here → Option Nat)
    (hla : ∀ h, (la h).isSome = late) {F : State → Here → State} (e : ∀ s, exec i s = onFragment s i .lane (F s))
    (hF : ∀ s h t, h.exec k ≠ 0#32 → issueGates s h ⟨i, k, d, a, b, reads, [], la h⟩ (h.exec k) = some t → F s h = t) :
    ChecksAtIssue i k d a b reads late := by
  intro s h q ha
  have run (t : State) (ht : issueGates s h ⟨i, k, d, a, b, reads, [], la h⟩ (h.exec k) = some t) : exec i s = .next t := by
    rw [e, onFragment_issues q, hF s h t ha ht]
  refine ⟨fun hr hb hf => run _ ?_, fun hr hb hf => run _ ?_, fun hb => ⟨fun hx => run _ ?_, fun hx hp => run _ ?_⟩⟩
  · unfold issueGates
    rw [hla, budgetGate_traps hr hb hf]
  · unfold issueGates
    rw [hla, budgetGate_waits hr hb hf]
  · unfold issueGates
    rw [hla, budgetGate_none hb]
    dsimp only
    rw [indexCheck_eq, if_pos hx]
  · unfold issueGates
    rw [hla, budgetGate_none hb]
    dsimp only
    rw [indexCheck_eq, if_neg (not_not_intro hx), poisonRead_eq, if_pos hp]

theorem runLane_gate {s t : State} {h : Here} {sh : LaneShape} {f : LaneMask → LaneResult} (ha : h.exec sh.k ≠ 0#32)
    (ht : issueGates s h sh (h.exec sh.k) = some t) : runLane s h sh f = t := by
  unfold runLane
  dsimp only
  rw [if_neg ha, ht]

/-! ## The forms -/

section
variable {i : Instr} {k : KReg} {d : Dst} {a b : Option Src} {reads : List Src}

/-- A form whose result takes a single clock. -/
theorem runLane_checks {f : State → Here → LaneMask → LaneResult}
    (e : ∀ s, exec i s = onFragment s i .lane (fun h => runLane s h ⟨i, k, d, a, b, reads, [], none⟩ (f s h))) :
    ChecksAtIssue i k d a b reads false :=
  checks_of (fun _ => none) (fun _ => rfl) e fun _ _ _ ha => runLane_gate (sh := ⟨i, k, d, a, b, reads, [], none⟩) ha

/-- A form whose result may come late (R94). -/
theorem runLane_late_checks {la : Here → Nat} {f : State → Here → LaneMask → LaneResult}
    (e : ∀ s, exec i s = onFragment s i .lane (fun h => runLane s h ⟨i, k, d, a, b, reads, [], some (la h)⟩ (f s h))) :
    ChecksAtIssue i k d a b reads true :=
  checks_of (fun h => some (la h)) (fun _ => rfl) e fun _ h _ ha => runLane_gate (sh := ⟨i, k, d, a, b, reads, [], some (la h)⟩) ha

end

theorem lrB_checks {i : Instr} {o : LrB} {cs : CodeSet} {f : Here → Fin 32 → Word → Word → LaneOut} (e : ∀ s, exec i s = lrB s i o cs f) :
    ChecksAtIssue i o.k (dstD o.ix o.d) (some (srcA o.ix o.a)) (some (srcB o.ix o.b)) [srcA o.ix o.a, srcB o.ix o.b] false := runLane_checks e

theorem lrD_checks {i : Instr} {o : LrB} {cs : CodeSet} {f : Here → Word → Word → Word → LaneOut} (e : ∀ s, exec i s = lrD s i o cs f) :
    ChecksAtIssue i o.k (dstD o.ix o.d) (some (srcA o.ix o.a)) (some (srcB o.ix o.b)) [srcA o.ix o.a, srcB o.ix o.b, srcD o.ix o.d] false :=
  runLane_checks e

theorem lrU_checks {i : Instr} {o : LrU} {cs : CodeSet} {f : Word → LaneOut} (e : ∀ s, exec i s = lrU s i o cs f) :
    ChecksAtIssue i o.k (dstD o.ix o.d) (some (srcA o.ix o.a)) none [srcA o.ix o.a] false := runLane_checks e

theorem lrC_checks {i : Instr} {o : LrC} {f : Word → Word → LaneOut} (e : ∀ s, exec i s = lrC s i o f) :
    ChecksAtIssue i o.k .none (some (srcA o.ix o.a)) (some (srcB o.ix o.b)) [srcA o.ix o.a, srcB o.ix o.b] false := runLane_checks e

theorem lrCvt_checks {i : Instr} {o : CvtOp} {f : BitVec 2 → Bool → Word → LaneOut} (e : ∀ s, exec i s = lrCvt s i o f) :
    ChecksAtIssue i o.k (dstD o.ix o.d) (some (srcA o.ix o.a)) none [srcA o.ix o.a] false :=
  runLane_checks fun s => (e s).trans (lrCvt_eq s i o f)

theorem liRun_checks {i : Instr} {k : KReg} {c : Bool} {d a : Reg} {cs : CodeSet} {f : Word → LaneOut} (e : ∀ s, exec i s = liRun s i k c d a cs f) :
    ChecksAtIssue i k (.regs d 1) none none [.reg a] false := runLane_checks e

theorem llB_checks {i : Instr} {o : LlB} {en dv : Bool} {f : Here → Word → Word → LaneOut} (e : ∀ s, exec i s = llB s i o en dv f) :
    ChecksAtIssue i o.k (.regs o.d 1) none none [.reg o.a, .reg o.b] true := runLane_late_checks e

theorem llU_checks {i : Instr} {o : LlU} {f : BitVec 2 → Word → LaneOut} (e : ∀ s, exec i s = llU s i o f) :
    ChecksAtIssue i o.k (.regs o.d 1) none none [.reg o.a] true := runLane_late_checks e

theorem lpRun_checks {i : Instr} {o : LpB} {b d : Bool} {f : Here → Word → Word → Word → LaneOut} {reads : List Src}
    (e : ∀ s, exec i s = lpRun s i o b d f)
    (hr : [Src.reg o.a] ++ (if b then [Src.reg o.b] else []) ++ (if d then [Src.reg o.d] else []) = reads) :
    ChecksAtIssue i (0#1 ++ o.k) (.regs o.d 1) none none reads false := by
  subst hr
  exact runLane_checks e

theorem crossRun_checks {i : Instr} {k : KReg} {d : Reg} {reads : List Src} {old : Bool} {F : Here → LaneMask → LaneResult}
    (e : ∀ s, exec i s = crossRun s i (crossShape i k d reads) old F) : ChecksAtIssue i k (.regs d 1) none none reads false := by
  refine checks_of (fun _ => none) (fun _ => rfl) e fun s h t ha ht => ?_
  have ha' : ¬ h.exec (crossShape i k d reads).k = 0#32 := ha
  have ht' : issueGates s h (crossShape i k d reads) (h.exec (crossShape i k d reads).k) = some t := ht
  dsimp only
  rw [if_neg ha', ht']

theorem cvtType_width_pos (t : CvtType) : 0 < t.width := by
  cases t with
  | packed t => cases t <;> decide
  | f32 => decide

theorem cvtRegs_eq {ws wt : Nat} (hs : 0 < ws) (ht : 0 < wt) : cvtRegs ws wt = (ws / min ws wt, wt / min ws wt) := by
  unfold cvtRegs
  split
  · next h => rw [Nat.min_eq_right h.le, Nat.div_self ht]
  · next h => rw [Nat.min_eq_left (Nat.le_of_not_lt h), Nat.div_self hs]

theorem pcvt_checks (o : PcvtOp) :
    let src : CvtType := if o.toU then .packed o.t else o.u
    let dst : CvtType := if o.toU then o.u else .packed o.t
    ChecksAtIssue (.pcvt o) (0#1 ++ o.k) (.regs o.d (dst.width / min src.width dst.width)) none none
      ((regsFrom o.a (src.width / min src.width dst.width)).map Src.reg) false := by
  intro src dst
  have h := cvtRegs_eq (cvtType_width_pos src) (cvtType_width_pos dst)
  have hs : (cvtRegs src.width dst.width).1 = src.width / min src.width dst.width := congrArg Prod.fst h
  have hd : (cvtRegs src.width dst.width).2 = dst.width / min src.width dst.width := congrArg Prod.snd h
  rw [← hs, ← hd]
  exact runLane_checks fun s => (rfl : execPcvt o s = _)

theorem lrB_forms_check (o : LrB) (i : Instr) (hi : i ∈ [.iadd o, .isub o, .iaddc o, .isubb o, .imin o, .imax o, .iminu o, .imaxu o, .iand o, .ior o,
    .ixor o, .iandn o, .ishl o, .ishr o, .isra o, .irot o, .ibyte o, .imul o, .imulh o, .imulhu o, .ibfe o, .ibfeu o, .fadd o, .fsub o, .fmul o,
    .fmin o, .fmax o, .fsel o, .fcpys o]) :
    ChecksAtIssue i o.k (dstD o.ix o.d) (some (srcA o.ix o.a)) (some (srcB o.ix o.b)) [srcA o.ix o.a, srcB o.ix o.b] false := by
  simp only [List.mem_cons, List.not_mem_nil, or_false] at hi
  rcases hi with rfl | rfl | rfl | rfl | rfl | rfl | rfl | rfl | rfl | rfl | rfl | rfl | rfl | rfl | rfl | rfl | rfl | rfl | rfl | rfl | rfl | rfl |
    rfl | rfl | rfl | rfl | rfl | rfl | rfl
  exacts [lrB_checks fun s => (rfl : execIadd o s = _), lrB_checks fun s => (rfl : execIsub o s = _), lrB_checks fun s => (rfl : execIaddc o s = _),
      lrB_checks fun s => (rfl : execIsubb o s = _), lrB_checks fun s => (rfl : execImin o s = _), lrB_checks fun s => (rfl : execImax o s = _),
      lrB_checks fun s => (rfl : execIminu o s = _), lrB_checks fun s => (rfl : execImaxu o s = _), lrB_checks fun s => (rfl : execIand o s = _),
      lrB_checks fun s => (rfl : execIor o s = _), lrB_checks fun s => (rfl : execIxor o s = _), lrB_checks fun s => (rfl : execIandn o s = _),
      lrB_checks fun s => (rfl : execIshl o s = _), lrB_checks fun s => (rfl : execIshr o s = _), lrB_checks fun s => (rfl : execIsra o s = _),
      lrB_checks fun s => (rfl : execIrot o s = _), lrB_checks fun s => (rfl : execIbyte o s = _), lrB_checks fun s => (rfl : execImul o s = _),
      lrB_checks fun s => (rfl : execImulh o s = _), lrB_checks fun s => (rfl : execImulhu o s = _), lrB_checks fun s => (rfl : execIbfe o s = _),
      lrB_checks fun s => (rfl : execIbfeu o s = _), lrB_checks fun s => (rfl : execFadd o s = _), lrB_checks fun s => (rfl : execFsub o s = _),
      lrB_checks fun s => (rfl : execFmul o s = _), lrB_checks fun s => (rfl : execFmin o s = _), lrB_checks fun s => (rfl : execFmax o s = _),
      lrB_checks fun s => (rfl : execFsel o s = _), lrB_checks fun s => (rfl : execFcpys o s = _)]

/-- Settles O16: every form stops where a check at issue does. -/
theorem laneChecks : Obligations.LaneChecks := by
  unfold Obligations.LaneChecks
  refine ⟨lrB_forms_check, fun o i hi => ?_, fun o i hi => ?_, fun o i hi => ?_,
    fun o => lrB_checks (i := .isel o) (o := ⟨o.k, false, o.d, o.a, o.b, o.ix⟩) fun s => (rfl : execIsel o s = _), fun o i hi => ?_,
    fun o => runLane_checks fun s => (rfl : execFmas o s = _), fun o i hi => ?_, fun o i hi => ?_,
    fun o => runLane_checks fun s => (rfl : execImovi o s = _), fun o i hi => ?_, fun o i hi => ?_, fun o i hi => ?_, fun o i hi => ?_, fun o i hi => ?_,
    fun o => pcvt_checks o, fun o i hi => ?_, fun o i hi => ?_, fun o => crossRun_checks fun s => (rfl : execXisect o s = _)⟩
  all_goals simp only [List.mem_cons, List.not_mem_nil, or_false] at hi
  · rcases hi with rfl | rfl | rfl | rfl | rfl
    exacts [lrD_checks fun s => (rfl : execImad o s = _), lrD_checks fun s => (rfl : execIbfi o s = _), lrD_checks fun s => (rfl : execFma o s = _),
      lrD_checks fun s => (rfl : execFms o s = _), lrD_checks fun s => (rfl : execFnma o s = _)]
  · rcases hi with rfl | rfl | rfl | rfl | rfl | rfl | rfl | rfl | rfl | rfl
    exacts [lrU_checks fun s => (rfl : execIabs o s = _), lrU_checks fun s => (rfl : execIneg o s = _), lrU_checks fun s => (rfl : execInot o s = _),
      lrU_checks fun s => (rfl : execImov o s = _), lrU_checks fun s => (rfl : execIclz o s = _), lrU_checks fun s => (rfl : execIpopc o s = _),
      lrU_checks fun s => (rfl : execIbrev o s = _), lrU_checks fun s => (rfl : execFabs o s = _), lrU_checks fun s => (rfl : execFneg o s = _),
      lrU_checks fun s => (rfl : execFclass o s = _)]
  · rcases hi with rfl | rfl | rfl
    exacts [lrC_checks fun s => (rfl : execIcmp o s = _), lrC_checks fun s => (rfl : execIcmpu o s = _), lrC_checks fun s => (rfl : execFcmp o s = _)]
  · rcases hi with rfl | rfl | rfl | rfl | rfl | rfl | rfl | rfl | rfl
    exacts [lrCvt_checks fun s => (rfl : execFrnd o s = _), lrCvt_checks fun s => (rfl : execCvtfi o s = _),
      lrCvt_checks fun s => (rfl : execCvtfn o s = _), lrCvt_checks fun s => (rfl : execCvtif o s = _),
      lrCvt_checks fun s => (rfl : execCvtnf o s = _), lrCvt_checks fun s => (rfl : execCvtfh o s = _),
      lrCvt_checks fun s => (rfl : execCvtfb o s = _), lrCvt_checks fun s => (rfl : execCvthf o s = _),
      lrCvt_checks fun s => (rfl : execCvtbf o s = _)]
  · rcases hi with rfl | rfl | rfl | rfl
    exacts [liRun_checks fun s => (rfl : execIaddi o s = _), liRun_checks fun s => (rfl : execIandi o s = _),
      liRun_checks fun s => (rfl : execIori o s = _), liRun_checks fun s => (rfl : execIxori o s = _)]
  · rcases hi with rfl | rfl | rfl
    exacts [liRun_checks fun s => (rfl : execIshli o s = _), liRun_checks fun s => (rfl : execIshri o s = _),
      liRun_checks fun s => (rfl : execIsrai o s = _)]
  · rcases hi with rfl | rfl | rfl | rfl | rfl
    exacts [llB_checks fun s => (rfl : execIdiv o s = _), llB_checks fun s => (rfl : execIdivu o s = _), llB_checks fun s => (rfl : execIrem o s = _),
      llB_checks fun s => (rfl : execIremu o s = _), llB_checks fun s => (rfl : execFdiv o s = _)]
  · rcases hi with rfl | rfl | rfl | rfl | rfl | rfl | rfl | rfl | rfl
    exacts [llU_checks fun s => (rfl : execFsqrt o s = _), llU_checks fun s => (rfl : execFrcp o s = _), llU_checks fun s => (rfl : execFrsq o s = _),
      llU_checks fun s => (rfl : execFexp2 o s = _), llU_checks fun s => (rfl : execFlog2 o s = _), llU_checks fun s => (rfl : execFsin o s = _),
      llU_checks fun s => (rfl : execFcos o s = _), llU_checks fun s => (rfl : execFtanh o s = _), llU_checks fun s => (rfl : execFsigm o s = _)]
  · rcases hi with rfl | rfl | rfl | rfl | rfl | rfl | rfl | rfl
    exacts [lpRun_checks (fun s => (rfl : execPadd o s = _)) rfl, lpRun_checks (fun s => (rfl : execPsub o s = _)) rfl,
      lpRun_checks (fun s => (rfl : execPmul o s = _)) rfl, lpRun_checks (fun s => (rfl : execPmin o s = _)) rfl,
      lpRun_checks (fun s => (rfl : execPmax o s = _)) rfl, lpRun_checks (fun s => (rfl : execPavg o s = _)) rfl,
      lpRun_checks (fun s => (rfl : execPcmpeq o s = _)) rfl, lpRun_checks (fun s => (rfl : execPcmplt o s = _)) rfl]
  · rcases hi with rfl | rfl | rfl
    exacts [lpRun_checks (fun s => (rfl : execPfma o s = _)) rfl, lpRun_checks (fun s => (rfl : execPdot o s = _)) rfl,
      lpRun_checks (fun s => (rfl : execPsad o s = _)) rfl]
  · rcases hi with rfl | rfl
    exacts [lpRun_checks (fun s => (rfl : execPabs o s = _)) rfl, lpRun_checks (fun s => (rfl : execPmov o s = _)) rfl]
  · rcases hi with rfl | rfl | rfl | rfl
    exacts [crossRun_checks fun s => (rfl : execXvote o s = _), crossRun_checks fun s => (rfl : redForm s (.xred o) o .red = _),
      crossRun_checks fun s => (rfl : redForm s (.xscan o) o .scan = _), crossRun_checks fun s => (rfl : redForm s (.xscane o) o .scane = _)]
  · rcases hi with rfl | rfl | rfl
    exacts [crossRun_checks fun s => (rfl : execXshfl o s = _), crossRun_checks fun s => (rfl : segForm s (.xsegred o) o .red = _),
      crossRun_checks fun s => (rfl : segForm s (.xsegscan o) o .scan = _)]

end Sys2Proof.Machine
end

section

/-! SUPPORT. A lane instruction under lookahead: the fragment goes on with its registers as they were and one result more in flight (R94, R95).
-/

namespace Sys2Proof.Machine

/-! ## A result that flies -/

/-- A result is the words `val` for n registers in the lanes `m`; `bad` says which of them are poisoned. -/
structure LaneResult.Carries (r : LaneResult) (m : LaneMask) (n : Nat) (val : Fin 32 → Nat → Word) (bad : Fin 32 → Nat → Prop) : Prop where
  mask : r.mask = m
  count : r.outs.length = n
  words : ∀ j o, r.outs[j]? = some o → ∀ l : Fin 32, m.getLsbD l.val = true → o.1[l] = val l j ∧ (o.2.getLsbD l.val = true ↔ bad l j)

/-- A result in flight of a fragment: the words `val` of the lanes `m` for n registers from d up, with Z of some lanes. -/
structure Pending.Bears (x : Pending) (h : Here) (la : BitVec 4) (m : LaneMask) (d : Reg) (n : Nat) (val : Fin 32 → Nat → Word)
    (bad : Fin 32 → Nat → Prop) (z : LaneMask × LaneMask) : Prop where
  left : x.left = la.toNat
  uni : x.uni = []
  zMask : x.zMask = z.1
  zVal : x.zVal = z.2
  count : x.regs.length = (if m = 0#32 then 0 else n)
  regs : ∀ j r, x.regs[j]? = some r → r.reg = d + BitVec.ofNat 6 j ∧ r.mask = m ∧ r.trap = h.trapReg r.reg ∧ r.arrived = false ∧
    r.dropped = false ∧ ∀ l : Fin 32, m.getLsbD l.val = true → r.lanes[l] = val l j ∧ (r.poison.getLsbD l.val = true ↔ bad l j)

theorem regsFrom_length (d : Reg) (n : Nat) : (regsFrom d n).length = n := by simp [regsFrom]

theorem regsFrom_get {d r : Reg} {n j : Nat} (h : (regsFrom d n)[j]? = some r) : r = d + BitVec.ofNat 6 j := by
  unfold regsFrom at h
  rw [List.getElem?_map] at h
  obtain ⟨i, hi, rfl⟩ := Option.map_eq_some_iff.mp h
  obtain ⟨-, rfl⟩ := List.getElem?_eq_some_iff.mp hi
  rw [List.getElem_range]

/-- What is in flight of a result. -/
theorem pendOf_bears {h h2 : Here} {d : Reg} {n : Nat} {r : LaneResult} {m : LaneMask} {val : Fin 32 → Nat → Word} {bad : Fin 32 → Nat → Prop}
    (q : r.Carries m n val bad) (ht : ∀ a, h2.trapReg a = h.trapReg a) {la : BitVec 4} {left : Nat} (hl : left = la.toNat) (key : Option ReuseKey) :
    (pendOf h2 d n r left key).Bears h la m d n val bad (0#32, 0#32) where
  left := hl
  uni := rfl
  zMask := rfl
  zVal := rfl
  count := by
    unfold pendOf
    rw [q.mask]
    split
    · rfl
    · simp [regsFrom_length, q.count]
  regs := by
    intro j x hx
    unfold pendOf at hx
    rw [q.mask] at hx
    split at hx
    · cases hx
    · rw [List.getElem?_map] at hx
      obtain ⟨⟨a, o⟩, hi, rfl⟩ := Option.map_eq_some_iff.mp hx
      obtain ⟨ha, ho⟩ := List.getElem?_zip_eq_some.mp hi
      exact ⟨regsFrom_get ha, rfl, ht a, rfl, rfl, q.words j o ho⟩

/-! ## Going on with a result in flight -/

/-- A fragment put back with a result in flight more has gone on under lookahead. -/
theorem put_flew {s t : State} {h k : Here} {i : Instr} {la : BitVec 4} {m ex out : LaneMask} {d : Reg} {n : Nat} {val : Fin 32 → Nat → Word}
    {bad : Fin 32 → Nat → Prop} {flags : Fin 32 → Flags} {z : LaneMask × LaneMask} {x : Pending} (near : Near s t h.r.core (s.core h.r.core).slots)
    (a : h.Acted k) (view : k.f.view = h.f.view) (group : { k.g with sticky := h.g.sticky, removed := h.g.removed } = h.g)
    (removed : k.g.removed = h.g.removed ||| out)
    (sticky : ∀ b : Nat, k.g.sticky.getLsbD b = (h.g.sticky.getLsbD b || (List.finRange 32).any (fun l => ex.getLsbD l.val && (flags l).getLsbD b)))
    (hx : x.Bears h la m d n val bad z) :
    LaneFlew s (t.put ((k.advance i.bytes).pend x)) h ((k.advance i.bytes).pend x).placed i la k.f.pending ex m out d n val bad flags z := by
  have q := (a.landed i.bytes).pend x
  have near' : Near s (t.put ((k.advance i.bytes).pend x)) h.r.core
      ((s.core h.r.core).slots.set h.r.slot (some ((k.advance i.bytes).pend x).group)) := Near.put_at q.ref near
  exact {
    on := q.went near'
    only := near'.only
    view := view
    group := by
      have e := congrArg (fun g : Group => { g with frags := h.g.frags }) group
      exact e
    removed := removed
    flags := sticky
    flight := ⟨x, rfl, hx.left, hx.uni, hx.zMask, hx.zVal, hx.count, hx.regs⟩ }

theorem without_eq (h : Here) (d : Reg) (n : Nat) : (regsFrom d n).foldl (dropVector · true) h.f.pending = h.without d n :=
  dropVectors_eq true (regsFrom d n) h.f.pending

/-- Nothing a result without codes leaves in its fragment but flags. -/
theorem coded_plain {h : Here} {ex : LaneMask} {r : LaneResult} (hc : r.codes = codesNone) (he : r.e = none) : h.coded ex r = h.raise r.flags := by
  unfold Here.coded
  rw [he, hc]
  rfl

/-- The fragment with its older results into n registers from d up discarded, where the new one writes a lane. -/
def Here.discards (h : Here) (d : Reg) (n : Nat) (m : LaneMask) : Here :=
  if m = 0#32 then h else { h with f := { h.f with pending := (regsFrom d n).foldl (dropVector · true) h.f.pending } }

theorem discards_pending (h : Here) (d : Reg) (n : Nat) (m : LaneMask) :
    (h.discards d n m).f.pending = if m = 0#32 then h.f.pending else h.without d n := by
  unfold Here.discards
  split
  · rfl
  · exact without_eq h d n

theorem discards_g (h : Here) (d : Reg) (n : Nat) (m : LaneMask) : (h.discards d n m).g = h.g := by unfold Here.discards; split <;> rfl
theorem discards_view (h : Here) (d : Reg) (n : Nat) (m : LaneMask) : (h.discards d n m).f.view = h.f.view := by
  unfold Here.discards; split <;> rfl

theorem Here.Acted.discards {h k : Here} (a : h.Acted k) (d : Reg) (n : Nat) (m : LaneMask) : h.Acted (k.discards d n m) := by
  unfold Here.discards
  split
  · exact a
  · exact ⟨a.ref, a.frags, a.frag⟩

theorem commitLane_late {t : State} {h : Here} {i : Instr} {kr : KReg} {d : Reg} {n k : Nat} {a b : Option Src} {reads : List Src} {us : List Reg}
    (ex : LaneMask) (r : LaneResult) (key : Option ReuseKey) : commitLane t h ⟨i, kr, .regs d n, a, b, reads, us, some (k + 1)⟩ ex r key =
      t.put ((((h.coded ex r).discards d n r.mask).advance i.bytes).pend (pendOf (h.coded ex r) d n r (k + 1) key)) := rfl

section
variable {s t : State} {h : Here} {i : Instr} {kr : KReg} {d : Reg} {n k : Nat} {a b : Option Src} {reads : List Src} {us : List Reg}
  {r : LaneResult} {la : BitVec 4} {m ex : LaneMask} {val : Fin 32 → Nat → Word} {bad : Fin 32 → Nat → Prop} {flags : Fin 32 → Flags}

/-- Commit under lookahead, where lanes `out` have been removed. -/
theorem commitLane_flew (out act : LaneMask) (key : Option ReuseKey) (hk : k + 1 = la.toNat) (q : r.Carries m n val bad) (hc : r.codes = codesNone)
    (he : r.e = none) (hf : ∀ b : Nat, r.flags.getLsbD b = (List.finRange 32).any (fun l => ex.getLsbD l.val && (flags l).getLsbD b))
    (near : Near s t h.r.core (s.core h.r.core).slots) :
    ∃ h', LaneFlew s (commitLane t (h.removeLanes out) ⟨i, kr, .regs d n, a, b, reads, us, some (k + 1)⟩ act r key) h h' i la
      (if m = 0#32 then h.f.pending else h.without d n) ex m out d n val bad flags (0#32, 0#32) := by
  rw [commitLane_late, coded_plain hc he, q.mask]
  have acted : h.Acted ((h.removeLanes out).raise r.flags) := ⟨rfl, rfl, rfl⟩
  have older : (((h.removeLanes out).raise r.flags).discards d n m).f.pending = if m = 0#32 then h.f.pending else h.without d n :=
    discards_pending _ d n m
  rw [← older]
  refine ⟨_, put_flew near (acted.discards d n m) ?_ ?_ ?_ ?_ (pendOf_bears (h := h) (d := d) q (fun _ => rfl) hk key)⟩
  · rw [discards_view]; rfl
  · rw [discards_g]; rfl
  · rw [discards_g]; rfl
  · intro b
    rw [discards_g, ← hf b]
    exact BitVec.getLsbD_or

/-- From the results on, where no division by zero and no class stops it. -/
theorem finishLane_flew (old : Bool) (mem : Option MemKey) (hex : ex ≠ 0#32) (hk : k + 1 = la.toNat) (q : r.Carries ex n val bad)
    (hc : r.codes = codesNone) (he : r.e = none) (hz : r.divz = 0#32) (hq : ∀ c : Fin 4, h.f.view.en.getLsbD c.val = true → r.cls c = 0#32)
    (hf : ∀ b : Nat, r.flags.getLsbD b = (List.finRange 32).any (fun l => ex.getLsbD l.val && (flags l).getLsbD b))
    (near : Near s t h.r.core (s.core h.r.core).slots) :
    ∃ h', LaneFlew s (finishLane t h ⟨i, kr, .regs d n, a, b, reads, us, some (k + 1)⟩ ex old mem r) h h' i la
      (h.without d n) ex ex 0#32 d n val bad flags (0#32, 0#32) := by
  unfold finishLane
  rw [if_neg (by simp [hz])]
  dsimp only
  rw [trapClass_none hq]
  have e := commitLane_flew (i := i) (kr := kr) (d := d) (a := a) (b := b) (reads := reads) (us := us) 0#32 ex
    (if (t.reuseFind h.r.core (h.reuseKey ⟨i, kr, .regs d n, a, b, reads, us, some (k + 1)⟩ ex old mem)).isSome then none
      else h.reuseKey ⟨i, kr, .regs d n, a, b, reads, us, some (k + 1)⟩ ex old mem) hk q hc he hf (near.countLookup
    (h.reuseKey ⟨i, kr, .regs d n, a, b, reads, us, some (k + 1)⟩ ex old mem)
    (t.reuseFind h.r.core (h.reuseKey ⟨i, kr, .regs d n, a, b, reads, us, some (k + 1)⟩ ex old mem)).isSome)
  rw [if_neg hex, show h.removeLanes 0#32 = h by unfold Here.removeLanes; rw [BitVec.or_zero]] at e
  exact e

end

end Sys2Proof.Machine
end

section

/-! SUPPORT. Divisions and special functions under lookahead (R94, R165, R174). -/

namespace Sys2Proof.Machine

/-! ## Division in words -/

theorem ofInt_tdiv (a b : Word) : BitVec.ofInt 32 (a.toInt.tdiv b.toInt) = a.sdiv b :=
  BitVec.eq_of_toInt_eq (by rw [BitVec.toInt_ofInt, BitVec.toInt_sdiv])

theorem ofInt_tmod (a b : Word) : BitVec.ofInt 32 (a.toInt.tmod b.toInt) = a.srem b := by
  rw [← BitVec.toInt_srem, BitVec.ofInt_toInt]

theorem ofNat_div (a b : Word) : BitVec.ofNat 32 (a.toNat / b.toNat) = a / b :=
  BitVec.eq_of_toNat_eq (by rw [BitVec.toNat_ofNat, BitVec.toNat_udiv, Nat.mod_eq_of_lt (lt_of_le_of_lt (Nat.div_le_self _ _) a.isLt)])

theorem ofNat_mod (a b : Word) : BitVec.ofNat 32 (a.toNat % b.toNat) = a % b :=
  BitVec.eq_of_toNat_eq (by rw [BitVec.toNat_ofNat, BitVec.toNat_umod, Nat.mod_eq_of_lt (lt_of_le_of_lt (Nat.mod_le _ _) a.isLt)])

/-! ## One word per lane -/

theorem perLane_outs (ex : LaneMask) (cs : CodeSet) (f : Fin 32 → LaneOut) :
    (perLane ex cs f).outs = [((perLane ex cs f).first.1, 0#32)] := rfl

theorem perLane_carries (ex : LaneMask) (cs : CodeSet) (f : Fin 32 → LaneOut) :
    (perLane ex cs f).Carries ex 1 (fun l _ => (f l).val) (fun _ _ => False) := by
  have hw := perLane_first ex cs f
  have ho := perLane_outs ex cs f
  generalize (perLane ex cs f).first.1 = w at ho hw
  refine ⟨rfl, by rw [ho]; rfl, fun j o hj l hl => ?_⟩
  rw [ho] at hj
  cases j with
  | zero =>
    obtain rfl := Option.some.inj hj
    exact ⟨hw l hl, by simp⟩
  | succ j => cases hj

theorem late_succ {la : BitVec 4} (h : la ≠ 0#4) : ∃ k, la.toNat = k + 1 :=
  Nat.exists_eq_succ_of_ne_zero fun e => h (BitVec.eq_of_toNat_eq e)

/-- A result is a word and flags for each lane of `ex`, without codes. -/
structure LaneResult.Plain (r : LaneResult) (ex : LaneMask) (f : Fin 32 → LaneOut) : Prop where
  carries : r.Carries ex 1 (fun l _ => (f l).val) (fun _ _ => False)
  codes : r.codes = codesNone
  e : r.e = none
  flags : ∀ b : Nat, r.flags.getLsbD b = (List.finRange 32).any (fun l => ex.getLsbD l.val && (f l).flags.getLsbD b)

theorem perLane_plain (ex : LaneMask) (f : Fin 32 → LaneOut) : (perLane ex codesNone f).Plain ex f :=
  ⟨perLane_carries ex codesNone f, rfl, rfl, perLane_flags ex codesNone f⟩

theorem LaneResult.Plain.divides {r : LaneResult} {ex : LaneMask} {f : Fin 32 → LaneOut} (q : r.Plain ex f) (z : LaneMask) :
    LaneResult.Plain { r with divz := z } ex f := ⟨⟨q.carries.mask, q.carries.count, q.carries.words⟩, q.codes, q.e, q.flags⟩

/-- A form of one result whose checks pass, under lookahead. -/
theorem runLane_flew {s : State} {h : Here} {i : Instr} {k : KReg} {d : Reg} {reads : List Src} {la : BitVec 4} {F : LaneMask → LaneResult}
    {f : Fin 32 → LaneOut} (q : LaneReady .lane s h i k (.regs d 1) none none reads true) (hla : la ≠ 0#4) (p : (F (h.exec k)).Plain (h.exec k) f)
    (hz : (F (h.exec k)).divz = 0#32) (hq : ∀ c : Fin 4, h.f.view.en.getLsbD c.val = true → (F (h.exec k)).cls c = 0#32) :
    ∃ h', LaneFlew s (runLane s h ⟨i, k, .regs d 1, none, none, reads, [], some la.toNat⟩ F) h h' i la (h.without d 1) (h.exec k) (h.exec k) 0#32 d 1
      (fun l _ => (f l).val) (fun _ _ => False) (fun l => (f l).flags) (0#32, 0#32) := by
  obtain ⟨n, hn⟩ := late_succ hla
  rw [hn]
  have gates : issueGates s h ⟨i, k, .regs d 1, none, none, reads, [], some (n + 1)⟩ (h.exec k) = none := issueGates_none _ rfl q
  unfold runLane
  dsimp only
  rw [if_neg q.active, gates]
  exact finishLane_flew _ none q.active hn.symm p.carries p.codes p.e hz hq p.flags (Near.refl _ _)

/-- The same for a form that divides. -/
theorem runLane_divides_flew {s : State} {h : Here} {i : Instr} {k : KReg} {d : Reg} {reads : List Src} {la : BitVec 4} (R : LaneMask → LaneResult)
    (z : LaneMask → LaneMask) {f : Fin 32 → LaneOut} (q : LaneReady .lane s h i k (.regs d 1) none none reads true) (hla : la ≠ 0#4)
    (p : (R (h.exec k)).Plain (h.exec k) f) (hz : z (h.exec k) = 0#32)
    (hq : ∀ c : Fin 4, h.f.view.en.getLsbD c.val = true → (R (h.exec k)).cls c = 0#32) :
    ∃ h', LaneFlew s (runLane s h ⟨i, k, .regs d 1, none, none, reads, [], some la.toNat⟩ (fun ex => { R ex with divz := z ex })) h h' i la
      (h.without d 1) (h.exec k) (h.exec k) 0#32 d 1 (fun l _ => (f l).val) (fun _ _ => False) (fun l => (f l).flags) (0#32, 0#32) :=
  runLane_flew q hla (p.divides _) hz hq

theorem no_classes {h : Here} (he : h.f.view.en = 0#4) {P : Fin 4 → Prop} (c : Fin 4) (hc : h.f.view.en.getLsbD c.val = true) : P c := by
  rw [he] at hc; simp at hc

theorem llU_flew {i : Instr} {o : LlU} {f : BitVec 2 → Word → LaneOut} {g : BitVec 2 → FVal → FRes} (e : ∀ s, exec i s = llU s i o f)
    (hf : ∀ rm a, f rm a = sfu (g rm) a) {s : State} {h : Here} (q : LaneReady .lane s h i o.k (.regs o.d 1) none none [.reg o.a] true)
    (hla : o.la ≠ 0#4) (hen : h.f.view.en = 0#4) :
    ∃ t h', exec i s = .next t ∧ LaneFlew s t h h' i o.la (h.without o.d 1) (h.exec o.k) (h.exec o.k) 0#32 o.d 1
      (fun l _ => BitVec.ofNat 32 (g h.f.view.rm (f32 (h.v o.a)[l])).bits) (fun _ _ => False) (fun l => (g h.f.view.rm (f32 (h.v o.a)[l])).flags)
      (0#32, 0#32) := by
  have hl : h.laFor o.la = o.la.toNat := if_pos hen
  have he : exec i s = .next (runLane s h ⟨i, o.k, .regs o.d 1, none, none, [.reg o.a], [], some o.la.toNat⟩
      (fun ex => perLane ex codesNone (fun l => f h.f.view.rm (h.v o.a)[l]))) := by
    rw [e, ← hl]
    exact onFragment_issues q.issues _
  obtain ⟨h', w⟩ := runLane_flew (F := fun ex => perLane ex codesNone (fun l => f h.f.view.rm (h.v o.a)[l])) q hla
    (perLane_plain (h.exec o.k) _) rfl (no_classes hen)
  refine ⟨_, h', he, ?_⟩
  simp only [hf] at w ⊢
  exact w

theorem llB_flew {i : Instr} {o : LlB} {en dv : Bool} {f : Here → Word → Word → LaneOut} {g : BitVec 2 → Word → Word → Word × Flags}
    (e : ∀ s, exec i s = llB s i o en dv f) (hf : ∀ h a b, (f h a b).val = (g h.f.view.rm a b).1 ∧ (f h a b).flags = (g h.f.view.rm a b).2)
    {s : State} {h : Here} (q : LaneReady .lane s h i o.k (.regs o.d 1) none none [.reg o.a, .reg o.b] true)
    (hla : o.la ≠ 0#4) (hen : en = true → h.f.view.en = 0#4) (hcl : en = false → ∀ a b, (f h a b).cls = 0#4)
    (hdv : dv = true → ∀ l : Fin 32, (h.exec o.k).getLsbD l.val = true → (h.v o.b)[l] ≠ 0#32) :
    ∃ t h', exec i s = .next t ∧ LaneFlew s t h h' i o.la (h.without o.d 1) (h.exec o.k) (h.exec o.k) 0#32 o.d 1
      (fun l _ => (g h.f.view.rm (h.v o.a)[l] (h.v o.b)[l]).1) (fun _ _ => False) (fun l => (g h.f.view.rm (h.v o.a)[l] (h.v o.b)[l]).2)
      (0#32, 0#32) := by
  have hz : (if dv = true then h.exec o.k &&& maskOf (fun l => (h.v o.b)[l] == 0#32) else 0#32 : LaneMask) = 0#32 := by
    split
    · next hd =>
      refine laneMask_ext fun l => ?_
      rw [BitVec.getLsbD_and, maskOf_getLsbD]
      cases hl : (h.exec o.k).getLsbD l.val with
      | false => simp
      | true => simpa using hdv hd l hl
    · rfl
  have hq : ∀ c : Fin 4, h.f.view.en.getLsbD c.val = true →
      (perLane (h.exec o.k) codesNone (fun l => f h (h.v o.a)[l] (h.v o.b)[l])).cls c = 0#32 := by
    cases en with
    | true => exact no_classes (hen rfl)
    | false =>
      intro c _
      refine laneMask_ext fun l => ?_
      rw [perLane_cls, hcl rfl]
      simp
  have hl : (if en then h.laFor o.la else o.la.toNat) = o.la.toNat := by
    split
    · next he => exact if_pos (hen he)
    · rfl
  have he : exec i s = .next (runLane s h ⟨i, o.k, .regs o.d 1, none, none, [.reg o.a, .reg o.b], [], some o.la.toNat⟩
      (fun ex => { perLane ex codesNone (fun l => f h (h.v o.a)[l] (h.v o.b)[l]) with
        divz := if dv then ex &&& maskOf (fun l => (h.v o.b)[l] == 0#32) else 0#32 })) := by
    rw [e, ← hl]
    exact onFragment_issues q.issues _
  obtain ⟨h', w⟩ := runLane_divides_flew (fun ex => perLane ex codesNone (fun l => f h (h.v o.a)[l] (h.v o.b)[l]))
    (fun ex => if dv then ex &&& maskOf (fun l => (h.v o.b)[l] == 0#32) else 0#32) q hla (perLane_plain (h.exec o.k) _) hz hq
  refine ⟨_, h', he, ?_⟩
  simp only [hf] at w
  exact w

/-- Divisions under lookahead. -/
theorem divisions_late (o : LlB) (p : Instr × (BitVec 2 → Word → Word → Word × Flags))
    (hp : p ∈ [(.idiv o, fun _ a b => (a.sdiv b, 0#5)), (.idivu o, fun _ a b => (a / b, 0#5)), (.irem o, fun _ a b => (a.srem b, 0#5)),
      (.iremu o, fun _ a b => (a % b, 0#5)),
      (.fdiv o, fun rm a b => (BitVec.ofNat 32 (divRes fmtF32 rm (f32 a) (f32 b)).bits, (divRes fmtF32 rm (f32 a) (f32 b)).flags))])
    (s : State) (h : Here) (q : LaneReady .lane s h p.1 o.k (.regs o.d 1) none none [.reg o.a, .reg o.b] true) (hla : o.la ≠ 0#4)
    (hen : p.1 = .fdiv o → h.f.view.en = 0#4)
    (hdv : ∀ l : Fin 32, (h.exec o.k).getLsbD l.val = true → p.1 = .fdiv o ∨ (h.v o.b)[l] ≠ 0#32) :
    let out (l : Fin 32) := p.2 h.f.view.rm (h.v o.a)[l] (h.v o.b)[l]
    ∃ t h', exec p.1 s = .next t ∧ LaneFlew s t h h' p.1 o.la (h.without o.d 1) (h.exec o.k) (h.exec o.k) 0#32 o.d 1
      (fun l _ => (out l).1) (fun _ _ => False) (fun l => (out l).2) (0#32, 0#32) := by
  obtain ⟨i, g⟩ := p
  simp only [List.mem_cons, List.not_mem_nil, or_false, Prod.mk.injEq] at hp
  dsimp only at *
  have int (i : Instr) (hi : i ≠ .fdiv o) (hdv : ∀ l : Fin 32, (h.exec o.k).getLsbD l.val = true → i = .fdiv o ∨ (h.v o.b)[l] ≠ 0#32)
      (l : Fin 32) (hl : (h.exec o.k).getLsbD l.val = true) : (h.v o.b)[l] ≠ 0#32 := (hdv l hl).resolve_left hi
  rcases hp with ⟨rfl, rfl⟩ | ⟨rfl, rfl⟩ | ⟨rfl, rfl⟩ | ⟨rfl, rfl⟩ | ⟨rfl, rfl⟩
  · exact llB_flew (i := .idiv o) (g := fun _ a b => (a.sdiv b, 0#5))
      (fun s => (rfl : execIdiv o s = _)) (fun _ a b => ⟨ofInt_tdiv a b, rfl⟩) q hla nofun (fun _ _ _ => rfl) fun _ => int (.idiv o) nofun hdv
  · exact llB_flew (i := .idivu o) (g := fun _ a b => (a / b, 0#5))
      (fun s => (rfl : execIdivu o s = _)) (fun _ a b => ⟨ofNat_div a b, rfl⟩) q hla nofun (fun _ _ _ => rfl) fun _ => int (.idivu o) nofun hdv
  · exact llB_flew (i := .irem o) (g := fun _ a b => (a.srem b, 0#5))
      (fun s => (rfl : execIrem o s = _)) (fun _ a b => ⟨ofInt_tmod a b, rfl⟩) q hla nofun (fun _ _ _ => rfl) fun _ => int (.irem o) nofun hdv
  · exact llB_flew (i := .iremu o) (g := fun _ a b => (a % b, 0#5))
      (fun s => (rfl : execIremu o s = _)) (fun _ a b => ⟨ofNat_mod a b, rfl⟩) q hla nofun (fun _ _ _ => rfl) fun _ => int (.iremu o) nofun hdv
  · exact llB_flew (i := .fdiv o) (g := fun rm a b => (BitVec.ofNat 32 (divRes fmtF32 rm (f32 a) (f32 b)).bits, (divRes fmtF32 rm (f32 a) (f32 b)).flags))
      (fun s => (rfl : execFdiv o s = _)) (fun _ a b => ⟨rfl, rfl⟩) q hla (fun _ => hen rfl) nofun nofun

theorem specials_late (o : LlU) (p : Instr × (BitVec 2 → FVal → FRes))
    (hp : p ∈ [(.fsqrt o, sqrtRes), (.frcp o, rcpRes), (.frsq o, rsqRes), (.fexp2 o, fun _ => exp2Res), (.flog2 o, fun _ => log2Res),
      (.fsin o, fun _ => sinRes), (.fcos o, fun _ => cosRes), (.ftanh o, fun _ => tanhRes), (.fsigm o, fun _ => sigmRes)])
    (s : State) (h : Here) (q : LaneReady .lane s h p.1 o.k (.regs o.d 1) none none [.reg o.a] true) (hla : o.la ≠ 0#4) (hen : h.f.view.en = 0#4) :
    let out (l : Fin 32) := p.2 h.f.view.rm (f32 (h.v o.a)[l])
    ∃ t h', exec p.1 s = .next t ∧ LaneFlew s t h h' p.1 o.la (h.without o.d 1) (h.exec o.k) (h.exec o.k) 0#32 o.d 1
      (fun l _ => BitVec.ofNat 32 (out l).bits) (fun _ _ => False) (fun l => (out l).flags) (0#32, 0#32) := by
  obtain ⟨i, g⟩ := p
  simp only [List.mem_cons, List.not_mem_nil, or_false, Prod.mk.injEq] at hp
  dsimp only at *
  rcases hp with ⟨rfl, rfl⟩ | ⟨rfl, rfl⟩ | ⟨rfl, rfl⟩ | ⟨rfl, rfl⟩ | ⟨rfl, rfl⟩ | ⟨rfl, rfl⟩ | ⟨rfl, rfl⟩ | ⟨rfl, rfl⟩ | ⟨rfl, rfl⟩
  · exact llU_flew (i := .fsqrt o) (g := sqrtRes) (fun s => (rfl : execFsqrt o s = _)) (fun _ _ => rfl) q hla hen
  · exact llU_flew (i := .frcp o) (g := rcpRes) (fun s => (rfl : execFrcp o s = _)) (fun _ _ => rfl) q hla hen
  · exact llU_flew (i := .frsq o) (g := rsqRes) (fun s => (rfl : execFrsq o s = _)) (fun _ _ => rfl) q hla hen
  · exact llU_flew (i := .fexp2 o) (g := fun _ => exp2Res) (fun s => (rfl : execFexp2 o s = _)) (fun _ _ => rfl) q hla hen
  · exact llU_flew (i := .flog2 o) (g := fun _ => log2Res) (fun s => (rfl : execFlog2 o s = _)) (fun _ _ => rfl) q hla hen
  · exact llU_flew (i := .fsin o) (g := fun _ => sinRes) (fun s => (rfl : execFsin o s = _)) (fun _ _ => rfl) q hla hen
  · exact llU_flew (i := .fcos o) (g := fun _ => cosRes) (fun s => (rfl : execFcos o s = _)) (fun _ _ => rfl) q hla hen
  · exact llU_flew (i := .ftanh o) (g := fun _ => tanhRes) (fun s => (rfl : execFtanh o s = _)) (fun _ _ => rfl) q hla hen
  · exact llU_flew (i := .fsigm o) (g := fun _ => sigmRes) (fun s => (rfl : execFsigm o s = _)) (fun _ _ => rfl) q hla hen

end Sys2Proof.Machine
end

section

/-! SUPPORT. What a load leaves behind beside its result (R264, R268, R274, R396): copies, replicas and the observer's records; no byte at
its home changes.
-/

namespace Sys2Proof.Machine

/-! ## Bytes at their homes -/

theorem heldByte_some {s : State} {a : Nat} {v : Byte} :
    s.heldByte a = some v ↔ ∃ c, tableFind s.registered a = some c ∧ tableFind (s.core c).l1 a = some (.dirty v) := by
  unfold State.heldByte
  cases hr : tableFind s.registered a with
  | none => simp
  | some c =>
    cases hl : tableFind (s.core c).l1 a with
    | none => simp [hl]
    | some b => cases b <;> simp [hl]

/-- Dirty bytes that stay leave every held byte. -/
theorem heldByte_congr {s t : State} (hr : t.registered = s.registered)
    (hl : ∀ (c : Fin 256) (a : Nat) (v : Byte), tableFind (t.core c).l1 a = some (.dirty v) ↔ tableFind (s.core c).l1 a = some (.dirty v)) (a : Nat) :
    t.heldByte a = s.heldByte a := by
  refine Option.ext fun v => ?_
  simp only [heldByte_some, hr, hl]

/-- The freeze entries of a package, without holders, say which bytes are frozen. -/
theorem isFrozen_bare {s t : State} (h : t.contexts.map Context.bare = s.contexts.map Context.bare) (a : Nat) : t.isFrozen a = s.isFrozen a := by
  have key (u : State) : u.isFrozen a = (u.contexts.map Context.bare).any (fun c => c.regions.any (fun e => e.2.freezes a)) := by
    unfold State.isFrozen State.frozenBy
    rw [List.any_map]
    induction u.contexts with
    | nil => rfl
    | cons x l ih =>
      rw [List.findSome?_cons, List.any_cons, ← ih]
      have hx : (Context.bare x).regions.any (fun e => e.2.freezes a) = (x.regions.find? (fun e => e.2.freezes a)).isSome := by
        rw [List.isSome_find?]
        exact List.any_map
      simp only [Function.comp, hx]
      cases x.regions.find? (fun e => e.2.freezes a) with
      | none => simp
      | some e => simp
  rw [key t, key s, h]

/-! ## Accounts -/

theorem Accounted.refl (s : State) (c : Fin 256) : Accounted s s c := ⟨rfl, rfl, fun _ _ => rfl, rfl, fun _ => rfl⟩

theorem Accounted.trans {s t u : State} {c : Fin 256} (a : Accounted s t c) (b : Accounted t u c) : Accounted s u c where
  package := by
    have e := congrArg (fun x : State => { x with
      cores := s.cores, contexts := s.contexts, sliceCopies := s.sliceCopies, grants := s.grants, choices := s.choices }) b.package
    exact e.trans a.package
  contexts := b.contexts.trans a.contexts
  cores := fun d hd => (b.cores d hd).trans (a.cores d hd)
  core := by
    have e := congrArg (fun k : Core => { k with
      l1 := (s.core c).l1, observed := (s.core c).observed, unobservable := (s.core c).unobservable
      budgeted := (s.core c).budgeted, loaded := (s.core c).loaded }) b.core
    exact e.trans a.core
  homes := fun x => (b.homes x).trans (a.homes x)

theorem accounted_foldl {α : Type} {c : Fin 256} (f : State → α → State) (hf : ∀ s x, Accounted s (f s x) c) (l : List α) :
    ∀ s, Accounted s (l.foldl f s) c := by
  induction l with
  | nil => exact fun s => .refl s c
  | cons x l ih => exact fun s => (hf s x).trans (ih _)

theorem homeByte_of {s t : State} {a : Nat} (hh : t.heldByte a = s.heldByte a) (hk : t.keptByte a = s.keptByte a) (hm : t.memGet a = s.memGet a) :
    homeByte t a = homeByte s a := SameByte.home ⟨hh, hk, hm⟩

/-- Records and clean bytes of one core. -/
theorem accounted_setCore {s : State} {c : Fin 256} {k : Core}
    (hk : { k with
      l1 := (s.core c).l1, observed := (s.core c).observed, unobservable := (s.core c).unobservable
      budgeted := (s.core c).budgeted, loaded := (s.core c).loaded } = s.core c)
    (hl : ∀ (a : Nat) (v : Byte), tableFind k.l1 a = some (.dirty v) ↔ tableFind (s.core c).l1 a = some (.dirty v)) : Accounted s (s.setCore c k) c where
  package := rfl
  contexts := rfl
  cores := fun d hd => core_setCore_ne s c d k hd
  core := by rw [core_setCore_same]; exact hk
  homes := by
    refine fun a => homeByte_of (heldByte_congr (t := s.setCore c k) (s := s) rfl (fun d x v => ?_) a) rfl rfl
    by_cases hd : d = c
    · subst hd
      rw [core_setCore_same]
      exact hl x v
    · rw [core_setCore_ne _ _ _ _ hd]

/-! ## The observer -/

theorem accounted_noteLoaded (s : State) (h : Here) (ws : List (DWord × Word)) : Accounted s (noteLoaded s h ws) h.r.core := by
  unfold noteLoaded
  split
  · exact .refl _ _
  · exact accounted_setCore rfl fun _ _ => Iff.rfl

theorem accounted_noteWords (s : State) (h : Here) (m : LaneMask) (n : Nat) (addr : Fin 32 → DWord) (w : Fin 32 → Nat → Word) :
    Accounted s (noteWords s h m n addr w) h.r.core := by
  unfold noteWords
  split
  · exact accounted_noteLoaded s h _
  · exact .refl _ _

theorem accounted_recordSeen (s : State) (h : Here) (x : Seen) : Accounted s (recordSeen s h x) h.r.core := by
  unfold recordSeen
  dsimp only
  split
  · exact accounted_setCore rfl fun _ _ => Iff.rfl
  · exact accounted_setCore rfl fun _ _ => Iff.rfl

theorem accounted_isObserved (s : State) (c : Fin 256) (n : Nat) (p : Place) : Accounted s (isObserved s c n p).1 c :=
  ⟨rfl, rfl, fun _ _ => rfl, rfl, fun _ => rfl⟩

theorem accounted_observedLines (s : State) (h : Here) (ps : List Place) : Accounted s (observedLines s h ps).1 h.r.core := by
  unfold observedLines
  generalize (ps.map (fun p => lineOf p.pa)).eraseDups.filterMap (fun l => ps.find? (fun p => lineOf p.pa == l)) = l
  have go (l : List Place) : ∀ a : State × List Nat, Accounted a.1 (l.foldl (fun a p =>
      if !p.leaf.ca || p.leaf.rad || s.isFrozen p.pa then a
      else
        let o := isObserved a.1 h.r.core h.g.launch p
        (o.1, if o.2 then lineOf p.pa :: a.2 else a.2)) a).1 h.r.core := by
    induction l with
    | nil => exact fun a => .refl _ _
    | cons p l ih =>
      intro a
      rw [List.foldl_cons]
      refine .trans ?_ (ih _)
      split
      · exact .refl _ _
      · exact accounted_isObserved a.1 h.r.core h.g.launch p
  exact go l (s, [])

theorem accounted_observe (s : State) (h : Here) (xs : List Seen) (missed : List Place) : Accounted s (observe s h xs missed) h.r.core := by
  unfold observe
  split
  · exact .refl _ _
  · exact (accounted_observedLines s h missed).trans (accounted_foldl _ (fun s x => accounted_recordSeen s h x) _ _)

/-! ## Replicas -/

theorem accounted_holdReplica (s : State) (c : Fin 256) (p : Place) : Accounted s (holdReplica s c p) c := by
  unfold holdReplica
  split
  · exact .refl _ _
  · have hbare : (s.contexts.map (fun x : Context => { x with regions := x.regions.map (fun e =>
        if e.2.freezes p.pa then
          (e.1, { e.2 with holders := tablePut e.2.holders (holderKey c.val (homeAgent p)) (s.agentTime (homeAgent p) + Config.replicaLeaseNs) })
        else e) })).map Context.bare = s.contexts.map Context.bare := by
      rw [List.map_map]
      refine List.map_congr_left fun x _ => ?_
      unfold Context.bare
      simp only [Function.comp, List.map_map, Context.mk.injEq, true_and, and_true]
      refine List.map_congr_left fun e _ => ?_
      simp only [Function.comp]
      split
      · rfl
      · rfl
    refine ⟨rfl, hbare, fun _ _ => rfl, rfl, fun a => homeByte_of rfl ?_ rfl⟩
    unfold State.keptByte
    rw [isFrozen_bare hbare]

theorem accounted_holdReplicas (s : State) (c : Fin 256) (ps : List Place) : Accounted s (holdReplicas s c ps) c :=
  accounted_foldl _ (fun s p => accounted_holdReplica s c p) ps s

/-! ## Fills -/

theorem accounted_fillSlice (s : State) (c : Fin 256) (p : Place) : Accounted s (fillSlice s c p) c := by
  unfold fillSlice
  split
  · exact .refl _ _
  · split
    · exact .refl _ _
    · split
      · exact .refl _ _
      · exact ⟨rfl, rfl, fun _ _ => rfl, rfl, fun _ => rfl⟩

/-- A fill keeps the bytes held dirty. -/
theorem fill_dirty (f : List (Nat × CacheByte) → Nat → List (Nat × CacheByte))
    (hf : ∀ l i, f l i = l ∨ ∃ pa v e, f l i = tablePut l pa (.clean v e) ∧ ∀ w, tableFind l pa ≠ some (.dirty w)) (is : List Nat) :
    ∀ (l : List (Nat × CacheByte)) (a : Nat) (v : Byte), tableFind (is.foldl f l) a = some (.dirty v) ↔ tableFind l a = some (.dirty v) := by
  induction is with
  | nil => exact fun _ _ _ => Iff.rfl
  | cons i is ih =>
    intro l a v
    rw [List.foldl_cons, ih]
    rcases hf l i with e | ⟨pa, w, x, e, hw⟩
    · rw [e]
    · rw [e, find_put]
      split
      · next h => subst h; simp [hw v]
      · exact Iff.rfl

theorem accounted_l1 (t : State) (c : Fin 256) {l : List (Nat × CacheByte)}
    (hl : ∀ (a : Nat) (v : Byte), tableFind l a = some (.dirty v) ↔ tableFind (t.core c).l1 a = some (.dirty v)) :
    Accounted t (t.setCore c { t.core c with l1 := l }) c := accounted_setCore rfl hl

theorem accounted_grants (t : State) (c : Fin 256) (g : List Grant) : Accounted t { t with grants := g } c :=
  ⟨rfl, rfl, fun _ _ => rfl, rfl, fun _ => rfl⟩

/-- One byte of a fill of L1, as `fillLine` makes it. -/
def fillByte (t : State) (c : Fin 256) (p : Place) (e : Option Nat) (l : List (Nat × CacheByte)) (i : Nat) : List (Nat × CacheByte) :=
  match tableFind l (lineOf p.pa * 128 + i) with
  | some (.dirty _) => l
  | some (.clean _ e0) =>
    if leaseGood t c.val e0 then l else tablePut l (lineOf p.pa * 128 + i) (.clean (loadByte t c p (lineOf p.pa * 128 + i)) e)
  | none => tablePut l (lineOf p.pa * 128 + i) (.clean (loadByte t c p (lineOf p.pa * 128 + i)) e)

theorem fillByte_clean (t : State) (c : Fin 256) (p : Place) (e : Option Nat) (l : List (Nat × CacheByte)) (i : Nat) :
    fillByte t c p e l i = l ∨ ∃ pa v x, fillByte t c p e l i = tablePut l pa (.clean v x) ∧ ∀ w, tableFind l pa ≠ some (.dirty w) := by
  unfold fillByte
  split
  · exact .inl rfl
  · next hc =>
    split
    · exact .inl rfl
    · exact .inr ⟨_, _, _, rfl, by simp [hc]⟩
  · next hc => exact .inr ⟨_, _, _, rfl, by simp [hc]⟩

theorem accounted_fillLine (s : State) (c : Fin 256) (p : Place) : Accounted s (fillLine s c p) c := by
  unfold fillLine
  dsimp only
  refine (accounted_fillSlice s c p).trans ?_
  generalize fillSlice s c p = t
  split
  · exact .refl _ _
  · next e _ =>
    have core := accounted_l1 t c (fill_dirty _ (fillByte_clean t c p e) (List.range 128) (t.core c).l1)
    split
    · exact core
    · exact core.trans (accounted_grants _ _ _)

theorem accounted_afterLoad (s : State) (c : Fin 256) (p : Place) (n : Nat) : Accounted s (afterLoad s c p n) c := by
  unfold afterLoad
  split
  · exact accounted_fillLine s c p
  · exact .refl _ _

theorem accounted_readLanes (s : State) (h : Here) (m : LaneMask) (n : Nat) (addr : Fin 32 → DWord) (pl : Fin 32 → Place) :
    Accounted s (readLanes s h m n addr pl).1 h.r.core := by
  unfold readLanes
  refine (accounted_observe s h _ _).trans ((accounted_noteWords _ h m n addr _).trans ((accounted_holdReplicas _ _ _).trans
    (accounted_foldl _ (fun t l => ?_) _ _)))
  split
  · exact .refl _ _
  · exact accounted_afterLoad _ _ _ _

end Sys2Proof.Machine
end

section

/-! SUPPORT. Loads under lookahead, and results that are due (R94, R95, R282, R284). -/

namespace Sys2Proof.Machine

/-! ## What is noted of a read -/

/-- A byte loads as before where L1, time and acquires of every core are as before, and copies and memory are. -/
theorem loadByte_congr {s t : State} (h1 : ∀ c, (t.core c).l1 = (s.core c).l1) (hc : ∀ c, (t.core c).inSync = (s.core c).inSync ∧
      (t.core c).skew = (s.core c).skew ∧ (t.core c).bar = (s.core c).bar)
    (hs : { t with cores := s.cores } = s) (d : Fin 256) (p : Place) (a : Nat) : loadByte t d p a = loadByte s d p a := by
  have hhome (x : Nat) : homeByte t x = homeByte s x := by
    have hreg : t.registered = s.registered := by have e := congrArg State.registered hs; exact e
    refine homeByte_of (heldByte_congr hreg (fun c y v => by rw [h1]) x) ?_ ?_
    · have e := congrArg (fun u : State => u.keptByte x) hs
      exact e
    · have e := congrArg (fun u : State => u.memGet x) hs
      exact e
  have hagent (x : Nat) : t.agent x = s.agent x := by
    unfold State.agent
    split
    · next h => obtain ⟨hi, hk, -⟩ := hc ⟨x, h⟩; rw [hi, hk]
    · have e := congrArg (fun u : State => if h : x - 256 < 256 then u.slices[x - 256] else (⟨true, 0⟩ : Slice)) hs
      exact e
  have hlease (x : Nat) (o : Option Nat) : leaseGood t x o = leaseGood s x o := by
    unfold leaseGood State.agentTime
    have e : t.now = s.now := by have e := congrArg State.now hs; exact e
    rw [hagent, e]
  have hcopy : sliceCopy t d p a = sliceCopy s d p a := by
    obtain ⟨-, -, hb⟩ := hc d
    have e : t.sliceCopies = s.sliceCopies := by have e := congrArg State.sliceCopies hs; exact e
    unfold sliceCopy
    rw [e, hb]
    simp only [hlease]
  unfold Machine.loadByte
  simp only [hhome, hcopy, hlease, h1]

theorem OnlyGroup.noteRead {s t : State} {h : Here} (q : OnlyGroup s t h.r) (pad : Bool) (bs : List (Nat × Byte)) :
    OnlyGroup s (noteRead t h pad bs) h.r := by
  obtain ⟨seen, e⟩ := noteRead_spec t h pad bs
  have hcore (c : Fin 256) : (Machine.noteRead t h pad bs).core c = { t.core c with seen := ((Machine.noteRead t h pad bs).core c).seen } := by
    by_cases hc : c = h.r.core
    · subst hc
      rw [e, core_setCore_same]
    · rw [e, core_setCore_ne _ _ _ _ hc]
  refine ⟨?_, fun c hc => ?_, ?_, fun i hi => ?_, fun c p a => ?_⟩
  · rw [e]; exact q.package
  · rw [e, core_setCore_ne _ _ _ _ hc]; exact q.cores c hc
  · rw [hcore]; exact q.core
  · rw [← q.slots i hi]
    unfold State.group?
    rw [hcore]
  · rw [← q.bytes c p a]
    exact loadByte_congr (fun c => by rw [hcore]) (fun c => by rw [hcore]; exact ⟨rfl, rfl, rfl⟩) (by rw [e]; rfl) c p a

theorem WentOn.noteRead {t : State} {h h' : Here} {pc : DWord} (q : WentOn t h h' pc) (k : Here) (pad : Bool) (bs : List (Nat × Byte)) :
    WentOn (noteRead t k pad bs) h h' pc := { q with found := (at?_noteRead t k pad bs h.r).trans q.found }

theorem LaneFlew.noteRead {s t : State} {h h' : Here} {i : Instr} {la : BitVec 4} {older : List Pending} {ex m out : LaneMask} {d : Reg} {n : Nat}
    {val : Fin 32 → Nat → Word} {bad : Fin 32 → Nat → Prop} {flags : Fin 32 → Flags} {z : LaneMask × LaneMask}
    (q : LaneFlew s t h h' i la older ex m out d n val bad flags z) (pad : Bool) (bs : List (Nat × Byte)) :
    LaneFlew s (noteRead t h pad bs) h h' i la older ex m out d n val bad flags z :=
  { q with on := q.on.noteRead h pad bs, only := q.only.noteRead pad bs }

/-! ## Checks that pass -/

theorem leastRank_ok {m : LaneMask} {f : Fin 32 → Check} (hok : ∀ l : Fin 32, m.getLsbD l.val = true → ∃ p, f l = .ok p) : leastRank m f = 100 := by
  have go (ls : List (Fin 32)) : (∀ l ∈ ls, ∃ p, f l = .ok p) → ls.foldl (fun r l => min r (f l).rank) 100 = 100 := by
    induction ls with
    | nil => exact fun _ => rfl
    | cons l ls ih =>
      intro h
      obtain ⟨p, e⟩ := h l List.mem_cons_self
      rw [List.foldl_cons, e]
      exact ih fun x hx => h x (List.mem_cons_of_mem _ hx)
  exact go _ fun l hl => hok l (mem_lanesIn.mp hl)

/-- Where every lane's access passes, each stands at its place. -/
theorem gather_ok {m : LaneMask} {f : Fin 32 → Check} {p : Fin 32 → Place} (hok : ∀ l : Fin 32, m.getLsbD l.val = true → f l = .ok (p l)) :
    ∃ ps, gather m f = .ok ps ∧ ∀ l : Fin 32, m.getLsbD l.val = true → ps l = p l := by
  have hr : leastRank m f = 100 := leastRank_ok fun l hl => ⟨_, hok l hl⟩
  unfold gather
  dsimp only
  split
  · next hn =>
    refine ⟨_, rfl, fun l hl => ?_⟩
    have := List.find?_eq_none.mp hn l (mem_lanesIn.mpr hl)
    rw [hr, hok l hl] at this
    exact (this rfl).elim
  · next l0 h0 =>
    have := hok l0 (mem_lanesIn.mp (List.mem_of_find?_eq_some h0))
    rw [this]
    refine ⟨_, rfl, fun l hl => ?_⟩
    rw [hok l hl]

theorem checkLanes_ok {s : State} {h : Here} {ex : LaneMask} {acc : Access} {fr : FreezeRule} {n : Nat} {addr : Fin 32 → DWord} {p : Fin 32 → Place}
    (q : Passes s h ex acc fr n addr p) : ∃ ps, checkLanes s h ex acc fr n addr = .ok ps ∧ ∀ l : Fin 32, ex.getLsbD l.val = true → ps l = p l :=
  gather_ok fun l hl => (if_pos hl).trans (q l hl)

/-! ## Words of a load -/

theorem sz_cases (sz : BitVec 2) : sz = 0#2 ∨ sz = 1#2 ∨ sz = 2#2 ∨ sz = 3#2 := by revert sz; decide

theorem range_getD {α : Type} (f : Nat → α) (d : α) {n i : Nat} (h : i < n) : ((List.range n).map f).getD i d = f i := by
  simp [List.getD_eq_getElem?_getD, List.getElem?_map, List.getElem?_range h]

theorem wordAt_range (byte : Nat → Byte) {n i : Nat} (h : i + 3 < n) :
    Sys2Proof.wordAt ((List.range n).map byte) i = byte (i + 3) ++ byte (i + 2) ++ byte (i + 1) ++ byte i := by
  unfold Sys2Proof.wordAt
  rw [range_getD _ _ h, range_getD _ _ (by omega : i + 2 < n), range_getD _ _ (by omega : i + 1 < n), range_getD _ _ (by omega : i < n)]

/-- The words of loaded bytes. -/
theorem loadWords_get (sz : BitVec 2) (signed : Bool) (byte : Nat → Byte) {j : Nat} (hj : j < szRegs sz) :
    (loadWords sz signed ((List.range (szBytes sz)).map byte)).getD j 0#32 = loadedWord sz signed byte j := by
  rcases sz_cases sz with rfl | rfl | rfl | rfl
  · obtain rfl : j = 0 := by simpa [szRegs] using hj
    rfl
  · obtain rfl : j = 0 := by simpa [szRegs] using hj
    rfl
  · obtain rfl : j = 0 := by simpa [szRegs] using hj
    exact wordAt_range byte (n := 4) (i := 0) (by decide)
  · have hj : j < 4 := hj
    have e : (loadWords 3#2 signed ((List.range (szBytes 3#2)).map byte)).getD j 0#32 = Sys2Proof.wordAt ((List.range 16).map byte) (4 * j) := by
      rcases (by omega : j = 0 ∨ j = 1 ∨ j = 2 ∨ j = 3) with rfl | rfl | rfl | rfl <;> rfl
    rw [e, wordAt_range byte (by omega)]
    rfl

/-! ## Results of a load -/

theorem LaneResult.Carries.congr {r : LaneResult} {m : LaneMask} {n : Nat} {val val' : Fin 32 → Nat → Word} {bad bad' : Fin 32 → Nat → Prop}
    (q : r.Carries m n val bad) (hv : ∀ (l : Fin 32) (j : Nat), m.getLsbD l.val = true → j < n → val l j = val' l j)
    (hb : ∀ (l : Fin 32) (j : Nat), m.getLsbD l.val = true → j < n → (bad l j ↔ bad' l j)) : r.Carries m n val' bad' where
  mask := q.mask
  count := q.count
  words := by
    intro j o ho l hl
    have hj : j < n := by
      obtain ⟨hj, -⟩ := List.getElem?_eq_some_iff.mp ho
      rwa [q.count] at hj
    obtain ⟨h1, h2⟩ := q.words j o ho l hl
    exact ⟨h1.trans (hv l j hl hj), h2.trans (hb l j hl hj)⟩

/-- Words read afresh. -/
theorem loaded_carries (m : LaneMask) (n : Nat) (ws : Lanes (List Word)) (p : LaneMask) :
    (loadResult m (regsOfLanes n ws p)).Carries m n (fun l j => ws[l].getD j 0#32) (fun l _ => p.getLsbD l.val = true) where
  mask := rfl
  count := by simp [loadResult, regsOfLanes]
  words := by
    intro j o ho l hl
    unfold loadResult regsOfLanes at ho
    dsimp only at ho
    rw [List.getElem?_map] at ho
    obtain ⟨i, hi, rfl⟩ := Option.map_eq_some_iff.mp ho
    obtain ⟨hj, rfl⟩ := List.getElem?_eq_some_iff.mp hi
    refine ⟨?_, Iff.rfl⟩
    rw [make_get, List.getElem_range]

/-- Words taken from the reuse table. -/
theorem reused_carries {ex : LaneMask} {n : Nat} {rs : List (RName × Lanes Word)} (hn : rs.length = n) :
    (loadResult ex (rs.map (fun r => (r.2, 0#32)))).Carries ex n (fun l j => (rs.map (fun r => r.2[l])).getD j 0#32) (fun _ _ => False) where
  mask := rfl
  count := by simpa [loadResult] using hn
  words := by
    intro j o ho l hl
    unfold loadResult at ho
    dsimp only at ho
    rw [List.getElem?_map] at ho
    obtain ⟨r, hr, rfl⟩ := Option.map_eq_some_iff.mp ho
    refine ⟨?_, by simp⟩
    rw [List.getD_eq_getElem?_getD, List.getElem?_map, hr]
    rfl

theorem no_flags (ex : LaneMask) (b : Nat) : (0#5 : Flags).getLsbD b = (List.finRange 32).any (fun l => ex.getLsbD l.val && (0#5 : Flags).getLsbD b) := by
  simp

section
variable {s t : State} {h : Here} {i : Instr} {o : LmLd} {us : List Reg} {ex : LaneMask} {val : Fin 32 → Nat → Word} {bad : Fin 32 → Nat → Prop}
  {outs : List (Lanes Word × LaneMask)}

/-- A load from its results on, under lookahead. -/
theorem finishLoad_flew (old : Bool) (mem : Option MemKey) (hex : ex ≠ 0#32) (hla : o.la ≠ 0#4)
    (q : (loadResult ex outs).Carries ex (szRegs o.sz) val bad) (near : Near s t h.r.core (s.core h.r.core).slots) :
    ∃ h', LaneFlew s (finishLane t h (loadShape i o us) ex old mem (loadResult ex outs)) h h' i o.la (h.without o.d (szRegs o.sz)) ex ex 0#32 o.d
      (szRegs o.sz) val bad (fun _ => 0#5) (0#32, 0#32) := by
  obtain ⟨k, hk⟩ := late_succ hla
  unfold loadShape
  rw [hk]
  exact finishLane_flew old mem hex hk.symm q rfl rfl rfl (fun _ _ => rfl) (no_flags ex) near

end

/-! ## Global loads -/

/-- The words that some lanes read. -/
theorem read_carries {s : State} {h : Here} {m : LaneMask} {sz : BitVec 2} {signed : Bool} {addr : Fin 32 → DWord} {pl p : Fin 32 → Place}
    (hp : ∀ l : Fin 32, m.getLsbD l.val = true → pl l = p l) :
    (loadResult m (regsOfLanes (szRegs sz) (Lanes.make (fun l => loadWords sz signed (readLanes s h m (szBytes sz) addr pl).2[l]))
      (poisonedLanes s m (szBytes sz) pl))).Carries m (szRegs sz)
      (fun l => loadedWord sz signed (fun i => loadByte s h.r.core (p l) ((p l).pa + i))) (fun l _ => s.poisoned (p l).pa (szBytes sz) = true) := by
  refine (loaded_carries m (szRegs sz) _ _).congr (fun l j hl hj => ?_) (fun l j hl hj => ?_)
  · have hd : (readLanes s h m (szBytes sz) addr pl).2[l] = loadBytes s h.r.core (p l) (szBytes sz) := by
      show (Lanes.make _)[l] = _
      rw [make_get, if_pos hl, hp l hl]
    rw [make_get, hd]
    exact loadWords_get sz signed _ hj
  · unfold poisonedLanes
    rw [BitVec.getLsbD_and, maskOf_getLsbD, hl, hp l hl]
    simp

/-- A global load whose accesses have passed their checks, at the places of its lanes. -/
def loadChecked (s : State) (h : Here) (i : Instr) (o : LmLd) (signed : Bool) (pl : Fin 32 → Place) : State :=
  let ex := h.exec o.k
  let n := szBytes o.sz
  let sh := loadShape i o (pairRegs (pairReg o.p.toNat))
  let addr := lmAddr h o.a o.p o.sz o.px
  let part := ex != 0xFFFFFFFF#32
  let mem := memKeyOf s h ((lanesIn ex).map (fun l => (pl l).pa))
  match s.reuseFind h.r.core (h.reuseKey sh ex part (some mem)) with
  | some e =>
    finishLane (noteWords s h ex n addr (fun l j => ((e.results.getD j (.zero, zeroLanes)).2)[l])) h sh ex part (some mem)
      (loadResult ex (e.results.map (fun r => (r.2, 0#32))))
  | none =>
    let r := readLanes s h ex n addr pl
    let bs := (lanesIn ex).flatMap (fun l => cellsAt (pl l).pa r.2[l])
    noteRead (finishLane r.1 h sh ex part (some (mem.of false bs)) (loadResult ex (regsOfLanes (szRegs o.sz)
      (Lanes.make (fun l => loadWords o.sz signed r.2[l])) (poisonedLanes s ex n pl)))) h false bs

theorem loadChecked_miss {s : State} {h : Here} {i : Instr} {o : LmLd} {signed : Bool} {pl : Fin 32 → Place}
    (hn : s.reuseFind h.r.core (h.reuseKey (loadShape i o (pairRegs (pairReg o.p.toNat))) (h.exec o.k) (h.exec o.k != 0xFFFFFFFF#32)
      (some (memKeyOf s h ((lanesIn (h.exec o.k)).map (fun l => (pl l).pa))))) = none) : ∃ mem bs,
    loadChecked s h i o signed pl = noteRead (finishLane (readLanes s h (h.exec o.k) (szBytes o.sz) (lmAddr h o.a o.p o.sz o.px) pl).1 h
      (loadShape i o (pairRegs (pairReg o.p.toNat))) (h.exec o.k) (h.exec o.k != 0xFFFFFFFF#32) mem (loadResult (h.exec o.k) (regsOfLanes (szRegs o.sz)
      (Lanes.make (fun l => loadWords o.sz signed (readLanes s h (h.exec o.k) (szBytes o.sz) (lmAddr h o.a o.p o.sz o.px) pl).2[l]))
      (poisonedLanes s (h.exec o.k) (szBytes o.sz) pl)))) h false bs := by
  unfold loadChecked
  dsimp only
  rw [hn]
  exact ⟨_, _, rfl⟩

theorem loadChecked_hit {s : State} {h : Here} {i : Instr} {o : LmLd} {signed : Bool} {pl : Fin 32 → Place} {e : ReuseEntry}
    (hs : s.reuseFind h.r.core (h.reuseKey (loadShape i o (pairRegs (pairReg o.p.toNat))) (h.exec o.k) (h.exec o.k != 0xFFFFFFFF#32)
      (some (memKeyOf s h ((lanesIn (h.exec o.k)).map (fun l => (pl l).pa))))) = some e) : ∃ mem w,
    loadChecked s h i o signed pl = finishLane (noteWords s h (h.exec o.k) (szBytes o.sz) (lmAddr h o.a o.p o.sz o.px) w) h
      (loadShape i o (pairRegs (pairReg o.p.toNat))) (h.exec o.k) (h.exec o.k != 0xFFFFFFFF#32) mem
      (loadResult (h.exec o.k) (e.results.map (fun r => (r.2, 0#32)))) := by
  unfold loadChecked
  dsimp only
  rw [hs]
  exact ⟨_, _, rfl⟩

theorem globalLoad_checked {s : State} {h : Here} {i : Instr} {o : LmLd} {signed : Bool} {fr : FreezeRule} {ps : Fin 32 → Place}
    (q : LaneReady .lane s h i o.k (.regs o.d (szRegs o.sz)) none none [.reg o.a] true)
    (hc : checkLanes s h (h.exec o.k) .load fr (szBytes o.sz) (lmAddr h o.a o.p o.sz o.px) = .ok ps) :
    globalLoad s i o signed fr = .next (loadChecked s h i o signed ps) := by
  have gates : issueGates s h (loadShape i o (pairRegs (pairReg o.p.toNat))) (h.exec o.k) = none := issueGates_none _ rfl q
  unfold globalLoad
  rw [onFragment_issues q.issues]
  dsimp only
  rw [if_neg q.active, gates, hc]
  rfl

section
variable {i : Instr} {o : LmLd} {signed : Bool} {fr : FreezeRule} (e : ∀ s, exec i s = globalLoad s i o signed fr) {s : State} {h : Here}
  {p : Fin 32 → Place} (q : LaneReady .lane s h i o.k (.regs o.d (szRegs o.sz)) none none [.reg o.a] true)
  (hp : Passes s h (h.exec o.k) .load fr (szBytes o.sz) (lmAddr h o.a o.p o.sz o.px) p)
include e q hp

/-- A global load whose checks pass, at places that are those of its active lanes. -/
theorem globalLoad_runs : ∃ ps, exec i s = .next (loadChecked s h i o signed ps) ∧ ∀ l : Fin 32, (h.exec o.k).getLsbD l.val = true → ps l = p l := by
  obtain ⟨ps, hc, hps⟩ := checkLanes_ok hp
  exact ⟨ps, (e s).trans (globalLoad_checked q hc), hps⟩

theorem globalLoad_flew (hla : o.la ≠ 0#4) :
    let ex := h.exec o.k
    let entry := s.reuseFind h.r.core (h.reuseKey (loadShape i o (pairRegs (pairReg o.p.toNat))) ex (ex != 0xFFFFFFFF#32)
        (some (memKeyOf s h ((lanesIn ex).map (fun l => (p l).pa)))))
    (entry = none → ∃ s1 t h', exec i s = .next t ∧ Accounted s s1 h.r.core ∧
      LaneFlew s1 t h h' i o.la (h.without o.d (szRegs o.sz)) ex ex 0#32 o.d (szRegs o.sz)
        (fun l => loadedWord o.sz signed (fun i => loadByte s h.r.core (p l) ((p l).pa + i))) (fun l _ => s.poisoned (p l).pa (szBytes o.sz) = true)
        (fun _ => 0#5) (0#32, 0#32)) ∧
    ∀ e, entry = some e → e.results.length = szRegs o.sz → ∃ s1 t h', exec i s = .next t ∧ Accounted s s1 h.r.core ∧
      LaneFlew s1 t h h' i o.la (h.without o.d (szRegs o.sz)) ex ex 0#32 o.d (szRegs o.sz)
        (fun l j => ((e.results.map (fun r => r.2[l])).getD j 0#32)) (fun _ _ => False) (fun _ => 0#5) (0#32, 0#32) := by
  intro ex entry
  obtain ⟨ps, run, hps⟩ := globalLoad_runs e q hp
  have hpas : (lanesIn ex).map (fun l => (p l).pa) = (lanesIn ex).map (fun l => (ps l).pa) :=
    List.map_congr_left fun l hl => by rw [hps l (mem_lanesIn.mp hl)]
  refine ⟨fun hn => ?_, fun en hs hlen => ?_⟩
  · obtain ⟨mem, bs, hrun⟩ := loadChecked_miss (s := s) (i := i) (signed := signed) (pl := ps) (by rw [← hpas]; exact hn)
    obtain ⟨h', w⟩ := finishLoad_flew (i := i) (us := pairRegs (pairReg o.p.toNat)) (ex != 0xFFFFFFFF#32) mem q.active hla
      (read_carries (signed := signed) (addr := lmAddr h o.a o.p o.sz o.px) hps)
      (Near.refl (readLanes s h ex (szBytes o.sz) (lmAddr h o.a o.p o.sz o.px) ps).1 h.r.core)
    exact ⟨_, _, h', by rw [run, hrun], accounted_readLanes s h ex (szBytes o.sz) (lmAddr h o.a o.p o.sz o.px) ps, w.noteRead false bs⟩
  · obtain ⟨mem, f, hrun⟩ := loadChecked_hit (s := s) (i := i) (signed := signed) (pl := ps) (by rw [← hpas]; exact hs)
    obtain ⟨h', w⟩ := finishLoad_flew (i := i) (us := pairRegs (pairReg o.p.toNat)) (ex != 0xFFFFFFFF#32) mem q.active hla (reused_carries hlen)
      (Near.refl (noteWords s h ex (szBytes o.sz) (lmAddr h o.a o.p o.sz o.px) f) h.r.core)
    exact ⟨_, _, h', by rw [run, hrun], accounted_noteWords s h ex _ _ _, w⟩

end

end Sys2Proof.Machine
end

section

/-! SUPPORT. Scratchpad loads and first-fault loads under lookahead, and results that are due (R94, R95, R260, R284). -/

namespace Sys2Proof.Machine

/-! ## Scratchpad loads -/

theorem bytesRead_eq (m : List Host.Cell) : ∀ n a, bytesRead m a n = (List.range n).map (fun i => bytesGet m (a + i))
  | 0, _ => rfl
  | n + 1, a => by
    rw [bytesRead, bytesRead_eq m n, List.range_succ_eq_map, List.map_cons, List.map_map]
    refine congrArg₂ _ rfl (List.map_congr_left fun i _ => ?_)
    simp only [Function.comp]
    congr 1
    omega

theorem checkPadAlign_ok {ex : LaneMask} {n : Nat} {addr : Fin 32 → DWord} (h : ∀ l : Fin 32, ex.getLsbD l.val = true → (addr l).toNat % n = 0) :
    ∃ ps, checkPadAlign ex n addr = .ok ps := by
  obtain ⟨ps, e, -⟩ := gather_ok (p := fun _ => Place.none) fun l hl => if_pos (h l hl)
  exact ⟨ps, e⟩

theorem outside_eq (x : Team) (ex : LaneMask) (n : Nat) (addr : Fin 32 → DWord) :
    outside x ex n addr = ex &&& maskOf (fun l => decide (x.scratchSize < (addr l).toNat + n)) := by
  unfold outside padInside
  simp only [← decide_not, Nat.not_le]

/-- A lookup goes by the key alone, not by what is noted beside it. -/
theorem reuseFind_bare {s : State} {c : Fin 256} {k k' : Option ReuseKey} (h : k.map ReuseKey.bare = k'.map ReuseKey.bare) :
    s.reuseFind c k = s.reuseFind c k' := by
  unfold State.reuseFind
  cases k with
  | none => cases k' with
    | none => rfl
    | some b => cases h
  | some a => cases k' with
    | none => cases h
    | some b =>
      have e : a.bare = b.bare := Option.some.inj h
      simp only [Option.bind_some, e]

theorem reuseKey_bare {h : Here} {sh : LaneShape} {ex : LaneMask} {old : Bool} {m m' : MemKey}
    (e : ({ m with read := [], pad := false } : MemKey) = { m' with read := [], pad := false }) :
    (h.reuseKey sh ex old (some m)).map ReuseKey.bare = (h.reuseKey sh ex old (some m')).map ReuseKey.bare := by
  unfold Here.reuseKey
  dsimp only
  split
  · rfl
  · rfl
  · split
    · rfl
    · split
      · simp only [Option.map_some, ReuseKey.bare, e]
      · rfl
  · split
    · rfl
    · split
      · simp only [Option.map_some, ReuseKey.bare, e]
      · rfl

/-- What an `LDP` reads of a scratchpad in some lanes. -/
def padLoaded (x : Team) (o : LmLd) (m : LaneMask) (addr : Fin 32 → DWord) : LaneResult :=
  loadResult m (regsOfLanes (szRegs o.sz)
    (Lanes.make (fun l => if m.getLsbD l.val then loadWords o.sz false (padRead x (addr l).toNat (szBytes o.sz)) else []))
    (m &&& maskOf (fun l => m.getLsbD l.val && padPoisoned x (addr l).toNat (szBytes o.sz))))

theorem padLoaded_carries (x : Team) (o : LmLd) (m : LaneMask) (addr : Fin 32 → DWord) : (padLoaded x o m addr).Carries m (szRegs o.sz)
    (fun l => loadedWord o.sz false (fun i => bytesGet x.scratch ((addr l).toNat + i)))
    (fun l _ => padPoisoned x (addr l).toNat (szBytes o.sz) = true) := by
  refine (loaded_carries m (szRegs o.sz) _ _).congr (fun l j hl hj => ?_) (fun l j hl hj => ?_)
  · rw [make_get, if_pos hl]
    unfold padRead
    rw [bytesRead_eq]
    exact loadWords_get o.sz false _ hj
  · rw [BitVec.getLsbD_and, maskOf_getLsbD, hl]
    simp

/-- An `LDP` whose checks pass, of lanes that are not all inside or whose key finds no entry. -/
theorem ldp_runs {o : LmLd} {s : State} {h : Here} {x : Team}
    (q : LaneReady .padMove s h (.ldp o) o.k (.regs o.d (szRegs o.sz)) none none [.reg o.a] true) (ht : teamOf s h = some x)
    (hal : ∀ l : Fin 32, (h.exec o.k).getLsbD l.val = true → (lmAddr h o.a o.p o.sz o.px l).toNat % szBytes o.sz = 0) :
    let ex := h.exec o.k
    let addr := lmAddr h o.a o.p o.sz o.px
    let sh := loadShape (.ldp o) o (pairRegs (pairReg o.p.toNat))
    let out := outside x ex (szBytes o.sz) addr
    let m := ex &&& ~~~out
    (out = 0#32 → s.reuseFind h.r.core (h.reuseKey sh ex (ex != 0xFFFFFFFF#32)
      (some { gens := [], epoch := some (h.g.uid, h.g.epoch), read := [], pad := false })) = none →
      ∃ mem bs, exec (.ldp o) s = .next (noteRead (finishLane s h sh ex (ex != 0xFFFFFFFF#32) mem (padLoaded x o m addr)) h true bs)) ∧
    (out ≠ 0#32 → ∃ key bs, exec (.ldp o) s = .next (noteRead (commitLane (s.countLookup h.r.core key false) (h.removeLanes out) sh m (padLoaded x o m addr)
      key) h true bs)) := by
  intro ex addr sh out m
  obtain ⟨ps, hc⟩ := checkPadAlign_ok hal
  have gates : issueGates s h sh ex = none := issueGates_none _ rfl q
  have e : exec (.ldp o) s = execLdp o s := rfl
  rw [e]
  unfold execLdp
  rw [onFragment_issues q.issues]
  dsimp only
  rw [ht]
  dsimp only
  rw [if_neg q.active, gates, hc]
  dsimp only [stopOn]
  refine ⟨fun ho hn => ?_, fun ho => ?_⟩
  · rw [if_pos ho]
    have hn' (bs : List (Nat × Byte)) : s.reuseFind h.r.core (h.reuseKey (loadShape (.ldp o) o (pairRegs (pairReg o.p.toNat))) (h.exec o.k)
        (h.exec o.k != 0xFFFFFFFF#32) (some { gens := [], epoch := some (h.g.uid, h.g.epoch), read := bs, pad := true })) = none :=
      (reuseFind_bare (reuseKey_bare (m := { gens := [], epoch := some (h.g.uid, h.g.epoch), read := bs, pad := true })
        (m' := { gens := [], epoch := some (h.g.uid, h.g.epoch), read := [], pad := false }) rfl)).trans hn
    rw [hn']
    exact ⟨_, _, rfl⟩
  · rw [if_neg ho]
    exact ⟨_, _, rfl⟩

theorem ldp_flew {o : LmLd} {s : State} {h : Here} {x : Team}
    (q : LaneReady .padMove s h (.ldp o) o.k (.regs o.d (szRegs o.sz)) none none [.reg o.a] true) (hla : o.la ≠ 0#4) (ht : teamOf s h = some x)
    (hal : ∀ l : Fin 32, (h.exec o.k).getLsbD l.val = true → (lmAddr h o.a o.p o.sz o.px l).toNat % szBytes o.sz = 0) :
    let ex := h.exec o.k
    let addr := lmAddr h o.a o.p o.sz o.px
    let out := ex &&& maskOf (fun l => decide (x.scratchSize < (addr l).toNat + szBytes o.sz))
    let m := ex &&& ~~~out
    (out ≠ 0#32 ∨ s.reuseFind h.r.core (h.reuseKey (loadShape (.ldp o) o (pairRegs (pairReg o.p.toNat))) ex
      (ex != 0xFFFFFFFF#32) (some { gens := [], epoch := some (h.g.uid, h.g.epoch), read := [], pad := false })) = none) →
    ∃ t h', exec (.ldp o) s = .next t ∧
      LaneFlew s t h h' (.ldp o) o.la (if m = 0#32 then h.f.pending else h.without o.d (szRegs o.sz)) ex m out o.d (szRegs o.sz)
        (fun l => loadedWord o.sz false (fun i => bytesGet x.scratch ((addr l).toNat + i)))
        (fun l _ => padPoisoned x (addr l).toNat (szBytes o.sz) = true) (fun _ => 0#5) (0#32, 0#32) := by
  intro ex addr out m hout
  have ho : outside x ex (szBytes o.sz) addr = out := outside_eq x ex _ addr
  obtain ⟨hin, hbeyond⟩ := ldp_runs q ht hal
  rw [ho] at hin hbeyond
  have hcarry := padLoaded_carries x o m addr
  by_cases hz : out = 0#32
  · obtain ⟨mem, bs, hrun⟩ := hin hz (hout.resolve_left (not_not_intro hz))
    have hm : h.exec o.k &&& ~~~out = h.exec o.k := by
      rw [hz, BitVec.not_zero, BitVec.and_allOnes]
    have hm' : m = ex := hm
    rw [hm] at hrun
    rw [hm'] at hcarry
    rw [hm', if_neg q.active, hz]
    obtain ⟨h', w⟩ := finishLoad_flew (i := .ldp o) (us := pairRegs (pairReg o.p.toNat)) (ex != 0xFFFFFFFF#32) mem q.active hla hcarry (Near.refl s h.r.core)
    exact ⟨_, h', hrun, w.noteRead true bs⟩
  · obtain ⟨key, bs, hrun⟩ := hbeyond hz
    obtain ⟨k, hk⟩ := late_succ hla
    obtain ⟨h', w⟩ := commitLane_flew (i := .ldp o) (kr := o.k) (d := o.d) (a := none) (b := none) (reads := [.reg o.a])
      (us := pairRegs (pairReg o.p.toNat)) out m key hk.symm hcarry rfl rfl (no_flags ex) ((Near.refl s h.r.core).countLookup key false)
    refine ⟨_, h', hrun, LaneFlew.noteRead ?_ true bs⟩
    unfold loadShape
    rw [hk]
    exact w

/-! ## First-fault loads -/

/-- Below the first lane of a mask that does not pass stand those up to which every lane passes. -/
theorem find_lanes_lt {ex : LaneMask} {g : Fin 32 → Bool} {f : Fin 32} (hf : (lanesIn ex).find? (fun l => !g l) = some f) (l : Fin 32) :
    l < f ↔ ∀ m : Fin 32, m ≤ l → ex.getLsbD m.val = true → g m = true := by
  obtain ⟨hbad, hbelow⟩ := (find?_first (lanesIn_sorted ex) (List.mem_of_find?_eq_some hf)).mp hf
  constructor
  · intro hl m hm hex
    simpa using hbelow m (mem_lanesIn.mpr hex) (lt_of_le_of_lt hm hl)
  · intro h
    by_contra hn
    have := h f (not_lt.mp hn) (mem_lanesIn.mp (List.mem_of_find?_eq_some hf))
    simp [this] at hbad

/-- A check has found nothing. -/
def Check.passes (c : Check) : Bool := match c with
  | .ok _ => true
  | .bad _ _ _ _ _ => false
  | .wait _ _ => false

theorem passes_iff (c : Check) : c.passes = true ↔ ∃ p, c = .ok p := by cases c <;> simp [Check.passes]

/-- The lanes that a first-fault load reads, by whether each lane's access passes. -/
def lanesPassing (ex : LaneMask) (g : Fin 32 → Bool) : LaneMask := match (lanesIn ex).find? (fun l => !g l) with
  | some f => lanesBelow ex f
  | none => ex

theorem lanesPassing_bit (ex : LaneMask) (g : Fin 32 → Bool) (l : Fin 32) : (lanesPassing ex g).getLsbD l.val = true ↔
    ex.getLsbD l.val = true ∧ ∀ m : Fin 32, m ≤ l → ex.getLsbD m.val = true → g m = true := by
  unfold lanesPassing
  split
  · next f hf =>
    rw [← find_lanes_lt hf l]
    unfold lanesBelow
    rw [BitVec.getLsbD_and, maskOf_getLsbD]
    simp
  · next hn =>
    have hall (m : Fin 32) (hm : ex.getLsbD m.val = true) : g m = true := by simpa using List.find?_eq_none.mp hn m (mem_lanesIn.mpr hm)
    exact ⟨fun hl => ⟨hl, fun m _ => hall m⟩, fun h => h.1⟩

/-- Whether a first-fault load's access in a lane passes its checks. -/
def ffPasses (s : State) (h : Here) (o : LmLd) (l : Fin 32) : Bool :=
  (check1 s h .load .none (szBytes o.sz) (szBytes o.sz) (lmAddr h o.a o.p o.sz o.px l)).passes

theorem lanesPassing_first {s : State} {h : Here} {o : LmLd} {good : LaneMask} (hg : FirstGood s h o good) :
    lanesPassing (h.exec o.k) (ffPasses s h o) = good := by
  refine laneMask_ext fun l => Bool.eq_iff_iff.mpr ?_
  rw [lanesPassing_bit, hg l]
  simp only [ffPasses, passes_iff]

/-- A first-fault load of some lanes, from their accesses on. -/
def ffLoads (s : State) (h : Here) (o : LmLd) (m : LaneMask) : State :=
  let n := szBytes o.sz
  let addr := lmAddr h o.a o.p o.sz o.px
  let c := checkLanes s h m .load .none n addr
  let r := readLanes s h m n addr c.place
  noteRead (commitFirstFault r.1 h (.ldff o) o (h.exec o.k) (regsOfLanes (szRegs o.sz) (Lanes.make (fun l => loadWords o.sz false r.2[l]))
    (poisonedLanes s m n c.place)) m) h false ((lanesIn m).flatMap (fun l => cellsAt (c.place l).pa r.2[l]))

theorem lowestLane_some {m : LaneMask} (h : m ≠ 0#32) :
    ∃ l0, lowestLane m = some l0 ∧ m.getLsbD l0.val = true ∧ ∀ l : Fin 32, m.getLsbD l.val = true → l0 ≤ l := by
  have hsorted := lanesIn_sorted m
  unfold lowestLane
  cases hl : lanesIn m with
  | nil =>
    refine absurd (laneMask_ext fun l => ?_) h
    have : ¬ m.getLsbD l.val = true := fun e => by simpa [hl] using mem_lanesIn.mpr e
    simpa using this
  | cons l0 ls =>
    rw [hl] at hsorted
    refine ⟨l0, rfl, mem_lanesIn.mp (by rw [hl]; exact List.mem_cons_self), fun l e => ?_⟩
    have hin := mem_lanesIn.mpr e
    rw [hl] at hin
    rcases List.mem_cons.mp hin with rfl | h'
    · exact le_rfl
    · exact le_of_lt (List.rel_of_pairwise_cons hsorted h')

theorem oneLane_bit (k l : Fin 32) : (1#32 <<< k.val : LaneMask).getLsbD l.val = decide (l = k) := by
  revert k l; decide

section
variable {o : LmLd} {s : State} {h : Here} {good : LaneMask}
  (q : LaneReady .lane s h (.ldff o) o.k (.regs o.d (szRegs o.sz)) none none [.reg o.a] true)
  (hne : good ≠ 0#32) (hg : FirstGood s h o good)
include q hne hg

theorem ldff_runs : exec (.ldff o) s = .next (ffLoads s h o good) := by
  obtain ⟨l0, hlow, hl0, hmin⟩ := lowestLane_some q.active
  obtain ⟨l1, -, hl1, -⟩ := lowestLane_some hne
  obtain ⟨hex1, hupto⟩ := (hg l1).mp hl1
  obtain ⟨x, hx⟩ := hupto l0 (hmin l1 hex1) hl0
  have hone : Passes s h (1#32 <<< l0.val) .load .none (szBytes o.sz) (lmAddr h o.a o.p o.sz o.px) (fun _ => x) := by
    intro l hl
    rw [oneLane_bit] at hl
    rw [of_decide_eq_true hl]
    exact hx
  obtain ⟨ps, hc, -⟩ := checkLanes_ok hone
  have gates : issueGates s h (loadShape (.ldff o) o []) (h.exec o.k) = none := issueGates_none _ rfl q
  have e : exec (.ldff o) s = execLdff o s := rfl
  rw [e, ← lanesPassing_first hg]
  unfold execLdff
  rw [onFragment_issues q.issues]
  dsimp only
  rw [hlow]
  dsimp only
  rw [gates]
  dsimp only
  rw [hc]
  rfl

end

/-- Commit of a first-fault load under lookahead. -/
theorem commitFirstFault_late {s : State} {h : Here} {i : Instr} {o : LmLd} {ex m : LaneMask} {outs : List (Lanes Word × LaneMask)} (hla : o.la ≠ 0#4) :
    commitFirstFault s h i o ex outs m =
      s.put ((({ h with f := { h.f with pending := (regsFrom o.d (szRegs o.sz)).foldl (dropVector · true) (dropZ h.f.pending ex) } } : Here).advance
        i.bytes).pend { pendOf h o.d (szRegs o.sz) (loadResult m outs) o.la.toNat none with zMask := ex, zVal := ex &&& ~~~m }) := if_neg hla

/-- Results whose Z has been discarded, and then those into some registers. -/
theorem without_dropZ (h : Here) (d : Reg) (n : Nat) {ex : LaneMask} (hex : ex ≠ 0#32) :
    (regsFrom d n).foldl (dropVector · true) (dropZ h.f.pending ex) = (h.without d n).map (fun q => { q with zMask := 0#32 }) := by
  rw [dropVectors_eq, ← without_eq, dropVectors_eq]
  unfold dropZ
  simp only [if_neg hex, List.map_map]
  rfl

theorem commitFirstFault_flew {s : State} {h : Here} {i : Instr} {o : LmLd} {ex m : LaneMask} {outs : List (Lanes Word × LaneMask)}
    {val : Fin 32 → Nat → Word} {bad : Fin 32 → Nat → Prop} (hla : o.la ≠ 0#4) (hex : ex ≠ 0#32)
    (q : (loadResult m outs).Carries m (szRegs o.sz) val bad) :
    ∃ h', LaneFlew s (commitFirstFault s h i o ex outs m) h h' i o.la ((h.without o.d (szRegs o.sz)).map (fun q => { q with zMask := 0#32 })) ex m 0#32
      o.d (szRegs o.sz) val bad (fun _ => 0#5) (ex, ex &&& ~~~m) := by
  have b := pendOf_bears (h := h) (h2 := h) (d := o.d) q (fun _ => rfl) (rfl : o.la.toNat = o.la.toNat) none
  rw [commitFirstFault_late hla, without_dropZ h o.d (szRegs o.sz) hex]
  refine ⟨_, put_flew (Near.refl s h.r.core) ⟨rfl, rfl, rfl⟩ rfl rfl ?_ ?_ ⟨b.left, b.uni, rfl, rfl, b.count, b.regs⟩⟩
  · exact (BitVec.or_zero).symm
  · intro b; simp

theorem ldff_flew {o : LmLd} {s : State} {h : Here} {p : Fin 32 → Place} {good : LaneMask}
    (q : LaneReady .lane s h (.ldff o) o.k (.regs o.d (szRegs o.sz)) none none [.reg o.a] true) (hla : o.la ≠ 0#4) (hne : good ≠ 0#32)
    (hg : FirstGood s h o good) (hp : Passes s h good .load .none (szBytes o.sz) (lmAddr h o.a o.p o.sz o.px) p) :
    ∃ s1 t h', exec (.ldff o) s = .next t ∧ Accounted s s1 h.r.core ∧
      LaneFlew s1 t h h' (.ldff o) o.la ((h.without o.d (szRegs o.sz)).map (fun q => { q with zMask := 0#32 })) (h.exec o.k) good 0#32 o.d (szRegs o.sz)
        (fun l => loadedWord o.sz false (fun i => loadByte s h.r.core (p l) ((p l).pa + i))) (fun l _ => s.poisoned (p l).pa (szBytes o.sz) = true)
        (fun _ => 0#5) (h.exec o.k, h.exec o.k &&& ~~~good) := by
  obtain ⟨ps, hc, hps⟩ := checkLanes_ok hp
  have hplace (l : Fin 32) (hl : good.getLsbD l.val = true) :
      (checkLanes s h good .load .none (szBytes o.sz) (lmAddr h o.a o.p o.sz o.px)).place l = p l := by
    rw [hc]; exact hps l hl
  obtain ⟨h', w⟩ := commitFirstFault_flew (i := .ldff o) hla q.active (read_carries (signed := false) (addr := lmAddr h o.a o.p o.sz o.px) hplace)
  exact ⟨_, _, h', ldff_runs q hne hg, accounted_readLanes s h good _ _ _, w.noteRead false _⟩

/-! ## Results that are due -/

theorem settleOne_here (s : State) (h : Here) (p : Pending) : (settleOne s h p).2 =
    let h1 := p.uni.foldl (fun (a : Here) u => a.setS u.1 u.2)
      (p.regs.foldl (fun (a : State × Here) r => if r.dropped then a else commitV a.1 a.2 r.reg r.lanes r.mask r.poison) (s, h)).2
    { h1 with g := { h1.g with cc := { h1.g.cc with z := mergeMask h1.g.cc.z p.zVal p.zMask } } } := by
  unfold settleOne
  dsimp only
  split
  · split <;> rfl
  · rfl

/-- A result of one register that is due is settled alone. -/
theorem settleDue_alone {s : State} {h : Here} {x : Pending} (hp : h.f.pending = [x]) (hl : x.left = 0) :
    (settleDue s h).2 = (settleOne s { h with f := { h.f with pending := [] } } x).2 := by
  unfold settleDue
  rw [hp, List.filter_cons_of_pos (by simp [hl]), List.filter_cons_of_neg (by simp [hl])]
  rfl

theorem mergeMask_none (o x : LaneMask) : mergeMask o x 0#32 = o := by
  unfold mergeMask
  rw [BitVec.not_zero, BitVec.and_allOnes, BitVec.and_zero, BitVec.or_zero]

theorem commitV_f (s : State) (h : Here) (n : Reg) (x : Lanes Word) (m p : LaneMask) : (commitV s h n x m p).2.f = h.f := by
  unfold commitV
  split
  · rfl
  · dsimp only
    split
    · unfold Here.writeLanes; dsimp only; split <;> rfl
    · unfold Here.writeLanes; dsimp only; split <;> rfl

theorem settleOne_single (s : State) (h : Here) {x : Pending} {r : PendReg} (hr : x.regs = [r]) (hu : x.uni = []) (hz : x.zMask = 0#32) :
    (settleOne s h x).2 = (if r.dropped then (s, h) else commitV s h r.reg r.lanes r.mask r.poison).2 := by
  rw [settleOne_here, hr, hu, hz]
  simp only [List.foldl_cons, List.foldl_nil, mergeMask_none]

/-- A result of one register that is due: its lanes take the words, unless a younger write has discarded it. -/
theorem settleDue_one {s : State} {h : Here} {x : Pending} {r : PendReg} (hp : h.f.pending = [x]) (hl : x.left = 0) (hr : x.regs = [r])
    (hu : x.uni = []) (hz : x.zMask = 0#32) :
    (settleDue s h).2.f.pending = [] ∧ (settleDue s h).2.f.pc = h.f.pc ∧ (settleDue s h).2.f.view = h.f.view ∧
      (r.dropped = true → ∀ n, (settleDue s h).2.v n = h.v n) ∧
      (r.dropped = false → ∀ (n : Reg) (l : Fin 32), ((settleDue s h).2.v n)[l] =
        if n = r.reg ∧ r.mask.getLsbD l.val = true then r.lanes[l] else (h.v n)[l]) := by
  rw [settleDue_alone hp hl, settleOne_single _ _ hr hu hz]
  by_cases hd : r.dropped = true
  · rw [if_pos hd]
    exact ⟨rfl, rfl, rfl, fun _ _ => rfl, fun h => absurd (hd.symm.trans h) nofun⟩
  · rw [if_neg hd, commitV_f]
    have w := commitV_wrote (Wrote.refl s { h with f := { h.f with pending := [] } }) r.reg r.lanes r.mask r.poison
    refine ⟨rfl, rfl, rfl, fun h => absurd h hd, fun _ n l => ?_⟩
    have hw := w.words n l
    split
    · next hit =>
      rw [if_pos hit] at hw
      exact hw.1
    · next miss =>
      rw [if_neg miss] at hw
      exact hw.1

/-- Settles O18: divisions, special functions, loads of memory and of the scratchpad, and `LDFF`; then a result that is due. -/
theorem lookahead : Obligations.Lookahead := by
  unfold Obligations.Lookahead
  refine ⟨divisions_late, specials_late, fun o r hr s h p => ?_, fun o s h x => ?_, fun o s h p good => ?_, fun s h x r hp hl hr hu hz =>
    settleDue_one hp hl hr hu hz⟩
  · intro ex n sh entry q hla hp
    simp only [List.mem_cons, List.not_mem_nil, or_false] at hr
    rcases hr with rfl | rfl | rfl
    · exact globalLoad_flew (i := .ldg o) (fun s => (rfl : execLdg o s = _)) q hp hla
    · exact globalLoad_flew (i := .ldgs o) (fun s => (rfl : execLdgs o s = _)) q hp hla
    · exact globalLoad_flew (i := .ldc o) (fun s => (rfl : execLdc o s = _)) q hp hla
  · intro ex n addr out m q hla ht hal hout
    exact ldp_flew q hla ht hal hout
  · intro ex n q hla hne hg hp
    exact ldff_flew q hla hne hg hp

end Sys2Proof.Machine
end

section

/-! SUPPORT. A lane instruction that writes registers some of whose words are poisoned (R48, R218, R219), and a class that traps (R148). -/

namespace Sys2Proof.Machine

/-! ## Words and their poison -/

/-- Registers from d up take the words `val` in the lanes `m`, poisoned where `bad`; no other lane word changes. -/
structure Here.Takes (h h' : Here) (d : Reg) (n : Nat) (m : LaneMask) (val : Fin 32 → Nat → Word) (bad : Fin 32 → Nat → Prop) : Prop where
  words : ∀ (j : Nat) (l : Fin 32), j < n → m.getLsbD l.val = true →
    (h'.v (d + BitVec.ofNat 6 j))[l] = val l j ∧ ((h'.vreg (d + BitVec.ofNat 6 j)).poison.getLsbD l.val = true ↔ bad l j)
  frame : LaneFrame h h' (.regs d n) m

section
variable {r : LaneResult} {m : LaneMask} {n : Nat} {val : Fin 32 → Nat → Word} {bad : Fin 32 → Nat → Prop} (q : r.Carries m n val bad)
include q

/-- The writes of registers from d up are those of the result, each to its register in the lanes `m`. -/
theorem mem_dstWrites_regs {h : Here} {d : Reg} {w : OneWrite} (hw : w ∈ dstWrites h r (.regs d n)) :
    ∃ j, j < n ∧ w.1 = d + BitVec.ofNat 6 j ∧ w.2.2 = m ∧ r.outs[j]? = some w.2.1 := by
  simp only [dstWrites, List.mem_map] at hw
  obtain ⟨⟨a, o⟩, hm, rfl⟩ := hw
  obtain ⟨j, hj⟩ := List.mem_iff_getElem?.mp hm
  obtain ⟨ha, ho⟩ := List.getElem?_zip_eq_some.mp hj
  obtain ⟨hlt, -⟩ := List.getElem?_eq_some_iff.mp ha
  exact ⟨j, by rwa [regsFrom_length] at hlt, regsFrom_get ha, q.mask, ho⟩

/-- Each register from d up is written. -/
theorem dstWrites_regs {d : Reg} {j : Nat} (h : Here) (hj : j < n) :
    ∃ o, r.outs[j]? = some o ∧ (d + BitVec.ofNat 6 j, o, m) ∈ dstWrites h r (.regs d n) := by
  have hlen : j < r.outs.length := by rw [q.count]; exact hj
  refine ⟨r.outs[j], List.getElem?_eq_getElem hlen, ?_⟩
  simp only [dstWrites, List.mem_map, q.mask]
  refine ⟨(d + BitVec.ofNat 6 j, r.outs[j]), List.mem_iff_getElem?.mpr ⟨j, List.getElem?_zip_eq_some.mpr ⟨?_, List.getElem?_eq_getElem hlen⟩⟩, rfl⟩
  simp [regsFrom, List.getElem?_map, List.getElem?_range hj]

theorem editsOf_regs (h : Here) (d : Reg) (hn : n ≤ 64) {j : Nat} {l : Fin 32} (hj : j < n) (hl : m.getLsbD l.val = true) :
    ∃ o, r.outs[j]? = some o ∧
      editsOf (dstWrites h r (.regs d n)) (fun _ _ => none) (d + BitVec.ofNat 6 j) l = some (o.1[l], o.2.getLsbD l.val) := by
  obtain ⟨o, ho, hmem⟩ := dstWrites_regs q (d := d) h hj
  refine ⟨o, ho, editsOf_hit _ _ _ _ _ ⟨_, hmem, rfl, hl⟩ fun w hw hit => ?_⟩
  obtain ⟨i, hi, hreg, -, hout⟩ := mem_dstWrites_regs q hw
  obtain rfl : i = j := reg_add_inj (by omega) (by omega) (hreg.symm.trans hit.1.symm)
  rw [ho] at hout
  rw [← Option.some.inj hout]

/-- Written registers hold the result. -/
theorem writeDst_takes (t : State) (k : Here) (d : Reg) (hn : n ≤ 64) :
    ∃ P, Wrote t (writeDst t k (.regs d n) r).1 k (writeDst t k (.regs d n) r).2 P ∧ k.Takes (writeDst t k (.regs d n) r).2 d n m val bad := by
  rw [writeDst_eq _ _ _ _ (by nofun)]
  have w := writeAll_wrote (dstWrites k r (.regs d n)) (Wrote.refl t k)
  generalize writeAll (t, k) (dstWrites k r (.regs d n)) = a at w
  refine ⟨_, w, fun j l hj hl => ?_, fun a l hno => ?_, w.hidden, w.trapFile, fun x l _ => ?_, ?_⟩
  · obtain ⟨o, ho, he⟩ := editsOf_regs q k d hn hj hl
    have hw := w.words (d + BitVec.ofNat 6 j) l
    rw [he] at hw
    obtain ⟨hv, hp⟩ := hw
    obtain ⟨h1, h2⟩ := q.words j o ho l hl
    exact ⟨hv.trans h1, by rw [hp]; exact h2⟩
  · have hw := w.words a l
    rw [editsOf_miss _ _ _ _ fun x hx hit => ?_] at hw
    · exact hw
    · obtain ⟨j, hj, hreg, hmask, -⟩ := mem_dstWrites_regs q hx
      obtain ⟨ha, hl⟩ := hit
      exact hno ⟨by rw [← hmask]; exact hl, mem_regsFrom.mpr ⟨j, hj, ha.trans hreg⟩⟩
  · show (kGet _ x)[l] = (kGet _ x)[l]
    rw [w.index]
  · have e := congrArg (fun g : Group => { g with
      frags := k.g.frags, x := k.g.x, cc := k.g.cc, sticky := k.g.sticky, removed := k.g.removed, epoch := k.g.epoch }) w.group
    exact e

end

/-! ## Commit -/

/-- A commit in a single clock of a form that may come late. -/
theorem commitLane_now {t : State} {h : Here} {i : Instr} {kr : KReg} {d : Reg} {n : Nat} {a b : Option Src} {reads : List Src} {us : List Reg}
    (ex : LaneMask) (r : LaneResult) (key : Option ReuseKey) : commitLane t h ⟨i, kr, .regs d n, a, b, reads, us, some 0⟩ ex r key =
      let x := writeDst t (h.coded ex r) (.regs d n) r
      (next (match key with
        | some key => addEntry (x.1.put x.2) h.r.core key (x.2.results (regsFrom d n)) (if r.codes = codesNone then none else some x.2.g.cc) r.flags
        | none => x.1) x.2 i).evictNames h.r.core := by
  unfold commitLane
  rfl

/-- A fragment put back and then again has changed one slot. -/
theorem Near.committed {s t : State} {h k : Here} (e : k.r = h.r) (near : Near s t h.r.core (s.core h.r.core).slots) (i : Instr)
    (key : Option ReuseKey) (rs : List (Option RName × Lanes Word)) (cc : Option LaneCC) (fl : BitVec 5) :
    Near s ((next (match key with
        | some key => Machine.addEntry (t.put k) h.r.core key rs cc fl
        | none => t) k i).evictNames h.r.core) h.r.core ((s.core h.r.core).slots.set h.r.slot (some (k.advance i.bytes).group)) := by
  refine Near.evictNames ?_
  cases key with
  | none => exact Near.put_at (h := k.advance i.bytes) e near
  | some key =>
    have n := Near.put_at (h := k.advance i.bytes) e ((Near.put_at e near).addEntry key rs cc fl)
    rw [Vector.set_set] at n
    exact n

section
variable {s t : State} {h : Here} {i : Instr} {kr : KReg} {d : Reg} {n : Nat} {a b : Option Src} {reads : List Src} {us : List Reg}
  {r : LaneResult} {ex : LaneMask} {val : Fin 32 → Nat → Word} {bad : Fin 32 → Nat → Prop}

theorem commitLane_takes (key : Option ReuseKey) (q : r.Carries ex n val bad) (hn : n ≤ 64) (hc : r.codes = codesNone) (he : r.e = none)
    (near : Near s t h.r.core (s.core h.r.core).slots) :
    ∃ h', OnlyGroup s (commitLane t h ⟨i, kr, .regs d n, a, b, reads, us, some 0⟩ ex r key) h.r ∧
      WentOn (commitLane t h ⟨i, kr, .regs d n, a, b, reads, us, some 0⟩ ex r key) h h' (h.after i) ∧ h'.f.view = h.f.view ∧
      h.Takes h' d n ex val bad := by
  rw [commitLane_now, coded_plain hc he]
  obtain ⟨P, w, takes⟩ := writeDst_takes q t (h.raise r.flags) d hn
  generalize writeDst t (h.raise r.flags) (.regs d n) r = x at w takes
  have acted : h.Acted x.2 := by
    refine ⟨w.ref, ?_, ?_⟩
    · have e := congrArg Group.frags w.group; exact e
    · have e := congrArg (fun f : Frag => { f with view := h.f.view, written := h.f.written }) w.frag; exact e
  have near1 : Near s x.1 h.r.core (s.core h.r.core).slots := by
    rw [w.state]
    refine near.setCore _ ?_
    rw [← near.slots]
    exact ⟨_, _, _, _, rfl⟩
  have near2 := near1.committed w.ref i key (x.2.results (regsFrom d n)) (if r.codes = codesNone then none else some x.2.g.cc) r.flags
  refine ⟨(x.2.advance i.bytes).placed, near2.only, (acted.landed i.bytes).went near2, w.view, takes.words, ?_⟩
  obtain ⟨hregs, hhidden, htrap, hindex, hrest⟩ := takes.frame
  refine ⟨hregs, hhidden, htrap, hindex, ?_⟩
  have e := congrArg (fun g : Group => { g with sticky := h.g.sticky }) hrest
  exact e

/-- From the results on, where no class stops it. -/
theorem finishLane_takes (old : Bool) (mem : Option MemKey) (q : r.Carries ex n val bad) (hn : n ≤ 64) (hc : r.codes = codesNone) (he : r.e = none)
    (hz : r.divz = 0#32) (hq : ∀ c : Fin 4, h.f.view.en.getLsbD c.val = true → r.cls c = 0#32)
    (near : Near s t h.r.core (s.core h.r.core).slots) :
    ∃ h', OnlyGroup s (finishLane t h ⟨i, kr, .regs d n, a, b, reads, us, some 0⟩ ex old mem r) h.r ∧
      WentOn (finishLane t h ⟨i, kr, .regs d n, a, b, reads, us, some 0⟩ ex old mem r) h h' (h.after i) ∧ h'.f.view = h.f.view ∧
      h.Takes h' d n ex val bad := by
  unfold finishLane
  rw [if_neg (by simp [hz])]
  dsimp only
  rw [trapClass_none hq]
  exact commitLane_takes _ q hn hc he (near.countLookup _ _)

end

/-! ## A class that traps -/

/-- The lowest enabled class that some lane meets traps. -/
theorem trapClass_some {en : BitVec 4} {cls : Fin 4 → LaneMask} {c : Fin 4} (he : en.getLsbD c.val = true) (hc : cls c ≠ 0#32)
    (hlow : ∀ b : Fin 4, b < c → en.getLsbD b.val = true → cls b = 0#32) : trapClass en cls = some c := by
  unfold trapClass
  rw [List.find?_eq_some_iff_getElem]
  refine ⟨by simp [he, hc], c.val, by simp, by simp, fun j hj => ?_⟩
  have hj4 : j < 4 := by omega
  rw [List.getElem_finRange]
  cases hb : en.getLsbD j with
  | false => simp [hb]
  | true =>
    have := hlow ⟨j, hj4⟩ hj hb
    simp [this]

theorem counted_countLookup (s : State) (c : Fin 256) (key : Option ReuseKey) (hit : Bool) : Counted s (s.countLookup c key hit) c := by
  unfold State.countLookup
  split
  · exact ⟨rfl, fun _ _ => rfl, rfl⟩
  · refine ⟨rfl, fun d hd => core_setCore_ne _ _ _ _ hd, ?_⟩
    rw [core_setCore_same]
    split <;> rfl

theorem finishLane_traps {s : State} {h : Here} {sh : LaneShape} {ex : LaneMask} {r : LaneResult} (old : Bool) (mem : Option MemKey)
    (hz : r.divz = 0#32) {c : Fin 4} (he : h.f.view.en.getLsbD c.val = true) (hc : r.cls c ≠ 0#32)
    (hlow : ∀ b : Fin 4, b < c → h.f.view.en.getLsbD b.val = true → r.cls b = 0#32) :
    ∃ s2, Counted s s2 h.r.core ∧ finishLane s h sh ex old mem r = trapOf s2 h sh.i (.plain (0x30#8 + BitVec.ofNat 8 c.val) 0#8 (r.cls c)) := by
  refine ⟨_, counted_countLookup s h.r.core (h.reuseKey sh ex old mem) (s.reuseFind h.r.core (h.reuseKey sh ex old mem)).isSome, ?_⟩
  unfold finishLane
  rw [if_neg (by simp [hz])]
  dsimp only
  rw [trapClass_some he hc hlow]

end Sys2Proof.Machine
end

section

/-! SUPPORT. `MVT` (R178 to R180): its matrix, its rows, its result. -/

namespace Sys2Proof.Machine

/-! ## The matrix -/

theorem append_toNat {a b : Nat} (x : BitVec a) (y : BitVec b) : (x ++ y).toNat = x.toNat * 2 ^ b + y.toNat := by
  rw [BitVec.toNat_append, ← Nat.shiftLeft_add_eq_or_of_lt y.isLt, Nat.shiftLeft_eq]

/-- A word of four bytes, lowest first. -/
theorem wordOf_homeBytes (s : State) (a : Nat) :
    wordOf (homeBytes s a 4) = homeByte s (a + 3) ++ homeByte s (a + 2) ++ homeByte s (a + 1) ++ homeByte s a := by
  refine BitVec.eq_of_toNat_eq ?_
  have h0 := (homeByte s a).isLt
  have h1 := (homeByte s (a + 1)).isLt
  have h2 := (homeByte s (a + 2)).isLt
  have h3 := (homeByte s (a + 3)).isLt
  rw [append_toNat, append_toNat, append_toNat]
  unfold wordOf homeBytes
  rw [BitVec.toNat_ofNat, show List.range 4 = [0, 1, 2, 3] from rfl]
  simp only [List.map_cons, List.map_nil, leNat, Nat.add_zero]
  omega

theorem gatherRange_ok (m : LaneMask) (ps : List Place) : gatherRange m (ps.map Check.ok) = .ok ps := by
  have hps : (ps.map Check.ok).filterMap (fun c => match c with
      | .ok p => some p
      | _ => none) = ps := by
    rw [List.filterMap_map]
    exact List.filterMap_some
  have hfind (q : Check → Bool) : (ps.map Check.ok).find? q = none ∨ ∃ p, (ps.map Check.ok).find? q = some (.ok p) := by
    rw [List.find?_map]
    cases ps.find? (q ∘ Check.ok) with
    | none => exact .inl rfl
    | some p => exact .inr ⟨p, rfl⟩
  unfold gatherRange
  dsimp only
  rcases hfind (fun c => c.rank == (ps.map Check.ok).foldl (fun r c => min r c.rank) 100) with e | ⟨p, e⟩
  · rw [e]
    exact congrArg RangeCheck.ok hps
  · rw [e]
    exact congrArg RangeCheck.ok hps

/-- A run of the places of a matrix. -/
theorem range_slice {α : Type} (p : Nat → α) {a k n : Nat} (h : a + k ≤ n) :
    (((List.range n).map p).drop a).take k = (List.range k).map (fun j => p (a + j)) := by
  refine List.ext_getElem (by simp; omega) fun j h1 h2 => ?_
  simp

/-! ## Rows -/

/-- Word w of a matrix at some places. -/
def mvtWord (s : State) (p : Nat → Place) (w : Nat) : Word :=
  homeByte s ((p w).pa + 3) ++ homeByte s ((p w).pa + 2) ++ homeByte s ((p w).pa + 1) ++ homeByte s (p w).pa

/-- Row i of a lane over a matrix with n weights in a row. -/
def mvtChain (s : State) (h : Here) (o : MvtOp) (p : Nat → Place) (n : Nat) (l : Fin 32) (i : Nat) : LaneOut :=
  chainOut h.f.view.rm (mvtWord s p (i * (n + 1) + n))
    ((List.range n).map (fun j => (f32 (mvtWord s p (i * (n + 1) + j)), f32 (h.v (o.a + BitVec.ofNat 6 j))[l])))

/-- The flags and classes of a lane's rows. -/
def mvtOut (s : State) (h : Here) (o : MvtOp) (p : Nat → Place) (m n : Nat) (l : Fin 32) : LaneOut :=
  { LaneOut.idle with
    flags := (List.range m).foldl (fun f i => f ||| (mvtChain s h o p n l i).flags) 0#5
    cls := (List.range m).foldl (fun c i => c ||| (mvtChain s h o p n l i).cls) 0#4 }

/-- Row i reads a poisoned granule. -/
def mvtBad (s : State) (p : Nat → Place) (n i : Nat) : Prop := ∃ j, j ≤ n ∧ s.poisoned (p (i * (n + 1) + j)).pa 4 = true

theorem row_end {m n i j : Nat} (hi : i < m) (hj : j ≤ n) : i * (n + 1) + j < m * (n + 1) := by
  have h : (i + 1) * (n + 1) ≤ m * (n + 1) := Nat.mul_le_mul_right _ hi
  rw [Nat.add_mul] at h
  omega

section
variable {s : State} {h : Here} {o : MvtOp} {p : Nat → Place} {m n : Nat}

theorem mvtRow_eq (l : Fin 32) {i : Nat} (hi : i < m) :
    mvtRow h.f.view.rm n (((List.range (m * (n + 1))).map p).map (fun p => wordOf (homeBytes s p.pa 4)))
      (((regsFrom o.a n).map h.v).map (fun v => v[l])) i = mvtChain s h o p n l i := by
  have hw {j : Nat} (hj : j ≤ n) : (((List.range (m * (n + 1))).map p).map (fun p => wordOf (homeBytes s p.pa 4))).getD (i * (n + 1) + j) 0#32 =
      mvtWord s p (i * (n + 1) + j) := by
    rw [List.map_map, range_getD _ _ (row_end hi hj)]
    exact wordOf_homeBytes s _
  unfold mvtRow mvtChain
  dsimp only
  rw [hw le_rfl]
  refine congrArg _ (List.map_congr_left fun j hj => ?_)
  have hj := List.mem_range.mp hj
  rw [hw hj.le]
  unfold regsFrom
  rw [List.map_map, List.map_map, range_getD _ _ hj]
  rfl

theorem rowPoisoned_iff {i : Nat} (hi : i < m) : rowPoisoned s n ((List.range (m * (n + 1))).map p) i = true ↔ mvtBad s p n i := by
  unfold rowPoisoned mvtBad
  rw [range_slice p (by have := row_end hi (le_refl n); omega), List.any_map, List.any_eq_true]
  simp only [List.mem_range, Nat.lt_succ_iff, Function.comp]

end

/-! ## The result -/

theorem classes_foldl (ls : List LaneOut) (b : Nat) : ∀ f : BitVec 4,
    (ls.foldl (fun f o => f ||| o.cls) f).getLsbD b = (f.getLsbD b || ls.any (fun o => o.cls.getLsbD b)) := by
  induction ls with
  | nil => simp
  | cons o t ih => intro f; rw [List.foldl_cons, ih, BitVec.getLsbD_or, List.any_cons, Bool.or_assoc]

/-- The flags of lists of results. -/
theorem flags_foldl_lists (ls : List (List LaneOut)) (b : Nat) : ∀ f : Flags,
    (ls.foldl (fun f os => os.foldl (fun f o => f ||| o.flags) f) f).getLsbD b = (f.getLsbD b || ls.any (fun os => os.any (fun o => o.flags.getLsbD b))) := by
  induction ls with
  | nil => simp
  | cons os t ih => intro f; rw [List.foldl_cons, ih, flags_foldl, List.any_cons, Bool.or_assoc]

section
variable (s : State) (h : Here) (o : MvtOp) (p : Nat → Place) (m n : Nat) (ex : LaneMask)

theorem mvtOut_flags (l : Fin 32) (b : Nat) :
    (mvtOut s h o p m n l).flags.getLsbD b = ((List.range m).map (mvtChain s h o p n l)).any (fun x => x.flags.getLsbD b) := by
  have e := flags_foldl ((List.range m).map (mvtChain s h o p n l)) b 0#5
  rw [List.foldl_map, BitVec.getLsbD_zero, Bool.false_or] at e
  exact e

theorem mvtOut_cls (l : Fin 32) (b : Nat) :
    (mvtOut s h o p m n l).cls.getLsbD b = ((List.range m).map (mvtChain s h o p n l)).any (fun x => x.cls.getLsbD b) := by
  have e := classes_foldl ((List.range m).map (mvtChain s h o p n l)) b 0#4
  rw [List.foldl_map, BitVec.getLsbD_zero, Bool.false_or] at e
  exact e

/-- The rows of every lane. -/
def mvtRows : Lanes (List LaneOut) := Lanes.make (fun l => if ex.getLsbD l.val then (List.range m).map (mvtChain s h o p n l) else [])

theorem mvtRows_active {l : Fin 32} (hl : ex.getLsbD l.val = true) :
    (mvtRows s h o p m n ex)[l] = (List.range m).map (mvtChain s h o p n l) := by
  unfold mvtRows
  rw [make_get, if_pos hl]

/-- What `MVT` computes at some places, by its rows. -/
theorem mvtResult_eq : mvtResult s h ex m n (regsFrom o.a n) ((List.range (m * (n + 1))).map p) =
    { LaneResult.values ex [] with
      outs := (List.range m).map (fun k => (Lanes.make (fun l => ((mvtRows s h o p m n ex)[l].getD k LaneOut.idle).val),
        if rowPoisoned s n ((List.range (m * (n + 1))).map p) k then ex else 0#32))
      flags := (mvtRows s h o p m n ex).toList.foldl (fun f os => os.foldl (fun f o => f ||| o.flags) f) 0#5
      cls := fun c => ex &&& maskOf (fun l => (mvtRows s h o p m n ex)[l].any (fun o => o.cls.getLsbD c.val)) } := by
  have hrows : (Lanes.make (fun l => if ex.getLsbD l.val then (List.range m).map (mvtRow h.f.view.rm n
      (((List.range (m * (n + 1))).map p).map (fun p => wordOf (homeBytes s p.pa 4))) (((regsFrom o.a n).map h.v).map (fun v => v[l]))) else [])
        : Lanes (List LaneOut)) = mvtRows s h o p m n ex := by
    unfold mvtRows
    congr 1
    funext l
    split
    · exact List.map_congr_left fun i hi => mvtRow_eq l (List.mem_range.mp hi)
    · rfl
  unfold mvtResult
  dsimp only
  rw [hrows]

theorem mvtResult_carries : (mvtResult s h ex m n (regsFrom o.a n) ((List.range (m * (n + 1))).map p)).Carries ex m
    (fun l i => (mvtChain s h o p n l i).val) (fun _ i => mvtBad s p n i) := by
  rw [mvtResult_eq]
  refine ⟨rfl, by simp, fun j x hx l hl => ?_⟩
  dsimp only at hx
  rw [List.getElem?_map] at hx
  obtain ⟨i, hi, rfl⟩ := Option.map_eq_some_iff.mp hx
  obtain ⟨hj, rfl⟩ := List.getElem?_eq_some_iff.mp hi
  have hj : j < m := by simpa using hj
  rw [List.getElem_range]
  constructor
  · rw [make_get, mvtRows_active s h o p m n ex hl, range_getD _ _ hj]
  · rw [← rowPoisoned_iff (m := m) hj]
    split
    · next hb => exact ⟨fun _ => hb, fun _ => hl⟩
    · next hb => exact ⟨fun e => by simp at e, fun e => absurd e hb⟩

theorem mvtResult_flags (b : Nat) : (mvtResult s h ex m n (regsFrom o.a n) ((List.range (m * (n + 1))).map p)).flags.getLsbD b =
    (List.finRange 32).any (fun l => ex.getLsbD l.val && (mvtOut s h o p m n l).flags.getLsbD b) := by
  rw [mvtResult_eq]
  dsimp only
  rw [flags_foldl_lists, BitVec.getLsbD_zero, Bool.false_or]
  unfold mvtRows Lanes.make
  rw [Vector.toList_ofFn, List.ofFn_eq_map, List.any_map]
  congr 1
  funext l
  rw [mvtOut_flags]
  simp only [Function.comp]
  cases ex.getLsbD l.val <;> simp

theorem mvtResult_cls (c : Fin 4) : (mvtResult s h ex m n (regsFrom o.a n) ((List.range (m * (n + 1))).map p)).cls c =
    ex &&& maskOf (fun l => (mvtOut s h o p m n l).cls.getLsbD c.val) := by
  rw [mvtResult_eq]
  refine laneMask_ext fun l => ?_
  dsimp only
  rw [BitVec.getLsbD_and, BitVec.getLsbD_and, maskOf_getLsbD, maskOf_getLsbD, mvtOut_cls]
  cases hl : ex.getLsbD l.val with
  | false => rw [Bool.false_and, Bool.false_and]
  | true => rw [mvtRows_active s h o p m n ex hl]

/-- `MVT` delivers nothing but words, flags and classes. -/
theorem mvtResult_plain (srcs : List Reg) (ps : List Place) :
    (mvtResult s h ex m n srcs ps).codes = codesNone ∧ (mvtResult s h ex m n srcs ps).e = none ∧ (mvtResult s h ex m n srcs ps).divz = 0#32 ∧
      (mvtResult s h ex m n srcs ps).cc = LaneCC.zero := ⟨rfl, rfl, rfl, rfl⟩

end

end Sys2Proof.Machine
end

section

/-! SUPPORT. `MVT` from its checks on (R71, R94, R148, R180). -/

namespace Sys2Proof.Machine

/-! ## From the checks on -/

/-- The shape of an `MVT`, under a lookahead in force. -/
def mvtShape (o : MvtOp) (la : Nat) : LaneShape :=
  ⟨.mvt o, o.k, .regs o.d (o.m1.toNat + 1), none, none, (regsFrom o.a (o.n1.toNat + 1)).map Src.reg, pairRegs o.b, some la⟩

/-- The places of a matrix in the order of its words. -/
def mvtPlaces (o : MvtOp) (p : Nat → Place) : List Place := (List.range ((o.m1.toNat + 1) * (o.n1.toNat + 1 + 1))).map p

/-- What an `MVT` computes from a matrix at some places. -/
def mvtDelivers (s : State) (h : Here) (o : MvtOp) (p : Nat → Place) : LaneResult :=
  mvtResult s h (h.exec o.k) (o.m1.toNat + 1) (o.n1.toNat + 1) (regsFrom o.a (o.n1.toNat + 1)) (mvtPlaces o p)

/-- The entry of the reuse table that an `MVT` over a matrix at some places finds. -/
def mvtEntry (s : State) (h : Here) (o : MvtOp) (p : Nat → Place) : Option ReuseEntry :=
  s.reuseFind h.r.core (h.reuseKey (mvtShape o 0) (h.exec o.k) (h.exec o.k != 0xFFFFFFFF#32)
    (some (memKeyOf s h ((List.range ((o.m1.toNat + 1) * (o.n1.toNat + 1 + 1))).map (fun w => (p w).pa)))))

/-- Every word of the matrix passes its checks, at the places `p`. -/
def MvtPasses (s : State) (h : Here) (o : MvtOp) (p : Nat → Place) : Prop := ∀ w, w < (o.m1.toNat + 1) * (o.n1.toNat + 1 + 1) →
  check1 s h .load .mustFreeze 4 4 (mvtAddr h o w) = .ok (p w)

/-- What is taken of an entry of the reuse table. -/
def reusedResult (ex : LaneMask) (e : ReuseEntry) : LaneResult :=
  { loadResult ex (e.results.map (fun r => (r.2, 0#32))) with flags := e.flags }

section
variable {o : MvtOp} {s : State} {h : Here} {p : Nat → Place}
  (q : LaneReady .lane s h (.mvt o) o.k (.regs o.d (o.m1.toNat + 1)) none none ((regsFrom o.a (o.n1.toNat + 1)).map Src.reg) true)
  (hp : MvtPasses s h o p)
include q hp

/-- Where every check passes, `MVT` delivers its rows, or what the reuse table holds. -/
theorem mvt_runs : ∃ mem, exec (.mvt o) s = .next (match mvtEntry s h o p with
    | some e => finishLane s h (mvtShape o (h.laFor o.la)) (h.exec o.k) (h.exec o.k != 0xFFFFFFFF#32) mem (reusedResult (h.exec o.k) e)
    | none => finishLane (holdReplicas s h.r.core (mvtPlaces o p)) h (mvtShape o (h.laFor o.la)) (h.exec o.k) (h.exec o.k != 0xFFFFFFFF#32) mem
      (mvtDelivers s h o p)) := by
  have gates : issueGates s h (mvtShape o (h.laFor o.la)) (h.exec o.k) = none := issueGates_none _ rfl q
  have checks : (List.range ((o.m1.toNat + 1) * (o.n1.toNat + 1 + 1))).map (fun w => check1 s h .load .mustFreeze 4 4 (mvtAddr h o w)) =
      (mvtPlaces o p).map Check.ok := by
    unfold mvtPlaces
    rw [List.map_map]
    exact List.map_congr_left fun w hw => hp w (List.mem_range.mp hw)
  have e : exec (.mvt o) s = execMvt o s := rfl
  unfold mvtShape at gates
  rw [e]
  unfold execMvt
  rw [onFragment_issues q.issues]
  dsimp only
  rw [if_neg q.active, gates]
  dsimp only
  rw [checks, gatherRange_ok]
  refine ⟨some (memKeyOf s h ((List.range ((o.m1.toNat + 1) * (o.n1.toNat + 1 + 1))).map (fun w => (p w).pa))), ?_⟩
  have hpas : (mvtPlaces o p).map (fun p => p.pa) = (List.range ((o.m1.toNat + 1) * (o.n1.toNat + 1 + 1))).map (fun w => (p w).pa) := by
    unfold mvtPlaces
    rw [List.map_map]
    rfl
  dsimp only
  rw [hpas]
  rfl

theorem mvt_miss (hn : mvtEntry s h o p = none) : ∃ mem, exec (.mvt o) s = .next (finishLane (holdReplicas s h.r.core (mvtPlaces o p)) h
    (mvtShape o (h.laFor o.la)) (h.exec o.k) (h.exec o.k != 0xFFFFFFFF#32) mem
    (mvtDelivers s h o p)) := by
  obtain ⟨mem, e⟩ := mvt_runs q hp
  rw [hn] at e
  exact ⟨mem, e⟩

theorem mvt_hit {e : ReuseEntry} (he : mvtEntry s h o p = some e) : ∃ mem, exec (.mvt o) s = .next (finishLane s h
    (mvtShape o (h.laFor o.la)) (h.exec o.k) (h.exec o.k != 0xFFFFFFFF#32) mem (reusedResult (h.exec o.k) e)) := by
  obtain ⟨mem, hrun⟩ := mvt_runs q hp
  rw [he] at hrun
  exact ⟨mem, hrun⟩

end

/-! ## What is delivered -/

theorem mvt_size (o : MvtOp) : o.m1.toNat + 1 ≤ 64 := by
  have := o.m1.isLt
  omega

/-- A result without poison fits its registers. -/
theorem LaneResult.Carries.gives {r : LaneResult} {m : LaneMask} {n : Nat} {val : Fin 32 → Nat → Word} {d : Reg} (hn : n ≤ 64)
    (q : r.Carries m n val (fun _ _ => False)) (hp : ∀ o ∈ r.outs, o.2 &&& m = o.2) : r.gives val (.regs d n) := by
  refine ⟨hn, fun j hj => ?_⟩
  have hlen : j < r.outs.length := by rw [q.count]; exact hj
  have ho := List.getElem?_eq_getElem hlen
  refine ⟨r.outs[j], ho, laneMask_ext fun l => ?_, fun l hl => (q.words j _ ho l (by rw [← q.mask]; exact hl)).1⟩
  have hsub := congrArg (fun x : LaneMask => x.getLsbD l.val) (hp _ (List.getElem_mem hlen))
  simp only [BitVec.getLsbD_and] at hsub
  cases hl : m.getLsbD l.val with
  | true =>
    have := (q.words j _ ho l hl).2
    simpa using this
  | false => rw [← hsub, hl]; simp

theorem reusedResult_carries {ex : LaneMask} {n : Nat} {e : ReuseEntry} (hn : e.results.length = n) :
    (reusedResult ex e).Carries ex n (fun l j => (e.results.map (fun r => r.2[l])).getD j 0#32) (fun _ _ => False) := by
  obtain ⟨h1, h2, h3⟩ := reused_carries (ex := ex) hn
  exact ⟨h1, h2, h3⟩

/-- The flags that every active lane raises alike. -/
theorem same_flags {ex : LaneMask} (hex : ex ≠ 0#32) (f : Flags) (b : Nat) :
    f.getLsbD b = (List.finRange 32).any (fun l => ex.getLsbD l.val && f.getLsbD b) := by
  obtain ⟨l, -, hl, -⟩ := lowestLane_some hex
  cases hf : f.getLsbD b with
  | false => simp
  | true =>
    refine (List.any_eq_true.mpr ⟨l, List.mem_finRange l, ?_⟩).symm
    rw [hl]
    rfl

theorem zero_cc (l : Fin 32) : LaneCC.zero.c.getLsbD l.val = false ∧ LaneCC.zero.z.getLsbD l.val = false ∧ LaneCC.zero.n.getLsbD l.val = false ∧
    LaneCC.zero.v.getLsbD l.val = false := ⟨BitVec.getLsbD_zero, BitVec.getLsbD_zero, BitVec.getLsbD_zero, BitVec.getLsbD_zero⟩

section
variable {o : MvtOp} {s : State} {h : Here} {p : Nat → Place}

theorem mvtDelivers_carries : (mvtDelivers s h o p).Carries (h.exec o.k) (o.m1.toNat + 1) (fun l i => (mvtChain s h o p (o.n1.toNat + 1) l i).val)
    (fun _ i => mvtBad s p (o.n1.toNat + 1) i) := mvtResult_carries s h o p (o.m1.toNat + 1) (o.n1.toNat + 1) (h.exec o.k)

theorem mvtDelivers_flags (b : Nat) : (mvtDelivers s h o p).flags.getLsbD b =
    (List.finRange 32).any (fun l => (h.exec o.k).getLsbD l.val && (mvtOut s h o p (o.m1.toNat + 1) (o.n1.toNat + 1) l).flags.getLsbD b) :=
  mvtResult_flags s h o p (o.m1.toNat + 1) (o.n1.toNat + 1) (h.exec o.k) b

theorem mvtDelivers_cls (c : Fin 4) : (mvtDelivers s h o p).cls c =
    h.exec o.k &&& maskOf (fun l => (mvtOut s h o p (o.m1.toNat + 1) (o.n1.toNat + 1) l).cls.getLsbD c.val) :=
  mvtResult_cls s h o p (o.m1.toNat + 1) (o.n1.toNat + 1) (h.exec o.k) c

theorem mvtDelivers_plain : (mvtDelivers s h o p).codes = codesNone ∧ (mvtDelivers s h o p).e = none ∧ (mvtDelivers s h o p).divz = 0#32 ∧
    (mvtDelivers s h o p).cc = LaneCC.zero := mvtResult_plain s h (o.m1.toNat + 1) (o.n1.toNat + 1) (h.exec o.k) _ _

/-- No enabled class arises among the rows. -/
theorem mvt_quiet (hq : quiet h (h.exec o.k) (mvtOut s h o p (o.m1.toNat + 1) (o.n1.toNat + 1))) (c : Fin 4) (hc : h.f.view.en.getLsbD c.val = true) :
    (mvtDelivers s h o p).cls c = 0#32 := by
  rw [mvtDelivers_cls]
  refine laneMask_ext fun l => ?_
  rw [BitVec.getLsbD_and, maskOf_getLsbD]
  cases hl : (h.exec o.k).getLsbD l.val with
  | false => simp
  | true =>
    have e := congrArg (fun x : BitVec 4 => x.getLsbD c.val) (hq l hl)
    simp only [BitVec.getLsbD_and, hc, Bool.and_true] at e
    rw [e]
    simp

/-- Each result lane is poisoned in active lanes alone. -/
theorem mvtDelivers_poison (x : Lanes Word × LaneMask)
    (hx : x ∈ (mvtDelivers s h o p).outs) :
    x.2 &&& h.exec o.k = x.2 := by
  unfold mvtDelivers mvtPlaces at hx
  rw [mvtResult_eq] at hx
  obtain ⟨k, -, rfl⟩ := List.mem_map.mp hx
  dsimp only
  split
  · exact BitVec.and_self
  · exact BitVec.zero_and

theorem reusedResult_poison {ex : LaneMask} {e : ReuseEntry} (x : Lanes Word × LaneMask) (hx : x ∈ (reusedResult ex e).outs) : x.2 &&& ex = x.2 := by
  obtain ⟨k, -, rfl⟩ := List.mem_map.mp hx
  exact BitVec.zero_and

/-- A result of words and flags alone, committed in a single clock. -/
theorem finishMvt_done {t : State} {r : LaneResult} {val : Fin 32 → Nat → Word} {out : Fin 32 → LaneOut} (old : Bool) (mem : Option MemKey)
    (q : r.Carries (h.exec o.k) (o.m1.toNat + 1) val (fun _ _ => False)) (hp : ∀ x ∈ r.outs, x.2 &&& h.exec o.k = x.2)
    (hc : r.codes = codesNone) (he : r.e = none) (hz : r.divz = 0#32) (hcc : r.cc = LaneCC.zero)
    (hq : ∀ c : Fin 4, h.f.view.en.getLsbD c.val = true → r.cls c = 0#32)
    (hout : ∀ l, (out l).c = false ∧ (out l).z = false ∧ (out l).n = false ∧ (out l).v = false)
    (hf : ∀ b : Nat, r.flags.getLsbD b = (List.finRange 32).any (fun l => (h.exec o.k).getLsbD l.val && (out l).flags.getLsbD b)) :
    ∃ h', LaneDone t (finishLane t h (mvtShape o 0) (h.exec o.k) old mem r) h h' (.mvt o) (h.exec o.k) (.regs o.d (o.m1.toNat + 1)) codesNone val out
      h.f.view.scc := by
  have hscc : h.sccAfter r = h.f.view.scc := by
    unfold Here.sccAfter
    rw [he]
  have w := finishLane_done (mvtShape o 0) (h.exec o.k) old mem r val out q.mask (q.gives (mvt_size o) hp) trivial (.inr (.inl rfl)) hz hq
    (fun l _ => ?_) hf (Near.refl t h.r.core)
  · rw [hc, hscc] at w
    exact w
  · obtain ⟨c1, c2, c3, c4⟩ := zero_cc l
    obtain ⟨o1, o2, o3, o4⟩ := hout l
    rw [hcc, o1, o2, o3, o4]
    exact ⟨c1, c2, c3, c4⟩

theorem finishMvt_flew {t : State} {r : LaneResult} {val : Fin 32 → Nat → Word} {bad : Fin 32 → Nat → Prop} {flags : Fin 32 → Flags} (old : Bool)
    (mem : Option MemKey) (hex : h.exec o.k ≠ 0#32) (hla : o.la ≠ 0#4) (hen : h.f.view.en = 0#4)
    (q : r.Carries (h.exec o.k) (o.m1.toNat + 1) val bad) (hc : r.codes = codesNone) (he : r.e = none) (hz : r.divz = 0#32)
    (hf : ∀ b : Nat, r.flags.getLsbD b = (List.finRange 32).any (fun l => (h.exec o.k).getLsbD l.val && (flags l).getLsbD b)) :
    ∃ h', LaneFlew t (finishLane t h (mvtShape o (h.laFor o.la)) (h.exec o.k) old mem r) h h' (.mvt o) o.la (h.without o.d (o.m1.toNat + 1)) (h.exec o.k)
      (h.exec o.k) 0#32 o.d (o.m1.toNat + 1) val bad flags (0#32, 0#32) := by
  obtain ⟨k, hk⟩ := late_succ hla
  rw [show h.laFor o.la = o.la.toNat from if_pos hen, hk]
  exact finishLane_flew old mem hex hk.symm q hc he hz (no_classes hen) hf (Near.refl _ _)

end

/-! ## The clauses -/

section
variable {o : MvtOp} {s : State} {h : Here} {p : Nat → Place}
  (q : LaneReady .lane s h (.mvt o) o.k (.regs o.d (o.m1.toNat + 1)) none none ((regsFrom o.a (o.n1.toNat + 1)).map Src.reg) true)
  (hp : MvtPasses s h o p)
include q hp

/-- Rows of a matrix without poison. -/
theorem mvt_done (hla : noLookahead o.la h) (hn : mvtEntry s h o p = none)
    (hq : quiet h (h.exec o.k) (mvtOut s h o p (o.m1.toNat + 1) (o.n1.toNat + 1))) (hb : ∀ i, i < o.m1.toNat + 1 → ¬mvtBad s p (o.n1.toNat + 1) i) :
    ∃ s1 t h', exec (.mvt o) s = .next t ∧ Accounted s s1 h.r.core ∧ LaneDone s1 t h h' (.mvt o) (h.exec o.k) (.regs o.d (o.m1.toNat + 1)) codesNone
      (fun l i => (mvtChain s h o p (o.n1.toNat + 1) l i).val) (mvtOut s h o p (o.m1.toNat + 1) (o.n1.toNat + 1)) h.f.view.scc := by
  obtain ⟨mem, hrun⟩ := mvt_miss q hp hn
  rw [laFor_zero hla] at hrun
  obtain ⟨hc, he, hz, hcc⟩ := mvtDelivers_plain (s := s) (h := h) (o := o) (p := p)
  have hwhole : (mvtDelivers s h o p).Carries (h.exec o.k) (o.m1.toNat + 1) (fun l i => (mvtChain s h o p (o.n1.toNat + 1) l i).val) (fun _ _ => False) :=
    mvtDelivers_carries.congr (fun _ _ _ _ => rfl) fun _ i _ hi => iff_false_intro (hb i hi)
  obtain ⟨h', w⟩ := finishMvt_done (t := holdReplicas s h.r.core (mvtPlaces o p)) (h.exec o.k != 0xFFFFFFFF#32) mem hwhole mvtDelivers_poison hc he hz hcc
    (mvt_quiet hq) (fun _ => ⟨rfl, rfl, rfl, rfl⟩) mvtDelivers_flags
  exact ⟨_, _, h', hrun, accounted_holdReplicas s h.r.core (mvtPlaces o p), w⟩

/-- Rows of a matrix some of whose granules are poisoned. -/
theorem mvt_takes (hla : noLookahead o.la h) (hn : mvtEntry s h o p = none)
    (hq : quiet h (h.exec o.k) (mvtOut s h o p (o.m1.toNat + 1) (o.n1.toNat + 1))) :
    ∃ s1 t h', exec (.mvt o) s = .next t ∧ Accounted s s1 h.r.core ∧ OnlyGroup s1 t h.r ∧ WentOn t h h' (h.after (.mvt o)) ∧ h'.f.view = h.f.view ∧
      h.Takes h' o.d (o.m1.toNat + 1) (h.exec o.k) (fun l i => (mvtChain s h o p (o.n1.toNat + 1) l i).val) (fun _ i => mvtBad s p (o.n1.toNat + 1) i) := by
  obtain ⟨mem, hrun⟩ := mvt_miss q hp hn
  rw [laFor_zero hla] at hrun
  obtain ⟨hc, he, hz, -⟩ := mvtDelivers_plain (s := s) (h := h) (o := o) (p := p)
  obtain ⟨h', only, went, view, takes⟩ := finishLane_takes (i := .mvt o) (kr := o.k) (d := o.d) (a := none) (b := none)
    (reads := (regsFrom o.a (o.n1.toNat + 1)).map Src.reg) (us := pairRegs o.b) (h.exec o.k != 0xFFFFFFFF#32) mem mvtDelivers_carries (mvt_size o) hc he hz
    (mvt_quiet hq) (Near.refl (holdReplicas s h.r.core (mvtPlaces o p)) h.r.core)
  exact ⟨_, _, h', hrun, accounted_holdReplicas s h.r.core (mvtPlaces o p), only, went, view, takes⟩

/-- What the reuse table holds. -/
theorem mvt_reused (hla : noLookahead o.la h) {e : ReuseEntry} (hs : mvtEntry s h o p = some e) (hlen : e.results.length = o.m1.toNat + 1) :
    ∃ s1 t h', exec (.mvt o) s = .next t ∧ Accounted s s1 h.r.core ∧ LaneDone s1 t h h' (.mvt o) (h.exec o.k) (.regs o.d (o.m1.toNat + 1)) codesNone
      (fun l j => (e.results.map (fun r => r.2[l])).getD j 0#32) (fun _ => { LaneOut.idle with flags := e.flags }) h.f.view.scc := by
  obtain ⟨mem, hrun⟩ := mvt_hit q hp hs
  rw [laFor_zero hla] at hrun
  obtain ⟨h', w⟩ := finishMvt_done (t := s) (out := fun _ => { LaneOut.idle with flags := e.flags }) (h.exec o.k != 0xFFFFFFFF#32) mem
    (reusedResult_carries hlen) reusedResult_poison rfl rfl rfl rfl (fun _ _ => rfl) (fun _ => ⟨rfl, rfl, rfl, rfl⟩) (same_flags q.active e.flags)
  exact ⟨_, _, h', hrun, .refl s h.r.core, w⟩

/-- Rows under lookahead. -/
theorem mvt_flew (hn : mvtEntry s h o p = none) (hla : o.la ≠ 0#4) (hen : h.f.view.en = 0#4) :
    ∃ s1 t h', exec (.mvt o) s = .next t ∧ Accounted s s1 h.r.core ∧ LaneFlew s1 t h h' (.mvt o) o.la (h.without o.d (o.m1.toNat + 1)) (h.exec o.k)
      (h.exec o.k) 0#32 o.d (o.m1.toNat + 1) (fun l i => (mvtChain s h o p (o.n1.toNat + 1) l i).val) (fun _ i => mvtBad s p (o.n1.toNat + 1) i)
      (fun l => (mvtOut s h o p (o.m1.toNat + 1) (o.n1.toNat + 1) l).flags) (0#32, 0#32) := by
  obtain ⟨mem, hrun⟩ := mvt_miss q hp hn
  obtain ⟨hc, he, hz, -⟩ := mvtDelivers_plain (s := s) (h := h) (o := o) (p := p)
  obtain ⟨h', w⟩ := finishMvt_flew (t := holdReplicas s h.r.core (mvtPlaces o p)) (h.exec o.k != 0xFFFFFFFF#32) mem q.active hla hen mvtDelivers_carries
    hc he hz mvtDelivers_flags
  exact ⟨_, _, h', hrun, accounted_holdReplicas s h.r.core (mvtPlaces o p), w⟩

theorem mvt_reused_flew {e : ReuseEntry} (hs : mvtEntry s h o p = some e) (hlen : e.results.length = o.m1.toNat + 1) (hla : o.la ≠ 0#4)
    (hen : h.f.view.en = 0#4) :
    ∃ s1 t h', exec (.mvt o) s = .next t ∧ Accounted s s1 h.r.core ∧ LaneFlew s1 t h h' (.mvt o) o.la (h.without o.d (o.m1.toNat + 1)) (h.exec o.k)
      (h.exec o.k) 0#32 o.d (o.m1.toNat + 1) (fun l j => (e.results.map (fun r => r.2[l])).getD j 0#32) (fun _ _ => False) (fun _ => e.flags)
      (0#32, 0#32) := by
  obtain ⟨mem, hrun⟩ := mvt_hit q hp hs
  obtain ⟨h', w⟩ := finishMvt_flew (t := s) (h.exec o.k != 0xFFFFFFFF#32) mem q.active hla hen (reusedResult_carries hlen) rfl rfl rfl
    (same_flags q.active e.flags)
  exact ⟨_, _, h', hrun, .refl s h.r.core, w⟩

/-- The lowest enabled class among the rows traps. -/
theorem mvt_traps {c : Fin 4} (hn : mvtEntry s h o p = none) (he : h.f.view.en.getLsbD c.val = true) (hc : (mvtDelivers s h o p).cls c ≠ 0#32)
    (hlow : ∀ b : Fin 4, b < c → h.f.view.en.getLsbD b.val = true → (mvtDelivers s h o p).cls b = 0#32) :
    ∃ s1 s2, Accounted s s1 h.r.core ∧ Counted s1 s2 h.r.core ∧
      exec (.mvt o) s = .next (trapOf s2 h (.mvt o) (.plain (0x30#8 + BitVec.ofNat 8 c.val) 0#8 ((mvtDelivers s h o p).cls c))) := by
  obtain ⟨mem, hrun⟩ := mvt_miss q hp hn
  obtain ⟨-, -, hz, -⟩ := mvtDelivers_plain (s := s) (h := h) (o := o) (p := p)
  obtain ⟨s2, counted, e⟩ := finishLane_traps (s := holdReplicas s h.r.core (mvtPlaces o p)) (sh := mvtShape o (h.laFor o.la)) (ex := h.exec o.k)
    (h.exec o.k != 0xFFFFFFFF#32) mem hz he hc hlow
  exact ⟨_, s2, accounted_holdReplicas s h.r.core (mvtPlaces o p), counted, by rw [hrun, e]; rfl⟩

end

theorem mvt_idle {o : MvtOp} {s : State} {h : Here} (q : Issues s h (.mvt o) .lane) (he : h.exec o.k = 0#32) :
    ∃ t h', exec (.mvt o) s = .next t ∧ GoesOn s t h h' (h.after (.mvt o)) h.f.view := by
  have e : exec (.mvt o) s = execMvt o s := rfl
  rw [e]
  exact idle_goesOn q _ (if_pos he)

/-- Settles O43: the rows without lookahead, poisoned or not, or what the reuse table holds; the same in flight; a class that traps; no lane. -/
theorem vectorTransform : Obligations.VectorTransform := by
  unfold Obligations.VectorTransform
  intro o s h p m n ex word row out hit bad srcs entry
  refine ⟨fun q hla hp => ⟨fun hn hq hb => mvt_done q hp hla hn hq hb, fun hn hq => ?_, fun e hs hlen => mvt_reused q hp hla hs hlen⟩, fun q hp =>
    ⟨fun hn hla hen => mvt_flew q hp hn hla hen, fun e hs hlen hla hen => mvt_reused_flew q hp hs hlen hla hen, fun c hn he hc hlow => ?_⟩,
    fun q he => mvt_idle q he⟩
  · obtain ⟨s1, t, h', hrun, acc, only, went, view, takes⟩ := mvt_takes q hp hla hn hq
    exact ⟨s1, t, h', hrun, acc, only, went, view, takes.frame, fun i l => takes.words i l⟩
  · have hcls (c : Fin 4) : (mvtDelivers s h o p).cls c = hit c := mvtDelivers_cls c
    have w := mvt_traps (c := c) q hp hn he (by rw [hcls]; exact hc) fun b hb hen => (hcls b).trans (hlow b hb hen)
    rw [hcls] at w
    exact w

end Sys2Proof.Machine
end

section

/-! SUPPORT. Words by their fields (R76 to R88, R90, R91): a word is put together of its fields in one way, and so is the payload
of an `XP`. -/

namespace Sys2Proof.Machine

-- One proof at a time, to keep the compile small: they share the equations of the model's long matches.
set_option Elab.async false

/-! ## Fields as numbers -/

theorem fld_toNat (w : Word) (lo n : Nat) : (fld w lo n).toNat = w.toNat / 2 ^ lo % 2 ^ n := by
  rw [fld, BitVec.extractLsb'_toNat, Nat.shiftRight_eq_div_pow]

theorem bitAt_eq_iff {w : Word} {i : Nat} {b : Bool} : bitAt w i = b ↔ w.toNat / 2 ^ i % 2 = b.toNat := by
  rw [bitAt, BitVec.getLsbD, Nat.testBit, Nat.shiftRight_eq_div_pow]
  cases b <;> simp

theorem append_inj_iff {n m : Nat} {x x' : BitVec n} {y y' : BitVec m} : x ++ y = x' ++ y' ↔ x = x' ∧ y = y' := by
  constructor
  · intro e
    have hy : y = y' := by simpa [BitVec.extractLsb'_append_eq_of_add_le] using congrArg (·.extractLsb' 0 m) e
    subst hy
    exact ⟨(BitVec.append_left_inj y).mp e, rfl⟩
  · rintro ⟨rfl, rfl⟩
    rfl

/-- A part of a vector is two parts side by side. -/
theorem part_eq_append {k : Nat} {q : BitVec k} {lo n m : Nat} {x : BitVec n} {y : BitVec m} :
    q.extractLsb' lo (n + m) = x ++ y ↔ q.extractLsb' (lo + m) n = x ∧ q.extractLsb' lo m = y := by
  have e : q.extractLsb' lo (n + m) = q.extractLsb' (lo + m) n ++ q.extractLsb' lo m :=
    (BitVec.extractLsb'_append_extractLsb'_eq_extractLsb' rfl).symm
  rw [e, append_inj_iff]

theorem bit_eq_iff {k : Nat} {q : BitVec k} {i : Nat} {b : Bool} : q.getLsbD i = b ↔ q.toNat / 2 ^ i % 2 = b.toNat := by
  rw [BitVec.getLsbD, Nat.testBit, Nat.shiftRight_eq_div_pow]
  cases b <;> simp

theorem part_eq_one {k : Nat} {q : BitVec k} {i : Nat} {b : Bool} : q.extractLsb' i 1 = one b ↔ q.getLsbD i = b := by
  rw [bit_eq_iff, ← BitVec.toNat_inj, BitVec.extractLsb'_toNat, Nat.shiftRight_eq_div_pow, one, BitVec.toNat_ofBool, Nat.pow_one]

/-- The last part of a chain of parts: the parts above it are as `P` says. -/
theorem part_snoc {k : Nat} {q : BitVec k} {lo n m : Nat} {x : BitVec n} {y : BitVec m} {P : Prop} (h : q.extractLsb' (lo + m) n = x ↔ P) :
    q.extractLsb' lo (n + m) = x ++ y ↔ P ∧ q.extractLsb' lo m = y := part_eq_append.trans (and_congr_left' h)

/-- A vector is its parts. -/
theorem eq_iff_parts {k : Nat} {q x : BitVec k} {P : Prop} (h : q.extractLsb' 0 k = x ↔ P) : x = q ↔ P := by
  rw [← h, BitVec.extractLsb'_eq_self, eq_comm]

/-- A field is two fields side by side. -/
theorem fld_eq_append {w : Word} {lo n m : Nat} {x : BitVec n} {y : BitVec m} :
    fld w lo (n + m) = x ++ y ↔ fld w (lo + m) n = x ∧ fld w lo m = y := part_eq_append

theorem fld_eq_one {w : Word} {i : Nat} {b : Bool} : fld w i 1 = one b ↔ bitAt w i = b := part_eq_one

/-! ## The formats -/

section
variable {w : Word}

theorem lrWord_iff {lop : BitVec 6} {k : KReg} {c : Bool} {f : BitVec 3} {d a b : Reg} : lrWord lop k c f d a b = w ↔
    bitAt w 31 = false ∧ fld w 25 6 = lop ∧ fld w 22 3 = k ∧ bitAt w 21 = c ∧ fld w 18 3 = f ∧ fld w 12 6 = d ∧ fld w 6 6 = a ∧ fld w 0 6 = b := by
  refine (eq_iff_parts (part_snoc (y := b) (part_snoc (y := a) (part_snoc (y := d) (part_snoc (y := f) (part_snoc (y := one c)
    (part_snoc (y := k) (part_snoc (y := lop) (part_eq_one (b := false)))))))))).trans ?_
  simp only [part_eq_one, and_assoc, fld, bitAt, Nat.zero_add, Nat.reduceAdd]

theorem liWord_iff {lop : BitVec 6} {k : KReg} {c : Bool} {d a : Reg} {imm : BitVec 9} : liWord lop k c d a imm = w ↔
    bitAt w 31 = false ∧ fld w 25 6 = lop ∧ fld w 22 3 = k ∧ bitAt w 21 = c ∧ fld w 15 6 = d ∧ fld w 9 6 = a ∧ fld w 0 9 = imm := by
  refine (eq_iff_parts (part_snoc (y := imm) (part_snoc (y := a) (part_snoc (y := d) (part_snoc (y := one c) (part_snoc (y := k)
    (part_snoc (y := lop) (part_eq_one (b := false))))))))).trans ?_
  simp only [part_eq_one, and_assoc, fld, bitAt, Nat.zero_add, Nat.reduceAdd]

theorem llWord_iff {lop : BitVec 6} {k : KReg} {la : BitVec 4} {d a b : Reg} : llWord lop k la d a b = w ↔
    bitAt w 31 = false ∧ fld w 25 6 = lop ∧ fld w 22 3 = k ∧ fld w 18 4 = la ∧ fld w 12 6 = d ∧ fld w 6 6 = a ∧ fld w 0 6 = b := by
  refine (eq_iff_parts (part_snoc (y := b) (part_snoc (y := a) (part_snoc (y := d) (part_snoc (y := la) (part_snoc (y := k)
    (part_snoc (y := lop) (part_eq_one (b := false))))))))).trans ?_
  simp only [and_assoc, fld, bitAt, Nat.zero_add, Nat.reduceAdd]

theorem lpWord_iff {lop : BitVec 6} {k : BitVec 2} {s : Bool} {t : BitVec 4} {d a b : Reg} : lpWord lop k s t d a b = w ↔
    bitAt w 31 = false ∧ fld w 25 6 = lop ∧ fld w 23 2 = k ∧ bitAt w 22 = s ∧ fld w 18 4 = t ∧ fld w 12 6 = d ∧ fld w 6 6 = a ∧ fld w 0 6 = b := by
  refine (eq_iff_parts (part_snoc (y := b) (part_snoc (y := a) (part_snoc (y := d) (part_snoc (y := t) (part_snoc (y := one s)
    (part_snoc (y := k) (part_snoc (y := lop) (part_eq_one (b := false)))))))))).trans ?_
  simp only [part_eq_one, and_assoc, fld, bitAt, Nat.zero_add, Nat.reduceAdd]

theorem grWord_iff {gop : BitVec 7} {d a b f : BitVec 6} : grWord gop d a b f = w ↔
    bitAt w 31 = true ∧ fld w 24 7 = gop ∧ fld w 18 6 = d ∧ fld w 12 6 = a ∧ fld w 6 6 = b ∧ fld w 0 6 = f := by
  refine (eq_iff_parts (part_snoc (y := f) (part_snoc (y := b) (part_snoc (y := a) (part_snoc (y := d) (part_snoc (y := gop) (part_eq_one (b := true)))))))).trans ?_
  simp only [and_assoc, fld, bitAt, Nat.zero_add, Nat.reduceAdd]

theorem giWord_iff {gop : BitVec 7} {d a : Reg} {imm : BitVec 12} : giWord gop d a imm = w ↔
    bitAt w 31 = true ∧ fld w 24 7 = gop ∧ fld w 18 6 = d ∧ fld w 12 6 = a ∧ fld w 0 12 = imm := by
  refine (eq_iff_parts (part_snoc (y := imm) (part_snoc (y := a) (part_snoc (y := d) (part_snoc (y := gop) (part_eq_one (b := true))))))).trans ?_
  simp only [and_assoc, fld, bitAt, Nat.zero_add, Nat.reduceAdd]

theorem gjWord_iff {gop : BitVec 7} {c : BitVec 4} {off : BitVec 20} : 1#1 ++ gop ++ c ++ off = w ↔
    bitAt w 31 = true ∧ fld w 24 7 = gop ∧ fld w 20 4 = c ∧ fld w 0 20 = off := by
  refine (eq_iff_parts (part_snoc (y := off) (part_snoc (y := c) (part_snoc (y := gop) (part_eq_one (b := true)))))).trans ?_
  simp only [and_assoc, fld, bitAt, Nat.zero_add, Nat.reduceAdd]

theorem gmWord_iff {gop : BitVec 7} {kd ka kb : KReg} {f : BitVec 3} {x : Reg} {imm : BitVec 6} : 1#1 ++ gop ++ kd ++ ka ++ kb ++ f ++ x ++ imm = w ↔
    bitAt w 31 = true ∧ fld w 24 7 = gop ∧ fld w 21 3 = kd ∧ fld w 18 3 = ka ∧ fld w 15 3 = kb ∧ fld w 12 3 = f ∧ fld w 6 6 = x ∧ fld w 0 6 = imm := by
  refine (eq_iff_parts (part_snoc (y := imm) (part_snoc (y := x) (part_snoc (y := f) (part_snoc (y := kb) (part_snoc (y := ka)
    (part_snoc (y := kd) (part_snoc (y := gop) (part_eq_one (b := true)))))))))).trans ?_
  simp only [and_assoc, fld, bitAt, Nat.zero_add, Nat.reduceAdd]

theorem glWord_iff {gop : BitVec 7} {la : BitVec 4} {d : Reg} {r : BitVec 5} {imm : BitVec 9} : glWord gop la d r imm = w ↔
    bitAt w 31 = true ∧ fld w 24 7 = gop ∧ fld w 20 4 = la ∧ fld w 14 6 = d ∧ fld w 9 5 = r ∧ fld w 0 9 = imm := by
  refine (eq_iff_parts (part_snoc (y := imm) (part_snoc (y := r) (part_snoc (y := d) (part_snoc (y := la)
    (part_snoc (y := gop) (part_eq_one (b := true)))))))).trans ?_
  simp only [and_assoc, fld, bitAt, Nat.zero_add, Nat.reduceAdd]

theorem gaWord_iff {gop : BitVec 7} {f : BitVec 4} {r : BitVec 5} {a b : Reg} {imm : BitVec 3} : 1#1 ++ gop ++ f ++ r ++ a ++ b ++ imm = w ↔
    bitAt w 31 = true ∧ fld w 24 7 = gop ∧ fld w 20 4 = f ∧ fld w 15 5 = r ∧ fld w 9 6 = a ∧ fld w 3 6 = b ∧ fld w 0 3 = imm := by
  refine (eq_iff_parts (part_snoc (y := imm) (part_snoc (y := b) (part_snoc (y := a) (part_snoc (y := r) (part_snoc (y := f)
    (part_snoc (y := gop) (part_eq_one (b := true))))))))).trans ?_
  simp only [and_assoc, fld, bitAt, Nat.zero_add, Nat.reduceAdd]

theorem noneWord_iff {gop : BitVec 7} : 1#1 ++ gop ++ 0#24 = w ↔ bitAt w 31 = true ∧ fld w 24 7 = gop ∧ fld w 0 24 = 0#24 := by
  refine (eq_iff_parts (part_snoc (y := 0#24) (part_snoc (y := gop) (part_eq_one (b := true))))).trans ?_
  simp only [and_assoc, fld, bitAt, Nat.zero_add, Nat.reduceAdd]

theorem killWord_iff {gop : BitVec 7} {b : Reg} {m : BitVec 16} : 1#1 ++ gop ++ b ++ 0#2 ++ m = w ↔
    bitAt w 31 = true ∧ fld w 24 7 = gop ∧ fld w 18 6 = b ∧ fld w 16 2 = 0#2 ∧ fld w 0 16 = m := by
  refine (eq_iff_parts (part_snoc (y := m) (part_snoc (y := 0#2) (part_snoc (y := b) (part_snoc (y := gop) (part_eq_one (b := true))))))).trans ?_
  simp only [and_assoc, fld, bitAt, Nat.zero_add, Nat.reduceAdd]

theorem mloopWord_iff {gop : BitVec 7} {sl : BitVec 3} {vs : Reg} {sel : BitVec 4} {n : BitVec 8} : 1#1 ++ gop ++ sl ++ vs ++ 0#3 ++ sel ++ n = w ↔
    bitAt w 31 = true ∧ fld w 24 7 = gop ∧ fld w 21 3 = sl ∧ fld w 15 6 = vs ∧ fld w 12 3 = 0#3 ∧ fld w 8 4 = sel ∧ fld w 0 8 = n := by
  refine (eq_iff_parts (part_snoc (y := n) (part_snoc (y := sel) (part_snoc (y := 0#3) (part_snoc (y := vs) (part_snoc (y := sl)
    (part_snoc (y := gop) (part_eq_one (b := true))))))))).trans ?_
  simp only [and_assoc, fld, bitAt, Nat.zero_add, Nat.reduceAdd]

end

/-! ## Payloads of an `XP` -/

/-- Bits 4:0 of an index payload are reserved (R91). -/
def ixLow : Option Payload → Bool
  | none => true
  | some q => q.extractLsb' 0 5 == 0#5

theorem payload_iff {x : Ix} {q : Payload} : x.payload = q ↔ ixOf q = x ∧ q.extractLsb' 0 5 = 0#5 := by
  obtain ⟨di, ai, bi, dw, dx, aw, ax, bw, bx, dxr⟩ := x
  refine (eq_iff_parts (part_snoc (y := 0#5) (part_snoc (y := one dxr) (part_snoc (y := bx) (part_snoc (y := bw) (part_snoc (y := ax)
    (part_snoc (y := aw) (part_snoc (y := dx) (part_snoc (y := dw) (part_snoc (y := one bi) (part_snoc (y := one ai)
    (part_eq_one (b := di))))))))))))).trans ?_
  simp only [part_eq_one, and_assoc, ixOf, Ix.mk.injEq, Nat.zero_add, Nat.reduceAdd]

theorem ixPayload_iff {x : Option Ix} {p : Option Payload} : x.map Ix.payload = p ↔ p.map ixOf = x ∧ ixLow p = true := by
  cases x <;> cases p <;> simp [ixLow, payload_iff]

theorem lmPayload_iff {x : Option LmPx} {p : Option Payload} : x.map LmPx.payload = p ↔ lmPx p = x := by
  have one_payload (y : LmPx) (q : Payload) : y.payload = q ↔ (⟨q.getLsbD 23, q.extractLsb' 0 23⟩ : LmPx) = y := by
    obtain ⟨c, d⟩ := y
    refine (eq_iff_parts (part_snoc (y := d) (part_eq_one (b := c)))).trans ?_
    simp only [LmPx.mk.injEq, Nat.zero_add]
  cases x <;> cases p <;> simp [lmPx, one_payload]

theorem fmasPayload_iff {a : Reg} {b c : BitVec 2} {q : Payload} : a ++ b ++ c ++ 0#14 = q ↔
    q.extractLsb' 18 6 = a ∧ q.extractLsb' 16 2 = b ∧ q.extractLsb' 14 2 = c ∧ q.extractLsb' 0 14 = 0#14 := by
  refine (eq_iff_parts (part_snoc (y := 0#14) (part_snoc (y := c) (part_eq_append (x := a) (y := b))))).trans ?_
  simp only [and_assoc, Nat.zero_add, Nat.reduceAdd]

theorem mvtPayload_iff {a b : BitVec 3} {c : BitVec 18} {q : Payload} : a ++ b ++ c = q ↔
    q.extractLsb' 21 3 = a ∧ q.extractLsb' 18 3 = b ∧ q.extractLsb' 0 18 = c := by
  refine (eq_iff_parts (part_snoc (y := c) (part_eq_append (x := a) (y := b)))).trans ?_
  simp only [and_assoc, Nat.zero_add, Nat.reduceAdd]

theorem liPayload_iff {x : Option (BitVec 23)} {p : Option Payload} : x.map (fun h => 0#1 ++ h) = p ↔
    p.map (fun q => q.extractLsb' 0 23) = x ∧ (p.elim false fun q => q.getLsbD 23) = false := by
  have one_payload (y : BitVec 23) (q : Payload) : 0#1 ++ y = q ↔ q.extractLsb' 0 23 = y ∧ q.getLsbD 23 = false :=
    (eq_iff_parts (part_snoc (y := y) (part_eq_one (b := false)))).trans and_comm
  cases x <;> cases p <;> simp [one_payload]

theorem giPayload_iff {x : Option (BitVec 20)} {p : Option Payload} : x.map (fun h => 0#4 ++ h) = p ↔ giHi p = x ∧ giBad p = false := by
  have one_payload (y : BitVec 20) (q : Payload) : 0#4 ++ y = q ↔ q.extractLsb' 0 20 = y ∧ q.extractLsb' 20 4 = 0#4 :=
    (eq_iff_parts (part_eq_append (x := 0#4) (y := y))).trans and_comm
  cases x <;> cases p <;> simp [giHi, giBad, one_payload]

theorem mloopPayload_iff {x : Option (BitVec 12 × BitVec 12)} {p : Option Payload} : x.map (fun y => y.1 ++ y.2) = p ↔
    p.map (fun q => (q.extractLsb' 12 12, q.extractLsb' 0 12)) = x := by
  have one_payload (y : BitVec 12 × BitVec 12) (q : Payload) : y.1 ++ y.2 = q ↔ (q.extractLsb' 12 12, q.extractLsb' 0 12) = y := by
    obtain ⟨a, b⟩ := y
    rw [Prod.mk.injEq]
    exact eq_iff_parts (part_eq_append (x := a) (y := b))
  cases x <;> cases p <;> simp only [Option.map_none, Option.map_some, Option.some.injEq, one_payload, reduceCtorEq]

end Sys2Proof.Machine
end

section

/-! SUPPORT. The decoder's forms (R76 to R92): each form accepts the well-formed operands whose code its word and payload are, and no others. -/

namespace Sys2Proof.Machine

-- One proof at a time, to keep the compile small: they share the equations of the model's long matches.
set_option Elab.async false

theorem checked_ok {a b c : Bool} {i j : Instr} : checked a b c i = .ok j ↔ a = false ∧ b = false ∧ c = false ∧ i = j := by
  cases a <;> cases b <;> cases c <;> simp [checked]

/-! ## Codes of the forms with one instruction -/

theorem encode_isel (o : LrS) : encode (.isel o) = some (o.ix.map Ix.payload, lrWord 5#6 o.k false o.cond o.d o.a o.b) := rfl

theorem encode_fmas (o : FmasOp) : encode (.fmas o) = some (some (o.sr ++ o.ba ++ o.bb ++ 0#14), lrWord 17#6 o.k o.c 4#3 o.d o.a o.b) := rfl

theorem encode_imovi (o : LiMov) : encode (.imovi o) = some (o.hi.map (fun h => 0#1 ++ h), liWord 15#6 o.k o.c o.d 0#6 o.imm) := rfl

theorem encode_mvt (o : MvtOp) : encode (.mvt o) = some (some (o.m1 ++ o.n1 ++ o.off), llWord 25#6 o.k o.la o.d o.a o.b) := rfl

theorem encode_pcvt (o : PcvtOp) : encode (.pcvt o) = some (none, lpWord 43#6 o.k o.s o.t.code o.d o.a (0#1 ++ one o.toU ++ o.u.code)) := rfl

/-! ## Index payloads (R91, R92) -/

theorem ixOk_iff {p : Option Payload} {d a b : Reg} : ixBad p true true = false ∧ ixField p d a b = false ∧ ixRange p d = false ↔
    ixLow p = true ∧ Ix.wf? (p.map ixOf) d a b = true := by
  cases p with
  | none => simp [ixBad, ixField, ixRange, ixLow, Ix.wf?]
  | some q =>
    simp only [ixBad, ixField, ixRange, ixLow, Ix.wf?, Ix.wf, Option.map_some]
    cases (ixOf q).di <;> cases (ixOf q).dxr <;> cases (ixOf q).ai <;> cases (ixOf q).bi <;> simp

theorem ixBad_noB {p : Option Payload} : ixBad p true false = false ↔ ixBad p true true = false ∧ Ix.noB (p.map ixOf) = true := by
  cases p <;> simp [ixBad, Ix.noB]

theorem ixBad_noD {p : Option Payload} : ixBad p false true = false ↔ ixBad p true true = false ∧ Ix.noD (p.map ixOf) = true := by
  cases p with
  | none => simp [ixBad, Ix.noD]
  | some q =>
    simp only [ixBad, Ix.noD, Option.map_some]
    cases (ixOf q).di <;> cases (ixOf q).dxr <;> simp

theorem ixRange_zero (p : Option Payload) : ixRange p 0#6 = false := by
  cases p <;> simp [ixRange]

/-! ## Lane forms -/

section
variable {p : Option Payload} {w : Word} {i : Instr}

theorem decLrB_ok {mk : LrB → Instr} (h31 : bitAt w 31 = false) : decLrB p w mk = .ok i ↔
    ∃ o : LrB, mk o = i ∧ o.wf = true ∧ encLrB (fld w 25 6) (fld w 18 3) o = some (p, w) := by
  simp only [decLrB, checked_ok, encLrB, Option.some.injEq, Prod.mk.injEq, lrWord_iff, ixPayload_iff, h31, true_and]
  constructor
  · rintro ⟨hb, hf, hr, rfl⟩
    obtain ⟨low, wf⟩ := ixOk_iff.mp ⟨hb, hf, hr⟩
    exact ⟨_, rfl, wf, ⟨rfl, low⟩, rfl, rfl, rfl, rfl, rfl⟩
  · rintro ⟨⟨k, c, d, a, b, ix⟩, rfl, wf, ⟨rfl, low⟩, rfl, rfl, rfl, rfl, rfl⟩
    obtain ⟨hb, hf, hr⟩ := ixOk_iff.mpr ⟨low, wf⟩
    exact ⟨hb, hf, hr, rfl⟩

theorem decLrU_ok {mk : LrU → Instr} (h31 : bitAt w 31 = false) : decLrU p w mk = .ok i ↔
    ∃ o : LrU, mk o = i ∧ o.wf = true ∧ encLrU (fld w 25 6) (fld w 18 3) o = some (p, w) := by
  simp only [decLrU, checked_ok, encLrU, Option.some.injEq, Prod.mk.injEq, lrWord_iff, ixPayload_iff, h31, true_and, LrU.wf, Bool.and_eq_true,
    Bool.or_eq_false_iff, bne_eq_false_iff_eq, ixBad_noB]
  constructor
  · rintro ⟨⟨hb, noB⟩, ⟨h0, hf⟩, hr, rfl⟩
    obtain ⟨low, wf⟩ := ixOk_iff.mp ⟨hb, hf, hr⟩
    exact ⟨_, rfl, ⟨wf, noB⟩, ⟨rfl, low⟩, rfl, rfl, rfl, rfl, h0⟩
  · rintro ⟨⟨k, c, d, a, ix⟩, rfl, ⟨wf, noB⟩, ⟨rfl, low⟩, rfl, rfl, rfl, rfl, h0⟩
    obtain ⟨hb, hf, hr⟩ := ixOk_iff.mpr ⟨low, wf⟩
    exact ⟨⟨hb, noB⟩, ⟨h0, hf⟩, hr, rfl⟩

theorem decLrC_ok {mk : LrC → Instr} (h31 : bitAt w 31 = false) : decLrC p w mk = .ok i ↔
    ∃ o : LrC, mk o = i ∧ o.wf = true ∧ encLrC (fld w 25 6) (fld w 18 3) o = some (p, w) := by
  simp only [decLrC, checked_ok, encLrC, Option.some.injEq, Prod.mk.injEq, lrWord_iff, ixPayload_iff, h31, true_and, LrC.wf, Bool.and_eq_true,
    Bool.or_eq_false_iff, bne_eq_false_iff_eq, Bool.not_eq_false', ixBad_noD]
  constructor
  · rintro ⟨⟨hb, noD⟩, ⟨⟨hd, hc⟩, hf⟩, rfl⟩
    obtain ⟨low, wf⟩ := ixOk_iff.mp ⟨hb, hf, ixRange_zero p⟩
    exact ⟨_, rfl, ⟨wf, noD⟩, ⟨rfl, low⟩, rfl, hc, hd, rfl, rfl⟩
  · rintro ⟨⟨k, a, b, ix⟩, rfl, ⟨wf, noD⟩, ⟨rfl, low⟩, rfl, hc, hd, rfl, rfl⟩
    obtain ⟨hb, hf, -⟩ := ixOk_iff.mpr ⟨low, wf⟩
    exact ⟨⟨hb, noD⟩, ⟨⟨hd, hc⟩, hf⟩, rfl⟩

theorem decIsel_ok (h31 : bitAt w 31 = false) (hl : fld w 25 6 = 5#6) : decIsel p w = .ok i ↔ ∃ o : LrS, Instr.isel o = i ∧ o.wf = true ∧
    encode (.isel o) = some (p, w) := by
  simp only [decIsel, checked_ok, encode_isel, Option.some.injEq, Prod.mk.injEq, lrWord_iff, ixPayload_iff, h31, hl, true_and, LrS.wf,
    Bool.or_eq_false_iff]
  constructor
  · rintro ⟨hb, ⟨hc, hf⟩, hr, rfl⟩
    obtain ⟨low, wf⟩ := ixOk_iff.mp ⟨hb, hf, hr⟩
    exact ⟨_, rfl, wf, ⟨rfl, low⟩, rfl, hc, rfl, rfl, rfl, rfl⟩
  · rintro ⟨⟨k, cond, d, a, b, ix⟩, rfl, wf, ⟨rfl, low⟩, rfl, hc, rfl, rfl, rfl, rfl⟩
    obtain ⟨hb, hf, hr⟩ := ixOk_iff.mpr ⟨low, wf⟩
    exact ⟨hb, ⟨hc, hf⟩, hr, rfl⟩

theorem selOf_iff {b : BitVec 3} {m : RndSel} : selOf b = some m ↔ b = m.code := by
  cases m <;> revert b <;> decide

theorem cvtField_iff {s : Bool} {m : RndSel} : fld w 0 6 = 0#2 ++ one s ++ m.code ↔ fld w 4 2 = 0#2 ∧ bitAt w 3 = s ∧ selOf (fld w 0 3) = some m := by
  rw [selOf_iff]
  exact (fld_eq_append (n := 3) (m := 3)).trans ((and_congr_left' ((fld_eq_append (n := 2) (m := 1)).trans (and_congr_right' fld_eq_one))).trans and_assoc)

theorem selectorBit_iff {s t : Bool} : (!s && t) = false ↔ (s || !t) = true := by
  revert s t
  decide

theorem decCvt_ok {s : Bool} {mk : CvtOp → Instr} (h31 : bitAt w 31 = false) : decCvt p w s mk = .ok i ↔
    ∃ o : CvtOp, mk o = i ∧ o.wf s = true ∧ encCvt (fld w 25 6) (fld w 18 3) o = some (p, w) := by
  simp only [decCvt, checked_ok, encCvt, Option.some.injEq, Prod.mk.injEq, lrWord_iff, ixPayload_iff, h31, true_and, CvtOp.wf,
    Bool.and_eq_true (Ix.wf? _ _ _ _ && _), Bool.and_eq_true (Ix.wf? _ _ _ _), Bool.or_eq_false_iff, bne_eq_false_iff_eq, ixBad_noB, cvtField_iff]
  constructor
  · rintro ⟨⟨hb, noB⟩, ⟨⟨⟨hm, h4⟩, hs⟩, hf⟩, hr, rfl⟩
    obtain ⟨low, wf⟩ := ixOk_iff.mp ⟨hb, hf, hr⟩
    obtain ⟨m, hm⟩ := Option.isSome_iff_exists.mp (by simpa using hm)
    exact ⟨_, rfl, ⟨⟨wf, noB⟩, selectorBit_iff.mp hs⟩, ⟨rfl, low⟩, rfl, rfl, rfl, rfl, h4, rfl, by rw [hm]; rfl⟩
  · rintro ⟨⟨k, c, d, a, t, m, ix⟩, rfl, ⟨⟨wf, noB⟩, hs⟩, ⟨rfl, low⟩, rfl, rfl, rfl, rfl, h4, rfl, hm⟩
    obtain ⟨hb, hf, hr⟩ := ixOk_iff.mpr ⟨low, wf⟩
    exact ⟨⟨hb, noB⟩, ⟨⟨⟨by rw [hm]; rfl, h4⟩, selectorBit_iff.mpr hs⟩, hf⟩, hr, by rw [hm]; rfl⟩

theorem decFmas_ok (h31 : bitAt w 31 = false) (hl : fld w 25 6 = 17#6) (hf : fld w 18 3 = 4#3) : decFmas p w = .ok i ↔
    ∃ o : FmasOp, Instr.fmas o = i ∧ encode (.fmas o) = some (p, w) := by
  cases p with
  | none => simp [decFmas, encode_fmas]
  | some q =>
    simp only [decFmas, checked_ok, encode_fmas, Option.some.injEq, Prod.mk.injEq, lrWord_iff, fmasPayload_iff, h31, hl, hf, true_and, bne_eq_false_iff_eq]
    constructor
    · rintro ⟨h0, rfl⟩
      exact ⟨_, rfl, ⟨rfl, rfl, rfl, h0⟩, rfl, rfl, rfl, rfl, rfl⟩
    · rintro ⟨⟨k, c, d, a, b, sr, ba, bb⟩, rfl, ⟨rfl, rfl, rfl, h0⟩, rfl, rfl, rfl, rfl, rfl⟩
      exact ⟨h0, rfl⟩

/-- The payload before an immediate form has bit 23 clear (R90). -/
theorem decLi_eq (p : Option Payload) (w : Word) (mk : LiOp → Instr) : decLi p w mk = checked (p.elim false fun q => q.getLsbD 23) false false
    (mk ⟨fld w 22 3, bitAt w 21, fld w 15 6, fld w 9 6, fld w 0 9, p.map (fun q => q.extractLsb' 0 23)⟩) := by
  cases p <;> rfl

theorem decImovi_eq (p : Option Payload) (w : Word) : decImovi p w = checked (p.elim false fun q => q.getLsbD 23) (fld w 9 6 != 0#6) false
    (.imovi ⟨fld w 22 3, bitAt w 21, fld w 15 6, fld w 0 9, p.map (fun q => q.extractLsb' 0 23)⟩) := by
  cases p <;> rfl

theorem decLi_ok {mk : LiOp → Instr} (h31 : bitAt w 31 = false) : decLi p w mk = .ok i ↔ ∃ o : LiOp, mk o = i ∧ encLi (fld w 25 6) o = some (p, w) := by
  simp only [decLi_eq, checked_ok, encLi, Option.some.injEq, Prod.mk.injEq, liWord_iff, liPayload_iff, h31, true_and]
  constructor
  · rintro ⟨h0, rfl⟩
    exact ⟨_, rfl, ⟨rfl, h0⟩, rfl, rfl, rfl, rfl, rfl⟩
  · rintro ⟨⟨k, c, d, a, imm, hi⟩, rfl, ⟨rfl, h0⟩, rfl, rfl, rfl, rfl, rfl⟩
    exact ⟨h0, rfl⟩

theorem decImovi_ok (h31 : bitAt w 31 = false) (hl : fld w 25 6 = 15#6) : decImovi p w = .ok i ↔
    ∃ o : LiMov, Instr.imovi o = i ∧ encode (.imovi o) = some (p, w) := by
  simp only [decImovi_eq, checked_ok, encode_imovi, Option.some.injEq, Prod.mk.injEq, liWord_iff, liPayload_iff, h31, hl, true_and, bne_eq_false_iff_eq]
  constructor
  · rintro ⟨h0, ha, rfl⟩
    exact ⟨_, rfl, ⟨rfl, h0⟩, rfl, rfl, rfl, ha, rfl⟩
  · rintro ⟨⟨k, c, d, imm, hi⟩, rfl, ⟨rfl, h0⟩, rfl, rfl, rfl, ha, rfl⟩
    exact ⟨h0, ha, rfl⟩

theorem decLiSh_ok {mk : LiSh → Instr} (h31 : bitAt w 31 = false) : decLiSh p w mk = .ok i ↔ ∃ o : LiSh, mk o = i ∧ encLiSh (fld w 25 6) o = some (p, w) := by
  have sh (x : BitVec 5) : fld w 0 9 = 0#4 ++ x ↔ fld w 5 4 = 0#4 ∧ fld w 0 5 = x := fld_eq_append (n := 4) (m := 5)
  simp only [decLiSh, checked_ok, encLiSh, Option.some.injEq, Prod.mk.injEq, liWord_iff, sh, h31, true_and, bne_eq_false_iff_eq, Option.isSome_eq_false_iff,
    Option.isNone_iff_eq_none]
  constructor
  · rintro ⟨rfl, h0, rfl⟩
    exact ⟨_, rfl, rfl, rfl, rfl, rfl, rfl, h0, rfl⟩
  · rintro ⟨⟨k, c, d, a, sh⟩, rfl, rfl, rfl, rfl, rfl, rfl, h0, rfl⟩
    exact ⟨rfl, h0, rfl⟩

theorem decLlB_ok {mk : LlB → Instr} (h31 : bitAt w 31 = false) : decLlB p w mk = .ok i ↔ ∃ o : LlB, mk o = i ∧ encLlB (fld w 25 6) o = some (p, w) := by
  simp only [decLlB, checked_ok, encLlB, Option.some.injEq, Prod.mk.injEq, llWord_iff, h31, true_and, Option.isSome_eq_false_iff, Option.isNone_iff_eq_none]
  constructor
  · rintro ⟨rfl, rfl⟩
    exact ⟨_, rfl, rfl, rfl, rfl, rfl, rfl, rfl⟩
  · rintro ⟨⟨k, la, d, a, b⟩, rfl, rfl, rfl, rfl, rfl, rfl, rfl⟩
    exact ⟨rfl, rfl⟩

theorem decMvt_ok (h31 : bitAt w 31 = false) (hl : fld w 25 6 = 25#6) : decMvt p w = .ok i ↔
    ∃ o : MvtOp, Instr.mvt o = i ∧ o.wf = true ∧ encode (.mvt o) = some (p, w) := by
  cases p with
  | none => simp [decMvt, encode_mvt]
  | some q =>
    simp only [decMvt, checked_ok, encode_mvt, Option.some.injEq, Prod.mk.injEq, llWord_iff, mvtPayload_iff, h31, hl, true_and, Bool.not_eq_false']
    constructor
    · rintro ⟨wf, rfl⟩
      exact ⟨_, rfl, wf, ⟨rfl, rfl, rfl⟩, rfl, rfl, rfl, rfl, rfl⟩
    · rintro ⟨⟨k, la, d, a, b, m1, n1, off⟩, rfl, wf, ⟨rfl, rfl, rfl⟩, rfl, rfl, rfl, rfl, rfl⟩
      exact ⟨wf, rfl⟩

theorem sizeField_iff {x : BitVec 4} {y : BitVec 2} : fld w 0 6 = x ++ y ↔ fld w 2 4 = x ∧ fld w 0 2 = y := fld_eq_append (n := 4) (m := 2)

theorem decLd_ok {reserved : Bool} {mk : LmLd → Instr} (h31 : bitAt w 31 = false) : decLd p w reserved mk = .ok i ↔
    reserved = false ∧ ∃ o : LmLd, mk o = i ∧ o.wf = true ∧ encLd (fld w 25 6) o = some (p, w) := by
  simp only [decLd, checked_ok, encLd, Option.some.injEq, Prod.mk.injEq, llWord_iff, lmPayload_iff, sizeField_iff, h31, true_and, Bool.not_eq_false']
  refine and_congr_right fun _ => ?_
  constructor
  · rintro ⟨wf, rfl⟩
    exact ⟨_, rfl, wf, rfl, rfl, rfl, rfl, rfl, rfl, rfl⟩
  · rintro ⟨⟨k, la, d, a, r, sz, px⟩, rfl, wf, rfl, rfl, rfl, rfl, rfl, rfl, rfl⟩
    exact ⟨wf, rfl⟩

theorem decSt_ok {mk : LmSt → Instr} (h31 : bitAt w 31 = false) : decSt p w mk = .ok i ↔
    ∃ o : LmSt, mk o = i ∧ o.wf = true ∧ encSt (fld w 25 6) o = some (p, w) := by
  simp only [decSt, checked_ok, encSt, Option.some.injEq, Prod.mk.injEq, llWord_iff, lmPayload_iff, sizeField_iff, h31, true_and, Bool.not_eq_false',
    bne_eq_false_iff_eq]
  constructor
  · rintro ⟨hla, wf, rfl⟩
    exact ⟨_, rfl, wf, rfl, rfl, hla, rfl, rfl, rfl, rfl⟩
  · rintro ⟨⟨k, d, a, r, sz, px⟩, rfl, wf, rfl, rfl, hla, rfl, rfl, rfl, rfl⟩
    exact ⟨hla, wf, rfl⟩

theorem typeOf_iff {b : BitVec 4} {t : PType} : typeOf b.toNat = some t ↔ b = t.code := by
  cases t <;> revert b <;> decide

theorem cvtTypeOf_iff {b : BitVec 4} {t : CvtType} : cvtTypeOf b.toNat = some t ↔ b = t.code := by
  cases t with
  | f32 => revert b; decide
  | packed t => cases t <;> revert b <;> decide

theorem decLp_ok {ok range : LpB → Bool} {mk : LpB → Instr} (h31 : bitAt w 31 = false) : decLp p w ok range mk = .ok i ↔
    ∃ o : LpB, mk o = i ∧ (ok o = true ∧ range o = true) ∧ encLp (fld w 25 6) o = some (p, w) := by
  simp only [decLp, checked_ok, encLp, Option.some.injEq, Prod.mk.injEq, lpWord_iff, h31, true_and, Option.isSome_eq_false_iff, Option.isNone_iff_eq_none,
    Bool.or_eq_false_iff, Bool.not_eq_false']
  constructor
  · rintro ⟨rfl, ⟨ht, hok⟩, hr, rfl⟩
    obtain ⟨t, ht⟩ := Option.isSome_iff_exists.mp (by simpa using ht)
    exact ⟨_, rfl, ⟨hok, hr⟩, rfl, rfl, rfl, by rw [ht]; exact typeOf_iff.mp ht, rfl, rfl, rfl⟩
  · rintro ⟨⟨k, s, t, d, a, b⟩, rfl, ⟨hok, hr⟩, rfl, rfl, rfl, ht, rfl, rfl, rfl⟩
    rw [typeOf_iff.mpr ht]
    exact ⟨rfl, ⟨rfl, hok⟩, hr, rfl⟩

theorem pcvtField_iff {t : Bool} {x : BitVec 4} : fld w 0 6 = 0#1 ++ one t ++ x ↔ bitAt w 5 = false ∧ bitAt w 4 = t ∧ fld w 0 4 = x := by
  have h : fld w 5 1 = 0#1 ↔ bitAt w 5 = false := fld_eq_one (b := false)
  exact (fld_eq_append (n := 2) (m := 4)).trans ((and_congr_left' ((fld_eq_append (n := 1) (m := 1)).trans (and_congr h fld_eq_one))).trans and_assoc)

theorem decPcvt_ok (h31 : bitAt w 31 = false) (hl : fld w 25 6 = 43#6) : decPcvt p w = .ok i ↔
    ∃ o : PcvtOp, Instr.pcvt o = i ∧ o.wf = true ∧ encode (.pcvt o) = some (p, w) := by
  simp only [decPcvt, checked_ok, encode_pcvt, Option.some.injEq, Prod.mk.injEq, lpWord_iff, h31, hl, pcvtField_iff, true_and, Option.isSome_eq_false_iff,
    Option.isNone_iff_eq_none, Bool.or_eq_false_iff, Bool.not_eq_false']
  constructor
  · rintro ⟨rfl, ⟨⟨ht, hu⟩, h5⟩, wf, rfl⟩
    obtain ⟨t, ht⟩ := Option.isSome_iff_exists.mp (by simpa using ht)
    obtain ⟨u, hu⟩ := Option.isSome_iff_exists.mp (by simpa using hu)
    exact ⟨_, rfl, wf, rfl, rfl, rfl, by rw [ht]; exact typeOf_iff.mp ht, rfl, rfl, h5, rfl, by rw [hu]; exact cvtTypeOf_iff.mp hu⟩
  · rintro ⟨⟨k, s, t, d, a, toU, u⟩, rfl, wf, rfl, rfl, rfl, ht, rfl, rfl, h5, rfl, hu⟩
    rw [typeOf_iff.mpr ht, cvtTypeOf_iff.mpr hu]
    exact ⟨rfl, ⟨⟨rfl, rfl⟩, h5⟩, wf, rfl⟩

theorem encLrF_ok {lop : BitVec 6} {o : LrF} : encLrF lop o = some (p, w) ↔ p = none ∧ bitAt w 31 = false ∧ fld w 25 6 = lop ∧ lrF w = o := by
  obtain ⟨k, c, f, d, a, b⟩ := o
  simp only [encLrF, Option.some.injEq, Prod.mk.injEq, lrWord_iff, lrF, LrF.mk.injEq, eq_comm (a := none)]

theorem encLrN_ok {lop : BitVec 6} {f : BitVec 3} {o : LrN} : encLrN lop f o = some (p, w) ↔
    p = none ∧ bitAt w 31 = false ∧ fld w 25 6 = lop ∧ fld w 18 3 = f ∧ bitAt w 21 = false ∧ lrN w = o := by
  obtain ⟨k, d, a, b⟩ := o
  simp only [encLrN, Option.some.injEq, Prod.mk.injEq, lrWord_iff, lrN, LrN.mk.injEq, eq_comm (a := none)]
  constructor
  · rintro ⟨hp, h31, hl, hk, hc, hf, hd, ha, hb⟩
    exact ⟨hp, h31, hl, hf, hc, hk, hd, ha, hb⟩
  · rintro ⟨hp, h31, hl, hf, hc, hk, hd, ha, hb⟩
    exact ⟨hp, h31, hl, hk, hc, hf, hd, ha, hb⟩

end
end Sys2Proof.Machine
end

section

/-! SUPPORT. The lane set (R98): what its decoder accepts, and the words that it reads back. -/

namespace Sys2Proof.Machine

-- One proof at a time, to keep the compile small: they share the equations of the model's long matches.
set_option Elab.async false

/-! ## What well-formed asks of the cross-lane set -/

@[simp] theorem wf_atomg (o : LrF) : (Instr.atomg o).wf = (!o.c && o.b.even) := rfl
@[simp] theorem wf_redg (o : LrF) : (Instr.redg o).wf = (!o.c && o.b.even) := rfl
@[simp] theorem wf_atomp (o : LrF) : (Instr.atomp o).wf = (!o.c) := rfl
@[simp] theorem wf_xshfl (o : LrF) : (Instr.xshfl o).wf = (decide (o.f.toNat ≤ 3)) := rfl
@[simp] theorem wf_xgather (o : LrF) : (Instr.xgather o).wf = (decide (o.f.toNat ≤ 3) && o.b == 0#6) := rfl
@[simp] theorem wf_xvote (o : LrF) : (Instr.xvote o).wf = (decide (o.f.toNat ≤ 3) && o.b == 0#6) := rfl
@[simp] theorem wf_xred (o : LrF) : (Instr.xred o).wf = (o.b == 0#6) := rfl
@[simp] theorem wf_xscan (o : LrF) : (Instr.xscan o).wf = (o.b == 0#6) := rfl
@[simp] theorem wf_xscane (o : LrF) : (Instr.xscane o).wf = (o.b == 0#6) := rfl
@[simp] theorem wf_qpush (o : LrN) : (Instr.qpush o).wf = (o.d == 0#6) := rfl
@[simp] theorem wf_qpop (o : LrN) : (Instr.qpop o).wf = (o.b == 0#6) := rfl
@[simp] theorem wf_qlen (o : LrN) : (Instr.qlen o).wf = (o.b == 0#6) := rfl
@[simp] theorem wf_emit (o : LrN) : (Instr.emit o).wf = (o.d == 0#6 && regRange o.a 4) := rfl
@[simp] theorem wf_xchgg (o : LrN) : (Instr.xchgg o).wf = (o.b.even) := rfl
@[simp] theorem wf_casg (o : LrF) : (Instr.casg o).wf = (o.f == 1#3 && o.b.even && regRange o.d 2) := rfl
@[simp] theorem wf_casp (o : LrF) : (Instr.casp o).wf = (o.f == 3#3) := rfl

/-- A decoder accepts no instruction but one that is well-formed and whose code is the word, with its payload, that was read. -/
def Faithful (p : Option Payload) (w : Word) (d : Decoded) : Prop := ∀ i, d = .ok i → i.wf = true ∧ encode i = some (p, w)

section
variable {p : Option Payload} {w : Word}

theorem Faithful.refused {a c : Bool} {i : Instr} : Faithful p w (checked a true c i) := by
  intro j h
  cases (checked_ok.mp h).2.1

theorem Faithful.guarded {a b c : Bool} {i : Instr} (h : a = false → b = false → c = false → i.wf = true ∧ encode i = some (p, w)) :
    Faithful p w (checked a b c i) := by
  intro j e
  obtain ⟨ha, hb, hc, rfl⟩ := checked_ok.mp e
  exact h ha hb hc

/-- A form that takes no `XP`. -/
theorem Faithful.bare {b c : Bool} {i : Instr} (h : b = false → c = false → i.wf = true ∧ encode i = some (none, w)) :
    Faithful p w (checked p.isSome b c i) := by
  cases p with
  | none => exact .guarded fun _ => h
  | some q => exact .guarded fun hp => absurd hp (by simp)

theorem of_toNat {n k : Nat} {x : BitVec n} (h : x.toNat = k) : x = BitVec.ofNat n k := by
  rw [← h, BitVec.ofNat_toNat, BitVec.setWidth_eq]

/-! ## What is accepted -/

section
variable {lop f : Nat} (h31 : bitAt w 31 = false)
include h31

theorem Faithful.lrB {mk : LrB → Instr} (hl : (fld w 25 6).toNat = lop) (hf : (fld w 18 3).toNat = f) (hw : ∀ o, (mk o).wf = o.wf := by intro o; rfl)
    (he : ∀ o, encode (mk o) = encLrB (BitVec.ofNat 6 lop) (BitVec.ofNat 3 f) o := by intro o; rfl) : Faithful p w (decLrB p w mk) := by
  intro i h
  obtain ⟨o, rfl, wf, e⟩ := (decLrB_ok h31).mp h
  rw [hw, he, ← of_toNat hl, ← of_toNat hf]
  exact ⟨wf, e⟩

theorem Faithful.lrU {mk : LrU → Instr} (hl : (fld w 25 6).toNat = lop) (hf : (fld w 18 3).toNat = f) (hw : ∀ o, (mk o).wf = o.wf := by intro o; rfl)
    (he : ∀ o, encode (mk o) = encLrU (BitVec.ofNat 6 lop) (BitVec.ofNat 3 f) o := by intro o; rfl) : Faithful p w (decLrU p w mk) := by
  intro i h
  obtain ⟨o, rfl, wf, e⟩ := (decLrU_ok h31).mp h
  rw [hw, he, ← of_toNat hl, ← of_toNat hf]
  exact ⟨wf, e⟩

theorem Faithful.lrC {mk : LrC → Instr} (hl : (fld w 25 6).toNat = lop) (hf : (fld w 18 3).toNat = f) (hw : ∀ o, (mk o).wf = o.wf := by intro o; rfl)
    (he : ∀ o, encode (mk o) = encLrC (BitVec.ofNat 6 lop) (BitVec.ofNat 3 f) o := by intro o; rfl) : Faithful p w (decLrC p w mk) := by
  intro i h
  obtain ⟨o, rfl, wf, e⟩ := (decLrC_ok h31).mp h
  rw [hw, he, ← of_toNat hl, ← of_toNat hf]
  exact ⟨wf, e⟩

theorem Faithful.cvt {s : Bool} {mk : CvtOp → Instr} (hl : (fld w 25 6).toNat = lop) (hf : (fld w 18 3).toNat = f) (hw : ∀ o, (mk o).wf = o.wf s := by intro o; rfl)
    (he : ∀ o, encode (mk o) = encCvt (BitVec.ofNat 6 lop) (BitVec.ofNat 3 f) o := by intro o; rfl) : Faithful p w (decCvt p w s mk) := by
  intro i h
  obtain ⟨o, rfl, wf, e⟩ := (decCvt_ok h31).mp h
  rw [hw, he, ← of_toNat hl, ← of_toNat hf]
  exact ⟨wf, e⟩

theorem Faithful.li {mk : LiOp → Instr} (hl : (fld w 25 6).toNat = lop) (hw : ∀ o, (mk o).wf = true := by intro o; rfl)
    (he : ∀ o, encode (mk o) = encLi (BitVec.ofNat 6 lop) o := by intro o; rfl) : Faithful p w (decLi p w mk) := by
  intro i h
  obtain ⟨o, rfl, e⟩ := (decLi_ok h31).mp h
  rw [hw, he, ← of_toNat hl]
  exact ⟨rfl, e⟩

theorem Faithful.liSh {mk : LiSh → Instr} (hl : (fld w 25 6).toNat = lop) (hw : ∀ o, (mk o).wf = true := by intro o; rfl)
    (he : ∀ o, encode (mk o) = encLiSh (BitVec.ofNat 6 lop) o := by intro o; rfl) : Faithful p w (decLiSh p w mk) := by
  intro i h
  obtain ⟨o, rfl, e⟩ := (decLiSh_ok h31).mp h
  rw [hw, he, ← of_toNat hl]
  exact ⟨rfl, e⟩

theorem Faithful.llB {mk : LlB → Instr} (hl : (fld w 25 6).toNat = lop) (hw : ∀ o, (mk o).wf = true := by intro o; rfl)
    (he : ∀ o, encode (mk o) = encLlB (BitVec.ofNat 6 lop) o := by intro o; rfl) : Faithful p w (decLlB p w mk) := by
  intro i h
  obtain ⟨o, rfl, e⟩ := (decLlB_ok h31).mp h
  rw [hw, he, ← of_toNat hl]
  exact ⟨rfl, e⟩

theorem Faithful.ld {r : Bool} {mk : LmLd → Instr} (hl : (fld w 25 6).toNat = lop)
    (hw : ∀ o : LmLd, o.wf = true → fld w 0 2 = o.sz → r = false → (mk o).wf = true := by intro o h _ _; exact h)
    (he : ∀ o, encode (mk o) = encLd (BitVec.ofNat 6 lop) o := by intro o; rfl) : Faithful p w (decLd p w r mk) := by
  intro i h
  obtain ⟨hr, o, rfl, wf, e⟩ := (decLd_ok h31).mp h
  rw [he, ← of_toNat hl]
  obtain ⟨-, -, -, -, -, -, hb⟩ := llWord_iff.mp (congrArg Prod.snd (Option.some.inj e))
  exact ⟨hw o wf (sizeField_iff.mp hb).2 hr, e⟩

theorem Faithful.st {mk : LmSt → Instr} (hl : (fld w 25 6).toNat = lop) (hw : ∀ o, (mk o).wf = o.wf := by intro o; rfl)
    (he : ∀ o, encode (mk o) = encSt (BitVec.ofNat 6 lop) o := by intro o; rfl) : Faithful p w (decSt p w mk) := by
  intro i h
  obtain ⟨o, rfl, wf, e⟩ := (decSt_ok h31).mp h
  rw [hw, he, ← of_toNat hl]
  exact ⟨wf, e⟩

theorem Faithful.lp {ok range : LpB → Bool} {mk : LpB → Instr} (hl : (fld w 25 6).toNat = lop) (hw : ∀ o, ok o = true → range o = true → (mk o).wf = true)
    (he : ∀ o, encode (mk o) = encLp (BitVec.ofNat 6 lop) o := by intro o; rfl) : Faithful p w (decLp p w ok range mk) := by
  intro i h
  obtain ⟨o, rfl, ⟨hok, hr⟩, e⟩ := (decLp_ok h31).mp h
  rw [he, ← of_toNat hl]
  exact ⟨hw o hok hr, e⟩

theorem Faithful.isel (hl : (fld w 25 6).toNat = 5) : Faithful p w (decIsel p w) := by
  intro i h
  obtain ⟨o, rfl, wf, e⟩ := (decIsel_ok h31 (of_toNat hl)).mp h
  exact ⟨wf, e⟩

theorem Faithful.fmas (hl : (fld w 25 6).toNat = 17) (hf : (fld w 18 3).toNat = 4) : Faithful p w (decFmas p w) := by
  intro i h
  obtain ⟨o, rfl, e⟩ := (decFmas_ok h31 (of_toNat hl) (of_toNat hf)).mp h
  exact ⟨rfl, e⟩

theorem Faithful.imovi (hl : (fld w 25 6).toNat = 15) : Faithful p w (decImovi p w) := by
  intro i h
  obtain ⟨o, rfl, e⟩ := (decImovi_ok h31 (of_toNat hl)).mp h
  exact ⟨rfl, e⟩

theorem Faithful.mvt (hl : (fld w 25 6).toNat = 25) : Faithful p w (decMvt p w) := by
  intro i h
  obtain ⟨o, rfl, wf, e⟩ := (decMvt_ok h31 (of_toNat hl)).mp h
  exact ⟨wf, e⟩

theorem Faithful.pcvt (hl : (fld w 25 6).toNat = 43) : Faithful p w (decPcvt p w) := by
  intro i h
  obtain ⟨o, rfl, wf, e⟩ := (decPcvt_ok h31 (of_toNat hl)).mp h
  exact ⟨wf, e⟩

/-- Any three registers and F, without an `XP`. -/
theorem Faithful.lrF {b c : Bool} {mk : LrF → Instr} (hl : (fld w 25 6).toNat = lop) (hw : b = false → c = false → (mk (lrF w)).wf = true)
    (he : ∀ o, encode (mk o) = encLrF (BitVec.ofNat 6 lop) o := by intro o; rfl) : Faithful p w (checked p.isSome b c (mk (lrF w))) :=
  .bare fun hb hc => ⟨hw hb hc, (he _).trans (encLrF_ok.mpr ⟨rfl, h31, of_toNat hl, rfl⟩)⟩

/-- Three registers without C. -/
theorem Faithful.lrN {b c : Bool} {mk : LrN → Instr} (hl : (fld w 25 6).toNat = lop) (hf : b = false → (fld w 18 3).toNat = f ∧ bitAt w 21 = false)
    (hw : b = false → c = false → (mk (lrN w)).wf = true)
    (he : ∀ o, encode (mk o) = encLrN (BitVec.ofNat 6 lop) (BitVec.ofNat 3 f) o := by intro o; rfl) :
    Faithful p w (checked p.isSome b c (mk (lrN w))) :=
  .bare fun hb hc => ⟨hw hb hc, (he _).trans (encLrN_ok.mpr ⟨rfl, h31, of_toNat hl, of_toNat (hf hb).1, (hf hb).2, rfl⟩)⟩

end

/-! ## The tables of lane operations -/

theorem faithful_arith (h31 : bitAt w 31 = false) : Faithful p w (decArith p w) := by
  unfold decArith
  split <;> rename_i hl hf
  exacts [.lrB h31 hl hf, .lrB h31 hl hf, .lrB h31 hl hf, .lrB h31 hl hf, .lrU h31 hl hf, .lrU h31 hl hf, .lrB h31 hl hf, .lrB h31 hl hf,
    .lrB h31 hl hf, .lrB h31 hl hf, .lrB h31 hl hf, .lrB h31 hl hf, .lrB h31 hl hf, .lrB h31 hl hf, .lrU h31 hl hf, .lrU h31 hl hf,
    .lrB h31 hl hf, .lrB h31 hl hf, .lrB h31 hl hf, .lrB h31 hl hf, .lrU h31 hl hf, .lrU h31 hl hf, .lrU h31 hl hf, .lrB h31 hl hf,
    .lrB h31 hl hf, .lrB h31 hl hf, .lrB h31 hl hf, .lrB h31 hl hf, .lrC h31 hl hf, .lrC h31 hl hf, .isel h31 hf,
    .lrB h31 hl hf, .lrB h31 hl hf, .lrB h31 hl hf,
    .lrB h31 hl hf, .lrB h31 hl hf, .lrB h31 hl hf, .lrB h31 hl hf, .lrB h31 hl hf, .lrB h31 hl hf, .lrB h31 hl hf, .lrB h31 hl hf,
    .lrU h31 hl hf, .lrU h31 hl hf, .lrC h31 hl hf, .lrU h31 hl hf, .fmas h31 hl hf, .cvt h31 hl hf, .lrB h31 hl hf, .lrB h31 hl hf,
    .cvt h31 hl hf, .cvt h31 hl hf, .cvt h31 hl hf, .cvt h31 hl hf, .cvt h31 hl hf, .cvt h31 hl hf, .cvt h31 hl hf, .cvt h31 hl hf, .refused]

theorem Faithful.sfu (h31 : bitAt w 31 = false) (hl : (fld w 25 6).toNat = 20) : Faithful p w (decSfu p w) := by
  have code (i : LlU → Instr) (k : Nat) (hb : (fld w 0 6).toNat = k) (he : ∀ o, encode (i o) = encLlU (BitVec.ofNat 6 k) o) :
      encode (i ⟨fld w 22 3, fld w 18 4, fld w 12 6, fld w 6 6⟩) = some (none, w) := by
    rw [he, encLlU, llWord_iff.mpr ⟨h31, of_toNat hl, rfl, rfl, rfl, rfl, of_toNat hb⟩]
  refine .bare fun hb _ => ?_
  have hb := of_decide_eq_false hb
  split <;> rename_i h
  exacts [⟨rfl, code .fsqrt _ h fun _ => rfl⟩, ⟨rfl, code .frcp _ h fun _ => rfl⟩, ⟨rfl, code .frsq _ h fun _ => rfl⟩,
    ⟨rfl, code .fexp2 _ h fun _ => rfl⟩,
    ⟨rfl, code .flog2 _ h fun _ => rfl⟩, ⟨rfl, code .fsin _ h fun _ => rfl⟩, ⟨rfl, code .fcos _ h fun _ => rfl⟩, ⟨rfl, code .ftanh _ h fun _ => rfl⟩,
    ⟨rfl, code .fsigm 8 (by simp only [imp_false] at *; omega) fun _ => rfl⟩]

theorem faithful_packed (h31 : bitAt w 31 = false) (h : 32 ≤ (fld w 25 6).toNat ∧ (fld w 25 6).toNat ≤ 45) : Faithful p w (decPacked p w) := by
  unfold decPacked
  split <;> rename_i hl
  exacts [.lp h31 hl fun _ _ _ => rfl, .lp h31 hl fun _ _ _ => rfl, .lp h31 hl fun _ _ _ => rfl, .lp h31 hl fun _ _ _ => rfl,
    .lp h31 hl fun _ h _ => h, .lp h31 hl fun _ h _ => h, .lp h31 hl fun _ h _ => h, .lp h31 hl fun _ h _ => h,
    .lp h31 hl fun _ h _ => h, .lp h31 hl fun _ h _ => h, .lp h31 hl fun _ h _ => h, .pcvt h31 hl, .lp h31 hl fun _ h _ => h,
    .lp h31 (lop := 45) (by simp only [imp_false] at *; omega) fun _ h r => Bool.and_eq_true_iff.mpr ⟨h, r⟩]

theorem faithful_cross (h31 : bitAt w 31 = false) : Faithful p w (decCross p w) := by
  have low {x : BitVec 3} (h : decide (3 < x.toNat) = false) : decide (x.toNat ≤ 3) = true := decide_eq_true (Nat.le_of_not_lt (of_decide_eq_false h))
  have zero {x : Reg} (h : (x != 0#6) = false) : (x == 0#6) = true := beq_iff_eq.mpr (bne_eq_false_iff_eq.mp h)
  have both {x : BitVec 3} {y : Reg} (h : (decide (3 < x.toNat) || y != 0#6) = false) : (decide (x.toNat ≤ 3) && y == 0#6) = true := by
    rw [Bool.or_eq_false_iff] at h
    exact Bool.and_eq_true_iff.mpr ⟨low h.1, zero h.2⟩
  unfold decCross
  dsimp only
  split <;> rename_i hl
  · exact .lrF h31 hl fun hb hc => by simpa [lrF] using And.intro hb hc
  · exact .lrF h31 hl fun hb _ => by simpa [lrF] using hb
  · exact .lrF h31 hl fun hb _ => low hb
  · exact .lrF h31 hl fun hb _ => both hb
  · exact .lrF h31 hl fun hb _ => both hb
  · exact .lrF h31 hl fun hb _ => zero hb
  · exact .lrF h31 hl fun hb _ => zero hb
  · exact .lrF h31 hl fun hb _ => zero hb
  · exact .lrF h31 hl fun _ _ => rfl
  · exact .lrF h31 hl fun _ _ => rfl
  · exact .lrN h31 hl (f := 0) (fun hb => by simpa using hb) fun _ _ => rfl
  · split <;> rename_i hf
    · exact .lrN h31 hl (fun hb => ⟨hf, by simp at hb; exact hb.1⟩) fun hb _ => by simp at hb; simpa using hb.2
    · exact .lrN h31 hl (fun hb => ⟨hf, by simp at hb; exact hb.1⟩) fun hb _ => by simp at hb; simpa [lrN, lrF] using hb.2
    · exact .lrN h31 hl (fun hb => ⟨hf, by simp at hb; exact hb.1⟩) fun hb _ => by simp at hb; simpa [lrN, lrF] using hb.2
    · exact .refused
  · exact .lrN h31 hl (f := 0) (fun hb => by simp at hb; simpa using hb.1) fun hb hc => by simp at hb; simpa using And.intro hb.2 hc
  · exact .lrF h31 hl fun hb hc => by simpa [lrF] using And.intro hb hc
  · split <;> rename_i hf
    · exact .lrN h31 hl (fun hb => ⟨hf, hb⟩) fun _ hc => by simpa using hc
    · exact .lrF h31 hl fun _ hc => by simpa [lrF, of_toNat hf] using hc
    · exact .lrN h31 hl (fun hb => ⟨hf, hb⟩) fun _ _ => rfl
    · exact .lrF h31 hl fun _ _ => by simp [lrF, of_toNat hf]
    · exact .refused
  · exact .refused

theorem faithful_lane (h31 : bitAt w 31 = false) : Faithful p w (decLane p w) := by
  have signed {o : LmLd} (wf : o.wf = true) (hs : fld w 0 2 = o.sz) (h1 : bitAt w 1 = false) : decide (o.sz.toNat ≤ 1) = true := by
    rw [bitAt_eq_iff, Bool.toNat_false] at h1
    have := fld_toNat w 0 2
    exact decide_eq_true (by rw [← hs]; omega)
  unfold decLane
  split <;> rename_i hl
  iterate 10 exact faithful_arith h31
  iterate 4 exact .li h31 hl
  iterate 3 exact .liSh h31 hl
  · exact .imovi h31 hl
  · exact .llB h31 hl
  · exact .sfu h31 hl
  iterate 4 exact .llB h31 hl
  · exact .mvt h31 hl
  · exact .ld h31 hl
  · exact .ld h31 hl fun o wf hs h1 => signed wf hs h1
  · exact .st h31 hl
  iterate 2 exact .ld h31 hl
  · exact .st h31 hl
  iterate 14 exact faithful_packed h31 (by omega)
  · exact .ld h31 hl
  · exact faithful_cross h31

end
end Sys2Proof.Machine
end

section

/-! SUPPORT. The words of the lane set that are read back (R75 to R80, R90, R98): from the code of its operands, each form has them again. -/

namespace Sys2Proof.Machine

-- One proof at a time, to keep the compile small: they share the equations of the model's long matches.
set_option Elab.async false

section
variable {p : Option Payload} {w : Word}

/-- A word with bit 31 clear is no `XP` and is of the lane set (R75, R90). -/
theorem decode_lane (h31 : bitAt w 31 = false) : decode p w = decLane p w := by
  have xp : isXp w = false := by
    refine beq_eq_false_iff_ne.mpr fun e => ?_
    have := congrArg BitVec.toNat e
    rw [bitAt_eq_iff, Bool.toNat_false] at h31
    rw [fld_toNat, BitVec.toNat_ofNat] at this
    omega
  simp only [decode, xp, h31, Bool.false_eq_true, if_false]

section
variable {lop : BitVec 6} {f : BitVec 3}

theorem reads_lrB {mk : LrB → Instr} {o : LrB} (he : encLrB lop f o = some (p, w)) (hw : o.wf = true)
    (hd : fld w 25 6 = lop → fld w 18 3 = f → decLane p w = decLrB p w mk) : decode p w = .ok (mk o) := by
  obtain ⟨h31, hl, -, -, hf, -⟩ := lrWord_iff.mp (congrArg Prod.snd (Option.some.inj he))
  rw [decode_lane h31, hd hl hf, decLrB_ok h31, hl, hf]
  exact ⟨o, rfl, hw, he⟩

theorem reads_lrU {mk : LrU → Instr} {o : LrU} (he : encLrU lop f o = some (p, w)) (hw : o.wf = true)
    (hd : fld w 25 6 = lop → fld w 18 3 = f → decLane p w = decLrU p w mk) : decode p w = .ok (mk o) := by
  obtain ⟨h31, hl, -, -, hf, -⟩ := lrWord_iff.mp (congrArg Prod.snd (Option.some.inj he))
  rw [decode_lane h31, hd hl hf, decLrU_ok h31, hl, hf]
  exact ⟨o, rfl, hw, he⟩

theorem reads_lrC {mk : LrC → Instr} {o : LrC} (he : encLrC lop f o = some (p, w)) (hw : o.wf = true)
    (hd : fld w 25 6 = lop → fld w 18 3 = f → decLane p w = decLrC p w mk) : decode p w = .ok (mk o) := by
  obtain ⟨h31, hl, -, -, hf, -⟩ := lrWord_iff.mp (congrArg Prod.snd (Option.some.inj he))
  rw [decode_lane h31, hd hl hf, decLrC_ok h31, hl, hf]
  exact ⟨o, rfl, hw, he⟩

theorem reads_cvt {mk : CvtOp → Instr} {o : CvtOp} {s : Bool} (he : encCvt lop f o = some (p, w)) (hw : o.wf s = true)
    (hd : fld w 25 6 = lop → fld w 18 3 = f → decLane p w = decCvt p w s mk) : decode p w = .ok (mk o) := by
  obtain ⟨h31, hl, -, -, hf, -⟩ := lrWord_iff.mp (congrArg Prod.snd (Option.some.inj he))
  rw [decode_lane h31, hd hl hf, decCvt_ok h31, hl, hf]
  exact ⟨o, rfl, hw, he⟩

theorem reads_isel {o : LrS} (he : encode (.isel o) = some (p, w)) (hw : o.wf = true) : decode p w = .ok (.isel o) := by
  obtain ⟨h31, hl, -⟩ := lrWord_iff.mp (congrArg Prod.snd (Option.some.inj he))
  have hd : decLane p w = decIsel p w := by rw [decLane, hl, decArith, hl]; rfl
  rw [decode_lane h31, hd, decIsel_ok h31 hl]
  exact ⟨o, rfl, hw, he⟩

theorem reads_fmas {o : FmasOp} (he : encode (.fmas o) = some (p, w)) : decode p w = .ok (.fmas o) := by
  obtain ⟨h31, hl, -, -, hf, -⟩ := lrWord_iff.mp (congrArg Prod.snd (Option.some.inj he))
  have hd : decLane p w = decFmas p w := by rw [decLane, hl, decArith, hl, hf]; rfl
  rw [decode_lane h31, hd, decFmas_ok h31 hl hf]
  exact ⟨o, rfl, he⟩

theorem reads_li {mk : LiOp → Instr} {o : LiOp} (he : encLi lop o = some (p, w)) (hd : fld w 25 6 = lop → decLane p w = decLi p w mk) :
    decode p w = .ok (mk o) := by
  obtain ⟨h31, hl, -⟩ := liWord_iff.mp (congrArg Prod.snd (Option.some.inj he))
  rw [decode_lane h31, hd hl, decLi_ok h31, hl]
  exact ⟨o, rfl, he⟩

theorem reads_liSh {mk : LiSh → Instr} {o : LiSh} (he : encLiSh lop o = some (p, w)) (hd : fld w 25 6 = lop → decLane p w = decLiSh p w mk) :
    decode p w = .ok (mk o) := by
  obtain ⟨h31, hl, -⟩ := liWord_iff.mp (congrArg Prod.snd (Option.some.inj he))
  rw [decode_lane h31, hd hl, decLiSh_ok h31, hl]
  exact ⟨o, rfl, he⟩

theorem reads_imovi {o : LiMov} (he : encode (.imovi o) = some (p, w)) : decode p w = .ok (.imovi o) := by
  obtain ⟨h31, hl, -⟩ := liWord_iff.mp (congrArg Prod.snd (Option.some.inj he))
  have hd : decLane p w = decImovi p w := by rw [decLane, hl]; rfl
  rw [decode_lane h31, hd, decImovi_ok h31 hl]
  exact ⟨o, rfl, he⟩

theorem reads_llB {mk : LlB → Instr} {o : LlB} (he : encLlB lop o = some (p, w)) (hd : fld w 25 6 = lop → decLane p w = decLlB p w mk) :
    decode p w = .ok (mk o) := by
  obtain ⟨h31, hl, -⟩ := llWord_iff.mp (congrArg Prod.snd (Option.some.inj he))
  rw [decode_lane h31, hd hl, decLlB_ok h31, hl]
  exact ⟨o, rfl, he⟩

theorem reads_mvt {o : MvtOp} (he : encode (.mvt o) = some (p, w)) (hw : o.wf = true) : decode p w = .ok (.mvt o) := by
  obtain ⟨h31, hl, -⟩ := llWord_iff.mp (congrArg Prod.snd (Option.some.inj he))
  have hd : decLane p w = decMvt p w := by rw [decLane, hl]; rfl
  rw [decode_lane h31, hd, decMvt_ok h31 hl]
  exact ⟨o, rfl, hw, he⟩

/-- A function of the SFU is the number in B. -/
theorem reads_sfu {mk : LlU → Instr} {o : LlU} {b : Reg} (he : encLlU b o = some (p, w)) (hb : b.toNat ≤ 8)
    (hd : fld w 0 6 = b → decSfu none w = checked false (decide (8 < b.toNat)) false (mk ⟨fld w 22 3, fld w 18 4, fld w 12 6, fld w 6 6⟩)) :
    decode p w = .ok (mk o) := by
  obtain ⟨k, la, d, a⟩ := o
  simp only [encLlU, Option.some.injEq, Prod.mk.injEq] at he
  obtain ⟨rfl, he⟩ := he
  obtain ⟨h31, hl, rfl, rfl, rfl, rfl, e⟩ := llWord_iff.mp he
  have hs : decLane none w = decSfu none w := by rw [decLane, hl]; rfl
  rw [decode_lane h31, hs, hd e, checked_ok]
  exact ⟨rfl, decide_eq_false (Nat.not_lt.mpr hb), rfl, rfl⟩

theorem reads_ld {mk : LmLd → Instr} {o : LmLd} {r : Bool} (he : encLd lop o = some (p, w)) (hw : o.wf = true) (hr : fld w 0 2 = o.sz → r = false)
    (hd : fld w 25 6 = lop → decLane p w = decLd p w r mk) : decode p w = .ok (mk o) := by
  obtain ⟨h31, hl, -, -, -, -, hb⟩ := llWord_iff.mp (congrArg Prod.snd (Option.some.inj he))
  rw [decode_lane h31, hd hl, decLd_ok h31, hl]
  exact ⟨hr (sizeField_iff.mp hb).2, o, rfl, hw, he⟩

theorem reads_st {mk : LmSt → Instr} {o : LmSt} (he : encSt lop o = some (p, w)) (hw : o.wf = true)
    (hd : fld w 25 6 = lop → decLane p w = decSt p w mk) : decode p w = .ok (mk o) := by
  obtain ⟨h31, hl, -⟩ := llWord_iff.mp (congrArg Prod.snd (Option.some.inj he))
  rw [decode_lane h31, hd hl, decSt_ok h31, hl]
  exact ⟨o, rfl, hw, he⟩

theorem reads_ldgs {o : LmLd} (he : encode (.ldgs o) = some (p, w)) (hw : decide (o.sz.toNat ≤ 1) = true) : decode p w = .ok (.ldgs o) := by
  have hs : o.sz.toNat ≤ 1 := of_decide_eq_true hw
  have wf : o.wf = true := by
    refine Bool.or_eq_true_iff.mpr (.inl (bne_iff_ne.mpr fun e => ?_))
    rw [e] at hs
    exact absurd hs (by decide)
  refine reads_ld (r := bitAt w 1) he wf (fun e => ?_) fun hl => by rw [decLane, hl]; rfl
  have := fld_toNat w 0 2
  rw [bitAt_eq_iff, Bool.toNat_false]
  rw [e] at this
  omega

theorem reads_lp (ok range : LpB → Bool) {mk : LpB → Instr} {o : LpB} (he : encLp lop o = some (p, w)) (hw : ok o = true ∧ range o = true)
    (hd : fld w 25 6 = lop → decLane p w = decLp p w ok range mk) : decode p w = .ok (mk o) := by
  obtain ⟨h31, hl, -⟩ := lpWord_iff.mp (congrArg Prod.snd (Option.some.inj he))
  rw [decode_lane h31, hd hl, decLp_ok h31, hl]
  exact ⟨o, rfl, hw, he⟩

theorem reads_pcvt {o : PcvtOp} (he : encode (.pcvt o) = some (p, w)) (hw : o.wf = true) : decode p w = .ok (.pcvt o) := by
  obtain ⟨h31, hl, -⟩ := lpWord_iff.mp (congrArg Prod.snd (Option.some.inj he))
  have hd : decLane p w = decPcvt p w := by rw [decLane, hl, decPacked, hl]; rfl
  rw [decode_lane h31, hd, decPcvt_ok h31 hl]
  exact ⟨o, rfl, hw, he⟩

/-- Three registers and F, which take no `XP`, under the checks of their own that a form makes. -/
theorem reads_lrF (bad range : LrF → Bool) {mk : LrF → Instr} {o : LrF} (he : encLrF lop o = some (p, w)) (hw : bad o = false ∧ range o = false)
    (hd : fld w 25 6 = lop → fld w 18 3 = o.f → decLane none w = checked false (bad (lrF w)) (range (lrF w)) (mk (lrF w))) :
    decode p w = .ok (mk o) := by
  obtain ⟨rfl, h31, hl, rfl⟩ := encLrF_ok.mp he
  rw [decode_lane h31, hd hl rfl, checked_ok]
  exact ⟨rfl, hw.1, hw.2, rfl⟩

theorem reads_lrN (bad range : LrN → Bool) {mk : LrN → Instr} {o : LrN} (he : encLrN lop f o = some (p, w)) (hw : bad o = false ∧ range o = false)
    (hd : fld w 25 6 = lop → fld w 18 3 = f → bitAt w 21 = false → decLane none w = checked false (bad (lrN w)) (range (lrN w)) (mk (lrN w))) :
    decode p w = .ok (mk o) := by
  obtain ⟨rfl, h31, hl, hf, h21, rfl⟩ := encLrN_ok.mp he
  rw [decode_lane h31, hd hl hf h21, checked_ok]
  exact ⟨rfl, hw.1, hw.2, rfl⟩

end
end

end Sys2Proof.Machine
end

section

/-! SUPPORT. The uniform set (R81 to R90, R99): the fields of its codes, and what its decoder accepts. -/

namespace Sys2Proof.Machine

-- One proof at a time, to keep the compile small: they share the equations of the model's long matches.
set_option Elab.async false

/-! ## What well-formed asks of the uniform set -/

@[simp] theorem wf_sadd64 (o : GrB) : (Instr.sadd64 o).wf = (o.d.even && o.a.even && o.b.even) := rfl
@[simp] theorem wf_ssub64 (o : GrB) : (Instr.ssub64 o).wf = (o.d.even && o.a.even && o.b.even) := rfl
@[simp] theorem wf_smov64 (o : GrU) : (Instr.smov64 o).wf = (o.d.even && o.a.even) := rfl
@[simp] theorem wf_sshl64 (o : GrB) : (Instr.sshl64 o).wf = (o.d.even && o.a.even) := rfl
@[simp] theorem wf_scmp64 (o : GrC) : (Instr.scmp64 o).wf = (o.a.even && o.b.even) := rfl
@[simp] theorem wf_kill (b : Reg) (m : BitVec 16) : (Instr.kill b m).wf = (killOk b m) := rfl
@[simp] theorem wf_win (d : BitVec 2) (a : Reg) (n : BitVec 12) : (Instr.win d a n).wf = (decide (n.toNat ≤ 64)) := rfl
@[simp] theorem wf_sst (o : GlOp) : (Instr.sst o).wf = (o.la == 0#4) := rfl
@[simp] theorem wf_frz (d a b : Reg) (sys pin : Bool) : (Instr.frz d a b sys pin).wf = (a.even) := rfl
@[simp] theorem wf_rafg (r : BitVec 5) (a b : Reg) (z : BitVec 3) : (Instr.rafg r a b z).wf = (a.even) := rfl
@[simp] theorem wf_mrd (d a : Reg) (t : BitVec 2) : (Instr.mrd d a t).wf = (regRange d 4) := rfl
@[simp] theorem wf_mwr (d a : Reg) (t : BitVec 2) : (Instr.mwr d a t).wf = (regRange d 4) := rfl
@[simp] theorem wf_tsub (a : Reg) : (Instr.tsub a).wf = (a.even) := rfl

theorem encode_kill (b : Reg) (m : BitVec 16) : encode (.kill b m) = some (none, 1#1 ++ 0x21#7 ++ b ++ 0#2 ++ m) := rfl

theorem encode_mloop (o : MloopOp) : encode (.mloop o) =
    some (o.inc.map (fun x => x.1 ++ x.2), 1#1 ++ 0x54#7 ++ o.sl ++ o.vs ++ 0#3 ++ o.sel ++ o.n) := rfl

/-! ## Codes by their fields -/

section
variable {p : Option Payload} {w : Word} {gop : BitVec 7}

theorem encGr_ok {d a b f : BitVec 6} : encGr gop d a b f = some (p, w) ↔
    p = none ∧ bitAt w 31 = true ∧ fld w 24 7 = gop ∧ fld w 18 6 = d ∧ fld w 12 6 = a ∧ fld w 6 6 = b ∧ fld w 0 6 = f := by
  simp only [encGr, Option.some.injEq, Prod.mk.injEq, grWord_iff, eq_comm (a := none)]

theorem encGi_ok {d a : Reg} {imm : BitVec 12} : encGi gop d a imm = some (p, w) ↔
    p = none ∧ bitAt w 31 = true ∧ fld w 24 7 = gop ∧ fld w 18 6 = d ∧ fld w 12 6 = a ∧ fld w 0 12 = imm := by
  simp only [encGi, Option.some.injEq, Prod.mk.injEq, giWord_iff, eq_comm (a := none)]

theorem encGiHi_ok {d a : Reg} {imm : BitVec 12} {hi : Option (BitVec 20)} : encGiHi gop d a imm hi = some (p, w) ↔
    (giHi p = hi ∧ giBad p = false) ∧ bitAt w 31 = true ∧ fld w 24 7 = gop ∧ fld w 18 6 = d ∧ fld w 12 6 = a ∧ fld w 0 12 = imm := by
  simp only [encGiHi, Option.some.injEq, Prod.mk.injEq, giWord_iff, giPayload_iff]

theorem encGj_ok {c : BitVec 4} {off : BitVec 20} : encGj gop c off = some (p, w) ↔
    p = none ∧ bitAt w 31 = true ∧ fld w 24 7 = gop ∧ fld w 20 4 = c ∧ fld w 0 20 = off := by
  simp only [encGj, Option.some.injEq, Prod.mk.injEq, gjWord_iff, eq_comm (a := none)]

theorem encGm_ok {kd ka kb : KReg} {f : BitVec 3} {x : Reg} {imm : BitVec 6} : encGm kd ka kb f x imm = some (p, w) ↔
    p = none ∧ bitAt w 31 = true ∧ fld w 24 7 = 0x20#7 ∧ fld w 21 3 = kd ∧ fld w 18 3 = ka ∧ fld w 15 3 = kb ∧ fld w 12 3 = f ∧ fld w 6 6 = x ∧
      fld w 0 6 = imm := by
  simp only [encGm, Option.some.injEq, Prod.mk.injEq, gmWord_iff, eq_comm (a := none)]

theorem encGl_ok {o : GlOp} : encGl gop o = some (p, w) ↔ bitAt w 31 = true ∧ fld w 24 7 = gop ∧ glOp p w = o := by
  obtain ⟨la, d, r, imm, hi⟩ := o
  simp only [encGl, Option.some.injEq, Prod.mk.injEq, glWord_iff, glOp, GlOp.mk.injEq]
  constructor
  · rintro ⟨rfl, h31, hg, rfl, rfl, rfl, rfl⟩
    exact ⟨h31, hg, rfl, rfl, rfl, rfl, rfl⟩
  · rintro ⟨h31, hg, rfl, rfl, rfl, rfl, rfl⟩
    exact ⟨rfl, h31, hg, rfl, rfl, rfl, rfl⟩

theorem scopeOf_four {b : BitVec 4} {s : Scope} : scopeOf b.toNat = some s ↔ b = BitVec.ofNat 4 s.code := by
  cases s <;> revert b <;> decide

theorem scopeOf_six {b : BitVec 6} {s : Scope} : scopeOf b.toNat = some s ↔ b = BitVec.ofNat 6 s.code := by
  cases s <;> revert b <;> decide

theorem encGlS_ok {o : GlS} : encGlS gop o = some (p, w) ↔ bitAt w 31 = true ∧ fld w 24 7 = gop ∧ scopeOf (fld w 20 4).toNat = some o.scope ∧
    (⟨o.scope, fld w 14 6, fld w 9 5, fld w 0 9, p⟩ : GlS) = o := by
  obtain ⟨s, d, r, imm, hi⟩ := o
  simp only [encGlS, Option.some.injEq, Prod.mk.injEq, glWord_iff, GlS.mk.injEq, scopeOf_four, true_and]
  constructor
  · rintro ⟨rfl, h31, hg, hs, rfl, rfl, rfl⟩
    exact ⟨h31, hg, hs, rfl, rfl, rfl, rfl⟩
  · rintro ⟨h31, hg, hs, rfl, rfl, rfl, rfl⟩
    exact ⟨rfl, h31, hg, hs, rfl, rfl, rfl⟩

theorem encGa_ok {f : BitVec 4} {r : BitVec 5} {a b : Reg} {imm : BitVec 3} : encGa gop f r a b imm = some (p, w) ↔
    p = none ∧ bitAt w 31 = true ∧ fld w 24 7 = gop ∧ fld w 20 4 = f ∧ fld w 15 5 = r ∧ fld w 9 6 = a ∧ fld w 3 6 = b ∧ fld w 0 3 = imm := by
  simp only [encGa, Option.some.injEq, Prod.mk.injEq, gaWord_iff, eq_comm (a := none)]

theorem encNone_ok : encNone gop = some (p, w) ↔ p = none ∧ bitAt w 31 = true ∧ fld w 24 7 = gop ∧ fld w 0 24 = 0#24 := by
  simp only [encNone, Option.some.injEq, Prod.mk.injEq, noneWord_iff, eq_comm (a := none)]

theorem encKill_ok {b : Reg} {m : BitVec 16} : encode (.kill b m) = some (p, w) ↔
    p = none ∧ bitAt w 31 = true ∧ fld w 24 7 = 0x21#7 ∧ fld w 18 6 = b ∧ fld w 16 2 = 0#2 ∧ fld w 0 16 = m := by
  simp only [encode_kill, Option.some.injEq, Prod.mk.injEq, killWord_iff, eq_comm (a := none)]

/-! ## Fields in two parts -/

theorem maskImm_iff {b : Bool} {x : BitVec 5} : fld w 0 6 = one b ++ x ↔ bitAt w 5 = b ∧ fld w 0 5 = x :=
  (fld_eq_append (n := 1) (m := 5)).trans (and_congr_left' fld_eq_one)

theorem maskImm_zero : fld w 0 6 = 0#6 ↔ bitAt w 5 = false ∧ fld w 0 5 = 0#5 := maskImm_iff (b := false) (x := 0#5)

theorem branchField_iff {b : Bool} {x : KReg} : fld w 20 4 = one b ++ x ↔ bitAt w 23 = b ∧ fld w 20 3 = x :=
  (fld_eq_append (n := 1) (m := 3)).trans (and_congr_left' fld_eq_one)

theorem ringField_iff {b : Bool} : fld w 20 4 = 0#3 ++ one b ↔ fld w 21 3 = 0#3 ∧ bitAt w 20 = b :=
  (fld_eq_append (n := 3) (m := 1)).trans (and_congr_right' fld_eq_one)

theorem byteField_iff {x : Byte} : fld w 0 12 = 0#4 ++ x ↔ fld w 8 4 = 0#4 ∧ fld w 0 8 = x := fld_eq_append (n := 4) (m := 8)

theorem tileField_iff {x : BitVec 2} : fld w 0 12 = 0#10 ++ x ↔ fld w 2 10 = 0#10 ∧ fld w 0 2 = x := fld_eq_append (n := 10) (m := 2)

theorem shiftField_iff {x : BitVec 5} : fld w 0 12 = 0#7 ++ x ↔ fld w 5 7 = 0#7 ∧ fld w 0 5 = x := fld_eq_append (n := 7) (m := 5)

theorem windowField_iff {x : BitVec 2} : fld w 18 6 = 0#4 ++ x ↔ fld w 20 4 = 0#4 ∧ fld w 18 2 = x := fld_eq_append (n := 4) (m := 2)

theorem condField_iff {x : BitVec 3} : fld w 0 6 = 0b100#3 ++ x ↔ (bitAt w 5 = true ∧ fld w 3 2 = 0#2) ∧ fld w 0 3 = x :=
  (fld_eq_append (n := 3) (m := 3)).trans (and_congr_left' ((fld_eq_append (n := 1) (m := 2) (x := one true) (y := 0#2)).trans (and_congr_left' fld_eq_one)))

theorem freezeField_iff {x y : Bool} : fld w 0 6 = 0#4 ++ one x ++ one y ↔ (fld w 2 4 = 0#4 ∧ bitAt w 1 = x) ∧ bitAt w 0 = y :=
  (fld_eq_append (n := 5) (m := 1)).trans (and_congr ((fld_eq_append (n := 4) (m := 1)).trans (and_congr_right' fld_eq_one)) fld_eq_one)

/-- Bits 23:6, the three registers of a GR word. -/
theorem noRegs_iff : fld w 6 18 = 0#18 ↔ fld w 18 6 = 0#6 ∧ fld w 12 6 = 0#6 ∧ fld w 6 6 = 0#6 :=
  (fld_eq_append (n := 6) (m := 12) (x := 0#6) (y := 0#12)).trans (and_congr_right' (fld_eq_append (n := 6) (m := 6) (x := 0#6) (y := 0#6)))

/-- Bits 11:0, one register and F of a GR word. -/
theorem noImm_iff : fld w 0 12 = 0#12 ↔ fld w 6 6 = 0#6 ∧ fld w 0 6 = 0#6 := fld_eq_append (n := 6) (m := 6) (x := 0#6) (y := 0#6)

/-- Bits 8:0, one register and the immediate of a GA word. -/
theorem noGaImm_iff : fld w 0 9 = 0#9 ↔ fld w 3 6 = 0#6 ∧ fld w 0 3 = 0#3 := fld_eq_append (n := 6) (m := 3) (x := 0#6) (y := 0#3)

/-- The lowest bit of a register field says whether it names a pair (R89). -/
theorem even_fld (lo : Nat) : Reg.even (fld w lo 6) = !bitAt w lo := by
  simp [Reg.even, fld, bitAt]

/-- The number of a mask function, below 8 and from 8 on (R233). -/
theorem maskNumber_low {n : Nat} (hn : n < 8) (h : (if bitAt w 5 = true then 8 else 0) + (fld w 12 3).toNat = n) :
    bitAt w 5 = false ∧ (fld w 12 3).toNat = n := by
  cases hb : bitAt w 5 with
  | false => rw [hb] at h; exact ⟨rfl, by simpa using h⟩
  | true => rw [hb, if_pos rfl] at h; omega

theorem maskNumber_high {n : Nat} (h : (if bitAt w 5 = true then 8 else 0) + (fld w 12 3).toNat = n + 8) :
    bitAt w 5 = true ∧ (fld w 12 3).toNat = n := by
  cases hb : bitAt w 5 with
  | false => rw [hb] at h; have := (fld w 12 3).isLt; simp only [Bool.false_eq_true, if_false] at h; omega
  | true => rw [hb, if_pos rfl] at h; exact ⟨rfl, by omega⟩

end
end Sys2Proof.Machine
end

section

/-! SUPPORT. What the decoder of the uniform set accepts (R81 to R90, R99). -/

namespace Sys2Proof.Machine

-- One proof at a time, to keep the compile small: they share the equations of the model's long matches.
set_option Elab.async false

section
variable {p : Option Payload} {w : Word}

section
variable {gop : Nat} (h31 : bitAt w 31 = true) (hg : (fld w 24 7).toNat = gop)
include h31 hg

/-! ## Registers and immediates -/

theorem Faithful.threeRegs {f : Nat} {c : Bool} {mk : GrB → Instr} (hf : (fld w 0 6).toNat = f) (hw : c = false → (mk (Sys2Proof.grB w)).wf = true)
    (he : ∀ o, encode (mk o) = encGr (BitVec.ofNat 7 gop) o.d o.a o.b (BitVec.ofNat 6 f) := by intro o; rfl) :
    Faithful p w (checked p.isSome false c (mk (Sys2Proof.grB w))) :=
  .bare fun _ hc => ⟨hw hc, (he _).trans (encGr_ok.mpr ⟨rfl, h31, of_toNat hg, rfl, rfl, rfl, of_toNat hf⟩)⟩

theorem Faithful.twoRegs {f : Nat} {c : Bool} {mk : GrU → Instr} (hf : (fld w 0 6).toNat = f) (hw : c = false → (mk (Sys2Proof.grU w)).wf = true)
    (he : ∀ o, encode (mk o) = encGr (BitVec.ofNat 7 gop) o.d o.a 0#6 (BitVec.ofNat 6 f) := by intro o; rfl) :
    Faithful p w (checked p.isSome ((Sys2Proof.grB w).b != 0#6) c (mk (Sys2Proof.grU w))) :=
  .bare fun hb hc => ⟨hw hc, (he _).trans (encGr_ok.mpr ⟨rfl, h31, of_toNat hg, rfl, rfl, bne_eq_false_iff_eq.mp hb, of_toNat hf⟩)⟩

theorem Faithful.compareRegs {f : Nat} {c : Bool} {mk : GrC → Instr} (hf : (fld w 0 6).toNat = f) (hw : c = false → (mk (Sys2Proof.grC w)).wf = true)
    (he : ∀ o, encode (mk o) = encGr (BitVec.ofNat 7 gop) 0#6 o.a o.b (BitVec.ofNat 6 f) := by intro o; rfl) :
    Faithful p w (checked p.isSome ((Sys2Proof.grB w).d != 0#6) c (mk (Sys2Proof.grC w))) :=
  .bare fun hb hc => ⟨hw hc, (he _).trans (encGr_ok.mpr ⟨rfl, h31, of_toNat hg, bne_eq_false_iff_eq.mp hb, rfl, rfl, of_toNat hf⟩)⟩

theorem Faithful.gi {mk : GiOp → Instr} (hw : ∀ o, (mk o).wf = true := by intro o; rfl)
    (he : ∀ o, encode (mk o) = encGiHi (BitVec.ofNat 7 gop) o.d o.a o.imm o.hi := by intro o; rfl) : Faithful p w (decGi p w mk) :=
  .guarded fun hp _ _ => ⟨hw _, (he _).trans (encGiHi_ok.mpr ⟨⟨rfl, hp⟩, h31, of_toNat hg, rfl, rfl, rfl⟩)⟩

theorem Faithful.giSh {mk : GiSh → Instr} (hw : ∀ o, (mk o).wf = true := by intro o; rfl)
    (he : ∀ o, encode (mk o) = encGi (BitVec.ofNat 7 gop) o.d o.a (0#7 ++ o.sh) := by intro o; rfl) : Faithful p w (decGiSh p w mk) :=
  .bare fun _ hc => ⟨hw _, (he _).trans (encGi_ok.mpr ⟨rfl, h31, of_toNat hg, rfl, rfl, shiftField_iff.mpr ⟨bne_eq_false_iff_eq.mp hc, rfl⟩⟩)⟩

/-- A word with D and A 0. -/
theorem Faithful.imm {r c : Bool} {i : Instr} {x : BitVec 12} (hx : r = false → fld w 0 12 = x) (hw : c = false → i.wf = true)
    (he : encode i = encGi (BitVec.ofNat 7 gop) 0#6 0#6 x := by rfl) : Faithful p w (decImm p w r c i) := by
  refine .bare fun hb hc => ⟨hw hc, he.trans (encGi_ok.mpr ?_)⟩
  simp only [Bool.or_eq_false_iff, bne_eq_false_iff_eq] at hb
  obtain ⟨⟨hd, ha⟩, hr⟩ := hb
  exact ⟨rfl, h31, of_toNat hg, hd, ha, hx hr⟩

theorem Faithful.noOperand {i : Instr} (hw : i.wf = true := by rfl) (he : encode i = encNone (BitVec.ofNat 7 gop) := by rfl) :
    Faithful p w (decNone p w i) :=
  .bare fun hb _ => ⟨hw, he.trans (encNone_ok.mpr ⟨rfl, h31, of_toNat hg, bne_eq_false_iff_eq.mp hb⟩)⟩

theorem Faithful.fence {mk : Scope → Instr} (hw : ∀ s, (mk s).wf = true := by intro s; rfl)
    (he : ∀ s, encode (mk s) = encGr (BitVec.ofNat 7 gop) 0#6 0#6 0#6 (BitVec.ofNat 6 s.code) := by intro s; rfl) : Faithful p w (decFence p w mk) := by
  refine .bare fun hb hc => ⟨hw _, (he _).trans (encGr_ok.mpr ?_)⟩
  obtain ⟨hd, ha, hb⟩ := noRegs_iff.mp (bne_eq_false_iff_eq.mp hb)
  obtain ⟨s, hs⟩ := Option.isSome_iff_exists.mp (by simpa using hc)
  exact ⟨rfl, h31, of_toNat hg, hd, ha, hb, by rw [hs]; exact scopeOf_six.mp hs⟩

theorem Faithful.glS {mk : GlS → Instr} (hw : ∀ o, (mk o).wf = true := by intro o; rfl)
    (he : ∀ o, encode (mk o) = encGlS (BitVec.ofNat 7 gop) o := by intro o; rfl) : Faithful p w (decGlS p w mk) := by
  refine .guarded fun _ _ hc => ⟨hw _, (he _).trans (encGlS_ok.mpr ⟨h31, of_toNat hg, ?_, rfl⟩)⟩
  obtain ⟨s, hs⟩ := Option.isSome_iff_exists.mp (by simpa using hc)
  rw [hs]
  rfl

theorem Faithful.gl {b c : Bool} {mk : GlOp → Instr} (hw : b = false → c = false → (mk (glOp p w)).wf = true)
    (he : ∀ o, encode (mk o) = encGl (BitVec.ofNat 7 gop) o := by intro o; rfl) : Faithful p w (checked false b c (mk (glOp p w))) :=
  .guarded fun _ hb hc => ⟨hw hb hc, (he _).trans (encGl_ok.mpr ⟨h31, of_toNat hg, rfl⟩)⟩

theorem Faithful.copy {three : Bool} {mk : GaC → Instr} (hw : ∀ o, (mk o).wf = o.wf three := by intro o; rfl)
    (he : ∀ o, encode (mk o) = encCopy (BitVec.ofNat 7 gop) o := by intro o; rfl) : Faithful p w (decCopy p w three mk) := by
  refine .bare fun hb hc => ⟨(hw _).trans ?_, (he _).trans (encGa_ok.mpr ?_)⟩
  · simp only [Bool.or_eq_false_iff] at hb
    simp only [GaC.wf, Bool.and_eq_true, Bool.or_eq_true, beq_iff_eq]
    exact ⟨by simpa [← Bool.not_eq_true, imp_iff_not_or] using hb.2, by
      cases three with
      | false => exact .inl rfl
      | true => exact .inr (by simpa using hc)⟩
  · simp only [Bool.or_eq_false_iff, bne_eq_false_iff_eq] at hb
    exact ⟨rfl, h31, of_toNat hg, ringField_iff.mpr ⟨hb.1, rfl⟩, rfl, rfl, rfl, rfl⟩

theorem Faithful.gaA {mk : Reg → Instr} (hw : ∀ a, (mk a).wf = true := by intro a; rfl)
    (he : ∀ a, encode (mk a) = encGa (BitVec.ofNat 7 gop) 0#4 0#5 a 0#6 0#3 := by intro a; rfl) : Faithful p w (decGaA p w mk) := by
  refine .bare fun hb _ => ⟨hw _, (he _).trans (encGa_ok.mpr ?_)⟩
  simp only [Bool.or_eq_false_iff, bne_eq_false_iff_eq] at hb
  obtain ⟨⟨⟨hf, hr⟩, hb⟩, hi⟩ := hb
  exact ⟨rfl, h31, of_toNat hg, hf, hr, rfl, hb, hi⟩

end

/-! ## The tables of uniform operations -/

section
variable (h31 : bitAt w 31 = true)
include h31

theorem faithful_scalar (hg : (fld w 24 7).toNat = 0) : Faithful p w (decScalar p w) := by
  unfold decScalar
  dsimp only
  split <;> rename_i hf
  iterate 18 exact .threeRegs h31 hg hf fun _ => rfl
  iterate 3 exact .twoRegs h31 hg hf fun _ => rfl
  iterate 2 exact .compareRegs h31 hg hf fun _ => rfl
  · exact .threeRegs h31 hg hf fun _ => rfl
  · exact .refused

theorem faithful_pair (hg : (fld w 24 7).toNat = 1) : Faithful p w (decPair p w) := by
  unfold decPair
  dsimp only
  split <;> rename_i hf
  · exact .threeRegs h31 hg hf fun hc => by simpa using hc
  · exact .threeRegs h31 hg hf fun hc => by simpa using hc
  · exact .twoRegs h31 hg hf fun hc => by simpa [Sys2Proof.grU, Sys2Proof.grB] using hc
  · exact .threeRegs h31 hg hf fun hc => by simpa using hc
  · exact .compareRegs h31 hg hf fun hc => by simpa [Sys2Proof.grC, Sys2Proof.grB] using hc
  · exact .refused

/-- A function of two masks (R233). -/
theorem Faithful.twoMasks {n : Nat} {mk : GmB → Instr} (hg : (fld w 24 7).toNat = 0x20)
    (hn : (if bitAt w 5 = true then 8 else 0) + (fld w 12 3).toNat = n) (h8 : n < 8 := by decide)
    (hw : ∀ o, (mk o).wf = (o.kd != 0#3) := by intro o; rfl)
    (he : ∀ o, encode (mk o) = encGm o.kd o.ka o.kb (BitVec.ofNat 3 n) 0#6 0#6 := by intro o; rfl) :
    Faithful p w (checked p.isSome (fld w 6 6 != 0#6 || fld w 0 5 != 0#5) (fld w 21 3 == 0#3) (mk ⟨fld w 21 3, fld w 18 3, fld w 15 3⟩)) := by
  obtain ⟨h5, hf⟩ := maskNumber_low h8 hn
  refine .bare fun hb hc => ⟨(hw _).trans (bne_iff_ne.mpr (beq_eq_false_iff_ne.mp hc)), (he _).trans (encGm_ok.mpr ?_)⟩
  simp only [Bool.or_eq_false_iff, bne_eq_false_iff_eq] at hb
  exact ⟨rfl, h31, of_toNat hg, rfl, rfl, rfl, of_toNat hf, hb.1, maskImm_iff.mpr ⟨h5, hb.2⟩⟩

/-- A function of a mask with a uniform result (R234). -/
theorem Faithful.maskResult {m n : Nat} {b : Bool} {mk : KReg → Reg → Instr} (hg : (fld w 24 7).toNat = 0x20)
    (hn : bitAt w 5 = b ∧ (fld w 12 3).toNat = m) (hw : ∀ k x, (mk k x).wf = true := by intro k x; rfl)
    (hm : one b ++ 0#5 = BitVec.ofNat 6 n := by rfl)
    (he : ∀ k x, encode (mk k x) = encGm 0#3 k 0#3 (BitVec.ofNat 3 m) x (BitVec.ofNat 6 n) := by intro k x; rfl) :
    Faithful p w (checked p.isSome (fld w 0 5 != 0#5 || fld w 15 3 != 0#3 || !(fld w 21 3 == 0#3)) false (mk (fld w 18 3) (fld w 6 6))) := by
  refine .bare fun hb _ => ⟨hw _ _, (he _ _).trans (encGm_ok.mpr ?_)⟩
  simp only [Bool.or_eq_false_iff, bne_eq_false_iff_eq, Bool.not_eq_false', beq_iff_eq] at hb
  obtain ⟨⟨hi, hk⟩, hd⟩ := hb
  exact ⟨rfl, h31, of_toNat hg, hd, rfl, hk, of_toNat hn.2, rfl, hm ▸ maskImm_iff.mpr ⟨hn.1, hi⟩⟩

theorem faithful_mask (hg : (fld w 24 7).toNat = 0x20) : Faithful p w (decMask p w) := by
  have k0 {x : KReg} (h : (x == 0#3) = false) : (x != 0#3) = true := bne_iff_ne.mpr (beq_eq_false_iff_ne.mp h)
  unfold decMask
  dsimp only
  split <;> rename_i hn
  iterate 4 exact .twoMasks h31 hg hn
  · obtain ⟨h5, hf⟩ := maskNumber_low (by decide) hn
    refine .bare fun hb hc => ⟨k0 hc, encGm_ok.mpr ?_⟩
    simp only [Bool.or_eq_false_iff, bne_eq_false_iff_eq] at hb
    obtain ⟨⟨hx, hi⟩, hk⟩ := hb
    exact ⟨rfl, h31, of_toNat hg, rfl, rfl, hk, of_toNat hf, hx, maskImm_iff.mpr ⟨h5, hi⟩⟩
  · obtain ⟨h5, hf⟩ := maskNumber_low (by decide) hn
    refine .bare fun hb hc => ⟨k0 hc, encGm_ok.mpr ?_⟩
    simp only [Bool.or_eq_false_iff, bne_eq_false_iff_eq] at hb
    obtain ⟨⟨hi, hk⟩, ha⟩ := hb
    exact ⟨rfl, h31, of_toNat hg, rfl, ha, hk, of_toNat hf, rfl, maskImm_iff.mpr ⟨h5, hi⟩⟩
  · exact .maskResult h31 hg (n := 0) (maskNumber_low (by decide) hn)
  · exact .maskResult h31 hg (n := 0) (maskNumber_low (by decide) hn)
  · exact .maskResult h31 hg (n := 0x20) (maskNumber_high (n := 0) hn)
  · obtain ⟨h5, hf⟩ := maskNumber_high (n := 1) hn
    refine .bare fun hb hc => ⟨k0 hc, encGm_ok.mpr ?_⟩
    simp only [Bool.or_eq_false_iff, bne_eq_false_iff_eq] at hb
    obtain ⟨⟨hx, hk⟩, h3⟩ := hb
    exact ⟨rfl, h31, of_toNat hg, rfl, rfl, hk, of_toNat hf, hx, condField_iff.mpr ⟨⟨h5, h3⟩, rfl⟩⟩
  · exact .refused

theorem faithful_control (h : 0x10 ≤ (fld w 24 7).toNat ∧ (fld w 24 7).toNat ≤ 0x1B) : Faithful p w (decControl p w) := by
  unfold decControl
  dsimp only
  split <;> rename_i hg
  · exact .bare fun _ _ => ⟨rfl, encGj_ok.mpr ⟨rfl, h31, of_toNat hg, rfl, rfl⟩⟩
  · exact .bare fun _ _ => ⟨rfl, encGj_ok.mpr ⟨rfl, h31, of_toNat hg, branchField_iff.mpr ⟨rfl, rfl⟩, rfl⟩⟩
  · exact .bare fun _ _ => ⟨rfl, encGj_ok.mpr ⟨rfl, h31, of_toNat hg, branchField_iff.mpr ⟨rfl, rfl⟩, rfl⟩⟩
  · exact .bare fun _ _ => ⟨rfl, encGj_ok.mpr ⟨rfl, h31, of_toNat hg, rfl, rfl⟩⟩
  iterate 4 exact .noOperand h31 hg
  · exact .bare fun hb _ => ⟨rfl, encGi_ok.mpr ⟨rfl, h31, of_toNat hg, rfl, bne_eq_false_iff_eq.mp hb, rfl⟩⟩
  · exact .imm h31 hg (fun hr => byteField_iff.mpr ⟨bne_eq_false_iff_eq.mp hr, rfl⟩) fun _ => rfl
  · refine .bare fun hb _ => ?_
    simp only [Bool.or_eq_false_iff, bne_eq_false_iff_eq, decide_eq_false_iff_not, Nat.not_lt] at hb
    obtain ⟨hr, hle⟩ := hb
    obtain ⟨hd, ha, hb⟩ := noRegs_iff.mp hr
    split <;> rename_i h0
    · exact ⟨rfl, encGr_ok.mpr ⟨rfl, h31, of_toNat hg, hd, ha, hb, h0⟩⟩
    · have h1 : fld w 0 6 = 1#6 := of_toNat (Nat.le_antisymm hle (Nat.pos_of_ne_zero fun e => h0 (of_toNat e)))
      exact ⟨rfl, encGr_ok.mpr ⟨rfl, h31, of_toNat hg, hd, ha, hb, h1⟩⟩
  · have hg : (fld w 24 7).toNat = 0x1B := by simp only [imp_false] at *; omega
    exact .imm h31 hg (fun hr => byteField_iff.mpr ⟨bne_eq_false_iff_eq.mp hr, rfl⟩) fun _ => rfl

theorem faithful_srd (hg : (fld w 24 7).toNat = 0x24) : Faithful p w (decSrd p w) := by
  intro i h
  simp only [decSrd] at h
  split at h
  · cases h
  next j e =>
    obtain ⟨hp, ha, hc, rfl⟩ := checked_ok.mp e
    split at h
    · cases h
    next hn =>
      cases h
      have wf : (decide ((fld w 0 12).toNat ≤ 14) && (!srWide (fld w 0 12) || Reg.even (fld w 18 6))) = true := by
        rw [Bool.and_eq_true]
        exact ⟨decide_eq_true (Nat.le_of_not_lt hn), by cases h : srWide (fld w 0 12) <;> simp_all⟩
      exact ⟨wf, encGi_ok.mpr ⟨by simpa using hp, h31, of_toNat hg, rfl, bne_eq_false_iff_eq.mp ha, rfl⟩⟩

theorem faithful_swr (hg : (fld w 24 7).toNat = 0x25) : Faithful p w (decSwr p w) := by
  intro i h
  simp only [decSwr] at h
  split at h
  · cases h
  next j e =>
    obtain ⟨hp, hd, -, rfl⟩ := checked_ok.mp e
    split at h
    · cases h
    next hn =>
      cases h
      have wf : (fld w 0 12 == 6#12) = true := by simpa using hn
      exact ⟨wf, encGi_ok.mpr ⟨by simpa using hp, h31, of_toNat hg, bne_eq_false_iff_eq.mp hd, rfl, rfl⟩⟩

theorem faithful_state (h : 0x20 ≤ (fld w 24 7).toNat ∧ (fld w 24 7).toNat ≤ 0x25) : Faithful p w (decState p w) := by
  unfold decState
  dsimp only
  split <;> rename_i hg
  · exact faithful_mask h31 hg
  · exact .bare fun hb hc => ⟨by simpa using hc, encKill_ok.mpr ⟨rfl, h31, of_toNat hg, rfl, bne_eq_false_iff_eq.mp hb, rfl⟩⟩
  · refine .bare fun _ hc => ?_
    simp only [Bool.or_eq_false_iff, bne_eq_false_iff_eq, decide_eq_false_iff_not, Nat.not_lt] at hc
    exact ⟨decide_eq_true hc.2, encGi_ok.mpr ⟨rfl, h31, of_toNat hg, windowField_iff.mpr ⟨hc.1, rfl⟩, rfl, rfl⟩⟩
  · exact .imm h31 hg (fun _ => rfl) fun hc => (Bool.not_eq_false' ..).mp hc
  · exact faithful_srd h31 hg
  · exact faithful_swr h31 (by simp only [imp_false] at *; omega)

theorem faithful_uniMem (h : ((fld w 24 7).toNat = 0x28 ∨ (fld w 24 7).toNat = 0x29) ∨ (fld w 24 7).toNat = 0x2B ∨
    (0x30 ≤ (fld w 24 7).toNat ∧ (fld w 24 7).toNat ≤ 0x39)) : Faithful p w (decUniMem p w) := by
  unfold decUniMem
  dsimp only
  split <;> rename_i hg
  · exact .gl h31 hg fun _ _ => rfl
  · exact .gl h31 hg fun hb _ => by simpa using hb
  · exact .gl h31 hg fun _ _ => rfl
  iterate 3 exact .fence h31 hg
  iterate 2 exact .glS h31 hg
  · exact .noOperand h31 hg
  · refine .bare fun hb hc => ⟨by rw [wf_frz, even_fld, hc]; rfl, encGr_ok.mpr ?_⟩
    exact ⟨rfl, h31, of_toNat hg, rfl, rfl, rfl, freezeField_iff.mpr ⟨⟨bne_eq_false_iff_eq.mp hb, rfl⟩, rfl⟩⟩
  iterate 2
    refine .bare fun hb _ => ⟨rfl, encGr_ok.mpr ?_⟩
    simp only [Bool.or_eq_false_iff, bne_eq_false_iff_eq, noImm_iff] at hb
    exact ⟨rfl, h31, of_toNat hg, hb.1, rfl, hb.2.1, hb.2.2⟩
  · have hg : (fld w 24 7).toNat = 0x39 := by simp only [imp_false] at *; omega
    refine .bare fun hb hc => ⟨rfl, encGr_ok.mpr ?_⟩
    simp only [Bool.or_eq_false_iff, bne_eq_false_iff_eq] at hb
    obtain ⟨s, hs⟩ := Option.isSome_iff_exists.mp (by simpa using hc)
    exact ⟨rfl, h31, of_toNat hg, hb.1, rfl, hb.2, by rw [hs]; exact scopeOf_six.mp hs⟩

theorem faithful_ga (h : 0x40 ≤ (fld w 24 7).toNat ∧ (fld w 24 7).toNat ≤ 0x49) : Faithful p w (decGa p w) := by
  unfold decGa
  dsimp only
  split <;> rename_i hg
  iterate 3 exact .copy h31 hg
  · refine .bare fun hb _ => ⟨rfl, encGa_ok.mpr ?_⟩
    simp only [Bool.or_eq_false_iff, bne_eq_false_iff_eq] at hb
    exact ⟨rfl, h31, of_toNat hg, hb.1, rfl, rfl, rfl, hb.2⟩
  iterate 2 exact .gaA h31 hg
  · refine .bare fun hb _ => ⟨rfl, encGa_ok.mpr ?_⟩
    simp only [Bool.or_eq_false_iff, bne_eq_false_iff_eq, noGaImm_iff] at hb
    exact ⟨rfl, h31, of_toNat hg, hb.1, rfl, rfl, hb.2.1, hb.2.2⟩
  · exact .bare fun hb hc => ⟨by rw [wf_rafg, even_fld, hc]; rfl, encGa_ok.mpr ⟨rfl, h31, of_toNat hg, bne_eq_false_iff_eq.mp hb, rfl, rfl, rfl, rfl⟩⟩
  · refine .bare fun hb _ => ⟨rfl, encGa_ok.mpr ?_⟩
    simp only [Bool.or_eq_false_iff, bne_eq_false_iff_eq] at hb
    obtain ⟨⟨hf, hr⟩, hb⟩ := hb
    exact ⟨rfl, h31, of_toNat hg, hf, hr, rfl, hb, rfl⟩
  · have hg : (fld w 24 7).toNat = 0x49 := by simp only [imp_false] at *; omega
    refine .bare fun hb _ => ⟨rfl, encGa_ok.mpr ?_⟩
    simp only [Bool.or_eq_false_iff, bne_eq_false_iff_eq] at hb
    obtain ⟨⟨hf, hr⟩, hb⟩ := hb
    exact ⟨rfl, h31, of_toNat hg, ringField_iff.mpr ⟨hf, rfl⟩, hr, rfl, hb, rfl⟩

theorem faithful_matrix (h : 0x50 ≤ (fld w 24 7).toNat ∧ (fld w 24 7).toNat ≤ 0x58) : Faithful p w (decMatrix p w) := by
  have row (hc : (!regRange (fld w 18 6) 4) = false) : regRange (fld w 18 6) 4 = true := by simpa using hc
  unfold decMatrix
  dsimp only
  split <;> rename_i hg
  iterate 2 exact .noOperand h31 hg
  · exact .imm h31 hg (fun _ => rfl) fun hc => decide_eq_true (Nat.le_of_not_lt (of_decide_eq_false hc))
  · refine .gl h31 hg fun _ hc => decide_eq_true ?_
    have := congrArg BitVec.toNat (bne_eq_false_iff_eq.mp hc)
    rw [fld_toNat, BitVec.toNat_ofNat] at this
    show (fld w 14 6).toNat ≤ 7
    rw [fld_toNat]
    omega
  · refine .guarded fun _ hb hc => ⟨bne_iff_ne.mpr (beq_eq_false_iff_ne.mp hc), ?_⟩
    simp only [encode_mloop, Option.some.injEq, Prod.mk.injEq]
    exact ⟨mloopPayload_iff.mpr rfl, mloopWord_iff.mpr ⟨h31, of_toNat hg, rfl, rfl, bne_eq_false_iff_eq.mp hb, rfl, rfl⟩⟩
  · exact .imm h31 hg (fun _ => rfl) fun hc => decide_eq_true (Nat.le_of_not_lt (of_decide_eq_false hc))
  iterate 2
    exact .bare fun hb hc => ⟨row hc, encGi_ok.mpr ⟨rfl, h31, of_toNat hg, rfl, rfl, tileField_iff.mpr ⟨bne_eq_false_iff_eq.mp hb, rfl⟩⟩⟩
  · have hg : (fld w 24 7).toNat = 0x58 := by simp only [imp_false] at *; omega
    refine .bare fun hb _ => ?_
    simp only [Bool.or_eq_false_iff, Bool.and_eq_false_iff, bne_eq_false_iff_eq] at hb
    obtain ⟨hd, hi⟩ := hb
    split <;> rename_i off
    · simp only [Bool.and_eq_true, beq_iff_eq] at off
      exact ⟨rfl, encGi_ok.mpr ⟨rfl, h31, of_toNat hg, hd, off.1, off.2⟩⟩
    · have h0 : fld w 0 12 = 0#12 := by
        rcases hi with h | h
        · exact h
        · exact absurd (by simpa using h) off
      exact ⟨rfl, encGi_ok.mpr ⟨rfl, h31, of_toNat hg, hd, rfl, h0⟩⟩

theorem faithful_uniform : Faithful p w (decUniform p w) := by
  unfold decUniform
  dsimp only
  split <;> rename_i hg
  · exact faithful_scalar h31 hg
  · exact faithful_pair h31 hg
  iterate 4 exact .gi h31 hg
  iterate 2 exact .giSh h31 hg
  · exact .guarded fun hp hb _ => ⟨rfl, encGiHi_ok.mpr ⟨⟨rfl, hp⟩, h31, of_toNat hg, rfl, bne_eq_false_iff_eq.mp hb, rfl⟩⟩
  · exact .guarded fun hp hb _ => ⟨rfl, encGiHi_ok.mpr ⟨⟨rfl, hp⟩, h31, of_toNat hg, bne_eq_false_iff_eq.mp hb, rfl, rfl⟩⟩
  · refine .bare fun hb hc => ⟨by rw [wf_tsub, even_fld, hc]; rfl, encGr_ok.mpr ?_⟩
    simp only [Bool.or_eq_false_iff, bne_eq_false_iff_eq, noImm_iff] at hb
    exact ⟨rfl, h31, of_toNat hg, hb.1, rfl, hb.2.1, hb.2.2⟩
  · split
    next h => exact faithful_control h31 h
    split
    next h => exact faithful_state h31 h
    split
    next h => exact faithful_uniMem h31 (by omega)
    split
    next h => exact faithful_ga h31 h
    split
    next h => exact faithful_matrix h31 h
    exact .refused

end

/-- What is accepted of any word, with or without a payload before it. -/
theorem faithful_decode : Faithful p w (decode p w) := by
  intro i h
  rw [decode] at h
  split at h
  · cases h
  split at h
  next h31 => exact faithful_uniform h31 i h
  next h31 => exact faithful_lane (Bool.eq_false_of_not_eq_true h31) i h

end

/-- Settles O3: each form of the decoder accepts only the code of its own instruction. -/
theorem decodeEncode : Obligations.DecodeEncode := fun _ _ i h => faithful_decode i h

end Sys2Proof.Machine
end

section

/-! SUPPORT. The words of the uniform set that are read back (R81 to R90, R99), and so all words. -/

namespace Sys2Proof.Machine

-- One proof at a time, to keep the compile small: they share the equations of the model's long matches.
set_option Elab.async false

section
variable {p : Option Payload} {w : Word}

/-- A word with bit 31 set that is no `XP` is of the uniform set (R75, R90). -/
theorem decode_uniform {gop : BitVec 7} (h31 : bitAt w 31 = true) (hg : fld w 24 7 = gop) (hx : gop ≠ 0x7F#7) : decode p w = decUniform p w := by
  have xp : isXp w = false := by
    refine beq_eq_false_iff_ne.mpr fun e => hx ?_
    exact hg.symm.trans ((fld_eq_append (n := 1) (m := 7) (x := 1#1) (y := 0x7F#7)).mp e).2
  simp only [decode, xp, h31, Bool.false_eq_true, if_false, if_true]

/-- A word of the uniform set is read as what its form's checks let through. -/
theorem reads_uniform {gop : BitVec 7} {a b c : Bool} {i : Instr} (h31 : bitAt w 31 = true) (hg : fld w 24 7 = gop)
    (hd : decUniform p w = checked a b c i) (ha : a = false) (hb : b = false) (hc : c = false) (hx : gop ≠ 0x7F#7 := by decide) :
    decode p w = .ok i := by
  rw [decode_uniform h31 hg hx, hd]
  exact checked_ok.mpr ⟨ha, hb, hc, rfl⟩

section
variable {gop : BitVec 7}

theorem reads_threeRegs {f : BitVec 6} (range : GrB → Bool) {mk : GrB → Instr} {o : GrB} (he : encGr gop o.d o.a o.b f = some (p, w)) (hw : range o = false)
    (hd : fld w 24 7 = gop → fld w 0 6 = f → decUniform none w = checked false false (range (Sys2Proof.grB w)) (mk (Sys2Proof.grB w)))
    (hx : gop ≠ 0x7F#7 := by decide) : decode p w = .ok (mk o) := by
  obtain ⟨d, a, b⟩ := o
  obtain ⟨rfl, h31, hg, rfl, rfl, rfl, hf⟩ := encGr_ok.mp he
  exact reads_uniform h31 hg (hd hg hf) rfl rfl hw hx

theorem reads_twoRegs {f : BitVec 6} (range : GrU → Bool) {mk : GrU → Instr} {o : GrU} (he : encGr gop o.d o.a 0#6 f = some (p, w)) (hw : range o = false)
    (hd : fld w 24 7 = gop → fld w 0 6 = f → decUniform none w = checked false (fld w 6 6 != 0#6) (range (Sys2Proof.grU w)) (mk (Sys2Proof.grU w)))
    (hx : gop ≠ 0x7F#7 := by decide) : decode p w = .ok (mk o) := by
  obtain ⟨d, a⟩ := o
  obtain ⟨rfl, h31, hg, rfl, rfl, hb, hf⟩ := encGr_ok.mp he
  exact reads_uniform h31 hg (hd hg hf) rfl (bne_eq_false_iff_eq.mpr hb) hw hx

theorem reads_compareRegs {f : BitVec 6} (range : GrC → Bool) {mk : GrC → Instr} {o : GrC} (he : encGr gop 0#6 o.a o.b f = some (p, w)) (hw : range o = false)
    (hd : fld w 24 7 = gop → fld w 0 6 = f → decUniform none w = checked false (fld w 18 6 != 0#6) (range (Sys2Proof.grC w)) (mk (Sys2Proof.grC w)))
    (hx : gop ≠ 0x7F#7 := by decide) : decode p w = .ok (mk o) := by
  obtain ⟨a, b⟩ := o
  obtain ⟨rfl, h31, hg, hd', rfl, rfl, hf⟩ := encGr_ok.mp he
  exact reads_uniform h31 hg (hd hg hf) rfl (bne_eq_false_iff_eq.mpr hd') hw hx

theorem reads_gi {mk : GiOp → Instr} {o : GiOp} (he : encGiHi gop o.d o.a o.imm o.hi = some (p, w))
    (hd : fld w 24 7 = gop → decUniform p w = decGi p w mk) (hx : gop ≠ 0x7F#7 := by decide) : decode p w = .ok (mk o) := by
  obtain ⟨d, a, imm, hi⟩ := o
  obtain ⟨⟨rfl, hp⟩, h31, hg, rfl, rfl, rfl⟩ := encGiHi_ok.mp he
  exact reads_uniform h31 hg (hd hg) hp rfl rfl hx

theorem reads_giSh {mk : GiSh → Instr} {o : GiSh} (he : encGi gop o.d o.a (0#7 ++ o.sh) = some (p, w))
    (hd : fld w 24 7 = gop → decUniform none w = decGiSh none w mk) (hx : gop ≠ 0x7F#7 := by decide) : decode p w = .ok (mk o) := by
  obtain ⟨d, a, sh⟩ := o
  obtain ⟨rfl, h31, hg, rfl, rfl, hi⟩ := encGi_ok.mp he
  obtain ⟨h5, rfl⟩ := shiftField_iff.mp hi
  exact reads_uniform h31 hg (hd hg) rfl rfl (bne_eq_false_iff_eq.mpr h5) hx

theorem reads_imm {r c : Bool} {i : Instr} {x : BitVec 12} (he : encGi gop 0#6 0#6 x = some (p, w))
    (hd : fld w 24 7 = gop → fld w 0 12 = x → decUniform none w = decImm none w r c i) (hr : fld w 0 12 = x → r = false) (hc : c = false)
    (hx : gop ≠ 0x7F#7 := by decide) : decode p w = .ok i := by
  obtain ⟨rfl, h31, hg, hd', ha, hi⟩ := encGi_ok.mp he
  exact reads_uniform h31 hg (hd hg hi) rfl (by rw [hd', ha, hr hi]; rfl) hc hx

theorem reads_none {i : Instr} (he : encNone gop = some (p, w)) (hd : fld w 24 7 = gop → decUniform none w = decNone none w i)
    (hx : gop ≠ 0x7F#7 := by decide) : decode p w = .ok i := by
  obtain ⟨rfl, h31, hg, h0⟩ := encNone_ok.mp he
  exact reads_uniform h31 hg (hd hg) rfl (bne_eq_false_iff_eq.mpr h0) rfl hx

theorem reads_fence {mk : Scope → Instr} {s : Scope} (he : encGr gop 0#6 0#6 0#6 (BitVec.ofNat 6 s.code) = some (p, w))
    (hd : fld w 24 7 = gop → decUniform none w = decFence none w mk) (hx : gop ≠ 0x7F#7 := by decide) : decode p w = .ok (mk s) := by
  obtain ⟨rfl, h31, hg, hr⟩ := encGr_ok.mp he
  obtain ⟨hd', ha, hb, hf⟩ := hr
  have h0 := noRegs_iff.mpr ⟨hd', ha, hb⟩
  rw [decFence, scopeOf_six.mpr hf] at hd
  exact reads_uniform h31 hg (hd hg) rfl (bne_eq_false_iff_eq.mpr h0) rfl hx

theorem reads_glS {mk : GlS → Instr} {o : GlS} (he : encGlS gop o = some (p, w)) (hd : fld w 24 7 = gop → decUniform p w = decGlS p w mk)
    (hx : gop ≠ 0x7F#7 := by decide) : decode p w = .ok (mk o) := by
  obtain ⟨h31, hg, hs, ho⟩ := encGlS_ok.mp he
  rw [decGlS, hs] at hd
  rw [← ho]
  exact reads_uniform h31 hg (hd hg) rfl rfl rfl hx

theorem reads_gl {b c : Bool} {mk : GlOp → Instr} {o : GlOp} (he : encGl gop o = some (p, w))
    (hd : fld w 24 7 = gop → decUniform p w = checked false b c (mk (glOp p w))) (hb : glOp p w = o → b = false) (hc : glOp p w = o → c = false)
    (hx : gop ≠ 0x7F#7 := by decide) : decode p w = .ok (mk o) := by
  obtain ⟨h31, hg, rfl⟩ := encGl_ok.mp he
  exact reads_uniform h31 hg (hd hg) rfl (hb rfl) (hc rfl) hx

theorem reads_copy {three : Bool} {mk : GaC → Instr} {o : GaC} (he : encCopy gop o = some (p, w)) (hw : o.wf three = true)
    (hd : fld w 24 7 = gop → decUniform none w = decCopy none w three mk) (hx : gop ≠ 0x7F#7 := by decide) : decode p w = .ok (mk o) := by
  obtain ⟨ring, r, a, b, imm⟩ := o
  obtain ⟨rfl, h31, hg, hf, rfl, rfl, rfl, rfl⟩ := encGa_ok.mp he
  obtain ⟨h0, rfl⟩ := ringField_iff.mp hf
  obtain ⟨hi, hr⟩ := Bool.and_eq_true_iff.mp hw
  refine reads_uniform h31 hg (hd hg) rfl ?_ ?_ hx
  · rw [h0]
    simpa [← Bool.not_eq_true, imp_iff_not_or] using hi
  · cases three with
    | false => rfl
    | true => simpa using hr

theorem reads_gaA {mk : Reg → Instr} {a : Reg} (he : encGa gop 0#4 0#5 a 0#6 0#3 = some (p, w))
    (hd : fld w 24 7 = gop → decUniform none w = decGaA none w mk) (hx : gop ≠ 0x7F#7 := by decide) : decode p w = .ok (mk a) := by
  obtain ⟨rfl, h31, hg, hf, hr, rfl, hb, hi⟩ := encGa_ok.mp he
  exact reads_uniform h31 hg (hd hg) rfl (by rw [hf, hr, hb, hi]; rfl) rfl hx

end

theorem reads_srd {d : Reg} {n : BitVec 12} (he : encode (.srd d n) = some (p, w)) (hw : (Instr.srd d n).wf = true) : decode p w = .ok (.srd d n) := by
  obtain ⟨rfl, h31, hg, rfl, ha, rfl⟩ := encGi_ok.mp he
  obtain ⟨hn, hp⟩ := Bool.and_eq_true_iff.mp hw
  have hd : decUniform none w = decSrd none w := by rw [decUniform, hg, decState, hg]; rfl
  have pair : (srWide (fld w 0 12) && !Reg.even (fld w 18 6)) = false := by
    cases h : srWide (fld w 0 12) <;> simp_all
  have hc : checked false (fld w 12 6 != 0#6) (srWide (fld w 0 12) && !Reg.even (fld w 18 6)) (.srd (fld w 18 6) (fld w 0 12)) =
      .ok (.srd (fld w 18 6) (fld w 0 12)) := checked_ok.mpr ⟨rfl, bne_eq_false_iff_eq.mpr ha, pair, rfl⟩
  rw [decode_uniform h31 hg (by decide), hd]
  simp only [decSrd, Option.isSome_none, hc]
  exact if_neg (Nat.not_lt.mpr (of_decide_eq_true hn))

theorem reads_swr {a : Reg} {n : BitVec 12} (he : encode (.swr a n) = some (p, w)) (hw : (Instr.swr a n).wf = true) : decode p w = .ok (.swr a n) := by
  obtain ⟨rfl, h31, hg, hz, rfl, rfl⟩ := encGi_ok.mp he
  have hd : decUniform none w = decSwr none w := by rw [decUniform, hg, decState, hg]; rfl
  have hn : fld w 0 12 = 6#12 := beq_iff_eq.mp hw
  have hc : checked false (fld w 18 6 != 0#6) false (.swr (fld w 12 6) (fld w 0 12)) = .ok (.swr (fld w 12 6) (fld w 0 12)) :=
    checked_ok.mpr ⟨rfl, bne_eq_false_iff_eq.mpr hz, rfl, rfl⟩
  rw [decode_uniform h31 hg (by decide), hd]
  simp only [decSwr, Option.isSome_none, hc]
  exact if_neg (by rw [hn]; decide)

theorem reads_mshape {o : GlOp} (he : encode (.mshape o) = some (p, w)) (hw : (Instr.mshape o).wf = true) : decode p w = .ok (.mshape o) := by
  obtain ⟨h31, hg, rfl⟩ := encGl_ok.mp he
  have hslot : (fld w 14 6).toNat ≤ 7 := of_decide_eq_true hw
  have high : fld w 17 3 = 0#3 := by
    refine BitVec.eq_of_toNat_eq ?_
    rw [fld_toNat] at hslot ⊢
    rw [BitVec.toNat_ofNat]
    omega
  exact reads_uniform h31 hg (by rw [decUniform, hg, decMatrix, hg]; rfl) rfl rfl (bne_eq_false_iff_eq.mpr high)

theorem reads_mloop {o : MloopOp} (he : encode (.mloop o) = some (p, w)) (hw : (Instr.mloop o).wf = true) : decode p w = .ok (.mloop o) := by
  obtain ⟨sl, vs, sel, n, inc⟩ := o
  simp only [encode_mloop, Option.some.injEq, Prod.mk.injEq, mloopPayload_iff, mloopWord_iff] at he
  obtain ⟨rfl, h31, hg, rfl, rfl, h0, rfl, rfl⟩ := he
  exact reads_uniform h31 hg (by rw [decUniform, hg, decMatrix, hg]; rfl) rfl (bne_eq_false_iff_eq.mpr h0) (beq_eq_false_iff_ne.mpr (bne_iff_ne.mp hw))

/-- A function of two masks: any D but `k0`. -/
theorem reads_twoMasks {f : BitVec 3} {mk : GmB → Instr} {o : GmB} (he : encGm o.kd o.ka o.kb f 0#6 0#6 = some (p, w)) (hw : (o.kd != 0#3) = true)
    (hd : fld w 24 7 = 0x20#7 → bitAt w 5 = false → fld w 12 3 = f → decUniform none w = checked false (fld w 6 6 != 0#6 || fld w 0 5 != 0#5)
      (fld w 21 3 == 0#3) (mk ⟨fld w 21 3, fld w 18 3, fld w 15 3⟩)) : decode p w = .ok (mk o) := by
  obtain ⟨kd, ka, kb⟩ := o
  obtain ⟨rfl, h31, hg, rfl, rfl, rfl, hf, hx, hi⟩ := encGm_ok.mp he
  obtain ⟨h5, h0⟩ := maskImm_zero.mp hi
  exact reads_uniform h31 hg (hd hg h5 hf) rfl (by rw [hx, h0]; rfl) (beq_eq_false_iff_ne.mpr (bne_iff_ne.mp hw))

/-- A function of a mask with a uniform result. -/
theorem reads_maskResult {f : BitVec 3} {b : Bool} {mk : KReg → Reg → Instr} {ka : KReg} {x : Reg} (he : encGm 0#3 ka 0#3 f x (one b ++ 0#5) = some (p, w))
    (hd : fld w 24 7 = 0x20#7 → bitAt w 5 = b → fld w 12 3 = f → decUniform none w =
      checked false (fld w 0 5 != 0#5 || fld w 15 3 != 0#3 || !(fld w 21 3 == 0#3)) false (mk (fld w 18 3) (fld w 6 6))) :
    decode p w = .ok (mk ka x) := by
  obtain ⟨rfl, h31, hg, hk, rfl, hb, hf, rfl, hi⟩ := encGm_ok.mp he
  obtain ⟨h5, h0⟩ := maskImm_iff.mp hi
  exact reads_uniform h31 hg (hd hg h5 hf) rfl (by rw [h0, hb, hk]; rfl) rfl

end

/-- Settles O2: each form has the operands of its code again, and its opcode leads the decoder to that form. -/
theorem encodeDecode : Obligations.EncodeDecode := by
  intro i p w hw he
  cases i with
  | iadd | iaddc | isub | isubb | imin | imax | iminu | imaxu | iand | ior | ixor | iandn | ishl | ishr | isra | irot | ibyte | imul | imulh | imulhu
  | imad | ibfe | ibfeu | ibfi | fadd | fsub | fmul | fma | fms | fnma | fmin | fmax | fsel | fcpys =>
    exact reads_lrB he hw fun hl hf => by rw [decLane, hl, decArith, hl, hf]; rfl
  | iabs | ineg | inot | imov | iclz | ipopc | ibrev | fabs | fneg | fclass =>
    exact reads_lrU he hw fun hl hf => by rw [decLane, hl, decArith, hl, hf]; rfl
  | icmp | icmpu | fcmp => exact reads_lrC he hw fun hl hf => by rw [decLane, hl, decArith, hl, hf]; rfl
  | frnd | cvtif | cvtnf | cvthf | cvtbf | cvtfi | cvtfn | cvtfh | cvtfb =>
    exact reads_cvt he hw fun hl hf => by rw [decLane, hl, decArith, hl, hf]; rfl
  | isel => exact reads_isel he hw
  | fmas => exact reads_fmas he
  | iaddi | iandi | iori | ixori => exact reads_li he fun hl => by rw [decLane, hl]; rfl
  | ishli | ishri | israi => exact reads_liSh he fun hl => by rw [decLane, hl]; rfl
  | imovi => exact reads_imovi he
  | fdiv | idiv | idivu | irem | iremu => exact reads_llB he fun hl => by rw [decLane, hl]; rfl
  | fsqrt | frcp | frsq | fexp2 | flog2 | fsin | fcos | ftanh | fsigm => exact reads_sfu he (by decide) fun hb => by rw [decSfu, hb]; rfl
  | mvt => exact reads_mvt he hw
  | ldg | ldff | ldp | ldc => exact reads_ld he hw (fun _ => rfl) fun hl => by rw [decLane, hl]; rfl
  | ldgs => exact reads_ldgs he hw
  | stg | stp => exact reads_st he hw fun hl => by rw [decLane, hl]; rfl
  | padd | psub | pmul | pfma => exact reads_lp (fun _ => true) (fun _ => true) he ⟨rfl, rfl⟩ fun hl => by rw [decLane, hl, decPacked, hl]; rfl
  | pmin | pmax | pcmpeq | pcmplt | pdot => exact reads_lp (!·.s) (fun _ => true) he ⟨hw, rfl⟩ fun hl => by rw [decLane, hl, decPacked, hl]; rfl
  | pabs => exact reads_lp (fun o => o.b == 0#6 && (o.t.isInt || !o.s)) (fun _ => true) he ⟨hw, rfl⟩ fun hl => by rw [decLane, hl, decPacked, hl]; rfl
  | pavg | psad => exact reads_lp LpB.intOnly (fun _ => true) he ⟨hw, rfl⟩ fun hl => by rw [decLane, hl, decPacked, hl]; rfl
  | pmov =>
    exact reads_lp (!·.s) (fun o => decide (o.b.toNat < 32 / o.t.width)) he (Bool.and_eq_true_iff.mp hw) fun hl => by rw [decLane, hl, decPacked, hl]; rfl
  | pcvt => exact reads_pcvt he hw
  | atomg | redg => exact reads_lrF (·.c) (!·.b.even) he (by simpa using hw) fun hl _ => by rw [decLane, hl, decCross, hl]; rfl
  | atomp => exact reads_lrF (·.c) (fun _ => false) he (by simpa using hw) fun hl _ => by rw [decLane, hl, decCross, hl]; rfl
  | xshfl =>
    exact reads_lrF (fun o => decide (3 < o.f.toNat)) (fun _ => false) he (by simpa using hw) fun hl _ => by rw [decLane, hl, decCross, hl]; rfl
  | xgather | xvote =>
    exact reads_lrF (fun o => decide (3 < o.f.toNat) || o.b != 0#6) (fun _ => false) he (by simpa using hw) fun hl _ => by rw [decLane, hl, decCross, hl]; rfl
  | xred | xscan | xscane =>
    exact reads_lrF (·.b != 0#6) (fun _ => false) he (by simpa using hw) fun hl _ => by rw [decLane, hl, decCross, hl]; rfl
  | xsegred | xsegscan => exact reads_lrF (fun _ => false) (fun _ => false) he ⟨rfl, rfl⟩ fun hl _ => by rw [decLane, hl, decCross, hl]; rfl
  | casg o =>
    have h : o.f = 1#3 ∧ (o.b.even = true ∧ regRange o.d 2 = true) := by simpa [and_assoc] using hw
    exact reads_lrF (fun _ => false) (fun o => !(o.b.even && regRange o.d 2)) he (by simpa using h.2) fun hl hf => by rw [decLane, hl, decCross, hl, hf, h.1]; rfl
  | casp o =>
    have h : o.f = 3#3 := by simpa using hw
    exact reads_lrF (fun _ => false) (fun _ => false) he ⟨rfl, rfl⟩ fun hl hf => by rw [decLane, hl, decCross, hl, hf, h]; rfl
  | xisect | xchgp => exact reads_lrN (fun _ => false) (fun _ => false) he ⟨rfl, rfl⟩ fun hl hf h21 => by rw [decLane, hl, decCross, hl, hf, h21]; rfl
  | qpush =>
    exact reads_lrN (·.d != 0#6) (fun _ => false) he (by simpa using hw) fun hl hf h21 => by rw [decLane, hl, decCross, hl, hf, h21]; rfl
  | qpop | qlen =>
    exact reads_lrN (·.b != 0#6) (fun _ => false) he (by simpa using hw) fun hl hf h21 => by rw [decLane, hl, decCross, hl, hf, h21]; rfl
  | emit =>
    exact reads_lrN (·.d != 0#6) (!regRange ·.a 4) he (by simpa using hw) fun hl hf h21 => by rw [decLane, hl, decCross, hl, hf, h21]; rfl
  | xchgg =>
    exact reads_lrN (fun _ => false) (!·.b.even) he (by simpa using hw) fun hl hf h21 => by rw [decLane, hl, decCross, hl, hf, h21]; rfl
  | sadd | saddc | ssub | ssubb | sand | sor | sxor | sandn | sshl | sshr | ssra | smul | smulh | smulhu | smin | smax | sminu | smaxu | ssel =>
    exact reads_threeRegs (fun _ => false) he rfl fun hg hf => by rw [decUniform, hg, decScalar, hf]; rfl
  | sclz | spopc | smov => exact reads_twoRegs (fun _ => false) he rfl fun hg hf => by rw [decUniform, hg, decScalar, hf]; rfl
  | scmp | scmpu => exact reads_compareRegs (fun _ => false) he rfl fun hg hf => by rw [decUniform, hg, decScalar, hf]; rfl
  | sadd64 | ssub64 =>
    exact reads_threeRegs (fun o => !(o.d.even && o.a.even) || !o.b.even) he (by simpa using hw) fun hg hf => by
      rw [decUniform, hg, decPair, hf]; rfl
  | smov64 => exact reads_twoRegs (fun o => !(o.d.even && o.a.even)) he (by simpa using hw) fun hg hf => by rw [decUniform, hg, decPair, hf]; rfl
  | sshl64 => exact reads_threeRegs (fun o => !(o.d.even && o.a.even)) he (by simpa using hw) fun hg hf => by rw [decUniform, hg, decPair, hf]; rfl
  | scmp64 => exact reads_compareRegs (fun o => !(o.a.even && o.b.even)) he (by simpa using hw) fun hg hf => by rw [decUniform, hg, decPair, hf]; rfl
  | saddi | sandi | sori | sxori => exact reads_gi he fun hg => by rw [decUniform, hg]; rfl
  | sshli | sshri => exact reads_giSh he fun hg => by rw [decUniform, hg]; rfl
  | smovi o =>
    obtain ⟨r, imm, hi⟩ := o
    obtain ⟨⟨rfl, hp⟩, h31, hg, rfl, ha, rfl⟩ := encGiHi_ok.mp he
    exact reads_uniform h31 hg (by rw [decUniform, hg]; rfl) hp (bne_eq_false_iff_eq.mpr ha) rfl
  | scmpi o =>
    obtain ⟨r, imm, hi⟩ := o
    obtain ⟨⟨rfl, hp⟩, h31, hg, hd, rfl, rfl⟩ := encGiHi_ok.mp he
    exact reads_uniform h31 hg (by rw [decUniform, hg]; rfl) hp (bne_eq_false_iff_eq.mpr hd) rfl
  | bc o | call o =>
    obtain ⟨cond, off⟩ := o
    obtain ⟨rfl, h31, hg, rfl, rfl⟩ := encGj_ok.mp he
    exact reads_uniform h31 hg (by rw [decUniform, hg, decControl, hg]; rfl) rfl rfl rfl
  | bmz o | bmnz o =>
    obtain ⟨s, m, off⟩ := o
    obtain ⟨rfl, h31, hg, hc, rfl⟩ := encGj_ok.mp he
    obtain ⟨rfl, rfl⟩ := branchField_iff.mp hc
    exact reads_uniform h31 hg (by rw [decUniform, hg, decControl, hg]; rfl) rfl rfl rfl
  | ret | regang | exit | nop => exact reads_none he fun hg => by rw [decUniform, hg, decControl, hg]; rfl
  | loop =>
    obtain ⟨rfl, h31, hg, rfl, ha, rfl⟩ := encGi_ok.mp he
    exact reads_uniform h31 hg (by rw [decUniform, hg, decControl, hg]; rfl) rfl (bne_eq_false_iff_eq.mpr ha) rfl
  | trap | brk =>
    exact reads_imm he (fun hg hi => by rw [← (byteField_iff.mp hi).2, decUniform, hg, decControl, hg]; rfl)
      (fun hi => bne_eq_false_iff_eq.mpr (byteField_iff.mp hi).1) rfl
  | rteRetry | rteSkip =>
    obtain ⟨rfl, h31, hg, hd, ha, hb, hf⟩ := encGr_ok.mp he
    exact reads_uniform h31 hg (by rw [decUniform, hg, decControl, hg, hf]; rfl) rfl (by rw [noRegs_iff.mpr ⟨hd, ha, hb⟩]; rfl) rfl
  | kand | kor | kxor | kandn => exact reads_twoMasks he hw fun hg h5 hf => by rw [decUniform, hg, decState, hg, decMask, h5, hf]; rfl
  | knot =>
    obtain ⟨rfl, h31, hg, rfl, rfl, hk, hf, hx, hi⟩ := encGm_ok.mp he
    obtain ⟨h5, h0⟩ := maskImm_zero.mp hi
    exact reads_uniform h31 hg (by rw [decUniform, hg, decState, hg, decMask, h5, hf]; rfl) rfl (by rw [hx, h0, hk]; rfl)
      (beq_eq_false_iff_ne.mpr (bne_iff_ne.mp hw))
  | kmov =>
    obtain ⟨rfl, h31, hg, rfl, ha, hk, hf, rfl, hi⟩ := encGm_ok.mp he
    obtain ⟨h5, h0⟩ := maskImm_zero.mp hi
    exact reads_uniform h31 hg (by rw [decUniform, hg, decState, hg, decMask, h5, hf]; rfl) rfl (by rw [h0, ha, hk]; rfl)
      (beq_eq_false_iff_ne.mpr (bne_iff_ne.mp hw))
  | ktos | kpop => exact reads_maskResult (b := false) he fun hg h5 hf => by rw [decUniform, hg, decState, hg, decMask, h5, hf]; rfl
  | kffs => exact reads_maskResult (b := true) he fun hg h5 hf => by rw [decUniform, hg, decState, hg, decMask, h5, hf]; rfl
  | kset =>
    obtain ⟨rfl, h31, hg, rfl, rfl, hk, hf, hx, hi⟩ := encGm_ok.mp he
    obtain ⟨⟨h5, h3⟩, rfl⟩ := condField_iff.mp hi
    exact reads_uniform h31 hg (by rw [decUniform, hg, decState, hg, decMask, h5, hf]; rfl) rfl (by rw [hx, hk, h3]; rfl)
      (beq_eq_false_iff_ne.mpr (bne_iff_ne.mp hw))
  | kill =>
    obtain ⟨rfl, h31, hg, rfl, h0, rfl⟩ := encKill_ok.mp he
    exact reads_uniform h31 hg (by rw [decUniform, hg, decState, hg]; rfl) rfl (bne_eq_false_iff_eq.mpr h0) (by simpa using hw)
  | win =>
    obtain ⟨rfl, h31, hg, hd, rfl, rfl⟩ := encGi_ok.mp he
    obtain ⟨h0, rfl⟩ := windowField_iff.mp hd
    exact reads_uniform h31 hg (by rw [decUniform, hg, decState, hg]; rfl) rfl rfl (by rw [h0]; simpa using hw)
  | setpart =>
    obtain ⟨rfl, h31, hg, hd, ha, rfl⟩ := encGi_ok.mp he
    exact reads_uniform h31 hg (by rw [decUniform, hg, decState, hg]; rfl) rfl (by rw [hd, ha]; rfl) ((Bool.not_eq_false' ..).mpr hw)
  | srd => exact reads_srd he hw
  | swr => exact reads_swr he hw
  | sld | sldc => exact reads_gl he (fun hg => by rw [decUniform, hg, decUniMem, hg]; rfl) (fun _ => rfl) fun _ => rfl
  | sst =>
    exact reads_gl he (fun hg => by rw [decUniform, hg, decUniMem, hg]; rfl) (fun e => by rw [e]; simpa using hw) fun _ => rfl
  | fence | acq | rel => exact reads_fence he fun hg => by rw [decUniform, hg, decUniMem, hg]; rfl
  | acqr | rels => exact reads_glS he fun hg => by rw [decUniform, hg, decUniMem, hg]; rfl
  | bar => exact reads_none he fun hg => by rw [decUniform, hg, decUniMem, hg]; rfl
  | frz =>
    obtain ⟨rfl, h31, hg, rfl, rfl, rfl, hf⟩ := encGr_ok.mp he
    obtain ⟨⟨h0, rfl⟩, rfl⟩ := freezeField_iff.mp hf
    refine reads_uniform h31 hg (by rw [decUniform, hg, decUniMem, hg]; rfl) rfl (bne_eq_false_iff_eq.mpr h0) ?_
    rwa [wf_frz, even_fld, Bool.not_eq_true'] at hw
  | thw | fwait =>
    obtain ⟨rfl, h31, hg, hd, rfl, hb, hf⟩ := encGr_ok.mp he
    exact reads_uniform h31 hg (by rw [decUniform, hg, decUniMem, hg]; rfl) rfl (by rw [hd, noImm_iff.mpr ⟨hb, hf⟩]; rfl) rfl
  | publish =>
    obtain ⟨rfl, h31, hg, hd, rfl, hb, hf⟩ := encGr_ok.mp he
    exact reads_uniform h31 hg (by rw [decUniform, hg, decUniMem, hg, scopeOf_six.mpr hf]; rfl) rfl (by rw [hd, hb]; rfl) rfl
  | cpy | cpy2d | cpyg => exact reads_copy he hw fun hg => by rw [decUniform, hg, decGa, hg]; rfl
  | cpyo =>
    obtain ⟨rfl, h31, hg, hf, rfl, rfl, rfl, hi⟩ := encGa_ok.mp he
    exact reads_uniform h31 hg (by rw [decUniform, hg, decGa, hg]; rfl) rfl (by rw [hf, hi]; rfl) rfl
  | closeb | waitb => exact reads_gaA he fun hg => by rw [decUniform, hg, decGa, hg]; rfl
  | raf =>
    obtain ⟨rfl, h31, hg, hf, rfl, rfl, hb, hi⟩ := encGa_ok.mp he
    exact reads_uniform h31 hg (by rw [decUniform, hg, decGa, hg]; rfl) rfl (by rw [hf, noGaImm_iff.mpr ⟨hb, hi⟩]; rfl) rfl
  | rafg =>
    obtain ⟨rfl, h31, hg, hf, rfl, rfl, rfl, rfl⟩ := encGa_ok.mp he
    refine reads_uniform h31 hg (by rw [decUniform, hg, decGa, hg]; rfl) rfl (bne_eq_false_iff_eq.mpr hf) ?_
    rwa [wf_rafg, even_fld, Bool.not_eq_true'] at hw
  | sarrive =>
    obtain ⟨rfl, h31, hg, hf, hr, rfl, hb, rfl⟩ := encGa_ok.mp he
    exact reads_uniform h31 hg (by rw [decUniform, hg, decGa, hg]; rfl) rfl (by rw [hf, hr, hb]; rfl) rfl
  | swait =>
    obtain ⟨rfl, h31, hg, hf, hr, rfl, hb, rfl⟩ := encGa_ok.mp he
    obtain ⟨h0, rfl⟩ := ringField_iff.mp hf
    exact reads_uniform h31 hg (by rw [decUniform, hg, decGa, hg]; rfl) rfl (by rw [h0, hr, hb]; rfl) rfl
  | mown | mrel => exact reads_none he fun hg => by rw [decUniform, hg, decMatrix, hg]; rfl
  | mpass | mzero =>
    obtain ⟨rfl, h31, hg, hd, ha, rfl⟩ := encGi_ok.mp he
    exact reads_uniform h31 hg (by rw [decUniform, hg, decMatrix, hg]; rfl) rfl (by rw [hd, ha]; rfl)
      (decide_eq_false (Nat.not_lt.mpr (of_decide_eq_true hw)))
  | mshape => exact reads_mshape he hw
  | mloop => exact reads_mloop he hw
  | mrd | mwr =>
    obtain ⟨rfl, h31, hg, rfl, rfl, hi⟩ := encGi_ok.mp he
    obtain ⟨h0, rfl⟩ := tileField_iff.mp hi
    exact reads_uniform h31 hg (by rw [decUniform, hg, decMatrix, hg]; rfl) rfl (bne_eq_false_iff_eq.mpr h0) (by simpa using hw)
  | midx =>
    obtain ⟨rfl, h31, hg, hd, rfl, hi⟩ := encGi_ok.mp he
    have off : (fld w 12 6 == 0#6 && 0#12 == 1#12) = false := Bool.and_false _
    exact reads_uniform h31 hg (by rw [decUniform, hg, decMatrix, hg, hi, off]; rfl) rfl (by rw [hd]; rfl) rfl
  | midxOff =>
    obtain ⟨rfl, h31, hg, hd, ha, hi⟩ := encGi_ok.mp he
    exact reads_uniform h31 hg (by rw [decUniform, hg, decMatrix, hg, ha, hi]; rfl) rfl (by rw [hd]; rfl) rfl
  | tsub =>
    obtain ⟨rfl, h31, hg, hd, rfl, hb, hf⟩ := encGr_ok.mp he
    refine reads_uniform h31 hg (by rw [decUniform, hg]; rfl) rfl (by rw [hd, noImm_iff.mpr ⟨hb, hf⟩]; rfl) ?_
    rwa [wf_tsub, even_fld, Bool.not_eq_true'] at hw
  | ctxCreate | ctxDestroy | map | mapShadow | mapRemoteWindow | unmap | unmapShadow | read | write | moduleLoad | launch | taskSubmit
  | preemptRequest | preemptHalt | preemptResumeHalt | preemptResumePark | journalRead | leapRead | leapWrite | leapPin | leapUnpin
  | leapDiscard | setLease | biasSet | attest | fwInfo | unsupportedPacket | resultArrival | teamPlacement | teamMigration | launchDone
  | emitRecordArrival | nodeTimerExpiry | timeSliceExpiry | deadlineExpiry | copyComplete | freezePoint | thawComplete | writeComplete
  | publishPoint | redgApply | promotionRequest | l1Eviction | mloopStep | lineFetch | stallSample | eccError | syncLoss | syncRestored
  | droopSlowdown | droopRecovery | powerOn | powerLoss | biasTransitionEnd | teamMoveArrival | remoteAccessArrival => cases he

end Sys2Proof.Machine
end

section

/-! SUPPORT. A few words of the encoding tables (R76 to R88), and the refutation of O44: a fragment that waited goes on at the place that it
notes (R195, R277), and where that is no multiple of 4 a store lets go clean bytes of two words (R321). -/

namespace Sys2Proof.Machine

-- One proof at a time, to keep the compile small: they share the equations of the model's long matches.
set_option Elab.async false

open Sys2Proof.Tests in
/-- Settles O1: each word was decoded as a test of the model. -/
theorem decodedWords : Obligations.DecodedWords :=
  ⟨decode_iadd, decode_idiv, decode_ldg, decode_pdot, decode_xshfl, decode_casg, decode_sadd64, decode_bmz, decode_kill, decode_win, decode_srd,
    decode_frz, decode_cpy, decode_mloop, decode_tsub, decode_prefix_twice, decode_end_word⟩

/-! ## A store at a noted place -/

/-- The uniform access of the counterexample, to the word at `SP[10] + 4`. -/
def oddOp : GlOp := ⟨0#4, 3#6, 5#5, 1#9, none⟩

/-- A place at physical address 2 in an uncached or a cached page. -/
def oddPlace (cached : Bool) : Place := ⟨2, ⟨0, 2 ^ 16, true, true, false, false, cached, false, false, false, 0#2, 0#8⟩⟩

/-- Core 0 holds byte 1 clean, with another value than its home's, and the fragment notes that its access has passed at address 2. -/
def oddState : State :=
  Tests.onFrag (Tests.onCore Tests.addr (fun k => { k with l1 := [(1, .clean 0xAA#8 none)] }))
    (fun f => { f with passed := [⟨0x2FFFC#64, 4, oddPlace false⟩] })

theorem memOk_oddState : oddState.memOk := Tests.mem_of (by decide +kernel)

theorem issues_oddState : Issues oddState (Tests.at0 oddState) (.sst oddOp) .control := Tests.issues_of (by decide +kernel) _

theorem check1_oddState : check1 oddState (Tests.at0 oddState) .store .mustThaw 4 4 (glAddr (Tests.at0 oddState) oddOp.p oddOp.imm oddOp.hi) =
    .ok (oddPlace false) := by decide +kernel

/-- What core 0 loads from a byte of a cached page after an event. -/
def loadAfter (a : Nat) : Host.Outcome State Fault Refusal → Option Byte
  | .next t => some (loadByte t 0 (oddPlace true) a)
  | _ => none

/-- The store to bytes 2 to 5 lets byte 1 go, and a load finds what stands at its home. -/
theorem loadAfter_oddState : loadAfter 1 (exec (.sst oddOp) oddState) = some 0#8 := by decide +kernel

theorem loadByte_oddState : loadByte oddState 0 (oddPlace true) 1 = 0xAA#8 := by decide +kernel

/-- Refutes O44: its clause on `SST` claims that every core loads each byte outside the stored word as before, wherever the check passes.
In `oddState` the place noted of an earlier check is no multiple of 4, and the store lets go a clean byte before the word. -/
theorem not_uniformMemory : ¬ Obligations.UniformMemory := by
  unfold Obligations.UniformMemory
  rintro ⟨-, h⟩
  obtain ⟨-, -, hstore⟩ := h oddOp oddState (Tests.at0 oddState) (oddPlace false) memOk_oddState
  obtain ⟨t, -, ht, -, -, -, hothers⟩ := hstore issues_oddState check1_oddState
  obtain ⟨-, hloads⟩ := hothers 1 fun hin => absurd hin.1 (by decide)
  have hafter : loadAfter 1 (.next t) = some 0#8 := ht ▸ loadAfter_oddState
  have hkept : loadAfter 1 (.next t) = some 0xAA#8 := congrArg some ((hloads 0 (oddPlace true)).trans loadByte_oddState)
  exact absurd (hafter.symm.trans hkept) (by decide)

end Sys2Proof.Machine
end

/-! SUPPORT. What a turn does (R39, R75, R92, R94, R100): the turn at the head of the agenda, the fragment that stands at its place once its
due results are settled, and the words that it runs.
-/
section
namespace Sys2Proof.Machine

-- One proof at a time, to keep the compile small: they share the equations of the model's long matches.
set_option Elab.async false

/-! ## The turn at the head of the agenda -/

/-- A turn goes on with what its act answers, and then with the firmware's commands. -/
theorem step_agenda {s t : State} {dt : Nat} {a : Act} {rest : List Turn} (e : s.agenda = ⟨dt, a⟩ :: rest)
    (h : runAct a (advanceTime { s with agenda := rest } dt) = .next t) : step s = .next (pumpHost t) := by
  simp only [step, takeTurn, e, h]

/-- A fragment whose instruction has not issued, and whose fetch does not wait, issues by its pipe. -/
theorem issue_fresh {s : State} {r : FragRef} {skipped : List FragRef} {h : Here} (e : s.at? r = some h) (hi : h.f.issued = none)
    (hf : fetchHeld s h = false) :
    (taking s h skipped = none → issue s r skipped = .next s) ∧
    ∀ t h1, taking s h skipped = some t → (noteIssue s h skipped t).at? r = some h1 →
      issue s r skipped = issueHere (noteIssue s h skipped t) h1 :=
  ⟨fun ht => by simp [issue, e, hi, hf, ht], fun t h1 ht h1e => by simp [issue, e, hi, hf, ht, h1e]⟩

/-- A fragment whose instruction has issued goes on with it outside the pipe. -/
theorem issue_issued {s : State} {r : FragRef} {skipped : List FragRef} {h : Here} (e : s.at? r = some h) (hi : h.f.issued.isSome = true) :
    issue s r skipped = if mayIssue s h then issueHere s h else .next s := by simp [issue, e, hi]

/-! ## The fragment whose due results are settled -/

theorem stands_settleDue (s : State) (h : Here) : h.Stands (settleDue s h).2 := stands_settleList ..

/-- Once its due results are settled the fragment stands at its place again. -/
theorem here?_settleDue {s : State} {h : Here} {r : FragRef} (hr : h.r = r) (hl : h.f.status ≠ .exited) :
    State.here? { (settleDue s h).1.put (settleDue s h).2 with cur := some r } =
      some { (settleDue s h).2 with g := (settleDue s h).2.group } := by
  obtain ⟨hq, hst⟩ := stands_settleDue s h
  have hp := at?_put (settleDue s h).1 (settleDue s h).2 (hst ▸ hl)
  rw [hq.trans hr] at hp
  exact hp.trans (by rw [← hq.trans hr])

/-- The fragment's instruction runs in the state in which its due results are settled. -/
theorem issueHere_eq {s : State} {h : Here} {r : FragRef} (hr : h.r = r) :
    issueHere s h = runAt { (settleDue s h).1.put (settleDue s h).2 with cur := some r } (settleDue s h).2 := by rw [← hr]; rfl

/-! ## The words that it runs -/

theorem decode_xp {p : Option Payload} {w : Word} (h : isXp w = true) : decode p w = .error subPrefix := by simp [decode, h]

theorem not_isXp_of_decode {p : Option Payload} {w : Word} {i : Instr} (h : decode p w = .ok i) : isXp w = false := by
  cases hx : isXp w with
  | false => rfl
  | true => simp [decode_xp hx] at h

theorem isXp_iff (w : Word) : isXp w = true ↔ w.extractLsb' 24 8 = 0xFF#8 := by simp [isXp, fld]

/-- An `XP` is its top byte and its payload (R90). -/
theorem xpWord_payload {w : Word} (h : w.extractLsb' 24 8 = 0xFF#8) : xpWord (w.extractLsb' 0 24) = w := by
  have hw : w.extractLsb' 24 8 ++ w.extractLsb' 0 24 = w := by
    ext i hi
    simp only [BitVec.getElem_append, BitVec.getElem_extractLsb']
    split
    · simp [BitVec.getLsbD_eq_getElem, *]
    · rw [show 24 + (i - 24) = i by omega, BitVec.getLsbD_eq_getElem]
  rwa [h] at hw

section
variable {s : State} {h : Here} {r : FragRef} {w w1 : Word} {i : Instr} {t : State} {sub : Byte}

theorem runInstr_next (hr : h.r = r) (e : exec i s = .next t) :
    runInstr s h i = .next (afterIssue t r h.g.uid (some i) h.f.view.en) := by simp [runInstr, onNext, e, hr]

theorem runWords_ok {p : Option Payload} (e : decode p w = .ok i) : runWords s h p w = runInstr s h i := by simp [runWords, e]

theorem runWords_error {p : Option Payload} (hr : h.r = r) (e : decode p w = .error sub) : runWords s h p w =
    .next (afterIssue (takeTrap s h ⟨w, p.map xpWord⟩ (.plain cIllegal sub h.lanes)) r h.g.uid none h.f.view.en) := by simp [runWords, e, hr]

theorem runAt_issued (e : h.f.issued = some i) : runAt s h = runInstr s h i := by simp [runAt, e]

theorem runAt_word (e : h.f.issued = none) (hw : fetchWord s h h.f.pc = .word w) (hx : isXp w = false) : runAt s h = runWords s h none w := by
  simp [runAt, e, hw, hx]

theorem runAt_xp (e : h.f.issued = none) (hw : fetchWord s h h.f.pc = .word w) (hx : w.extractLsb' 24 8 = 0xFF#8)
    (hw1 : fetchWord s h (h.f.pc + 4#64) = .word w1) : runAt s h = runWords s h (some (w.extractLsb' 0 24)) w1 := by
  simp [runAt, e, hw, (isXp_iff w).2 hx, hw1]

/-- The word of a team's group, where its fetch passes the checks and meets no poison (R75, R214). -/
theorem fetchWord_bytes {va : DWord} {x : Context} {p : Place} (ht : h.g.team.isSome = true) (hx : s.ctx? h.g.ctx = some x)
    (hc : checkAccess s x false .fetch .none 4 4 va = .ok p) (hp : s.poisoned p.pa 4 = false) : fetchWord s h va =
      .word (homeByte s (p.pa + 3) ++ homeByte s (p.pa + 2) ++ homeByte s (p.pa + 1) ++ homeByte s p.pa) := by
  have hn : h.g.team.isNone = false := by simpa using ht
  simp [fetchWord, hn, hx, hc, hp, wordOf_homeBytes]

end

end Sys2Proof.Machine
end

section
/-! PROOF. The turns of the agenda (R75, R92, R94, R100). -/

namespace Sys2Proof.Machine

set_option Elab.async false

/-- Settles O5: an issue settles what is due and runs at the fragment's place, by its issued instruction, its word, or the word behind
its `XP`. -/
theorem stepRunsDecoded : Obligations.StepRunsDecoded := by
  unfold Obligations.StepRunsDecoded
  refine ⟨fun s dt r skipped rest h0 => ?_, fun s dt rest => ⟨fun i t ha hi he => ?_, fun m ha => step_agenda ha rfl⟩⟩
  · intro s0 runs ha h0e
    obtain ⟨h0r, h0l⟩ := at?_live h0e
    have hstep : ∀ t, issue s0 r skipped = .next t → step s = .next (pumpHost t) := fun t e => step_agenda ha e
    have hruns : ∀ s1 h1, h1.r = r → h1.f.status ≠ .exited → issue s0 r skipped = issueHere s1 h1 → runs s1 h1 := by
      intro s1 h1 hr hl hiss
      let k := (settleDue s1 h1).2
      have hq : k.r = r := (stands_settleDue s1 h1).1.trans hr
      rw [issueHere_eq hr] at hiss
      refine ⟨here?_settleDue hr hl, fun i t hi he => ?_, fun hn => ⟨fun w i t hw hd he => ?_, fun w w1 i t hw hx hw1 hd he => ?_,
        fun w sub hw hx hd => ?_, fun w w1 sub hw hx hw1 hd => ?_⟩, fun x p ht hx hc hp => fetchWord_bytes ht hx hc hp⟩
      · exact hstep _ (hiss.trans ((runAt_issued (h := k) hi).trans (runInstr_next hq he)))
      · exact hstep _ (hiss.trans ((runAt_word (h := k) hn hw (not_isXp_of_decode hd)).trans ((runWords_ok hd).trans (runInstr_next hq he))))
      · exact hstep _ (hiss.trans ((runAt_xp (h := k) hn hw hx hw1).trans ((runWords_ok hd).trans (runInstr_next hq he))))
      · have hw' : isXp w = false := by rwa [← Bool.not_eq_true, isXp_iff]
        exact hstep _ (hiss.trans ((runAt_word (h := k) hn hw hw').trans (runWords_error hq hd)))
      · have he := runWords_error (s := { (settleDue s1 h1).1.put (settleDue s1 h1).2 with cur := some r }) hq hd
        rw [Option.map_some, xpWord_payload hx] at he
        exact hstep _ (hiss.trans ((runAt_xp (h := k) hn hw hx hw1).trans he))
    refine ⟨fun hi hf => ?_, fun hi => ⟨fun hm => ?_, fun hm => ?_⟩⟩
    · obtain ⟨hnone, hsome⟩ := issue_fresh (skipped := skipped) h0e hi hf
      exact ⟨fun ht => hstep _ (hnone ht), fun t h1 ht h1e => hruns _ h1 (at?_live h1e).1 (at?_live h1e).2 (hsome t h1 ht h1e)⟩
    · exact hstep _ (by rw [issue_issued h0e hi, hm]; rfl)
    · exact hruns s0 h0 h0r h0l (by rw [issue_issued h0e hi, hm]; rfl)
  · exact step_agenda ha (by simp [runAct, hi, he])

end Sys2Proof.Machine
end

/-! SUPPORT. Rounding, in the real numbers (R139 to R142): the magnitude an encoding stands for, that encodings and magnitudes have the same
order, and that `roundVal` delivers what the rules ask for every real number whose first bits and rest it is given.
-/
section
namespace Sys2Proof.Machine

/-! ## The magnitude of an encoding -/

/-- The magnitude that encoding b stands for. -/
noncomputable def FloatFmt.realOf (f : FloatFmt) (b : Nat) : ℝ :=
  if b / 2 ^ f.mbits = 0 then b * (2 : ℝ) ^ f.lowest
  else (2 ^ f.mbits + (b % 2 ^ f.mbits : Nat)) * (2 : ℝ) ^ (f.lowest + (b / 2 ^ f.mbits : Nat) - 1)

theorem pow_toNat {a : Int} (h : 0 ≤ a) : ((2 : ℝ) ^ a.toNat) = (2 : ℝ) ^ a := by
  rw [← zpow_natCast, Int.toNat_of_nonneg h]

theorem two_zpow_pos (a : Int) : (0 : ℝ) < (2 : ℝ) ^ a := zpow_pos (by norm_num) a

theorem two_zpow_add (a b : Int) : (2 : ℝ) ^ (a + b) = (2 : ℝ) ^ a * (2 : ℝ) ^ b := zpow_add₀ (by norm_num) a b

/-- `mag` counts the magnitude in units of 2^k. -/
theorem mag_mul {f : FloatFmt} {k : Int} (hk : k ≤ f.lowest) (b : Nat) : (f.mag k b : ℝ) * (2 : ℝ) ^ k = f.realOf b := by
  unfold FloatFmt.mag FloatFmt.realOf
  split
  · push_cast
    rw [pow_toNat (by omega), mul_assoc, ← two_zpow_add]
    congr 2
    omega
  · next h =>
    generalize b / 2 ^ f.mbits = d at h
    push_cast
    rw [pow_toNat (by simp only [Int.ofNat_eq_natCast]; omega), mul_assoc, ← two_zpow_add, Int.ofNat_eq_natCast, sub_add_cancel]

/-- The encodings of one exponent step by it. -/
theorem realOf_grid {f : FloatFmt} {E n : Nat} (hn : n ≤ 2 ^ (f.mbits + 1)) (he : E = 0 ∨ 2 ^ f.mbits ≤ n) :
    f.realOf (E * 2 ^ f.mbits + n) = n * (2 : ℝ) ^ (f.lowest + E) := by
  have hp : 0 < 2 ^ f.mbits := Nat.two_pow_pos _
  have h2 : 2 ^ (f.mbits + 1) = 2 * 2 ^ f.mbits := by rw [Nat.pow_succ]; omega
  unfold FloatFmt.realOf
  rw [Nat.mul_comm E, Nat.mul_add_div hp, Nat.mul_add_mod]
  rcases Nat.lt_or_ge n (2 ^ f.mbits) with h | h
  · obtain rfl : E = 0 := by omega
    simp [Nat.div_eq_of_lt h]
  · rcases Nat.lt_or_ge n (2 * 2 ^ f.mbits) with h1 | h1
    · have hd : n / 2 ^ f.mbits = 1 := by
        rw [Nat.div_eq_iff hp]; omega
      have hm : n % 2 ^ f.mbits = n - 2 ^ f.mbits := by
        rw [Nat.mod_eq_sub_mod h, Nat.mod_eq_of_lt (by omega)]
      rw [hd, hm, if_neg (by omega), Nat.cast_sub h]
      push_cast
      congr 1
      · ring
      · congr 1
        ring
    · obtain rfl : n = 2 * 2 ^ f.mbits := by omega
      rw [Nat.mul_div_cancel _ hp, Nat.mul_mod_left, if_neg (by omega)]
      push_cast
      rw [show f.lowest + (E + 2 : Int) - 1 = (f.lowest + E) + 1 by ring, two_zpow_add _ 1]
      norm_num
      ring

/-- Every encoding is one of the steps of its exponent. -/
theorem exists_grid (f : FloatFmt) (b : Nat) : ∃ E n, b = E * 2 ^ f.mbits + n ∧ n < 2 ^ (f.mbits + 1) ∧ (E = 0 ∨ 2 ^ f.mbits ≤ n) := by
  have hp : 0 < 2 ^ f.mbits := Nat.two_pow_pos _
  have h2 : 2 ^ (f.mbits + 1) = 2 * 2 ^ f.mbits := by rw [Nat.pow_succ]; omega
  have hdm := Nat.div_add_mod b (2 ^ f.mbits)
  have hml := Nat.mod_lt b hp
  cases hq : b / 2 ^ f.mbits with
  | zero => exact ⟨0, b, by omega, by rw [hq] at hdm; omega, .inl rfl⟩
  | succ E =>
    refine ⟨E, 2 ^ f.mbits + b % 2 ^ f.mbits, ?_, by omega, .inr (by omega)⟩
    rw [hq, Nat.mul_comm, Nat.succ_mul] at hdm
    omega

/-- Encodings and the magnitudes they stand for have the same order. -/
theorem realOf_strictMono (f : FloatFmt) : StrictMono f.realOf := by
  refine strictMono_nat_of_lt_succ fun b => ?_
  obtain ⟨E, n, rfl, hn, he⟩ := exists_grid f b
  rw [realOf_grid hn.le he, Nat.add_assoc, realOf_grid hn (by omega)]
  exact mul_lt_mul_of_pos_right (by push_cast; linarith) (two_zpow_pos _)

theorem realOf_zero (f : FloatFmt) : f.realOf 0 = 0 := by simp [FloatFmt.realOf]

/-! ## Cuts of real numbers -/

/-- A cut says where a real magnitude lies. -/
def IsCut (k : Int) (x : Cut) (V : ℝ) : Prop :=
  ∀ n : Nat, (x n = .lt ↔ 2 * V < n * (2 : ℝ) ^ k) ∧ (x n = .gt ↔ n * (2 : ℝ) ^ k < 2 * V)

theorem IsCut.eq_iff {k : Int} {x : Cut} {V : ℝ} (h : IsCut k x V) (n : Nat) : x n = .eq ↔ 2 * V = n * (2 : ℝ) ^ k := by
  obtain ⟨hl, hg⟩ := h n
  cases hx : x n with
  | lt => simp [(hl.1 hx).ne]
  | gt => simp [(hg.1 hx).ne']
  | eq =>
    have h1 := mt hl.2 (by simp [hx])
    have h2 := mt hg.2 (by simp [hx])
    simp only [true_iff]
    linarith

theorem compare_lt_nat (a b : Nat) : compare a b = .lt ↔ a < b := Nat.compare_eq_lt
theorem compare_gt_nat (a b : Nat) : compare a b = .gt ↔ b < a := Nat.compare_eq_gt

/-- The cut of a quotient of whole numbers. -/
theorem isCut_cutOf (k : Int) (x : Nat) {d : Nat} (hd : 0 < d) : IsCut k (cutOf x d) (x / d * (2 : ℝ) ^ k) := by
  intro n
  have hk := two_zpow_pos k
  have hdr : (0 : ℝ) < d := by exact_mod_cast hd
  have hl (a b : ℝ) : 2 * (a / d * (2 : ℝ) ^ k) < b * (2 : ℝ) ^ k ↔ 2 * a < b * d := by
    rw [← mul_assoc, mul_lt_mul_iff_left₀ hk, ← mul_div_assoc, div_lt_iff₀ hdr]
  have hg (a b : ℝ) : b * (2 : ℝ) ^ k < 2 * (a / d * (2 : ℝ) ^ k) ↔ b * d < 2 * a := by
    rw [← mul_assoc, mul_lt_mul_iff_left₀ hk, ← mul_div_assoc, lt_div_iff₀ hdr]
  unfold cutOf
  rw [compare_lt_nat, compare_gt_nat, hl, hg]
  constructor <;> norm_cast

/-- R139's rounding, said of the magnitudes. -/
theorem roundedTo_iff {f : FloatFmt} {rm : BitVec 2} {neg : Bool} {k : Int} {x : Cut} {V : ℝ} {enc : Nat} (hk : k ≤ f.lowest)
    (hx : IsCut k x V) : RoundedTo f rm neg k x enc ↔ ∀ b,
      if rm = 0#2 then (f.realOf enc < f.realOf b → 2 * V ≤ f.realOf enc + f.realOf b) ∧
        (f.realOf b < f.realOf enc → f.realOf enc + f.realOf b ≤ 2 * V) ∧
        (f.realOf enc ≠ f.realOf b → 2 * V = f.realOf enc + f.realOf b → enc % 2 = 0)
      else if rm = 1#2 ∨ neg = decide (rm = 3#2) then f.realOf enc ≤ V ∧ (f.realOf b ≤ V → f.realOf b ≤ f.realOf enc)
      else V ≤ f.realOf enc ∧ (V ≤ f.realOf b → f.realOf enc ≤ f.realOf b) := by
  have hp := two_zpow_pos k
  have hsum (b c : Nat) : ((f.mag k b + f.mag k c : Nat) : ℝ) * (2 : ℝ) ^ k = f.realOf b + f.realOf c := by
    push_cast; rw [add_mul, mag_mul hk, mag_mul hk]
  have htwo (b : Nat) : ((2 * f.mag k b : Nat) : ℝ) * (2 : ℝ) ^ k = 2 * f.realOf b := by
    push_cast; rw [mul_assoc, mag_mul hk]
  have hlt (b c : Nat) : f.mag k b < f.mag k c ↔ f.realOf b < f.realOf c := by
    rw [← mag_mul hk, ← mag_mul hk, mul_lt_mul_iff_left₀ hp, Nat.cast_lt]
  have hle (b c : Nat) : f.mag k b ≤ f.mag k c ↔ f.realOf b ≤ f.realOf c := by
    rw [← mag_mul hk, ← mag_mul hk, mul_le_mul_iff_left₀ hp, Nat.cast_le]
  have hne (b c : Nat) : f.mag k b ≠ f.mag k c ↔ f.realOf b ≠ f.realOf c := by
    rw [← mag_mul hk, ← mag_mul hk, ne_eq, ne_eq, mul_left_inj' hp.ne', Nat.cast_inj]
  have hdouble (b : Nat) : (2 * V < 2 * f.realOf b ↔ V < f.realOf b) ∧ (2 * f.realOf b < 2 * V ↔ f.realOf b < V) := by
    constructor <;> constructor <;> intro <;> linarith
  unfold RoundedTo
  refine forall_congr' fun b => ?_
  simp only [ne_eq, (hx _).1, (hx _).2, hx.eq_iff, hsum, htwo, hlt, hle, (hdouble _).1, (hdouble _).2, not_lt]
  simp only [← ne_eq, hne]

/-! ## Rounding down or up from the encoding below -/

section
variable {f : FloatFmt} {c : Nat} {V : ℝ}

/-- Every other encoding's magnitude is at or below that of c, or at or above the next. -/
theorem realOf_beside (f : FloatFmt) (c b : Nat) :
    (b ≤ c ∧ f.realOf b ≤ f.realOf c) ∨ (c + 1 ≤ b ∧ f.realOf (c + 1) ≤ f.realOf b) := by
  rcases Nat.lt_or_ge c b with h | h
  · exact .inr ⟨h, (realOf_strictMono f).monotone h⟩
  · exact .inl ⟨h, (realOf_strictMono f).monotone h⟩

theorem near_floor (hl : f.realOf c ≤ V) (hn : 2 * V ≤ f.realOf c + f.realOf (c + 1)) (he : 2 * V = f.realOf c + f.realOf (c + 1) → c % 2 = 0)
    (b : Nat) : (f.realOf c < f.realOf b → 2 * V ≤ f.realOf c + f.realOf b) ∧ (f.realOf b < f.realOf c → f.realOf c + f.realOf b ≤ 2 * V) ∧
      (f.realOf c ≠ f.realOf b → 2 * V = f.realOf c + f.realOf b → c % 2 = 0) := by
  rcases realOf_beside f c b with ⟨-, h⟩ | ⟨-, h⟩
  · exact ⟨fun h1 => by linarith, fun _ => by linarith, fun h1 h2 => absurd h1.symm (by linarith [lt_of_le_of_ne h h1.symm])⟩
  · exact ⟨fun _ => by linarith, fun h1 => by linarith [realOf_strictMono f (Nat.lt_add_one c)], fun _ h2 => he (by linarith)⟩

theorem near_ceil (hu : V < f.realOf (c + 1)) (hn : f.realOf c + f.realOf (c + 1) ≤ 2 * V) (he : 2 * V = f.realOf c + f.realOf (c + 1) → c % 2 = 1)
    (b : Nat) : (f.realOf (c + 1) < f.realOf b → 2 * V ≤ f.realOf (c + 1) + f.realOf b) ∧
      (f.realOf b < f.realOf (c + 1) → f.realOf (c + 1) + f.realOf b ≤ 2 * V) ∧
      (f.realOf (c + 1) ≠ f.realOf b → 2 * V = f.realOf (c + 1) + f.realOf b → (c + 1) % 2 = 0) := by
  rcases realOf_beside f c b with ⟨-, h⟩ | ⟨-, h⟩
  · refine ⟨fun h1 => by linarith, fun _ => by linarith, fun _ h2 => ?_⟩
    have := he (by linarith)
    omega
  · exact ⟨fun _ => by linarith, fun h1 => by linarith, fun h1 h2 => absurd h1 (by linarith [lt_of_le_of_ne h h1])⟩

theorem down_floor (hl : f.realOf c ≤ V) (hu : V < f.realOf (c + 1)) (b : Nat) : f.realOf c ≤ V ∧ (f.realOf b ≤ V → f.realOf b ≤ f.realOf c) := by
  rcases realOf_beside f c b with ⟨-, h⟩ | ⟨-, h⟩
  · exact ⟨hl, fun _ => h⟩
  · exact ⟨hl, fun h1 => by linarith⟩

theorem up_exact (hl : V = f.realOf c) (b : Nat) : V ≤ f.realOf c ∧ (V ≤ f.realOf b → f.realOf c ≤ f.realOf b) := ⟨hl.le, fun h => hl ▸ h⟩

theorem up_ceil (hl : f.realOf c < V) (hu : V < f.realOf (c + 1)) (b : Nat) :
    V ≤ f.realOf (c + 1) ∧ (V ≤ f.realOf b → f.realOf (c + 1) ≤ f.realOf b) := by
  rcases realOf_beside f c b with ⟨-, h⟩ | ⟨-, h⟩
  · exact ⟨hu.le, fun h1 => by linarith⟩
  · exact ⟨hu.le, fun _ => h⟩

end
end Sys2Proof.Machine
end

section
/-! SUPPORT. What `roundVal` delivers (R139 to R142). -/
namespace Sys2Proof.Machine

/-! ## The step of the last place -/

/-- A magnitude and its place among the encodings: encoding c is the last at or below it, and `half` tells it from the middle of c and the
next one. -/
structure Placed (f : FloatFmt) (V : ℝ) (c : Nat) (half : Ordering) : Prop where
  low : f.realOf c ≤ V
  high : V < f.realOf (c + 1)
  lt : half = .lt ↔ 2 * V < f.realOf c + f.realOf (c + 1)
  gt : half = .gt ↔ f.realOf c + f.realOf (c + 1) < 2 * V

/-- A magnitude between n and n + 1 steps of an exponent has its place. -/
theorem placed_grid {f : FloatFmt} {V : ℝ} {E n : Nat} {half : Ordering} (hn : n < 2 ^ (f.mbits + 1)) (he : E = 0 ∨ 2 ^ f.mbits ≤ n)
    (hl : n * (2 : ℝ) ^ (f.lowest + E) ≤ V) (hu : V < (n + 1) * (2 : ℝ) ^ (f.lowest + E))
    (h1 : half = .lt ↔ 2 * V < (2 * n + 1) * (2 : ℝ) ^ (f.lowest + E))
    (h2 : half = .gt ↔ (2 * n + 1) * (2 : ℝ) ^ (f.lowest + E) < 2 * V) : Placed f V (E * 2 ^ f.mbits + n) half := by
  have hc := realOf_grid hn.le he
  have hc1 : f.realOf (E * 2 ^ f.mbits + n + 1) = (n + 1) * (2 : ℝ) ^ (f.lowest + E) := by
    rw [Nat.add_assoc, realOf_grid hn (by omega)]; push_cast; rfl
  have hm : f.realOf (E * 2 ^ f.mbits + n) + f.realOf (E * 2 ^ f.mbits + n + 1) = (2 * n + 1) * (2 : ℝ) ^ (f.lowest + E) := by
    rw [hc, hc1]; ring
  exact ⟨hc ▸ hl, hc1 ▸ hu, hm ▸ h1, hm ▸ h2⟩

/-! ## The end of a rounding -/

/-- What a rounding to an encoding delivers: R140 past the largest finite value, else the flags of R141. -/
def roundTo (f : FloatFmt) (rm : BitVec 2) (sat neg : Bool) (enc : Nat) (inexact : Bool) : FRes :=
  if f.maxEnc < enc then overflowOf f rm sat neg
  else ⟨(if neg then 2 ^ f.magBits else 0) + enc, if inexact then (if enc < 2 ^ f.mbits then flUF ||| flNX else flNX) else 0#5, false, false⟩

theorem withSign_eq (f : FloatFmt) (neg : Bool) (m : Nat) : f.withSign neg m = (if neg then 2 ^ f.magBits else 0) + m := by
  cases neg <;> simp [FloatFmt.withSign]

/-- The four modes. -/
theorem roundMode_cases (rm : BitVec 2) : rm = 0#2 ∨ rm = 1#2 ∨ rm = 2#2 ∨ rm = 3#2 := by
  revert rm; decide

/-- The encoding that a mode picks of c and the next. -/
def pickEnc (rm : BitVec 2) (neg : Bool) (c : Nat) (half : Ordering) (inexact : Bool) : Nat :=
  if inexact && roundsUp rm neg (c % 2 == 1) half then c + 1 else c

theorem roundedTo_pick {f : FloatFmt} {rm : BitVec 2} {neg : Bool} {k : Int} {x : Cut} {V : ℝ} {c : Nat} {half : Ordering} {inexact : Bool}
    (hk : k ≤ f.lowest) (hx : IsCut k x V) (hp : Placed f V c half) (hi : inexact = true ↔ V ≠ f.realOf c) :
    RoundedTo f rm neg k x (pickEnc rm neg c half inexact) := by
  obtain ⟨hlow, hhigh, hlt, hgt⟩ := hp
  have hstep := realOf_strictMono f (Nat.lt_add_one c)
  rw [roundedTo_iff hk hx]
  intro b
  cases inexact with
  | false =>
    have hV : V = f.realOf c := by simpa using hi
    have he : pickEnc rm neg c half false = c := rfl
    rw [he]
    split
    · exact near_floor hlow (by linarith) (fun h => by linarith) b
    · split
      · exact down_floor hlow hhigh b
      · exact up_exact hV b
  | true =>
    have hlow' : f.realOf c < V := lt_of_le_of_ne hlow (hi.1 rfl).symm
    obtain rfl | rfl | rfl | rfl := roundMode_cases rm
    · rw [if_pos rfl]
      cases half with
      | lt => exact near_floor hlow (hlt.1 rfl).le (fun h => absurd (hlt.1 rfl) (by rw [h]; exact lt_irrefl _)) b
      | gt => exact near_ceil hhigh (hgt.1 rfl).le (fun h => absurd (hgt.1 rfl) (by rw [h]; exact lt_irrefl _)) b
      | eq =>
        have h1 : ¬ 2 * V < f.realOf c + f.realOf (c + 1) := mt hlt.2 (by simp)
        have h2 : ¬ f.realOf c + f.realOf (c + 1) < 2 * V := mt hgt.2 (by simp)
        rcases Nat.mod_two_eq_zero_or_one c with hc | hc
        · have he : pickEnc 0#2 neg c .eq true = c := by simp [pickEnc, roundsUp, hc]
          rw [he]
          exact near_floor hlow (not_lt.1 h2) (fun _ => hc) b
        · have he : pickEnc 0#2 neg c .eq true = c + 1 := by simp [pickEnc, roundsUp, hc]
          rw [he]
          exact near_ceil hhigh (not_lt.1 h1) (fun _ => hc) b
    · exact down_floor hlow hhigh b
    · cases neg
      · exact down_floor hlow hhigh b
      · exact up_ceil hlow' hhigh b
    · cases neg
      · exact up_ceil hlow' hhigh b
      · exact down_floor hlow hhigh b

/-- A rounding to the picked encoding is what the rules deliver. -/
theorem delivers_roundTo {f : FloatFmt} {rm : BitVec 2} {sat neg : Bool} {k : Int} {x : Cut} {V : ℝ} {c : Nat} {half : Ordering} {inexact : Bool}
    (hk : k ≤ f.lowest) (hx : IsCut k x V) (hp : Placed f V c half) (hi : inexact = true ↔ V ≠ f.realOf c) :
    Delivers f rm sat neg k x (roundTo f rm sat neg (pickEnc rm neg c half inexact) inexact) := by
  refine ⟨_, roundedTo_pick hk hx hp hi, ?_⟩
  generalize he : pickEnc rm neg c half inexact = enc
  unfold roundTo
  split
  · rfl
  · have hexact : x (2 * f.mag k enc) = .eq ↔ inexact = false := by
      rw [hx.eq_iff]
      push_cast
      rw [mul_assoc, mag_mul hk]
      cases inexact with
      | false =>
        obtain rfl : c = enc := he
        have hV : V = f.realOf c := by simpa using hi
        simp [hV]
      | true =>
        have hne : V ≠ f.realOf enc := by
          unfold pickEnc at he
          split at he
          · exact he ▸ hp.high.ne
          · exact he ▸ hi.1 rfl
        simpa using hne
    have htiny : f.mag k enc < f.mag k (2 ^ f.mbits) ↔ enc < 2 ^ f.mbits := by
      rw [← (realOf_strictMono f).lt_iff_lt (a := enc), ← mag_mul hk enc, ← mag_mul hk (2 ^ f.mbits), mul_lt_mul_iff_left₀ (two_zpow_pos k), Nat.cast_lt]
    simp only [hexact, htiny]
    cases inexact <;> simp

/-! ## `roundVal` -/

/-- The exponent of the last place (R139, R141). -/
def lastPlace (f : FloatFmt) (m : Nat) (e : Int) : Int := max (Int.ofNat (Nat.log2 m) + e - f.mbits) f.lowest

theorem overflow_eq (f : FloatFmt) (hf : 1 ≤ f.mbits) (rm : BitVec 2) (sat neg : Bool) :
    (if (match rm with | 0#2 => true | 1#2 => false | 2#2 => neg | _ => !neg) && !sat then
      match f.kind with
      | .ieee => { bits := f.withSign neg (f.maxEnc + 1), flags := flOF ||| flNX, nan := false, inf := true }
      | .nanOnly => { bits := f.encodeNan neg quietBit, flags := flOF ||| flNX, nan := true, inf := false }
      | .finite => { bits := f.withSign neg f.maxEnc, flags := flOF ||| flNX, nan := false, inf := false }
    else { bits := f.withSign neg f.maxEnc, flags := flOF ||| flNX, nan := false, inf := false } : FRes) = overflowOf f rm sat neg := by
  have hnan (h : f.kind = .nanOnly) : 2 ^ f.magBits - 1 = f.maxEnc + 1 := by
    have h2 : 2 ^ 1 ≤ 2 ^ f.magBits := Nat.pow_le_pow_right (by omega) (by unfold FloatFmt.magBits; omega)
    simp only [FloatFmt.maxEnc, h]
    omega
  have haway : (match rm with | 0#2 => true | 1#2 => false | 2#2 => neg | _ => !neg) =
      decide ¬(rm = 1#2 ∨ (rm = 2#2 ∧ neg = false) ∨ (rm = 3#2 ∧ neg = true)) := by
    revert rm neg; decide
  unfold overflowOf
  dsimp only
  rw [haway]
  by_cases ht : (rm = 1#2 ∨ (rm = 2#2 ∧ neg = false) ∨ (rm = 3#2 ∧ neg = true)) ∨ sat = true
  · have hno : (decide ¬(rm = 1#2 ∨ (rm = 2#2 ∧ neg = false) ∨ (rm = 3#2 ∧ neg = true)) && !sat) = false := by
      rw [Bool.and_eq_false_iff, decide_eq_false_iff_not, not_not, Bool.not_eq_false']
      exact ht
    rw [hno, if_neg Bool.false_ne_true, if_pos ht, withSign_eq]
  · have hyes : (decide ¬(rm = 1#2 ∨ (rm = 2#2 ∧ neg = false) ∨ (rm = 3#2 ∧ neg = true)) && !sat) = true := by
      obtain ⟨h1, h2⟩ := not_or.1 ht
      rw [Bool.and_eq_true, decide_eq_true_iff, Bool.not_eq_true']
      exact ⟨h1, Bool.eq_false_iff.2 h2⟩
    rw [hyes, if_pos rfl, if_neg ht]
    cases hk : f.kind with
    | ieee => simp only [withSign_eq, Nat.add_assoc]
    | nanOnly => simp only [FloatFmt.encodeNan, hk, hnan hk, withSign_eq, Nat.add_assoc]
    | finite => simp only [withSign_eq]

/-- The bits of m that are kept, in units of the last place. -/
def keptBits (f : FloatFmt) (m : Nat) (e : Int) : Nat :=
  if lastPlace f m e - e ≤ 0 then m * 2 ^ (-(lastPlace f m e - e)).toNat else m / 2 ^ (lastPlace f m e - e).toNat

/-- The bits of m below the last place. -/
def restBits (f : FloatFmt) (m : Nat) (e : Int) : Nat :=
  if lastPlace f m e - e ≤ 0 then 0 else m % 2 ^ (lastPlace f m e - e).toNat

/-- The discarded part against one half of the last place. -/
def restHalf (f : FloatFmt) (m : Nat) (e : Int) (sticky : Bool) : Ordering :=
  if lastPlace f m e - e ≤ 0 then .lt
  else if restBits f m e < 2 ^ ((lastPlace f m e - e).toNat - 1) then .lt
  else if restBits f m e > 2 ^ ((lastPlace f m e - e).toNat - 1) || sticky then .gt else .eq

/-- The exponent of the last place, counted from the lowest. -/
def placeExp (f : FloatFmt) (m : Nat) (e : Int) : Nat := (lastPlace f m e - f.lowest).toNat

theorem lastPlace_eq (f : FloatFmt) (m : Nat) (e : Int) : lastPlace f m e = f.lowest + placeExp f m e := by
  unfold placeExp lastPlace
  omega

/-- `roundVal` picks of the encoding of the kept bits and the next. -/
theorem roundVal_eq {f : FloatFmt} (hf : 1 ≤ f.mbits) (rm : BitVec 2) (sat neg : Bool) {m : Nat} (e : Int) (sticky : Bool) (hm : m ≠ 0) :
    roundVal f rm sat neg m e sticky = roundTo f rm sat neg (pickEnc rm neg (placeExp f m e * 2 ^ f.mbits + keptBits f m e)
      (restHalf f m e sticky) (restBits f m e != 0 || sticky)) (restBits f m e != 0 || sticky) := by
  have hodd : (placeExp f m e * 2 ^ f.mbits + keptBits f m e) % 2 = keptBits f m e % 2 := by
    obtain ⟨b, hb⟩ := Nat.exists_eq_add_of_le hf
    rw [hb, Nat.add_comm 1, Nat.pow_succ, ← Nat.mul_assoc, Nat.mul_add_mod_self_right]
  unfold roundVal
  rw [if_neg hm]
  extract_lets top q shift up n rem inexact half n' enc away tiny
  have hE : (q + f.mbits + f.bias - 1).toNat = placeExp f m e := by
    unfold placeExp FloatFmt.lowest
    congr 1
    show q + f.mbits + f.bias - 1 = q - _
    ring
  have henc : enc = pickEnc rm neg (placeExp f m e * 2 ^ f.mbits + keptBits f m e) (restHalf f m e sticky) (restBits f m e != 0 || sticky) := by
    show (q + f.mbits + f.bias - 1).toNat * 2 ^ f.mbits + (if inexact && roundsUp rm neg (n % 2 == 1) half then n + 1 else n) = _
    rw [hE]
    unfold pickEnc
    rw [hodd]
    show _ + (if inexact && roundsUp rm neg (n % 2 == 1) half then n + 1 else n) =
      if inexact && roundsUp rm neg (n % 2 == 1) half then placeExp f m e * 2 ^ f.mbits + n + 1 else placeExp f m e * 2 ^ f.mbits + n
    split <;> rfl
  rw [← henc]
  unfold roundTo
  by_cases ho : f.maxEnc < enc
  · rw [if_pos ho, if_pos ho]
    exact overflow_eq f hf rm sat neg
  · rw [if_neg ho, if_neg ho, withSign_eq]
    show FRes.mk _ ((if inexact then flNX else 0#5) ||| (if inexact && decide (enc < 2 ^ f.mbits) then flUF else 0#5)) _ _ =
      FRes.mk _ (if inexact then (if enc < 2 ^ f.mbits then flUF ||| flNX else flNX) else 0#5) _ _
    congr 1
    cases inexact
    · simp
    · by_cases ht : enc < 2 ^ f.mbits <;> simp [ht, BitVec.or_comm]

/-! ## The kept bits are the place -/

section
variable {f : FloatFmt} {m : Nat} {e : Int}

theorem two_pow_log2_le (hm : m ≠ 0) : 2 ^ Nat.log2 m ≤ m := Nat.log2_self_le hm

/-- Where the last place is at or below the value's own, every bit is kept. -/
theorem keptBits_up (h : lastPlace f m e - e ≤ 0) : (keptBits f m e : ℝ) * (2 : ℝ) ^ lastPlace f m e = m * (2 : ℝ) ^ e := by
  unfold keptBits
  rw [if_pos h]
  push_cast
  rw [pow_toNat (by omega), mul_assoc, ← two_zpow_add]
  congr 2
  ring

/-- The kept bits fill the place. -/
theorem keptBits_range (hm : m ≠ 0) : keptBits f m e < 2 ^ (f.mbits + 1) ∧ (placeExp f m e = 0 ∨ 2 ^ f.mbits ≤ keptBits f m e) := by
  have hlo := Nat.log2_self_le hm
  have hhi : m < 2 ^ (Nat.log2 m + 1) := Nat.lt_log2_self
  have hq : lastPlace f m e = max ((Nat.log2 m : Int) + e - f.mbits) f.lowest := rfl
  have hE := lastPlace_eq f m e
  unfold keptBits
  generalize lastPlace f m e = q at *
  generalize placeExp f m e = E at *
  split
  · next h =>
    obtain ⟨u, hu⟩ : ∃ u : Nat, (-(q - e)).toNat = u := ⟨_, rfl⟩
    rw [hu]
    refine ⟨?_, ?_⟩
    · calc m * 2 ^ u < 2 ^ (Nat.log2 m + 1) * 2 ^ u := Nat.mul_lt_mul_of_pos_right hhi (Nat.two_pow_pos u)
        _ = 2 ^ (Nat.log2 m + 1 + u) := (Nat.pow_add ..).symm
        _ ≤ 2 ^ (f.mbits + 1) := Nat.pow_le_pow_right (by omega) (by omega)
    · by_cases hz : E = 0
      · exact .inl hz
      · refine .inr ?_
        calc 2 ^ f.mbits = 2 ^ (Nat.log2 m + u) := by congr 1; omega
          _ = 2 ^ Nat.log2 m * 2 ^ u := Nat.pow_add ..
          _ ≤ m * 2 ^ u := Nat.mul_le_mul_right _ hlo
  · next h =>
    obtain ⟨u, hu⟩ : ∃ u : Nat, (q - e).toNat = u := ⟨_, rfl⟩
    rw [hu]
    refine ⟨?_, ?_⟩
    · refine Nat.div_lt_of_lt_mul (hhi.trans_le ?_)
      rw [← Nat.pow_add]
      exact Nat.pow_le_pow_right (by omega) (by omega)
    · by_cases hz : E = 0
      · exact .inl hz
      · refine .inr ((Nat.le_div_iff_mul_le (Nat.two_pow_pos u)).2 ?_)
        rw [← Nat.pow_add, show f.mbits + u = Nat.log2 m by omega]
        exact hlo

end

/-- A number t between m and m + 1, split at a bit: its quotient, and where it lies against the middle. -/
theorem split_at_bit {m n r H : Nat} {t : ℝ} (hm : m = n * (2 * H) + r) (hr : r < 2 * H) (hl : m ≤ t) (hu : t < m + 1) :
    (n : ℝ) * (2 * H) ≤ t ∧ t < (n + 1) * (2 * H) ∧ (r < H → 2 * t < (2 * n + 1) * (2 * H)) ∧ (H < r → (2 * n + 1) * (2 * H) < 2 * t) ∧
      (r = H → (2 * n + 1) * (2 * H) ≤ 2 * t ∧ (2 * t = (2 * n + 1) * (2 * H) ↔ t = m)) ∧ (t = n * (2 * H) ↔ t = m ∧ r = 0) := by
  have hmr : (m : ℝ) = n * (2 * H) + r := by exact_mod_cast hm
  have hr0 : (0 : ℝ) ≤ r := Nat.cast_nonneg r
  have hr1 : (r : ℝ) + 1 ≤ 2 * H := by exact_mod_cast hr
  refine ⟨by linarith, by linarith, fun h => ?_, fun h => ?_, fun h => ?_, ⟨fun h => ?_, fun ⟨h, hz⟩ => ?_⟩⟩
  · have : (r : ℝ) + 1 ≤ H := by exact_mod_cast h
    linarith
  · have : (H : ℝ) + 1 ≤ r := by exact_mod_cast h
    linarith
  · have : (r : ℝ) = H := by exact_mod_cast h
    exact ⟨by linarith, fun h => by linarith, fun h => by linarith⟩
  · exact ⟨by linarith, by exact_mod_cast (by linarith : (r : ℝ) = 0)⟩
  · rw [h, hmr, hz]; simp

/-- A value split at a bit of its mantissa has its place by the quotient, and the rest and the sticky part tell its half. -/
theorem placed_split {f : FloatFmt} {E n m r H : Nat} {P V : ℝ} {sticky : Bool} (hn : n < 2 ^ (f.mbits + 1)) (hE : E = 0 ∨ 2 ^ f.mbits ≤ n)
    (hP : 0 < P) (hQ : (2 : ℝ) ^ (f.lowest + E) = 2 * H * P) (hm : m = n * (2 * H) + r) (hr : r < 2 * H) (hl : m * P ≤ V)
    (hu : V < (m + 1) * P) (he : sticky = true ↔ V ≠ m * P) :
    Placed f V (E * 2 ^ f.mbits + n) (if r < H then .lt else if H < r || sticky then .gt else .eq) ∧
      ((r != 0 || sticky) = true ↔ V ≠ n * (2 : ℝ) ^ (f.lowest + E)) := by
  obtain ⟨t, rfl⟩ : ∃ t, V = t * P := ⟨V / P, (div_mul_cancel₀ _ hP.ne').symm⟩
  have he' : sticky = true ↔ t ≠ m := by rw [he, ne_eq, ne_eq, mul_left_inj' hP.ne']
  obtain ⟨h1, h2, h3, h4, h5, h6⟩ := split_at_bit hm hr (le_of_mul_le_mul_right hl hP) (lt_of_mul_lt_mul_right hu hP.le)
  have hlt : 2 * (t * P) < (2 * n + 1) * (2 * H * P) ↔ 2 * t < (2 * n + 1) * (2 * H) := by
    rw [← mul_assoc, ← mul_assoc, mul_lt_mul_iff_left₀ hP]
  have hgt : (2 * n + 1) * (2 * H * P) < 2 * (t * P) ↔ (2 * n + 1) * (2 * H) < 2 * t := by
    rw [← mul_assoc _ _ P, ← mul_assoc _ t, mul_lt_mul_iff_left₀ hP]
  refine ⟨placed_grid hn hE ?_ ?_ ?_ ?_, ?_⟩ <;> rw [hQ]
  · rw [← mul_assoc]; exact mul_le_mul_of_nonneg_right h1 hP.le
  · rw [← mul_assoc]; exact mul_lt_mul_of_pos_right h2 hP
  · rw [hlt]
    rcases lt_trichotomy r H with hc | hc | hc
    · simp [hc, h3 hc]
    · have hge := (h5 hc).1
      simp only [hc, lt_irrefl, if_false, not_lt.2 hge, iff_false]
      split <;> simp
    · simp [hc, hc.not_gt, (h4 hc).le]
  · rw [hgt]
    rcases lt_trichotomy r H with hc | hc | hc
    · simp [hc, (h3 hc).le]
    · obtain ⟨hge, heq⟩ := h5 hc
      rw [← not_iff_not, not_lt, if_neg hc.not_lt]
      simp only [hc, lt_irrefl, decide_false, Bool.false_or, he']
      by_cases htm : t = m
      · simp [htm, ← heq.2 htm]
      · simp [htm, lt_of_le_of_ne hge fun h => htm (heq.1 h.symm)]
    · simp [hc, hc.not_gt, h4 hc]
  · rw [← mul_assoc, ne_eq, mul_left_inj' hP.ne', h6, Bool.or_eq_true, he', bne_iff_ne, ne_eq, ne_eq, not_and_or, or_comm]

/-- The kept bits are the place of (m + s)·2^e for an s in [0, 1) that `sticky` tells from 0. -/
theorem placed_keptBits {f : FloatFmt} {m : Nat} {e : Int} {sticky : Bool} {V : ℝ} (hm : m ≠ 0) (hs : sticky = true → 2 ^ (f.mbits + 1) ≤ m)
    (hl : m * (2 : ℝ) ^ e ≤ V) (hu : V < (m + 1) * (2 : ℝ) ^ e) (he : sticky = true ↔ V ≠ m * (2 : ℝ) ^ e) :
    Placed f V (placeExp f m e * 2 ^ f.mbits + keptBits f m e) (restHalf f m e sticky) ∧
      ((restBits f m e != 0 || sticky) = true ↔ V ≠ f.realOf (placeExp f m e * 2 ^ f.mbits + keptBits f m e)) := by
  obtain ⟨hn, hE⟩ := keptBits_range (f := f) (e := e) hm
  have hq := lastPlace_eq f m e
  rw [realOf_grid hn.le hE]
  by_cases h : lastPlace f m e - e ≤ 0
  · have hk := keptBits_up h
    rw [hq] at hk
    have hns : sticky = false := by
      rw [Bool.eq_false_iff]
      intro h1
      have h2 : f.mbits + 1 ≤ Nat.log2 m := (Nat.le_log2 hm).2 (hs h1)
      have h3 : (Nat.log2 m : Int) + e - f.mbits ≤ lastPlace f m e := le_max_left ..
      omega
    have hV : V = m * (2 : ℝ) ^ e := by simpa [hns] using he
    have hP := two_zpow_pos (f.lowest + placeExp f m e)
    have hh : restHalf f m e sticky = .lt := by simp [restHalf, h]
    rw [hV, ← hk, hh]
    refine ⟨placed_grid hn hE le_rfl (by linarith) ?_ ?_, ?_⟩
    · simp only [true_iff]; linarith
    · simp only [reduceCtorEq, false_iff]; linarith
    · simp [restBits, h, hns]
  · obtain ⟨u, hu1⟩ : ∃ u : Nat, (lastPlace f m e - e).toNat = u + 1 := ⟨(lastPlace f m e - e).toNat - 1, by omega⟩
    have hpow : 2 ^ (u + 1) = 2 * 2 ^ u := by rw [Nat.pow_succ, Nat.mul_comm]
    have hQ : (2 : ℝ) ^ (f.lowest + placeExp f m e) = 2 * (2 ^ u : Nat) * (2 : ℝ) ^ e := by
      rw [← hq, show lastPlace f m e = ((u + 1 : Nat) : Int) + e by omega, two_zpow_add, zpow_natCast, pow_succ]
      push_cast
      ring
    have hkept : keptBits f m e = m / (2 * 2 ^ u) := by simp only [keptBits, h, if_false, hu1, hpow]
    have hrest : restBits f m e = m % (2 * 2 ^ u) := by simp only [restBits, h, if_false, hu1, hpow]
    have hhalf : restHalf f m e sticky =
        if restBits f m e < 2 ^ u then .lt else if 2 ^ u < restBits f m e || sticky then .gt else .eq := by
      simp only [restHalf, h, if_false, hu1, Nat.add_sub_cancel, gt_iff_lt]
    have hdm : m = keptBits f m e * (2 * 2 ^ u) + restBits f m e := by rw [hkept, hrest, Nat.div_add_mod']
    have hr : restBits f m e < 2 * 2 ^ u := hrest ▸ Nat.mod_lt _ (by have := Nat.two_pow_pos u; omega)
    rw [hhalf]
    generalize 2 ^ u = H at hQ hdm hr
    exact placed_split hn hE (two_zpow_pos e) hQ hdm hr hl hu he

@[simp] theorem roundVal_zero (f : FloatFmt) (rm : BitVec 2) (sat neg : Bool) (e : Int) (sticky : Bool) :
    roundVal f rm sat neg 0 e sticky = zeroOf f neg := by
  unfold roundVal
  rw [if_pos rfl, withSign_eq]
  rfl

theorem delivers_zero {f : FloatFmt} (rm : BitVec 2) (sat neg : Bool) {k : Int} {x : Cut} (hk : k ≤ f.lowest) (hx : IsCut k x 0) :
    Delivers f rm sat neg k x (zeroOf f neg) := by
  have hstep := realOf_strictMono f Nat.zero_lt_one
  rw [realOf_zero] at hstep
  have hp : Placed f 0 0 .lt := by constructor <;> simp [realOf_zero, hstep, hstep.le]
  have hz : roundTo f rm sat neg (pickEnc rm neg 0 .lt false) false = zeroOf f neg := by simp [roundTo, pickEnc, zeroOf]
  rw [← hz]
  exact delivers_roundTo hk hx hp (by simp [realOf_zero])

/-- `roundVal` delivers what R139 to R142 ask for a real number whose first bits it is given, with word of the rest. -/
theorem roundVal_delivers {f : FloatFmt} (hf : 1 ≤ f.mbits) (rm : BitVec 2) (sat neg : Bool) {m : Nat} {e k : Int} {sticky : Bool} {x : Cut}
    {V : ℝ} (hk : k ≤ f.lowest) (hx : IsCut k x V) (hs : sticky = true → 2 ^ (f.mbits + 1) ≤ m) (hl : m * (2 : ℝ) ^ e ≤ V)
    (hu : V < (m + 1) * (2 : ℝ) ^ e) (he : sticky = true ↔ V ≠ m * (2 : ℝ) ^ e) :
    Delivers f rm sat neg k x (roundVal f rm sat neg m e sticky) := by
  by_cases hm : m = 0
  · subst hm
    have hns : sticky = false := by
      rw [Bool.eq_false_iff]
      exact fun h => absurd (hs h) (Nat.two_pow_pos _).not_ge
    have hV : V = 0 := by simpa [hns] using he
    subst hV
    rw [roundVal_zero]
    exact delivers_zero rm sat neg hk hx
  · obtain ⟨hp, hi⟩ := placed_keptBits (f := f) hm hs hl hu he
    rw [roundVal_eq hf rm sat neg e sticky hm]
    exact delivers_roundTo hk hx hp hi

/-- An exact value m·2^e. -/
theorem roundVal_exact_delivers {f : FloatFmt} (hf : 1 ≤ f.mbits) (rm : BitVec 2) (sat neg : Bool) (m : Nat) {e k : Int} (he : k ≤ e)
    (hk : k ≤ f.lowest) : Delivers f rm sat neg k (cutOf (m * 2 ^ (e - k).toNat) 1) (roundVal f rm sat neg m e false) := by
  have hx := isCut_cutOf k (m * 2 ^ (e - k).toNat) Nat.one_pos
  have hV : ((m * 2 ^ (e - k).toNat : Nat) : ℝ) / (1 : Nat) * (2 : ℝ) ^ k = m * (2 : ℝ) ^ e := by
    push_cast
    rw [pow_toNat (by omega), div_one, mul_assoc, ← two_zpow_add, sub_add_cancel]
  rw [hV] at hx
  exact roundVal_delivers hf rm sat neg hk hx (by simp) le_rfl (by linarith [two_zpow_pos e]) (by simp)

end Sys2Proof.Machine
end

section
/-! SUPPORT. Values that encodings stand for: they round to themselves, and others near them round to them (R139). -/
namespace Sys2Proof.Machine

/-! ## Rounding to a known encoding -/

/-- The cut of a real number. -/
noncomputable def cutAt (k : Int) (V : ℝ) : Cut := fun n => if 2 * V < n * (2 : ℝ) ^ k then .lt else if n * (2 : ℝ) ^ k < 2 * V then .gt else .eq

theorem isCut_cutAt (k : Int) (V : ℝ) : IsCut k (cutAt k V) V := by
  intro n
  unfold cutAt
  rcases lt_trichotomy (2 * V) (n * (2 : ℝ) ^ k) with h | h | h
  · simp [h, h.not_gt]
  · simp [h]
  · simp [h, h.not_gt]

/-- Encoding c is the one that a magnitude rounds to, to nearest: it is the magnitude's own, or even with the magnitude not past the middle
to either side. -/
def NearTo (f : FloatFmt) (V : ℝ) (c : Nat) : Prop :=
  V = f.realOf c ∨ (c % 2 = 0 ∧ (∀ b, b + 1 = c → f.realOf b + f.realOf c ≤ 2 * V) ∧ 2 * V ≤ f.realOf c + f.realOf (c + 1))

theorem roundedTo_unique {f : FloatFmt} {neg : Bool} {k : Int} {x : Cut} {V : ℝ} {c enc : Nat} (hk : k ≤ f.lowest) (hx : IsCut k x V)
    (hn : NearTo f V c) (h : RoundedTo f 0#2 neg k x enc) : enc = c := by
  rw [roundedTo_iff hk hx] at h
  have hmono := realOf_strictMono f
  obtain ⟨hup, hdown, htie⟩ := h c
  rcases lt_trichotomy enc c with hc | hc | hc
  · have hlt := hmono hc
    have := hup hlt
    rcases hn with hV | ⟨heven, hlo, -⟩
    · linarith
    · obtain ⟨b, rfl⟩ := Nat.exists_eq_succ_of_ne_zero (Nat.ne_of_gt (Nat.zero_lt_of_lt hc))
      have hb := hlo b rfl
      have hle := hmono.monotone (Nat.le_of_lt_succ hc)
      have hodd := htie hlt.ne (by linarith)
      have henc : enc = b := by
        rcases Nat.lt_or_ge enc b with h1 | h1
        · linarith [hmono h1]
        · omega
      omega
  · exact hc
  · have hlt := hmono hc
    have := hdown hlt
    rcases hn with hV | ⟨heven, -, hhi⟩
    · linarith
    · have hle := hmono.monotone (Nat.succ_le_of_lt hc)
      have hodd := htie hlt.ne' (by linarith)
      have henc : enc = c + 1 := by
        rcases Nat.lt_or_ge (c + 1) enc with h1 | h1
        · linarith [hmono h1]
        · omega
      omega

/-- Rounded to nearest, a magnitude near a finite encoding delivers it. -/
theorem roundVal_near {f : FloatFmt} (hf : 1 ≤ f.mbits) (sat neg : Bool) {m c : Nat} {e : Int} {sticky : Bool} {V : ℝ}
    (hs : sticky = true → 2 ^ (f.mbits + 1) ≤ m) (hl : m * (2 : ℝ) ^ e ≤ V) (hu : V < (m + 1) * (2 : ℝ) ^ e)
    (he : sticky = true ↔ V ≠ m * (2 : ℝ) ^ e) (hc : c ≤ f.maxEnc) (hn : NearTo f V c) :
    (V = f.realOf c → roundVal f 0#2 sat neg m e sticky = ⟨(if neg then 2 ^ f.magBits else 0) + c, 0#5, false, false⟩) ∧
    (V ≠ f.realOf c → roundVal f 0#2 sat neg m e sticky =
      ⟨(if neg then 2 ^ f.magBits else 0) + c, if c < 2 ^ f.mbits then flUF ||| flNX else flNX, false, false⟩) := by
  have hx := isCut_cutAt f.lowest V
  obtain ⟨enc, hr, hd⟩ := roundVal_delivers hf 0#2 sat neg le_rfl hx hs hl hu he
  obtain rfl := roundedTo_unique le_rfl hx hn hr
  rw [if_neg hc.not_gt] at hd
  have heq : cutAt f.lowest V (2 * f.mag f.lowest enc) = .eq ↔ V = f.realOf enc := by
    rw [hx.eq_iff]
    push_cast
    rw [mul_assoc, mag_mul le_rfl]
    constructor <;> intro <;> linarith
  have htiny : f.mag f.lowest enc < f.mag f.lowest (2 ^ f.mbits) ↔ enc < 2 ^ f.mbits := by
    rw [← (realOf_strictMono f).lt_iff_lt (a := enc), ← mag_mul le_rfl enc, ← mag_mul le_rfl (2 ^ f.mbits),
      mul_lt_mul_iff_left₀ (two_zpow_pos _), Nat.cast_lt]
  simp only [heq, htiny] at hd
  exact ⟨fun h => by rw [hd, if_pos h], fun h => by rw [hd, if_neg h]⟩

/-- An exact value that an encoding stands for. -/
theorem roundVal_exact {f : FloatFmt} (hf : 1 ≤ f.mbits) (sat neg : Bool) {m c : Nat} {e : Int} (hc : c ≤ f.maxEnc)
    (hV : m * (2 : ℝ) ^ e = f.realOf c) :
    roundVal f 0#2 sat neg m e false = ⟨(if neg then 2 ^ f.magBits else 0) + c, 0#5, false, false⟩ :=
  (roundVal_near hf sat neg (by simp) le_rfl (by linarith [two_zpow_pos e]) (by simp) hc (.inl hV)).1 hV

/-! ## Whole numbers that a format holds -/

/-- A mantissa of one bit more than the fraction's has an encoding at any exponent not below the lowest. -/
theorem exists_encoding (f : FloatFmt) (d : Nat) : ∀ m : Nat, m ≤ 2 ^ (f.mbits + 1) → ∃ c, f.realOf c = m * (2 : ℝ) ^ (f.lowest + d) := by
  induction d with
  | zero => exact fun m hm => ⟨m, by simpa using realOf_grid (E := 0) hm (.inl rfl)⟩
  | succ d ih =>
    intro m hm
    rcases Nat.lt_or_ge m (2 ^ f.mbits) with h | h
    · obtain ⟨c, hc⟩ := ih (2 * m) (by rw [Nat.pow_succ]; omega)
      refine ⟨c, ?_⟩
      rw [hc]
      push_cast
      rw [show f.lowest + ((d : Int) + 1) = f.lowest + d + 1 by ring, two_zpow_add _ 1]
      ring
    · exact ⟨_, realOf_grid hm (.inr h)⟩

/-! ## f32 -/

theorem lowest_f32 : fmtF32.lowest = -149 := rfl

/-- The powers of two of the normal range. -/
theorem realOf_f32_pow (E : Nat) : fmtF32.realOf ((E + 1) * 2 ^ 23) = (2 : ℝ) ^ ((E : Int) - 126) := by
  have h := realOf_grid (f := fmtF32) (E := E) (n := 2 ^ 23) (by decide) (.inr le_rfl)
  rw [Nat.succ_mul]
  refine h.trans ?_
  rw [lowest_f32, Nat.cast_pow, Nat.cast_ofNat, ← zpow_natCast, ← two_zpow_add]
  congr 1
  push_cast
  ring

theorem maxEnc_f32 : fmtF32.maxEnc = 255 * 2 ^ 23 - 1 := by decide

/-- Every finite f32 magnitude lies below 2^128. -/
theorem le_maxEnc_of_realOf_lt {c : Nat} (h : fmtF32.realOf c < (2 : ℝ) ^ (128 : Int)) : c ≤ fmtF32.maxEnc := by
  have h1 : fmtF32.realOf (255 * 2 ^ 23) = (2 : ℝ) ^ (128 : Int) := (realOf_f32_pow 254).trans (by norm_num)
  rw [← h1, (realOf_strictMono fmtF32).lt_iff_lt] at h
  rw [maxEnc_f32]
  omega

/-- An f32 encoding below the infinity is read as its magnitude. -/
theorem decode_f32_fin {b : Nat} (hc : b % 2 ^ 31 ≤ fmtF32.maxEnc) :
    ∃ m e, FVal.decode fmtF32 b = .fin (b / 2 ^ 31 % 2 == 1) m e ∧ m * (2 : ℝ) ^ e = fmtF32.realOf (b % 2 ^ 31) ∧ m < 2 ^ 24 ∧ -149 ≤ e := by
  rw [maxEnc_f32] at hc
  have hmag : b % 2 ^ fmtF32.magBits = b % 2 ^ 31 := rfl
  have hneg : b / 2 ^ fmtF32.magBits = b / 2 ^ 31 := rfl
  unfold FVal.decode FloatFmt.realOf
  simp only [hmag, hneg]
  generalize b % 2 ^ 31 = c at *
  have hexp : ¬ (fmtF32.kind = .ieee ∧ c / 2 ^ fmtF32.mbits = 2 ^ fmtF32.ebits - 1) := by
    simp only [fmtF32]
    omega
  rw [if_neg hexp, if_neg (by simp [fmtF32])]
  have hmod := Nat.mod_lt c (Nat.two_pow_pos fmtF32.mbits)
  by_cases hz : c / 2 ^ fmtF32.mbits = 0
  · rw [if_pos hz, if_pos hz]
    refine ⟨_, _, rfl, ?_, hmod.trans (by decide), by decide⟩
    rw [Nat.mod_eq_of_lt ((Nat.div_eq_zero_iff_lt (Nat.two_pow_pos _)).1 hz)]
    rfl
  · rw [if_neg hz, if_neg hz]
    refine ⟨_, _, rfl, ?_, ?_, ?_⟩
    · push_cast
      congr 2
      unfold FloatFmt.lowest
      ring
    · exact lt_of_lt_of_eq (Nat.add_lt_add_left hmod _) (by decide)
    · simp only [fmtF32] at hz ⊢
      omega

/-- A sign and a finite magnitude are read as they are. -/
theorem decode_f32_signed {c : Nat} (neg : Bool) (hc : c ≤ fmtF32.maxEnc) :
    ∃ m e, FVal.decode fmtF32 ((if neg then 2 ^ fmtF32.magBits else 0) + c) = .fin neg m e ∧ m * (2 : ℝ) ^ e = fmtF32.realOf c := by
  have hb : ((if neg then 2 ^ fmtF32.magBits else 0) + c) % 2 ^ 31 = c ∧
      (((if neg then 2 ^ fmtF32.magBits else 0) + c) / 2 ^ 31 % 2 == 1) = neg := by
    rw [maxEnc_f32] at hc
    simp only [fmtF32, FloatFmt.magBits]
    cases neg
    · simp only [Bool.false_eq_true, if_false, beq_eq_false_iff_ne]
      omega
    · simp only [if_true, beq_iff_eq]
      omega
  obtain ⟨m, e, hd, hv, -, -⟩ := decode_f32_fin (hb.1 ▸ hc)
  rw [hb.2] at hd
  rw [hb.1] at hv
  exact ⟨m, e, hd, hv⟩

/-- An f32 whose value is finite stands for its magnitude. -/
theorem realOf_of_decode {b : Nat} {n : Bool} {m : Nat} {e : Int} (h : FVal.decode fmtF32 b = .fin n m e) :
    ∃ c, c ≤ fmtF32.maxEnc ∧ m * (2 : ℝ) ^ e = fmtF32.realOf c ∧ m < 2 ^ 24 ∧ -149 ≤ e := by
  by_cases hc : b % 2 ^ 31 ≤ fmtF32.maxEnc
  · obtain ⟨m', e', hd, hv⟩ := decode_f32_fin hc
    rw [h] at hd
    cases hd
    exact ⟨_, hc, hv⟩
  · exfalso
    have hmag : b % 2 ^ fmtF32.magBits = b % 2 ^ 31 := rfl
    have hlt : b % 2 ^ 31 < 2 ^ 31 := Nat.mod_lt _ (by decide)
    rw [maxEnc_f32] at hc
    have hexp : fmtF32.kind = .ieee ∧ b % 2 ^ 31 / 2 ^ fmtF32.mbits = 2 ^ fmtF32.ebits - 1 := by
      refine ⟨rfl, ?_⟩
      simp only [fmtF32]
      omega
    unfold FVal.decode at h
    simp only [hmag] at h
    rw [if_pos hexp] at h
    split at h <;> cases h

/-- Equal magnitudes of one sign compare equal. -/
theorem cmp_fin_eq {n : Bool} {ma mb : Nat} {ea eb : Int} (h : ma * (2 : ℝ) ^ ea = mb * (2 : ℝ) ^ eb) :
    (FVal.fin n ma ea).cmp (.fin n mb eb) = .eq := by
  have hsame : ma * 2 ^ (ea - min ea eb).toNat = mb * 2 ^ (eb - min ea eb).toNat := by
    have hP := two_zpow_pos (min ea eb)
    have hscale (m : Nat) (e : Int) (he : min ea eb ≤ e) :
        ((m * 2 ^ (e - min ea eb).toNat : Nat) : ℝ) * (2 : ℝ) ^ min ea eb = m * (2 : ℝ) ^ e := by
      push_cast
      rw [pow_toNat (by omega), mul_assoc, ← two_zpow_add, sub_add_cancel]
    have := hscale ma ea (min_le_left ..)
    rw [h, ← hscale mb eb (min_le_right ..), mul_left_inj' hP.ne'] at this
    exact_mod_cast this
  simp only [FVal.cmp, hsame, compare_eq_iff_eq]

end Sys2Proof.Machine
end

section
/-! SUPPORT. Quotients and square roots (R173 to R175): the whole part and the rest that the model rounds. -/
namespace Sys2Proof.Machine

/-! ## Quotients -/

/-- A quotient lies between its whole part and the next, and is whole where nothing is left. -/
theorem quotient_between (a : Nat) {b : Nat} (hb : 0 < b) :
    ((a / b : Nat) : ℝ) ≤ a / b ∧ (a : ℝ) / b < (a / b : Nat) + 1 ∧ ((a : ℝ) / b = (a / b : Nat) ↔ a % b = 0) := by
  have hbr : (0 : ℝ) < b := by exact_mod_cast hb
  have hdm : ((a / b : Nat) : ℝ) * b + (a % b : Nat) = a := by exact_mod_cast Nat.div_add_mod' a b
  have hml : ((a % b : Nat) : ℝ) < b := by exact_mod_cast Nat.mod_lt a hb
  have hm0 : (0 : ℝ) ≤ (a % b : Nat) := Nat.cast_nonneg _
  refine ⟨(le_div_iff₀ hbr).2 (by linarith), (div_lt_iff₀ hbr).2 (by linarith), ?_⟩
  rw [div_eq_iff hbr.ne']
  constructor
  · intro h
    exact_mod_cast (by linarith : ((a % b : Nat) : ℝ) = 0)
  · intro h
    rw [h] at hdm
    simpa using hdm.symm

/-- `FDIV` of finite values rounds their quotient once. -/
theorem div_delivers (rm : BitVec 2) {na nb : Bool} {ma mb : Nat} {ea eb k : Int} (hb : mb ≠ 0) (hk : k ≤ ea - eb) (hl : k ≤ fmtF32.lowest) :
    Delivers fmtF32 rm false (na != nb) k (cutOf (ma * 2 ^ (ea - eb - k).toNat) mb) (divRes fmtF32 rm (.fin na ma ea) (.fin nb mb eb)) := by
  have hb0 : 0 < mb := Nat.pos_of_ne_zero hb
  have hx := isCut_cutOf k (ma * 2 ^ (ea - eb - k).toNat) hb0
  obtain ⟨K, hK⟩ : ∃ K : Nat, 64 + Nat.log2 mb + 1 = K := ⟨_, rfl⟩
  have hP := two_zpow_pos (ea - eb - K)
  have hV : ((ma * 2 ^ (ea - eb - k).toNat : Nat) : ℝ) / mb * (2 : ℝ) ^ k = ((ma * 2 ^ K : Nat) : ℝ) / mb * (2 : ℝ) ^ (ea - eb - K) := by
    push_cast
    rw [pow_toNat (by omega), ← zpow_natCast (2 : ℝ) K, div_mul_eq_mul_div, div_mul_eq_mul_div, mul_assoc, mul_assoc, ← two_zpow_add, ← two_zpow_add]
    congr 3
    ring
  rw [hV] at hx
  obtain ⟨h1, h2, h3⟩ := quotient_between (ma * 2 ^ K) hb0
  have hres : divRes fmtF32 rm (.fin na ma ea) (.fin nb mb eb) =
      roundVal fmtF32 rm false (na != nb) (ma * 2 ^ K / mb) (ea - eb - K) (ma * 2 ^ K % mb != 0) := by
    simp only [divRes, firstNan, FVal.neg?, hb, if_false, ← hK]
  rw [hres]
  refine roundVal_delivers (by decide) rm false _ hl hx (fun hs => ?_) (mul_le_mul_of_nonneg_right h1 hP.le) (mul_lt_mul_of_pos_right h2 hP) ?_
  · have hma : 1 ≤ ma := Nat.pos_of_ne_zero fun h => by simp [h] at hs
    have hlog : mb < 2 ^ (Nat.log2 mb + 1) := Nat.lt_log2_self
    refine (Nat.le_div_iff_mul_le hb0).2 ?_
    calc 2 ^ 24 * mb ≤ 2 ^ 24 * 2 ^ (Nat.log2 mb + 1) := Nat.mul_le_mul_left _ hlog.le
      _ = 2 ^ (24 + (Nat.log2 mb + 1)) := (Nat.pow_add ..).symm
      _ ≤ 2 ^ K := Nat.pow_le_pow_right (by omega) (by omega)
      _ ≤ ma * 2 ^ K := Nat.le_mul_of_pos_left _ hma
  · rw [bne_iff_ne, ne_eq, ne_eq, mul_left_inj' hP.ne', h3]

/-! ## Integer square roots -/

theorem isqrtLoop_between (n : Nat) : ∀ b r, r * r ≤ n → n < (r + 2 ^ b) * (r + 2 ^ b) →
    isqrtLoop n b r * isqrtLoop n b r ≤ n ∧ n < (isqrtLoop n b r + 1) * (isqrtLoop n b r + 1)
  | 0, r, hl, hu => ⟨hl, hu⟩
  | b + 1, r, hl, hu => by
    unfold isqrtLoop
    dsimp only
    split
    · next h => exact isqrtLoop_between n b _ h (by rwa [Nat.add_assoc, ← Nat.two_mul, Nat.mul_comm 2, ← Nat.pow_succ])
    · next h => exact isqrtLoop_between n b r hl (Nat.lt_of_not_le h)

theorem isqrt_between (n : Nat) : isqrt n * isqrt n ≤ n ∧ n < (isqrt n + 1) * (isqrt n + 1) := by
  refine isqrtLoop_between n _ 0 (Nat.zero_le n) ?_
  rw [Nat.zero_add, ← Nat.pow_add]
  exact Nat.lt_log2_self.trans_le (Nat.pow_le_pow_right (by omega) (by omega))

theorem le_isqrt {a n : Nat} (h : a * a ≤ n) : a ≤ isqrt n := by
  have hu := (isqrt_between n).2
  by_contra hc
  have h1 : isqrt n + 1 ≤ a := by omega
  have := Nat.mul_le_mul h1 h1
  omega

/-! ## Square roots -/

/-- Where a square root lies among the multiples of a step. -/
theorem sqrt_between {W P : ℝ} {r : Nat} (hW : 0 ≤ W) (hP : 0 < P) :
    (r * P ≤ √W ↔ (r * r : ℝ) * (P * P) ≤ W) ∧ (√W < (r + 1) * P ↔ W < ((r + 1) * (r + 1) : ℝ) * (P * P)) ∧
      (√W = r * P ↔ W = (r * r : ℝ) * (P * P)) := by
  have hr : (0 : ℝ) ≤ r * P := mul_nonneg (Nat.cast_nonneg r) hP.le
  have hr1 : (0 : ℝ) < (r + 1) * P := by positivity
  refine ⟨?_, ?_, ?_⟩
  · rw [Real.le_sqrt hr hW, mul_pow, sq, sq]
  · rw [Real.sqrt_lt' hr1, mul_pow, sq, sq]
  · rw [Real.sqrt_eq_iff_eq_sq hW hr, mul_pow, sq, sq]

/-- A cut by squares. -/
theorem isCut_sqrt {k : Int} {x : Cut} {W : ℝ} (hW : 0 ≤ W) (hlt : ∀ n : Nat, x n = .lt ↔ 4 * W < n * n * ((2 : ℝ) ^ k * (2 : ℝ) ^ k))
    (hgt : ∀ n : Nat, x n = .gt ↔ n * n * ((2 : ℝ) ^ k * (2 : ℝ) ^ k) < 4 * W) : IsCut k x (√W) := by
  intro n
  have hk := two_zpow_pos k
  have h2 : 2 * √W = √(4 * W) := by
    rw [Real.sqrt_mul (by norm_num), show (4 : ℝ) = 2 ^ 2 by norm_num, Real.sqrt_sq (by norm_num)]
  have h4 : 0 ≤ 4 * W := by linarith
  have hn : (0 : ℝ) ≤ n * (2 : ℝ) ^ k := by positivity
  have hsq : (n * (2 : ℝ) ^ k) ^ 2 = n * n * ((2 : ℝ) ^ k * (2 : ℝ) ^ k) := by ring
  rw [h2, hlt, hgt, Real.lt_sqrt hn, hsq]
  refine ⟨?_, Iff.rfl⟩
  rcases eq_or_lt_of_le hn with h0 | h0
  · rw [← hsq, ← h0]
    simp only [ne_eq, OfNat.ofNat_ne_zero, not_false_eq_true, zero_pow]
    exact ⟨fun h => by linarith, fun h => absurd (Real.sqrt_nonneg _) (not_le.2 h)⟩
  · rw [Real.sqrt_lt' h0, hsq]

/-- The integer root of T's whole part is the whole part of T's root, and is exact where nothing is left of either. -/
theorem isqrt_scaled {T P : ℝ} {Q : Nat} (hP : 0 < P) (hl : Q ≤ T) (hu : T < Q + 1) :
    isqrt Q * P ≤ √(T * (P * P)) ∧ √(T * (P * P)) < (isqrt Q + 1) * P ∧
      (√(T * (P * P)) = isqrt Q * P ↔ isqrt Q * isqrt Q = Q ∧ T = Q) := by
  obtain ⟨h1, h2⟩ := isqrt_between Q
  have hPP : 0 < P * P := mul_pos hP hP
  have hT : 0 ≤ T := (Nat.cast_nonneg Q).trans hl
  have h1r : (isqrt Q * isqrt Q : ℝ) ≤ Q := by exact_mod_cast h1
  have h2r : (Q + 1 : ℝ) ≤ (isqrt Q + 1) * (isqrt Q + 1) := by exact_mod_cast h2
  obtain ⟨hle, hlt, heq⟩ := sqrt_between (r := isqrt Q) (mul_nonneg hT hPP.le) hP
  rw [hle, hlt, heq]
  refine ⟨mul_le_mul_of_nonneg_right (h1r.trans hl) hPP.le, mul_lt_mul_of_pos_right (hu.trans_le h2r) hPP, ?_⟩
  rw [mul_left_inj' hPP.ne']
  constructor
  · intro h
    have hq : (isqrt Q * isqrt Q : ℝ) = Q := le_antisymm h1r (h ▸ hl)
    exact ⟨by exact_mod_cast hq, h.trans hq⟩
  · rintro ⟨hq, h⟩
    rw [h]
    exact_mod_cast hq.symm

/-- A cut by a comparison of squares of whole numbers. -/
theorem isCut_squares {k : Int} {A d : Nat} {W : ℝ} (hd : 0 < d) (hW : 0 ≤ W) (hA : (A : ℝ) * ((2 : ℝ) ^ k * (2 : ℝ) ^ k) = 4 * W * d) :
    IsCut k (fun n => compare A (n * n * d)) (√W) := by
  have hk := mul_pos (two_zpow_pos k) (two_zpow_pos k)
  have hdr : (0 : ℝ) < d := by exact_mod_cast hd
  refine isCut_sqrt hW (fun n => ?_) (fun n => ?_)
  · rw [compare_lt_nat, ← mul_lt_mul_iff_left₀ hdr (b := 4 * W), ← hA, mul_right_comm (n * n : ℝ), mul_lt_mul_iff_left₀ hk]
    norm_cast
  · rw [compare_gt_nat, ← mul_lt_mul_iff_left₀ hdr (c := 4 * W), ← hA, mul_right_comm (n * n : ℝ), mul_lt_mul_iff_left₀ hk]
    norm_cast

/-- The even part of an exponent is halved exactly. -/
theorem two_zpow_half (e c : Int) (odd : Nat) (ho : odd = (e % 2).toNat) :
    (2 : ℝ) ^ ((e - odd) / 2 + c) * (2 : ℝ) ^ ((e - odd) / 2 + c) = (2 : ℝ) ^ (e - odd + 2 * c) := by
  rw [← two_zpow_add]
  congr 1
  omega

/-- `FSQRT` of a positive value rounds its root once. -/
theorem sqrt_delivers (rm : BitVec 2) {m : Nat} {e k : Int} (hm : m ≠ 0) (hk : 2 * k ≤ e) (hl : k ≤ fmtF32.lowest) :
    Delivers fmtF32 rm false false k (fun x => compare (4 * m * 2 ^ (e - 2 * k).toNat) (x * x)) (sqrtRes rm (.fin false m e)) := by
  obtain ⟨odd, ho⟩ : ∃ odd : Nat, odd = (e % 2).toNat := ⟨_, rfl⟩
  obtain ⟨w, hw⟩ : ∃ w : Nat, w = m * 2 ^ (128 + odd) := ⟨_, rfl⟩
  have hP := two_zpow_pos ((e - odd) / 2 + -64)
  have hW : (w : ℝ) * ((2 : ℝ) ^ ((e - odd) / 2 + -64) * (2 : ℝ) ^ ((e - odd) / 2 + -64)) = m * (2 : ℝ) ^ e := by
    rw [two_zpow_half e _ odd ho, hw]
    push_cast
    rw [← zpow_natCast (2 : ℝ) (128 + odd), mul_assoc, ← two_zpow_add]
    congr 2
    push_cast
    ring
  have hx : IsCut k (fun x => compare (4 * m * 2 ^ (e - 2 * k).toNat) (x * x)) (√(m * (2 : ℝ) ^ e)) := by
    have h := isCut_squares (k := k) (A := 4 * m * 2 ^ (e - 2 * k).toNat) (d := 1) (W := m * (2 : ℝ) ^ e) Nat.one_pos
      (mul_nonneg (Nat.cast_nonneg m) (two_zpow_pos e).le) ?_
    · simpa only [Nat.mul_one] using h
    · push_cast
      rw [pow_toNat (by omega), mul_assoc, ← two_zpow_add, ← two_zpow_add, mul_one, mul_assoc]
      congr 3
      ring
  obtain ⟨h1, h2, h3⟩ := isqrt_scaled hP (le_refl (w : ℝ)) (lt_add_one _)
  rw [hW] at h1 h2 h3
  have hres : sqrtRes rm (.fin false m e) = roundVal fmtF32 rm false false (isqrt w) ((e - odd) / 2 + -64) (isqrt w * isqrt w != w) := by
    simp only [sqrtRes, hm, if_false, hw, ho, Bool.false_eq_true, Int.sub_eq_add_neg]
  rw [hres]
  refine roundVal_delivers (by decide) rm false _ hl hx (fun _ => le_isqrt ?_) h1 h2 ?_
  · rw [hw, ← Nat.pow_add]
    exact (Nat.pow_le_pow_right (by omega) (by simp [fmtF32]; omega)).trans (Nat.le_mul_of_pos_left _ (Nat.pos_of_ne_zero hm))
  · rw [bne_iff_ne, ne_eq, ne_eq, h3, and_iff_left rfl]

/-- `FRSQ` of a positive value of at most 64 bits rounds its reciprocal root once. -/
theorem rsq_delivers (rm : BitVec 2) {m : Nat} {e k : Int} (hm : m ≠ 0) (hm64 : m < 2 ^ 64) (hk : e + 2 * k ≤ 0) (hl : k ≤ fmtF32.lowest) :
    Delivers fmtF32 rm false false k (fun x => compare (4 * 2 ^ (-(e + 2 * k)).toNat) (x * x * m)) (rsqRes rm (.fin false m e)) := by
  obtain ⟨odd, ho⟩ : ∃ odd : Nat, odd = (e % 2).toNat := ⟨_, rfl⟩
  obtain ⟨w, hw⟩ : ∃ w : Nat, w = m * 2 ^ odd := ⟨_, rfl⟩
  obtain ⟨K, hK⟩ : ∃ K : Nat, K = 200 := ⟨_, rfl⟩
  have hm0 : 0 < m := Nat.pos_of_ne_zero hm
  have hw0 : 0 < w := hw ▸ Nat.mul_pos hm0 (Nat.two_pow_pos _)
  have hmr : (m : ℝ) ≠ 0 := by exact_mod_cast hm
  have hP := two_zpow_pos (-((e - odd) / 2) + -100)
  have hW : ((2 ^ K : Nat) : ℝ) / w * ((2 : ℝ) ^ (-((e - odd) / 2) + -100) * (2 : ℝ) ^ (-((e - odd) / 2) + -100)) = (2 : ℝ) ^ (-e) / m := by
    rw [← two_zpow_add, hw]
    push_cast
    rw [← zpow_natCast (2 : ℝ) K, ← zpow_natCast (2 : ℝ) odd, div_mul_eq_mul_div, ← two_zpow_add, div_eq_div_iff (by positivity) hmr,
      mul_comm (m : ℝ), ← mul_assoc, ← two_zpow_add]
    congr 2
    omega
  have hx : IsCut k (fun x => compare (4 * 2 ^ (-(e + 2 * k)).toNat) (x * x * m)) (√((2 : ℝ) ^ (-e) / m)) := by
    refine isCut_squares hm0 (div_nonneg (two_zpow_pos _).le (Nat.cast_nonneg m)) ?_
    push_cast
    rw [pow_toNat (by omega), mul_assoc, ← two_zpow_add, ← two_zpow_add, mul_assoc, div_mul_cancel₀ _ hmr]
    congr 2
    ring
  obtain ⟨hq1, hq2, hq3⟩ := quotient_between (2 ^ K) hw0
  obtain ⟨h1, h2, h3⟩ := isqrt_scaled hP hq1 hq2
  rw [hW] at h1 h2 h3
  have hres : rsqRes rm (.fin false m e) = roundVal fmtF32 rm false false (isqrt (2 ^ K / w)) (-((e - odd) / 2) + -100)
      (isqrt (2 ^ K / w) * isqrt (2 ^ K / w) != 2 ^ K / w || 2 ^ K % w != 0) := by
    simp only [rsqRes, hm, if_false, hw, ho, hK, Bool.false_eq_true, Int.sub_eq_add_neg]
  rw [hres]
  refine roundVal_delivers (by decide) rm false _ hl hx (fun _ => le_isqrt ?_) h1 h2 ?_
  · have hw65 : w ≤ 2 ^ 65 := by
      rw [hw, show (65 : Nat) = 64 + 1 from rfl, Nat.pow_add]
      exact Nat.mul_le_mul hm64.le (Nat.pow_le_pow_right (by omega) (by omega))
    refine (Nat.le_div_iff_mul_le hw0).2 ?_
    calc 2 ^ 24 * 2 ^ 24 * w ≤ 2 ^ 24 * 2 ^ 24 * 2 ^ 65 := Nat.mul_le_mul_left _ hw65
      _ = 2 ^ 113 := by norm_num
      _ ≤ 2 ^ K := Nat.pow_le_pow_right (by omega) (by omega)
  · rw [Bool.or_eq_true, bne_iff_ne, bne_iff_ne, ne_eq, ne_eq, ne_eq, h3, hq3, not_and_or]

end Sys2Proof.Machine
end

section
/-! SUPPORT. NaNs, infinities and codes of float results (R143, R144, R147, R157, R177), and rounding to a whole number (R145). -/
namespace Sys2Proof.Machine

/-! ## Signs and NaNs -/

theorem signed_mod {B c : Nat} (neg : Bool) (hc : c < 2 ^ B) : ((if neg then 2 ^ B else 0) + c) % 2 ^ B = c := by
  cases neg <;> simp [Nat.mod_eq_of_lt hc]

theorem signed_div {B c : Nat} (neg : Bool) (hc : c < 2 ^ B) : (((if neg then 2 ^ B else 0) + c) / 2 ^ B % 2 == 1) = neg := by
  cases neg
  · simp [Nat.div_eq_of_lt hc]
  · simp [Nat.add_div_left, Nat.div_eq_of_lt hc]

/-- A quieted payload, of the 23 bits of R143. -/
theorem quiet_range {fr : Nat} (h : fr < 2 ^ 23) : 2 ^ 22 ≤ fr ||| quietBit ∧ fr ||| quietBit < 2 ^ 23 :=
  ⟨Nat.right_le_or, Nat.or_lt_two_pow h (by decide)⟩

theorem nanOut_ieee {f : FloatFmt} (hk : f.kind = .ieee) (hm : 1 ≤ f.mbits ∧ f.mbits ≤ 23) (n : Bool) {fr : Nat}
    (hfr : fr < 2 ^ 23) (fl : Flags) : NanOut f n fr fl (FRes.nanOf f n fr fl) := by
  obtain ⟨hlo, hhi⟩ := quiet_range hfr
  obtain ⟨q, hq⟩ : ∃ q, (fr ||| quietBit) / 2 ^ (23 - f.mbits) = q := ⟨_, rfl⟩
  have hq0 : 0 < q := by
    rw [← hq]
    exact Nat.div_pos ((Nat.pow_le_pow_right (by omega) (by omega)).trans hlo) (Nat.two_pow_pos _)
  have hqm : q < 2 ^ f.mbits := by
    rw [← hq]
    refine Nat.div_lt_of_lt_mul (hhi.trans_eq ?_)
    rw [← Nat.pow_add]
    congr 1
    omega
  have hE : 1 ≤ 2 ^ f.ebits := Nat.two_pow_pos _
  have hmag : (2 ^ f.ebits - 1) * 2 ^ f.mbits + q < 2 ^ f.magBits := by
    unfold FloatFmt.magBits
    rw [Nat.pow_add, Nat.sub_mul, Nat.one_mul]
    have : 2 ^ f.mbits ≤ 2 ^ f.ebits * 2 ^ f.mbits := Nat.le_mul_of_pos_left _ hE
    omega
  have hbits : f.encodeNan n fr = (if n then 2 ^ f.magBits else 0) + ((2 ^ f.ebits - 1) * 2 ^ f.mbits + q) := by
    simp only [FloatFmt.encodeNan, hk, hq, withSign_eq]
  refine ⟨rfl, by simp [FRes.nanOf, hk], rfl, ?_, ?_⟩
  · show f.encodeNan n fr < _
    rw [hbits, Nat.pow_succ]
    cases n <;> simp <;> omega
  · show FVal.decode f (f.encodeNan n fr) = _
    rw [hbits, hq]
    unfold FVal.decode
    simp only [signed_mod n hmag, signed_div n hmag]
    rw [Nat.mul_comm, Nat.mul_add_div (Nat.two_pow_pos _), Nat.div_eq_of_lt hqm, Nat.add_zero, Nat.mul_add_mod, Nat.mod_eq_of_lt hqm,
      if_pos ⟨hk, rfl⟩, if_neg hq0.ne', if_neg (by simp [hk])]

/-- A NaN is delivered by R143's rule in every format that has one. -/
theorem nanOut_nanOf {f : FloatFmt} (hf : f ∈ floatFormats) (hk : f.kind ≠ .finite) (n : Bool) {fr : Nat} (hfr : fr < 2 ^ 23) (fl : Flags) :
    NanOut f n fr fl (FRes.nanOf f n fr fl) := by
  simp only [floatFormats, List.mem_cons, List.not_mem_nil, or_false] at hf
  rcases hf with rfl | rfl | rfl | rfl | rfl | rfl | rfl | rfl
  case inr.inr.inr.inl =>
    have h : ∀ n, fmtE4m3.encodeNan n 0 < 2 ^ (fmtE4m3.magBits + 1) ∧ FVal.decode fmtE4m3 (fmtE4m3.encodeNan n 0) = .nan n 0x700000 := by decide
    exact ⟨rfl, rfl, rfl, (h n).1, (h n).2⟩
  case inr.inr.inr.inr.inr.inl => exact absurd rfl hk
  case inr.inr.inr.inr.inr.inr.inl => exact absurd rfl hk
  case inr.inr.inr.inr.inr.inr.inr => exact absurd rfl hk
  all_goals exact nanOut_ieee rfl (by decide) n hfr fl

theorem fmtF32_mem : fmtF32 ∈ floatFormats := by decide

theorem invalidOut_f32 : InvalidOut fmtF32 (FRes.invalid fmtF32) := nanOut_nanOf fmtF32_mem (by decide) false (by decide) flNV

theorem signalling_nan (n : Bool) (fr : Nat) : (FVal.nan n fr).signalling = decide (fr / quietBit % 2 = 0) := by
  simp [FVal.signalling, Bool.beq_eq_decide_eq]

/-- The first NaN of a list is what it delivers. -/
theorem firstNan_append (f : FloatFmt) (bad : Bool) (n : Bool) (fr : Nat) (post : List FVal) : ∀ pre : List FVal, (∀ x ∈ pre, x.isNan = false) →
    firstNan f bad (pre ++ .nan n fr :: post) = some (FRes.nanOf f n fr (if bad = true ∨ fr / quietBit % 2 = 0 then flNV else 0#5))
  | [], _ => by simp [firstNan, signalling_nan]
  | .nan _ _ :: _, h => by simpa [FVal.isNan] using h _ (List.mem_cons_self ..)
  | .inf _ :: pre, h => firstNan_append f bad n fr post pre fun x hx => h x (List.mem_cons_of_mem _ hx)
  | .fin .. :: pre, h => firstNan_append f bad n fr post pre fun x hx => h x (List.mem_cons_of_mem _ hx)

theorem nanRule_of_firstNan {f : FloatFmt} (hf : f ∈ floatFormats) {bad : Bool} {args : List FVal} {r : FRes}
    (h : ∀ x, firstNan f bad args = some x → r = x) : NanRule f bad args r := by
  rintro pre n fr post rfl hpre hfr hk
  rw [h _ (firstNan_append f bad n fr post pre hpre)]
  exact nanOut_nanOf hf hk n hfr _

/-- A function of one f32 that hands its NaN to R143. -/
theorem nanRule_one {r : FVal → FRes} (h : ∀ n fr, r (.nan n fr) = FRes.nanOf fmtF32 n fr (if (FVal.nan n fr).signalling then flNV else 0#5))
    (a : FVal) : NanRule fmtF32 false [a] (r a) := by
  refine nanRule_of_firstNan fmtF32_mem fun x hx => ?_
  cases a with
  | nan n fr => simpa [firstNan, h] using hx
  | inf n => simp [firstNan] at hx
  | fin n m e => simp [firstNan] at hx

/-! ## Conversions of a value -/

theorem cvtRes_nan {f : FloatFmt} (hk : f.kind ≠ .finite) (rm : BitVec 2) (sat n : Bool) (fr : Nat) :
    cvtRes f rm sat (.nan n fr) = FRes.nanOf f n fr (if fr / quietBit % 2 = 0 then flNV else 0#5) := by
  simp [cvtRes, hk, signalling_nan]

theorem infinityOf_eq (f : FloatFmt) (n : Bool) (h : f.kind = .ieee) : FRes.infOf f n false = infinityOf f n := by
  simp [FRes.infOf, h, infinityOf, withSign_eq, Nat.add_assoc]

/-- An infinity, by R144. -/
theorem cvtRes_inf {f : FloatFmt} (hf : f ∈ floatFormats) (rm : BitVec 2) (sat n : Bool) :
    (sat = true → cvtRes f rm sat (.inf n) = ⟨(zeroOf f n).bits + f.maxEnc, 0#5, false, false⟩) ∧
    (sat = false → (f.kind = .ieee → cvtRes f rm sat (.inf n) = infinityOf f n) ∧
      (f.kind = .nanOnly → NanOut f n quietBit flNV (cvtRes f rm sat (.inf n))) ∧
      (f.kind = .finite → cvtRes f rm sat (.inf n) = ⟨(zeroOf f n).bits + f.maxEnc, flNV, false, false⟩)) := by
  refine ⟨?_, ?_⟩
  · rintro rfl
    simp only [cvtRes, FRes.infOf, withSign_eq, zeroOf]
  · rintro rfl
    refine ⟨fun h => infinityOf_eq f n h, fun h => ?_, fun h => ?_⟩
    · have hr : cvtRes f rm false (.inf n) = FRes.nanOf f n quietBit flNV := by
        simp only [cvtRes, FRes.infOf, h, FRes.nanOf]
        rfl
      rw [hr]
      exact nanOut_nanOf hf (by rw [h]; decide) n (by decide) flNV
    · simp [cvtRes, FRes.infOf, h, withSign_eq, zeroOf]

theorem mbits_pos {f : FloatFmt} (hf : f ∈ floatFormats) : 1 ≤ f.mbits := by
  revert f; decide

/-! ## Rounding to a whole number -/

/-- Multiples of d beside n·d. -/
theorem mul_beside (b n d : Nat) : (b < n ∧ b * d + d ≤ n * d) ∨ b = n ∨ (b = n + 1 ∧ b * d = n * d + d) ∨ (n + 1 < b ∧ n * d + 2 * d ≤ b * d) := by
  rcases lt_trichotomy b n with h | h | h
  · exact .inl ⟨h, by have := Nat.mul_le_mul_right d (Nat.succ_le_of_lt h); rwa [Nat.succ_mul] at this⟩
  · exact .inr (.inl h)
  · rcases Nat.eq_or_lt_of_le (Nat.succ_le_of_lt h) with h1 | h1
    · exact .inr (.inr (.inl ⟨h1.symm, by rw [← h1, Nat.succ_mul]⟩))
    · exact .inr (.inr (.inr ⟨h1, by have := Nat.mul_le_mul_right d (Nat.succ_le_of_lt h1); rw [Nat.succ_mul, Nat.succ_mul] at this; omega⟩))

theorem nearest_floor {x d n r : Nat} (hx : x = n * d + r) (hr : 2 * r < d ∨ (2 * r = d ∧ n % 2 = 0)) (b : Nat) :
    apart (n * d) x ≤ apart (b * d) x ∧ (apart (n * d) x = apart (b * d) x → b ≠ n → n % 2 = 0) := by
  unfold apart
  rcases mul_beside b n d with ⟨h, h1⟩ | rfl | ⟨h, h1⟩ | ⟨h, h1⟩ <;> omega

theorem nearest_ceil {x d n r : Nat} (hx : x = n * d + r) (hd : r < d) (hr : d < 2 * r ∨ (2 * r = d ∧ n % 2 = 1)) (b : Nat) :
    apart ((n + 1) * d) x ≤ apart (b * d) x ∧ (apart ((n + 1) * d) x = apart (b * d) x → b ≠ n + 1 → (n + 1) % 2 = 0) := by
  unfold apart
  rw [Nat.succ_mul]
  rcases mul_beside b n d with ⟨h, h1⟩ | rfl | ⟨h, h1⟩ | ⟨h, h1⟩ <;> omega

/-- The model's rounding of x / d by a mode is R145's. -/
theorem roundedInt_step (rm : BitVec 2) (neg : Bool) {x d n r : Nat} (hx : x = n * d + r) (hr : r < d) :
    RoundedInt rm neg x d (if r = 0 then n else if roundsUp rm neg (n % 2 == 1)
      (if 2 * r < d then .lt else if 2 * r = d then .eq else .gt) then n + 1 else n) := by
  have hup : n * d + d = (n + 1) * d := (Nat.succ_mul n d).symm
  have down : n * d ≤ x ∧ x < (n + 1) * d := by omega
  have up (h : r ≠ 0) : x ≤ (n + 1) * d ∧ (n + 1) * d < x + d := by omega
  unfold RoundedInt
  by_cases h0 : r = 0
  · have same : x ≤ n * d ∧ n * d < x + d := by omega
    rw [if_pos h0]
    split
    · exact nearest_floor hx (by omega)
    · split
      · exact down
      · exact same
  · rw [if_neg h0]
    obtain rfl | rfl | rfl | rfl := roundMode_cases rm
    · rw [if_pos rfl]
      rcases lt_trichotomy (2 * r) d with hc | hc | hc
      · rw [if_pos hc]
        exact nearest_floor hx (.inl hc)
      · rw [if_neg hc.not_lt, if_pos hc]
        rcases Nat.mod_two_eq_zero_or_one n with hn | hn
        · simp only [roundsUp, hn]
          exact nearest_floor hx (.inr ⟨hc, hn⟩)
        · simp only [roundsUp, hn]
          exact nearest_ceil hx hr (.inr ⟨hc, hn⟩)
      · rw [if_neg hc.not_gt, if_neg hc.ne']
        exact nearest_ceil hx hr (.inl hc)
    · exact down
    · cases neg
      · exact down
      · exact up h0
    · cases neg
      · exact up h0
      · exact down

/-- Rounding to a whole number, and when it is exact. -/
theorem roundToInt_spec (rm : BitVec 2) (neg : Bool) (m : Nat) (e : Int) :
    RoundedInt rm neg (m * 2 ^ e.toNat) (2 ^ (-e).toNat) (roundToInt rm neg m e).1 ∧
      ((roundToInt rm neg m e).2 = false ↔ (roundToInt rm neg m e).1 * 2 ^ (-e).toNat = m * 2 ^ e.toNat) := by
  unfold roundToInt
  by_cases he : 0 ≤ e
  · have hd : (2 : Nat) ^ (-e).toNat = 1 := by rw [Int.toNat_of_nonpos (by omega), Nat.pow_zero]
    rw [if_pos he, hd]
    have h := roundedInt_step rm neg (x := m * 2 ^ e.toNat) (n := m * 2 ^ e.toNat) (d := 1) (r := 0) (by omega) (by omega)
    exact ⟨by simpa using h, by simp⟩
  · have hp : (2 : Nat) ^ e.toNat = 1 := by rw [Int.toNat_of_nonpos (by omega), Nat.pow_zero]
    rw [if_neg he, hp, Nat.mul_one]
    dsimp only
    generalize hd : (2 : Nat) ^ (-e).toNat = d
    have hd0 : 0 < d := hd ▸ Nat.two_pow_pos _
    have hdm : m = m / d * d + m % d := (Nat.div_add_mod' m d).symm
    have hml := Nat.mod_lt m hd0
    have h := roundedInt_step rm neg hdm hml
    by_cases h0 : m % d = 0
    · simp only [h0, if_true] at h ⊢
      exact ⟨h, by rw [h0] at hdm; simpa using hdm.symm⟩
    · simp only [h0, if_false] at h ⊢
      refine ⟨h, ?_⟩
      simp only [Bool.true_eq_false, false_iff]
      intro hc
      exact h0 (by rw [← hc]; exact Nat.mul_mod_left ..)

end Sys2Proof.Machine
end

section
/-! SUPPORT. Conversions to and from integers, rounding to an integral f32, and the codes of what they deliver (R145, R146, R172, R177). -/
namespace Sys2Proof.Machine

/-! ## To an integer -/

theorem signedNat_eq (n : Bool) (z : Nat) : signedInt n z = signedNat n z := by cases n <;> rfl

theorem roundToInt_inexact (rm : BitVec 2) (n : Bool) (m : Nat) (e : Int) :
    (roundToInt rm n m e).2 = decide ((roundToInt rm n m e).1 * 2 ^ (-e).toNat ≠ m * 2 ^ e.toNat) := by
  rw [Bool.eq_iff_iff, decide_eq_true_iff, ne_eq, ← (roundToInt_spec rm n m e).2, Bool.not_eq_false]

/-- `toIntRes` of a finite value. -/
theorem toIntRes_fin (lo hi : Int) (rm : BitVec 2) (sat n : Bool) (m : Nat) (e : Int) :
    ∃ z, RoundedInt rm n (m * 2 ^ e.toNat) (2 ^ (-e).toNat) z ∧ toIntRes lo hi rm sat (.fin n m e) =
      if signedNat n z < lo then ⟨lo, if sat then flNX else flNV, true, true⟩
      else if hi < signedNat n z then ⟨hi, if sat then flNX else flNV, true, true⟩
      else ⟨signedNat n z, if z * 2 ^ (-e).toNat = m * 2 ^ e.toNat then 0#5 else flNX, false, decide (z * 2 ^ (-e).toNat ≠ m * 2 ^ e.toNat)⟩ := by
  refine ⟨_, (roundToInt_spec rm n m e).1, ?_⟩
  simp only [toIntRes, signedNat_eq, gt_iff_lt, roundToInt_inexact rm n m e, decide_eq_true_iff, ne_eq, ite_not]

theorem intOut_eq (signed : Bool) (r : IntRes) : intOut signed r = ⟨BitVec.ofInt 32 r.val, r.differs, decide (BitVec.ofInt 32 r.val = 0#32),
    signed && (BitVec.ofInt 32 r.val).msb, r.clamped, r.flags, 0#4⟩ := by
  simp only [intOut, Bool.beq_eq_decide_eq]

/-! ## An integral f32 -/

/-- Whole numbers up to 2^24 are f32 values. -/
theorem exists_f32_whole {z : Nat} (hz : z ≤ 2 ^ 24) : ∃ c, c ≤ fmtF32.maxEnc ∧ fmtF32.realOf c = z := by
  obtain ⟨c, hc⟩ := exists_encoding fmtF32 149 z hz
  rw [lowest_f32] at hc
  norm_num at hc
  have hz' : (z : ℝ) ≤ 2 ^ 24 := by exact_mod_cast hz
  exact ⟨c, le_maxEnc_of_realOf_lt (by rw [hc]; norm_num; linarith), hc⟩

/-- The whole number that a finite f32 rounds to is an f32. -/
theorem exists_rounded_f32 {b : Nat} {n : Bool} {m : Nat} {e : Int} (rm : BitVec 2) (h : FVal.decode fmtF32 b = .fin n m e) :
    ∃ c, c ≤ fmtF32.maxEnc ∧ fmtF32.realOf c = (roundToInt rm n m e).1 := by
  obtain ⟨c, hc, hv, hm, -⟩ := realOf_of_decode h
  unfold roundToInt
  by_cases he : 0 ≤ e
  · rw [if_pos he]
    refine ⟨c, hc, ?_⟩
    push_cast
    rw [← hv, pow_toNat he]
  · rw [if_neg he]
    dsimp only
    refine exists_f32_whole ?_
    obtain ⟨k, hk⟩ : ∃ k : Nat, (-e).toNat = k + 1 := ⟨(-e).toNat - 1, by omega⟩
    have hq : m / 2 ^ (-e).toNat ≤ m / 2 := Nat.div_le_div_left (by rw [hk]; exact Nat.le_self_pow (by omega) 2) (by omega)
    split
    · show m / _ ≤ _
      omega
    · dsimp only
      generalize roundsUp rm n _ _ = u
      cases u <;> simp <;> omega

/-- `FRND` of a finite value delivers the whole number it rounds to. -/
theorem rndRes_fin {b : Nat} {n : Bool} {m : Nat} {e : Int} (rm : BitVec 2) (h : FVal.decode fmtF32 b = .fin n m e) :
    ∃ z c, RoundedInt rm n (m * 2 ^ e.toNat) (2 ^ (-e).toNat) z ∧ c ≤ fmtF32.maxEnc ∧ fmtF32.realOf c = z ∧ rndRes rm (.fin n m e) =
      ⟨(if n then 2 ^ fmtF32.magBits else 0) + c, if z * 2 ^ (-e).toNat = m * 2 ^ e.toNat then 0#5 else flNX, false, false⟩ := by
  obtain ⟨c, hc, hv⟩ := exists_rounded_f32 rm h
  refine ⟨_, c, (roundToInt_spec rm n m e).1, hc, hv, ?_⟩
  have hx := roundVal_exact (f := fmtF32) (by decide) false n (m := (roundToInt rm n m e).1) (e := 0) hc (by rw [hv]; simp)
  simp only [rndRes, hx, roundToInt_inexact rm n m e, decide_eq_true_iff, ne_eq, ite_not]

theorem signed_lt {f : FloatFmt} {c : Nat} (n : Bool) (hc : c < 2 ^ f.magBits) : (if n then 2 ^ f.magBits else 0) + c < 2 ^ (f.magBits + 1) := by
  rw [Nat.pow_succ]
  cases n <;> simp <;> omega

/-- A signed f32 is read as the whole number it stands for. -/
theorem decode_whole {c z : Nat} (n : Bool) (hc : c ≤ fmtF32.maxEnc) (hv : fmtF32.realOf c = z) :
    (if n then 2 ^ fmtF32.magBits else 0) + c < 2 ^ 32 ∧ (FVal.decode fmtF32 ((if n then 2 ^ fmtF32.magBits else 0) + c)).neg? = n ∧
      (FVal.decode fmtF32 ((if n then 2 ^ fmtF32.magBits else 0) + c)).cmp (.fin n z 0) = .eq := by
  obtain ⟨m, e, hd, hr⟩ := decode_f32_signed n hc
  refine ⟨signed_lt n (lt_of_le_of_lt hc (by decide)), by rw [hd]; rfl, ?_⟩
  rw [hd]
  exact cmp_fin_eq (by rw [hr, hv]; simp)

/-! ## Codes and classes -/

theorem any_eq_not_all (p : FVal → Bool) (ins : List FVal) : ins.all (fun x => !p x) = !ins.any p := by
  induction ins with
  | nil => rfl
  | cons x xs ih => simp [ih]

theorem classOf_is (r : FRes) (ins : List FVal) : ClassIs r.nan r.inf ins (classOf r ins) := by
  unfold ClassIs classOf
  rw [any_eq_not_all, any_eq_not_all]
  generalize r.nan = a, r.inf = b, ins.any FVal.isNan = c, ins.any FVal.isInf = d
  revert a b c d
  decide

/-- Codes of a value read from a format with an infinity. -/
theorem decode_codes {f : FloatFmt} (hk : f.kind = .ieee) (he : 1 ≤ f.ebits) (bits : Nat) :
    let x := FVal.decode f bits
    let c := bits % 2 ^ f.magBits
    x.isZero = decide (c = 0) ∧ x.isInf = decide (c = f.maxEnc + 1) ∧ x.isNan = decide (f.maxEnc + 1 < c) ∧ x.neg? = (bits / 2 ^ f.magBits % 2 == 1) := by
  dsimp only
  have hp := Nat.two_pow_pos f.mbits
  have hdm := Nat.div_add_mod (bits % 2 ^ f.magBits) (2 ^ f.mbits)
  have hml := Nat.mod_lt (bits % 2 ^ f.magBits) hp
  have hlt : bits % 2 ^ f.magBits < 2 ^ f.ebits * 2 ^ f.mbits := by
    rw [← Nat.pow_add]
    exact Nat.mod_lt _ (Nat.two_pow_pos _)
  have hE : 2 ^ 1 ≤ 2 ^ f.ebits := Nat.pow_le_pow_right (by omega) he
  have hmax : f.maxEnc + 1 = (2 ^ f.ebits - 1) * 2 ^ f.mbits := by
    have hle : 2 * 2 ^ f.mbits ≤ 2 ^ f.ebits * 2 ^ f.mbits := Nat.mul_le_mul_right _ hE
    simp only [FloatFmt.maxEnc, hk, FloatFmt.magBits, Nat.pow_add, Nat.sub_mul, Nat.one_mul]
    omega
  rw [hmax]
  unfold FVal.decode
  dsimp only
  generalize bits % 2 ^ f.magBits = c at *
  generalize 2 ^ f.ebits = E at *
  have hq : c / 2 ^ f.mbits < E := Nat.div_lt_of_lt_mul (by rwa [Nat.mul_comm])
  have hone : 2 ^ f.mbits ≤ (E - 1) * 2 ^ f.mbits := Nat.le_mul_of_pos_left _ (by omega)
  by_cases h1 : c / 2 ^ f.mbits = E - 1
  · rw [h1, Nat.mul_comm] at hdm
    rw [if_pos ⟨hk, h1⟩]
    by_cases h2 : c % 2 ^ f.mbits = 0
    · rw [if_pos h2]
      refine ⟨?_, ?_, ?_, rfl⟩ <;> simp only [FVal.isZero, FVal.isInf, FVal.isNan] <;> symm
      · exact decide_eq_false (by omega)
      · exact decide_eq_true (by omega)
      · exact decide_eq_false (by omega)
    · rw [if_neg h2]
      refine ⟨?_, ?_, ?_, rfl⟩ <;> simp only [FVal.isZero, FVal.isInf, FVal.isNan] <;> symm
      · exact decide_eq_false (by omega)
      · exact decide_eq_false (by omega)
      · exact decide_eq_true (by omega)
  · have hc : c < (E - 1) * 2 ^ f.mbits := by
      rw [← Nat.div_lt_iff_lt_mul hp]
      omega
    rw [if_neg (fun h => h1 h.2), if_neg (by simp [hk])]
    by_cases h2 : c / 2 ^ f.mbits = 0
    · rw [if_pos h2]
      rw [h2, Nat.mul_zero, Nat.zero_add] at hdm
      refine ⟨?_, ?_, ?_, rfl⟩ <;> simp only [FVal.isZero, FVal.isInf, FVal.isNan]
      · rw [hdm, Bool.beq_eq_decide_eq]
      · exact (decide_eq_false (by omega)).symm
      · exact (decide_eq_false (by omega)).symm
    · rw [if_neg h2]
      have h0 : c ≠ 0 := fun h => h2 (by rw [h, Nat.zero_div])
      refine ⟨?_, ?_, ?_, rfl⟩ <;> simp only [FVal.isZero, FVal.isInf, FVal.isNan]
      · rw [decide_eq_false h0, beq_eq_false_iff_ne]
        omega
      · exact (decide_eq_false (by omega)).symm
      · exact (decide_eq_false (by omega)).symm

/-- The codes of a delivered 16-bit float. -/
theorem narrowOut_codes {f : FloatFmt} (hk : f.kind = .ieee) (he : 1 ≤ f.ebits) (hw : f.magBits = 15) {r : FRes} (ins : List FVal)
    (hb : r.bits < 2 ^ 16) :
    let m := r.bits % 2 ^ 15
    let o := narrowOut f r ins
    o.val.toNat = r.bits ∧ o.flags = r.flags ∧ ClassIs r.nan r.inf ins o.cls ∧ o.z = decide (m = 0) ∧ o.c = decide (m = f.maxEnc + 1) ∧
      o.v = decide (f.maxEnc + 1 < m) ∧ o.n = (decide (2 ^ 15 ≤ r.bits) && decide (m ≤ f.maxEnc + 1)) := by
  obtain ⟨hz, hi, hn, hs⟩ := decode_codes hk he r.bits
  rw [hw] at hz hi hn hs
  refine ⟨?_, rfl, classOf_is r ins, hz, hi, hn, ?_⟩
  · show (BitVec.ofNat 32 r.bits).toNat = _
    rw [BitVec.toNat_ofNat, Nat.mod_eq_of_lt (hb.trans (by decide))]
  · show ((FVal.decode f r.bits).neg? && !(FVal.decode f r.bits).isNan) = _
    have hsign : (r.bits / 2 ^ 15 % 2 == 1) = decide (2 ^ 15 ≤ r.bits) := by
      rw [Bool.eq_iff_iff, beq_iff_eq, decide_eq_true_iff]
      omega
    simp only [hs, hn, hsign, ← decide_not, Nat.not_lt]

end Sys2Proof.Machine
end

section
/-! PROOF. Scaled multiply-add, rounding and conversions (R98, R133, R144 to R146, R151, R171, R172, R176, R177). -/
namespace Sys2Proof.Machine

theorem scale_byte (v : Word) (b : BitVec 2) : v.extractLsb' (8 * b.toNat) 8 = (v >>> (8 * b.toNat)).setWidth 8 := rfl

/-- `FMAS` in the lanes of its mask. -/
theorem fmas_does (o : FmasOp) : Does (.fmas o) o.k (.regs o.d 1) none none [.reg o.a, .reg o.b, .reg o.d, .reg o.sr] false (fun _ => True)
    (codesIf o.c codesAll) (fun h l =>
      let a := f32 (h.v o.a)[l]
      let b := f32 (h.v o.b)[l]
      let d := f32 (h.v o.d)[l]
      let sa := e8m0 (((h.v o.sr)[l] >>> (8 * o.ba.toNat)).setWidth 8)
      let sb := e8m0 (((h.v o.sr)[l] >>> (8 * o.bb.toNat)).setWidth 8)
      floatOut (fmaRes fmtF32 h.f.view.rm false [a, sa, b, sb, d] (a.scaleBy sa) (b.scaleBy sb) d) [a, sa, b, sb, d]) := by
  refine fun s h => ⟨fun q _ hq => ?_, fun q he => ?_⟩
  · obtain ⟨h', r⟩ := runLane_perLane (s := s) (h := h)
      ⟨.fmas o, o.k, .regs o.d 1, none, none, [.reg o.a, .reg o.b, .reg o.d, .reg o.sr], [], none⟩ (codesIf o.c codesAll) _
      (fun ex => perLane ex (codesIf o.c codesAll) _) _ rfl rfl rfl rfl rfl rfl rfl rfl rfl q (fun _ _ e => by cases e; rfl) (.inl rfl) hq
    exact ⟨_, h', onFragment_issues q.issues _, r⟩
  · exact idle_goesOn q _ (runLane_idle _ _ he)

/-! ## The forms with a selector -/

section
variable (o : CvtOp) (s : State)

theorem exec_frnd : exec (.frnd o) s = lrCvt s (.frnd o) o (fun rm _ a => floatOut (rndRes rm (f32 a)) [f32 a]) := rfl

theorem exec_cvtfi : exec (.cvtfi o) s = lrCvt s (.cvtfi o) o (fun rm sat a => intOut true (toIntRes (-2 ^ 31) (2 ^ 31 - 1) rm sat (f32 a))) := rfl

theorem exec_cvtfn : exec (.cvtfn o) s = lrCvt s (.cvtfn o) o (fun rm sat a => intOut false (toIntRes 0 (2 ^ 32 - 1) rm sat (f32 a))) := rfl

theorem exec_cvtif : exec (.cvtif o) s = lrCvt s (.cvtif o) o (fun rm _ a => floatOut (roundInt fmtF32 rm false a.toInt 0) []) := rfl

theorem exec_cvtnf : exec (.cvtnf o) s = lrCvt s (.cvtnf o) o (fun rm _ a => floatOut (roundInt fmtF32 rm false a.toNat 0) []) := rfl

theorem exec_cvtfh : exec (.cvtfh o) s = lrCvt s (.cvtfh o) o (fun rm sat a => narrowOut fmtF16 (cvtRes fmtF16 rm sat (f32 a)) [f32 a]) := rfl

theorem exec_cvtfb : exec (.cvtfb o) s = lrCvt s (.cvtfb o) o (fun rm sat a => narrowOut fmtBf16 (cvtRes fmtBf16 rm sat (f32 a)) [f32 a]) := rfl

theorem exec_cvthf : exec (.cvthf o) s = lrCvt s (.cvthf o) o (fun rm _ a =>
    floatOut (cvtRes fmtF32 rm false (low16 fmtF16 a)) [low16 fmtF16 a]) := rfl

theorem exec_cvtbf : exec (.cvtbf o) s = lrCvt s (.cvtbf o) o (fun rm _ a =>
    floatOut (cvtRes fmtF32 rm false (low16 fmtBf16 a)) [low16 fmtBf16 a]) := rfl

/-- A 16-bit float is read from the low half of its word. -/
theorem low16_eq (f : FloatFmt) (a : Word) : low16 f a = FVal.decode f (a.extractLsb' 0 16).toNat := by
  unfold low16
  rw [BitVec.extractLsb'_toNat, Nat.shiftRight_zero]

end

/-! ## Values -/

/-- `FRND`'s value, as the statement asks. -/
theorem rndRes_word (rm : BitVec 2) {w : Word} {n : Bool} {m : Nat} {e : Int} (h : f32 w = .fin n m e) :
    ∃ z, RoundedInt rm n (m * 2 ^ e.toNat) (2 ^ (-e).toNat) z ∧ (rndRes rm (f32 w)).bits < 2 ^ 32 ∧
      (FVal.decode fmtF32 (rndRes rm (f32 w)).bits).neg? = n ∧ (FVal.decode fmtF32 (rndRes rm (f32 w)).bits).cmp (.fin n z 0) = .eq ∧
      (rndRes rm (f32 w)).flags = (if z * 2 ^ (-e).toNat = m * 2 ^ e.toNat then 0#5 else flNX) ∧ (rndRes rm (f32 w)).nan = false ∧
      (rndRes rm (f32 w)).inf = false := by
  obtain ⟨z, c, hr, hc, hv, hres⟩ := rndRes_fin rm h
  obtain ⟨hlt, hneg, hcmp⟩ := decode_whole n hc hv
  rw [h, hres]
  exact ⟨z, hr, hlt, hneg, hcmp, rfl, rfl, rfl⟩

/-- A NaN converted. -/
theorem cvtRes_nan_out {f : FloatFmt} (hf : f ∈ floatFormats) (rm : BitVec 2) (sat n : Bool) {fr : Nat} (hfr : fr < 2 ^ 23) :
    if f.kind = .finite then cvtRes f rm sat (.nan n fr) = ⟨0, flNV, false, false⟩
    else NanOut f n fr (if fr / quietBit % 2 = 0 then flNV else 0#5) (cvtRes f rm sat (.nan n fr)) := by
  split
  · next h => simp only [cvtRes, h, if_true]
  · next h => exact cvtRes_nan h rm sat n fr ▸ nanOut_nanOf hf h n hfr _

/-- Settles O12: each form by its rule for a lane, and each value by the one rounding. -/
theorem scalingAndConversions : Obligations.ScalingAndConversions := by
  refine ⟨fmas_does, fun o => ⟨?_, ?_, ?_, ?_, ?_, ?_, ?_, ?_, ?_⟩, fun b n m e k => ⟨fun hb => ?_, rfl, rfl, rfl⟩,
    fun f rm sat n hf => ⟨fun fr hfr => cvtRes_nan_out hf rm sat n hfr, (cvtRes_inf hf rm sat n).1, (cvtRes_inf hf rm sat n).2,
      fun m e k hke hk => roundVal_exact_delivers (mbits_pos hf) rm sat n m hke hk, fun z k hk0 hk => ?_⟩,
    fun lo hi rm sat n fr => ⟨rfl, rfl⟩, fun lo hi rm sat n m e _ => toIntRes_fin lo hi rm sat n m e,
    fun rm n fr => ⟨fun hfr => cvtRes_nan_out fmtF32_mem rm false n hfr, infinityOf_eq fmtF32 n rfl⟩, fun rm w n m e => rndRes_word rm, intOut_eq,
    fun f r ins hf hb => ?_⟩
  · exact lrCvt_does (exec_frnd o) fun _ _ => rfl
  · exact lrCvt_does (exec_cvtfi o) fun _ _ => rfl
  · exact lrCvt_does (exec_cvtfn o) fun _ _ => rfl
  · exact lrCvt_does (exec_cvtif o) fun _ _ => rfl
  · exact lrCvt_does (exec_cvtnf o) fun _ _ => rfl
  · exact lrCvt_does (exec_cvtfh o) fun _ _ => rfl
  · exact lrCvt_does (exec_cvtfb o) fun _ _ => rfl
  · exact lrCvt_does (exec_cvthf o) fun _ a => by rw [low16_eq]
  · exact lrCvt_does (exec_cvtbf o) fun _ a => by rw [low16_eq]
  · rw [e8m0, if_neg hb]
    rfl
  · have h := roundVal_exact_delivers (mbits_pos hf) rm sat (decide (z < 0)) z.natAbs hk0 hk
    rwa [zero_sub] at h
  · simp only [List.mem_cons, List.not_mem_nil, or_false] at hf
    obtain rfl | rfl := hf
    · exact narrowOut_codes rfl (by decide) rfl ins hb
    · exact narrowOut_codes rfl (by decide) rfl ins hb

end Sys2Proof.Machine
end

section
/-! SUPPORT. Special functions (R174, R175): what is fixed of their values, and that their fixed-point work keeps to it. -/
namespace Sys2Proof.Machine

/-! ## Whole arguments -/

theorem roundToInt_whole (rm : BitVec 2) (n : Bool) {m j : Nat} {e : Int} (h : m * 2 ^ e.toNat = j * 2 ^ (-e).toNat) :
    roundToInt rm n m e = (j, false) := by
  unfold roundToInt
  by_cases he : 0 ≤ e
  · rw [if_pos he, h, Int.toNat_of_nonpos (by omega : -e ≤ 0), Nat.pow_zero, Nat.mul_one]
  · rw [Int.toNat_of_nonpos (by omega : e ≤ 0), Nat.pow_zero, Nat.mul_one] at h
    rw [if_neg he, h]
    simp only [Nat.mul_mod_left, if_true, Nat.mul_div_cancel _ (Nat.two_pow_pos _)]

/-- The whole number at or below a value that is at least c is at least c. -/
theorem le_roundToInt_down {m c : Nat} {e : Int} (h : c * 2 ^ (-e).toNat ≤ m * 2 ^ e.toNat) : c ≤ (roundToInt 2#2 false m e).1 := by
  obtain ⟨hr, -⟩ := roundToInt_spec 2#2 false m e
  have hd : (roundToInt 2#2 false m e).1 * 2 ^ (-e).toNat ≤ m * 2 ^ e.toNat ∧
      m * 2 ^ e.toNat < ((roundToInt 2#2 false m e).1 + 1) * 2 ^ (-e).toNat := hr
  have := Nat.lt_of_mul_lt_mul_right (h.trans_lt hd.2)
  omega

/-- The exponent of the first bit of a value that is at least 2^c. -/
theorem le_log2_of_le {m c : Nat} {e : Int} (h : 2 ^ c * 2 ^ (-e).toNat ≤ m * 2 ^ e.toNat) : (c : Int) ≤ Int.ofNat (Nat.log2 m) + e := by
  have hm : m < 2 ^ (Nat.log2 m + 1) := Nat.lt_log2_self
  have hlt : 2 ^ (c + (-e).toNat) < 2 ^ (Nat.log2 m + 1 + e.toNat) := by
    rw [Nat.pow_add, Nat.pow_add]
    exact h.trans_lt (Nat.mul_lt_mul_of_pos_right hm (Nat.two_pow_pos _))
  have := (Nat.pow_lt_pow_iff_right (by omega : 1 < 2)).1 hlt
  simp only [Int.ofNat_eq_natCast]
  omega

theorem ne_zero_of_le {m c d x : Nat} (hc : 0 < c * d) (h : c * d ≤ m * x) : m ≠ 0 := by
  rintro rfl
  omega

/-! ## `FEXP2` -/

/-- A power of two of the normal range. -/
theorem sfuExact_pow {k : Int} {c : Nat} (hk : k = (c : Int) - 127) (hc : 1 ≤ c) (hc1 : c ≤ 254) :
    sfuExact false 1 k = ⟨c * 2 ^ 23, 0#5, false, false⟩ := by
  obtain ⟨E, rfl⟩ := Nat.exists_eq_add_of_le' hc
  have hv := realOf_f32_pow E
  have h := roundVal_exact (f := fmtF32) (by decide) false false (m := 1) (e := k) (c := (E + 1) * 2 ^ 23) (by rw [maxEnc_f32]; omega)
    (by rw [hv, hk, Nat.cast_one, one_mul]; congr 1; push_cast; ring)
  simpa [sfuExact] using h

theorem realOf_f32_low {c : Nat} (hc : c ≤ 2 ^ 23) : fmtF32.realOf c = c * (2 : ℝ) ^ (-149 : Int) := by
  have h := realOf_grid (f := fmtF32) (E := 0) (n := c) (hc.trans (by decide)) (.inl rfl)
  rw [Nat.zero_mul, Nat.zero_add] at h
  exact h

/-- A power of two below the normal range. -/
theorem sfuExact_sub {j : Nat} (h1 : 127 ≤ j) (h2 : j ≤ 149) : sfuExact false 1 (-j) = ⟨2 ^ (149 - j), 0#5, false, false⟩ := by
  have hle : 2 ^ (149 - j) ≤ 2 ^ 22 := Nat.pow_le_pow_right (by omega) (by omega)
  have h := roundVal_exact (f := fmtF32) (by decide) false false (m := 1) (e := -j) (c := 2 ^ (149 - j))
    (by rw [maxEnc_f32]; omega) (by
      rw [realOf_f32_low (hle.trans (by decide)), Nat.cast_one, one_mul, Nat.cast_pow, Nat.cast_ofNat, ← zpow_natCast, ← two_zpow_add]
      congr 1
      omega)
  simpa [sfuExact] using h

/-- A power of two too small for any encoding but zero. -/
theorem sfuExact_tiny {j : Nat} (h : 150 ≤ j) : sfuExact false 1 (-j) = ⟨0, flUF ||| flNX, false, false⟩ := by
  have hV := two_zpow_pos (-j)
  have hn : NearTo fmtF32 ((1 : Nat) * (2 : ℝ) ^ (-(j : Int))) 0 := by
    refine .inr ⟨rfl, fun b hb => absurd hb (Nat.succ_ne_zero b), ?_⟩
    rw [realOf_zero, realOf_f32_low (by decide), Nat.cast_one, one_mul, zero_add, one_mul]
    calc 2 * (2 : ℝ) ^ (-(j : Int)) = (2 : ℝ) ^ (1 + -(j : Int)) := by rw [two_zpow_add]; norm_num
      _ ≤ (2 : ℝ) ^ (-149 : Int) := zpow_le_zpow_right₀ (by norm_num) (by omega)
  have h := (roundVal_near (f := fmtF32) (by decide) false false (m := 1) (e := -j) (sticky := false) (by simp) le_rfl
    (by push_cast; linarith) (by simp) (Nat.zero_le _) hn).2 (by rw [realOf_zero]; push_cast; linarith)
  simpa [sfuExact] using h

/-- `FEXP2` of a whole number. -/
theorem exp2Res_whole (n : Bool) {m j : Nat} {e : Int} (h : m * 2 ^ e.toNat = j * 2 ^ (-e).toNat) : exp2Res (.fin n m e) =
    if signedInt n j ≥ 128 then sfuExact false 1 200 else if signedInt n j < -400 then sfuRound false 1 (-300) else sfuExact false 1 (signedInt n j) := by
  simp only [exp2Res, roundToInt_whole 2#2 n h, Bool.not_false, if_true]

theorem exp2Res_big {m : Nat} {e : Int} (h : 128 * 2 ^ (-e).toNat ≤ m * 2 ^ e.toNat) :
    exp2Res (.fin false m e) = { infinityOf fmtF32 false with flags := flOF ||| flNX } := by
  have hk : signedInt false (roundToInt 2#2 false m e).1 ≥ 128 := Int.ofNat_le.2 (le_roundToInt_down h)
  unfold exp2Res
  simp only [hk, if_true]
  decide

/-! ## `FLOG2` -/

/-- `FLOG2` of a power of two. -/
theorem log2Res_pow {j : Nat} {e : Int} (h : (j + e).natAbs ≤ 2 ^ 24) : ∃ c, c ≤ fmtF32.maxEnc ∧ fmtF32.realOf c = (j + e).natAbs ∧
    log2Res (.fin false (2 ^ j) e) = ⟨(if decide (j + e < 0) then 2 ^ fmtF32.magBits else 0) + c, 0#5, false, false⟩ := by
  have hj : 2 ^ j ≠ 0 := (Nat.two_pow_pos j).ne'
  have hres : log2Res (.fin false (2 ^ j) e) = if (j : Int) + e = 0 then ⟨0, 0#5, false, false⟩
      else sfuExact (decide ((j : Int) + e < 0)) ((j : Int) + e).natAbs 0 := by
    simp only [log2Res, hj, if_false, Nat.log2_two_pow, if_true, Bool.false_eq_true]
  rw [hres]
  by_cases hk : (j : Int) + e = 0
  · rw [if_pos hk, hk]
    exact ⟨0, Nat.zero_le _, by simp [realOf_zero], rfl⟩
  · rw [if_neg hk]
    obtain ⟨c, hc, hv⟩ := exists_f32_whole h
    exact ⟨c, hc, hv, roundVal_exact (by decide) false _ hc (by rw [hv]; simp)⟩

/-! ## The fixed-point exponential -/

/-- Each term of the series is at most the last. -/
theorem fxExpLoop_le {t : Nat} (ht : t ≤ fxOne) : ∀ fuel n term, term ≤ fxOne → fxExpLoop t fuel n term ≤ fuel * fxOne
  | 0, _, _, _ => Nat.zero_le _
  | fuel + 1, n, term, h => by
    have hterm : term * t / fxOne / (n + 1) ≤ term :=
      (Nat.div_le_self _ _).trans (Nat.div_le_of_le_mul (by rw [Nat.mul_comm fxOne]; exact Nat.mul_le_mul_left _ ht))
    have ih := fxExpLoop_le ht fuel (n + 1) _ (hterm.trans h)
    unfold fxExpLoop
    rw [Nat.succ_mul]
    omega

theorem fxExp_le {t : Nat} (ht : t ≤ fxOne) : fxExp t ≤ 90 * fxOne := fxExpLoop_le ht 90 0 fxOne le_rfl

theorem fxLn2_bounds : 0 < fxLn2 ∧ 46 * fxLn2 ≤ 32 * fxOne ∧ fxLn2 ≤ fxOne := by decide +kernel

/-- e^(−y) for a y of at least 32 is below 2^−40. -/
theorem fxExpNeg_small {y : Nat} (hy : 32 * fxOne ≤ y) : (fxExpNeg y).1 / 2 ^ (-(fxExpNeg y).2).toNat * 2 ^ 40 ≤ fxOne := by
  obtain ⟨hL, h46, hle⟩ := fxLn2_bounds
  have hk : 46 ≤ y / fxLn2 := (Nat.le_div_iff_mul_le hL).2 (h46.trans hy)
  have hdm := Nat.div_add_mod y fxLn2
  have harg : (y / fxLn2 + 1) * fxLn2 - y ≤ fxOne := by
    rw [Nat.succ_mul, Nat.mul_comm]
    omega
  have hp := fxExp_le harg
  unfold fxExpNeg
  dsimp only
  rw [Int.neg_neg, Int.ofNat_eq_natCast, Int.toNat_natCast]
  generalize fxExp _ = p at *
  generalize y / fxLn2 = k at *
  have hpow : 2 ^ 47 ≤ 2 ^ (k + 1) := Nat.pow_le_pow_right (by omega) (by omega)
  have hu : p / 2 ^ (k + 1) * 2 ^ 47 ≤ p := (Nat.mul_le_mul_left _ hpow).trans (Nat.div_mul_le_self p _)
  have h47 : p / 2 ^ (k + 1) * 2 ^ 40 * 128 ≤ 90 * fxOne := by
    rw [Nat.mul_assoc]
    exact hu.trans hp
  exact Nat.le_of_mul_le_mul_right (h47.trans (by rw [Nat.mul_comm fxOne]; exact Nat.mul_le_mul_right _ (by decide))) (by decide : 0 < 128)

/-! ## `FTANH` and `FSIGM` -/

theorem sfuJustBelow_one (n : Bool) : sfuJustBelow n 1 0 = ⟨(if n then 2 ^ 31 else 0) + 0x3F800000, flNX, false, false⟩ := by
  cases n
  · decide +kernel
  · decide +kernel

theorem tanhRes_big (n : Bool) {m : Nat} {e : Int} (h : 16 * 2 ^ (-e).toNat ≤ m * 2 ^ e.toNat) :
    tanhRes (.fin n m e) = ⟨(if n then 2 ^ 31 else 0) + 0x3F800000, flNX, false, false⟩ := by
  have hm : m ≠ 0 := ne_zero_of_le (Nat.mul_pos (by omega) (Nat.two_pow_pos _)) h
  have hlog := le_log2_of_le (c := 4) h
  have ht : fTiny m e = false := decide_eq_false (by push_cast at hlog; omega)
  have h4 : Int.ofNat (Nat.log2 m) + e ≥ 4 := hlog
  simp only [tanhRes, hm, if_false, ht, Bool.false_eq_true, h4, if_true, sfuJustBelow_one]

/-- 1 as an f32, its neighbour below and its neighbour above. -/
theorem realOf_f32_one : fmtF32.realOf (127 * 2 ^ 23) = 1 ∧ fmtF32.realOf (127 * 2 ^ 23 - 1) = 1 - 1 / 2 ^ 24 ∧
    fmtF32.realOf (127 * 2 ^ 23 + 1) = 1 + 1 / 2 ^ 23 := by
  have h1 : fmtF32.realOf (127 * 2 ^ 23) = 1 := (realOf_f32_pow 126).trans (by norm_num)
  have h0 := realOf_grid (f := fmtF32) (E := 125) (n := 2 ^ 24 - 1) (by decide) (.inr (by decide))
  have h2 := realOf_grid (f := fmtF32) (E := 126) (n := 2 ^ 23 + 1) (by decide) (.inr (by decide))
  refine ⟨h1, ?_, ?_⟩
  · rw [show 127 * 2 ^ 23 - 1 = 125 * 2 ^ fmtF32.mbits + (2 ^ 24 - 1) by decide, h0, lowest_f32]
    norm_num
  · rw [show 127 * 2 ^ 23 + 1 = 126 * 2 ^ fmtF32.mbits + (2 ^ 23 + 1) by decide, h2, lowest_f32]
    norm_num

theorem fxOne_real : (fxOne : ℝ) * (2 : ℝ) ^ (-400 : Int) = 1 := by
  unfold fxOne
  rw [Nat.cast_pow, Nat.cast_ofNat, ← zpow_natCast, ← two_zpow_add]
  norm_num

/-- A fixed-point value at most 1 and within 2^−30 of it, as a real number: P stands for 1, u for a step. -/
theorem near_one_bounds {q P : Nat} {u : ℝ} (hu : 0 < u) (hP : (P : ℝ) * u = 1) (hbig : 2 ^ 30 ≤ P) (hlo : P ≤ q + P / 2 ^ 30) (hhi : q ≤ P) :
    1 - 1 / 2 ^ 30 ≤ q * u ∧ q * u ≤ 1 ∧ u ≤ 1 / 2 ^ 30 ∧ (q + 1 / 2) * u ≠ 1 := by
  have hlow : (P : ℝ) * (2 ^ 30 - 1) ≤ q * 2 ^ 30 := by
    have : P * 2 ^ 30 ≤ q * 2 ^ 30 + P := by
      calc P * 2 ^ 30 ≤ (q + P / 2 ^ 30) * 2 ^ 30 := Nat.mul_le_mul_right _ hlo
        _ = q * 2 ^ 30 + P / 2 ^ 30 * 2 ^ 30 := Nat.add_mul ..
        _ ≤ q * 2 ^ 30 + P := Nat.add_le_add_left (Nat.div_mul_le_self _ _) _
    have h := (Nat.cast_le (α := ℝ)).2 this
    push_cast at h
    linarith
  refine ⟨?_, ?_, ?_, ?_⟩
  · have := mul_le_mul_of_nonneg_right hlow hu.le
    rw [mul_right_comm, hP, mul_right_comm] at this
    linarith
  · exact hP ▸ mul_le_mul_of_nonneg_right (by exact_mod_cast hhi) hu.le
  · rw [le_div_iff₀ (by norm_num), ← hP, mul_comm]
    exact mul_le_mul_of_nonneg_right (by exact_mod_cast hbig) hu.le
  · rw [← hP]
    intro h
    have h2q : ((2 * q + 1 : Nat) : ℝ) = (2 * P : Nat) := by
      push_cast
      linarith [mul_right_cancel₀ hu.ne' h]
    have : 2 * q + 1 = 2 * P := by exact_mod_cast h2q
    omega

/-- A fixed-point value within 2^−30 below 1 rounds to 1. -/
theorem sfuRound_near_one {q : Nat} (hlo : fxOne ≤ q + fxOne / 2 ^ 30) (hhi : q ≤ fxOne) : sfuRound false q (-400) = ⟨0x3F800000, flNX, false, false⟩ := by
  obtain ⟨h1, h0, h2⟩ := realOf_f32_one
  have hpos := two_zpow_pos (-400)
  have hbig : 2 ^ 30 ≤ fxOne := by decide +kernel
  obtain ⟨hl, hu, hstep, hne⟩ := near_one_bounds hpos fxOne_real hbig hlo hhi
  have hq : 2 ^ 24 ≤ q := by
    have hdiv : fxOne / 2 ^ 30 * 2 ^ 30 ≤ fxOne := Nat.div_mul_le_self _ _
    generalize fxOne = P at *
    omega
  have hn : NearTo fmtF32 ((q + 1 / 2) * (2 : ℝ) ^ (-400 : Int)) (127 * 2 ^ 23) := by
    refine .inr ⟨by decide, fun b hb => ?_, ?_⟩
    · obtain rfl : b = 127 * 2 ^ 23 - 1 := by omega
      rw [h0, h1]
      linarith
    · rw [h1, h2]
      linarith
  have h := (roundVal_near (f := fmtF32) (by decide) false false (m := q) (e := -400) (sticky := true) (c := 127 * 2 ^ 23) (fun _ => hq)
    (by linarith) (by linarith) ?_ (by decide) hn).2 (by rwa [h1])
  · exact h.trans (by decide)
  · simp only [true_iff]
    intro hc
    linarith

/-- 1 / (1 + u) for a u of at most 2^−40. -/
theorem le_quotient_near {P u : Nat} (hu : u * 2 ^ 40 ≤ P) : P ≤ P * P / (P + u) + P / 2 ^ 30 := by
  have hdiv : u ≤ P / 2 ^ 30 := (Nat.le_div_iff_mul_le (by decide)).2 ((Nat.mul_le_mul_left u (by decide)).trans hu)
  have hq : P - u ≤ P * P / (P + u) := by
    rcases Nat.eq_zero_or_pos (P + u) with h0 | h0
    · rw [show P = 0 by omega, Nat.zero_sub]
      exact Nat.zero_le _
    · rw [Nat.le_div_iff_mul_le h0, Nat.mul_comm, ← Nat.mul_self_sub_mul_self_eq]
      exact Nat.sub_le _ _
  omega

theorem quotient_le_one {P : Nat} (u : Nat) : P * P / (P + u) ≤ P :=
  Nat.div_le_of_le_mul (Nat.mul_le_mul_right _ (Nat.le_add_right P u))

/-- A value of at least c has a fixed-point number of at least c. -/
theorem toFx_ge {m c : Nat} {e : Int} (h : c * 2 ^ (-e).toNat ≤ m * 2 ^ e.toNat) : c * fxOne ≤ toFx m e := by
  unfold toFx fxOne
  obtain ⟨K, hK⟩ : ∃ K : Nat, K = 400 := ⟨_, rfl⟩
  rw [show (400 : Int) = (K : Int) by omega, ← hK]
  by_cases he : 0 ≤ e
  · rw [Int.toNat_of_nonpos (by omega : -e ≤ 0), Nat.pow_zero, Nat.mul_one] at h
    rw [show (e + K).toNat = e.toNat + K by omega, Nat.pow_add, ← Nat.mul_assoc]
    exact Nat.mul_le_mul_right _ h
  · rw [Int.toNat_of_nonpos (by omega : e ≤ 0), Nat.pow_zero, Nat.mul_one] at h
    calc c * 2 ^ K ≤ c * 2 ^ ((-e).toNat + (e + K).toNat) := Nat.mul_le_mul_left _ (Nat.pow_le_pow_right (by omega) (by omega))
      _ = c * 2 ^ (-e).toNat * 2 ^ (e + K).toNat := by rw [Nat.pow_add, Nat.mul_assoc]
      _ ≤ m * 2 ^ (e + K).toNat := Nat.mul_le_mul_right _ h

/-- `FSIGM` of a value of at least 32. -/
theorem sigmRes_big {m : Nat} {e : Int} (h : 32 * 2 ^ (-e).toNat ≤ m * 2 ^ e.toNat) : sigmRes (.fin false m e) = ⟨0x3F800000, flNX, false, false⟩ := by
  have hm : m ≠ 0 := ne_zero_of_le (Nat.mul_pos (by omega) (Nat.two_pow_pos _)) h
  by_cases h7 : Int.ofNat (Nat.log2 m) + e ≥ 7
  · simp only [sigmRes, hm, if_false, h7, if_true, Bool.false_eq_true, sfuJustBelow_one]
  · have hu := fxExpNeg_small (y := toFx m e) ?_
    · simp only [sigmRes, hm, if_false, h7, Bool.false_eq_true]
      generalize (fxExpNeg (toFx m e)).1 / 2 ^ (-(fxExpNeg (toFx m e)).2).toNat = u at *
      exact sfuRound_near_one (le_quotient_near hu) (quotient_le_one u)
    · exact toFx_ge h

end Sys2Proof.Machine
end

section
/-! PROOF. Float division and special functions (R97, R173 to R175). -/
namespace Sys2Proof.Machine

/-! ## The forms -/

theorem fdiv_does (o : LlB) : DoesLl (.fdiv o) o.k o.d [o.a, o.b] (noLookahead o.la) (fun h l =>
    floatOut (divRes fmtF32 h.f.view.rm (f32 (h.v o.a)[l]) (f32 (h.v o.b)[l])) [f32 (h.v o.a)[l], f32 (h.v o.b)[l]]) :=
  llB_does (i := .fdiv o) (f := fun h a b => fbin (fun rm => divRes fmtF32 rm) h a b) (fun s => (rfl : execFdiv o s = _))
    (fun _ p => laFor_zero p) (fun h => by cases h) (fun _ _ => ⟨rfl, rfl, rfl⟩)

/-- A special function that runs as `llU` of `sfu`. -/
theorem sfu_does {i : Instr} {o : LlU} {f : BitVec 2 → FVal → FRes} (e : ∀ s, exec i s = llU s i o (fun rm => sfu (f rm))) :
    DoesLl i o.k o.d [o.a] (noLookahead o.la) (fun h l => floatOut (f h.f.view.rm (f32 (h.v o.a)[l])) [f32 (h.v o.a)[l]]) :=
  llU_does e (fun _ p => laFor_zero p) fun _ _ => ⟨rfl, rfl, rfl⟩

/-- `FDIV`'s NaN is the first of its two. -/
theorem div_nanRule (rm : BitVec 2) (a b : FVal) : NanRule fmtF32 false [a, b] (divRes fmtF32 rm a b) :=
  nanRule_of_firstNan fmtF32_mem fun x hx => by simp only [divRes, hx]

theorem rcp_nanRule (rm : BitVec 2) (a : FVal) : NanRule fmtF32 false [a] (rcpRes rm a) :=
  nanRule_one (fun _ _ => rfl) a

/-- Every special function runs in the lanes of its mask and hands a NaN to R143. -/
theorem special_does (o : LlU) (p : Instr × (BitVec 2 → FVal → FRes))
    (hp : p ∈ [(.fsqrt o, sqrtRes), (.frcp o, rcpRes), (.frsq o, rsqRes), (.fexp2 o, fun _ => exp2Res), (.flog2 o, fun _ => log2Res),
      (.fsin o, fun _ => sinRes), (.fcos o, fun _ => cosRes), (.ftanh o, fun _ => tanhRes), (.fsigm o, fun _ => sigmRes)]) :
    DoesLl p.1 o.k o.d [o.a] (noLookahead o.la) (fun h l => floatOut (p.2 h.f.view.rm (f32 (h.v o.a)[l])) [f32 (h.v o.a)[l]]) ∧
      ∀ rm a, NanRule fmtF32 false [a] (p.2 rm a) := by
  simp only [List.mem_cons, List.not_mem_nil, or_false] at hp
  rcases hp with rfl | rfl | rfl | rfl | rfl | rfl | rfl | rfl | rfl
  · exact ⟨sfu_does (i := .fsqrt o) (f := sqrtRes) fun s => (rfl : execFsqrt o s = _), fun rm => nanRule_one fun _ _ => rfl⟩
  · exact ⟨sfu_does (i := .frcp o) (f := rcpRes) fun s => (rfl : execFrcp o s = _), rcp_nanRule⟩
  · exact ⟨sfu_does (i := .frsq o) (f := rsqRes) fun s => (rfl : execFrsq o s = _), fun rm => nanRule_one fun _ _ => rfl⟩
  · exact ⟨sfu_does (i := .fexp2 o) (f := fun _ => exp2Res) fun s => (rfl : execFexp2 o s = _), fun _ => nanRule_one fun _ _ => rfl⟩
  · exact ⟨sfu_does (i := .flog2 o) (f := fun _ => log2Res) fun s => (rfl : execFlog2 o s = _), fun _ => nanRule_one fun _ _ => rfl⟩
  · exact ⟨sfu_does (i := .fsin o) (f := fun _ => sinRes) fun s => (rfl : execFsin o s = _), fun _ => nanRule_one fun _ _ => rfl⟩
  · exact ⟨sfu_does (i := .fcos o) (f := fun _ => cosRes) fun s => (rfl : execFcos o s = _), fun _ => nanRule_one fun _ _ => rfl⟩
  · exact ⟨sfu_does (i := .ftanh o) (f := fun _ => tanhRes) fun s => (rfl : execFtanh o s = _), fun _ => nanRule_one fun _ _ => rfl⟩
  · exact ⟨sfu_does (i := .fsigm o) (f := fun _ => sigmRes) fun s => (rfl : execFsigm o s = _), fun _ => nanRule_one fun _ _ => rfl⟩

/-! ## Values with a zero or an infinity -/

theorem withSign_zero (n : Bool) : (⟨fmtF32.withSign n 0, 0#5, false, false⟩ : FRes) = zeroOf fmtF32 n := by
  rw [withSign_eq]
  rfl

theorem infOf_f32 (n : Bool) : FRes.infOf fmtF32 n false = infinityOf fmtF32 n := infinityOf_eq fmtF32 n rfl

/-- Quotients with a zero or an infinity (R173). -/
theorem divRes_special (rm : BitVec 2) (na nb : Bool) (ma mb : Nat) (ea eb : Int) :
    let q := divRes fmtF32 rm
    InvalidOut fmtF32 (q (.inf na) (.inf nb)) ∧ q (.inf na) (.fin nb mb eb) = infinityOf fmtF32 (na != nb) ∧
    q (.fin na ma ea) (.inf nb) = zeroOf fmtF32 (na != nb) ∧ InvalidOut fmtF32 (q (.fin na 0 ea) (.fin nb 0 eb)) ∧
    (ma ≠ 0 → q (.fin na ma ea) (.fin nb 0 eb) = { infinityOf fmtF32 (na != nb) with flags := flDZ }) := by
  refine ⟨invalidOut_f32, infOf_f32 _, withSign_zero _, invalidOut_f32, fun hma => ?_⟩
  rw [← infOf_f32]
  simp only [divRes, firstNan, FVal.neg?, hma, if_true, if_false]

/-- Square roots of a zero, an infinity or a negative value (R175). -/
theorem sqrtRes_special (rm : BitVec 2) (n : Bool) (m : Nat) (e : Int) :
    sqrtRes rm (.inf false) = infinityOf fmtF32 false ∧ InvalidOut fmtF32 (sqrtRes rm (.inf true)) ∧
    sqrtRes rm (.fin n 0 e) = zeroOf fmtF32 n ∧ (m ≠ 0 → InvalidOut fmtF32 (sqrtRes rm (.fin true m e))) := by
  refine ⟨infOf_f32 _, invalidOut_f32, withSign_zero n, fun hm => ?_⟩
  simp only [sqrtRes, hm, if_true, if_false]
  exact invalidOut_f32

/-- Reciprocal roots of a zero, an infinity or a negative value (R175). -/
theorem rsqRes_special (rm : BitVec 2) (n : Bool) (m : Nat) (e : Int) :
    rsqRes rm (.inf false) = zeroOf fmtF32 false ∧ InvalidOut fmtF32 (rsqRes rm (.inf true)) ∧
    rsqRes rm (.fin n 0 e) = { infinityOf fmtF32 n with flags := flDZ } ∧ (m ≠ 0 → InvalidOut fmtF32 (rsqRes rm (.fin true m e))) := by
  refine ⟨rfl, invalidOut_f32, by rw [← infOf_f32]; rfl, fun hm => ?_⟩
  simp only [rsqRes, hm, if_true, if_false]
  exact invalidOut_f32

/-- `FEXP2` of whole numbers (R175). -/
theorem exp2Res_cases {m j : Nat} {e : Int} (h : m * 2 ^ e.toNat = j * 2 ^ (-e).toNat) :
    (j ≤ 127 → exp2Res (.fin false m e) = ⟨(j + 127) * 2 ^ 23, 0#5, false, false⟩) ∧
    (j ≤ 126 → exp2Res (.fin true m e) = ⟨(127 - j) * 2 ^ 23, 0#5, false, false⟩) ∧
    (127 ≤ j → j ≤ 149 → exp2Res (.fin true m e) = ⟨2 ^ (149 - j), 0#5, false, false⟩) ∧
    (149 < j → exp2Res (.fin true m e) = ⟨0, flUF ||| flNX, false, false⟩) := by
  have hpos (hj : j ≤ 127) : exp2Res (.fin false m e) = sfuExact false 1 j := by
    rw [exp2Res_whole false h, signedNat_eq, signedNat, if_neg Bool.false_ne_true, if_neg (by omega), if_neg (by omega)]
  have hneg (hj : j ≤ 400) : exp2Res (.fin true m e) = sfuExact false 1 (-j) := by
    rw [exp2Res_whole true h, signedNat_eq, signedNat, if_pos rfl, if_neg (by omega), if_neg (by omega)]
  refine ⟨fun hj => ?_, fun hj => ?_, fun h1 h2 => ?_, fun hj => ?_⟩
  · rw [hpos hj]
    exact sfuExact_pow (by omega) (by omega) (by omega)
  · rw [hneg (by omega)]
    exact sfuExact_pow (by omega) (by omega) (by omega)
  · rw [hneg (by omega)]
    exact sfuExact_sub h1 h2
  · by_cases h400 : j ≤ 400
    · rw [hneg h400]
      exact sfuExact_tiny hj
    · rw [exp2Res_whole true h, signedNat_eq, signedNat, if_pos rfl, if_neg (by omega), if_pos (by omega)]
      decide

/-- `FLOG2` of a zero, an infinity or a negative value (R175). -/
theorem log2Res_special (n : Bool) (m : Nat) (e : Int) :
    log2Res (.inf false) = infinityOf fmtF32 false ∧ InvalidOut fmtF32 (log2Res (.inf true)) ∧
    log2Res (.fin n 0 e) = { infinityOf fmtF32 true with flags := flDZ } ∧ (m ≠ 0 → InvalidOut fmtF32 (log2Res (.fin true m e))) := by
  refine ⟨infOf_f32 _, invalidOut_f32, by rw [← infOf_f32]; rfl, fun hm => ?_⟩
  simp only [log2Res, hm, if_true, if_false]
  exact invalidOut_f32

/-- `FLOG2` of a power of two is its exponent, exactly. -/
theorem log2Res_exact {j : Nat} {e : Int} (h : (j + e).natAbs ≤ 2 ^ 24) :
    (log2Res (.fin false (2 ^ j) e)).flags = 0#5 ∧ (log2Res (.fin false (2 ^ j) e)).bits < 2 ^ 32 ∧
      (FVal.decode fmtF32 (log2Res (.fin false (2 ^ j) e)).bits).cmp (.fin (decide (j + e < 0)) (j + e).natAbs 0) = .eq := by
  obtain ⟨c, hc, hv, hres⟩ := log2Res_pow h
  obtain ⟨hlt, -, hcmp⟩ := decode_whole (decide ((j : Int) + e < 0)) hc hv
  rw [hres]
  exact ⟨rfl, hlt, hcmp⟩

/-- Settles O13: each form by its rule for a lane; quotients and roots by the one rounding of their whole part and rest; the other functions
where R175 fixes them. -/
theorem divisionAndSpecialFunctions : Obligations.DivisionAndSpecialFunctions := by
  refine ⟨fdiv_does, special_does, div_nanRule, fun rm na nb ma mb ea eb => ?_, fun rm n m e => ?_, fun n m j e => ?_, fun n m e => ?_⟩
  · obtain ⟨h1, h2, h3, h4, h5⟩ := divRes_special rm na nb ma mb ea eb
    exact ⟨h1, h2, h3, h4, h5, fun hb k hk hl => div_delivers rm hb hk hl⟩
  · obtain ⟨h1, h2, h3, h4⟩ := sqrtRes_special rm n m e
    obtain ⟨g1, g2, g3, g4⟩ := rsqRes_special rm n m e
    exact ⟨h1, h2, h3, h4, fun hm k hk hl => sqrt_delivers rm hm hk hl, fun _ => rfl, g1, g2, g3, g4,
      fun hm h64 k hk hl => rsq_delivers rm hm h64 hk hl⟩
  · obtain ⟨h1, h2, h3, h4⟩ := log2Res_special n m e
    exact ⟨rfl, infOf_f32 _, exp2Res_cases, exp2Res_big, h1, h2, h3, h4, log2Res_exact⟩
  · have hcos : sfuExact false 1 0 = ⟨0x3F800000, 0#5, false, false⟩ := by decide
    have hsigm : sfuExact false 1 (-1) = ⟨0x3F000000, 0#5, false, false⟩ := by decide
    have htanh : sfuExact n 1 0 = ⟨(if n then 2 ^ 31 else 0) + 0x3F800000, 0#5, false, false⟩ := by revert n; decide
    exact ⟨withSign_zero n, invalidOut_f32, hcos, invalidOut_f32, withSign_zero n, htanh, tanhRes_big n, hsigm, hcos, rfl, sigmRes_big⟩

end Sys2Proof.Machine
end
